-- ==== Sys2Proof/Word.lean ====
section
/-! DEFINITION. The word types of the part and their plainest arithmetic (R1, R17). -/
namespace Sys2Proof

/-- A byte of memory. -/
abbrev Byte := BitVec 8
/-- A 32-bit word: an instruction word, a general or a uniform register. -/
abbrev Word := BitVec 32
/-- A 64-bit value: a program counter, a carder register, a register pair. -/
abbrev DWord := BitVec 64

/-- Bits `hi` down to `lo` of `w`, both ends included (R1). -/
def bits {n : Nat} (w : BitVec n) (hi lo : Nat) : BitVec (hi + 1 - lo) :=
  w.extractLsb' lo (hi + 1 - lo)

/-- The same field as a number. -/
def field {n : Nat} (w : BitVec n) (hi lo : Nat) : Nat :=
  (w.toNat >>> lo) % 2 ^ (hi + 1 - lo)

/-- Low and high word of a 64-bit value. -/
def DWord.lo (v : DWord) : Word := v.setWidth 32
def DWord.hi (v : DWord) : Word := (v >>> 32).setWidth 32
/-- The 64-bit value of a register pair, low word first (R44). -/
def pair (lo hi : Word) : DWord := hi ++ lo

/-- The `n` little-endian bytes of `v` (R1). -/
def bytesOf : (n : Nat) → (v : Nat) → List Byte
  | 0, _ => []
  | n + 1, v => BitVec.ofNat 8 v :: bytesOf n (v / 256)

/-- The number whose little-endian bytes are `bs` (R1). -/
def ofBytes : List Byte → Nat
  | [] => 0
  | b :: bs => b.toNat + 256 * ofBytes bs

/-- The compute dies of the module (R7). -/
abbrev DieId := Fin 8
/-- Partition numbers (R9). -/
abbrev PartId := Fin 8

end Sys2Proof
end

