-- ==== Sys2Proof/Syntax.lean ====
section
/-! DEFINITION. The instructions and events of the part: one constructor for every row of the table of operations and events.
The encoded words carry the fields of the opcode map (R18, R28); the events carry what the agent that raises them supplies. -/
namespace Sys2Proof

/-- A general register g0 to g63, or c0 to c31 on a carder (R19). -/
abbrev Reg := BitVec 6
/-- A uniform register field, k0 to k191 when well-formed (R19). -/
abbrev KReg := BitVec 8
/-- A buffer slot field, b0 to b23 when well-formed (R19). -/
abbrev Buf := BitVec 5
/-- A tile or shape register t0 to t15 (R19). -/
abbrev Tile := BitVec 4
/-- A format slot fmt0 to fmt7 (R19). -/
abbrev FmtSlot := BitVec 3
/-- A lookahead count (R15). -/
abbrev La := BitVec 4
/-- A context id (R10). -/
abbrev Ctx := BitVec 12

/-- Scopes (R13). -/
inductive Scope where
  | lane | core | quad | die | pkg | pod
  deriving DecidableEq, Repr

/-- Integer conditions (R30). -/
inductive ICond where
  | eq | ne | ltI | leI | ltN | leN
  deriving DecidableEq, Repr

/-- Float conditions (R30). -/
inductive FCond where
  | eq | ne | lt | le | un
  deriving DecidableEq, Repr

/-- Width field W of the memory words (R31). -/
inductive Width where
  | w32 | i8 | n8 | h16 | b16 | e43 | e52 | i4 | n4 | x64 | x128
  deriving DecidableEq, Repr

/-- Width of FILL and SPILL (R31). -/
inductive SpillWidth where
  | w32 | x64 | x128
  deriving DecidableEq, Repr

/-- Width of GLD (R31). -/
inductive GldWidth where
  | w32 | x64
  deriving DecidableEq, Repr

/-- Modifier M of CLDX and CSTX (R72). -/
inductive CWidth where
  | n32 | i32 | x64
  deriving DecidableEq, Repr

/-- Modifier M of CSECT and CMRG (R72). -/
inductive SWidth where
  | n32 | x64
  deriving DecidableEq, Repr

/-- Formats of FCVT (R180). -/
inductive NumFmt where
  | f32 | b16 | h16 | e43 | e52
  deriving DecidableEq, Repr

/-- Modes of SHFL (R194). -/
inductive ShflMode where
  | idx | up | down | xor
  deriving DecidableEq, Repr

/-- Modes of GSHFL (R195). -/
inductive GshflMode where
  | idx | rot | xor
  deriving DecidableEq, Repr

/-- Modes of VOTE (R196). -/
inductive VoteMode where
  | any | all | ballot | first
  deriving DecidableEq, Repr

/-- Operators of LRED, LSCAN, ATOM and ARED (R28, R197, R241). -/
inductive RedOp where
  | add | minI | maxI | minN | maxN | and | or | xor
  deriving DecidableEq, Repr

/-- Operators of the f32 reductions (R198). -/
inductive FRedOp where
  | add | min | max
  deriving DecidableEq, Repr

/-- Counters of WAIT.cnt (R135). -/
inductive Counter where
  | copy | atom | load | tile
  deriving DecidableEq, Repr

/-- Order of a HINT.ORD (R26). -/
inductive Order where
  | plain | acq | rel | ar
  deriving DecidableEq, Repr

/-- Cache field of a HINT.ORD (R26). -/
inductive CachePolicy where
  | record | norm | stream | keep | bypass
  deriving DecidableEq, Repr

/-- Rounding field of a HINT.FMTX (R26). -/
inductive HintRound where
  | own | rne | rz | rdn | rup
  deriving DecidableEq, Repr

/-- Routers of the fabric (R88): leaf, middle and crown routers of a die, and the package name router. -/
inductive Router where
  | leaf (d : DieId) (n : Fin 16)
  | middle (d : DieId) (n : Fin 8)
  | crown (d : DieId) (n : Fin 4)
  | package
  deriving DecidableEq, Repr

/-- Where an uncorrectable error stands (R43, R100, R117, R217, R234). -/
inductive EccSite where
  /-- main memory or a poisoned CXL read, at device address `da`, met by the agent that owns the context of die `d` -/
  | memory (d : DieId) (da : Nat)
  /-- local memory of core `core`: space, group and address -/
  | localMem (d : DieId) (core space gid a : Nat)
  /-- a register of a core, while the division that index `x` of a group stands at is at a micro-step (R355) -/
  | division (d : DieId) (gid x step : Nat)
  /-- tile register `t` of group `gid` on core `core` -/
  | tile (d : DieId) (core gid t : Nat)
  /-- a variable line of the sync engine, at device address `da` -/
  | sync (d : DieId) (da : Nat)
  /-- a line of the engine's queues: its `k`-th resident queue -/
  | queue (d : DieId) (k : Nat)
  /-- a line of counter sets, or of sessions: the `k`-th of the module -/
  | counters (k : Nat)
  | session (k : Nat)
  /-- chunk `c` of the `k`-th stored tile of router `r` -/
  | store (r : Router) (k c : Nat)
  deriving DecidableEq, Repr

/-- What boot firmware writes for one die at step 4 of bring-up (R324, R361, R91). -/
structure DieBoot where
  svboot  : DWord
  trapvec : Word
  rtab    : DWord
  ptroot  : DWord
  svCore  : Nat
  crowns  : List (Fin 4)
  failed  : List Nat
  deriving DecidableEq, Repr, Inhabited

/-- What power-on bring-up is given: the verdict of the root of trust, the firmware measurement, the step of 2 to 4 that fails, if one does, and what
step 4 writes (R361). -/
structure BootImage where
  trusted     : Bool
  measurement : BitVec 512
  fails       : Option (Fin 3)
  harvested   : List Router
  routes      : List (BitVec 12 × List (Fin 36))
  dies        : List DieBoot
  deriving DecidableEq, Repr, Inhabited

/-- A loader command (R341): the fields of its 64-byte image. -/
structure LoaderCmd where
  opc    : Byte
  part   : Byte
  ctx    : BitVec 16
  resv0  : Word
  src    : DWord
  len    : DWord
  desc   : DWord
  tarea  : DWord
  tsize  : DWord
  status : DWord
  dies   : Byte
  resv1  : BitVec 56
  deriving DecidableEq, Repr

/-- One region the blocking translator publishes (R349): its context, where the native words stand, the words, the Silol
segment's measurement, and the safe-point pairs (Silol address, native address). -/
structure Publication where
  part  : PartId
  ctx   : BitVec 12
  addr  : DWord
  words : List Word
  pairs : List (DWord × DWord)
  deriving DecidableEq, Repr

/-- A write of the loader's key slots through the management block (R340). -/
inductive KeyWrite where
  | key (slot : Fin 16) (k : BitVec 456)
  | enable (slot : Fin 16) (on : Bool)
  | mask (p : PartId) (m : BitVec 16)
  deriving DecidableEq, Repr

/-- The instructions (fields in the order of the assembler operands) and the events. -/
inductive Instr where
  -- integer (R154 to R157), fixed unless they carry a lookahead count
  | iadd (d a b : Reg) | isub (d a b : Reg)
  | iaddSatI32 (d a b : Reg) | isubSatI32 (d a b : Reg) | iaddSatN32 (d a b : Reg) | isubSatN32 (d a b : Reg)
  | iabs (d a : Reg) | ineg (d a : Reg)
  | imul (d a b : Reg) (la : La) | imulhI32 (d a b : Reg) (la : La) | imulhN32 (d a b : Reg) (la : La)
  | imad (d a b : Reg) (la : La)
  | iminI32 (d a b : Reg) | iminN32 (d a b : Reg) | imaxI32 (d a b : Reg) | imaxN32 (d a b : Reg)
  | and (d a b : Reg) | or (d a b : Reg) | xor (d a b : Reg) | andn (d a b : Reg) | not (d a : Reg)
  | shl (d a b : Reg) | shr (d a b : Reg) | sar (d a b : Reg) | rol (d a b : Reg)
  | bfxI32 (d a b : Reg) | bfxN32 (d a b : Reg) | bfi (d a b : Reg)
  | popc (d a : Reg) | clz (d a : Reg) | ctz (d a : Reg) | brev (d a : Reg)
  | icmp (c : ICond) (d a b : Reg) | sel (d a b : Reg) | mov (d a : Reg) | movk (d : Reg) (k : KReg)
  | idivI32 (d a b : Reg) (la : La) | idivN32 (d a b : Reg) (la : La)
  | iremI32 (d a b : Reg) (la : La) | iremN32 (d a b : Reg) (la : La)
  | movi (d : Reg) (imm : BitVec 13) | addi (d a : Reg) (imm : BitVec 13) | andi (d a : Reg) (imm : BitVec 13)
  | ori (d a : Reg) (imm : BitVec 13) | xori (d a : Reg) (imm : BitVec 13) | shli (d a : Reg) (imm : BitVec 5)
  -- uniform and scalar (R158 to R163)
  | kadd (k b : KReg) | ksub (k b : KReg) | kmul (k b : KReg) | kand (k b : KReg) | kor (k b : KReg)
  | kxor (k b : KReg) | kshl (k b : KReg) | kshr (k b : KReg)
  | kcmp (c : ICond) (k b : KReg) | kmov (k b : KReg) | kmovi (k : KReg) (imm : BitVec 17)
  | kld (k : KReg) (n : Buf) (o : KReg) | kst (k : KReg) (n : Buf) (o : KReg)
  | rds (d : Reg) (s : BitVec 8) (hi : Bool) | movts (n : Tile) (k : KReg)
  -- floating point (R186 to R192) and conversions (R178 to R182)
  | fadd (d a b : Reg) (la : La) | fsub (d a b : Reg) (la : La) | fmul (d a b : Reg) (la : La)
  | ffma (d a b : Reg) (la : La) | fmin (d a b : Reg) (la : La) | fmax (d a b : Reg) (la : La)
  | fneg (d a : Reg) (la : La) | fabs (d a : Reg) (la : La) | fcmp (c : FCond) (d a b : Reg) (la : La)
  | frcp (d a : Reg) (la : La) | frsq (d a : Reg) (la : La) | fsqrt (d a : Reg) (la : La)
  | fexp2 (d a : Reg) (la : La) | flog2 (d a : Reg) (la : La) | ftanh (d a : Reg) (la : La)
  | fclass (d a : Reg) (la : La)
  | cvtifI32 (d a : Reg) (la : La) | cvtifN32 (d a : Reg) (la : La)
  | cvtfiI32 (d a : Reg) (la : La) | cvtfiN32 (d a : Reg) (la : La)
  | fcvt (dst src : NumFmt) (d a : Reg) (la : La)
  | hadd2H16 (d a b : Reg) (la : La) | hmul2H16 (d a b : Reg) (la : La) | hfma2H16 (d a b : Reg) (la : La)
  | hadd2B16 (d a b : Reg) (la : La) | hmul2B16 (d a b : Reg) (la : La) | hfma2B16 (d a b : Reg) (la : La)
  | bkpack (d a : Reg) (n : FmtSlot) (la : La) | bkunpk (d a : Reg) (n : FmtSlot) (la : La)
  | fdiv (d a b : Reg) (la : La)
  -- cross-lane (R194 to R198)
  | shfl (m : ShflMode) (d a b : Reg) (la : La) | vote (m : VoteMode) (d a : Reg) (la : La)
  | lred (o : RedOp) (d a : Reg) (la : La) | lscanIncl (o : RedOp) (d a : Reg) (la : La)
  | lscanExcl (o : RedOp) (d a : Reg) (la : La)
  | lredF32 (o : FRedOp) (d a : Reg) (la : La) | lscanInclF32 (o : FRedOp) (d a : Reg) (la : La)
  | lscanExclF32 (o : FRedOp) (d a : Reg) (la : La)
  | gshfl (m : GshflMode) (d a b : Reg) (la : La)
  -- hood and form (R153, R164, R165)
  | form (d a b : Reg) | formTag (d a : Reg) | hcount (d : Reg) | reform (d : Reg) (k : KReg)
  -- control (R261 to R269)
  | bra (off : BitVec 19) | brc (c : Reg) (off : BitVec 19) | call (d : Reg) (off : BitVec 19)
  | ret (a : Reg) | brx (a : Reg)
  | join (k : KReg) | regclaim (n : Reg) | reggive (n : Reg) | trapi (code : BitVec 12) | brk (code : BitVec 12)
  -- local memory (R121 to R124) and GLD (R358)
  | ld (w : Width) (d : Reg) (n : Buf) (a : Reg) (la : La) | st (w : Width) (s : Reg) (n : Buf) (a : Reg)
  | fill (w : SpillWidth) (d a : Reg) (la : La) | spill (w : SpillWidth) (s a : Reg)
  | brld (n m : Buf) (a : Reg) (la : La) | gld (w : GldWidth) (d a : Reg) (la : La)
  -- barriers, waits and rings (R130 to R139)
  | binit (s : Scope) (k b : KReg) | bretire (k : KReg) | barrive (k : KReg) | bexpect (k b : KReg)
  | wait (k b : KReg) | btest (d : Reg) (k b : KReg) | ctest (d : Reg) (k b : KReg)
  | rinit (k b : KReg) | rprodTake (k : KReg) | rprodFill (k : KReg) | rconsTake (d : Reg) (k : KReg)
  | rconsFree (k : KReg) | waitCnt (c : Counter) (limit : BitVec 8)
  -- bulk copy (R68 to R71)
  | tcopy (n : Buf) (k c : KReg) | tcopyMc (n : Buf) (k c : KReg) | gath (n : Buf) (k : KReg) (a : Reg)
  | scat (n : Buf) (k : KReg) (a : Reg) | crun (c : BitVec 1) (k a : KReg)
  -- carder-only (R74 to R79)
  | cldx (m : CWidth) (d a b : Reg) | cstx (m : CWidth) (s a b : Reg) | caddr (d a b : Reg) | cxfer (a b c : Reg)
  | csect (m : SWidth) (d a b : Reg) | cmrg (m : SWidth) (d a b : Reg) | carrive (a b : Reg)
  -- named tiles (R107 to R111)
  | want (n : Buf) (k : KReg) | offer (n : Buf) (k : KReg) | unwant (k : KReg) | nevict (k : KReg) | ntwr (k b : KReg)
  -- collectives (R227 to R229, R252, R253)
  | credCanon (s : Scope) (k a : KReg) | credExact (s : Scope) (k a : KReg) | cclose (k : KReg)
  | phase (s : Scope) (k b : KReg) | bar (s : Scope)
  -- tile engine (R208 to R216)
  | tmma (td ta tb : Tile) (fa fb : FmtSlot) (sa sb acc : Bool) (la : La)
  | tmmai (td ta tb : Tile) (fa fb : FmtSlot) (sa sb acc : Bool) (la : La)
  | tld (tr : Bool) (t : Tile) (n : Buf) (a : Reg) (la : La) | tst (tr : Bool) (t : Tile) (n : Buf) (a : Reg)
  | tdrain (t : Tile) (n : Buf) (a : Reg) (la : La) | tdrainFmt (f : FmtSlot) (t : Tile) (n : Buf) (a : Reg) (la : La)
  | trowrd (d : Reg) (t : Tile) (b : Reg) (la : La) | trowwr (t : Tile) (a b : Reg) | tscale (t : Tile) (a : Reg)
  | tzero (t : Tile) | tdred (t : Tile) (k : KReg)
  -- atomics (R241 to R244)
  | atom (o : RedOp) (d a b : Reg) (la : La) | atomXchg (d a b : Reg) (la : La)
  | acas (d a b : Reg) (la : La) | acasX64 (d a b : Reg) (la : La) | acas128 (d a b : Reg) (la : La)
  | sld (d a : Reg) (la : La) | sst (a b : Reg) | sldX64 (d a : Reg) (la : La) | sstX64 (a b : Reg)
  | ared (o : RedOp) (a b : Reg)
  -- queues (R290)
  | qpush (k b : KReg) | qpop (d : Reg) (k b : KReg) | qlen (d : Reg) (k : KReg) | nemit (k b : KReg)
  -- ordering (R299 to R303, R51)
  | bind (k b : KReg) | acq (s : Scope) (k : KReg) | rel (s : Scope) (k : KReg) | tfence (s : Scope)
  | dinv (s : Scope)
  -- system (R325 to R332, R351)
  | sysrd (d : Reg) (n : BitVec 12) | syswr (n : BitVec 12) (a : Reg)
  | eqrd (d : Reg) (cls : BitVec 4) (inst : BitVec 8) | eqwr (cls : BitVec 4) (inst : BitVec 8) (a : Reg)
  | haltp (p : BitVec 3) | icinv (a : Reg) | sysrdX64 (d : Reg) (n : BitVec 12) | syswrX64 (n : BitVec 12) (a : Reg)
  -- hints (R26)
  | hintImmhi (v : BitVec 19) | hintOrd (s : Scope) (o : Order) (c : CachePolicy)
  | hintFmtx (r : HintRound) (sat sr : Bool) (seed : BitVec 16) | hintLife (us : BitVec 22) | hintPred (g : Reg)
  -- events of the carders, hoods and scheduling
  | carderCommandStart (d : DieId) (inst : Nat) | unitLanding (d : DieId) (inst : Nat)
  | mergeHoldTimeout (d : DieId) (gid lo : Nat)
  | launchStart (p : PartId) (handle : Word) | groupPlacement (d : DieId) | workSteal (d : DieId)
  | groupEnd (d : DieId) (gid : Nat) | launchEnd (launch : Nat)
  | binTimerExpiry (launch node : Nat) | binDrain (launch node : Nat)
  -- events of the sync engines
  | queueMiss (k : Nat) | atomicPerform (k : Nat) | syncReplyLanding (k : Nat)
  -- events of the fabric
  | interestArrival (k : Nat) | tileHeaderArrival (k : Nat) | withdrawalArrival (k : Nat)
  | pendingDeadline (k : Nat) | offerHeaderArrival (k : Nat) | offerChunkArrival (k : Nat)
  | retentionExpiry (k : Nat) | chunkLanding (k : Nat)
  | interestLifetimeExpiry (d : DieId) (k : Nat)
  -- events of the sessions
  | sessionJoin (k : Nat) | sessionClose (k : Nat) | sessionResultWrite (k : Nat)
  -- migration, tile engine, halts
  | migrationComplete (frame : Nat) | migctlWrite (d : DieId) (v : Word)
  | tileWordPerform (d : DieId) (core : Nat)
  | haltComplete (p : PartId) | eventDelivery (d : DieId) | tsliceExpiry (p : PartId)
  | tsliceWrite (d : DieId) (v : Word) | tpendClear (d : DieId) (v : Word) | haltreq (p : PartId) | stepHalt (p : PartId)
  -- context swap
  | contextSwap (d : DieId) (ctx : Ctx) | swapComplete (d : DieId) | shadowSave (d : DieId)
  | shadowLoad (d : DieId) (ctx : Ctx) | shadowCreate (d : DieId) (ctx : Ctx) | shadowOpComplete (d : DieId)
  -- words without fields
  | expand | exit | yield | nop | chalt | ifence | trapret | hintMerge
  -- a word that is no well-formed instruction
  | malformedWord
  -- events that the outside raises: each takes its data from the input at the head of the machine's inbox
  | podGenerationOpen | podCombinedArrival | podPhaseCount | podRelease
  | linkFlitError | laneSparing | headerCrcFailure
  | migrationStart
  | partitionLayoutWrite | powerOnBringup | bringupTimeout | thermalThrottle | thermalShutdown | routerFailure
  | eccUncorrectable | softErrorCorrected
  | loaderLoad | loaderIcinv | loaderReadatt | loaderInvalidCommand | translationPublish | spdmMeasurements
  | keySlotWrite | podRouteTableWrite | coreFailure
  deriving DecidableEq, Repr

end Sys2Proof
end

