-- ==== Sys2Proof/Machine/Uses.lean ====
section
/-! DEFINITION. What each word names: the registers it reads and writes, its latency class and its static operand limits
(R19 to R22, R28, R36). -/
namespace Sys2Proof

/-- A register named by a word, for lookahead windows (R22). -/
inductive RegName where
  | g (n : Nat) | k (n : Nat) | t (n : Nat)
  deriving DecidableEq, Repr

/-- What a word names (R20, R22). -/
structure Use where
  /-- general registers read and written -/
  gr : List Nat := []
  gw : List Nat := []
  /-- uniform registers read and written; a buffer slot is its octet (R140) -/
  kr : List Nat := []
  kw : List Nat := []
  /-- tile registers read and written, and shape registers -/
  tr : List Nat := []
  tw : List Nat := []
  sh : List Nat := []
  /-- variable class, with its lookahead count (R21) -/
  var : Bool := false
  la : Nat := 0
  /-- closes every open window (R22) -/
  ctl : Bool := false
  /-- the operand limits of R20 and of the word's own row hold -/
  ok : Bool := true
  deriving DecidableEq, Repr

/-- The `n` numbers from `a` on. -/
def span (a : Nat) : Nat → List Nat
  | 0 => []
  | n + 1 => a :: span (a + 1) n

/-- The octet of buffer slot `n` (R140). -/
def octet (n : Buf) : List Nat := span (8 * n.toNat) 8

/-- Registers that a width moves (R31). -/
def Width.regs : Width → Nat
  | .x64 => 2
  | .x128 => 4
  | _ => 1
def SpillWidth.regs : SpillWidth → Nat
  | .w32 => 1 | .x64 => 2 | .x128 => 4
def GldWidth.regs : GldWidth → Nat
  | .w32 => 1 | .x64 => 2

/-- A system register (R322, and the rules that define 0x003, 0x004 and 0x120 to 0x128): 64 bits wide, writable. -/
structure SysInfo where
  wide : Bool
  wr : Bool
  deriving DecidableEq, Repr

/-- The system registers by number (R32, R322, R326). -/
def sysInfo (n : Nat) : Option SysInfo :=
  if n ≤ 4 then some ⟨false, false⟩
  else if n ≤ 0xFF then none
  else if n ≤ 0x108 then some ⟨false, true⟩
  else if n = 0x109 then some ⟨true, false⟩
  else if n = 0x120 ∨ n = 0x121 ∨ n = 0x124 ∨ n = 0x127 then some ⟨true, true⟩
  else if n = 0x122 ∨ n = 0x125 ∨ n = 0x126 then some ⟨false, true⟩
  else if n = 0x123 then some ⟨true, false⟩
  else if n = 0x128 then some ⟨false, false⟩
  else none

/-- `n` registers from `r` on, aligned to `n`, none beyond the file (R20). -/
def aligned (r n : Nat) : Bool := r % n = 0

/-- Scopes of CRED, PHASE and BAR (R227, R252, R253). -/
def Scope.wide : Scope → Bool
  | .lane | .core => false
  | _ => true
/-- Scopes of BINIT (R130). -/
def Scope.slot : Scope → Bool
  | .core | .quad | .die => true
  | _ => false

/-- Engine instances of EQRD and EQWR (R32). -/
def engineOk (c i : Nat) : Bool :=
  (c = 0 && i < 48) || (c = 1 && i < 100) || (c = 2 && i = 0)

/-- One-source and two-source register words. -/
def Use.rr (d a : Reg) : Use := { gr := [a.toNat], gw := [d.toNat] }
def Use.rrr (d a b : Reg) : Use := { gr := [a.toNat, b.toNat], gw := [d.toNat] }
def Use.acc (d a b : Reg) : Use := { gr := [a.toNat, b.toNat, d.toNat], gw := [d.toNat] }
def Use.kk (k b : KReg) : Use := { kr := [k.toNat, b.toNat], kw := [k.toNat] }
def Use.lat (u : Use) (la : La) : Use := { u with var := true, la := la.toNat }
/-- An atomic word: even address pair, `w`-register operand and destination (R238). -/
def Use.atomic (w : Nat) (d : Option Reg) (cmp : Bool) (a : Reg) (b : Option Reg) : Use where
  gr := span a.toNat 2 ++ (match b with | some b => span b.toNat w | none => [])
    ++ (match d with | some d => if cmp then span d.toNat w else [] | none => [])
  gw := match d with | some d => span d.toNat w | none => []
  ok := aligned a.toNat 2 && (match b with | some b => aligned b.toNat w | none => true)
    && (match d with | some d => aligned d.toNat w | none => true)

/-- What a word names. Events name nothing. -/
def Instr.use : Instr → Use
  | .iadd d a b | .isub d a b | .iaddSatI32 d a b | .isubSatI32 d a b | .iaddSatN32 d a b | .isubSatN32 d a b => .rrr d a b
  | .iabs d a | .ineg d a => .rr d a
  | .imul d a b la | .imulhI32 d a b la | .imulhN32 d a b la => (Use.rrr d a b).lat la
  | .imad d a b la => (Use.acc d a b).lat la
  | .iminI32 d a b | .iminN32 d a b | .imaxI32 d a b | .imaxN32 d a b => .rrr d a b
  | .and d a b | .or d a b | .xor d a b | .andn d a b => .rrr d a b
  | .not d a => .rr d a
  | .shl d a b | .shr d a b | .sar d a b | .rol d a b | .bfxI32 d a b | .bfxN32 d a b => .rrr d a b
  | .bfi d a b => .acc d a b
  | .popc d a | .clz d a | .ctz d a | .brev d a => .rr d a
  | .icmp _ d a b => .rrr d a b
  | .sel d a b => .acc d a b
  | .mov d a => .rr d a
  | .movk d k => { gw := [d.toNat], kr := [k.toNat] }
  | .idivI32 d a b la | .idivN32 d a b la | .iremI32 d a b la | .iremN32 d a b la => (Use.rrr d a b).lat la
  | .movi d _ => { gw := [d.toNat] }
  | .addi d a _ | .andi d a _ | .ori d a _ | .xori d a _ | .shli d a _ => .rr d a
  | .kadd k b | .ksub k b | .kmul k b | .kand k b | .kor k b | .kxor k b | .kshl k b | .kshr k b | .kcmp _ k b => .kk k b
  | .kmov k b => { kr := [b.toNat], kw := [k.toNat] }
  | .kmovi k _ => { kw := [k.toNat] }
  | .kld k n o => { kr := o.toNat :: octet n, kw := [k.toNat] }
  | .kst k n o => { kr := k.toNat :: o.toNat :: octet n }
  | .rds d s hi => { gw := [d.toNat], ok := s.toNat ≤ 12 && (!hi || s.toNat ≤ 2 || s.toNat = 12) }
  | .movts n k => { kr := [k.toNat], sh := [n.toNat] }
  | .fadd d a b la | .fsub d a b la | .fmul d a b la | .fmin d a b la | .fmax d a b la | .fdiv d a b la => (Use.rrr d a b).lat la
  | .ffma d a b la => (Use.acc d a b).lat la
  | .fneg d a la | .fabs d a la => (Use.rr d a).lat la
  | .fcmp _ d a b la => (Use.rrr d a b).lat la
  | .frcp d a la | .frsq d a la | .fsqrt d a la | .fexp2 d a la | .flog2 d a la | .ftanh d a la | .fclass d a la =>
    (Use.rr d a).lat la
  | .cvtifI32 d a la | .cvtifN32 d a la | .cvtfiI32 d a la | .cvtfiN32 d a la => (Use.rr d a).lat la
  | .fcvt t s d a la => { (Use.rr d a).lat la with ok := t != s }
  | .hadd2H16 d a b la | .hmul2H16 d a b la | .hadd2B16 d a b la | .hmul2B16 d a b la => (Use.rrr d a b).lat la
  | .hfma2H16 d a b la | .hfma2B16 d a b la => (Use.acc d a b).lat la
  | .bkpack d a _ la | .bkunpk d a _ la => (Use.rr d a).lat la
  | .shfl _ d a b la | .gshfl _ d a b la => (Use.rrr d a b).lat la
  | .vote _ d a la | .lred _ d a la | .lscanIncl _ d a la | .lscanExcl _ d a la => (Use.rr d a).lat la
  | .lredF32 _ d a la | .lscanInclF32 _ d a la | .lscanExclF32 _ d a la => (Use.rr d a).lat la
  | .form d a b => .rrr d a b
  | .formTag d a => .rr d a
  | .expand => {}
  | .hcount d => { gw := [d.toNat] }
  | .reform d k => { gw := [d.toNat], kr := span k.toNat 2, ok := aligned k.toNat 2 }
  | .bra _ => { ctl := true }
  | .brc c _ => { gr := [c.toNat], ctl := true }
  | .call d _ => { gw := [d.toNat], ctl := true }
  | .ret a | .brx a => { gr := [a.toNat], ctl := true }
  | .exit | .yield => { ctl := true }
  | .nop => {}
  | .join k => { kr := [k.toNat], ctl := true }
  | .regclaim n | .reggive n => { ctl := true, ok := 1 ≤ n.toNat && n.toNat ≤ 8 }
  | .trapi _ | .brk _ => { ctl := true }
  | .ld w d n a la =>
    { gr := [a.toNat], gw := span d.toNat w.regs, kr := octet n, var := true, la := la.toNat, ok := aligned d.toNat w.regs }
  | .st w s n a => { gr := a.toNat :: span s.toNat w.regs, kr := octet n, ok := aligned s.toNat w.regs }
  | .fill w d a la => { gr := [a.toNat], gw := span d.toNat w.regs, var := true, la := la.toNat, ok := aligned d.toNat w.regs }
  | .spill w s a => { gr := a.toNat :: span s.toNat w.regs, ok := aligned s.toNat w.regs }
  | .brld n m a la => { gr := [a.toNat], kr := octet m, kw := octet n, var := true, la := la.toNat }
  | .gld w d a la =>
    { gr := span a.toNat 2, gw := span d.toNat w.regs, var := true, la := la.toNat,
      ok := aligned a.toNat 2 && aligned d.toNat w.regs }
  | .binit s k b => { kr := [k.toNat, b.toNat], ok := s.slot }
  | .bretire k | .barrive k => { kr := [k.toNat] }
  | .bexpect k b => { kr := [k.toNat, b.toNat] }
  | .wait k b => { kr := [k.toNat, b.toNat], ctl := true }
  | .btest d k b | .ctest d k b => { gw := [d.toNat], kr := [k.toNat, b.toNat] }
  | .rinit k b => { kr := [k.toNat, b.toNat] }
  | .rprodTake k | .rprodFill k | .rconsFree k => { kr := [k.toNat] }
  | .rconsTake d k => { gw := [d.toNat], kr := [k.toNat] }
  | .waitCnt _ _ => { ctl := true }
  | .tcopy n k c => { kr := span k.toNat 2 ++ span c.toNat 8 ++ octet n, ok := aligned k.toNat 2 && c.toNat ≤ 184 }
  | .tcopyMc n k c => { kr := span k.toNat 2 ++ span c.toNat 9 ++ octet n, ok := aligned k.toNat 2 && c.toNat ≤ 183 }
  | .gath n k a | .scat n k a => { gr := [a.toNat], kr := span k.toNat 2 ++ octet n, ok := aligned k.toNat 2 }
  | .crun _ k a => { kr := span k.toNat 2 ++ span a.toNat 8, ok := aligned k.toNat 2 && a.toNat ≤ 184 }
  -- carder-only words name c registers
  | .cldx _ d a b => .rrr d a b
  | .cstx _ s a b => { gr := [s.toNat, a.toNat, b.toNat] }
  | .caddr d a b => { gr := a.toNat :: span b.toNat 8, gw := [d.toNat], ok := b.toNat ≤ 24 }
  | .cxfer a b c => { gr := [a.toNat, b.toNat, c.toNat] }
  | .csect _ d a b | .cmrg _ d a b =>
    { gr := span a.toNat 4 ++ span b.toNat 2, gw := [d.toNat], ok := aligned a.toNat 4 && a.toNat ≤ 28 && aligned b.toNat 2 }
  | .carrive a b => { gr := [a.toNat, b.toNat] }
  | .chalt => {}
  | .want n k | .offer n k => { kr := span k.toNat 2 ++ octet n, ok := aligned k.toNat 2 }
  | .unwant k | .nevict k => { kr := span k.toNat 2, ok := aligned k.toNat 2 }
  | .ntwr k b => { kr := k.toNat :: span b.toNat 4, ok := aligned b.toNat 4 }
  | .credCanon s k a | .credExact s k a => { kr := [a.toNat], kw := [k.toNat], ok := s.wide }
  | .cclose k => { kr := [k.toNat] }
  | .phase s k b => { kr := [k.toNat, b.toNat], ok := s.wide }
  | .bar s => { ok := s.wide }
  | .tmma d a b _ _ _ _ _ la | .tmmai d a b _ _ _ _ _ la =>
    { tr := [a.toNat, b.toNat], tw := [d.toNat], var := true, la := la.toNat, ok := d != a && d != b }
  | .tld _ t n a la => { gr := [a.toNat], kr := octet n, tw := [t.toNat], var := true, la := la.toNat }
  | .tst _ t n a => { gr := [a.toNat], kr := octet n, tr := [t.toNat] }
  | .tdrain t n a la | .tdrainFmt _ t n a la =>
    { gr := [a.toNat], kr := octet n, tr := [t.toNat], var := true, la := la.toNat }
  | .trowrd d t b la => { gr := [b.toNat], gw := [d.toNat], tr := [t.toNat], var := true, la := la.toNat }
  | .trowwr t a b => { gr := [a.toNat, b.toNat], tw := [t.toNat] }
  | .tscale t a => { gr := [a.toNat], tr := [t.toNat], tw := [t.toNat] }
  | .tzero t => { tw := [t.toNat] }
  | .tdred t k => { kr := [k.toNat], tr := [t.toNat] }
  | .atom _ d a b la | .atomXchg d a b la => (Use.atomic 1 d false a b).lat la
  | .acas d a b la => (Use.atomic 1 d true a b).lat la
  | .acasX64 d a b la => (Use.atomic 2 d true a b).lat la
  | .acas128 d a b la => (Use.atomic 4 d true a b).lat la
  | .sld d a la => (Use.atomic 1 d false a none).lat la
  | .sldX64 d a la => (Use.atomic 2 d false a none).lat la
  | .sst a b => .atomic 1 none false a b
  | .sstX64 a b => .atomic 2 none false a b
  | .ared _ a b => .atomic 1 none false a b
  | .qpush k b => { kr := k.toNat :: span b.toNat 8, ok := aligned b.toNat 8 }
  | .qpop d k b => { gw := [d.toNat], kr := [k.toNat], kw := span b.toNat 8, ok := aligned b.toNat 8 }
  | .qlen d k => { gw := [d.toNat], kr := [k.toNat] }
  | .nemit k b => { kr := k.toNat :: span b.toNat 8, ok := aligned b.toNat 8 }
  | .bind k b => { kr := k.toNat :: span b.toNat 4, ok := aligned b.toNat 4 }
  | .acq _ k | .rel _ k => { kr := [k.toNat] }
  | .tfence _ | .ifence | .dinv _ => {}
  | .sysrd d n => { gw := [d.toNat], ok := (sysInfo n.toNat).isSome }
  | .syswr n a => { gr := [a.toNat], ok := sysInfo n.toNat = some ⟨false, true⟩ }
  | .trapret => {}
  | .eqrd d c i => { gw := [d.toNat], ok := engineOk c.toNat i.toNat }
  | .eqwr c i a => { gr := [a.toNat], ok := engineOk c.toNat i.toNat }
  | .haltp _ => {}
  | .icinv a => { gr := span a.toNat 2, ok := aligned a.toNat 2 }
  | .sysrdX64 d n =>
    { gw := span d.toNat 2, ok := aligned d.toNat 2 && (match sysInfo n.toNat with | some i => i.wide | none => false) }
  | .syswrX64 n a => { gr := span a.toNat 2, ok := aligned a.toNat 2 && sysInfo n.toNat = some ⟨true, true⟩ }
  | .hintLife us => { ok := us != 0 }
  | .hintFmtx _ _ sr seed => { ok := sr || seed == 0 }
  | _ => {}

/-- Hint words (R25). -/
def Instr.isHint : Instr → Bool
  | .hintImmhi _ | .hintOrd .. | .hintMerge | .hintFmtx .. | .hintLife _ | .hintPred _ => true
  | _ => false

/-- The words of the carder profile (R36) that are not carder-only. -/
def Instr.carderShared : Instr → Bool
  | .iadd .. | .isub .. | .iaddSatI32 .. | .isubSatI32 .. | .iaddSatN32 .. | .isubSatN32 .. | .iabs .. | .ineg ..
  | .imul .. | .imulhI32 .. | .imulhN32 .. | .imad .. | .iminI32 .. | .iminN32 .. | .imaxI32 .. | .imaxN32 ..
  | .and .. | .or .. | .xor .. | .andn .. | .not .. | .shl .. | .shr .. | .sar .. | .rol .. | .bfxI32 .. | .bfxN32 .. | .bfi ..
  | .popc .. | .clz .. | .ctz .. | .brev .. | .icmp .. | .sel .. | .mov ..
  | .movi .. | .addi .. | .andi .. | .ori .. | .xori .. | .shli ..
  | .kadd .. | .ksub .. | .kmul .. | .kand .. | .kor .. | .kxor .. | .kshl .. | .kshr .. | .kcmp .. | .kmov .. | .kmovi ..
  | .bra .. | .brc .. | .call .. | .ret .. | .brx .. | .nop | .hintImmhi .. | .hintPred .. => true
  | _ => false

/-- The carder-only words (R72). -/
def Instr.carderOnly : Instr → Bool
  | .cldx .. | .cstx .. | .caddr .. | .cxfer .. | .csect .. | .cmrg .. | .carrive .. | .chalt => true
  | _ => false

/-- Supervisor words (R37). -/
def Instr.supervisor : Instr → Bool
  | .ntwr .. | .syswr .. | .syswrX64 .. | .trapret | .eqrd .. | .eqwr .. | .haltp _ | .icinv _ => true
  | .sysrd _ n | .sysrdX64 _ n => n.toNat ≥ 0x100
  | _ => false

/-- Merge points that are words: JOIN, WAIT in its slot shape, BAR (R152). -/
def Instr.mergePoint : Instr → Bool
  | .join _ | .wait .. | .bar _ => true
  | _ => false

/-- Gathered words (R128, R253, R269): an excluded index counts as having issued them (R270). -/
def Instr.gathered : Instr → Bool
  | .barrive _ | .rconsTake .. | .rconsFree _ | .bar _ | .reggive _ | .regclaim _ => true
  | _ => false

/-- What a word is called a carder word for: every register field is a c register (R36, R56). -/
def Instr.carderOk (i : Instr) : Bool :=
  (i.carderShared || i.carderOnly) && i.use.ok && i.use.la == 0 &&
    (i.use.gr ++ i.use.gw ++ i.use.kr ++ i.use.kw).all (· < 32)

def Use.writes (u : Use) : List RegName := u.gw.map .g ++ u.kw.map .k ++ u.tw.map .t
def Use.names (u : Use) : List RegName := u.writes ++ u.gr.map .g ++ u.kr.map .k ++ u.tr.map .t

/-- Encoded words, as opposed to events. -/
def Instr.encoded : Instr → Bool
  | .carderCommandStart .. | .unitLanding .. | .mergeHoldTimeout .. | .launchStart .. | .groupPlacement .. | .workSteal ..
  | .groupEnd .. | .launchEnd .. | .binTimerExpiry .. | .binDrain .. | .queueMiss .. | .atomicPerform .. | .syncReplyLanding ..
  | .interestArrival .. | .tileHeaderArrival .. | .withdrawalArrival .. | .pendingDeadline .. | .offerHeaderArrival ..
  | .offerChunkArrival .. | .retentionExpiry .. | .chunkLanding .. | .interestLifetimeExpiry .. | .sessionJoin ..
  | .sessionClose .. | .sessionResultWrite .. | .migrationComplete .. | .migctlWrite .. | .tileWordPerform ..
  | .haltComplete .. | .eventDelivery .. | .tsliceExpiry .. | .tsliceWrite .. | .tpendClear .. | .haltreq .. | .stepHalt ..
  | .contextSwap .. | .swapComplete .. | .shadowSave .. | .shadowLoad .. | .shadowCreate .. | .shadowOpComplete ..
  | .malformedWord | .podGenerationOpen | .podCombinedArrival | .podPhaseCount | .podRelease
  | .linkFlitError | .laneSparing | .headerCrcFailure | .migrationStart
  | .partitionLayoutWrite | .powerOnBringup | .bringupTimeout | .thermalThrottle | .thermalShutdown | .routerFailure
  | .eccUncorrectable | .softErrorCorrected | .loaderLoad | .loaderIcinv | .loaderReadatt | .loaderInvalidCommand
  | .translationPublish | .spdmMeasurements | .keySlotWrite | .podRouteTableWrite | .coreFailure => false
  | _ => true

end Sys2Proof
end

