-- ==== Sys2Proof/WellFormed.lean ====
section
/-! DEFINITION. Well-formed words: the limits of R20 that do not depend on a thread, and those of each row. -/
namespace Sys2Proof

/-- Uniform registers exist up to k191 (R20). -/
def Use.kOk (u : Use) : Bool := u.kr.all (· < 192) && u.kw.all (· < 192)

/-- Every register of a carder-only word is c0 to c31 (R72). -/
def Use.cOk (u : Use) : Bool := u.gr.all (· < 32) && u.gw.all (· < 32)

/-- A word that no thread rejects for its encoding alone. Events are no words. -/
def Instr.wellFormed (i : Instr) : Bool :=
  i.encoded && i.use.ok && i.use.kOk && (!i.carderOnly || i.use.cOk)

end Sys2Proof
end

