-- ==== Sys2Proof/Decode.lean ====
section
/-! DEFINITION. The decoder of the opcode map (R17 to R32, R35), the encoder, and the Silol decoder (R347). -/
namespace Sys2Proof

/-- Why a word is no well-formed instruction (R35). Every one of them traps ILL. -/
inductive DecodeError where
  /-- unassigned major opcode -/
  | unassigned
  /-- reserved X, Y, W, B, M value or scope -/
  | reserved
  /-- non-zero reserved bit -/
  | reservedBit
  /-- lookahead on a fixed word (R21) -/
  | lookahead
  /-- malformed hint word (R25, R26) -/
  | hint
  /-- operand beyond its limit (R20) -/
  | operand
  /-- a word that Silol does not have (R347) -/
  | silol
  deriving DecidableEq, Repr

/-! Codes of the modifiers (R13, R26, R28, R30, R31). -/
def Scope.code : Scope → BitVec 3
  | .lane => 0
  | .core => 1
  | .quad => 2
  | .die => 3
  | .pkg => 4
  | .pod => 5
def Scope.ofCode (c : BitVec 3) : Option Scope :=
  match c.toNat with
  | 0 => some .lane
  | 1 => some .core
  | 2 => some .quad
  | 3 => some .die
  | 4 => some .pkg
  | 5 => some .pod
  | _ => none

def ICond.code : ICond → BitVec 3
  | .eq => 0
  | .ne => 1
  | .ltI => 2
  | .leI => 3
  | .ltN => 4
  | .leN => 5
def ICond.ofCode (c : BitVec 3) : Option ICond :=
  match c.toNat with
  | 0 => some .eq
  | 1 => some .ne
  | 2 => some .ltI
  | 3 => some .leI
  | 4 => some .ltN
  | 5 => some .leN
  | _ => none

def FCond.code : FCond → BitVec 3
  | .eq => 0
  | .ne => 1
  | .lt => 2
  | .le => 3
  | .un => 4
def FCond.ofCode (c : BitVec 3) : Option FCond :=
  match c.toNat with
  | 0 => some .eq
  | 1 => some .ne
  | 2 => some .lt
  | 3 => some .le
  | 4 => some .un
  | _ => none

def Width.code : Width → BitVec 4
  | .w32 => 0
  | .i8 => 1
  | .n8 => 2
  | .h16 => 3
  | .b16 => 4
  | .e43 => 5
  | .e52 => 6
  | .i4 => 7
  | .n4 => 8
  | .x64 => 9
  | .x128 => 10
def Width.ofCode (c : BitVec 4) : Option Width :=
  match c.toNat with
  | 0 => some .w32
  | 1 => some .i8
  | 2 => some .n8
  | 3 => some .h16
  | 4 => some .b16
  | 5 => some .e43
  | 6 => some .e52
  | 7 => some .i4
  | 8 => some .n4
  | 9 => some .x64
  | 10 => some .x128
  | _ => none

def SpillWidth.code : SpillWidth → BitVec 4
  | .w32 => 0
  | .x64 => 9
  | .x128 => 10
def SpillWidth.ofCode (c : BitVec 4) : Option SpillWidth :=
  match c.toNat with
  | 0 => some .w32
  | 9 => some .x64
  | 10 => some .x128
  | _ => none

def GldWidth.code : GldWidth → BitVec 4
  | .w32 => 0
  | .x64 => 9
def GldWidth.ofCode (c : BitVec 4) : Option GldWidth :=
  match c.toNat with
  | 0 => some .w32
  | 9 => some .x64
  | _ => none

def CWidth.code : CWidth → BitVec 4
  | .n32 => 0
  | .i32 => 1
  | .x64 => 2
def CWidth.ofCode (c : BitVec 4) : Option CWidth :=
  match c.toNat with
  | 0 => some .n32
  | 1 => some .i32
  | 2 => some .x64
  | _ => none

def SWidth.code : SWidth → BitVec 4
  | .n32 => 0
  | .x64 => 2
def SWidth.ofCode (c : BitVec 4) : Option SWidth :=
  match c.toNat with
  | 0 => some .n32
  | 2 => some .x64
  | _ => none

def NumFmt.code : NumFmt → BitVec 3
  | .f32 => 0
  | .b16 => 1
  | .h16 => 2
  | .e43 => 3
  | .e52 => 4
def NumFmt.ofCode (c : BitVec 3) : Option NumFmt :=
  match c.toNat with
  | 0 => some .f32
  | 1 => some .b16
  | 2 => some .h16
  | 3 => some .e43
  | 4 => some .e52
  | _ => none

def ShflMode.code : ShflMode → BitVec 3
  | .idx => 0
  | .up => 1
  | .down => 2
  | .xor => 3
def ShflMode.ofCode (c : BitVec 3) : Option ShflMode :=
  match c.toNat with
  | 0 => some .idx
  | 1 => some .up
  | 2 => some .down
  | 3 => some .xor
  | _ => none

def GshflMode.code : GshflMode → BitVec 3
  | .idx => 0
  | .rot => 1
  | .xor => 2
def GshflMode.ofCode (c : BitVec 3) : Option GshflMode :=
  match c.toNat with
  | 0 => some .idx
  | 1 => some .rot
  | 2 => some .xor
  | _ => none

def VoteMode.code : VoteMode → BitVec 3
  | .any => 0
  | .all => 1
  | .ballot => 2
  | .first => 3
def VoteMode.ofCode (c : BitVec 3) : Option VoteMode :=
  match c.toNat with
  | 0 => some .any
  | 1 => some .all
  | 2 => some .ballot
  | 3 => some .first
  | _ => none

def RedOp.code : RedOp → BitVec 3
  | .add => 0
  | .minI => 1
  | .maxI => 2
  | .minN => 3
  | .maxN => 4
  | .and => 5
  | .or => 6
  | .xor => 7
def RedOp.ofCode (c : BitVec 3) : RedOp :=
  match c.toNat with
  | 0 => .add
  | 1 => .minI
  | 2 => .maxI
  | 3 => .minN
  | 4 => .maxN
  | 5 => .and
  | 6 => .or
  | _ => .xor

def FRedOp.code : FRedOp → BitVec 3
  | .add => 0
  | .min => 1
  | .max => 2
def FRedOp.ofCode (c : BitVec 3) : Option FRedOp :=
  match c.toNat with
  | 0 => some .add
  | 1 => some .min
  | 2 => some .max
  | _ => none

def Counter.code : Counter → BitVec 3
  | .copy => 0
  | .atom => 1
  | .load => 2
  | .tile => 3
def Counter.ofCode (c : BitVec 3) : Option Counter :=
  match c.toNat with
  | 0 => some .copy
  | 1 => some .atom
  | 2 => some .load
  | 3 => some .tile
  | _ => none

def Order.code : Order → BitVec 2
  | .plain => 0
  | .acq => 1
  | .rel => 2
  | .ar => 3
def Order.ofCode (c : BitVec 2) : Order :=
  match c.toNat with
  | 0 => .plain
  | 1 => .acq
  | 2 => .rel
  | _ => .ar

def CachePolicy.code : CachePolicy → BitVec 3
  | .record => 0
  | .norm => 1
  | .stream => 2
  | .keep => 3
  | .bypass => 4
def CachePolicy.ofCode (c : BitVec 3) : Option CachePolicy :=
  match c.toNat with
  | 0 => some .record
  | 1 => some .norm
  | 2 => some .stream
  | 3 => some .keep
  | 4 => some .bypass
  | _ => none

def HintRound.code : HintRound → BitVec 3
  | .own => 0
  | .rne => 1
  | .rz => 2
  | .rdn => 3
  | .rup => 4
def HintRound.ofCode (c : BitVec 3) : Option HintRound :=
  match c.toNat with
  | 0 => some .own
  | 1 => some .rne
  | 2 => some .rz
  | 3 => some .rdn
  | 4 => some .rup
  | _ => none

/-- Format F-R (R18). -/
structure FR where
  op : BitVec 7
  d : BitVec 6
  a : BitVec 6
  b : BitVec 6
  la : BitVec 4
  x : BitVec 3
  deriving DecidableEq, Repr
def FR.of (w : Word) : FR := ⟨w.extractLsb' 25 7, w.extractLsb' 19 6, w.extractLsb' 13 6, w.extractLsb' 7 6, w.extractLsb' 3 4, w.extractLsb' 0 3⟩
def FR.word (f : FR) : Word := f.op ++ f.d ++ f.a ++ f.b ++ f.la ++ f.x

/-- Format F-I (R18). -/
structure FI where
  op : BitVec 7
  d : BitVec 6
  a : BitVec 6
  imm : BitVec 13
  deriving DecidableEq, Repr
def FI.of (w : Word) : FI := ⟨w.extractLsb' 25 7, w.extractLsb' 19 6, w.extractLsb' 13 6, w.extractLsb' 0 13⟩
def FI.word (f : FI) : Word := f.op ++ f.d ++ f.a ++ f.imm

/-- Format F-K (R18). -/
structure FK where
  op : BitVec 7
  d : BitVec 6
  k : BitVec 8
  kb : BitVec 8
  y : BitVec 3
  deriving DecidableEq, Repr
def FK.of (w : Word) : FK := ⟨w.extractLsb' 25 7, w.extractLsb' 19 6, w.extractLsb' 11 8, w.extractLsb' 3 8, w.extractLsb' 0 3⟩
def FK.word (f : FK) : Word := f.op ++ f.d ++ f.k ++ f.kb ++ f.y

/-- Format F-M (R18). -/
structure FM where
  op : BitVec 7
  v : BitVec 6
  br : BitVec 5
  a : BitVec 6
  la : BitVec 4
  w : BitVec 4
  deriving DecidableEq, Repr
def FM.of (w : Word) : FM := ⟨w.extractLsb' 25 7, w.extractLsb' 19 6, w.extractLsb' 14 5, w.extractLsb' 8 6, w.extractLsb' 4 4, w.extractLsb' 0 4⟩
def FM.word (f : FM) : Word := f.op ++ f.v ++ f.br ++ f.a ++ f.la ++ f.w

/-- Format F-B (R18). -/
structure FB where
  op : BitVec 7
  c : BitVec 6
  off : BitVec 19
  deriving DecidableEq, Repr
def FB.of (w : Word) : FB := ⟨w.extractLsb' 25 7, w.extractLsb' 19 6, w.extractLsb' 0 19⟩
def FB.word (f : FB) : Word := f.op ++ f.c ++ f.off

/-- Format F-T (R18). -/
structure FT where
  op : BitVec 7
  td : BitVec 4
  ta : BitVec 4
  tb : BitVec 4
  fa : BitVec 3
  fb : BitVec 3
  la : BitVec 4
  sa : BitVec 1
  sb : BitVec 1
  acc : BitVec 1
  deriving DecidableEq, Repr
def FT.of (w : Word) : FT := ⟨w.extractLsb' 25 7, w.extractLsb' 21 4, w.extractLsb' 17 4, w.extractLsb' 13 4, w.extractLsb' 10 3, w.extractLsb' 7 3, w.extractLsb' 3 4, w.extractLsb' 2 1, w.extractLsb' 1 1, w.extractLsb' 0 1⟩
def FT.word (f : FT) : Word := f.op ++ f.td ++ f.ta ++ f.tb ++ f.fa ++ f.fb ++ f.la ++ f.sa ++ f.sb ++ f.acc

/-- Format F-S (R18). -/
structure FS where
  op : BitVec 7
  d : BitVec 6
  sys : BitVec 12
  x : BitVec 7
  deriving DecidableEq, Repr
def FS.of (w : Word) : FS := ⟨w.extractLsb' 25 7, w.extractLsb' 19 6, w.extractLsb' 7 12, w.extractLsb' 0 7⟩
def FS.word (f : FS) : Word := f.op ++ f.d ++ f.sys ++ f.x

/-- Format F-H (R18). -/
structure FH where
  op : BitVec 7
  kind : BitVec 3
  payload : BitVec 22
  deriving DecidableEq, Repr
def FH.of (w : Word) : FH := ⟨w.extractLsb' 25 7, w.extractLsb' 22 3, w.extractLsb' 0 22⟩
def FH.word (f : FH) : Word := f.op ++ f.kind ++ f.payload

/-- Bits [31:25] (R17). -/
def opcode (w : Word) : Nat := (w.extractLsb' 25 7).toNat

/-- What the decoder answers: an instruction, or why there is none. -/
inductive Dec where
  | ok (i : Instr)
  | error (e : DecodeError)
  deriving DecidableEq, Repr

/-- A fixed F-R word: its LA field is zero (R21); with fewer sources, so are the unused fields. -/
def fixed3 (f : FR) (i : Instr) : Dec := if f.la = 0 then .ok i else .error .lookahead
def fixed2 (f : FR) (i : Instr) : Dec := if f.b = 0 then fixed3 f i else .error .reservedBit
def fixed0 (f : FR) (i : Instr) : Dec := if f.d = 0 ∧ f.a = 0 then fixed2 f i else .error .reservedBit
/-- A variable one-source F-R word. -/
def var2 (f : FR) (i : Instr) : Dec := if f.b = 0 then .ok i else .error .reservedBit

/-- The F-R rows of the opcode map. -/
def decodeR (f : FR) : Dec :=
  match f.op.toNat with
  | 0x00 =>
    match f.x.toNat with
    | 0 => fixed3 f (.iadd f.d f.a f.b)
    | 1 => fixed3 f (.isub f.d f.a f.b)
    | 2 => fixed3 f (.iaddSatI32 f.d f.a f.b)
    | 3 => fixed3 f (.isubSatI32 f.d f.a f.b)
    | 4 => fixed3 f (.iaddSatN32 f.d f.a f.b)
    | 5 => fixed3 f (.isubSatN32 f.d f.a f.b)
    | 6 => fixed2 f (.iabs f.d f.a)
    | 7 => fixed2 f (.ineg f.d f.a)
    | _ => .error .reserved
  | 0x01 =>
    match f.x.toNat with
    | 0 => .ok (.imul f.d f.a f.b f.la)
    | 1 => .ok (.imulhI32 f.d f.a f.b f.la)
    | 2 => .ok (.imulhN32 f.d f.a f.b f.la)
    | 3 => .ok (.imad f.d f.a f.b f.la)
    | _ => .error .reserved
  | 0x02 =>
    match f.x.toNat with
    | 0 => fixed3 f (.iminI32 f.d f.a f.b)
    | 1 => fixed3 f (.iminN32 f.d f.a f.b)
    | 2 => fixed3 f (.imaxI32 f.d f.a f.b)
    | 3 => fixed3 f (.imaxN32 f.d f.a f.b)
    | _ => .error .reserved
  | 0x03 =>
    match f.x.toNat with
    | 0 => fixed3 f (.and f.d f.a f.b)
    | 1 => fixed3 f (.or f.d f.a f.b)
    | 2 => fixed3 f (.xor f.d f.a f.b)
    | 3 => fixed3 f (.andn f.d f.a f.b)
    | 4 => fixed2 f (.not f.d f.a)
    | _ => .error .reserved
  | 0x04 =>
    match f.x.toNat with
    | 0 => fixed3 f (.shl f.d f.a f.b)
    | 1 => fixed3 f (.shr f.d f.a f.b)
    | 2 => fixed3 f (.sar f.d f.a f.b)
    | 3 => fixed3 f (.rol f.d f.a f.b)
    | _ => .error .reserved
  | 0x05 =>
    match f.x.toNat with
    | 0 => fixed3 f (.bfxI32 f.d f.a f.b)
    | 1 => fixed3 f (.bfxN32 f.d f.a f.b)
    | 2 => fixed3 f (.bfi f.d f.a f.b)
    | _ => .error .reserved
  | 0x06 =>
    match f.x.toNat with
    | 0 => fixed2 f (.popc f.d f.a)
    | 1 => fixed2 f (.clz f.d f.a)
    | 2 => fixed2 f (.ctz f.d f.a)
    | 3 => fixed2 f (.brev f.d f.a)
    | _ => .error .reserved
  | 0x08 =>
    match f.x.toNat with
    | 0 => fixed3 f (.sel f.d f.a f.b)
    | 1 => fixed2 f (.mov f.d f.a)
    | _ => .error .reserved
  | 0x0A =>
    match f.x.toNat with
    | 0 => .ok (.idivI32 f.d f.a f.b f.la)
    | 1 => .ok (.idivN32 f.d f.a f.b f.la)
    | 2 => .ok (.iremI32 f.d f.a f.b f.la)
    | 3 => .ok (.iremN32 f.d f.a f.b f.la)
    | _ => .error .reserved
  | 0x20 =>
    match f.x.toNat with
    | 0 => .ok (.fadd f.d f.a f.b f.la)
    | 1 => .ok (.fsub f.d f.a f.b f.la)
    | 2 => .ok (.fmul f.d f.a f.b f.la)
    | 3 => .ok (.ffma f.d f.a f.b f.la)
    | 4 => .ok (.fmin f.d f.a f.b f.la)
    | 5 => .ok (.fmax f.d f.a f.b f.la)
    | 6 => var2 f (.fneg f.d f.a f.la)
    | 7 => var2 f (.fabs f.d f.a f.la)
    | _ => .error .reserved
  | 0x22 =>
    match f.x.toNat with
    | 0 => var2 f (.frcp f.d f.a f.la)
    | 1 => var2 f (.frsq f.d f.a f.la)
    | 2 => var2 f (.fsqrt f.d f.a f.la)
    | 3 => var2 f (.fexp2 f.d f.a f.la)
    | 4 => var2 f (.flog2 f.d f.a f.la)
    | 5 => var2 f (.ftanh f.d f.a f.la)
    | 6 => var2 f (.fclass f.d f.a f.la)
    | _ => .error .reserved
  | 0x23 =>
    match f.x.toNat with
    | 0 => var2 f (.cvtifI32 f.d f.a f.la)
    | 1 => var2 f (.cvtifN32 f.d f.a f.la)
    | 2 => var2 f (.cvtfiI32 f.d f.a f.la)
    | 3 => var2 f (.cvtfiN32 f.d f.a f.la)
    | _ => .error .reserved
  | 0x25 =>
    match f.x.toNat with
    | 0 => .ok (.hadd2H16 f.d f.a f.b f.la)
    | 1 => .ok (.hmul2H16 f.d f.a f.b f.la)
    | 2 => .ok (.hfma2H16 f.d f.a f.b f.la)
    | 4 => .ok (.hadd2B16 f.d f.a f.b f.la)
    | 5 => .ok (.hmul2B16 f.d f.a f.b f.la)
    | 6 => .ok (.hfma2B16 f.d f.a f.b f.la)
    | _ => .error .reserved
  | 0x28 =>
    match f.x.toNat with
    | 0 => .ok (.fdiv f.d f.a f.b f.la)
    | _ => .error .reserved
  | 0x34 =>
    match f.x.toNat with
    | 0 => fixed3 f (.form f.d f.a f.b)
    | 1 => fixed2 f (.formTag f.d f.a)
    | _ => .error .reserved
  | 0x35 =>
    match f.x.toNat with
    | 0 => fixed0 f .expand
    | 1 => if f.a = 0 then fixed2 f (.hcount f.d) else .error .reservedBit
    | _ => .error .reserved
  | 0x3B =>
    match f.x.toNat with
    | 0 => if f.d = 0 then fixed2 f (.ret f.a) else .error .reservedBit
    | 1 => if f.d = 0 then fixed2 f (.brx f.a) else .error .reservedBit
    | 2 => fixed0 f .exit
    | 3 => fixed0 f .yield
    | 4 => fixed0 f .nop
    | _ => .error .reserved
  | 0x54 =>
    match f.x.toNat with
    | 0 => match CWidth.ofCode f.la with | some m => .ok (.cldx m f.d f.a f.b) | none => .error .reserved
    | 1 => match CWidth.ofCode f.la with | some m => .ok (.cstx m f.d f.a f.b) | none => .error .reserved
    | 2 => fixed3 f (.caddr f.d f.a f.b)
    | _ => .error .reserved
  | 0x55 =>
    match f.x.toNat with
    | 0 => fixed3 f (.cxfer f.d f.a f.b)
    | 1 => match SWidth.ofCode f.la with | some m => .ok (.csect m f.d f.a f.b) | none => .error .reserved
    | 2 => match SWidth.ofCode f.la with | some m => .ok (.cmrg m f.d f.a f.b) | none => .error .reserved
    | _ => .error .reserved
  | 0x56 =>
    match f.x.toNat with
    | 0 => if f.d = 0 then fixed3 f (.carrive f.a f.b) else .error .reservedBit
    | 1 => fixed0 f .chalt
    | _ => .error .reserved
  | 0x65 =>
    match f.x.toNat with
    | 0 => if f.a.extractLsb' 4 2 = 0 then .ok (.trowrd f.d (f.a.setWidth 4) f.b f.la) else .error .reservedBit
    | 1 => if f.d.extractLsb' 4 2 = 0 then fixed3 f (.trowwr (f.d.setWidth 4) f.a f.b) else .error .reservedBit
    | 2 => if f.d.extractLsb' 4 2 = 0 then fixed2 f (.tscale (f.d.setWidth 4) f.a) else .error .reservedBit
    | 3 => if f.a = 0 then if f.d.extractLsb' 4 2 = 0 then fixed2 f (.tzero (f.d.setWidth 4)) else .error .reservedBit else .error .reservedBit
    | _ => .error .reserved
  | 0x69 =>
    match f.x.toNat with
    | 0 => .ok (.atomXchg f.d f.a f.b f.la)
    | 1 => .ok (.acas f.d f.a f.b f.la)
    | 2 => .ok (.acasX64 f.d f.a f.b f.la)
    | 3 => .ok (.acas128 f.d f.a f.b f.la)
    | 4 => var2 f (.sld f.d f.a f.la)
    | 5 => if f.d = 0 then fixed3 f (.sst f.a f.b) else .error .reservedBit
    | 6 => var2 f (.sldX64 f.d f.a f.la)
    | 7 => if f.d = 0 then fixed3 f (.sstX64 f.a f.b) else .error .reservedBit
    | _ => .error .reserved
  | 0x07 => match ICond.ofCode f.x with | some c => fixed3 f (.icmp c f.d f.a f.b) | none => .error .reserved
  | 0x21 => match FCond.ofCode f.x with | some c => .ok (.fcmp c f.d f.a f.b f.la) | none => .error .reserved
  | 0x24 => if f.x = 0 then (match NumFmt.ofCode (f.b.extractLsb' 3 3), NumFmt.ofCode (f.b.extractLsb' 0 3) with | some t, some s => .ok (.fcvt t s f.d f.a f.la) | _, _ => .error .reserved) else .error .reserved
  | 0x26 => var2 f (.bkpack f.d f.a f.x f.la)
  | 0x27 => var2 f (.bkunpk f.d f.a f.x f.la)
  | 0x30 => match ShflMode.ofCode f.x with | some m => .ok (.shfl m f.d f.a f.b f.la) | none => .error .reserved
  | 0x31 => match VoteMode.ofCode f.x with | some m => var2 f (.vote m f.d f.a f.la) | none => .error .reserved
  | 0x33 => match GshflMode.ofCode f.x with | some m => .ok (.gshfl m f.d f.a f.b f.la) | none => .error .reserved
  | 0x68 => .ok (.atom (RedOp.ofCode f.x) f.d f.a f.b f.la)
  | 0x6A => if f.d = 0 then fixed3 f (.ared (RedOp.ofCode f.x) f.a f.b) else .error .reservedBit
  | 0x32 =>
    match f.b.toNat with
    | 0 => .ok (.lred (RedOp.ofCode f.x) f.d f.a f.la)
    | 1 => .ok (.lscanIncl (RedOp.ofCode f.x) f.d f.a f.la)
    | 2 => .ok (.lscanExcl (RedOp.ofCode f.x) f.d f.a f.la)
    | 3 => match FRedOp.ofCode f.x with | some o => .ok (.lredF32 o f.d f.a f.la) | none => .error .reserved
    | 4 => match FRedOp.ofCode f.x with | some o => .ok (.lscanInclF32 o f.d f.a f.la) | none => .error .reserved
    | 5 => match FRedOp.ofCode f.x with | some o => .ok (.lscanExclF32 o f.d f.a f.la) | none => .error .reserved
    | _ => .error .reserved
  | _ => .error .unassigned

/-- The F-I rows. -/
def decodeI (f : FI) : Dec :=
  match f.op.toNat with
  | 0x10 => if f.a = 0 then .ok (.movi f.d f.imm) else .error .reservedBit
  | 0x11 => .ok (.addi f.d f.a f.imm)
  | 0x12 => .ok (.andi f.d f.a f.imm)
  | 0x13 => .ok (.ori f.d f.a f.imm)
  | 0x14 => .ok (.xori f.d f.a f.imm)
  | 0x15 => if f.imm.extractLsb' 5 8 = 0 then .ok (.shli f.d f.a (f.imm.setWidth 5)) else .error .reservedBit
  | 0x3D => if f.d = 0 ∧ f.a = 0 ∧ f.imm.extractLsb' 12 1 = 0 then .ok (.trapi (f.imm.setWidth 12)) else .error .reservedBit
  | 0x3E => if f.d = 0 ∧ f.a = 0 ∧ f.imm.extractLsb' 12 1 = 0 then .ok (.brk (f.imm.setWidth 12)) else .error .reservedBit
  | _ => .error .unassigned

/-- The F-K rows. -/
def decodeK (f : FK) : Dec :=
  match f.op.toNat with
  | 0x09 =>
    match f.y.toNat with
    | 0 => if f.kb = 0 then .ok (.movk f.d f.k) else .error .reservedBit
    | _ => .error .reserved
  | 0x18 =>
    match f.y.toNat with
    | 0 => if f.d = 0 then .ok (.kadd f.k f.kb) else .error .reservedBit
    | 1 => if f.d = 0 then .ok (.ksub f.k f.kb) else .error .reservedBit
    | 2 => if f.d = 0 then .ok (.kmul f.k f.kb) else .error .reservedBit
    | 3 => if f.d = 0 then .ok (.kand f.k f.kb) else .error .reservedBit
    | 4 => if f.d = 0 then .ok (.kor f.k f.kb) else .error .reservedBit
    | 5 => if f.d = 0 then .ok (.kxor f.k f.kb) else .error .reservedBit
    | 6 => if f.d = 0 then .ok (.kshl f.k f.kb) else .error .reservedBit
    | 7 => if f.d = 0 then .ok (.kshr f.k f.kb) else .error .reservedBit
    | _ => .error .reserved
  | 0x1B =>
    match f.y.toNat with
    | 0 => if f.d.extractLsb' 5 1 = 0 then .ok (.kld f.k (f.d.setWidth 5) f.kb) else .error .reservedBit
    | 1 => if f.d.extractLsb' 5 1 = 0 then .ok (.kst f.k (f.d.setWidth 5) f.kb) else .error .reservedBit
    | _ => .error .reserved
  | 0x1C =>
    match f.y.toNat with
    | 0 => if f.kb = 0 then .ok (.rds f.d f.k false) else .error .reservedBit
    | 1 => if f.kb = 0 then .ok (.rds f.d f.k true) else .error .reservedBit
    | _ => .error .reserved
  | 0x1D =>
    match f.y.toNat with
    | 0 => if f.d.extractLsb' 4 2 = 0 ∧ f.kb = 0 then .ok (.movts (f.d.setWidth 4) f.k) else .error .reservedBit
    | _ => .error .reserved
  | 0x36 =>
    match f.y.toNat with
    | 0 => if f.kb = 0 then .ok (.reform f.d f.k) else .error .reservedBit
    | _ => .error .reserved
  | 0x3C =>
    match f.y.toNat with
    | 0 => if f.d = 0 ∧ f.kb = 0 then .ok (.join f.k) else .error .reservedBit
    | 1 => if f.k = 0 ∧ f.kb = 0 then .ok (.regclaim f.d) else .error .reservedBit
    | 2 => if f.k = 0 ∧ f.kb = 0 then .ok (.reggive f.d) else .error .reservedBit
    | _ => .error .reserved
  | 0x48 =>
    match f.y.toNat with
    | 0 => if f.d.extractLsb' 3 3 = 0 then (match Scope.ofCode (f.d.setWidth 3) with | some s => .ok (.binit s f.k f.kb) | none => .error .reserved) else .error .reservedBit
    | 1 => if f.d = 0 ∧ f.kb = 0 then .ok (.bretire f.k) else .error .reservedBit
    | 2 => if f.d = 0 ∧ f.kb = 0 then .ok (.barrive f.k) else .error .reservedBit
    | 3 => if f.d = 0 then .ok (.bexpect f.k f.kb) else .error .reservedBit
    | 4 => if f.d = 0 then .ok (.wait f.k f.kb) else .error .reservedBit
    | 5 => .ok (.btest f.d f.k f.kb)
    | 6 => .ok (.ctest f.d f.k f.kb)
    | _ => .error .reserved
  | 0x49 =>
    match f.y.toNat with
    | 0 => if f.d = 0 then .ok (.rinit f.k f.kb) else .error .reservedBit
    | 1 => if f.d = 0 ∧ f.kb = 0 then .ok (.rprodTake f.k) else .error .reservedBit
    | 2 => if f.d = 0 ∧ f.kb = 0 then .ok (.rprodFill f.k) else .error .reservedBit
    | 3 => if f.kb = 0 then .ok (.rconsTake f.d f.k) else .error .reservedBit
    | 4 => if f.d = 0 ∧ f.kb = 0 then .ok (.rconsFree f.k) else .error .reservedBit
    | 5 => if f.d.extractLsb' 3 3 = 0 ∧ f.k = 0 then (match Counter.ofCode (f.d.setWidth 3) with | some c => .ok (.waitCnt c f.kb) | none => .error .reserved) else .error .reservedBit
    | _ => .error .reserved
  | 0x50 =>
    match f.y.toNat with
    | 0 => if f.d.extractLsb' 5 1 = 0 then .ok (.tcopy (f.d.setWidth 5) f.k f.kb) else .ok (.tcopyMc (f.d.setWidth 5) f.k f.kb)
    | 1 => if f.kb.extractLsb' 5 3 = 0 then .ok (.gath (f.kb.setWidth 5) f.k f.d) else .error .reservedBit
    | 2 => if f.kb.extractLsb' 5 3 = 0 then .ok (.scat (f.kb.setWidth 5) f.k f.d) else .error .reservedBit
    | 3 => if f.d.extractLsb' 1 5 = 0 then .ok (.crun (f.d.setWidth 1) f.k f.kb) else .error .reservedBit
    | _ => .error .reserved
  | 0x58 =>
    match f.y.toNat with
    | 0 => if f.d.extractLsb' 5 1 = 0 ∧ f.kb = 0 then .ok (.want (f.d.setWidth 5) f.k) else .error .reservedBit
    | 1 => if f.d.extractLsb' 5 1 = 0 ∧ f.kb = 0 then .ok (.offer (f.d.setWidth 5) f.k) else .error .reservedBit
    | 2 => if f.d = 0 ∧ f.kb = 0 then .ok (.unwant f.k) else .error .reservedBit
    | 3 => if f.d = 0 ∧ f.kb = 0 then .ok (.nevict f.k) else .error .reservedBit
    | 4 => if f.d = 0 then .ok (.ntwr f.k f.kb) else .error .reservedBit
    | _ => .error .reserved
  | 0x5C =>
    match f.y.toNat with
    | 0 => if f.d.extractLsb' 4 2 = 0 then (match Scope.ofCode (f.d.setWidth 3) with | some s => if f.d.extractLsb' 3 1 = 1 then .ok (.credExact s f.k f.kb) else .ok (.credCanon s f.k f.kb) | none => .error .reserved) else .error .reservedBit
    | 1 => if f.d = 0 ∧ f.kb = 0 then .ok (.cclose f.k) else .error .reservedBit
    | 2 => if f.d.extractLsb' 3 3 = 0 then (match Scope.ofCode (f.d.setWidth 3) with | some s => .ok (.phase s f.k f.kb) | none => .error .reserved) else .error .reservedBit
    | 3 => if f.d.extractLsb' 3 3 = 0 ∧ f.k = 0 ∧ f.kb = 0 then (match Scope.ofCode (f.d.setWidth 3) with | some s => .ok (.bar s) | none => .error .reserved) else .error .reservedBit
    | _ => .error .reserved
  | 0x66 =>
    match f.y.toNat with
    | 0 => if f.d.extractLsb' 4 2 = 0 ∧ f.kb = 0 then .ok (.tdred (f.d.setWidth 4) f.k) else .error .reservedBit
    | _ => .error .reserved
  | 0x6C =>
    match f.y.toNat with
    | 0 => if f.d = 0 then .ok (.qpush f.k f.kb) else .error .reservedBit
    | 1 => .ok (.qpop f.d f.k f.kb)
    | 2 => if f.kb = 0 then .ok (.qlen f.d f.k) else .error .reservedBit
    | 3 => if f.d = 0 then .ok (.nemit f.k f.kb) else .error .reservedBit
    | _ => .error .reserved
  | 0x70 =>
    match f.y.toNat with
    | 0 => if f.d = 0 then .ok (.bind f.k f.kb) else .error .reservedBit
    | 1 => if f.d.extractLsb' 3 3 = 0 ∧ f.kb = 0 then (match Scope.ofCode (f.d.setWidth 3) with | some s => .ok (.acq s f.k) | none => .error .reserved) else .error .reservedBit
    | 2 => if f.d.extractLsb' 3 3 = 0 ∧ f.kb = 0 then (match Scope.ofCode (f.d.setWidth 3) with | some s => .ok (.rel s f.k) | none => .error .reserved) else .error .reservedBit
    | 3 => if f.d.extractLsb' 3 3 = 0 ∧ f.k = 0 ∧ f.kb = 0 then (match Scope.ofCode (f.d.setWidth 3) with | some s => .ok (.tfence s) | none => .error .reserved) else .error .reservedBit
    | 4 => if f.d = 0 ∧ f.k = 0 ∧ f.kb = 0 then .ok .ifence else .error .reservedBit
    | 5 => if f.d.extractLsb' 3 3 = 0 ∧ f.k = 0 ∧ f.kb = 0 then (match Scope.ofCode (f.d.setWidth 3) with | some s => .ok (.dinv s) | none => .error .reserved) else .error .reservedBit
    | _ => .error .reserved
  | 0x19 =>
    if f.d = 0 then
      if f.y = 6 then .ok (.kmov f.k f.kb)
      else match ICond.ofCode f.y with | some c => .ok (.kcmp c f.k f.kb) | none => .error .reserved
    else .error .reservedBit
  | 0x1A => .ok (.kmovi f.k (f.d ++ f.kb ++ f.y))
  | _ => .error .unassigned

/-- The F-M rows. -/
def decodeM (f : FM) : Dec :=
  match f.op.toNat with
  | 0x40 => match Width.ofCode f.w with | some w => .ok (.ld w f.v f.br f.a f.la) | none => .error .reserved
  | 0x41 => if f.la = 0 then (match Width.ofCode f.w with | some w => .ok (.st w f.v f.br f.a) | none => .error .reserved) else .error .lookahead
  | 0x42 => if f.br = 0 then (match SpillWidth.ofCode f.w with | some w => .ok (.fill w f.v f.a f.la) | none => .error .reserved) else .error .reservedBit
  | 0x43 => if f.br = 0 then (if f.la = 0 then (match SpillWidth.ofCode f.w with | some w => .ok (.spill w f.v f.a) | none => .error .reserved) else .error .lookahead) else .error .reservedBit
  | 0x44 => if f.v.extractLsb' 5 1 = 0 ∧ f.w = 0 then .ok (.brld (f.v.setWidth 5) f.br f.a f.la) else .error .reservedBit
  | 0x45 => if f.br = 0 then (match GldWidth.ofCode f.w with | some w => .ok (.gld w f.v f.a f.la) | none => .error .reserved) else .error .reservedBit
  | 0x62 => if f.v.extractLsb' 4 2 = 0 then (match f.w.toNat with | 0 => .ok (.tld false (f.v.setWidth 4) f.br f.a f.la) | 1 => .ok (.tld true (f.v.setWidth 4) f.br f.a f.la) | _ => .error .reserved) else .error .reservedBit
  | 0x63 => if f.v.extractLsb' 4 2 = 0 then (if f.la = 0 then (match f.w.toNat with | 0 => .ok (.tst false (f.v.setWidth 4) f.br f.a) | 1 => .ok (.tst true (f.v.setWidth 4) f.br f.a) | _ => .error .reserved) else .error .lookahead) else .error .reservedBit
  | 0x64 => if f.v.extractLsb' 4 2 = 0 then (if f.w.extractLsb' 3 1 = 1 then .ok (.tdrainFmt (f.w.setWidth 3) (f.v.setWidth 4) f.br f.a f.la) else if f.w = 0 then .ok (.tdrain (f.v.setWidth 4) f.br f.a f.la) else .error .reservedBit) else .error .reservedBit
  | _ => .error .unassigned

/-- The F-B rows. -/
def decodeB (f : FB) : Dec :=
  match f.op.toNat with
  | 0x38 => if f.c = 0 then .ok (.bra f.off) else .error .reservedBit
  | 0x39 => .ok (.brc f.c f.off)
  | 0x3A => .ok (.call f.c f.off)
  | _ => .error .unassigned

/-- The F-T rows. -/
def decodeT (f : FT) : Dec :=
  match f.op.toNat with
  | 0x60 => .ok (.tmma f.td f.ta f.tb f.fa f.fb (f.sa = 1) (f.sb = 1) (f.acc = 1) f.la)
  | 0x61 => .ok (.tmmai f.td f.ta f.tb f.fa f.fb (f.sa = 1) (f.sb = 1) (f.acc = 1) f.la)
  | _ => .error .unassigned

/-- The system words. -/
def decodeS (f : FS) : Dec :=
  match f.x.toNat with
  | 0 => .ok (.sysrd f.d f.sys)
  | 1 => .ok (.syswr f.sys f.d)
  | 2 => if f.d = 0 ∧ f.sys = 0 then .ok .trapret else .error .reservedBit
  | 3 => .ok (.eqrd f.d (f.sys.extractLsb' 8 4) (f.sys.setWidth 8))
  | 4 => .ok (.eqwr (f.sys.extractLsb' 8 4) (f.sys.setWidth 8) f.d)
  | 5 => if f.d = 0 ∧ f.sys.extractLsb' 3 9 = 0 then .ok (.haltp (f.sys.setWidth 3)) else .error .reservedBit
  | 6 => if f.sys = 0 then .ok (.icinv f.d) else .error .reservedBit
  | 7 => .ok (.sysrdX64 f.d f.sys)
  | 8 => .ok (.syswrX64 f.sys f.d)
  | _ => .error .reserved

/-- The hint words (R26). -/
def decodeH (f : FH) : Dec :=
  match f.kind.toNat with
  | 0 => if f.payload.extractLsb' 19 3 = 0 then .ok (.hintImmhi (f.payload.setWidth 19)) else .error .hint
  | 1 =>
    if f.payload.extractLsb' 8 14 = 0 then
      match Scope.ofCode (f.payload.setWidth 3), CachePolicy.ofCode (f.payload.extractLsb' 5 3) with
      | some s, some c => .ok (.hintOrd s (Order.ofCode (f.payload.extractLsb' 3 2)) c)
      | _, _ => .error .hint
    else .error .hint
  | 2 => if f.payload = 0 then .ok .hintMerge else .error .hint
  | 3 =>
    if f.payload.extractLsb' 5 1 = 0 ∧ (f.payload.extractLsb' 4 1 = 1 ∨ f.payload.extractLsb' 6 16 = 0) then
      match HintRound.ofCode (f.payload.setWidth 3) with
      | some r => .ok (.hintFmtx r (f.payload.extractLsb' 3 1 = 1) (f.payload.extractLsb' 4 1 = 1) (f.payload.extractLsb' 6 16))
      | none => .error .hint
    else .error .hint
  | 4 => if f.payload = 0 then .error .hint else .ok (.hintLife f.payload)
  | 5 => if f.payload.extractLsb' 6 16 = 0 then .ok (.hintPred (f.payload.setWidth 6)) else .error .hint
  | _ => .error .hint

/-- The opcode map: the format and row of a word, its operand limits unchecked. -/
def decodeRow (w : Word) : Dec :=
  match opcode w with
  | 0x00 => decodeR (FR.of w)
  | 0x01 => decodeR (FR.of w)
  | 0x02 => decodeR (FR.of w)
  | 0x03 => decodeR (FR.of w)
  | 0x04 => decodeR (FR.of w)
  | 0x05 => decodeR (FR.of w)
  | 0x06 => decodeR (FR.of w)
  | 0x07 => decodeR (FR.of w)
  | 0x08 => decodeR (FR.of w)
  | 0x09 => decodeK (FK.of w)
  | 0x0A => decodeR (FR.of w)
  | 0x10 => decodeI (FI.of w)
  | 0x11 => decodeI (FI.of w)
  | 0x12 => decodeI (FI.of w)
  | 0x13 => decodeI (FI.of w)
  | 0x14 => decodeI (FI.of w)
  | 0x15 => decodeI (FI.of w)
  | 0x18 => decodeK (FK.of w)
  | 0x19 => decodeK (FK.of w)
  | 0x1A => decodeK (FK.of w)
  | 0x1B => decodeK (FK.of w)
  | 0x1C => decodeK (FK.of w)
  | 0x1D => decodeK (FK.of w)
  | 0x20 => decodeR (FR.of w)
  | 0x21 => decodeR (FR.of w)
  | 0x22 => decodeR (FR.of w)
  | 0x23 => decodeR (FR.of w)
  | 0x24 => decodeR (FR.of w)
  | 0x25 => decodeR (FR.of w)
  | 0x26 => decodeR (FR.of w)
  | 0x27 => decodeR (FR.of w)
  | 0x28 => decodeR (FR.of w)
  | 0x30 => decodeR (FR.of w)
  | 0x31 => decodeR (FR.of w)
  | 0x32 => decodeR (FR.of w)
  | 0x33 => decodeR (FR.of w)
  | 0x34 => decodeR (FR.of w)
  | 0x35 => decodeR (FR.of w)
  | 0x36 => decodeK (FK.of w)
  | 0x38 => decodeB (FB.of w)
  | 0x39 => decodeB (FB.of w)
  | 0x3A => decodeB (FB.of w)
  | 0x3B => decodeR (FR.of w)
  | 0x3C => decodeK (FK.of w)
  | 0x3D => decodeI (FI.of w)
  | 0x3E => decodeI (FI.of w)
  | 0x40 => decodeM (FM.of w)
  | 0x41 => decodeM (FM.of w)
  | 0x42 => decodeM (FM.of w)
  | 0x43 => decodeM (FM.of w)
  | 0x44 => decodeM (FM.of w)
  | 0x45 => decodeM (FM.of w)
  | 0x48 => decodeK (FK.of w)
  | 0x49 => decodeK (FK.of w)
  | 0x50 => decodeK (FK.of w)
  | 0x54 => decodeR (FR.of w)
  | 0x55 => decodeR (FR.of w)
  | 0x56 => decodeR (FR.of w)
  | 0x58 => decodeK (FK.of w)
  | 0x5C => decodeK (FK.of w)
  | 0x60 => decodeT (FT.of w)
  | 0x61 => decodeT (FT.of w)
  | 0x62 => decodeM (FM.of w)
  | 0x63 => decodeM (FM.of w)
  | 0x64 => decodeM (FM.of w)
  | 0x65 => decodeR (FR.of w)
  | 0x66 => decodeK (FK.of w)
  | 0x68 => decodeR (FR.of w)
  | 0x69 => decodeR (FR.of w)
  | 0x6A => decodeR (FR.of w)
  | 0x6C => decodeK (FK.of w)
  | 0x70 => decodeK (FK.of w)
  | 0x78 => decodeS (FS.of w)
  | 0x7F => decodeH (FH.of w)
  | _ => .error .unassigned

/-- The decoder: every field and every limit is checked before the word does anything (R28, R35). -/
def decode (w : Word) : Dec :=
  match decodeRow w with
  | .ok i => if i.wellFormed then .ok i else .error .operand
  | .error e => .error e

/-- Silol version 1 (R347): LA fields are zero, and of the system words only SYSRD of a user register exists. -/
def decodeSilol (w : Word) : Dec :=
  match decode w with
  | .error e => .error e
  | .ok i =>
    if i.use.la ≠ 0 then .error .silol
    else if i.supervisor then .error .silol
    else match i with
      | .sysrdX64 .. => .error .silol
      | i => .ok i

/-- The word of an instruction, from the same tables; events have none. -/
def encode : Instr → Word
  | .iadd d a b => FR.word ⟨0, d, a, b, 0, 0⟩
  | .isub d a b => FR.word ⟨0, d, a, b, 0, 1⟩
  | .iaddSatI32 d a b => FR.word ⟨0, d, a, b, 0, 2⟩
  | .isubSatI32 d a b => FR.word ⟨0, d, a, b, 0, 3⟩
  | .iaddSatN32 d a b => FR.word ⟨0, d, a, b, 0, 4⟩
  | .isubSatN32 d a b => FR.word ⟨0, d, a, b, 0, 5⟩
  | .iabs d a => FR.word ⟨0, d, a, 0, 0, 6⟩
  | .ineg d a => FR.word ⟨0, d, a, 0, 0, 7⟩
  | .imul d a b la => FR.word ⟨1, d, a, b, la, 0⟩
  | .imulhI32 d a b la => FR.word ⟨1, d, a, b, la, 1⟩
  | .imulhN32 d a b la => FR.word ⟨1, d, a, b, la, 2⟩
  | .imad d a b la => FR.word ⟨1, d, a, b, la, 3⟩
  | .iminI32 d a b => FR.word ⟨2, d, a, b, 0, 0⟩
  | .iminN32 d a b => FR.word ⟨2, d, a, b, 0, 1⟩
  | .imaxI32 d a b => FR.word ⟨2, d, a, b, 0, 2⟩
  | .imaxN32 d a b => FR.word ⟨2, d, a, b, 0, 3⟩
  | .and d a b => FR.word ⟨3, d, a, b, 0, 0⟩
  | .or d a b => FR.word ⟨3, d, a, b, 0, 1⟩
  | .xor d a b => FR.word ⟨3, d, a, b, 0, 2⟩
  | .andn d a b => FR.word ⟨3, d, a, b, 0, 3⟩
  | .not d a => FR.word ⟨3, d, a, 0, 0, 4⟩
  | .shl d a b => FR.word ⟨4, d, a, b, 0, 0⟩
  | .shr d a b => FR.word ⟨4, d, a, b, 0, 1⟩
  | .sar d a b => FR.word ⟨4, d, a, b, 0, 2⟩
  | .rol d a b => FR.word ⟨4, d, a, b, 0, 3⟩
  | .bfxI32 d a b => FR.word ⟨5, d, a, b, 0, 0⟩
  | .bfxN32 d a b => FR.word ⟨5, d, a, b, 0, 1⟩
  | .bfi d a b => FR.word ⟨5, d, a, b, 0, 2⟩
  | .popc d a => FR.word ⟨6, d, a, 0, 0, 0⟩
  | .clz d a => FR.word ⟨6, d, a, 0, 0, 1⟩
  | .ctz d a => FR.word ⟨6, d, a, 0, 0, 2⟩
  | .brev d a => FR.word ⟨6, d, a, 0, 0, 3⟩
  | .sel d a b => FR.word ⟨8, d, a, b, 0, 0⟩
  | .mov d a => FR.word ⟨8, d, a, 0, 0, 1⟩
  | .idivI32 d a b la => FR.word ⟨10, d, a, b, la, 0⟩
  | .idivN32 d a b la => FR.word ⟨10, d, a, b, la, 1⟩
  | .iremI32 d a b la => FR.word ⟨10, d, a, b, la, 2⟩
  | .iremN32 d a b la => FR.word ⟨10, d, a, b, la, 3⟩
  | .fadd d a b la => FR.word ⟨32, d, a, b, la, 0⟩
  | .fsub d a b la => FR.word ⟨32, d, a, b, la, 1⟩
  | .fmul d a b la => FR.word ⟨32, d, a, b, la, 2⟩
  | .ffma d a b la => FR.word ⟨32, d, a, b, la, 3⟩
  | .fmin d a b la => FR.word ⟨32, d, a, b, la, 4⟩
  | .fmax d a b la => FR.word ⟨32, d, a, b, la, 5⟩
  | .fneg d a la => FR.word ⟨32, d, a, 0, la, 6⟩
  | .fabs d a la => FR.word ⟨32, d, a, 0, la, 7⟩
  | .frcp d a la => FR.word ⟨34, d, a, 0, la, 0⟩
  | .frsq d a la => FR.word ⟨34, d, a, 0, la, 1⟩
  | .fsqrt d a la => FR.word ⟨34, d, a, 0, la, 2⟩
  | .fexp2 d a la => FR.word ⟨34, d, a, 0, la, 3⟩
  | .flog2 d a la => FR.word ⟨34, d, a, 0, la, 4⟩
  | .ftanh d a la => FR.word ⟨34, d, a, 0, la, 5⟩
  | .fclass d a la => FR.word ⟨34, d, a, 0, la, 6⟩
  | .cvtifI32 d a la => FR.word ⟨35, d, a, 0, la, 0⟩
  | .cvtifN32 d a la => FR.word ⟨35, d, a, 0, la, 1⟩
  | .cvtfiI32 d a la => FR.word ⟨35, d, a, 0, la, 2⟩
  | .cvtfiN32 d a la => FR.word ⟨35, d, a, 0, la, 3⟩
  | .hadd2H16 d a b la => FR.word ⟨37, d, a, b, la, 0⟩
  | .hmul2H16 d a b la => FR.word ⟨37, d, a, b, la, 1⟩
  | .hfma2H16 d a b la => FR.word ⟨37, d, a, b, la, 2⟩
  | .hadd2B16 d a b la => FR.word ⟨37, d, a, b, la, 4⟩
  | .hmul2B16 d a b la => FR.word ⟨37, d, a, b, la, 5⟩
  | .hfma2B16 d a b la => FR.word ⟨37, d, a, b, la, 6⟩
  | .fdiv d a b la => FR.word ⟨40, d, a, b, la, 0⟩
  | .form d a b => FR.word ⟨52, d, a, b, 0, 0⟩
  | .formTag d a => FR.word ⟨52, d, a, 0, 0, 1⟩
  | .expand => FR.word ⟨53, 0, 0, 0, 0, 0⟩
  | .hcount d => FR.word ⟨53, d, 0, 0, 0, 1⟩
  | .ret a => FR.word ⟨59, 0, a, 0, 0, 0⟩
  | .brx a => FR.word ⟨59, 0, a, 0, 0, 1⟩
  | .exit => FR.word ⟨59, 0, 0, 0, 0, 2⟩
  | .yield => FR.word ⟨59, 0, 0, 0, 0, 3⟩
  | .nop => FR.word ⟨59, 0, 0, 0, 0, 4⟩
  | .cldx m d a b => FR.word ⟨84, d, a, b, m.code, 0⟩
  | .cstx m d a b => FR.word ⟨84, d, a, b, m.code, 1⟩
  | .caddr d a b => FR.word ⟨84, d, a, b, 0, 2⟩
  | .cxfer d a b => FR.word ⟨85, d, a, b, 0, 0⟩
  | .csect m d a b => FR.word ⟨85, d, a, b, m.code, 1⟩
  | .cmrg m d a b => FR.word ⟨85, d, a, b, m.code, 2⟩
  | .carrive a b => FR.word ⟨86, 0, a, b, 0, 0⟩
  | .chalt => FR.word ⟨86, 0, 0, 0, 0, 1⟩
  | .trowrd d t b la => FR.word ⟨101, d, t.setWidth 6, b, la, 0⟩
  | .trowwr t a b => FR.word ⟨101, t.setWidth 6, a, b, 0, 1⟩
  | .tscale t a => FR.word ⟨101, t.setWidth 6, a, 0, 0, 2⟩
  | .tzero t => FR.word ⟨101, t.setWidth 6, 0, 0, 0, 3⟩
  | .atomXchg d a b la => FR.word ⟨105, d, a, b, la, 0⟩
  | .acas d a b la => FR.word ⟨105, d, a, b, la, 1⟩
  | .acasX64 d a b la => FR.word ⟨105, d, a, b, la, 2⟩
  | .acas128 d a b la => FR.word ⟨105, d, a, b, la, 3⟩
  | .sld d a la => FR.word ⟨105, d, a, 0, la, 4⟩
  | .sst a b => FR.word ⟨105, 0, a, b, 0, 5⟩
  | .sldX64 d a la => FR.word ⟨105, d, a, 0, la, 6⟩
  | .sstX64 a b => FR.word ⟨105, 0, a, b, 0, 7⟩
  | .icmp c d a b => FR.word ⟨7, d, a, b, 0, c.code⟩
  | .fcmp c d a b la => FR.word ⟨33, d, a, b, la, c.code⟩
  | .fcvt t s d a la => FR.word ⟨36, d, a, t.code ++ s.code, la, 0⟩
  | .bkpack d a n la => FR.word ⟨38, d, a, 0, la, n⟩
  | .bkunpk d a n la => FR.word ⟨39, d, a, 0, la, n⟩
  | .shfl m d a b la => FR.word ⟨48, d, a, b, la, m.code⟩
  | .vote m d a la => FR.word ⟨49, d, a, 0, la, m.code⟩
  | .gshfl m d a b la => FR.word ⟨51, d, a, b, la, m.code⟩
  | .atom o d a b la => FR.word ⟨104, d, a, b, la, o.code⟩
  | .ared o a b => FR.word ⟨106, 0, a, b, 0, o.code⟩
  | .lred o d a la => FR.word ⟨50, d, a, 0, la, o.code⟩
  | .lscanIncl o d a la => FR.word ⟨50, d, a, 1, la, o.code⟩
  | .lscanExcl o d a la => FR.word ⟨50, d, a, 2, la, o.code⟩
  | .lredF32 o d a la => FR.word ⟨50, d, a, 3, la, o.code⟩
  | .lscanInclF32 o d a la => FR.word ⟨50, d, a, 4, la, o.code⟩
  | .lscanExclF32 o d a la => FR.word ⟨50, d, a, 5, la, o.code⟩
  | .movi d imm => FI.word ⟨16, d, 0, imm⟩
  | .addi d a imm => FI.word ⟨17, d, a, imm⟩
  | .andi d a imm => FI.word ⟨18, d, a, imm⟩
  | .ori d a imm => FI.word ⟨19, d, a, imm⟩
  | .xori d a imm => FI.word ⟨20, d, a, imm⟩
  | .shli d a imm => FI.word ⟨21, d, a, imm.setWidth 13⟩
  | .trapi code => FI.word ⟨61, 0, 0, code.setWidth 13⟩
  | .brk code => FI.word ⟨62, 0, 0, code.setWidth 13⟩
  | .movk d k => FK.word ⟨9, d, k, 0, 0⟩
  | .kadd k b => FK.word ⟨24, 0, k, b, 0⟩
  | .ksub k b => FK.word ⟨24, 0, k, b, 1⟩
  | .kmul k b => FK.word ⟨24, 0, k, b, 2⟩
  | .kand k b => FK.word ⟨24, 0, k, b, 3⟩
  | .kor k b => FK.word ⟨24, 0, k, b, 4⟩
  | .kxor k b => FK.word ⟨24, 0, k, b, 5⟩
  | .kshl k b => FK.word ⟨24, 0, k, b, 6⟩
  | .kshr k b => FK.word ⟨24, 0, k, b, 7⟩
  | .kmov k b => FK.word ⟨25, 0, k, b, 6⟩
  | .kld k n o => FK.word ⟨27, n.setWidth 6, k, o, 0⟩
  | .kst k n o => FK.word ⟨27, n.setWidth 6, k, o, 1⟩
  | .rds d s hi => FK.word ⟨28, d, s, 0, if hi then 1 else 0⟩
  | .movts n k => FK.word ⟨29, n.setWidth 6, k, 0, 0⟩
  | .reform d k => FK.word ⟨54, d, k, 0, 0⟩
  | .join k => FK.word ⟨60, 0, k, 0, 0⟩
  | .regclaim n => FK.word ⟨60, n, 0, 0, 1⟩
  | .reggive n => FK.word ⟨60, n, 0, 0, 2⟩
  | .binit s k b => FK.word ⟨72, s.code.setWidth 6, k, b, 0⟩
  | .bretire k => FK.word ⟨72, 0, k, 0, 1⟩
  | .barrive k => FK.word ⟨72, 0, k, 0, 2⟩
  | .bexpect k b => FK.word ⟨72, 0, k, b, 3⟩
  | .wait k b => FK.word ⟨72, 0, k, b, 4⟩
  | .btest d k b => FK.word ⟨72, d, k, b, 5⟩
  | .ctest d k b => FK.word ⟨72, d, k, b, 6⟩
  | .rinit k b => FK.word ⟨73, 0, k, b, 0⟩
  | .rprodTake k => FK.word ⟨73, 0, k, 0, 1⟩
  | .rprodFill k => FK.word ⟨73, 0, k, 0, 2⟩
  | .rconsTake d k => FK.word ⟨73, d, k, 0, 3⟩
  | .rconsFree k => FK.word ⟨73, 0, k, 0, 4⟩
  | .waitCnt c limit => FK.word ⟨73, c.code.setWidth 6, 0, limit, 5⟩
  | .tcopy n k c => FK.word ⟨80, n.setWidth 6, k, c, 0⟩
  | .tcopyMc n k c => FK.word ⟨80, 1#1 ++ n, k, c, 0⟩
  | .gath n k a => FK.word ⟨80, a, k, n.setWidth 8, 1⟩
  | .scat n k a => FK.word ⟨80, a, k, n.setWidth 8, 2⟩
  | .crun c k a => FK.word ⟨80, c.setWidth 6, k, a, 3⟩
  | .want n k => FK.word ⟨88, n.setWidth 6, k, 0, 0⟩
  | .offer n k => FK.word ⟨88, n.setWidth 6, k, 0, 1⟩
  | .unwant k => FK.word ⟨88, 0, k, 0, 2⟩
  | .nevict k => FK.word ⟨88, 0, k, 0, 3⟩
  | .ntwr k b => FK.word ⟨88, 0, k, b, 4⟩
  | .credCanon s k a => FK.word ⟨92, 0#3 ++ s.code, k, a, 0⟩
  | .credExact s k a => FK.word ⟨92, 1#3 ++ s.code, k, a, 0⟩
  | .cclose k => FK.word ⟨92, 0, k, 0, 1⟩
  | .phase s k b => FK.word ⟨92, s.code.setWidth 6, k, b, 2⟩
  | .bar s => FK.word ⟨92, s.code.setWidth 6, 0, 0, 3⟩
  | .tdred t k => FK.word ⟨102, t.setWidth 6, k, 0, 0⟩
  | .qpush k b => FK.word ⟨108, 0, k, b, 0⟩
  | .qpop d k b => FK.word ⟨108, d, k, b, 1⟩
  | .qlen d k => FK.word ⟨108, d, k, 0, 2⟩
  | .nemit k b => FK.word ⟨108, 0, k, b, 3⟩
  | .bind k b => FK.word ⟨112, 0, k, b, 0⟩
  | .acq s k => FK.word ⟨112, s.code.setWidth 6, k, 0, 1⟩
  | .rel s k => FK.word ⟨112, s.code.setWidth 6, k, 0, 2⟩
  | .tfence s => FK.word ⟨112, s.code.setWidth 6, 0, 0, 3⟩
  | .ifence => FK.word ⟨112, 0, 0, 0, 4⟩
  | .dinv s => FK.word ⟨112, s.code.setWidth 6, 0, 0, 5⟩
  | .kcmp c k b => FK.word ⟨25, 0, k, b, c.code⟩
  | .kmovi k imm => FK.word ⟨26, imm.extractLsb' 11 6, k, imm.extractLsb' 3 8, imm.extractLsb' 0 3⟩
  | .ld w d n a la => FM.word ⟨64, d, n, a, la, w.code⟩
  | .st w s n a => FM.word ⟨65, s, n, a, 0, w.code⟩
  | .fill w d a la => FM.word ⟨66, d, 0, a, la, w.code⟩
  | .spill w s a => FM.word ⟨67, s, 0, a, 0, w.code⟩
  | .brld n m a la => FM.word ⟨68, n.setWidth 6, m, a, la, 0⟩
  | .gld w d a la => FM.word ⟨69, d, 0, a, la, w.code⟩
  | .tld tr t n a la => FM.word ⟨98, t.setWidth 6, n, a, la, if tr then 1 else 0⟩
  | .tst tr t n a => FM.word ⟨99, t.setWidth 6, n, a, 0, if tr then 1 else 0⟩
  | .tdrain t n a la => FM.word ⟨100, t.setWidth 6, n, a, la, 0⟩
  | .tdrainFmt s t n a la => FM.word ⟨100, t.setWidth 6, n, a, la, 1#1 ++ s⟩
  | .bra off => FB.word ⟨56, 0, off⟩
  | .brc c off => FB.word ⟨57, c, off⟩
  | .call d off => FB.word ⟨58, d, off⟩
  | .tmma td ta tb fa fb sa sb acc la => FT.word ⟨96, td, ta, tb, fa, fb, la, .ofBool sa, .ofBool sb, .ofBool acc⟩
  | .tmmai td ta tb fa fb sa sb acc la => FT.word ⟨97, td, ta, tb, fa, fb, la, .ofBool sa, .ofBool sb, .ofBool acc⟩
  | .sysrd d n => FS.word ⟨120, d, n, 0⟩
  | .syswr n a => FS.word ⟨120, a, n, 1⟩
  | .trapret => FS.word ⟨120, 0, 0, 2⟩
  | .eqrd d c i => FS.word ⟨120, d, c ++ i, 3⟩
  | .eqwr c i a => FS.word ⟨120, a, c ++ i, 4⟩
  | .haltp p => FS.word ⟨120, 0, p.setWidth 12, 5⟩
  | .icinv a => FS.word ⟨120, a, 0, 6⟩
  | .sysrdX64 d n => FS.word ⟨120, d, n, 7⟩
  | .syswrX64 n a => FS.word ⟨120, a, n, 8⟩
  | .hintImmhi v => FH.word ⟨127, 0, v.setWidth 22⟩
  | .hintOrd s o c => FH.word ⟨127, 1, (c.code ++ o.code ++ s.code).setWidth 22⟩
  | .hintMerge => FH.word ⟨127, 2, 0⟩
  | .hintFmtx r sat sr seed => FH.word ⟨127, 3, seed ++ 0#1 ++ BitVec.ofBool sr ++ BitVec.ofBool sat ++ r.code⟩
  | .hintLife us => FH.word ⟨127, 4, us⟩
  | .hintPred g => FH.word ⟨127, 5, g.setWidth 22⟩
  | _ => 0

/-- The instruction of `nbits` bits `w` as the opcode table numbers them: one little-endian word. -/
def decodeTableWord (nbits w : Nat) : Option Instr :=
  if nbits = 32 then
    match decode (BitVec.ofNat 32 (ofBytes (bytesOf 4 w))) with
    | .ok i => some i
    | .error _ => none
  else none

end Sys2Proof
end

