-- ==== Sys2Proof/Config.lean ====
section
/-! DEFINITION. What one module fixes, and the free values: opaque constants that nothing in Lean can evaluate. -/
namespace Sys2Proof

/-- The module identifier, set at manufacture (R322). -/
opaque Config.podid : Word
/-- The frames of the CXL tier as the attached devices provide them, before the limit of R42. -/
opaque Config.cxlFrames : Nat
/-- What power-on bring-up is given by the root of trust and the boot firmware (R361). -/
opaque Config.bootImage : BootImage
/-- The module's Ed448 identity key (R364): its 57-byte private key. -/
opaque Config.identityKey : BitVec 456

/-- Free choice of what moves next when several agents can: applied to the step counter (log 5). -/
opaque Config.choice : Nat → Nat
/-- Cycles that pass between two scheduling steps: applied to the step counter (log 5). -/
opaque Config.cycles : Nat → Nat
/-- Cycles that a halt line takes to an engine, at most 16 (R311): the cycle in which it rose, and the engine. -/
opaque Config.lineDelay : Nat → Nat → Nat
/-- Whether a cache uses the copy it holds or reads afresh: applied to the step counter and a discriminator (log 9). -/
opaque Config.hit : Nat → Nat → Bool
/-- What is read where a line of main memory holds an uncorrectable error and the machine goes on (R310; log 14): applied to the step counter and a
discriminator. -/
opaque Config.lostValue : Nat → Nat → BitVec 256
/-- Which of the 16 entries of a 64 KiB page translation uses where they differ (R48): applied to the step counter. -/
opaque Config.pageEntry : Nat → Nat
/-- Free buffer permits of an up-port or a link port (R90, R223): step counter, router code, port. -/
opaque Config.permits : Nat → Nat → Nat → Nat
/-- The fixed latency of a device link, in cycles, as training measured it (R220); at most 250 ns count. -/
opaque Config.linkLatency : Nat → Nat
/-- The slots of the loader command ring (R341 gives no number): after the last comes the first; with 0 the ring never wraps (log 22). -/
opaque Config.ringSlots : Nat
/-- The reason that the management block reports when a step of bring-up fails (R361 gives no codes): applied to the step counter (log 28). -/
opaque Config.bringupReason : Nat → Word

/-- Where in the translation area LOAD puts the native copy of the word at an offset of a Silol body: a place for a word of a carder program,
none for any other; no container format says where they stand (R348, log 23). Applied to the step counter. -/
opaque Config.carderPlace : Nat → Nat → Option Nat

/-- The largest magnitude of an input whose result FRCP or FRSQ rounds up, of those whose exact results lie between a value of f32, the argument, and
the next: no bound of R191 leaves a monotonic function more freedom (log 38). -/
opaque Config.frcp : Word → Word
opaque Config.frsq : Word → Word
/-- The part's own bits of FEXP2, FLOG2 and FTANH, where they meet the bounds of R191 (log 38). -/
opaque Config.fexp2 : Word → Word
opaque Config.flog2 : Word → Word
opaque Config.ftanh : Word → Word

end Sys2Proof
end

