-- ==== Sys2Proof/Machine/State.lean ====
section
/-! DEFINITION. The state of the part: everything the spec gives the machine, as plain data, and the state after reset. -/
namespace Sys2Proof.Machine

/-- A memory: byte address and byte, addresses strictly rising, no entry equal to what an unlisted address reads as (0). -/
abbrev Mem := List Host.Cell

/-- The hints of a chain in progress (R25, R26). -/
inductive Hint where
  | immhi (v : BitVec 19) | ord (s : Scope) (o : Order) (c : CachePolicy) | merge
  | fmtx (r : HintRound) (sat sr : Bool) (seed : BitVec 16) | life (us : BitVec 22) | pred (g : Reg)
  deriving DecidableEq, Repr

/-- Wait state of a thread (R256), with the holds of R21, R22, R59, R97, R152, R204 and R289. -/
inductive Wait where
  /-- ready -/
  | none
  /-- WAIT and the waits stated under its rule (R133) -/
  | wait
  /-- a WAIT on a scratchpad slot that a thread of another core has retired: it never completes (R132) -/
  | lost
  /-- its BARRIVE or RCONS.free has been gathered, and holds it until the release is complete (R130) -/
  | arrive
  /-- JOIN (R264) -/
  | join
  /-- REGCLAIM and REGGIVE (R269) -/
  | claim
  /-- the last attempt at the word met a hold that ends by itself: a full queue, an outstanding result, a write that a release waits for;
  whether the word is held now is asked again each cycle (R256) -/
  | held
  /-- held at a merge point (R152) -/
  | merge
  /-- a queue word whose reply has not arrived (R289) -/
  | reply
  /-- its word has faulted: it stays at the word until the halt is over (R310, R312) -/
  | fault
  deriving DecidableEq, Repr

/-- The word of the thread has issued and waits; its condition is tested each cycle (R130, R133, R269). -/
def Wait.waits : Wait → Bool
  | .wait | .claim | .arrive => true
  | _ => false

/-- An open lookahead window (R21): words left, registers of its producer, the request its result waits for. -/
structure Window where
  left : Nat
  regs : List RegName
  tok  : Option Nat
  deriving DecidableEq, Repr

/-- Control state of a thread: a hood, a lane or a carder program (R142, R256). -/
structure Ctl where
  pc      : DWord := 0
  chainPc : DWord := 0
  chain   : List Hint := []
  wait    : Wait := .none
  windows : List Window := []
  /-- progress index of the current word -/
  prog    : Nat := 0
  /-- issue cycles for which a YIELD still makes the thread the last choice (R266) -/
  yielded : Nat := 0
  /-- issue cycles for which the thread has been ready without issuing (R257, R281) -/
  age     : Nat := 0
  /-- issue cycles since a merge hold began (R152) -/
  heldFor : Nat := 0
  /-- the merge hold at this word has ended (R152) -/
  merged  : Bool := false
  /-- issued its one step of single-step mode (R322) -/
  stepped : Bool := false
  /-- the word with which the thread waits, and the uniform operands that it captured (R133) -/
  word    : Option Instr := none
  cap     : List (Nat × Word) := []
  /-- it has still to complete the word at which its hood was split (R148) -/
  owes    : Bool := false
  /-- it has completed that word, and issues no other before the indices of these ranges have (R148) -/
  after   : List (Nat × Nat) := []
  deriving DecidableEq, Repr

/-- The form of a general register in a hood (R143): UNIFORM iff the stride is 0. -/
structure Form where
  base   : Word := 0
  stride : Word := 0
  deriving DecidableEq, Repr

/-- A hood: one thread for the indices `lo` to `hi - 1` (R142). -/
structure Hood where
  lo  : Nat
  hi  : Nat
  ctl : Ctl
  g   : Vector Form 64
  deriving DecidableEq, Repr

/-- An expanded, live lane, by its index (R149, R256). -/
structure Lane where
  x   : Nat
  ctl : Ctl
  g   : Vector Word 64
  deriving DecidableEq, Repr

/-- The gathered words (R128, R253, R269). -/
inductive GatherKind where
  | barrive | consTake (d : Nat) | consFree | give (n : Nat) | claim (n : Nat) | bar (s : Scope)
  deriving DecidableEq, Repr

/-- A gather of one wave position (R128). -/
structure Gather where
  kind     : GatherKind
  addr     : Nat
  pos      : Nat
  /-- indices that have issued the word -/
  issued   : List Nat
  /-- of these, the ones no predicate excluded (R270) -/
  selected : List Nat
  /-- complete: every live index has issued -/
  full     : Bool := false
  /-- the indices of the word that completed it (R130) -/
  last     : List Nat := []
  /-- its effect has taken place -/
  done     : Bool := false
  /-- commands and requests that its threads had queued when they issued the word, and that are no known write to the object's regions (R120) -/
  late     : List Nat := []
  /-- slot taken (RCONS.take), generation (BAR) -/
  result   : Nat := 0
  deriving DecidableEq, Repr

/-- A reservation of a ring slot by an index (R139). -/
structure Reservation where
  x    : Nat
  ring : Word
  slot : Nat
  deriving DecidableEq, Repr

/-- An explicit binding (R299). -/
structure Binding where
  obj  : Word
  addr : DWord
  len  : Nat
  deriving DecidableEq, Repr

/-- A GLD that has issued (R355, R358): its number, its thread and its word, the micro-step reached, the carder that holds its command entry, the
address and the captured device address of each participant's data, and the data in the core's staging. -/
structure Gld where
  id      : Nat
  hood    : Bool
  xs      : List Nat
  pc      : DWord
  chainPc : DWord
  chain   : List Hint
  /-- the address register, the first destination register, registers and bytes of a participant -/
  ga      : Nat
  gd      : Nat
  regs    : Nat
  bytes   : Nat
  step    : Nat
  inst    : Nat
  vas     : List (Nat × DWord)
  das     : List (Nat × Nat)
  data    : List (Nat × List Byte) := []
  deriving DecidableEq, Repr

/-- A region bound to an object by use (R120): that of a buffer record whose BOUND names it and through which the group has accessed, or the bytes that
a session has landed with a credit on it. -/
structure UsedRegion where
  obj    : Word
  /-- none: main memory -/
  space  : Option Nat
  base   : Nat
  extent : Nat
  deriving DecidableEq, Repr

/-- What a SPILL from a hood recorded beside a word (R123): word offset in the spill memory, register stride. -/
structure SpillTag where
  off    : Nat
  stride : Word
  deriving DecidableEq, Repr

/-- A resident group (R275 to R278); the supervisor wave has one of its own (R314). -/
structure Group where
  gid     : Nat
  number  : Word := 0
  launch  : Nat := 0
  core    : Nat := 0
  first   : Nat := 0
  count   : Nat := 0
  roles   : Nat := 1
  /-- groups of its cluster, 1 for none (R275) -/
  csize   : Nat := 1
  rank    : Word := 0
  /-- a node group (R287): its number counts takes and names no member of a cluster -/
  node    : Bool := false
  lw16    : Bool := false
  tiles   : Nat := 0
  /-- wave slot of each position (R292) -/
  slots   : List Nat := []
  k       : Vector Word 192 := Vector.replicate 192 0
  hoods   : List Hood := []
  lanes   : List Lane := []
  /-- allocation G of each position (R269) -/
  alloc   : List Nat := []
  pool    : Nat := 0
  fmts    : Vector DWord 8 := Vector.replicate 8 0
  tile    : Vector Mem 16 := Vector.replicate 16 []
  shape   : Vector Word 16 := Vector.replicate 16 0
  shared  : Mem := []
  size    : Nat := 0
  live    : List Nat := []
  spill   : Mem := []
  tags    : List SpillTag := []
  gathers : List Gather := []
  claims  : List Nat := []
  resv    : List Reservation := []
  binds   : List Binding := []
  used    : List UsedRegion := []
  /-- tile registers that hold an uncorrectable error until rewritten (R217, R310) -/
  badTiles : List Nat := []
  /-- the GLDs of its threads that have issued (R358) -/
  glds    : List Gld := []
  deriving DecidableEq, Repr

/-- State of an interest-table entry (R97); one that is DONE frees at once. -/
inductive InterestState where
  | pending | landing
  deriving DecidableEq, Repr

/-- An entry of a core's interest table (R97). -/
structure Interest where
  core     : Nat
  name     : DWord
  buf      : BitVec 256
  /-- captured name-table entry (R96) -/
  entry    : BitVec 128
  /-- when its lifetime ends, in cycles of the clock; while the context does not run, the cycles left (R104) -/
  life     : Nat
  /-- ring slot that its chunks are credited on -/
  slot     : Option Nat
  home     : Router
  rank     : Option Nat
  /-- the rank of this package in the thread's launch -/
  own      : Nat
  gid      : Nat
  xs       : List Nat
  pc       : DWord
  /-- the issuing thread was a hood -/
  hood     : Bool
  state    : InterestState
  deriving DecidableEq, Repr

/-- Where a packet came from or goes to: a port of a router (R88, R94); a link, with the rank that it leads to (R220). -/
inductive Port where
  | core (d : DieId) (n : Nat)
  | router (r : Router)
  | link (n : Nat) (rank : Nat)
  | store
  deriving DecidableEq, Repr

/-- An OFFER being read out (R105, R108). -/
structure Offer where
  id    : Nat
  core  : Nat
  gid   : Nat
  xs    : List Nat
  pc    : DWord
  name  : DWord
  buf   : BitVec 256
  entry : BitVec 128
  /-- chunks read out -/
  next  : Nat
  /-- the home has allocated its chunks, or discards them -/
  open_ : Bool
  /-- ring slot that its bytes are credited on -/
  slot  : Option Nat
  home  : Router
  rank  : Option Nat
  /-- the rank of this package in the thread's launch -/
  own   : Nat
  /-- the issuing thread was a hood -/
  hood  : Bool
  /-- the ports that its header has taken, from the core's leaf on: its chunks follow (R89, R90) -/
  path  : List Port := []
  deriving DecidableEq, Repr

/-- Words of the tile engine (R219). -/
inductive TileKind where
  | tmma | tmmai | tld | tst | tdrain | tdred | trowrd | trowwr | tscale | tzero
  deriving DecidableEq, Repr

/-- A queued tile word with what it captured at issue (R204, R334). -/
structure TileCmd where
  id     : Nat
  core   : Nat
  kind   : TileKind
  acc    : Bool := false
  tr     : Bool := false
  conv   : Bool := false
  td     : Nat := 0
  ta     : Nat := 0
  tb     : Nat := 0
  cslot  : Nat := 0
  /-- format that a TDRAIN writes: its slot's, or the tile's (R215) -/
  ofmt   : Nat := 0
  fa     : Nat := 0
  fb     : Nat := 0
  sa     : Bool := false
  sb     : Bool := false
  ctx    : Ctx
  pc     : DWord
  prog   : Nat := 0
  /-- lane set (R202) -/
  lanes  : Word
  gid    : Nat
  number : Word
  base   : Nat
  xs     : List Nat
  sd     : Word := 0
  sha    : Word := 0
  shb    : Word := 0
  off    : Word := 0
  handle : Word := 0
  buf    : BitVec 256 := 0
  gaL    : Vector Word 32 := Vector.replicate 32 0
  gbL    : Vector Word 32 := Vector.replicate 32 0
  gd     : Nat := 0
  /-- rounding, saturation, seed of a FMTX hint or of the slot -/
  round  : HintRound := .rne
  sat    : Bool := false
  sr     : Bool := false
  seed   : BitVec 16 := 0
  deriving DecidableEq, Repr

/-- An open session handle of a core (R227). -/
structure Handle where
  core  : Nat
  h     : Nat
  gid   : Nat
  sid   : Word
  scope : Scope
  inst  : Nat
  part  : Nat
  rows  : Nat
  cols  : Nat
  crown : Nat
  sent  : BitVec 64
  pc    : DWord
  /-- its generation count, and the context that opened it -/
  gen     : Nat := 0
  ctx     : Ctx := 0
  /-- the model's own number of the join -/
  uid     : Nat := 0
  /-- its participant number and its own fields of the descriptor (R226) -/
  pno     : Nat := 0
  dest    : DWord := 0
  dstride : Nat := 0
  notify  : Word := 0
  /-- rows in staging at the entry crown (R230), in pieces of up to 128 columns, which is a chunk: twice the row, plus 1 for the columns from 128 on -/
  staged  : List (Nat × List Word) := []
  /-- the TDRED that staged each row -/
  pcs     : List (Nat × DWord) := []
  /-- the rank of this package in the session's launch; at .pod the home is rank 0's -/
  rank    : Nat := 0
  /-- a home on another package has abandoned its session (R232) -/
  ended   : Bool := false
  deriving DecidableEq, Repr

/-- A portable range of a context (R348): first address, byte length. -/
structure PortableRange where
  base : DWord
  size : Nat
  deriving DecidableEq, Repr

/-- A visible safe-point map entry (R349). -/
structure SafePoint where
  silol  : DWord
  native : DWord
  deriving DecidableEq, Repr

/-- The translation area that a LOAD in MODE 1 gave a portable body: the body, its measurement, and the area (R341, R348, R349). -/
structure TransArea where
  base  : DWord
  size  : Nat
  meas  : BitVec 512
  area  : DWord
  bytes : Nat
  /-- native copies of the carder programs: offsets in the body and in the area (R348) -/
  copies : List (Nat × Nat) := []
  deriving DecidableEq, Repr

/-- A write that was queued when its thread released an object, and that the release did not wait for, as it lay in no region then known to be bound
to the object: command or request `id` of the releasing group `gid`. `seen` has the groups that have acquired the object since (R120, R295). -/
structure LateWrite where
  obj  : Word
  gid  : Nat
  id   : Nat
  seen : List Nat := []
  deriving DecidableEq, Repr

/-- A command (`tile` false) or a counted tile word that EQRD has removed: its group and its indices (R331). -/
structure Removed where
  tile : Bool
  gid  : Nat
  xs   : List Nat
  deriving DecidableEq, Repr

/-- One context's bank on a die: what a swap exchanges (R335). -/
structure Bank where
  ctx       : Ctx := 0
  rtab      : DWord := 0
  ptroot    : DWord := 0
  ntbase    : DWord := 0
  qtbase    : DWord := 0
  sprange   : Word := 0
  syncovf   : Word := 0
  portable  : List PortableRange := []
  safe      : List SafePoint := []
  groups    : List Group := []
  interests : List Interest := []
  offers    : List Offer := []
  tileq     : List TileCmd := []
  handles   : List Handle := []
  /-- generation counts of the session handles, by core and handle -/
  gens      : List (Nat × Nat × Nat) := []
  /-- translation areas of the context's portable bodies (R341, R348, R349) -/
  areas     : List TransArea := []
  /-- commands and tile words that EQRD has removed, which count on .copy or .tile until TRAPRET (R331) -/
  removed   : List Removed := []
  /-- writes still to come that releases in the context have passed (R120) -/
  late      : List LateWrite := []
  deriving DecidableEq, Repr, Inhabited

/-- Kinds of carder command (R83); GLD uses an entry of its own (R358). -/
inductive CmdKind where
  | tcopy | gath | scat | crun
  deriving DecidableEq, Repr

/-- A queued carder command with what it captured at issue (R67, R333). -/
structure Cmd where
  id      : Nat
  kind    : CmdKind
  mc      : Bool := false
  started : Bool := false
  mask    : BitVec 16 := 0
  ctx     : Ctx
  sup     : Bool
  core    : Nat
  gid     : Nat
  xs      : List Nat
  npart   : Nat
  pc      : DWord
  base    : Nat
  number  : Word
  map     : Word
  /-- the issuing thread was a hood -/
  hood    : Bool
  fbase   : Word := 0
  fstride : Word := 0
  ftag    : Byte := 0
  freg    : Byte := 255
  pgm     : DWord := 0
  buf     : BitVec 256 := 0
  ops     : Vector Word 8 := Vector.replicate 8 0
  /-- layout record (128 bytes) or footprint record (64 bytes) -/
  image   : List Byte := []
  lanes   : Vector Word 32 := Vector.replicate 32 0
  p0      : Nat := 0
  p1      : Nat := 0
  p2      : Nat := 0
  /-- its bound object was a ring record when it was queued: until it holds a slot it may write into any (R68, R80) -/
  ring    : Bool := false
  /-- ring slot the command writes into (R68) -/
  slot    : Option Nat := none
  /-- where that slot begins in the buffer -/
  shift   : Nat := 0
  /-- multicast members: cluster rank and units delivered (R69) -/
  late    : List (Nat × Nat) := []
  deriving DecidableEq, Repr

/-- A carder (R55). -/
structure Carder where
  c     : Vector DWord 32 := Vector.replicate 32 0
  ctl   : Ctl := {}
  p0    : Nat := 0
  p1    : Nat := 0
  p2    : Nat := 0
  queue : List Cmd := []
  deriving DecidableEq, Repr

/-- An entry of an agent's translation cache (R51). -/
structure TlbEntry where
  agent : Nat
  ctx   : Ctx
  /-- 0: a translation of the pages `page` to `page + pages - 1`, from a range entry or a leaf; 1 to 3: a page-table entry that gives the table
  of that level for the addresses whose upper bits are `page` -/
  level : Nat
  page  : Nat
  pages : Nat
  /-- the first device page, or the device address of the table -/
  da    : Nat
  perm  : BitVec 5
  deriving DecidableEq, Repr

/-- A descriptor-cache entry (R67, R124). -/
structure DescEntry where
  agent : Nat
  ctx   : Ctx
  /-- 0 main memory (virtual address), 1 group shared memory of `gid`, 2 scratchpad -/
  space : Nat
  gid   : Nat
  addr  : Nat
  bytes : List Byte
  deriving DecidableEq, Repr

/-- A line of the second-level instruction cache, or of an agent's instruction buffer (R351). -/
structure ILine where
  /-- none: the die's second-level cache -/
  agent : Option Nat
  line  : Nat
  bytes : List Byte
  deriving DecidableEq, Repr

/-- Engine classes of the issue stage (R291). -/
inductive EngineClass where
  | vector | local_ | carder | fabric | tile | sync | none
  deriving DecidableEq, Repr

/-- Scheduler state of a core (R291, R292, R348). -/
structure Sched where
  idle      : Vector Nat 6 := Vector.replicate 6 255
  age       : Vector Nat 32 := Vector.replicate 32 0
  /-- pairs that issue nothing the next time they are chosen: a Silol word was issued -/
  skip      : List Nat := []
  hoodSkip  : Bool := false
  deriving DecidableEq, Repr

/-- Operations of the sync engine (R238 to R244, R290, R111, R285). -/
inductive SyncOp where
  | red (o : RedOp) | xchg | cas | load | store
  | push | pop | len | emit
  /-- NTWR, and writes of status words: no counter -/
  | put
  deriving DecidableEq, Repr

/-- A request at a sync engine (R246, R249): performed, it holds its reply. -/
structure SyncReq where
  id     : Nat
  /-- the home engine's die -/
  home   : DieId
  op     : SyncOp
  part   : PartId
  ctx    : Ctx
  /-- the issuing thread -/
  die    : DieId
  core   : Nat
  gid    : Nat
  xs     : List Nat
  hood   : Bool
  pc     : DWord
  /-- device address of a variable, handle of a queue -/
  addr   : Nat
  /-- the virtual address of a variable -/
  va     : DWord := 0
  width  : Nat
  arg    : BitVec 256
  cmp    : BitVec 128
  dst    : Nat
  /-- destination octet of QPOP -/
  dstk   : Nat
  acq    : Bool
  reply  : Option (BitVec 256)
  /-- QPOP found a record -/
  flag   : Nat
  /-- the request of the word's first participant -/
  word   : Nat := 0
  /-- the reply is written into a register -/
  wb     : Bool := true
  deriving DecidableEq, Repr

/-- A resident queue (R283, R284). -/
structure RQueue where
  die    : DieId
  part   : PartId
  ctx    : Ctx
  handle : Nat
  /-- device address of the descriptor -/
  desc   : Nat
  kind   : Nat
  pin    : Bool
  rcap   : Nat
  chip   : List (BitVec 256)
  rhead  : Nat
  rcount : Nat
  ring   : DWord
  hsave  : DWord
  /-- translations kept: virtual page and device page -/
  pages  : List (Nat × Nat)
  used   : Nat
  deriving DecidableEq, Repr

/-- A counter set (R236, R254, R380). -/
structure CSet where
  die      : DieId
  part     : PartId
  ctx      : Ctx
  launch   : Nat
  scope    : Scope
  inst     : Nat
  words    : Nat
  /-- placed in the overflow area -/
  overflow : Bool
  counters : List Nat
  gen      : Nat
  open_    : Bool
  /-- members of the open generation and those that have arrived: die and group -/
  members  : List (DieId × Nat)
  arrived  : List (DieId × Nat)
  /-- .pod: ranks whose combined arrival has come (R380) -/
  ranks    : List Nat
  /-- .pod: this package has sent its combined arrival -/
  sentUp   : Bool
  /-- groups that have arrived at a generation that is not open yet (R254, R380) -/
  next     : List (DieId × Nat) := []
  /-- .pod, on a package that is not rank 0: the home's number of the generation (R380) -/
  num      : Nat := 0
  /-- the word of the last arrival -/
  pc       : DWord
  deriving DecidableEq, Repr

/-- A participant of a session (R226, R230). -/
structure SJoin where
  rank    : Nat
  part    : PartId
  die     : DieId
  ctx     : Ctx
  gid     : Nat
  core    : Nat
  h       : Nat
  pno     : Nat
  crown   : Nat
  pc      : DWord
  dest    : DWord
  dstride : Nat
  notify  : Word
  closed  : Bool
  /-- result rows written -/
  written : Nat
  staged  : List (Nat × List Word)
  /-- the rows that it has sent (R216) -/
  mask    : BitVec 64 := 0
  /-- the link that its join came by (R223) -/
  link    : Option Nat := none
  deriving DecidableEq, Repr

/-- A reduction session at its home (R227 to R232). -/
structure Session where
  id    : Nat := 0
  home  : DieId
  part  : PartId
  ctx   : Ctx
  sid   : Word
  scope : Scope
  inst  : Nat
  exactMode : Bool
  count : Nat
  rows  : Nat
  cols  : Nat
  dfmt  : Byte
  flags : Byte
  joins : List SJoin
  abandoned : Bool
  /-- rows of the result once every close has come -/
  result : Option (List (List Byte))
  /-- the last CCLOSE, which causes the packets of the result (R222) -/
  pc     : DWord := 0
  /-- the row that the home has asked a participant on another package for: participant number and row -/
  asked  : Option (Nat × Nat) := none
  deriving DecidableEq, Repr

/-- Rows in an entry crown that a home on another package has still to read, their handle closed (R230): the participant with its rows, the 512-byte
chunks that they hold, and the TDRED of each row. -/
structure Kept where
  j      : SJoin
  chunks : Nat
  pcs    : List (Nat × DWord)
  deriving DecidableEq, Repr

/-- States of a pending entry that is not free (R99). -/
inductive PendState where
  | wait | deliv
  deriving DecidableEq, Repr

/-- A pending-table entry (R98). -/
structure PendEntry where
  at_      : Router
  ctx      : Ctx
  part     : PartId
  name     : DWord
  ports    : List Port
  up       : Option Port
  deadline : Nat
  size     : Nat
  state    : PendState
  deriving DecidableEq, Repr

/-- States of a stored tile (R101); ABSENT has no entry. -/
inductive StoreState where
  | filling | stored
  deriving DecidableEq, Repr

/-- A tile of a home store (R100, R101). -/
structure StoreEntry where
  at_    : Router
  ctx    : Ctx
  part   : PartId
  name   : DWord
  size   : Nat
  fmt    : Byte
  ret    : Nat
  bytes  : List Byte
  state  : StoreState
  expiry : Nat
  /-- NEVICT came while filling, or retention ended while a delivery runs -/
  evict  : Bool
  /-- the offer that fills it, and the rank that it comes from, if another package's -/
  offer  : Nat
  origin : Option Nat
  /-- the rank of this package as the home of the name -/
  own    : Nat
  /-- the offering die and word, which cause the packets of its deliveries (R222); a die of its partition here for an offer from elsewhere -/
  die    : DieId
  pc     : DWord
  /-- chunks that hold an uncorrectable error (R100) -/
  bad    : List Nat := []
  deriving DecidableEq, Repr

/-- Kinds of fabric packet (R89, R98, R99, R101, R103). -/
inductive PacketKind where
  | interest | withdrawal | header | chunk (c : Nat) | sizeNotice | offer (id : Nat) | offerChunk (id c : Nat) | evict
  /-- a home on another package has accepted an offer -/
  | accept (id : Nat)
  deriving DecidableEq, Repr

/-- A packet on the fabric, about to arrive at `at_` from `src`. -/
structure Packet where
  kind  : PacketKind
  at_   : Port
  src   : Port
  ctx   : Ctx
  part  : PartId
  name  : DWord
  /-- home of the name -/
  home  : Router
  /-- home rank, for pod scope on another package -/
  rank  : Option Nat
  /-- the rank of this package, which a link's header gives as the source (R220) -/
  own   : Nat
  /-- captured entry: size, format, lifetime, retention -/
  entry : BitVec 128
  life  : Nat
  bytes : List Byte
  /-- the issuing die and word, for LINK (R222) -/
  die   : DieId
  pc    : DWord
  /-- routers of the issuing die that the request has passed -/
  via   : List Router
  /-- ports that a chunk of an offer has still to take: those of its header -/
  path  : List Port := []
  deriving DecidableEq, Repr

/-- A stop record's contents (R83, R219, R316, R317): 64 bytes. -/
structure StopRec where
  cause : Byte := 0
  inner : Byte := 0
  cls   : Byte := 3
  kind  : Byte := 255
  inst  : Byte := 0
  b5    : Byte := 0
  ctx   : Ctx := 0
  pc    : DWord := 0
  faddr : DWord := 0
  q18   : DWord := 0
  q20   : DWord := 0
  q28   : DWord := 0
  base  : DWord := 0
  group : Word := 0
  map   : Word := 0
  deriving DecidableEq, Repr

/-- The form fields of a fault (R316, R319). -/
structure FormInfo where
  fbase   : Word := 0
  fstride : Word := 0
  ftag    : Byte := 0
  freg    : Byte := 255
  rest    : BitVec 16 := 0
  deriving DecidableEq, Repr

/-- A fault raised in the current halt, by its engine, with its lowest faulting index (R313, R315). -/
structure FaultRec where
  die   : DieId
  slot  : Nat
  clock : Nat
  stop  : StopRec
  form  : FormInfo
  idx   : Nat := 0
  deriving DecidableEq, Repr

/-- A partition (R9, R311, R322). -/
structure Part where
  halt     : Bool := false
  rose     : Nat := 0
  complete : Bool := false
  /-- every fault raised in this halt -/
  faults   : List FaultRec := []
  tpend    : BitVec 5 := 0
  /-- the deliveries of this halt, oldest first: the cause, and the trap frame that every die writes for it (R318) -/
  frames   : List (Byte × List Byte) := []
  tslice   : Word := 0
  elapsed  : Nat := 0
  step     : Bool := false
  migctl   : Bool := true
  released : List (DieId × Ctx) := []
  keymask  : BitVec 16 := 0
  attValue : BitVec 512 := 0
  attCount : Word := 0
  deriving DecidableEq, Repr

/-- An operation of the shadow bank in progress (R336). -/
inductive ShadowOp where
  | save | load (c : Ctx)
  deriving DecidableEq, Repr

/-- A compute die. -/
structure Die where
  active   : Bank := {}
  shadow   : Bank := {}
  /-- 0 empty, 1 holds a context, 2 busy -/
  shState  : Nat := 0
  shOp     : Option ShadowOp := none
  swapBusy : Bool := false
  trapvec  : Word := 0
  svepc    : Word := 0
  svboot   : DWord := 0
  ctxsave  : Word := 0
  ctxsel   : Bool := false
  qmiss    : Word := 0
  /-- the supervisor wave, its core and its translation registers (R314, R324) -/
  sv       : Group := { gid := 0 }
  svRtab   : DWord := 0
  svPtroot : DWord := 0
  /-- its session handles and their generation counts, which lie in neither bank (R229, R314) -/
  svHandles : List Handle := []
  svGens   : List (Nat × Nat × Nat) := []
  /-- the handler has been entered for an event of the partition and has not returned -/
  handler  : Bool := false
  /-- deliveries that the die has taken in this halt (R318, R320) -/
  taken    : Nat := 0
  /-- the supervisor wave is in the handler of its own fault (R329) -/
  svOwn    : Bool := false
  scratch  : Mem := []
  scratchLive : List Nat := []
  /-- lines (16 bytes) of local memory that hold an uncorrectable error until rewritten: space, group, line (R117, R310) -/
  badLocal : List (Nat × Nat × Nat) := []
  carders  : Vector Carder 48 := Vector.replicate 48 {}
  sched    : Vector Sched 100 := Vector.replicate 100 {}
  tlb      : List TlbEntry := []
  desc     : List DescEntry := []
  icache   : List ILine := []
  /-- lines held by the sync engine, most recently used first, and the partitions whose variables stand in each (R234, R235) -/
  held     : List (Nat × List PartId) := []
  queues   : List RQueue := []
  crowns   : Vector (Fin 4) 4 := Vector.mk #[0, 1, 2, 3] rfl
  failed   : List Nat := []
  /-- physical quads retired (R381) -/
  retired  : List Nat := [24]
  softErrs : Nat := 0
  /-- since the halt line rose: requests its engine has performed for the active context, deliveries completed (R317) -/
  skidReqs : Nat := 0
  skidDelivs : Nat := 0
  /-- pending entries that the halt has dropped (R104, R317) -/
  dropped  : Nat := 0
  throttled : Bool := false
  deriving DecidableEq, Repr

/-- A saved context, kept whole beside main memory; its save area holds `id` (log 7). -/
structure Saved where
  id   : Nat
  ctx  : Ctx
  die  : DieId
  bank : Bank
  /-- no LOAD has brought it back -/
  away : Bool
  deriving DecidableEq, Repr

/-- A rank of a process-group table (R224). -/
structure Rank where
  podid  : Word
  partno : Nat
  slo    : Nat
  shi    : Nat
  deriving DecidableEq, Repr

/-- The phase header of a launch (R251). -/
structure PhaseHdr where
  scope : Scope
  exps  : List Nat
  deriving DecidableEq, Repr

/-- A kernel as a launch record names it (R272, R346). -/
structure Kernel where
  hdr    : Word
  entry  : DWord
  gsize  : Nat
  csize  : Nat
  shared : Nat
  args   : List Word
  fmts   : Vector DWord 8
  deriving DecidableEq, Repr

/-- A node of a work graph (R286, R287). -/
structure Node where
  kernel : Kernel
  qh     : Nat
  coal   : Nat
  timer  : Nat
  /-- when the bin's timer expires -/
  due    : Option Nat
  /-- takes from the bin on each die, so far -/
  takes  : List (DieId × Nat)
  deriving DecidableEq, Repr

/-- A group not yet placed: its number, or the records of a node's take (R287). -/
structure Unplaced where
  die     : DieId
  number  : Nat
  node    : Option Nat
  records : List (BitVec 256)
  deriving DecidableEq, Repr

/-- A launch in progress on this package (R273, R285). -/
structure Launch where
  id       : Nat
  part     : PartId
  ctx      : Ctx
  kernel   : Kernel
  n        : Nat
  lo       : Nat
  hi       : Nat
  ranks    : List Rank
  rank     : Nat
  phase    : Option PhaseHdr
  nodes    : List Node
  unplaced : List Unplaced
  started  : Nat
  /-- virtual address of the status variable, 0 for none -/
  status   : Nat
  queue    : Nat
  serial   : Bool
  deriving DecidableEq, Repr

/-- A frame on the move (R54). -/
structure Migration where
  frame : Nat
  dst   : DieId
  deriving DecidableEq, Repr

/-- A key slot of the loader (R340). -/
structure KeySlot where
  key     : BitVec 456 := 0
  enabled : Bool := false
  deriving DecidableEq, Repr

/-- Classes of packets on a device link (R220). -/
inductive LinkClass where
  | interest | offer | delivery | session | withdrawal
  deriving DecidableEq, Repr
/-- The header of a packet on a device link (R220): context, class, destination rank, source rank. -/
structure Header where
  ctx : Ctx
  cls : LinkClass
  dst : Nat
  src : Nat
  deriving DecidableEq, Repr

/-- A packet in the replay buffer of a link: its sending die, if a partition here sends it, and its causing word, its flits, its header as sent (R220,
R221). -/
structure Sent where
  die   : Option DieId
  pc    : DWord
  flits : Nat
  head  : Header
  deriving DecidableEq, Repr

/-- A device link (R220, R221). -/
structure Link where
  sent    : List Sent := []
  retired : Bool := false
  spared  : Option (Fin 4) := none
  replays : Nat := 0
  deriving DecidableEq, Repr

/-- A message of a session on its way to the home or back (R227, R229, R231). -/
inductive SMsg where
  | join (m : Session) | close (sid : Word) (scope : Scope) (home : DieId) (j : SJoin)
  /-- to a home on another package: a piece of a row; the reset of the partition of an open handle (R230, R232) -/
  | row (j : SJoin) (piece : Nat) (vals : List Word) | gone (j : SJoin)
  /-- from a home on another package: it reads a row; it needs no more of them; bytes of the result, their offset from DEST and what NOTIFY is credited
  after them; a refused join; an abandoned session (R228, R230, R231, R232) -/
  | read (j : SJoin) (row : Nat) | free (j : SJoin)
  | result (j : SJoin) (off : Nat) (bytes : List Byte) (credit : Nat) | refused (j : SJoin) | lost (j : SJoin)
  deriving DecidableEq, Repr

/-- What a packet on a device link carries beside its header: a tile's traffic, a session's, or that of a .pod generation (R380), of which a
package's arrival is its first or its combined one; each has the word that causes it, which causes what follows from it too (R222). -/
inductive Payload where
  | tile (p : Packet)
  | session (m : SMsg)
  | podOpen (launch gen : Nat) (pc : DWord) | podArrival (launch gen : Nat) (combined : Bool) (pc : DWord)
  | podCount (launch dest count : Nat) (pc : DWord) | podRelease (launch gen : Nat)
  deriving DecidableEq, Repr

/-- Inputs from outside the compute dies: the management block, the debug port, the loader's ring, the links, other packages. -/
inductive Input where
  | bringup (b : BootImage) | timeout (step : Nat) (reason : Word)
  | ringAddress (a : DWord) | loader | publish (p : Publication) | keyWrite (w : KeyWrite)
  | route (rank : BitVec 12) (ports : List (Fin 36)) | layout (v : Word)
  /-- a packet that a link brings (R220) -/
  | link (n : Fin 36) (h : Header) (m : Payload)
  | flitError (link : Fin 36) | spare (link : Fin 36) (lane : Fin 4) | headerCrc (link : Fin 36) (replayed : Bool)
  | migrate (frame : Nat) (dst : DieId)
  | throttle (d : DieId) | shutdown | routerFails (r : Router) | ecc (site : EccSite) | softError (d : DieId)
  | coreFails (d : DieId) (core : Nat) | measurements | debugPort (p : PartId) (v : Word)
  deriving DecidableEq, Repr

/-- What the module sends out: packets on its links, and what the management ports report. -/
inductive Out where
  | link (n : Nat) (h : Header) (m : Payload)
  | bringupFailed (step : Nat) (reason : Word)
  | measurements (fw : BitVec 512) (atts : List (BitVec 512 × Word)) (sig : List Byte)
  deriving DecidableEq, Repr

/-- Who issues: a hood by its lowest index, the lanes of one group in one pair slot at one PC, a carder. Group 0 of a die is
its supervisor wave. -/
inductive Agent where
  | none
  | hood (d : DieId) (gid lo : Nat)
  | lanes (d : DieId) (gid slot : Nat) (pc : DWord)
  /-- lanes whose wait is tested again, by the first of them -/
  | waiting (d : DieId) (gid x : Nat)
  /-- a GLD on its way, at its next micro-step (R355) -/
  | gld (d : DieId) (gid id : Nat)
  | carder (d : DieId) (inst : Nat)
  deriving DecidableEq, Repr

/-- The machine. -/
structure State where
  ready    : Bool
  clock    : Nat
  podid    : Word
  layout   : Vector PartId 8
  parts    : Vector Part 8
  dies     : Vector Die 8
  mem      : Mem
  home     : List (Nat × DieId)
  hbmFrames : Nat
  cxlFrames : Nat
  moving   : List Migration
  route    : List (BitVec 12 × List (Fin 36))
  links    : Vector Link 36
  keys     : Vector KeySlot 16
  fwMeas   : BitVec 512
  /-- steps of bring-up done, and, while one is under way, what it works from (R361) -/
  bringup  : Nat
  boot     : Option BootImage
  /-- the loader command ring's device address, and the slot of its next command (R341, R363) -/
  ringBase : DWord
  ringHead : Nat
  harvested : List Router
  launches : List Launch
  /-- launch queues that the schedulers know: partition, context, handle (R285) -/
  launchQueues : List (PartId × Ctx × Nat)
  sets     : List CSet
  sessions : List Session
  reqs     : List SyncReq
  pend     : List PendEntry
  stores   : List StoreEntry
  packets  : List Packet
  smsgs    : List SMsg
  kept     : List Kept
  saves    : List Saved
  /-- device lines (64 bytes) that hold an uncorrectable error until rewritten (R310) -/
  badLines : List Nat
  inbox    : List Input
  out      : List Out
  /-- the model's own fields (logs 5, 6): free-value counter, fresh ids, what moves, the core cycle under way -/
  seq      : Nat
  nextId   : Nat
  cur      : Agent
  issue    : List Agent
  snap     : List Group
  kwr      : List (Nat × Nat)
  deriving DecidableEq, Repr

/-- Faults: where the model stops. -/
inductive Fault where
  /-- An encoded word was given to `exec` while no thread or carder issues (`cur`); raised by the words' shared operations.
  Safe: `step` never calls it so. -/
  | noThread
  deriving DecidableEq, Repr

/-- Refusals. -/
inductive Refusal where
  /-- An instruction that has no meaning yet; raised by an arm of `exec`. Safe. -/
  | notModelled (mnemonic : String)
  deriving DecidableEq, Repr

/-- The outcome of a step of this machine. -/
abbrev Res := Host.Outcome State Fault Refusal

/-- The HBM4E frames of the package (R42). -/
abbrev hbmFrameCount : Nat := 244136

/-- The machine as power-on leaves it, before bring-up has run (R361). -/
def State.reset : State where
  ready := false
  clock := 0
  podid := Config.podid
  layout := Vector.replicate 8 0
  parts := Vector.replicate 8 {}
  dies := Vector.replicate 8 {}
  mem := []
  home := []
  hbmFrames := hbmFrameCount
  cxlFrames := min Config.cxlFrames 1907348
  moving := []
  route := []
  links := Vector.replicate 36 {}
  keys := Vector.replicate 16 {}
  fwMeas := 0
  bringup := 0
  boot := none
  ringBase := 0
  ringHead := 0
  harvested := []
  launches := []
  launchQueues := []
  sets := []
  sessions := []
  reqs := []
  pend := []
  stores := []
  packets := []
  smsgs := []
  kept := []
  saves := []
  badLines := []
  inbox := [.bringup Config.bootImage]
  out := []
  seq := 0
  nextId := 1
  cur := .none
  issue := []
  snap := []
  kwr := []

end Sys2Proof.Machine
end

