-- ==== Sys2Proof/Machine/Ops.lean ====
section
/-! DEFINITION. The named operations over memory, dies, groups and threads; raising a fault, completing a halt, delivering an
event and returning from one (R310 to R330). -/
namespace Sys2Proof.Machine

/-! ## Memories -/

/-- The byte at `a`: what is listed, or 0 (R361 zero-fills HBM4E; R114 and R116 zero local memory). -/
def Mem.read : Mem → Nat → Byte
  | [], _ => 0
  | (a', b) :: m, a => if a = a' then b else if a < a' then 0 else Mem.read m a

/-- Writes one byte and keeps the canonical form. -/
def Mem.write : Mem → Nat → Byte → Mem
  | [], a, b => if b = 0 then [] else [(a, b)]
  | (a', b') :: m, a, b =>
    if a < a' then (if b = 0 then (a', b') :: m else (a, b) :: (a', b') :: m)
    else if a = a' then (if b = 0 then m else (a, b) :: m)
    else (a', b') :: Mem.write m a b

/-- Canonical form from address `lo` on: rising addresses, no zero byte. -/
def Mem.wfFrom : Nat → Mem → Bool
  | _, [] => true
  | lo, (a, b) :: m => decide (lo ≤ a) && b != 0 && Mem.wfFrom (a + 1) m

/-- The canonical form of a memory. -/
def Mem.wf (m : Mem) : Bool := Mem.wfFrom 0 m

/-- `n` bytes from `a` on. -/
def Mem.readN (m : Mem) (a : Nat) : Nat → List Byte
  | 0 => []
  | n + 1 => m.read a :: Mem.readN m (a + 1) n

/-- Writes bytes from `a` on. -/
def Mem.writeN (m : Mem) (a : Nat) : List Byte → Mem
  | [] => m
  | b :: bs => Mem.writeN (m.write a b) (a + 1) bs

/-- Writes `n` zero bytes from `a` on. -/
def Mem.clear (m : Mem) (a n : Nat) : Mem := m.filter fun c => c.1 < a || a + n ≤ c.1

/-- Replaces the bytes from `a` on by `bs`, in one pass. -/
def Mem.block (m : Mem) (a : Nat) (bs : List Byte) : Mem :=
  let rec cells : Nat → List Byte → Mem
    | _, [] => []
    | i, b :: bs => if b = 0 then cells (i + 1) bs else (i, b) :: cells (i + 1) bs
  m.filter (fun c => c.1 < a) ++ cells a bs ++ m.filter (fun c => a + bs.length ≤ c.1)

/-- The little-endian value of `n` bytes at `a` (R1). -/
def Mem.get (m : Mem) (a n : Nat) : Nat := ofBytes (m.readN a n)
/-- Stores the low `n` bytes of `v` at `a` (R1). -/
def Mem.put (m : Mem) (a n v : Nat) : Mem := m.writeN a (bytesOf n v)

/-! ## Vectors, dies, groups -/

def vset {α : Type} {n : Nat} (v : Vector α n) (i : Fin n) (x : α) : Vector α n := v.set i.val x i.isLt

/-- Entry `i` of a register file, 0 beyond its end (R20 lets no word name such a register). -/
def vget {α : Type} {n : Nat} (v : Vector α n) (i : Nat) (z : α) : α := if h : i < n then v[i] else z
def vput {α : Type} {n : Nat} (v : Vector α n) (i : Nat) (x : α) : Vector α n := if h : i < n then v.set i x h else v

/-- Maps over a register file, and over two. -/
def vmap {α β : Type} {n : Nat} (f : α → β) (v : Vector α n) : Vector β n := ⟨⟨v.toArray.toList.map f⟩, by simp⟩
def vzip {α β γ : Type} {n : Nat} (f : α → β → γ) (v : Vector α n) (w : Vector β n) : Vector γ n :=
  ⟨⟨List.zipWith f v.toArray.toList w.toArray.toList⟩, by simp⟩

def State.die (s : State) (d : DieId) : Die := s.dies.get d
def State.modDie (s : State) (d : DieId) (f : Die → Die) : State := { s with dies := vset s.dies d (f (s.dies.get d)) }
def State.modBank (s : State) (d : DieId) (f : Bank → Bank) : State := s.modDie d fun D => { D with active := f D.active }
/-- The partition of a die (R9, R363). -/
def State.partOf (s : State) (d : DieId) : PartId := s.layout.get d
def State.part (s : State) (p : PartId) : Part := s.parts.get p
def State.modPart (s : State) (p : PartId) (f : Part → Part) : State := { s with parts := vset s.parts p (f (s.parts.get p)) }

/-- The numbers of all compute dies. -/
def allDies : List DieId := [0, 1, 2, 3, 4, 5, 6, 7]
/-- The dies of a partition, lowest first (R9). -/
def State.diesOf (s : State) (p : PartId) : List DieId := allDies.filter fun d => s.partOf d == p
/-- The dies of the partition of `d`. -/
def State.partDies (s : State) (d : DieId) : List DieId := s.diesOf (s.partOf d)
/-- The lowest die of the partition of `d`. -/
def State.firstDie (s : State) (d : DieId) : DieId := (s.partDies d).headD d

/-- A group of a die; group 0 is the supervisor wave (R314). -/
def Die.group (D : Die) (gid : Nat) : Option Group :=
  if gid = 0 then some D.sv else D.active.groups.find? (·.gid == gid)
/-- Changes the first element that satisfies `p`. -/
def modFirst {α : Type} (p : α → Bool) (f : α → α) : List α → List α
  | [] => []
  | x :: l => if p x then f x :: l else x :: modFirst p f l
def Die.modGroup (D : Die) (gid : Nat) (f : Group → Group) : Die :=
  if gid = 0 then { D with sv := f D.sv }
  else { D with active := { D.active with groups := modFirst (·.gid == gid) f D.active.groups } }
def State.group (s : State) (d : DieId) (gid : Nat) : Option Group := (s.die d).group gid
def State.modGroup (s : State) (d : DieId) (gid : Nat) (f : Group → Group) : State := s.modDie d (·.modGroup gid f)

/-- The banks of a die's contexts: active, shadow, and those in save areas (R335, R336). -/
def State.banksOn (s : State) (d : DieId) : List Bank :=
  (s.die d).active :: (s.die d).shadow :: (s.saves.filter fun e => e.away && e.die == d).map (·.bank)

/-- The session handles of a group's context on a die, and their generation counts; the supervisor wave's lie in no bank (R314). -/
def Die.handlesOf (D : Die) (gid : Nat) : List Handle := if gid = 0 then D.svHandles else D.active.handles
def Die.gensOf (D : Die) (gid : Nat) : List (Nat × Nat × Nat) := if gid = 0 then D.svGens else D.active.gens
def State.modHandles (s : State) (d : DieId) (gid : Nat) (f : List Handle → List Handle) : State :=
  s.modDie d fun D => if gid = 0 then { D with svHandles := f D.svHandles } else { D with active := { D.active with handles := f D.active.handles } }
def State.modGens (s : State) (d : DieId) (gid : Nat) (f : List (Nat × Nat × Nat) → List (Nat × Nat × Nat)) : State :=
  s.modDie d fun D => if gid = 0 then { D with svGens := f D.svGens } else { D with active := { D.active with gens := f D.active.gens } }

/-- The context a group of the die runs in: 0 for the supervisor wave (R314). -/
def State.ctxOf (s : State) (d : DieId) (gid : Nat) : Ctx := if gid = 0 then 0 else (s.die d).active.ctx

/-- Replaces the hood whose lowest index is `lo`. -/
def Group.modHood (G : Group) (lo : Nat) (f : Hood → Hood) : Group :=
  { G with hoods := G.hoods.map fun h => if h.lo = lo then f h else h }
def Group.hood (G : Group) (lo : Nat) : Option Hood := G.hoods.find? (·.lo == lo)
def Group.lane (G : Group) (x : Nat) : Option Lane := G.lanes.find? (·.x == x)
/-- Changes the lanes of the indices `xs`. -/
def Group.modLanes (G : Group) (xs : List Nat) (f : Lane → Lane) : Group :=
  { G with lanes := G.lanes.map fun l => if xs.contains l.x then f l else l }

/-- Wave position of an index (R128), and its lane number (R149). -/
def Group.pos (G : Group) (x : Nat) : Nat := (x - G.first) / 32
def Group.laneNo (G : Group) (x : Nat) : Nat := (x - G.first) % 32
def Group.positions (G : Group) : Nat := (G.count + 31) / 32
/-- The allocation of the position of an index (R20, R269). -/
def Group.allocOf (G : Group) (x : Nat) : Nat := G.alloc.getD (G.pos x) 0
/-- The role of a position (R268). -/
def Group.roleOf (G : Group) (p : Nat) : Nat := if G.positions = 0 then 0 else p * G.roles / G.positions

/-- Indices from `lo` to `hi - 1`. -/
def range (lo hi : Nat) : List Nat := span lo (hi - lo)
/-- The live indices of a group: those of its hoods and lanes (R128). -/
def Group.liveIdx (G : Group) : List Nat := (G.hoods.flatMap fun h => range h.lo h.hi) ++ G.lanes.map (·.x)
def Group.liveAt (G : Group) (p : Nat) : List Nat := G.liveIdx.filter fun x => G.pos x == p

/-- The value that a form gives to index `x` (R143). -/
def Form.at (f : Form) (lo x : Nat) : Word := f.base + f.stride * BitVec.ofNat 32 (x - lo)
/-- UNIFORM `v` (R143). -/
def uni (v : Word) : Form := ⟨v, 0⟩
def Form.uniform (f : Form) : Bool := f.stride == 0
/-- In a hood of one index every register is UNIFORM (R143). -/
def Form.norm (f : Form) (lo hi : Nat) : Form := if hi - lo ≤ 1 then uni f.base else f

/-- The logical quad of a physical core (R381), if its quad is enabled. -/
def Die.quad (D : Die) (core : Nat) : Option Nat :=
  if D.retired.contains (core / 4) then none
  else some ((List.range (core / 4)).countP fun q => !D.retired.contains q)
/-- The physical quad of a logical one. -/
def Die.physQuad (D : Die) (q : Nat) : Nat := ((List.range 25).filter fun p => !D.retired.contains p).getD q 0
/-- Enabled physical cores. -/
def Die.cores (D : Die) : List Nat := (List.range 100).filter fun c => !D.retired.contains (c / 4)

/-! ## Free values -/

/-- A free bit of this step, told apart by `n` (log 9). -/
def State.hit (s : State) (n : Nat) : Bool := Config.hit s.seq n

/-- The best element of a list, the first of equal ones. -/
def bestOf {α : Type} (better : α → α → Bool) : List α → Option α
  | [] => none
  | x :: l => match bestOf better l with
    | none => some x
    | some y => if better x y then some x else some y

/-! ## Faults -/

/-- Cause codes (R310). -/
abbrev Cause := Byte
def Cause.ill : Cause := 0x01
def Cause.priv : Cause := 0x02
def Cause.align : Cause := 0x03
def Cause.bounds : Cause := 0x04
def Cause.page : Cause := 0x05
def Cause.prot : Cause := 0x06
def Cause.syncovf : Cause := 0x07
def Cause.never : Cause := 0x08
def Cause.namemiss : Cause := 0x09
def Cause.size : Cause := 0x0A
def Cause.qfull : Cause := 0x0B
def Cause.baruse : Cause := 0x0C
def Cause.part : Cause := 0x0D
def Cause.fmt : Cause := 0x0E
def Cause.ecc : Cause := 0x10
def Cause.link : Cause := 0x11
def Cause.card : Cause := 0x12
def Cause.trapi : Cause := 0x20
def Cause.brk : Cause := 0x21
def Cause.dbghalt : Cause := 0x22
def Cause.tslice : Cause := 0x23
def Cause.step : Cause := 0x24

/-- The bit of sys.tpend for a cause (R320). -/
def tpendBit (c : Cause) : BitVec 5 :=
  if c = Cause.ecc then 0b00010
  else if c = Cause.dbghalt then 0b00100
  else if c = Cause.step then 0b01000
  else if c = Cause.tslice then 0b10000
  else 0b00001

/-- The 64 bytes of a stop record (R83, R219, R316, R317). -/
def StopRec.bytes (r : StopRec) : List Byte :=
  [r.cause, r.inner, r.cls, r.kind, r.inst, r.b5] ++ bytesOf 2 r.ctx.toNat ++ bytesOf 8 r.pc.toNat ++ bytesOf 8 r.faddr.toNat
    ++ bytesOf 8 r.q18.toNat ++ bytesOf 8 r.q20.toNat ++ bytesOf 8 r.q28.toNat ++ bytesOf 8 r.base.toNat
    ++ bytesOf 4 r.group.toNat ++ bytesOf 4 r.map.toNat

/-- Local offsets of the supervisor shared memory (R314). -/
def stopArea : Nat := 0
/-- Slots of the stop area that are written: 250 to 255 are not (R315). -/
def stopSlots : Nat := 250
def trapFrameAt : Nat := 0x4000
def svTrapFrameAt : Nat := 0x4080
def imageAt : Nat := 0x4800
def svSharedSize : Nat := 0x8000

/-- Writes into the supervisor shared memory of a die. -/
def State.svWrite (s : State) (d : DieId) (a : Nat) (bs : List Byte) : State :=
  s.modDie d fun D => { D with sv := { D.sv with shared := D.sv.shared.block a bs } }

/-- The module is up: READY, or READY dropped by a thermal shutdown, after which halts still complete and are delivered (R360). -/
def State.powered (s : State) : Bool := s.ready || s.bringup == 5

/-- The halt line has reached an engine, named by its stop-area slot: the line rises in a partition at once and stops an engine within 16
cycles; a carder or a tile engine with a fault of its own has stopped (R311, R312). -/
def State.stopped (s : State) (d : DieId) (slot : Nat) : Bool :=
  let P := s.part (s.partOf d)
  P.halt && (P.complete || decide (P.rose + min 16 (Config.lineDelay P.rose (d.val * 256 + slot)) < s.clock) ||
    (decide (100 ≤ slot) && P.faults.any fun f => f.die == d && f.slot == slot))

/-- The fault that counts as the first of a halt: the earliest cycle, then lower die, slot and index (R313). -/
def FaultRec.before (a b : FaultRec) : Bool :=
  a.clock < b.clock || (a.clock == b.clock && (a.die.val < b.die.val || (a.die.val == b.die.val &&
    (a.slot < b.slot || (a.slot == b.slot && decide (a.idx < b.idx))))))

def firstOf : Option FaultRec → FaultRec → Option FaultRec
  | none, f => some f
  | some g, f => some (if f.before g then f else g)

/-- Sessions with an open handle on the die, each once. -/
def Bank.sessionIds (B : Bank) : List (Word × Scope × Nat) := (B.handles.map fun h => (h.sid, h.scope, h.inst)).eraseDups
/-- The sync engine's and the fabric's records keep their counts beside a fault (R317). -/
def State.tallied (s : State) (f : FaultRec) : FaultRec :=
  let D := s.die f.die
  if f.slot = 248 then { f with stop := { f.stop with q18 := BitVec.ofNat 64 D.skidReqs, q20 := BitVec.ofNat 64 D.active.sessionIds.length } }
  else if f.slot = 249 then { f with stop := { f.stop with q18 := BitVec.ofNat 64 D.skidDelivs, q20 := BitVec.ofNat 64 D.dropped } }
  else f
/-- The fault that an engine's stop record tells: its first (R316). -/
def Part.faultAt (P : Part) (d : DieId) (slot : Nat) : Option FaultRec :=
  (P.faults.filter fun f => f.die == d && f.slot == slot).foldl firstOf none
/-- The first of the faults that are pending: none once the handler has cleared their bits (R313, R318). -/
def Part.pending (P : Part) : Option FaultRec :=
  (P.faults.filter fun f => tpendBit f.stop.cause &&& P.tpend != 0).foldl firstOf none

/-- Raises the halt line of a partition with an event that no engine records: a debugger halt, a time slice, a step, thermal
shutdown (R311, R320). -/
def State.raiseEvent (s : State) (p : PartId) (c : Cause) : State :=
  s.modPart p fun P =>
    if P.halt then { P with tpend := P.tpend ||| tpendBit c }
    else { P with halt := true, rose := s.clock, complete := false, tpend := P.tpend ||| tpendBit c, faults := [], released := [], frames := [] }

/-- TAKING A FAULT (R310 to R313): the halt line of the partition rises, or, already up, stays; the fault is kept for the stop
record of its engine, the first fault is settled, and its bit in sys.tpend is set. A fault that comes when the halt is complete
is written into the stop area at once. -/
def State.raiseFault (s : State) (f : FaultRec) : State :=
  let p := s.partOf f.die
  let s := s.raiseEvent p f.stop.cause
  let P := s.part p
  let f := if P.complete then s.tallied f else f
  let s := s.modPart p fun P => { P with faults := P.faults ++ [f] }
  if P.complete && decide (f.slot < stopSlots) then s.svWrite f.die (stopArea + 64 * f.slot) ((((s.part p).faultAt f.die f.slot).map (·.stop)).getD f.stop).bytes else s

/-- The trap frame (R318): first fault, event delivered, pending bits, slot, die, clock, form fields. -/
def trapFrame (first : Option FaultRec) (deliv : Byte) (pend : BitVec 5) (clock : Nat) : List Byte :=
  let f := first.getD ⟨0, 0, 0, {}, {}, 0⟩
  (match first with | some f => f.stop.bytes | none => List.replicate 64 0)
    ++ [deliv, pend.setWidth 8, BitVec.ofNat 8 f.slot, BitVec.ofNat 8 f.die.val] ++ bytesOf 4 0
    ++ bytesOf 8 clock ++ bytesOf 4 f.form.fbase.toNat ++ bytesOf 4 f.form.fstride.toNat
    ++ [f.form.ftag, match first with | some f => f.form.freg | none => 0] ++ bytesOf 2 f.form.rest.toNat
    ++ List.replicate 36 0

/-- Sets the control state of every lane of the supervisor wave to `pc` (log 10); what it waits for stays outstanding, as over a halt (R271).
DESIGN CHOICE: the PC is taken as it is, also one that is not 4-byte aligned (R17, log 34). -/
def Group.svJump (G : Group) (pc : DWord) : Group :=
  { G with lanes := G.lanes.map fun l =>
      { l with ctl := { pc := pc, windows := (l.ctl.windows.filter (·.tok.isSome)).map fun w => { w with left := 0 } } } }
/-- The PC of the supervisor wave's next unissued word: of its lowest lane, the first word of a chain in progress (R27, R324); a queue word
whose reply has not come has issued (R289). -/
def Group.svPc (G : Group) : DWord :=
  match G.lanes with
  | [] => 0
  | l :: _ => if l.ctl.wait == .reply then l.ctl.pc + 4 else if l.ctl.chain.isEmpty then l.ctl.pc else l.ctl.chainPc

/-- Saves the supervisor wave's PC in sys.svepc and enters its handler at `off` from sys.trapvec (R314, R324, R329). -/
def Die.enterHandler (D : Die) (off : Word) : Die :=
  let pc := D.sv.svPc
  { D with svepc := pc.lo, sv := D.sv.svJump (pair (D.trapvec + off) pc.hi) }

/-- TAKING A FAULT OF THE SUPERVISOR WAVE (R329): it halts no partition; the supervisor trap frame is written, sys.svepc saves
the PC, and the wave goes on 64 bytes past the handler. -/
def State.raiseSv (s : State) (d : DieId) (f : FaultRec) : State :=
  let s := s.svWrite d svTrapFrameAt
    (trapFrame (some { f with stop := { f.stop with cls := 5 } }) f.stop.cause (s.part (s.partOf d)).tpend s.clock)
  s.modDie d fun D => { D.enterHandler 64 with svOwn := true }
/-- The supervisor wave is through with its own fault: it stands again at the PC that the fault saved, or has nothing to do (log 42). -/
def Die.ownOver (D : Die) : Bool :=
  !D.svOwn || (match D.sv.lanes with
    | [] => true
    | l :: _ => l.ctl.wait.waits || l.ctl.yielded != 0 || D.sv.svPc.lo == D.svepc)

/-- Delivery order of R320: ECC, DBGHALT, FAULT, STEP, TSLICE. -/
def deliverCause (P : Part) : Option Cause :=
  if P.tpend.getLsbD 1 then some Cause.ecc
  else if P.tpend.getLsbD 2 then some Cause.dbghalt
  else if P.tpend.getLsbD 0 then some ((P.pending.map (·.stop.cause)).getD Cause.ill)
  else if P.tpend.getLsbD 3 then some Cause.step
  else if P.tpend.getLsbD 4 then some Cause.tslice
  else none

/-- The next delivery of a die in a halt: the one that the partition's dies have already taken, so that each writes the same frame, or the
highest pending event (R318, R320). -/
def State.nextFrame (s : State) (d : DieId) : Option (Cause × List Byte) :=
  let P := s.part (s.partOf d)
  match P.frames[(s.die d).taken]? with
  | some f => some f
  | none => (deliverCause P).map fun c => (c, trapFrame P.pending c P.tpend P.rose)
/-- DELIVERING AN EVENT to the supervisor wave of one die (R314, R318, R320, R324). -/
def State.deliver (s : State) (d : DieId) : State :=
  match s.nextFrame d with
  | none => s
  | some f =>
    let n := (s.die d).taken
    let s := s.modPart (s.partOf d) fun P => { P with frames := if n < P.frames.length then P.frames else P.frames ++ [f] }
    let s := s.svWrite d trapFrameAt f.2
    s.modDie d fun D => { D.enterHandler 0 with handler := true, svOwn := false, taken := n + 1 }

/-- TRAPRET with an event pending (R320, R328): it is delivered again at once; sys.svepc keeps the PC that the first delivery saved (log 17). -/
def State.deliverAgain (s : State) (d : DieId) : State :=
  let pc := (s.die d).svepc
  (s.deliver d).modDie d fun D => { D with svepc := pc }

/-- Counts what the sync engine or the fabric of a die completes for its context while a halt is not complete (R317). -/
def State.inSkid (s : State) (d : DieId) (f : Die → Die) : State :=
  let P := s.part (s.partOf d)
  if P.halt && !P.complete then s.modDie d f else s

/-! ## Threads -/

/-- The thread or threads that issue one word together. -/
structure Who where
  d     : DieId
  gid   : Nat
  core  : Nat
  /-- a hood, by its lowest index; otherwise lanes -/
  hood  : Option Nat
  /-- the indices that issue -/
  all   : List Nat
  /-- the participants (R258): those that no predicate excludes -/
  xs    : List Nat
  pc    : DWord
  chainPc : DWord
  hints : List Hint
  prog  : Nat
  /-- uniform operands that a waiting word captured (R133) -/
  cap   : List (Nat × Word) := []
  /-- lanes that came by different hint chains: each index's chain and its first word; empty where `hints` holds for all -/
  mixed : List (Nat × List Hint × DWord) := []
  deriving DecidableEq, Repr

/-- The hint chain of an index that issues, and the PC of its first word. -/
def Who.hintsAt (w : Who) (x : Nat) : List Hint :=
  match w.mixed.find? (·.1 == x) with
  | some m => m.2.1
  | none => w.hints
def Who.chainPcAt (w : Who) (x : Nat) : DWord :=
  match w.mixed.find? (·.1 == x) with
  | some m => m.2.2
  | none => w.chainPc

/-- Changes the control state of the threads of the indices `xs`. -/
def Group.modCtl (G : Group) (hood : Option Nat) (xs : List Nat) (f : Nat → Ctl → Ctl) : Group :=
  match hood with
  | some lo => G.modHood lo fun h => { h with ctl := f h.lo h.ctl }
  | none => G.modLanes xs fun l => { l with ctl := f l.x l.ctl }
def State.modCtl (s : State) (w : Who) (f : Nat → Ctl → Ctl) : State :=
  s.modGroup w.d w.gid fun G => G.modCtl w.hood w.all f

/-- The group as the core cycle began (R160, R183), or as it is when none is under way. -/
def State.snapGroup (s : State) (d : DieId) (gid : Nat) : Option Group :=
  match s.snap.find? (·.gid == gid) with
  | some G => some G
  | none => s.group d gid

/-- A uniform register as a word of this cycle reads it (R160); a word that has waited keeps its operands (R133). -/
def State.k (s : State) (w : Who) (n : Nat) : Word :=
  match w.cap.find? (·.1 == n) with
  | some q => q.2
  | none => match s.snapGroup w.d w.gid with
    | some G => vget G.k n 0
    | none => 0
/-- Writes a uniform register: of several words of one cycle the first in the order of R160 leaves its value. -/
def State.setK (s : State) (w : Who) (n : Nat) (v : Word) : State :=
  if s.kwr.contains (w.gid, n) then s
  else { s.modGroup w.d w.gid (fun G => { G with k := vput G.k n v }) with
          kwr := if s.snap.isEmpty then s.kwr else (w.gid, n) :: s.kwr }
/-- A uniform register pair, low word first (R44). -/
def State.kpair (s : State) (w : Who) (n : Nat) : DWord := pair (s.k w n) (s.k w (n + 1))

/-- The value of general register `r` at index `x` (R143). -/
def Group.g (G : Group) (hood : Option Nat) (x r : Nat) : Word :=
  match hood with
  | some lo => match G.hood lo with
    | some h => (vget h.g r {}).at lo x
    | none => 0
  | none => match G.lane x with
    | some l => vget l.g r 0
    | none => 0
def State.g (s : State) (w : Who) (x r : Nat) : Word :=
  match s.group w.d w.gid with
  | some G => G.g w.hood x r
  | none => 0
def State.gpair (s : State) (w : Who) (x r : Nat) : DWord := pair (s.g w x r) (s.g w x (r + 1))
/-- The form of a register of a hood. -/
def State.form (s : State) (w : Who) (r : Nat) : Form :=
  match w.hood with
  | some lo => match s.group w.d w.gid with
    | some G => match G.hood lo with
      | some h => vget h.g r {}
      | none => {}
    | none => {}
  | none => {}
/-- Writes a form into a hood's register, normalised (R143). -/
def State.setForm (s : State) (w : Who) (r : Nat) (f : Form) : State :=
  match w.hood with
  | some lo => s.modGroup w.d w.gid fun G => G.modHood lo fun h => { h with g := vput h.g r (f.norm h.lo h.hi) }
  | none => s
/-- Writes a register of the lanes `xs`. -/
def State.setLanes (s : State) (w : Who) (xs : List Nat) (r : Nat) (v : Nat → Word) : State :=
  s.modGroup w.d w.gid fun G => G.modLanes xs fun l => { l with g := vput l.g r (v l.x) }
/-- Writes one value for every participant: UNIFORM in a hood, the same in every lane of a wave. -/
def State.setUni (s : State) (w : Who) (r : Nat) (v : Word) : State :=
  match w.hood with
  | some _ => s.setForm w r (uni v)
  | none => s.setLanes w w.xs r fun _ => v

/-- The logical waves that issue: the participants of each wave position, lowest first; a hood is one thread (R160). -/
def waves (G : Group) (w : Who) : List (List Nat) :=
  match w.hood with
  | some _ => if w.xs.isEmpty then [] else [w.xs]
  | none => ((List.range G.positions).map fun p => w.xs.filter fun x => G.pos x == p).filter (!·.isEmpty)

/-- A precise fault of a word: cause, address, the indices that fault, the register that gave the address. -/
structure Trap where
  cause : Cause
  faddr : DWord := 0
  xs    : List Nat
  freg  : Option Nat := none
  /-- the PC reported, if it is not the word's -/
  pc    : Option DWord := none
  deriving DecidableEq, Repr

/-- MAP of R319 for lanes: the faulting lanes of the logical wave of the lowest faulting index. -/
def laneMap (G : Group) (xs : List Nat) (base : Nat) : Word :=
  xs.foldl (fun m x => if G.pos x == G.pos base then m ||| ((1 : Word) <<< G.laneNo x) else m) 0

/-- Threads resident on a core: hoods, and wave positions with lanes (R316). -/
def State.threadsOn (s : State) (d : DieId) (core : Nat) : Nat :=
  ((s.die d).active.groups.filter (·.core == core)).foldl
    (fun n G => n + G.hoods.length + ((List.range G.positions).countP fun p => G.lanes.any fun l => G.pos l.x == p)) 0

/-- The fault record of a precise fault (R316, R319): the core's slot, the thread, its indices and the form of the register. -/
def State.faultRec (s : State) (w : Who) (t : Trap) : FaultRec :=
  let G := (s.group w.d w.gid).getD { gid := w.gid }
  let lowest := t.xs.headD (w.all.headD 0)
  let pc := t.pc.getD w.pc
  let base := if w.hood.isSome then lowest else G.first + 32 * G.pos lowest
  let nthr := if w.gid = 0 then 1 else s.threadsOn w.d G.core
  let fi : FormInfo := match w.hood, t.freg with
    | some lo, some r =>
      let f := s.form w r
      { fbase := f.at lo lowest, fstride := f.stride, ftag := if f.uniform then 0 else 1, freg := BitVec.ofNat 8 r,
        rest := BitVec.ofNat 16 ((w.all.getLastD lowest) + 1 - lowest) }
    | some _, none => { rest := BitVec.ofNat 16 ((w.all.getLastD lowest) + 1 - lowest) }
    | none, some r => { fbase := s.g w base r, ftag := 2, freg := BitVec.ofNat 8 r }
    | none, none => { ftag := 2 }
  { die := w.d, slot := w.core, clock := s.clock, form := fi, idx := lowest,
    stop :=
      { cause := t.cause, cls := 3, kind := if w.hood.isSome then 0 else 1, inst := BitVec.ofNat 8 w.core,
        b5 := BitVec.ofNat 8 nthr, ctx := s.ctxOf w.d w.gid, pc := pc, faddr := t.faddr, q18 := BitVec.ofNat 64 w.prog,
        q20 := pair fi.fbase fi.fstride,
        q28 := (fi.ftag.setWidth 64) ||| (fi.freg.setWidth 64 <<< 8) ||| (fi.rest.setWidth 64 <<< 16),
        base := BitVec.ofNat 64 base, group := G.number,
        map := if w.hood.isSome then 1 else laneMap G t.xs lowest } }

/-- Raises a precise fault of a thread: of the supervisor wave under R329, of any other under R311. The thread stands where it
stood, recorded at its word or at the first word of its chain, and issues no more until the halt is over. -/
def State.trap (s : State) (w : Who) (t : Trap) : State :=
  if w.gid = 0 then s.raiseSv w.d (s.faultRec w t)
  else (s.modCtl w fun _ c => { c with wait := .fault }).raiseFault (s.faultRec w t)

end Sys2Proof.Machine
end

