-- ==== Sys2Proof/Machine/Operands.lean ====
section
/-! DEFINITION. Operand forms: translation of virtual addresses (R41 to R52), local addresses, slot addresses, buffer records and
their checks (R113 to R125), carder addresses (R61), and the caches. -/
namespace Sys2Proof.Machine

/-! ## Translation -/

/-- Permissions of a range entry or a leaf: R W X U, and not copy-on-write. -/
structure Perm where
  r : Bool
  w : Bool
  x : Bool
  u : Bool
  deriving DecidableEq, Repr

/-- Kinds of access for R49; `loader` asks nothing (R342). -/
inductive Access where
  | read | write | both | fetch | loader
  deriving DecidableEq, Repr

/-- A result, or the cause of a fault and the faulting address. -/
inductive Acc (α : Type) where
  | ok (a : α)
  | fault (c : Cause) (va : DWord)
  deriving DecidableEq, Repr

def Acc.bind {α β : Type} : Acc α → (α → Acc β) → Acc β
  | .ok a, f => f a
  | .fault c va, _ => .fault c va

/-- Range table and root table of a context on a die (R45); the supervisor wave has its own (R324). -/
def State.tables (s : State) (d : DieId) (sup : Bool) : DWord × DWord :=
  let D := s.die d
  if sup then (D.svRtab, D.svPtroot) else (D.active.rtab, D.active.ptroot)

/-- Bits [56:12] of an address field. -/
def vpn (v : Nat) : Nat := (v >>> 12) % 2 ^ 45

/-- Whether a device address exists (R41, R42). -/
def State.poolOk (s : State) (da : Nat) : Bool :=
  let pool := da >>> 42
  let frame := (da >>> 21) % 2 ^ 21
  (pool == 0 && decide (frame < s.hbmFrames)) || (pool == 1 && decide (frame < s.cxlFrames))
/-- The pool of a device address: 1 is the CXL tier. -/
def poolOf (da : Nat) : Nat := da >>> 42
def frameOf (da : Nat) : Nat := (da >>> 21) % 2 ^ 21

/-- A device address lies in a line with an uncorrectable error that has not been rewritten (R310). -/
def State.badAt (s : State) (da : Nat) : Bool := s.badLines.contains (da / 64)
/-- What keeps the walker from reading a table at a device address: it does not exist, or its line is in error (R42, R310). -/
def State.tableBad (s : State) (da : Nat) : Option Cause :=
  if !s.poolOk da then some Cause.prot else if s.badAt da then some Cause.ecc else none

/-- What range entries say of an address: the first valid entry that matches decides (R46, R47). -/
def rangeLookup (bad : Nat → Option Cause) (m : Mem) (tab : Nat) (va : Nat) : (fuel i : Nat) → Option (Acc (Nat × Perm))
  | 0, _ => none
  | fuel + 1, i =>
    let a := tab + 32 * i
    match bad a with
    | some c => some (.fault c (BitVec.ofNat 64 va))
    | none =>
    let lo := m.get a 8
    let hi := m.get (a + 8) 8
    let off := m.get (a + 16) 8
    let fl := m.get (a + 24) 8
    let base := vpn lo
    let limit := vpn hi
    let p := vpn va
    if fl % 2 = 1 ∧ base ≤ p ∧ (p < limit ∨ limit ≤ base) then
      let reserved := lo % 2 ^ 12 ≠ 0 ∨ lo >>> 57 ≠ 0 ∨ hi % 2 ^ 12 ≠ 0 ∨ hi >>> 57 ≠ 0 ∨ off % 2 ^ 12 ≠ 0 ∨ fl >>> 5 ≠ 0
      let pm : Perm := ⟨fl.testBit 1, fl.testBit 2, fl.testBit 3, fl.testBit 4⟩
      if reserved ∨ limit ≤ base ∨ (pm.w ∧ pm.x) then some (.fault Cause.prot (BitVec.ofNat 64 va))
      else some (.ok ((va + off) % 2 ^ 64, pm))
    else rangeLookup bad m tab va fuel (i + 1)

/-- The level-1 entry that the walk uses: its own, or of the 16 entries of a 64 KiB page that differ any one, here number `n` (R48).
DESIGN CHOICE: an indexed entry with V = 0 or S = 0 is used as it stands, whatever its 15 neighbours hold (log 9). -/
def pageEntry (m : Mem) (n table idx : Nat) : Nat :=
  let e := m.get (table + 8 * idx) 8
  let group := (List.range 16).map fun i => m.get (table + 8 * (idx / 16 * 16 + i)) 8
  if e % 2 = 1 ∧ e.testBit 6 ∧ group.any (· != e) then group.getD (n % 16) e else e

/-- One level of the walk (R48): level 4 is the root. Answers the device address and the leaf's permissions. -/
def walk (bad : Nat → Option Cause) (m : Mem) (n va : Nat) : (level : Nat) → (table : Nat) → Acc (Nat × Perm)
  | 0, _ => .fault Cause.page (BitVec.ofNat 64 va)
  | l + 1, table =>
    let shift := 12 + 9 * l
    let idx := if l = 3 then (va >>> 39) % 2 ^ 18 else (va >>> shift) % 512
    match bad (table + 8 * idx) with
    | some c => .fault c (BitVec.ofNat 64 va)
    | none =>
    let e := if l = 0 then pageEntry m n table idx else m.get (table + 8 * idx) 8
    let addr := ((e >>> 12) % 2 ^ 32) * 4096
    let leaf := e.testBit 5
    if e % 2 = 0 then .fault Cause.page (BitVec.ofNat 64 va)
    else if e >>> 44 ≠ 0 ∨ (e >>> 8) % 16 ≠ 0 ∨ (leaf ∧ l = 3) ∨ (!leaf ∧ l = 0) ∨ (e.testBit 6 ∧ l ≠ 0) then
      .fault Cause.prot (BitVec.ofNat 64 va)
    else if leaf then
      let size := if l = 0 then (if e.testBit 6 then 2 ^ 16 else 2 ^ 12) else 2 ^ shift
      if addr % size ≠ 0 ∨ (e.testBit 2 ∧ e.testBit 3) then .fault Cause.prot (BitVec.ofNat 64 va)
      else .ok (addr + va % size, ⟨e.testBit 1, e.testBit 2 && !e.testBit 7, e.testBit 3, e.testBit 4⟩)
    else walk bad m n va l addr

/-- The home die of a frame of the HBM4E pool (R53). -/
def State.homeOf (s : State) (da : Nat) : DieId :=
  let f := frameOf da
  match s.home.find? (·.1 == f) with
  | some (_, d) => d
  | none => ⟨f % 8, Nat.mod_lt _ (by decide)⟩
/-- The frame is on the move: accesses stall (R54). -/
def State.stalled (s : State) (da : Nat) : Bool := poolOf da == 0 && s.moving.any (·.frame == frameOf da)

/-- The permission check of R49. -/
def permOk (p : Perm) (k : Access) (sup : Bool) : Bool :=
  (sup || p.u) && (match k with
    | .read => p.r
    | .write => p.w
    | .both => p.r && p.w
    | .fetch => p.x
    | .loader => true)

def permBits (p : Perm) : BitVec 5 := BitVec.ofBool p.u ++ BitVec.ofBool p.x ++ BitVec.ofBool p.w ++ BitVec.ofBool p.r ++ 1#1
def bitsPerm (b : BitVec 5) : Perm := ⟨b.getLsbD 1, b.getLsbD 2, b.getLsbD 3, b.getLsbD 4⟩

/-- Agents of the translation and descriptor caches: cores by number, carders from 100 on, the sync engine 200. -/
def carderAgent (inst : Nat) : Nat := 100 + inst
def syncAgent : Nat := 200

/-- The context in whose name an agent translates. -/
def State.ctxFor (s : State) (d : DieId) (sup : Bool) : Ctx := if sup then 0 else (s.die d).active.ctx
/-- The cached translation that an agent uses for a page in this step, if it uses one: which it uses is free (R51, log 9). -/
def State.cached (s : State) (d : DieId) (agent : Nat) (sup : Bool) (page : Nat) : Option TlbEntry :=
  (s.die d).tlb.find? fun e =>
    e.agent == agent && e.ctx == s.ctxFor d sup && e.level == 0 && decide (e.page ≤ page ∧ page < e.page + e.pages) && s.hit (page + e.pages)
/-- The level and the table from which a walk begins: a cached page-table entry may spare it the levels above. -/
def State.walkFrom (s : State) (d : DieId) (agent : Nat) (sup : Bool) (va : Nat) : Nat × Nat :=
  match (s.die d).tlb.find? fun e =>
      e.agent == agent && e.ctx == s.ctxFor d sup && e.level != 0 && e.page == va >>> (12 + 9 * e.level) && s.hit (e.da + e.level) with
  | some e => (e.level, e.da)
  | none => (4, (s.tables d sup).2.toNat)

/-- Translation from the tables (R44, R46). -/
def State.walkVa (s : State) (d : DieId) (agent : Nat) (sup : Bool) (va : DWord) : Acc (Nat × Perm) :=
  if va.toNat >>> 57 ≠ 0 then .fault Cause.page va
  else match rangeLookup s.tableBad s.mem (s.tables d sup).1.toNat va.toNat 64 0 with
    | some r => r
    | none => let (l, t) := s.walkFrom d agent sup va.toNat; walk s.tableBad s.mem (Config.pageEntry s.seq) va.toNat l t

/-- Translation as an agent performs it (R46, R51): by its cache, or by the tables. -/
def State.translate (s : State) (d : DieId) (agent : Nat) (sup : Bool) (va : DWord) (k : Access) : Acc Nat :=
  let page := va.toNat >>> 12
  let raw : Acc (Nat × Perm) :=
    match s.cached d agent sup page with
    | some e => .ok (((e.da + (page - e.page)) * 4096 + va.toNat % 4096) % 2 ^ 64, bitsPerm e.perm)
    | none => s.walkVa d agent sup va
  raw.bind fun (da, p) =>
    if da ≥ 2 ^ 44 then .fault Cause.prot va
    else if !s.poolOk da then .fault Cause.prot va
    else if !permOk p k sup then .fault Cause.prot va
    else .ok da

/-- Whether some range entry matches an address, and the run of pages around it of which that same entry, or none of the table's, is the first match
(R46); an entry that matches and is malformed gives no translation. -/
def rangePages (m : Mem) (tab : Nat) (va : Nat) : (fuel i lo hi : Nat) → Bool × Nat × Nat
  | 0, _, lo, hi => (false, lo, hi)
  | fuel + 1, i, lo, hi =>
    let a := tab + 32 * i
    let base := vpn (m.get a 8)
    let limit := vpn (m.get (a + 8) 8)
    if m.get (a + 24) 8 % 2 = 0 then rangePages m tab va fuel (i + 1) lo hi
    else if vpn va < base then rangePages m tab va fuel (i + 1) lo (min hi base)
    else if vpn va < limit then (true, max lo base, min hi limit)
    else rangePages m tab va fuel (i + 1) (max lo limit) hi
/-- The tables that a walk reaches below its first, with their levels, and the pages of its leaf as a power of two. -/
def walkPath (m : Mem) (n va : Nat) : (level : Nat) → (table : Nat) → List (Nat × Nat) × Nat
  | 0, _ => ([], 0)
  | l + 1, table =>
    let idx := if l = 3 then (va >>> 39) % 2 ^ 18 else (va >>> (12 + 9 * l)) % 512
    let e := if l = 0 then pageEntry m n table idx else m.get (table + 8 * idx) 8
    if e % 2 = 0 ∨ e.testBit 5 ∨ l = 0 then ([], if l = 0 then (if e.testBit 6 then 4 else 0) else 9 * l)
    else let (ts, k) := walkPath m n va l ((e >>> 12) % 2 ^ 32 * 4096); ((l, (e >>> 12) % 2 ^ 32 * 4096) :: ts, k)

/-- Fills the agent's translation cache with what a walk for `va` has read (R51); an access that a cached translation served leaves it. -/
def State.fillTlb (s : State) (d : DieId) (agent : Nat) (sup : Bool) (va : DWord) : State :=
  let page := va.toNat >>> 12
  match s.cached d agent sup page, s.walkVa d agent sup va with
  | none, .ok (da, p) =>
    let ctx := s.ctxFor d sup
    let entry := fun (level page pages da : Nat) (perm : BitVec 5) => ({ agent, ctx, level, page, pages, da, perm } : TlbEntry)
    -- the pages that the cached entry serves: those whose first match it is (R46, R47)
    let (ranged, lo, hi) := rangePages s.mem (s.tables d sup).1.toNat va.toNat 64 0 0 (2 ^ 45)
    let leaf := fun (lo hi : Nat) => entry 0 lo (hi - lo) ((da / 4096 + 2 ^ 52 - (page - lo)) % 2 ^ 52) (permBits p)
    let new := if ranged then [leaf lo hi]
      else
        let (l, t) := s.walkFrom d agent sup va.toNat
        let (ts, k) := walkPath s.mem (Config.pageEntry s.seq) va.toNat l t
        let first := page / 2 ^ k * 2 ^ k
        leaf (max lo first) (min hi (first + 2 ^ k)) :: ts.map fun (l, t) => entry l (va.toNat >>> (12 + 9 * l)) 0 t 0
    let stands := fun (e : TlbEntry) => !(new.any fun f => f.agent == e.agent && f.ctx == e.ctx && f.level == e.level && f.page == e.page && f.pages == e.pages)
    s.modDie d fun D => { D with tlb := new ++ D.tlb.filter stands }
  | _, _ => s

/-- Translates the bytes `va` to `va + n - 1`, page by page, in ascending order: their device addresses (R49, R50). -/
def State.translateN (s : State) (d : DieId) (agent : Nat) (sup : Bool) (k : Access) : (n : Nat) → (va : DWord) → Acc (List Nat)
  | 0, _ => .ok []
  | n + 1, va => (s.translate d agent sup va k).bind fun da => (s.translateN d agent sup k n (va + 1)).bind fun l => .ok (da :: l)

/-- The pages that `n` bytes at `va` touch: first address in each. -/
def pagesOf (va n : Nat) : List Nat := if n = 0 then [] else
  (List.range ((va + n - 1) / 4096 + 1 - va / 4096)).map fun i => if i = 0 then va else (va / 4096 + i) * 4096

/-- The device addresses at which a walk reads the range table and the page tables. -/
def rangeReads (m : Mem) (tab : Nat) (va : Nat) : (fuel i : Nat) → List Nat
  | 0, _ => []
  | fuel + 1, i =>
    let a := tab + 32 * i
    let base := vpn (m.get a 8)
    let limit := vpn (m.get (a + 8) 8)
    if m.get (a + 24) 8 % 2 = 1 ∧ base ≤ vpn va ∧ (vpn va < limit ∨ limit ≤ base) then [a] else a :: rangeReads m tab va fuel (i + 1)
def walkReads (m : Mem) (n va level table : Nat) : List Nat :=
  ((level, table) :: (walkPath m n va level table).1).map fun (l, t) =>
    t + 8 * (if l = 4 then (va >>> 39) % 2 ^ 18 else (va >>> (3 + 9 * l)) % 512)
/-- The device addresses at which an agent's walk for `va` reads tables: none where a cached translation serves it. -/
def State.tableReads (s : State) (d : DieId) (agent : Nat) (sup : Bool) (va : DWord) : List Nat :=
  if (s.cached d agent sup (va.toNat / 4096)).isSome then []
  else rangeReads s.mem (s.tables d sup).1.toNat va.toNat 64 0 ++
    (let (l, t) := s.walkFrom d agent sup va.toNat; walkReads s.mem (Config.pageEntry s.seq) va.toNat l t)
/-- A walk for `va` meets a frame on the move. -/
def State.walkStalled (s : State) (d : DieId) (agent : Nat) (sup : Bool) (va : DWord) : Bool :=
  !s.moving.isEmpty && (s.tableReads d agent sup va).any s.stalled
/-- An agent's access to `n` bytes at `va` meets a frame on the move, in the bytes or in the tables that translate them: it stalls (R54). -/
def State.vaStalled (s : State) (d : DieId) (agent : Nat) (sup : Bool) (va : DWord) (n : Nat) : Bool :=
  !s.moving.isEmpty && (pagesOf va.toNat n).any fun p =>
    s.walkStalled d agent sup (BitVec.ofNat 64 p) || (match s.translate d agent sup (BitVec.ofNat 64 p) .loader with
      | .ok da => s.stalled da
      | .fault _ _ => false)

/-- Fills the agent's translation cache with every page of `n` bytes at `va` (R50, R51). -/
def State.fillVa (s : State) (d : DieId) (agent : Nat) (sup : Bool) (va : DWord) (n : Nat) : State :=
  (pagesOf va.toNat n).foldl (fun s p => s.fillTlb d agent sup (BitVec.ofNat 64 p)) s

/-- The device address of a 64-byte line. -/
def lineDa (da : Nat) : DWord := BitVec.ofNat 64 (da / 64 * 64)
/-- The line in error that an agent meets as it reads `n` bytes at `va`, in the tables first. -/
def State.badLine (s : State) (d : DieId) (agent : Nat) (sup : Bool) (va : DWord) (n : Nat) : DWord :=
  let tables := (pagesOf va.toNat n).flatMap fun p => s.tableReads d agent sup (BitVec.ofNat 64 p)
  let bytes := match s.translateN d agent sup .read n va with | .ok das => das | .fault _ _ => []
  (((tables ++ bytes).find? s.badAt).map lineDa).getD 0
/-- A write ends the error of the lines it writes (R310, log 14). -/
def State.rewrite (s : State) (das : List Nat) : State :=
  if s.badLines.isEmpty then s else { s with badLines := s.badLines.filter fun l => !das.any (· / 64 == l) }

/-- Reads `n` bytes of main memory by virtual address, for an agent of a context. -/
def State.readVa (s : State) (d : DieId) (agent : Nat) (sup : Bool) (va : DWord) (n : Nat) : Acc (List Byte) :=
  (s.translateN d agent sup .read n va).bind fun das =>
    if das.any s.badAt then .fault Cause.ecc va else .ok (das.map s.mem.read)

/-- Writes bytes to main memory by virtual address. -/
def State.writeVa (s : State) (d : DieId) (agent : Nat) (sup : Bool) (va : DWord) (bs : List Byte) : Acc State :=
  (s.translateN d agent sup .write bs.length va).bind fun das =>
    .ok ({ s with mem := (das.zip bs).foldl (fun m (a, b) => m.write a b) s.mem }.rewrite das)

/-- A store to device addresses. -/
def State.writeDa (s : State) (da : Nat) (bs : List Byte) : State :=
  { s with mem := s.mem.writeN da bs }.rewrite (span da bs.length)

/-! ## Local memory -/

/-- The three spaces (R113). -/
abbrev spShared : Nat := 0
abbrev spScratch : Nat := 1
abbrev spSpill : Nat := 2

/-- The scratchpad range of the context of a group: bytes from, bytes to (R114, R115). The supervisor's context has none. A die's
scratchpad ends at 64 MiB (R113): a LIMIT of 65 to 127, which R115 does not allow and no rule refuses, gives no byte beyond it (DESIGN CHOICE, log 46). -/
def State.scratchRange (s : State) (d : DieId) (gid : Nat) : Nat × Nat :=
  if gid = 0 then (0, 0)
  else
    let v := (s.die d).active.sprange
    (field v 6 0 * 2 ^ 20, min 64 (field v 14 8) * 2 ^ 20)

/-- The limits of R114 for `n` bytes at local address `a`. -/
def State.inSpace (s : State) (d : DieId) (gid : Nat) (space a n : Nat) : Bool :=
  if space = spShared then (match s.group d gid with | some G => decide (a + n ≤ G.size) | none => false)
  else if space = spScratch then let (lo, hi) := s.scratchRange d gid; decide (lo ≤ a ∧ a + n ≤ hi)
  else if space = spSpill then decide (a + n ≤ 32)
  else false

/-- The bytes of a spill view of index `x` start here in the group's spill memory (R116). -/
def Group.spillBase (G : Group) (x : Nat) : Nat := (x - G.first) * 32

/-- Reads local bytes: space, index (for the spill view), address. -/
def State.readLocal (s : State) (d : DieId) (gid x space a n : Nat) : List Byte :=
  if space = spScratch then (s.die d).scratch.readN a n
  else match s.group d gid with
    | none => List.replicate n 0
    | some G => if space = spShared then G.shared.readN a n else G.spill.readN (G.spillBase x + a) n

/-- A word of a spill view loses its recorded tag when it is written (R123). -/
def dropTags (ts : List SpillTag) (a n : Nat) : List SpillTag := ts.filter fun t => t.off + 4 ≤ a || a + n ≤ t.off

/-- The lines that bytes of local memory lie in, as errors in them are kept: shared and spill memory by group. -/
def State.localLines (s : State) (d : DieId) (gid x space a n : Nat) : List (Nat × Nat × Nat) :=
  let at_ := if space = spSpill then (match s.group d gid with | some G => G.spillBase x + a | none => a) else a
  if n = 0 then [] else (range (at_ / 16) ((at_ + n - 1) / 16 + 1)).map fun l => (space, if space = spScratch then 0 else gid, l)
/-- Some byte lies in a line in error (R117, R310). -/
def State.badLocalAt (s : State) (d : DieId) (gid x space a n : Nat) : Bool :=
  !(s.die d).badLocal.isEmpty && (s.localLines d gid x space a n).any (s.die d).badLocal.contains
/-- A write ends the error of the lines it writes (R310, log 14). -/
def State.rewriteLocal (s : State) (d : DieId) (gid x space a n : Nat) : State :=
  if (s.die d).badLocal.isEmpty then s
  else let ls := s.localLines d gid x space a n; s.modDie d fun D => { D with badLocal := D.badLocal.filter (!ls.contains ·) }

/-- Writes local bytes. -/
def State.writeLocal (s : State) (d : DieId) (gid x space a : Nat) (bs : List Byte) : State :=
  let s := s.rewriteLocal d gid x space a bs.length
  if space = spScratch then s.modDie d fun D => { D with scratch := D.scratch.writeN a bs }
  else s.modGroup d gid fun G =>
    if space = spShared then { G with shared := G.shared.writeN a bs }
    else { G with spill := G.spill.writeN (G.spillBase x + a) bs, tags := dropTags G.tags (G.spillBase x + a) bs.length }

/-- Live lines of a space: line numbers (R127). -/
def State.liveLines (s : State) (d : DieId) (gid space : Nat) : List Nat :=
  if space = spScratch then (s.die d).scratchLive
  else if space = spShared then (match s.group d gid with | some G => G.live | none => [])
  else []
/-- Whether `n` bytes at `a` touch a live line. -/
def State.touchesLive (s : State) (d : DieId) (gid space a n : Nat) : Bool :=
  (s.liveLines d gid space).any fun l => decide (n ≠ 0 ∧ 16 * l < a + n ∧ a < 16 * l + 16)
def insertNat (x : Nat) : List Nat → List Nat
  | [] => [x]
  | y :: l => if x < y then x :: y :: l else if x = y then y :: l else y :: insertNat x l
/-- Marks lines live, or no longer live. -/
def State.setLive (s : State) (d : DieId) (gid space : Nat) (ls : List Nat) (on : Bool) : State :=
  let f := fun (l : List Nat) => if on then ls.foldl (fun l x => insertNat x l) l else l.filter (!ls.contains ·)
  if space = spScratch then s.modDie d fun D => { D with scratchLive := f D.scratchLive }
  else s.modGroup d gid fun G => { G with live := f G.live }

/-! ## Buffer records -/

/-- A buffer record (R118). -/
structure BufRec where
  bound : Word
  space : Nat
  mode : Nat
  fmt : Nat
  stride1 : Nat
  stride0 : Nat
  extent : Nat
  base : Nat
  /-- a reserved bit is set, SPACE is 3 or MODE is 4 or above -/
  bad : Bool
  deriving DecidableEq, Repr

def BufRec.of (v : BitVec 256) : BufRec where
  bound := v.extractLsb' 160 32
  space := field v 157 156
  mode := field v 155 152
  fmt := field v 151 144
  stride1 := field v 143 112
  stride0 := field v 111 80
  extent := field v 79 48
  base := field v 47 0
  bad := field v 255 192 != 0 || field v 157 156 == 3 || decide (field v 155 152 ≥ 4)

/-- The record of buffer slot `n` (R140). -/
def State.bufBits (s : State) (w : Who) (n : Buf) : BitVec 256 :=
  let k := fun i => s.k w (8 * n.toNat + i)
  k 7 ++ k 6 ++ k 5 ++ k 4 ++ k 3 ++ k 2 ++ k 1 ++ k 0
def State.buf (s : State) (w : Who) (n : Buf) : BufRec := BufRec.of (s.bufBits w n)

/-- Where an access lands: a local address, nowhere (dropped, or answered with zero bytes), or a fault. -/
inductive Place where
  | at (a : Nat)
  | nowhere
  | fault (c : Cause)
  deriving DecidableEq, Repr

/-- The effective offset of R119. -/
def effective (B : BufRec) (o n : Nat) (write : Bool) : Place :=
  if o + n ≤ B.extent then .at o
  else match B.mode with
    | 0 => .fault Cause.bounds
    | 1 => if write then .nowhere else if B.extent < n then .fault Cause.bounds else .at ((B.extent - n) / n * n)
    | 2 => .nowhere
    | _ => if B.extent = 0 then .fault Cause.bounds
           else if o % B.extent + n > B.extent then .fault Cause.bounds else .at (o % B.extent)

/-- The checks of R119 for `n` bytes of index `x` at offset `o`, in their order; a read of a line in error comes last (R310). -/
def State.place (s : State) (d : DieId) (gid x : Nat) (B : BufRec) (o n : Nat) (write : Bool) : Place :=
  match effective B o n write with
  | .at e =>
    let a := B.base + e
    if !s.inSpace d gid B.space a n then .fault Cause.bounds
    else if a % n ≠ 0 then .fault Cause.align
    else if s.touchesLive d gid B.space a n then .fault Cause.baruse
    else if !write && s.badLocalAt d gid x B.space a n then .fault Cause.ecc
    else .at a
  | p => p

/-- Bytes come to be bound to an object, if there is one, for a group (R120). -/
def State.useBytes (s : State) (d : DieId) (gid : Nat) (obj : Word) (space : Option Nat) (a n : Nat) : State :=
  if obj = 0 then s
  else
    let u : UsedRegion := ⟨obj, space, a, n⟩
    s.modGroup d gid fun G => if G.used.contains u then G else { G with used := u :: G.used }
/-- Records that a group has accessed through a record whose BOUND names an object (R120). -/
def State.useRecord (s : State) (d : DieId) (gid : Nat) (B : BufRec) : State := s.useBytes d gid B.bound (some B.space) B.base B.extent

/-! ## Slot addresses -/

/-- A slot address (R125): space and local address. -/
structure Slot where
  space : Nat
  addr : Nat
  deriving DecidableEq, Repr

/-- Reads a slot address: 0 names no object, reserved bits raise BARUSE, the limits of R114 BOUNDS. -/
def State.slotAddr (s : State) (d : DieId) (gid : Nat) (v : Word) (n : Nat) : Acc Slot :=
  if v = 0 ∨ field v 30 26 ≠ 0 ∨ field v 3 0 ≠ 0 then .fault Cause.baruse 0
  else
    let sl : Slot := ⟨field v 31 31, field v 25 4 * 16⟩
    if s.inSpace d gid sl.space sl.addr n then .ok sl else .fault Cause.bounds (BitVec.ofNat 64 sl.addr)

/-- The slot address of a carder address (R61, R78). -/
def slotWord (space addr : Nat) : Word := BitVec.ofNat 32 (space * 2 ^ 31 + addr)

/-! ## Carder addresses -/

/-- A carder address (R61). -/
inductive CAddr where
  | main (va : DWord)
  | loc (space addr : Nat)
  deriving DecidableEq, Repr

/-- Reads a carder address; a bad local one is none (BOUNDS). -/
def CAddr.of (v : DWord) : Option CAddr :=
  if v.getLsbD 63 then
    if field v 62 50 ≠ 0 ∨ field v 49 48 ≥ 2 then none else some (.loc (field v 49 48) (field v 47 0))
  else some (.main v)

/-- Reads `n` bytes at a carder address for a group's command, run by carder `inst` (R61). -/
def State.cread (s : State) (d : DieId) (inst gid : Nat) (sup : Bool) (v : DWord) (n : Nat) : Acc (List Byte) :=
  match CAddr.of v with
  | none => .fault Cause.bounds v
  | some (.main va) => s.readVa d (carderAgent inst) sup va n
  | some (.loc sp a) =>
    if !s.inSpace d gid sp a n then .fault Cause.bounds v
    else if s.touchesLive d gid sp a n then .fault Cause.baruse v
    else if s.badLocalAt d gid 0 sp a n then .fault Cause.ecc v
    else .ok (s.readLocal d gid 0 sp a n)
/-- Writes bytes at a carder address. -/
def State.cwrite (s : State) (d : DieId) (inst gid : Nat) (sup : Bool) (v : DWord) (bs : List Byte) : Acc State :=
  match CAddr.of v with
  | none => .fault Cause.bounds v
  | some (.main va) => (s.writeVa d (carderAgent inst) sup va bs).bind fun u => .ok (u.fillVa d (carderAgent inst) sup va bs.length)
  | some (.loc sp a) =>
    if !s.inSpace d gid sp a bs.length then .fault Cause.bounds v
    else if s.touchesLive d gid sp a bs.length then .fault Cause.baruse v
    else .ok (s.writeLocal d gid 0 sp a bs)

/-- The carder's translation cache after a read of `n` bytes at a carder address (R51). -/
def State.cfill (s : State) (d : DieId) (inst : Nat) (sup : Bool) (v : DWord) (n : Nat) : State :=
  match CAddr.of v with
  | some (.main va) => s.fillVa d (carderAgent inst) sup va n
  | _ => s

/-- Whether an access at a carder address meets a frame on the move (R54). -/
def State.cstalled (s : State) (d : DieId) (inst : Nat) (sup : Bool) (v : DWord) (n : Nat) : Bool :=
  match CAddr.of v with
  | some (.main va) => s.vaStalled d (carderAgent inst) sup va n
  | _ => false

/-! ## Descriptors -/

/-- A capture through a descriptor cache (R67, R124): the copy held may be used; otherwise `fresh` is read. -/
def State.descRead (s : State) (d : DieId) (agent : Nat) (ctx : Ctx) (space gid addr n : Nat) (fresh : List Byte) : List Byte :=
  match (s.die d).desc.find? fun e => e.agent == agent && e.ctx == ctx && e.space == space && e.gid == gid && e.addr == addr
      && e.bytes.length == n with
  | some e => if s.hit addr then e.bytes else fresh
  | none => fresh

/-- Puts a captured record into the cache: 32 records an agent, the oldest falls out (R124). -/
def State.descFill (s : State) (d : DieId) (agent : Nat) (ctx : Ctx) (space gid addr : Nat) (bytes : List Byte) : State :=
  s.modDie d fun D =>
    let mine := (D.desc.filter fun e => e.agent == agent).filter fun e =>
      !(e.ctx == ctx && e.space == space && e.gid == gid && e.addr == addr && e.bytes.length == bytes.length)
    let rest := D.desc.filter fun e => e.agent != agent
    { D with desc := ({ agent := agent, ctx := ctx, space := space, gid := gid, addr := addr, bytes := bytes } :: mine.take 31) ++ rest }

end Sys2Proof.Machine
end

