-- ==== Sys2Proof/Machine/Thread.lean ====
section
/-! DEFINITION. How a thread performs a word: the checks of R20, R22, R25 and R35, holds, merge points (R151, R152), predication
(R270), splits and expansions (R147 to R149), and what completing a word does to the thread. -/
namespace Sys2Proof.Machine

/-! ## Hints -/

def Hint.kind : Hint → Nat
  | .immhi _ => 0 | .ord .. => 1 | .merge => 2 | .fmtx .. => 3 | .life _ => 4 | .pred _ => 5

/-- The targets that a hint accepts (R26). -/
def Hint.accepts (h : Hint) (i : Instr) : Bool :=
  match h with
  | .immhi _ => match i with
    | .movi .. | .addi .. | .andi .. | .ori .. | .xori .. => true
    | _ => false
  | .ord .. => match i with
    | .ld .. | .st .. | .fill .. | .spill .. | .brld .. | .kld .. | .kst .. | .gld .. | .tld .. | .tst .. | .tdrain .. | .tdrainFmt ..
    | .tcopy .. | .tcopyMc .. | .gath .. | .scat .. | .want .. | .offer .. | .barrive .. | .wait .. | .atom .. | .atomXchg ..
    | .acas .. | .acasX64 .. | .acas128 .. | .ared .. | .sld .. | .sldX64 .. | .sst .. | .sstX64 .. => true
    | _ => false
  | .merge | .pred _ => true
  | .fmtx .. => match i with
    | .tdrain .. | .tdrainFmt .. | .tscale .. => true
    | i => decide (0x20 ≤ opcode (encode i) ∧ opcode (encode i) ≤ 0x28)
  | .life _ => match i with
    | .want .. => true
    | _ => false

def predOf : List Hint → Option Reg
  | [] => none
  | .pred g :: _ => some g
  | _ :: l => predOf l
def immhiOf : List Hint → Option (BitVec 19)
  | [] => none
  | .immhi v :: _ => some v
  | _ :: l => immhiOf l
def lifeOf : List Hint → Option (BitVec 22)
  | [] => none
  | .life v :: _ => some v
  | _ :: l => lifeOf l
/-- Scope and order of an ORD hint; .plain at .lane without one (R247). -/
def ordOf : List Hint → Scope × Order
  | [] => (.lane, .plain)
  | .ord s o _ :: _ => (s, o)
  | _ :: l => ordOf l
/-- Rounding hint: mode, saturate, stochastic, seed. -/
def fmtxOf : List Hint → Option (HintRound × Bool × Bool × BitVec 16)
  | [] => none
  | .fmtx r sat sr seed :: _ => some (r, sat, sr, seed)
  | _ :: l => fmtxOf l

/-! ## The issuing thread -/

/-- A window still waits for its producer's result when its words are used up (R21). -/
def Ctl.windowHeld (c : Ctl) : Bool := c.windows.any fun w => w.left == 0 && w.tok.isSome
/-- Some result of the thread is outstanding (R22). -/
def Ctl.outstanding (c : Ctl) : Bool := c.windows.any (·.tok.isSome)
/-- Ready to issue (R256), but for the holds that only its next word can tell; a sibling of a split that has not completed its word
comes first (R148). -/
def Ctl.ready (c : Ctl) : Bool := (c.wait == .none || c.wait == .held) && !c.windowHeld && (c.owes || c.after.isEmpty)

/-- A thread may issue: it is ready, and single-step mode has not used its step (R322). -/
def mayIssue (P : Part) (c : Ctl) : Bool := c.ready && !(P.step && c.stepped)

/-- The pair slot of a wave position (R292). -/
def Group.pairSlot (G : Group) (p : Nat) : Nat := G.slots.getD p 0 / 2

/-- The lanes of one group in one pair slot that stand ready at one PC (R257, R258). -/
def Group.issuing (G : Group) (slot : Nat) (pc : DWord) : List Lane :=
  G.lanes.filter fun l => G.pairSlot (G.pos l.x) == slot && l.ctl.pc == pc && l.ctl.ready
/-- The lanes that wait at one word with the operands of lane `x`. -/
def Group.waitingWith (G : Group) (x : Nat) : List Lane :=
  match G.lane x with
  | none => []
  | some l => G.lanes.filter fun m =>
      m.ctl.wait.waits && m.ctl.pc == l.ctl.pc && m.ctl.word == l.ctl.word && m.ctl.cap == l.ctl.cap && G.pos m.x == G.pos x

/-- Lane `x` stood ready at `pc` when the core cycle under way began: it has not issued in this cycle (R258). -/
def State.stoodAt (s : State) (gid x : Nat) (pc : DWord) : Bool :=
  match s.snap.find? (·.gid == gid) with
  | none => true
  | some G => match G.lane x with
    | some l => l.ctl.pc == pc && l.ctl.ready
    | none => false

/-- Single-step mode leaves the thread its step; it binds no supervisor wave (R322). -/
def State.unstepped (s : State) (d : DieId) (gid : Nat) (c : Ctl) : Bool := gid == 0 || !((s.part (s.partOf d)).step && c.stepped)

/-- The PC of the first word of a thread's chain, or of its word (R27). -/
def Ctl.stepPc (c : Ctl) : DWord := if c.chain.isEmpty then c.pc else c.chainPc

/-- Lanes of one group that issue one word together. -/
def Who.ofLanes (d : DieId) (gid : Nat) (G : Group) : List Lane → Option Who
  | [] => none
  | l :: ls =>
    let all := l :: ls
    some { d := d, gid := gid, core := G.core, hood := none, all := all.map (·.x), xs := all.map (·.x), pc := l.ctl.pc, chainPc := l.ctl.stepPc,
           hints := l.ctl.chain, prog := l.ctl.prog, cap := l.ctl.cap,
           mixed := if ls.all fun m => m.ctl.chain == l.ctl.chain && m.ctl.stepPc == l.ctl.stepPc then []
             else all.map fun m => (m.x, m.ctl.chain, m.ctl.stepPc) }

/-- The thread or threads that an agent stands for. -/
def State.who (s : State) : Agent → Option Who
  | .hood d gid lo =>
    match s.group d gid with
    | none => none
    | some G => match G.hood lo with
      | none => none
      | some h => some { d := d, gid := gid, core := G.core, hood := some lo, all := range h.lo h.hi, xs := range h.lo h.hi, pc := h.ctl.pc,
                         chainPc := h.ctl.stepPc, hints := h.ctl.chain, prog := h.ctl.prog, cap := h.ctl.cap }
  | .lanes d gid slot pc =>
    match s.group d gid with
    | none => none
    | some G => Who.ofLanes d gid G ((G.issuing slot pc).filter fun (l : Lane) => s.stoodAt gid l.x pc && s.unstepped d gid l.ctl)
  | .waiting d gid x =>
    match s.group d gid with
    | none => none
    | some G => Who.ofLanes d gid G (G.waitingWith x)
  | _ => none

/-- What a word does for a thread. -/
inductive Eff where
  /-- it completes and the thread goes on at PC + 4; `tok`: the request its result waits for -/
  | ok (s : State) (tok : Option Nat)
  /-- it completes and each index goes on where it says; `safe`: which indices come to a safe point (R349) -/
  | jump (s : State) (safe : Nat → Bool) (tgt : Nat → DWord)
  /-- it has done everything itself -/
  | done (s : State)
  /-- the thread stays at the word -/
  | hold (s : State) (w : Wait)
  /-- the hood's range expands before the word (R149) -/
  | expand
  /-- a condition set that R147 decides -/
  | cond (t : List Nat)
  /-- a precise fault: no effect -/
  | trap (t : Trap)

/-! ## Splits, expansions, joins -/

/-- The treatment of a condition set by R147. -/
inductive Cond where
  | once (b : Bool) | split (m : Nat) | expand
  deriving DecidableEq, Repr

def condCase (lo hi : Nat) (t : List Nat) : Cond :=
  if t.isEmpty then .once false
  else if t.length = hi - lo then .once true
  else if t = range lo (lo + t.length) then .split (lo + t.length)
  else if t = range (hi - t.length) hi then .split (hi - t.length)
  else .expand

/-- Free hood contexts of a core's active bank (R142). -/
def State.hoodsFree (s : State) (d : DieId) (core : Nat) : Nat :=
  32 - ((s.die d).active.groups.filter (·.core == core)).foldl (fun n G => n + G.hoods.length) 0

/-- A split at `m` (R148). -/
def Hood.split (h : Hood) (m : Nat) : Hood × Hood :=
  ({ h with hi := m, g := vmap (·.norm h.lo m) h.g },
   { h with lo := m, g := vmap (fun f => (⟨f.at h.lo m, f.stride⟩ : Form).norm m h.hi) h.g })
def Group.split (G : Group) (lo m : Nat) : Group :=
  { G with hoods := G.hoods.flatMap fun h => if h.lo = lo then [(h.split m).1, (h.split m).2] else [h] }

/-- Control state of a lane that takes over from a hood. -/
def Hood.toLanes (h : Hood) : List Lane :=
  (range h.lo h.hi).map fun x => { x := x, ctl := { h.ctl with merged := false, heldFor := 0 }, g := vmap (·.at h.lo x) h.g }
/-- An expansion (R149). -/
def Group.expand (G : Group) (lo : Nat) : Group :=
  match G.hood lo with
  | none => G
  | some h =>
    { G with hoods := G.hoods.filter (·.lo != lo),
             lanes := G.lanes.filter (fun l => l.x < h.lo) ++ h.toLanes ++ G.lanes.filter (fun l => h.hi ≤ l.x) }

/-- Releases the JOIN waits of a group whose condition holds (R264); a waiting lane keeps its mask in `prog`. -/
def Group.joinFree (G : Group) (l : Lane) : Bool :=
  (List.range 32).all fun n =>
    !l.ctl.prog.testBit n ||
      match G.lane (G.first + 32 * G.pos l.x + n) with
      | none => true
      | some m => m.ctl.wait == .join && m.ctl.pc == l.ctl.pc
def Group.settleJoins (G : Group) : Group :=
  if G.lanes.any (fun l => l.ctl.wait == .join) then
    { G with lanes := G.lanes.map fun l =>
        if l.ctl.wait == .join && G.joinFree l then { l with ctl := { l.ctl with wait := .none, prog := 0, pc := l.ctl.pc + 4, chain := [], chainPc := 0, windows := [], owes := false } } else l }
  else G
/-- Some thread of the indices `a` to `b - 1` has still to complete the word at which its hood was split. -/
def Group.owing (G : Group) (a b : Nat) : Bool :=
  (G.hoods.any fun h => h.ctl.owes && decide (h.lo < b ∧ a < h.hi)) || G.lanes.any fun l => l.ctl.owes && decide (a ≤ l.x ∧ l.x < b)
/-- Threads that waited for a sibling of a split go on once it has completed that word (R148). -/
def Group.settleSplits (G : Group) : Group :=
  if (G.hoods.any fun h => !h.ctl.after.isEmpty) || G.lanes.any fun l => !l.ctl.after.isEmpty then
    let f := fun (c : Ctl) => { c with after := c.after.filter fun r => G.owing r.1 r.2 }
    { G with hoods := G.hoods.map fun h => { h with ctl := f h.ctl }, lanes := G.lanes.map fun l => { l with ctl := f l.ctl } }
  else G
/-- What any change of a group's threads may end: JOIN waits and the waits for a sibling (R148, R264). -/
def Group.settle (G : Group) : Group := G.settleJoins.settleSplits
def State.settle (s : State) (w : Who) : State := s.modGroup w.d w.gid Group.settle

/-! ## Merging -/

/-- The merge test of one register (R151). -/
def mergeForm (l u : Form) (nl nu : Nat) : Option Form :=
  let st := if nl = 1 ∧ nu = 1 then u.base - l.base else if nl = 1 then u.stride else l.stride
  if nl > 1 ∧ nu > 1 ∧ l.stride ≠ u.stride then none
  else if nu > 1 ∧ u.stride ≠ st then none
  else if u.base ≠ l.base + st * BitVec.ofNat 32 nl then none
  else some ⟨l.base, st⟩

/-- Whether a hood stands at a merge point: a WAIT, JOIN or BAR it waits at, or the target of a MERGE chain it has reached; `pts` says
which hoods do, by lowest index. -/
def mergeable (G : Group) (pts : List Nat) (l u : Hood) : Bool :=
  l.hi == u.lo && l.ctl.pc == u.ctl.pc && l.ctl.chain == u.ctl.chain && pts.contains l.lo && pts.contains u.lo &&
    G.allocOf l.lo == G.allocOf u.lo && !l.ctl.outstanding && !u.ctl.outstanding && G.roleOf (G.pos l.lo) == G.roleOf (G.pos u.lo) &&
    (List.range (G.allocOf l.lo)).all fun n => (mergeForm (vget l.g n {}) (vget u.g n {}) (l.hi - l.lo) (u.hi - u.lo)).isSome
/-- The merged hood (R151): it takes the lower context. It waits if both waited. -/
def mergeHoods (l u : Hood) : Hood :=
  { lo := l.lo, hi := u.hi,
    ctl := { l.ctl with wait := if l.ctl.wait == u.ctl.wait then l.ctl.wait else .none, merged := l.ctl.merged && u.ctl.merged,
                        owes := l.ctl.owes || u.ctl.owes,
                        after := (l.ctl.after ++ u.ctl.after).filter fun r => r.2 ≤ l.lo || u.hi ≤ r.1 },
    g := vzip (fun a b => (mergeForm a b (l.hi - l.lo) (u.hi - u.lo)).getD {}) l.g u.g }
/-- Merges, lowest range first, until no adjacent pair qualifies (R151). Hoods stand in ascending order; `h` is the lowest. -/
def mergeFrom (G : Group) (pts : List Nat) (h : Hood) : List Hood → List Hood
  | [] => [h]
  | u :: us => if mergeable G pts h u then mergeFrom G pts (mergeHoods h u) us else h :: mergeFrom G pts u us
def mergeList (G : Group) (pts : List Nat) : List Hood → List Hood
  | [] => []
  | h :: hs => mergeFrom G pts h hs

/-- Sorts hoods by their lowest index. -/
def insertHood (h : Hood) : List Hood → List Hood
  | [] => [h]
  | g :: l => if h.lo < g.lo then h :: g :: l else g :: insertHood h l
def sortHoods (l : List Hood) : List Hood := l.foldl (fun a h => insertHood h a) []

/-- A neighbour for which a hood at a merge point is held (R152): adjacent, still running, not at the same PC. One that is held at its BARRIVE or
RCONS.free does not wait (R130). -/
def holdsFor (h n : Hood) : Bool :=
  (n.lo == h.hi || n.hi == h.lo) && n.ctl.pc != h.ctl.pc && (!n.ctl.wait.waits || n.ctl.wait == .arrive) && n.ctl.wait != .lost && n.ctl.wait != .fault

/-- Two hoods wait, or will wait, with the same operands: those that one has captured are those that the other would capture now (R133). -/
def Group.sameOperands (G : Group) (a b : Ctl) : Bool :=
  a.cap == b.cap || ((a.cap.isEmpty || b.cap.isEmpty) && (a.cap ++ b.cap).all fun q => vget G.k q.1 0 == q.2)

/-- What a merge point does to the hood that reaches it. -/
inductive Merge where
  | proceed | merged (G : Group) | hold

/-- The merge check of R152: hoods of the group at the same PC that wait there, are held there or are this one. -/
def Group.mergeCheck (G : Group) (lo : Nat) : Merge :=
  match G.hood lo with
  | none => .proceed
  | some h =>
    let pts := (G.hoods.filter fun n => n.ctl.pc == h.ctl.pc && n.ctl.chain == h.ctl.chain && n.ctl.wait != .reply && n.ctl.wait != .fault && G.sameOperands n.ctl h.ctl).map (·.lo)
    let hs := mergeList G pts (sortHoods G.hoods)
    if hs.length < G.hoods.length then .merged { G with hoods := hs }
    else if !h.ctl.merged && G.hoods.any (holdsFor h) then .hold
    else .proceed

/-! ## Completing a word -/

/-- The windows of a thread after a word: each is one word shorter; a control-flow word closes them all; a variable word opens its
own (R21, R22). -/
def Ctl.nextWindows (c : Ctl) (u : Use) (part : Bool) (tok : Option Nat) : List Window :=
  let old := if u.ctl && part then [] else (c.windows.map fun w => { w with left := w.left - 1 }).filter fun w => w.left ≠ 0 || w.tok.isSome
  if u.var && part && (u.la ≠ 0 || tok.isSome) then old ++ [⟨u.la, u.writes, tok⟩] else old

/-- The word at which the thread stands has issued before: it waits, or its reply has not come. -/
def Wait.issued (k : Wait) : Bool := k.waits || k == .reply

/-- A thread that has completed a word goes on at `tgt`: chain, progress, captured operands and holds end (R27, R330). Its age begins again when the
word issues, not when its wait ends (R257, R281). -/
def Ctl.advance (c : Ctl) (u : Use) (part : Bool) (tok : Option Nat) (tgt : DWord) : Ctl :=
  { c with pc := tgt, chain := [], chainPc := 0, wait := .none, windows := c.nextWindows u part tok, prog := 0,
           age := if c.wait.issued then c.age else 0, heldFor := 0, merged := false, stepped := true, word := none, cap := [], owes := false }

/-- Ends the windows that wait for a result (R21). -/
def Ctl.resolve (c : Ctl) (id : Nat) : Ctl :=
  if c.windows.any fun w => w.tok == some id then
    { c with windows := (c.windows.map fun w => if w.tok == some id then { w with tok := none } else w).filter fun w => w.left ≠ 0 || w.tok.isSome }
  else c
def Group.resolve (G : Group) (id : Nat) : Group :=
  { G with hoods := G.hoods.map fun h => { h with ctl := h.ctl.resolve id }, lanes := G.lanes.map fun l => { l with ctl := l.ctl.resolve id } }
def State.resolve (s : State) (d : DieId) (gid id : Nat) : State := s.modGroup d gid (·.resolve id)

/-- Sets the threads of an abandoned GLD back at its word, with the micro-step reached as their progress (R312, R355). -/
def Ctl.rewind (c : Ctl) (q : Gld) (k : Wait) : Ctl :=
  { c with pc := q.pc, chainPc := q.chainPc, chain := q.chain, prog := q.step, wait := k, windows := c.windows.filter (·.tok != some q.id), word := none, cap := [],
           merged := false }
def Group.rewind (G : Group) (q : Gld) (k : Wait) : Group :=
  { G with hoods := G.hoods.map fun h => if q.xs.contains h.lo then { h with ctl := h.ctl.rewind q k } else h,
           lanes := G.lanes.map fun l => if q.xs.contains l.x then { l with ctl := l.ctl.rewind q k } else l,
           glds := G.glds.filter (·.id != q.id) }

/-- The address a thread goes on at when its step ends at a safe point whose map entry is visible (R349). -/
def State.safeTarget (s : State) (d : DieId) (tgt : DWord) : DWord :=
  match (s.die d).active.safe.find? (·.silol == tgt) with
  | some e => e.native
  | none => tgt
/-- A wave switches only when every live lane of it takes the same step (R349). -/
def Group.wholeWave (G : Group) (w : Who) (safe : Nat → Bool) (x : Nat) : Bool :=
  match w.hood with
  | some _ => true
  | none => G.lanes.all fun l => G.pos l.x != G.pos x || (w.xs.contains l.x && safe l.x)

/-- Ends a word for its thread. -/
def State.finish (s : State) (w : Who) (u : Use) (tok : Option Nat) (safe : Nat → Bool) (tgt : Nat → DWord) : State :=
  let G := (s.group w.d w.gid).getD { gid := w.gid }
  let dest := fun x => if safe x && w.gid ≠ 0 && w.xs.contains x && G.wholeWave w safe x then s.safeTarget w.d (tgt x) else tgt x
  (s.modCtl w fun x c => c.advance u (w.xs.contains x) tok (dest x)).settle w

/-- The address of the word after (R17). -/
def Who.next (w : Who) : Nat → DWord := fun _ => w.pc + 4
/-- A step that ends at no safe point. -/
def unsafePoint : Nat → Bool := fun _ => false

/-- The control state of a thread kept at its word: one whose word has issued and waits captures its operands (R133). -/
def Ctl.kept (c : Ctl) (i : Instr) (k : Wait) (ops : List (Nat × Word)) : Ctl :=
  let age := if k.issued && !c.wait.issued then 0 else c.age
  if k.waits then { c with wait := k, stepped := true, age := age, word := some i, cap := ops } else { c with wait := k, stepped := true, age := age }
/-- Keeps a thread at its word in a wait state. -/
def State.holdAt (s : State) (w : Who) (i : Instr) (k : Wait) : State :=
  (s.modCtl w fun _ c => c.kept i k (i.use.kr.map fun n => (n, s.k w n))).settle w

/-- The excluded thread passes the word (R270): for it the word is a NOP, which closes no window. -/
def State.skip (s : State) (w : Who) (u : Use) : State := s.finish { w with xs := [] } u none unsafePoint w.next

/-- What a word's effect leaves; lanes that the predicate excludes pass a word that is held (R21, R270). -/
def State.apply (s : State) (w : Who) (i : Instr) : Eff → State
  | .ok s tok => s.finish w i.use tok unsafePoint w.next
  | .jump s safe tgt => s.finish w i.use none safe fun x => if w.hood.isSome || w.xs.contains x then tgt x else w.pc + 4
  | .done s => s
  | .hold s k =>
    if w.hood.isSome || w.xs.length = w.all.length then s.holdAt w i k
    else (s.skip { w with all := w.all.filter (!w.xs.contains ·) } i.use).holdAt { w with all := w.xs } i k
  | .expand => s.modGroup w.d w.gid fun G => match w.hood with
    | some lo => (G.expand lo).settle
    | none => G
  | .cond _ => s
  | .trap t => s.trap w t

/-- Expands the hood that issues; while one of its results is outstanding it is held first (R149). -/
def State.expandThread (s : State) (w : Who) : State :=
  match w.hood with
  | none => s
  | some lo => match (s.group w.d w.gid).bind (·.hood lo) with
    | none => s
    | some h => if h.ctl.outstanding then s.modCtl w fun _ c => { c with wait := .held, stepped := true } else s.modGroup w.d w.gid fun G => (G.expand lo).settle

/-- The hood's `Who` after its range has become `lo` to `hi - 1`. -/
def Who.sub (w : Who) (lo hi : Nat) : Who := { w with hood := some lo, all := range lo hi, xs := range lo hi }

/-- The indices that the predicate of the chain leaves (R270). -/
def State.selected (s : State) (w : Who) : List Nat :=
  if w.mixed.isEmpty then
    match predOf w.hints with
    | none => w.all
    | some g => w.all.filter fun x => (s.g w x g.toNat).getLsbD 0
  else w.all.filter fun x => match predOf (w.hintsAt x) with
    | none => true
    | some g => (s.g w x g.toNat).getLsbD 0

/-- The control state of index `x` of the issuing thread. -/
def Group.ctlOf (G : Group) (hood : Option Nat) (x : Nat) : Ctl :=
  match hood with
  | some lo => ((G.hood lo).map (·.ctl)).getD {}
  | none => ((G.lane x).map (·.ctl)).getD {}

/-- Participants whose control-flow word is held by an outstanding result (R22) are held, a hood as a whole; the others go on. -/
def State.holdBusy (s : State) (w : Who) (u : Use) : State × Who :=
  match s.group w.d w.gid with
  | none => (s, w)
  | some G =>
    let busy := w.xs.filter fun x => u.ctl && (G.ctlOf w.hood x).outstanding
    if busy.isEmpty then (s, w)
    else
      let s := s.modCtl { w with all := busy } fun _ c => { c with wait := .held }
      (s, { w with all := w.all.filter (!busy.contains ·), xs := w.xs.filter (!busy.contains ·) })

/-- The siblings of a split issue no other word before both have completed this one (R148): notes which of them have not. -/
def Group.pairUp (G : Group) (lo m hi : Nat) : Group :=
  let note := fun (a b : Nat) (c : Ctl) =>
    if G.owing m hi && decide (lo ≤ a ∧ b ≤ m) then { c with after := (m, hi) :: c.after }
    else if G.owing lo m && decide (m ≤ a ∧ b ≤ hi) then { c with after := (lo, m) :: c.after } else c
  { G with hoods := G.hoods.map fun h => { h with ctl := note h.lo h.hi h.ctl },
           lanes := G.lanes.map fun l => { l with ctl := note l.x (l.x + 1) l.ctl } }

/-- A hood performs a word: the predicate first (R270), then the hold of R22, then the word, splitting or expanding as R147 says; the
siblings of a split complete the word one after the other (R148). -/
def runHood (i : Instr) (body : Who → State → Eff) : (fuel : Nat) → Who → State → State
  | 0, w, s => s.expandThread w
  | fuel + 1, w, s =>
    let lo := w.all.headD 0
    let hi := lo + w.all.length
    let byCond := fun (t : List Nat) (once : Bool → State) =>
      match condCase lo hi t with
      | .once b => once b
      | .split m =>
        if s.hoodsFree w.d w.core = 0 then s.expandThread w
        else
          let owe := fun (h : Hood) => { h with ctl := { h.ctl with owes := true } }
          let s := s.modGroup w.d w.gid fun G => ((G.split lo m).modHood lo owe).modHood m owe
          let s := runHood i body fuel (w.sub lo m) s
          let s := runHood i body fuel (w.sub m hi) s
          s.modGroup w.d w.gid (·.pairUp lo m hi)
      | .expand => s.expandThread w
    let run := fun (w : Who) =>
      let (s, w) := s.holdBusy w i.use
      if w.all.isEmpty then s
      else match body w s with
        | .expand => s.expandThread w
        | .cond t => byCond t fun _ => s.expandThread w
        | e => s.apply w i e
    match predOf w.hints with
    | none => run w
    | some _ =>
      byCond (s.selected w) fun b => if b then run w else if i.gathered then run { w with xs := [] } else s.skip w i.use

/-- Lanes perform a word: those that the predicate excludes pass it. -/
def runLanes (i : Instr) (body : Who → State → Eff) (w : Who) (s : State) : State :=
  let (s, w) := s.holdBusy { w with xs := s.selected w } i.use
  if w.all.isEmpty then s
  else if w.xs.isEmpty && !i.gathered then s.skip w i.use
  else match body w s with
    | .expand | .cond _ => s
    | e => s.apply w i e

/-- The wave positions of the issuing lanes, lowest first. -/
def positionsOf (G : Group) (xs : List Nat) : List Nat := (List.range G.positions).filter fun p => xs.any fun x => G.pos x == p

/-- Performs a word for parts of the issuing lanes, one after the other. -/
def inParts (i : Instr) (body : Who → State → Eff) (ws : List Who) (s : State) : State :=
  ws.foldl (fun s w =>
    if w.xs.isEmpty && !i.gathered then s.skip w i.use
    else match body w s with
      | .expand | .cond _ => s
      | e => s.apply w i e) s
/-- Those of the issuing threads whose index satisfies `p`, with the chain of their own lowest participant (R27). -/
def Who.part (w : Who) (p : Nat → Bool) : Who :=
  let x := (w.xs.filter p).headD ((w.all.filter p).headD 0)
  { w with all := w.all.filter p, xs := w.xs.filter p, hints := w.hintsAt x, chainPc := w.chainPcAt x }

/-- A word that is performed once per issuing thread: once for a hood; each logical wave of a pair performs it by itself (R160). -/
def perWave (i : Instr) (body : Who → State → Eff) (w : Who) (s : State) : Eff :=
  match w.hood, s.group w.d w.gid with
  | some _, _ | none, none => body w s
  | none, some G => .done (inParts i body ((positionsOf G w.all).map fun p => w.part fun x => G.pos x == p) s)

/-- The hints that change what a word does, not which lanes do it (R26). -/
def Hint.changes : Hint → Bool
  | .merge | .pred _ => false
  | _ => true
/-- Lanes that came to a word by different chains, in classes of one meaning. -/
def Who.classes (w : Who) : List Who :=
  let key := fun (x : Nat) => (w.hintsAt x).filter Hint.changes
  (w.all.map key).eraseDups.map fun k => w.part fun x => key x == k

/-- Two faults of one word as one: the cause of the lowest index that faults, every index that faults with it, and the lowest address of those that
the record names, which stand in one wave (R122, R319). -/
def Trap.join (all : List Nat) (same : Nat → Nat → Bool) (a b : Trap) : Trap :=
  let (a, b) := if a.xs.headD 0 ≤ b.xs.headD 0 then (a, b) else (b, a)
  if a.cause ≠ b.cause then a
  else { a with
    faddr := if same (a.xs.headD 0) (b.xs.headD 0) && decide (b.faddr.toNat < a.faddr.toNat) then b.faddr else a.faddr
    xs := all.filter fun x => a.xs.contains x || b.xs.contains x }
def Eff.trap? : Eff → Option Trap
  | .trap t => some t
  | _ => none
/-- A word that each lane performs by itself: lanes that stand at it with different hints perform it each with their own (R26, R258). Where any of
them faults, the word has no effect, and its fault names all that fault with the lowest one's cause (R122). -/
def perClass (i : Instr) (body : Who → State → Eff) (w : Who) (s : State) : Eff :=
  if w.mixed.isEmpty then body w s
  else
    let same := fun (x y : Nat) => match s.group w.d w.gid with | some G => G.pos x == G.pos y | none => true
    match (w.classes.filter fun c => !c.xs.isEmpty).filterMap fun c => (body c s).trap? with
    | [] => .done (inParts i body w.classes s)
    | t :: ts => .trap (ts.foldl (Trap.join w.all same) t)

/-! ## The checks before a word -/

/-- The words of named tiles (R106). -/
def Instr.namedTile : Instr → Bool
  | .want .. | .offer .. | .unwant _ | .nevict _ | .ntwr .. => true
  | _ => false
/-- The indices that the fault of a word names: of a word of named tiles, the lowest (R106). -/
def Who.naming (w : Who) (lowest : Bool) (xs : List Nat) : List Nat := if lowest && w.hood.isNone then xs.take 1 else xs
/-- The indices of a thread that an ILL names: a hood as a whole, or the lanes for which the check fails. -/
def Who.failing (w : Who) (p : Nat → Bool) : List Nat := if w.hood.isSome then (if w.all.any p then w.all else []) else w.all.filter p

/-- Registers beyond the limits of R20 that depend on the thread: its allocation and its launch's tiles. -/
def Group.beyond (G : Group) (u : Use) (x : Nat) : Bool :=
  (u.gr ++ u.gw).any (fun r => G.allocOf x ≤ r) || (u.tr ++ u.tw ++ u.sh).any (fun t => G.tiles ≤ t)

/-- A word names a register that the producer of an open window writes (R22); a predicate in front of it counts. -/
def Group.inWindow (G : Group) (w : Who) (u : Use) (x : Nat) : Bool :=
  let ns := u.names ++ (match predOf (w.hintsAt x) with | some g => [RegName.g g.toNat] | none => [])
  ((G.ctlOf w.hood x).windows.any fun win => win.left ≠ 0 && win.regs.any ns.contains)

/-- ILL and PRIV before the word does anything (R20, R22, R25, R35, R37, R106): the fault, if any. An index that the predicate excludes does not execute
the word, and does not fault (R270). -/
def State.precheck (s : State) (w : Who) (i : Instr) : Option Trap :=
  match s.group w.d w.gid with
  | none => none
  | some G =>
    let u := i.use
    let xs := s.selected w
    let named := w.naming (Instr.namedTile i)
    let astray := w.failing fun x => (w.hintsAt x).any fun h => !h.accepts i
    if !astray.isEmpty then some { cause := Cause.ill, xs := named astray, pc := some (w.chainPcAt (astray.headD 0)) }
    else if xs.isEmpty then none
    else if !i.wellFormed || i.carderOnly then some { cause := Cause.ill, xs := named xs }
    else
      let bad := ({ w with all := xs } : Who).failing fun x => G.beyond u x || G.inWindow w u x
      if !bad.isEmpty then some { cause := Cause.ill, xs := named bad }
      else if i.supervisor && w.gid ≠ 0 then some { cause := Cause.priv, xs := named xs }
      else none

/-- A compute thread performs a word. -/
def runThread (i : Instr) (body : Who → State → Eff) (w : Who) (s : State) : State :=
  match s.precheck w i with
  | some t => s.trap w t
  | none =>
    match w.hood with
    | none => runLanes i body w s
    | some lo =>
      let point := i.mergePoint || w.hints.any (· == .merge)
      match if point then (match s.group w.d w.gid with | some G => G.mergeCheck lo | none => .proceed) else .proceed with
      | .merged G => s.modGroup w.d w.gid fun _ => G
      | .hold => s.modCtl w fun _ c => { c with wait := .merge }
      | .proceed => runHood i body 4 w s

/-! ## Carders: faults and the checks before a word -/

/-- The command a carder executes: its started entry (R60). -/
def Carder.current (c : Carder) : Option Cmd := c.queue.find? (·.started)
/-- A die's partition runs: it is not halted, and the module is up (R87). -/
def State.running (s : State) (d : DieId) : Bool := s.ready && !(s.part (s.partOf d)).halt
/-- A carder performs a command: a tenant's while its partition runs; the supervisor wave's, in context 0x000, also through a halt, until one of them
faults (R311, R314). -/
def State.serves (s : State) (d : DieId) (inst : Nat) (q : Cmd) : Bool :=
  if q.sup then s.powered && !((s.part (s.partOf d)).faults.any fun f => f.die == d && f.slot == 200 + inst) else s.running d
def Die.carder (D : Die) (inst : Nat) : Carder := vget D.carders inst {}
def State.modCarder (s : State) (d : DieId) (inst : Nat) (f : Carder → Carder) : State :=
  s.modDie d fun D => { D with carders := vput D.carders inst (f (vget D.carders inst {})) }

def CmdKind.code : CmdKind → Byte
  | .tcopy => 0 | .gath => 1 | .scat => 2 | .crun => 3

/-- The position of the participant that a GATH or SCAT works for: its lane number, or its index above the hood's LO (R64, R70). -/
def Cmd.nextPos (q : Cmd) : Option Nat := (q.xs.map (· - q.base)).find? fun j => decide (q.p0 ≤ j)
/-- The row coordinate that the command captured for position `j` (R67, R70). -/
def Cmd.row (q : Cmd) (j : Nat) : Word := if q.hood then q.fbase + q.fstride * BitVec.ofNat 32 j else vget q.lanes j 0

/-- The fault record of a carder (R82 to R85): cause, inner cause, the faulting address; of a GATH or SCAT it names the participant `at_`, by
default the one that it works for. -/
def State.carderFault (s : State) (d : DieId) (inst : Nat) (q : Cmd) (cause inner : Cause) (pc faddr : DWord) (at_ : Option Nat := none) : FaultRec :=
  let c := (s.die d).carder inst
  let (p0, p1, p2) := if q.kind = .crun then (c.p0, c.p1, c.p2) else (q.p0, q.p1, q.p2)
  let rows := q.kind == .gath || q.kind == .scat
  let part := if rows then at_.getD (q.nextPos.getD q.p0) else 0
  let base := if q.hood && rows then q.base + part else q.base
  let map : Word := if rows then (if q.hood then 1 else (1 : Word) <<< part) else q.map
  { die := d, slot := 200 + inst, clock := s.clock,
    form := { fbase := q.row (if q.hood then part else 0), fstride := q.fstride, ftag := q.ftag, freg := q.freg,
              rest := if q.hood && rows then BitVec.ofNat 16 (q.npart - part) else 0 },
    stop := { cause := cause, inner := inner, cls := 0, kind := q.kind.code, inst := BitVec.ofNat 8 inst, b5 := 0, ctx := q.ctx, pc := pc,
              faddr := faddr, q18 := BitVec.ofNat 64 p0, q20 := BitVec.ofNat 64 p1, q28 := BitVec.ofNat 64 p2,
              base := BitVec.ofNat 64 base, group := q.number, map := map } }

/-- A word of a carder program faults: CARD wrapping the inner cause, but for an uncorrectable error (R82). -/
def State.card (s : State) (d : DieId) (inst : Nat) (inner : Cause) (pc faddr : DWord) : State :=
  match ((s.die d).carder inst).current with
  | none => s
  | some q => s.raiseFault (if inner = Cause.ecc then s.carderFault d inst q Cause.ecc 0 pc faddr
      else s.carderFault d inst q Cause.card inner pc faddr)

/-- What a carder word does. -/
inductive CEff where
  | ok (c : Carder) (s : State)
  | jump (s : State) (c : Carder) (tgt : DWord)
  | hold (s : State)
  | done (s : State)
  | trap (inner : Cause) (faddr : DWord)

/-- A carder performs a word of its program: profile, hints and predicate first (R26, R36, R56). -/
def runCarder (i : Instr) (d : DieId) (inst : Nat) (body : Carder → List Hint → State → CEff) (s : State) : State :=
  let c := (s.die d).carder inst
  let pc := c.ctl.pc
  let chainPc := if c.ctl.chain.isEmpty then pc else c.ctl.chainPc
  let skip := match predOf c.ctl.chain with
    | some g => !(vget c.c g.toNat 0).getLsbD 0
    | none => false
  if c.ctl.chain.any fun h => !h.accepts i then s.card d inst Cause.ill chainPc 0
  else if !i.carderOk && !skip then s.card d inst Cause.ill pc 0
  else
    let fin := fun (s : State) (c : Carder) (tgt : DWord) =>
      s.modCarder d inst fun o => { o with c := c.c, p0 := 0, p1 := 0, p2 := 0, ctl := { o.ctl with pc := tgt, chain := [], wait := .none, stepped := true } }
    if skip then fin s c (pc + 4)
    else match body c c.ctl.chain s with
      | .ok c s => fin s c (pc + 4)
      | .jump s c tgt => fin s c tgt
      | .hold s => s.modCarder d inst fun o => { o with ctl := { o.ctl with wait := .wait, stepped := true } }
      | .done s => s
      | .trap inner fa => s.card d inst inner pc fa

/-! ## The shapes of a word -/

/-- The issuing threads perform a word; on a carder it lies outside the profile (R36). -/
def issued (i : Instr) (body : Who → State → Eff) (cbody : DieId → Nat → Carder → List Hint → State → CEff) (s : State) : Res :=
  match s.cur with
  | .none => .fault .noThread
  | .carder d inst => .next (runCarder i d inst (cbody d inst) s)
  | a => match s.who a with
    | none => .fault .noThread
    | some w => .next (runThread i body w s)
def noCarder (_ : DieId) (_ : Nat) (_ : Carder) (_ : List Hint) (s : State) : CEff := .done s

/-- A word of compute threads, lane by lane. -/
def threadWord (i : Instr) (body : Who → State → Eff) : State → Res := issued i (perClass i body) noCarder
/-- A word that the issuing lanes perform together, whatever hints they came by; each logical wave with those of its lowest lane (log 41). -/
def jointWord (i : Instr) (body : Who → State → Eff) : State → Res := issued i body noCarder
/-- A word that compute threads perform once each. -/
def waveWord (i : Instr) (body : Who → State → Eff) : State → Res := issued i (perWave i body) noCarder
/-- A word of compute threads and of carders. -/
def sharedWord (i : Instr) (body : Who → State → Eff) (cbody : DieId → Nat → Carder → List Hint → State → CEff) : State → Res :=
  issued i (perClass i body) cbody

/-- A carder-only word. -/
def carderWord (i : Instr) (cbody : DieId → Nat → Carder → List Hint → State → CEff) (s : State) : Res :=
  sharedWord i (fun _ s => .done s) cbody s

end Sys2Proof.Machine
end

