-- ==== Sys2Proof/Machine/Layout.lean ====
section
/-! DEFINITION. Tensor layout records (R62, R63), the places of a command's units (R68, R70), footprints and conflicts (R73, R80, R81). -/
namespace Sys2Proof.Machine

/-- Element format codes (R34): reserved ones are not valid. -/
def fmtValid (f : Nat) : Bool := 1 ≤ f && f ≤ 0x0B
/-- Block formats: mantissa width p. -/
def blockP (f : Nat) : Option Nat := if f = 6 then some 7 else if f = 7 then some 4 else if f = 8 then some 2 else none
/-- Unit bytes (R63). -/
def unitBytes (f : Nat) : Nat :=
  if f = 1 ∨ f = 0x0B then 4 else if f = 2 ∨ f = 3 then 2 else if f = 6 then 18 else if f = 7 then 12 else if f = 8 then 8 else 1

/-- A tensor layout record (R62). -/
structure Layout where
  base : Nat
  ext  : List Nat
  str  : List Int
  fmt  : Nat
  fill : Nat
  dims : Nat
  dir  : Bool
  box  : List Nat
  /-- every condition of R62 holds -/
  ok   : Bool
  deriving DecidableEq, Repr

/-- The `n` bytes at `o` of a record as a number. -/
def fieldAt (bs : List Byte) (o n : Nat) : Nat := ofBytes ((bs.drop o).take n)

def Layout.of (bs : List Byte) : Layout :=
  let ext := (List.range 8).map fun i => fieldAt bs (0x08 + 4 * i) 4
  let str := (List.range 8).map fun i => (BitVec.ofNat 64 (fieldAt bs (0x28 + 8 * i) 8)).toInt
  let box := (List.range 8).map fun i => fieldAt bs (0x6C + 2 * i) 2
  let dims := fieldAt bs 0x6A 1
  let flags := fieldAt bs 0x6B 1
  { base := fieldAt bs 0 8, ext := ext, str := str, fmt := fieldAt bs 0x68 1, fill := fieldAt bs 0x69 1, dims := dims, dir := flags % 2 = 1,
    box := box,
    ok := fmtValid (fieldAt bs 0x68 1) && decide (fieldAt bs 0x69 1 ≤ 2) && decide (1 ≤ dims ∧ dims ≤ 8) && decide (flags < 2) &&
      fieldAt bs 0x7C 2 == 0xA7C5 && fieldAt bs 0x7E 2 == 0 && box.all (· ≠ 0) &&
      (List.range 8).all fun i =>
        if i < dims then ext.getD i 0 != 0 else ext.getD i 0 == 1 && box.getD i 0 == 1 && str.getD i 0 == 0 }

/-- Digits of `v` in the radices of a box, dimension 0 fastest. -/
def digits : List Nat → Nat → List Nat
  | [], _ => []
  | b :: bs, v => v % b :: digits bs (v / b)

/-- LocalOffset of R68. -/
def localOffset (L : Layout) (B : BufRec) (u : Nat) (ds : List Nat) : Nat :=
  let s1 := if B.stride0 = 0 then L.box.getD 0 1 * u else B.stride0
  let s2 := if B.stride1 = 0 then L.box.getD 1 1 * s1 else B.stride1
  let rec higher (k s : Nat) : List Nat → Nat
    | [] => 0
    | d :: ds => let s' := L.box.getD (k - 1) 1 * s; d * s' + higher (k + 1) s' ds
  ds.getD 0 0 * u + ds.getD 1 0 * s1 + ds.getD 2 0 * s2 + higher 3 s2 (ds.drop 3)

/-- A unit of a command: tensor coordinates and local offset. -/
structure Place1 where
  coord : List Nat
  off   : Nat
  deriving DecidableEq, Repr

/-- The command's buffer record and layout. -/
def Cmd.bufRec (q : Cmd) : BufRec := BufRec.of q.buf
def Cmd.layout (q : Cmd) : Layout := Layout.of q.image
def Cmd.unit (q : Cmd) : Nat := unitBytes q.layout.fmt
/-- Units of a TCOPY's box; of one participant's row of GATH and SCAT. -/
def Cmd.boxUnits (q : Cmd) : Nat := if q.kind = .tcopy then q.layout.box.foldl (· * ·) 1 else q.layout.box.getD 0 1

/-- Unit `v` of a TCOPY (R68); unit `v` of the participant at position `j` of a GATH or SCAT (R70). -/
def Cmd.place (q : Cmd) (j v : Nat) : Place1 :=
  let L := q.layout
  if q.kind = .tcopy then
    let ds := digits L.box v
    { coord := List.zipWith (· + ·) ((List.range 8).map fun i => (vget q.ops i 0).toNat) ds, off := localOffset L q.bufRec q.unit ds }
  else { coord := [v, (q.row j).toNat, 0, 0, 0, 0, 0, 0], off := (j * L.box.getD 0 1 + v) * q.unit }

/-- The virtual address of a unit, as an exact integer. -/
def Layout.addr (L : Layout) (x : List Nat) : Int := (L.base : Int) + ((x.zip L.str).map fun p => (p.1 : Int) * p.2).foldl (· + ·) 0
/-- The unit lies outside the tensor. -/
def Layout.outside (L : Layout) (x : List Nat) : Bool := (x.zip L.ext).any fun p => decide (p.2 ≤ p.1)

/-! ## Footprints -/

/-- A region: a main-memory interval, or an interval of a local space, and whether it is written. -/
structure Region where
  wr    : Bool
  /-- none: main memory -/
  space : Option Nat
  lo    : Int
  hi    : Int
  deriving DecidableEq, Repr

def Region.overlaps (a b : Region) : Bool := a.space == b.space && decide (a.lo < b.hi ∧ b.lo < a.hi)

/-- The interval that coordinates between `lo` and `hi` (exclusive) of each dimension can touch. -/
def Layout.span (L : Layout) (rs : List (Nat × Nat)) (u : Nat) : Option (Int × Int) :=
  if rs.any fun r => r.2 ≤ r.1 then none
  else
    let ends : List (Int × Int) := (rs.zip L.str).map fun p =>
      let a := (p.1.1 : Int) * p.2
      let b := ((p.1.2 - 1 : Nat) : Int) * p.2
      (min a b, max a b)
    some ((L.base : Int) + (ends.map (·.1)).foldl (· + ·) 0, (L.base : Int) + (ends.map (·.2)).foldl (· + ·) 0 + u)

/-- A footprint region of a CRUN record (R73). -/
def footRegion (bs : List Byte) (i : Nat) : Option Region :=
  let base := fieldAt bs (16 * i) 8
  let w := fieldAt bs (16 * i + 8) 8
  let len : Nat := w % 2 ^ 56
  if len = 0 then none
  else match CAddr.of (BitVec.ofNat 64 base) with
    | some (.loc sp a) => some ⟨w.testBit 63, some sp, a, a + len⟩
    | some (.main va) => some ⟨w.testBit 63, none, va.toNat, va.toNat + len⟩
    | none => some ⟨w.testBit 63, none, base, base + len⟩
/-- A reserved bit of a footprint record is set (R73). -/
def footBad (bs : List Byte) : Bool := (List.range 4).any fun i => (fieldAt bs (16 * i + 8) 8 >>> 56) % 2 ^ 7 ≠ 0

/-- The local bytes that a command can touch, from offset `lo` to `hi` of the place its slot gives it: all of the buffer where units wrap, or while
it holds no slot of its ring and may be given any (R68, R80). -/
def Cmd.localRegion (q : Cmd) (wr : Bool) (lo hi : Nat) : Region :=
  let B := q.bufRec
  let lo := q.shift + lo
  let hi := q.shift + hi
  let all := (q.ring && q.slot.isNone) || (B.mode == 3 && decide (B.extent < hi))
  ⟨wr, some B.space, B.base + (if all then 0 else min B.extent lo), B.base + (if all then B.extent else min B.extent hi)⟩
/-- The regions of a command (R80). -/
def Cmd.footprint (q : Cmd) : List Region :=
  let L := q.layout
  let u := q.unit
  let main := fun (wr : Bool) (rs : List (Nat × Nat)) => match L.span rs u with
    | some (lo, hi) => [(⟨wr, none, lo, hi⟩ : Region)]
    | none => []
  match q.kind with
  | .crun => (List.range 4).filterMap (footRegion q.image)
  | .tcopy =>
    main L.dir ((List.range 8).map fun i => let c := (vget q.ops i 0).toNat; (c, min (c + L.box.getD i 1) (L.ext.getD i 1))) ++
      [q.localRegion (!L.dir) 0 (localOffset L q.bufRec u (L.box.map (· - 1)) + u)]
  | _ =>
    let js := q.xs.map (· - q.base)
    let row := L.box.getD 0 1 * u
    main (q.kind == .scat) (L.ext.map fun e => (0, e)) ++ [q.localRegion (q.kind == .gath) (js.headD 0 * row) ((js.getLastD 0 + 1) * row)]

/-- Conflict of two commands of one group on one quad (R81). -/
def Cmd.conflicts (a b : Cmd) : Bool :=
  a.gid == b.gid && a.footprint.any fun r => b.footprint.any fun t => (r.wr || t.wr) && r.overlaps t

/-! ## The commands in the carders -/

/-- The carders of a quad, by logical quad (R55). -/
def quadCarders (q : Nat) : List Nat := [2 * q, 2 * q + 1]
def State.carderOf (s : State) (d : DieId) (inst : Nat) : Carder := (s.die d).carder inst
/-- The commands of a die that have not completed. -/
def State.cmds (s : State) (d : DieId) : List Cmd := (s.die d).carders.toArray.toList.flatMap (·.queue)
/-- Those of a thread: with a participant among its indices (R66). -/
def State.cmdsOf (s : State) (d : DieId) (gid : Nat) (xs : List Nat) : List Cmd :=
  (s.cmds d).filter fun q => q.gid == gid && q.xs.any xs.contains

/-! ## A thread's counters (R66, R135) -/

def State.copyCount (s : State) (d : DieId) (gid : Nat) (xs : List Nat) : Nat :=
  let B := (s.die d).active
  (s.cmdsOf d gid xs).length + (B.removed.countP fun r => !r.tile && r.gid == gid && r.xs.any xs.contains) + (B.interests.countP fun i => i.gid == gid && i.xs.any xs.contains) +
    (B.offers.countP fun o => o.gid == gid && o.xs.any xs.contains)
/-- Requests of a thread that await a reply. -/
def SyncOp.counted : SyncOp → Bool
  | .put => false
  | _ => true
def State.reqsOf (s : State) (d : DieId) (gid : Nat) (xs : List Nat) : List SyncReq :=
  s.reqs.filter fun r => r.die == d && r.gid == gid && r.xs.any xs.contains
def State.atomCount (s : State) (d : DieId) (gid : Nat) (xs : List Nat) : Nat := (s.reqsOf d gid xs).countP (·.op.counted)
def TileKind.counted : TileKind → Bool
  | .tst | .tdrain | .tdred => true
  | _ => false
def State.tileWords (s : State) (d : DieId) (gid : Nat) (xs : List Nat) : List TileCmd :=
  (s.die d).active.tileq.filter fun q => q.gid == gid && q.kind.counted && q.xs.any xs.contains
/-- The GLDs of a thread that are on their way (R358). -/
def State.gldsOf (s : State) (d : DieId) (gid : Nat) (xs : List Nat) : List Gld :=
  match s.group d gid with
  | none => []
  | some G => G.glds.filter fun q => q.xs.any xs.contains
def State.counter (s : State) (d : DieId) (gid : Nat) (xs : List Nat) : Counter → Nat
  | .copy => s.copyCount d gid xs
  | .atom => s.atomCount d gid xs
  | .load => 0
  | .tile => (s.tileWords d gid xs).length + ((s.die d).active.removed.countP fun r => r.tile && r.gid == gid && r.xs.any xs.contains)

end Sys2Proof.Machine
end

