-- ==== Sys2Proof/Machine/Slots.lean ====
section
/-! DEFINITION. Barrier slots and ring records (R125 to R139): their lines in local memory, their updates, credits, and the writes
that a release waits for, and those that it passes (R120, R295, R300). -/
namespace Sys2Proof.Machine

/-! ## Barrier slots -/

/-- A barrier slot (R126). -/
structure BSlot where
  scope    : Nat
  phase    : Word
  bm       : Bool
  bmd      : Nat
  pending  : Nat
  arrived  : Nat
  expected : Nat
  deriving DecidableEq, Repr

def BSlot.bytes (b : BSlot) : List Byte :=
  bytesOf 2 b.expected ++ bytesOf 2 b.arrived ++ bytesOf 4 (b.pending + b.bmd * 2 ^ 28 + (if b.bm then 2 ^ 31 else 0)) ++
    bytesOf 4 b.phase.toNat ++ [0, 0, BitVec.ofNat 8 b.scope, 0xB1]

/-- A live line of a space. -/
def State.lineLive (s : State) (d : DieId) (gid : Nat) (space a : Nat) : Bool := (s.liveLines d gid space).contains (a / 16)

/-- The slot at an address, if a live barrier slot stands there (R130). -/
def State.bslot (s : State) (d : DieId) (gid : Nat) (a : Slot) : Option BSlot :=
  let bs := s.readLocal d gid 0 a.space a.addr 16
  if s.lineLive d gid a.space a.addr && fieldAt bs 15 1 == 0xB1 then
    let w := fieldAt bs 4 4
    some { scope := fieldAt bs 14 1 % 8, phase := BitVec.ofNat 32 (fieldAt bs 8 4), bm := w.testBit 31, bmd := (w >>> 28) % 8,
           pending := w % 2 ^ 28, arrived := fieldAt bs 2 2, expected := fieldAt bs 0 2 }
  else none

def BSlot.bitmapAt (b : BSlot) (a : Slot) : Nat := a.addr + 16 * (b.bmd + 1)

/-- Stores a slot after an update: a phase that is complete ends in the same update (R129). -/
def State.putSlot (s : State) (d : DieId) (gid : Nat) (a : Slot) (b : BSlot) : State :=
  let done := b.arrived = b.expected ∧ b.pending = 0
  let b' := if done then { b with phase := b.phase + 1, arrived := 0 } else b
  let s := s.writeLocal d gid 0 a.space a.addr b'.bytes
  if done ∧ b.bm then s.writeLocal d gid 0 a.space (b.bitmapAt a) (bytesOf 16 0) else s

/-- Phase `v` is complete (R129). -/
def BSlot.complete (b : BSlot) (v : Word) : Bool := let n := (b.phase - v).toNat; 1 ≤ n && decide (n < 2 ^ 31)

/-- One arrival (R129). -/
def State.arrive (s : State) (d : DieId) (gid : Nat) (a : Slot) : Option State :=
  match s.bslot d gid a with
  | none => none
  | some b => if b.arrived = b.expected then none else some (s.putSlot d gid a { b with arrived := b.arrived + 1 })
/-- An expectation of `n` bytes (R129, R130). -/
def State.expect (s : State) (d : DieId) (gid : Nat) (a : Slot) (n : Nat) : Option State :=
  match s.bslot d gid a with
  | none => none
  | some b => if b.pending + n ≥ 2 ^ 28 then none else some (s.putSlot d gid a { b with pending := b.pending + n })
/-- A credit of `n` bytes (R129). -/
def State.creditSlot (s : State) (d : DieId) (gid : Nat) (a : Slot) (n : Nat) : Option State :=
  match s.bslot d gid a with
  | none => none
  | some b => if b.pending < n then none else some (s.putSlot d gid a { b with pending := b.pending - n })
/-- One arrival and a credit in a single update (R78). -/
def State.arriveCredit (s : State) (d : DieId) (gid : Nat) (a : Slot) (n : Nat) : Option State :=
  match s.bslot d gid a with
  | none => none
  | some b => if b.arrived = b.expected ∨ b.pending < n then none
    else some (s.putSlot d gid a { b with arrived := b.arrived + 1, pending := b.pending - n })

/-! ## Ring records -/

structure RSlot where
  rel    : Nat
  full   : Bool
  landed : Nat
  deriving DecidableEq, Repr
structure Cursor where
  out : Nat
  fc  : Nat
  tc  : Nat
  deriving DecidableEq, Repr
/-- A ring record (R137): 16 slot words and 24 cursors. -/
structure Ring where
  word0   : Nat
  fulln   : Nat
  free    : Nat
  pi      : Nat
  slots   : List RSlot
  cursors : List Cursor
  deriving DecidableEq, Repr

def Ring.n (r : Ring) : Nat := r.word0 % 16 + 1
def Ring.slot64 (r : Ring) : Nat := (r.word0 >>> 4) % 2 ^ 14
def Ring.cons (r : Ring) : Nat := (r.word0 >>> 18) % 64
def Ring.size (r : Ring) : Nat := 64 * r.slot64
def Ring.slot (r : Ring) (i : Nat) : RSlot := r.slots.getD i ⟨0, false, 0⟩
def Ring.cursor (r : Ring) (p : Nat) : Cursor := r.cursors.getD p ⟨0, 0, 0⟩
def Ring.setSlot (r : Ring) (i : Nat) (v : RSlot) : Ring := { r with slots := r.slots.set i v }
def Ring.setCursor (r : Ring) (p : Nat) (v : Cursor) : Ring := { r with cursors := r.cursors.set p v }

def Ring.of (bs : List Byte) : Ring where
  word0 := fieldAt bs 0 4
  free := fieldAt bs 4 2
  fulln := fieldAt bs 6 2
  pi := fieldAt bs 8 4 % 16
  slots := (List.range 16).map fun i => let w := fieldAt bs (0x10 + 4 * i) 4; ⟨(w >>> 22) % 64, w.testBit 21, w % 2 ^ 21⟩
  cursors := (List.range 24).map fun p => let w := fieldAt bs (0x50 + 2 * p) 2; ⟨(w >>> 8) % 32, (w >>> 4) % 16, w % 16⟩
def Ring.bytes (r : Ring) : List Byte :=
  bytesOf 4 r.word0 ++ bytesOf 2 r.free ++ bytesOf 2 r.fulln ++ bytesOf 4 r.pi ++ bytesOf 4 (0xC2 * 2 ^ 24) ++
    ((List.range 16).flatMap fun i => let v := r.slot i; bytesOf 4 (v.rel * 2 ^ 22 + (if v.full then 2 ^ 21 else 0) + v.landed)) ++
    ((List.range 24).flatMap fun p => let c := r.cursor p; bytesOf 2 (c.out * 2 ^ 8 + c.fc * 16 + c.tc))

/-- The ring at an address, if a live one stands there. -/
def State.ring (s : State) (d : DieId) (gid : Nat) (a : Slot) : Option Ring :=
  if s.lineLive d gid a.space a.addr && fieldAt (s.readLocal d gid 0 a.space a.addr 16) 15 1 == 0xC2 && a.addr % 128 == 0 then
    some (Ring.of (s.readLocal d gid 0 a.space a.addr 128))
  else none
/-- A line of the object's record is in error: of its first line, of a ring's eight, of a slot's bitmap (R310). -/
def State.badObject (s : State) (d : DieId) (gid : Nat) (a : Slot) : Bool :=
  let bad := fun (at_ n : Nat) => s.badLocalAt d gid 0 a.space at_ n
  bad a.addr 16 || ((s.ring d gid a).isSome && bad a.addr 128) || (match s.bslot d gid a with
    | some b => b.bm && bad (b.bitmapAt a) 16
    | none => false)
/-- The ring that a bound object names, if it is one. -/
def State.ringAt (s : State) (d : DieId) (gid : Nat) (obj : Word) : Option (Slot × Ring) :=
  match s.slotAddr d gid obj 16 with
  | .fault _ _ => none
  | .ok a => (s.ring d gid a).map fun r => (a, r)
/-- A command whose bound object is a ring record, or none, with the slot that it lands in, if it holds one (R68, R137). -/
def Cmd.onRing (q : Cmd) (r : Option Ring) (slot : Option Nat) : Cmd :=
  { q with ring := r.isSome, slot := slot, shift := match r, slot with | some r, some i => i * r.size | _, _ => 0 }
def State.putRing (s : State) (d : DieId) (gid : Nat) (a : Slot) (r : Ring) : State :=
  s.writeLocal d gid 0 a.space a.addr r.bytes

def Ring.markFull (r : Ring) (i : Nat) : Ring :=
  { r.setSlot i { r.slot i with full := true } with fulln := r.fulln + 1 }
/-- Reserves a slot: the ring afterwards and the slot, or nothing while none is free (R139). -/
def Ring.take (r : Ring) : Option (Ring × Nat) :=
  if r.free = 0 then none else some ({ r with free := r.free - 1, pi := (r.pi + 1) % r.n }, r.pi)
/-- A credit of `b` bytes on slot `i` (R139). -/
def Ring.credit (r : Ring) (i b : Nat) : Option Ring :=
  let v := r.slot i
  if v.full ∨ v.landed + b > r.size then none
  else
    let r := r.setSlot i { v with landed := v.landed + b }
    some (if v.landed + b = r.size then r.markFull i else r)
/-- A consumer position takes the next slot (R139): BARUSE, a wait, or the slot. -/
inductive RTake where
  | bad | wait | got (r : Ring) (i : Nat)
def Ring.consTake (r : Ring) (p : Nat) : RTake :=
  let c := r.cursor p
  if p ≥ r.cons ∨ c.out = r.n then .bad
  else if !(r.slot c.tc).full then .wait
  else .got (r.setCursor p { c with tc := (c.tc + 1) % r.n, out := c.out + 1 }) c.tc
/-- A consumer position frees its oldest slot (R139). -/
def Ring.consFree (r : Ring) (p : Nat) : Option Ring :=
  let c := r.cursor p
  if p ≥ r.cons ∨ c.out = 0 then none
  else
    let i := c.fc
    let v := r.slot i
    let r := r.setCursor p { c with fc := (c.fc + 1) % r.n, out := c.out - 1 }
    some (if v.rel + 1 = r.cons then { r.setSlot i ⟨0, false, 0⟩ with fulln := r.fulln - 1, free := r.free + 1 }
      else r.setSlot i { v with rel := v.rel + 1 })

/-! ## Credits of landings (R68, R103) -/

/-- A local carder address (R61). -/
def localCaddr (space a : Nat) : DWord := BitVec.ofNat 64 (2 ^ 63 + space * 2 ^ 48 + a)
/-- Credits `n` landed bytes on the object at slot address `obj` of a group; `slot`: the ring slot they landed in. A credit that fails names the
object by its carder address (R83). -/
def State.credit (s : State) (d : DieId) (gid : Nat) (obj : Word) (slot : Option Nat) (n : Nat) : Acc State :=
  let fa := localCaddr (field obj 31 31) (field obj 25 4 * 16)
  if obj = 0 then .ok s
  else match s.slotAddr d gid obj 16 with
    | .fault c _ => .fault c fa
    | .ok a =>
      let orBad := fun (r : Option State) => match r with
        | some s => Acc.ok s
        | none => .fault Cause.baruse fa
      if s.badObject d gid a then .fault Cause.ecc fa
      else match s.ring d gid a with
        | some r => orBad ((slot.bind fun i => r.credit i n).map fun r => s.putRing d gid a r)
        | none => orBad (s.creditSlot d gid a n)

/-! ## What a release waits for (R120, R247, R300) -/

/-- The bound regions of an object, as the groups of the die know them: the regions of records used with it, what sessions have landed with a credit on
it, and bindings, in force from the cycle after their BIND on (R299). A region that an acquirer makes bound only after the release is the concern of
`State.lateClash`. -/
def State.boundRegions (s : State) (d : DieId) (gid : Nat) (obj : Word) : List Region :=
  let Gs := if obj.getLsbD 31 then (s.die d).active.groups else (s.group d gid).toList
  Gs.flatMap fun G =>
    (G.used.filterMap fun u => if u.obj == obj then some ⟨false, u.space, u.base, u.base + u.extent⟩ else none) ++
    (((s.snapGroup d G.gid).getD G).binds.filterMap fun b =>
      if b.obj == obj then match CAddr.of b.addr with
        | some (.main va) => some ⟨false, none, va.toNat, va.toNat + b.len⟩
        | some (.loc sp a) => some ⟨false, some sp, a, a + b.len⟩
        | none => none
      else none)

/-- The object that a command credits. -/
def Cmd.object (q : Cmd) : Word := if q.kind = .crun then 0 else q.bufRec.bound
/-- The command credits the object, or, a carder program, may be about to: its record does not say (log 41). -/
def State.credits (s : State) (q : Cmd) (obj : Word) : Bool := q.object == obj || (q.kind == .crun && s.hit q.id)

/-- Queued tile words of the thread that read or write local memory. -/
def State.tileWrites (s : State) (d : DieId) (gid : Nat) (xs : List Nat) : List TileCmd :=
  (s.die d).active.tileq.filter fun q =>
    q.gid == gid && (q.kind == .tld || q.kind == .tst || q.kind == .tdrain) && q.xs.any xs.contains
/-- Requests of the thread that write main memory and are not yet performed. -/
def State.pendingWrites (s : State) (d : DieId) (gid : Nat) (xs : List Nat) : List SyncReq :=
  (s.reqsOf d gid xs).filter fun r => r.reply.isNone && (match r.op with | .load | .push | .pop | .len | .emit => false | _ => true)

/-- A release on a live slot or ring may be performed (R120, R206): the thread's tile words on local memory are done, and its GLDs, whose reads
the release orders (R295), and its commands, SST and atomics that write the bound regions have landed. -/
def State.boundReady (s : State) (d : DieId) (gid : Nat) (xs : List Nat) (obj : Word) : Bool :=
  let rs := s.boundRegions d gid obj
  (s.tileWrites d gid xs).isEmpty && (s.gldsOf d gid xs).isEmpty &&
  ((s.cmdsOf d gid xs).all fun q => s.credits q obj || !(q.footprint.any fun f => f.wr && rs.any f.overlaps)) &&
  ((s.pendingWrites d gid xs).all fun r => !(rs.any fun t => t.overlaps ⟨true, none, r.va.toNat, r.va.toNat + r.width⟩))

/-- A full release may be performed (R247, R300): every atomic and SST is performed, every GLD has its data, every command has landed, every OFFER is
read out, every tile word that reads or writes memory, or sends a result, has left the engine. -/
def State.fullReady (s : State) (d : DieId) (gid : Nat) (xs : List Nat) : Bool :=
  (s.tileWrites d gid xs).isEmpty && (s.gldsOf d gid xs).isEmpty && (s.tileWords d gid xs).isEmpty && (s.cmdsOf d gid xs).isEmpty &&
  ((s.reqsOf d gid xs).all (·.reply.isSome)) &&
  ((s.die d).active.offers.all fun o => !(o.gid == gid && o.xs.any xs.contains))

/-- An acquire fence may be performed (R298, R300): the thread's earlier reads, on every path, have been made, those of its carder programs too
(R293). -/
def State.readsDone (s : State) (d : DieId) (gid : Nat) (xs : List Nat) : Bool :=
  (s.tileWrites d gid xs).isEmpty && (s.gldsOf d gid xs).isEmpty && (s.cmdsOf d gid xs).isEmpty && ((s.reqsOf d gid xs).all (·.reply.isSome)) &&
  ((s.die d).active.offers.all fun o => !(o.gid == gid && o.xs.any xs.contains))

/-! ## Writes that an object comes to cover after its release (R120, R295)

A release cannot wait for a write into a region that only an acquirer binds to the object later: by the first use of a record, by BIND, or as the
footprint of a tile word. The write is noted, and once the acquirer has acquired the object, its access to the written bytes is held until the
write is complete. -/

/-- Commands and requests of a thread that have still to write, with their numbers, but those that credit the object themselves. -/
def State.unwritten (s : State) (d : DieId) (gid : Nat) (xs : List Nat) (obj : Word) : List Nat :=
  (((s.cmdsOf d gid xs).filter fun q => q.object != obj).map (·.id)) ++ (s.pendingWrites d gid xs).map (·.id)
/-- The bytes that command or request `id` has still to write, as group `gid` sees them; a command that has no ring slot yet writes into none. -/
def State.toWrite (s : State) (d : DieId) (gid id : Nat) : List Region :=
  (((s.cmds d).filter (·.id == id)).flatMap fun q => q.footprint.filter fun f =>
    f.wr && !(f.space.isSome && q.ring && q.slot.isNone) && (f.space != some spShared || q.gid == gid)) ++
  (s.reqs.filter fun r => r.id == id && r.reply.isNone).map fun r => ⟨true, none, r.va.toNat, r.va.toNat + r.width⟩
/-- The write has not been completed. -/
def State.stillLate (s : State) (d : DieId) (e : LateWrite) : Bool := (s.cmds d).any (·.id == e.id) || s.reqs.any fun r => r.id == e.id && r.reply.isNone
/-- A release on an object passes the writes `ids`. -/
def State.noteRelease (s : State) (d : DieId) (gid : Nat) (obj : Word) (ids : List Nat) : State :=
  if ids.isEmpty then s
  else s.modBank d fun B => { B with late := B.late.filter (s.stillLate d) ++ ids.map fun i => { obj := obj, gid := gid, id := i } }
/-- A group acquires an object: its later accesses come after what the releases on it cover (R295). -/
def State.noteAcquire (s : State) (d : DieId) (gid : Nat) (obj : Word) : State :=
  if (s.die d).active.late.isEmpty then s
  else s.modBank d fun B => { B with late := B.late.map fun e =>
    if e.obj == obj && (obj.getLsbD 31 || e.gid == gid) && !e.seen.contains gid then { e with seen := gid :: e.seen } else e }
/-- An access of a group to the bytes of region `f`, through a record bound to `obj` or by a tile word, meets a write that the group has acquired and
that was queued before number `before`: it is held until the write is complete. -/
def State.lateClash (s : State) (d : DieId) (gid : Nat) (obj : Word) (tile : Bool) (before : Nat) (f : Region) : Bool :=
  (s.die d).active.late.any fun e => e.seen.contains gid && decide (e.id < before) && (s.toWrite d gid e.id).any fun t => t.overlaps f &&
    (tile || (obj != 0 && e.obj == obj) || (s.boundRegions d gid e.obj).any t.overlaps)
/-- The same for `n` bytes of main memory. -/
def State.lateMain (s : State) (d : DieId) (gid : Nat) (va : DWord) (n : Nat) : Bool :=
  s.lateClash d gid 0 false s.nextId ⟨false, none, va.toNat, va.toNat + n⟩

end Sys2Proof.Machine
end

