-- ==== Sys2Proof/Machine/TileShape.lean ====
section
/-! DEFINITION. Shapes of tile registers (R163, R201), the rows a tile word moves (R208, R215), and the order of tile words with the
thread's own accesses (R206). -/
namespace Sys2Proof.Machine

/-- A shape register (R163): rows and columns as counts. -/
structure Shape where
  fmt  : Nat
  rows : Nat
  cols : Nat
  /-- a reserved bit is set -/
  bad  : Bool
  deriving DecidableEq, Repr

def Shape.of (v : Word) : Shape := ⟨field v 7 0, field v 13 8 + 1, field v 21 14 + 1, field v 31 22 != 0⟩

/-- Unit alignment and row bytes (R201). -/
def unitAlign (f : Nat) : Nat :=
  if f = 1 ∨ f = 0x0B then 4 else if f = 2 ∨ f = 3 ∨ f = 6 then 2 else if f = 7 then 4 else if f = 8 then 8 else 1
def rowBytes (f c : Nat) : Nat :=
  if f = 1 ∨ f = 0x0B then 4 * c else if f = 2 ∨ f = 3 then 2 * c else if f = 0x0A then c / 2
  else match blockP f with
    | some _ => unitBytes f * (c / 16)
    | none => c
/-- The fault of a shape (R201). -/
def Shape.fault (S : Shape) : Option Cause :=
  if S.bad || !fmtValid S.fmt then some Cause.fmt
  else if S.fmt = 0x0A ∧ S.cols % 2 ≠ 0 then some Cause.size
  else if (blockP S.fmt).isSome ∧ S.cols % 16 ≠ 0 then some Cause.size
  else if S.rows * rowBytes S.fmt S.cols > 16384 then some Cause.size
  else none

/-- A row of memory that a tile word moves: its number, its offset after wrapping, its length. -/
structure MRow where
  row : Nat
  off : Nat
  len : Nat
  deriving DecidableEq, Repr

/-- Rows of a lane set, below `r` (R202). -/
def laneRows (lanes : Word) (r : Nat) : List Nat := (List.range r).filter fun i => lanes.getLsbD (i / 2)

/-- The memory rows at offset `ga` (R208): `n` rows of `len` bytes. -/
def memRow (B : BufRec) (ga d len : Nat) (j : Nat) : MRow :=
  let o := ga + j * d
  ⟨j, if B.mode = 3 ∧ B.extent ≠ 0 then o % B.extent else o, len⟩

/-- What a tile word moves to or from local memory, from its captured shape, record and offset. -/
def TileCmd.memRows (q : TileCmd) : List MRow :=
  let S := Shape.of q.sd
  let B := BufRec.of q.buf
  match q.kind with
  | .tld | .tst =>
    let (n, len) := if q.tr then (S.cols, S.rows * unitBytes S.fmt) else (S.rows, rowBytes S.fmt S.cols)
    (List.range n).map (memRow B q.off.toNat (if B.stride0 = 0 then len else B.stride0) len)
  | .tdrain =>
    let len := rowBytes q.ofmt S.cols
    (laneRows q.lanes S.rows).map (memRow B q.off.toNat (if B.stride0 = 0 then len else B.stride0) len)
  | _ => []

/-- The check of one memory row (R208): a cause and the local address. -/
def State.rowFault (s : State) (d : DieId) (gid : Nat) (B : BufRec) (align : Nat) (r : MRow) : Option Cause :=
  if (B.mode = 0 ∨ B.mode = 1) ∧ r.off + r.len > B.extent then some Cause.bounds
  else if B.mode = 3 ∧ (B.extent = 0 ∨ r.off + r.len > B.extent) then some Cause.bounds
  else if !s.inSpace d gid B.space (B.base + r.off) r.len then some Cause.bounds
  else if (B.base + r.off) % align ≠ 0 then some Cause.align
  else if s.touchesLive d gid B.space (B.base + r.off) r.len then some Cause.baruse
  else none

/-- A row's bytes that lie in the record: zero-fill cuts them at EXTENT. -/
def MRow.cut (r : MRow) (B : BufRec) : Nat := if B.mode = 2 then min r.len (B.extent - r.off) else r.len

/-- The word of queue entry `q` touches the bytes `a` to `a + n - 1` of a space. -/
def TileCmd.touches (q : TileCmd) (space a n : Nat) : Bool :=
  let B := BufRec.of q.buf
  B.space == space && (q.memRows).any fun r => decide (B.base + r.off < a + n ∧ a < B.base + r.off + r.cut B)

/-- An access of a thread is held (R206): an earlier TST or TDRAIN writes the bytes, or the access writes bytes that an earlier TLD
reads. -/
def State.tileClash (s : State) (w : Who) (space a n : Nat) (write : Bool) : Bool :=
  (s.die w.d).active.tileq.any fun q => q.gid == w.gid && q.xs.any w.xs.contains &&
    (q.kind == .tst || q.kind == .tdrain || (write && q.kind == .tld)) && q.touches space a n
/-- An access of `n` local bytes at `a` is held behind the thread's tile words (R206), or behind a write that an acquire has made its group wait for
(R120). -/
def State.byteHeld (s : State) (w : Who) (B : BufRec) (a n : Nat) (write : Bool) : Bool :=
  s.tileClash w B.space a n write || s.lateClash w.d w.gid B.bound false s.nextId ⟨write, some B.space, a, a + n⟩

end Sys2Proof.Machine
end

