-- ==== Sys2Proof/Machine/Flags.lean ====
section
/-! DEFINITION. The part has no flags (R154): comparisons write 0 or 1. Here stand the conditions of R30 over integers, and the
integer arithmetic of R154 to R157 and R57, for values of any width. -/
namespace Sys2Proof.Machine

/-- The integer conditions (R30). -/
def ICond.holds {n : Nat} (c : Sys2Proof.ICond) (a b : BitVec n) : Bool :=
  match c with
  | .eq => a == b
  | .ne => a != b
  | .ltI => decide (a.toInt < b.toInt)
  | .leI => decide (a.toInt ≤ b.toInt)
  | .ltN => decide (a.toNat < b.toNat)
  | .leN => decide (a.toNat ≤ b.toNat)

/-- 1 or 0. -/
def bit (n : Nat) (b : Bool) : BitVec n := if b then 1 else 0

/-- The nearest signed and the nearest unsigned value. -/
def clampI (n : Nat) (v : Int) : BitVec n :=
  if v < -(2 ^ (n - 1) : Nat) then BitVec.intMin n else if v > (2 ^ (n - 1) : Nat) - 1 then BitVec.intMax n else BitVec.ofInt n v
def clampN (n : Nat) (v : Int) : BitVec n :=
  if v < 0 then 0 else if v > (2 ^ n : Nat) - 1 then BitVec.allOnes n else BitVec.ofInt n v

def absOf {n : Nat} (a : BitVec n) : BitVec n := if a.toInt < 0 then -a else a
/-- The upper half of the signed and of the unsigned product. -/
def mulhI {n : Nat} (a b : BitVec n) : BitVec n := BitVec.ofInt n ((a.toInt * b.toInt) >>> n)
def mulhN {n : Nat} (a b : BitVec n) : BitVec n := BitVec.ofNat n ((a.toNat * b.toNat) >>> n)
def minI {n : Nat} (a b : BitVec n) : BitVec n := if a.toInt ≤ b.toInt then a else b
def maxI {n : Nat} (a b : BitVec n) : BitVec n := if a.toInt ≤ b.toInt then b else a
def minN {n : Nat} (a b : BitVec n) : BitVec n := if a.toNat ≤ b.toNat then a else b
def maxN {n : Nat} (a b : BitVec n) : BitVec n := if a.toNat ≤ b.toNat then b else a

/-- Shifts by an amount read unsigned (R155). -/
def shlBy {n : Nat} (a b : BitVec n) : BitVec n := if b.toNat < n then a <<< b.toNat else 0
def shrBy {n : Nat} (a b : BitVec n) : BitVec n := if b.toNat < n then a >>> b.toNat else 0
def sarBy {n : Nat} (a b : BitVec n) : BitVec n :=
  if b.toNat < n then a.sshiftRight b.toNat else if a.msb then BitVec.allOnes n else 0
/-- Rotation by the low bits of the amount. -/
def rolBy {n : Nat} (a b : BitVec n) : BitVec n := a.rotateLeft (b.toNat % n)

/-- Position and width of a bit field: bits [4:0] and [13:8] of the operand, on a carder [5:0] and [14:8] (R155, R57). -/
def bfPos {n : Nat} (b : BitVec n) : Nat := b.toNat % n
def bfWidth {n : Nat} (b : BitVec n) : Nat := min (field b (if n = 32 then 13 else 14) 8) (n - bfPos b)
def bfxN {n : Nat} (a b : BitVec n) : BitVec n := BitVec.ofNat n ((a.toNat >>> bfPos b) % 2 ^ bfWidth b)
def bfxI {n : Nat} (a b : BitVec n) : BitVec n := ((a >>> bfPos b).setWidth (bfWidth b)).signExtend n
def bfiOf {n : Nat} (d a b : BitVec n) : BitVec n :=
  let m : BitVec n := BitVec.ofNat n ((2 ^ bfWidth b - 1) <<< bfPos b)
  (d &&& ~~~m) ||| ((a <<< bfPos b) &&& m)

def popcOf {n : Nat} (a : BitVec n) : BitVec n := BitVec.ofNat n ((List.range n).countP a.getLsbD)
def clzOf {n : Nat} (a : BitVec n) : BitVec n := BitVec.ofNat n (if a = 0 then n else n - 1 - Nat.log2 a.toNat)
def ctzOf {n : Nat} (a : BitVec n) : BitVec n := BitVec.ofNat n (((List.range n).find? a.getLsbD).getD n)
def brevOf {n : Nat} (a : BitVec n) : BitVec n := a.reverse

/-- Quotient and remainder of the deprecated words (R356). -/
def divI (a b : Word) : Word := if b = 0 then -1 else if a = BitVec.intMin 32 ∧ b = -1 then a else BitVec.ofInt 32 (a.toInt.tdiv b.toInt)
def remI (a b : Word) : Word := if b = 0 then a else if a = BitVec.intMin 32 ∧ b = -1 then 0 else BitVec.ofInt 32 (a.toInt.tmod b.toInt)
def divN (a b : Word) : Word := if b = 0 then -1 else a / b
def remN (a b : Word) : Word := if b = 0 then a else a % b

/-- The integer operators of reductions and atomics (R197, R241). -/
def RedOp.apply {n : Nat} (o : Sys2Proof.RedOp) (a b : BitVec n) : BitVec n :=
  match o with
  | .add => a + b
  | .minI => minI a b
  | .maxI => maxI a b
  | .minN => minN a b
  | .maxN => maxN a b
  | .and => a &&& b
  | .or => a ||| b
  | .xor => a ^^^ b
def RedOp.identity (o : Sys2Proof.RedOp) : Word :=
  match o with
  | .minI => 0x7FFFFFFF
  | .maxI => 0x80000000
  | .minN | .and => 0xFFFFFFFF
  | .add | .maxN | .or | .xor => 0

end Sys2Proof.Machine
end

