-- ==== Sys2Proof/Machine/Integer.lean ====
section
/-! DEFINITION. The integer words (R145, R154 to R157, R356) on lanes, in hoods (forms), and on carders (R57). -/
namespace Sys2Proof.Machine

/-! ## Shapes: one, two and three sources -/

/-- Form rules: what a hood's sources make of the destination, or nothing where the range expands (R145, R146). -/
def formU1 (f : Word → Word) (a : Form) : Option Form := if a.uniform then some (uni (f a.base)) else none
def formU2 (f : Word → Word → Word) (a b : Form) : Option Form := if a.uniform && b.uniform then some (uni (f a.base b.base)) else none
def formU3 (f : Word → Word → Word → Word) (c a b : Form) : Option Form :=
  if c.uniform && a.uniform && b.uniform then some (uni (f c.base a.base b.base)) else none

/-- A hood's new form of `d`, or an expansion. -/
def formEff (s : State) (w : Who) (d : Reg) : Option Form → Eff
  | some f => .ok (s.setForm w d.toNat f) none
  | none => .expand

/-- A word with sources ga, ga and gb, or gd, ga and gb: its form rule, and its function of each lane's values. -/
def word1 (d a : Reg) (rule : Form → Option Form) (f : Word → Word) (w : Who) (s : State) : Eff :=
  match w.hood with
  | some _ => formEff s w d (rule (s.form w a.toNat))
  | none => .ok (s.setLanes w w.xs d.toNat fun x => f (s.g w x a.toNat)) none
def word2 (d a b : Reg) (rule : Form → Form → Option Form) (f : Word → Word → Word) (w : Who) (s : State) : Eff :=
  match w.hood with
  | some _ => formEff s w d (rule (s.form w a.toNat) (s.form w b.toNat))
  | none => .ok (s.setLanes w w.xs d.toNat fun x => f (s.g w x a.toNat) (s.g w x b.toNat)) none
def word3 (d a b : Reg) (rule : Form → Form → Form → Option Form) (f : Word → Word → Word → Word) (w : Who) (s : State) : Eff :=
  match w.hood with
  | some _ => formEff s w d (rule (s.form w d.toNat) (s.form w a.toNat) (s.form w b.toNat))
  | none => .ok (s.setLanes w w.xs d.toNat fun x => f (s.g w x d.toNat) (s.g w x a.toNat) (s.g w x b.toNat)) none

/-- The same on a carder. -/
def Carder.reg (c : Carder) (n : Reg) : DWord := vget c.c n.toNat 0
def Carder.set (c : Carder) (n : Reg) (v : DWord) : Carder := { c with c := vput c.c n.toNat v }
def cword1 (d a : Reg) (f : DWord → DWord) (_ : DieId) (_ : Nat) (c : Carder) (_ : List Hint) (s : State) : CEff :=
  .ok (c.set d (f (c.reg a))) s
def cword2 (d a b : Reg) (f : DWord → DWord → DWord) (_ : DieId) (_ : Nat) (c : Carder) (_ : List Hint) (s : State) : CEff :=
  .ok (c.set d (f (c.reg a) (c.reg b))) s
def cword3 (d a b : Reg) (f : DWord → DWord → DWord → DWord) (_ : DieId) (_ : Nat) (c : Carder) (_ : List Hint) (s : State) : CEff :=
  .ok (c.set d (f (c.reg d) (c.reg a) (c.reg b))) s

/-- Words whose hood rule is R146: they are done once when every source is UNIFORM. -/
def int1 (i : Instr) (d a : Reg) (f : {n : Nat} → BitVec n → BitVec n) : State → Res :=
  sharedWord i (word1 d a (formU1 f) f) (cword1 d a f)
def int2 (i : Instr) (d a b : Reg) (f : {n : Nat} → BitVec n → BitVec n → BitVec n) : State → Res :=
  sharedWord i (word2 d a b (formU2 f) f) (cword2 d a b f)
def int3 (i : Instr) (d a b : Reg) (f : {n : Nat} → BitVec n → BitVec n → BitVec n → BitVec n) : State → Res :=
  sharedWord i (word3 d a b (formU3 f) f) (cword3 d a b f)
/-- The same, for words that carders do not have. -/
def lane1 (i : Instr) (d a : Reg) (f : Word → Word) : State → Res := threadWord i (word1 d a (formU1 f) f)
def lane2 (i : Instr) (d a b : Reg) (f : Word → Word → Word) : State → Res := threadWord i (word2 d a b (formU2 f) f)
def lane3 (i : Instr) (d a b : Reg) (f : Word → Word → Word → Word) : State → Res := threadWord i (word3 d a b (formU3 f) f)

/-! ## Form rules of R145 -/

def sumForm (a b : Form) : Option Form := some ⟨a.base + b.base, a.stride + b.stride⟩
def diffForm (a b : Form) : Option Form := some ⟨a.base - b.base, a.stride - b.stride⟩
def negForm (a : Form) : Option Form := some ⟨-a.base, -a.stride⟩
def notForm (a : Form) : Option Form := some ⟨~~~a.base, -a.stride⟩
def mulForm (a b : Form) : Option Form :=
  if b.uniform then some ⟨a.base * b.base, a.stride * b.base⟩
  else if a.uniform then some ⟨b.base * a.base, b.stride * a.base⟩
  else none
def madForm (c a b : Form) : Option Form := (mulForm a b).bind (sumForm c)
def shlForm (a b : Form) : Option Form := if b.uniform then some ⟨shlBy a.base b.base, shlBy a.stride b.base⟩ else none

/-! ## The immediate of R157, R26 and R57 -/

/-- Bits [31:13] of the immediate come from a HINT.IMMHI, else from the sign. -/
def immOf (hs : List Hint) (imm : BitVec 13) : Word :=
  match immhiOf hs with
  | some hi => hi ++ imm
  | none => imm.signExtend 32
def immWord (d a : Reg) (imm : BitVec 13) (rule : Word → Form → Option Form) (f : Word → Word → Word) (w : Who) (s : State) : Eff :=
  word1 d a (rule (immOf w.hints imm)) (fun x => f x (immOf w.hints imm)) w s
def cimmWord (d a : Reg) (imm : BitVec 13) (f : DWord → DWord → DWord) (_ : DieId) (_ : Nat) (c : Carder) (hs : List Hint) (s : State) : CEff :=
  .ok (c.set d (f (c.reg a) ((immOf hs imm).signExtend 64))) s

/-! ## Comparison and selection (R147, R156) -/

/-- The condition set of a hood: the indices of its range for which `p` holds. -/
def condSet (w : Who) (p : Nat → Bool) : List Nat := w.xs.filter p
/-- Decides a condition set in a hood: once, or by a split or an expansion (R147). -/
def byCond (w : Who) (p : Nat → Bool) (once : Bool → Eff) : Eff :=
  match condCase (w.xs.headD 0) (w.xs.headD 0 + w.xs.length) (condSet w p) with
  | .once b => once b
  | _ => .cond (condSet w p)

def icmpBody (c : ICond) (d a b : Reg) (w : Who) (s : State) : Eff :=
  match w.hood with
  | some _ => byCond w (fun x => ICond.holds c (s.g w x a.toNat) (s.g w x b.toNat)) fun t => .ok (s.setForm w d.toNat (uni (bit 32 t))) none
  | none => .ok (s.setLanes w w.xs d.toNat fun x => bit 32 (ICond.holds c (s.g w x a.toNat) (s.g w x b.toNat))) none
def selBody (d a b : Reg) (w : Who) (s : State) : Eff :=
  match w.hood with
  | some _ => byCond w (fun x => (s.g w x d.toNat).getLsbD 0) fun t => .ok (s.setForm w d.toNat (s.form w (if t then a else b).toNat)) none
  | none => .ok (s.setLanes w w.xs d.toNat fun x => if (s.g w x d.toNat).getLsbD 0 then s.g w x a.toNat else s.g w x b.toNat) none
def movkBody (d : Reg) (k : KReg) (w : Who) (s : State) : Eff := .ok (s.setUni w d.toNat (s.k w k.toNat)) none

/-! ## The words -/

def execIadd (d a b : Reg) : State → Res := sharedWord (.iadd d a b) (word2 d a b sumForm (· + ·)) (cword2 d a b (· + ·))
def execIsub (d a b : Reg) : State → Res := sharedWord (.isub d a b) (word2 d a b diffForm (· - ·)) (cword2 d a b (· - ·))
def execIaddSatI32 (d a b : Reg) : State → Res := int2 (.iaddSatI32 d a b) d a b fun x y => clampI _ (x.toInt + y.toInt)
def execIsubSatI32 (d a b : Reg) : State → Res := int2 (.isubSatI32 d a b) d a b fun x y => clampI _ (x.toInt - y.toInt)
def execIaddSatN32 (d a b : Reg) : State → Res := int2 (.iaddSatN32 d a b) d a b fun x y => clampN _ (x.toNat + y.toNat : Int)
def execIsubSatN32 (d a b : Reg) : State → Res := int2 (.isubSatN32 d a b) d a b fun x y => clampN _ (x.toNat - y.toNat : Int)
def execIabs (d a : Reg) : State → Res := int1 (.iabs d a) d a absOf
def execIneg (d a : Reg) : State → Res := sharedWord (.ineg d a) (word1 d a negForm (- ·)) (cword1 d a (- ·))
def execImul (d a b : Reg) (la : La) : State → Res :=
  sharedWord (.imul d a b la) (word2 d a b mulForm (· * ·)) (cword2 d a b (· * ·))
def execImulhI32 (d a b : Reg) (la : La) : State → Res := int2 (.imulhI32 d a b la) d a b mulhI
def execImulhN32 (d a b : Reg) (la : La) : State → Res := int2 (.imulhN32 d a b la) d a b mulhN
def execImad (d a b : Reg) (la : La) : State → Res :=
  sharedWord (.imad d a b la) (word3 d a b madForm fun c x y => c + x * y) (cword3 d a b fun c x y => c + x * y)
def execIminI32 (d a b : Reg) : State → Res := int2 (.iminI32 d a b) d a b minI
def execIminN32 (d a b : Reg) : State → Res := int2 (.iminN32 d a b) d a b minN
def execImaxI32 (d a b : Reg) : State → Res := int2 (.imaxI32 d a b) d a b maxI
def execImaxN32 (d a b : Reg) : State → Res := int2 (.imaxN32 d a b) d a b maxN
def execAnd (d a b : Reg) : State → Res := int2 (.and d a b) d a b fun x y => x &&& y
def execOr (d a b : Reg) : State → Res := int2 (.or d a b) d a b fun x y => x ||| y
def execXor (d a b : Reg) : State → Res := int2 (.xor d a b) d a b fun x y => x ^^^ y
def execAndn (d a b : Reg) : State → Res := int2 (.andn d a b) d a b fun x y => x &&& ~~~y
def execNot (d a : Reg) : State → Res := sharedWord (.not d a) (word1 d a notForm (~~~ ·)) (cword1 d a (~~~ ·))
def execShl (d a b : Reg) : State → Res := sharedWord (.shl d a b) (word2 d a b shlForm shlBy) (cword2 d a b shlBy)
def execShr (d a b : Reg) : State → Res := int2 (.shr d a b) d a b shrBy
def execSar (d a b : Reg) : State → Res := int2 (.sar d a b) d a b sarBy
def execRol (d a b : Reg) : State → Res := int2 (.rol d a b) d a b rolBy
def execBfxI32 (d a b : Reg) : State → Res := int2 (.bfxI32 d a b) d a b bfxI
def execBfxN32 (d a b : Reg) : State → Res := int2 (.bfxN32 d a b) d a b bfxN
def execBfi (d a b : Reg) : State → Res := int3 (.bfi d a b) d a b bfiOf
def execPopc (d a : Reg) : State → Res := int1 (.popc d a) d a popcOf
def execClz (d a : Reg) : State → Res := int1 (.clz d a) d a clzOf
def execCtz (d a : Reg) : State → Res := int1 (.ctz d a) d a ctzOf
def execBrev (d a : Reg) : State → Res := int1 (.brev d a) d a brevOf
def execIcmp (c : ICond) (d a b : Reg) : State → Res :=
  sharedWord (.icmp c d a b) (icmpBody c d a b) (cword2 d a b fun x y => bit 64 (ICond.holds c x y))
def execSel (d a b : Reg) : State → Res :=
  sharedWord (.sel d a b) (selBody d a b) (cword3 d a b fun c x y => if c.getLsbD 0 then x else y)
def execMov (d a : Reg) : State → Res := sharedWord (.mov d a) (word1 d a some id) (cword1 d a id)
def execMovk (d : Reg) (k : KReg) : State → Res := threadWord (.movk d k) (movkBody d k)
def execIdivI32 (d a b : Reg) (la : La) : State → Res := lane2 (.idivI32 d a b la) d a b divI
def execIdivN32 (d a b : Reg) (la : La) : State → Res := lane2 (.idivN32 d a b la) d a b divN
def execIremI32 (d a b : Reg) (la : La) : State → Res := lane2 (.iremI32 d a b la) d a b remI
def execIremN32 (d a b : Reg) (la : La) : State → Res := lane2 (.iremN32 d a b la) d a b remN
def execMovi (d : Reg) (imm : BitVec 13) : State → Res :=
  sharedWord (.movi d imm) (immWord d d imm (fun v _ => some (uni v)) fun _ v => v) (cimmWord d d imm fun _ v => v)
def execAddi (d a : Reg) (imm : BitVec 13) : State → Res :=
  sharedWord (.addi d a imm) (immWord d a imm (fun v f => sumForm f (uni v)) (· + ·)) (cimmWord d a imm (· + ·))
def execAndi (d a : Reg) (imm : BitVec 13) : State → Res :=
  sharedWord (.andi d a imm) (immWord d a imm (fun v => formU1 (· &&& v)) (· &&& ·)) (cimmWord d a imm (· &&& ·))
def execOri (d a : Reg) (imm : BitVec 13) : State → Res :=
  sharedWord (.ori d a imm) (immWord d a imm (fun v => formU1 (· ||| v)) (· ||| ·)) (cimmWord d a imm (· ||| ·))
def execXori (d a : Reg) (imm : BitVec 13) : State → Res :=
  sharedWord (.xori d a imm) (immWord d a imm (fun v => formU1 (· ^^^ v)) (· ^^^ ·)) (cimmWord d a imm (· ^^^ ·))
def execShli (d a : Reg) (imm : BitVec 5) : State → Res :=
  sharedWord (.shli d a imm) (word1 d a (fun f => shlForm f (uni (imm.setWidth 32))) (· <<< imm.toNat)) (cword1 d a (· <<< imm.toNat))

end Sys2Proof.Machine
end

