-- ==== Sys2Proof/Machine/Uniform.lean ====
section
/-! DEFINITION. The uniform words (R158 to R160; on a carder R57), KLD and KST (R159, R206), the special registers (R161, R162) and MOVTS
(R163). -/
namespace Sys2Proof.Machine

/-- A uniform word: once per issuing thread, from the values of the cycle's start (R160). -/
def kword (k b : KReg) (f : Word → Word → Word) (w : Who) (s : State) : Eff :=
  .ok (s.setK w k.toNat (f (s.k w k.toNat) (s.k w b.toNat))) none
/-- On a carder K and KB name c registers (R36). -/
def Carder.kreg (c : Carder) (n : KReg) : DWord := vget c.c n.toNat 0
def Carder.kset (c : Carder) (n : KReg) (v : DWord) : Carder := { c with c := vput c.c n.toNat v }
def ckword (k b : KReg) (f : DWord → DWord → DWord) (_ : DieId) (_ : Nat) (c : Carder) (_ : List Hint) (s : State) : CEff :=
  .ok (c.kset k (f (c.kreg k) (c.kreg b))) s
def uni2 (i : Instr) (k b : KReg) (f : {n : Nat} → BitVec n → BitVec n → BitVec n) : State → Res :=
  sharedWord i (kword k b f) (ckword k b f)

def execKadd (k b : KReg) : State → Res := uni2 (.kadd k b) k b fun x y => x + y
def execKsub (k b : KReg) : State → Res := uni2 (.ksub k b) k b fun x y => x - y
def execKmul (k b : KReg) : State → Res := uni2 (.kmul k b) k b fun x y => x * y
def execKand (k b : KReg) : State → Res := uni2 (.kand k b) k b fun x y => x &&& y
def execKor (k b : KReg) : State → Res := uni2 (.kor k b) k b fun x y => x ||| y
def execKxor (k b : KReg) : State → Res := uni2 (.kxor k b) k b fun x y => x ^^^ y
def execKshl (k b : KReg) : State → Res := uni2 (.kshl k b) k b shlBy
def execKshr (k b : KReg) : State → Res := uni2 (.kshr k b) k b shrBy
def execKcmp (c : ICond) (k b : KReg) : State → Res := uni2 (.kcmp c k b) k b fun x y => bit _ (ICond.holds c x y)
def execKmov (k b : KReg) : State → Res := uni2 (.kmov k b) k b fun _ y => y
def execKmovi (k : KReg) (imm : BitVec 17) : State → Res :=
  uni2 (.kmovi k imm) k k fun _ _ => imm.signExtend _

/-! ## KLD and KST -/

/-- The fault of a uniform access: the whole thread's, at the lowest index. -/
def kfault (w : Who) (c : Cause) (fa : DWord) : Eff := .trap { cause := c, faddr := fa, xs := w.xs }

/-- The place of a KLD or KST access: the record's checks, SPACE 2, then R119 (R118, R159). -/
def State.kplace (s : State) (w : Who) (n : Buf) (o : KReg) (write : Bool) : Place :=
  let B := s.buf w n
  if B.bad then .fault Cause.fmt
  else if B.space = spSpill then .fault Cause.bounds
  else s.place w.d w.gid 0 B (s.k w o.toNat).toNat 4 write

def kldBody (k : KReg) (n : Buf) (o : KReg) (w : Who) (s : State) : Eff :=
  let B := s.buf w n
  match s.kplace w n o false with
  | .fault c => kfault w c (BitVec.ofNat 64 (B.base + (s.k w o.toNat).toNat))
  | .nowhere => .ok (s.setK w k.toNat 0) none
  | .at a => if s.byteHeld w B a 4 false then .hold s .held else .ok ((s.setK w k.toNat (BitVec.ofNat 32 (ofBytes (s.readLocal w.d w.gid 0 B.space a 4)))).useRecord w.d w.gid B) none
def kstBody (k : KReg) (n : Buf) (o : KReg) (w : Who) (s : State) : Eff :=
  let B := s.buf w n
  match s.kplace w n o true with
  | .fault c => kfault w c (BitVec.ofNat 64 (B.base + (s.k w o.toNat).toNat))
  | .nowhere => .ok s none
  | .at a => if s.byteHeld w B a 4 true then .hold s .held else .ok ((s.writeLocal w.d w.gid 0 B.space a (bytesOf 4 (s.k w k.toNat).toNat)).useRecord w.d w.gid B) none

def execKld (k : KReg) (n : Buf) (o : KReg) : State → Res := threadWord (.kld k n o) (kldBody k n o)
def execKst (k : KReg) (n : Buf) (o : KReg) : State → Res := threadWord (.kst k n o) (kstBody k n o)

/-! ## Special registers -/

/-- Low or high word of an index, or of any 64-bit special register. -/
def half (hi : Bool) (v : Nat) : Word := BitVec.ofNat 32 (if hi then v >>> 32 else v)

/-- The value of a special register at an index in a lane (R150, R162). -/
def State.special (s : State) (w : Who) (G : Group) (n : Nat) (hi : Bool) (x : Nat) : Word :=
  let p := G.pos x
  let lo := G.first + 32 * p
  match n with
  | 0 => half hi x
  | 1 => half hi lo
  | 2 => half hi (min (lo + 32) (G.first + G.count))
  | 3 => BitVec.ofNat 32 (G.laneNo x)
  | 4 => BitVec.ofNat 32 p
  | 5 => BitVec.ofNat 32 (G.roleOf p)
  | 6 => G.number
  | 7 => BitVec.ofNat 32 w.core
  | 8 => BitVec.ofNat 32 (((s.die w.d).quad w.core).getD 0)
  | 9 => BitVec.ofNat 32 w.d.val
  | 10 => G.rank
  | 11 => BitVec.ofNat 32 (G.ctlOf w.hood x).prog
  | _ => half hi s.clock

/-- The form of a special register in a hood over `lo` to `hi - 1`, or an expansion (R162). -/
def State.specialForm (s : State) (w : Who) (G : Group) (n : Nat) (upper : Bool) (lo hi : Nat) : Option Form :=
  let one := G.pos lo = G.pos (hi - 1)
  match n with
  | 0 => if upper then (if lo >>> 32 = (hi - 1) >>> 32 then some (uni (half true lo)) else none) else some ⟨half false lo, 1⟩
  | 1 => some (uni (half upper lo))
  | 2 => some (uni (half upper hi))
  | 3 => if one then some ⟨BitVec.ofNat 32 (G.laneNo lo), 1⟩ else none
  | 4 => if one then some (uni (BitVec.ofNat 32 (G.pos lo))) else none
  | n => some (uni (s.special w G n upper lo))

def rdsBody (d : Reg) (n : Nat) (upper : Bool) (w : Who) (s : State) : Eff :=
  match s.group w.d w.gid with
  | none => .done s
  | some G =>
    match w.hood with
    | some lo => formEff s w d (s.specialForm w G n upper lo (lo + w.all.length))
    | none => .ok (s.setLanes w w.xs d.toNat fun x => s.special w G n upper x) none

def execRds (d : Reg) (n : BitVec 8) (hi : Bool) : State → Res := threadWord (.rds d n hi) (rdsBody d n.toNat hi)

/-- MOVTS copies k[ka] into a shape register unchecked (R163). DESIGN CHOICE: of two words of one core cycle that write one shape register, the one
performed last stands, a hood's after the lanes' (log 51). -/
def movtsBody (n : Tile) (k : KReg) (w : Who) (s : State) : Eff :=
  .ok (s.modGroup w.d w.gid fun G => { G with shape := vput G.shape n.toNat (s.k w k.toNat) }) none
def execMovts (n : Tile) (k : KReg) : State → Res := threadWord (.movts n k) (movtsBody n k)

end Sys2Proof.Machine
end

