-- ==== Sys2Proof/Machine/Memory.lean ====
section
/-! DEFINITION. LD, ST, FILL, SPILL (R121 to R123) and BRLD (R124). -/
namespace Sys2Proof.Machine

/-- Bytes that a width moves (R31, R121). -/
def Width.bytes : Sys2Proof.Width → Nat
  | .w32 => 4 | .i8 | .n8 | .e43 | .e52 | .i4 | .n4 => 1 | .h16 | .b16 => 2 | .x64 => 8 | .x128 => 16
def SpillWidth.bytes : Sys2Proof.SpillWidth → Nat
  | .w32 => 4 | .x64 => 8 | .x128 => 16
def Width.nibble : Sys2Proof.Width → Bool
  | .i4 | .n4 => true
  | _ => false

/-- The byte offset that an offset register gives: a nibble offset is halved (R121). -/
def Width.offset (w : Sys2Proof.Width) (v : Word) : Nat := if Width.nibble w then v.toNat / 2 else v.toNat
/-- Extend of R122: the register `i` of what a load writes. `v` is the offset register's value. -/
def Width.extend (w : Sys2Proof.Width) (v : Word) (bs : List Byte) (i : Nat) : Word :=
  let n := ofBytes bs
  match w with
  | .i8 => (BitVec.ofNat 8 n).signExtend 32
  | .i4 => (BitVec.ofNat 4 (if v.getLsbD 0 then n / 16 else n)).signExtend 32
  | .n4 => (BitVec.ofNat 4 (if v.getLsbD 0 then n / 16 else n)).setWidth 32
  | _ => BitVec.ofNat 32 (n >>> (32 * i))
/-- The bytes that a store writes: the low bits of the registers; a nibble keeps its neighbour. -/
def Width.store (w : Sys2Proof.Width) (v : Word) (old : List Byte) (regs : Nat) : List Byte :=
  if Width.nibble w then
    let o := ofBytes old
    bytesOf 1 (if v.getLsbD 0 then o % 16 + 16 * (regs % 16) else o / 16 * 16 + regs % 16)
  else bytesOf (Width.bytes w) regs

/-- The value that `n` registers from `r` hold at index `x`, the lowest register lowest (R121). -/
def State.regsVal (s : State) (w : Who) (x r : Nat) : Nat → Nat
  | 0 => 0
  | n + 1 => (s.g w x r).toNat + 2 ^ 32 * s.regsVal w x (r + 1) n

/-- Indices whose faults one record names together: a hood's, or those of one logical wave (R319). -/
def State.sameWave (s : State) (w : Who) (x y : Nat) : Bool :=
  match w.hood, s.group w.d w.gid with
  | none, some G => G.pos x == G.pos y
  | _, _ => true
/-- The fault of an access by several indices (R122): the cause of the lowest that faults, every index that faults with it, and the lowest
address of those that the record names (R316, R319). -/
def firstFault (same : Nat → Nat → Bool) (xs : List Nat) (p : Nat → Option Cause) (addr : Nat → DWord) (freg : Option Nat) : Option Trap :=
  match xs.find? fun x => (p x).isSome with
  | none => none
  | some x =>
    let ys := xs.filter fun y => p y == p x
    some { cause := (p x).getD 0, faddr := (ys.filter (same x)).foldl (fun a y => if (addr y).toNat < a.toNat then addr y else a) (addr x), xs := ys, freg := freg }

def Place.cause : Place → Option Cause
  | .fault c => some c
  | _ => none

/-- The place of a lane access through a record (R118, R119). -/
def State.lanePlace (s : State) (w : Who) (x : Nat) (B : BufRec) (o n : Nat) (write : Bool) : Place :=
  if B.bad then .fault Cause.fmt else s.place w.d w.gid x B o n write
/-- The place of FILL and SPILL in the 32 bytes of a view (R121). -/
def spillPlace (o n : Nat) : Place := if o + n > 32 then .fault Cause.bounds else if o % n ≠ 0 then .fault Cause.align else .at o
/-- The place of a FILL at index `x`, whose line may be in error (R310). -/
def State.fillPlace (s : State) (w : Who) (x o n : Nat) : Place :=
  match spillPlace o n with
  | .at a => if s.badLocalAt w.d w.gid x spSpill a n then .fault Cause.ecc else .at a
  | p => p

/-- The bytes a read at a place finds. -/
def State.readPlace (s : State) (w : Who) (x space n : Nat) : Place → List Byte
  | .at a => s.readLocal w.d w.gid x space a n
  | _ => List.replicate n 0

/-- Writes `n` registers for the participants: in lanes each its own; in a hood the one value they share. -/
def State.setRegs (s : State) (w : Who) (r n : Nat) (v : Nat → Nat → Word) : State :=
  (List.range n).foldl (fun s i => match w.hood with
    | some _ => s.setForm w (r + i) (uni (v (w.xs.headD 0) i))
    | none => s.setLanes w w.xs (r + i) fun x => v x i) s

/-- In a hood: every index has the same `n` register values. -/
def sameRegs (w : Who) (n : Nat) (v : Nat → Nat → Word) : Bool :=
  w.xs.all fun x => (List.range n).all fun i => v x i == v (w.xs.headD 0) i

/-- The access of some participant is held (R120, R206). -/
def State.accessHeld (s : State) (w : Who) (B : BufRec) (n : Nat) (write : Bool) (p : Nat → Place) : Bool :=
  w.xs.any fun x => match p x with
    | .at a => s.byteHeld w B a n write
    | _ => false

/-! ## LD and ST -/

def ldBody (wd : Sys2Proof.Width) (d : Reg) (n : Buf) (a : Reg) (w : Who) (s : State) : Eff :=
  let B := s.buf w n
  let k := Width.bytes wd
  let off := fun x => s.g w x a.toNat
  let pl := fun x => s.lanePlace w x B (Width.offset wd (off x)) k false
  let val := fun x => Width.extend wd (off x) (s.readPlace w x B.space k (pl x))
  if w.hood.isSome && !(s.form w a.toNat).uniform then .expand
  else match firstFault (s.sameWave w) w.xs (fun x => (pl x).cause) (fun x => BitVec.ofNat 64 (B.base + Width.offset wd (off x))) (some a.toNat) with
    | some t => .trap t
    | none =>
      if s.accessHeld w B k false pl then .hold s .held
      else if w.hood.isSome && !sameRegs w wd.regs val then .expand
      else .ok ((s.setRegs w d.toNat wd.regs val).useRecord w.d w.gid B) none

def stBody (wd : Sys2Proof.Width) (r : Reg) (n : Buf) (a : Reg) (w : Who) (s : State) : Eff :=
  let B := s.buf w n
  let k := Width.bytes wd
  let off := fun x => s.g w x a.toNat
  let pl := fun x => s.lanePlace w x B (Width.offset wd (off x)) k true
  match firstFault (s.sameWave w) w.xs (fun x => (pl x).cause) (fun x => BitVec.ofNat 64 (B.base + Width.offset wd (off x))) (some a.toNat) with
  | some t => .trap t
  | none =>
    if s.accessHeld w B k true pl then .hold s .held
    else .ok ((w.xs.foldl (fun t x => match pl x with
      | .at b => t.writeLocal w.d w.gid x B.space b
          (Width.store wd (off x) (t.readLocal w.d w.gid x B.space b k) (s.regsVal w x r.toNat wd.regs))
      | _ => t) s).useRecord w.d w.gid B) none

def execLd (wd : Sys2Proof.Width) (d : Reg) (n : Buf) (a : Reg) (la : La) : State → Res := threadWord (.ld wd d n a la) (ldBody wd d n a)
def execSt (wd : Sys2Proof.Width) (r : Reg) (n : Buf) (a : Reg) : State → Res := threadWord (.st wd r n a) (stBody wd r n a)

/-! ## FILL and SPILL -/

/-- The tag that a SPILL from a hood recorded for a word of an index (R123). -/
def Group.tagOf (G : Group) (x o : Nat) : Option Word := (G.tags.find? fun t => t.off == G.spillBase x + o).map (·.stride)
/-- The form that a FILL in a hood gives a register (R123). -/
def Group.fillForm (G : Group) (w : Who) (o : Nat) (val : Nat → Word) : Option Form :=
  let lo := w.xs.headD 0
  match G.tagOf lo o with
  | none => none
  | some st =>
    let f : Form := ⟨val lo, st⟩
    if w.xs.all fun x => G.tagOf x o == some st && val x == f.at lo x then some f else none

def fillBody (wd : Sys2Proof.SpillWidth) (d a : Reg) (w : Who) (s : State) : Eff :=
  let k := SpillWidth.bytes wd
  let off := fun x => (s.g w x a.toNat).toNat
  let val := fun x i => Width.extend .x128 0 (s.readPlace w x spSpill k (s.fillPlace w x (off x) k)) i
  if w.hood.isSome && !(s.form w a.toNat).uniform then .expand
  else match firstFault (s.sameWave w) w.xs (fun x => (s.fillPlace w x (off x) k).cause) (fun x => BitVec.ofNat 64 (off x)) (some a.toNat) with
    | some t => .trap t
    | none => match w.hood, s.group w.d w.gid with
      | some _, some G =>
        let fs := (List.range wd.regs).map fun i => G.fillForm w (off (w.xs.headD 0) + 4 * i) fun x => val x i
        if fs.any (·.isNone) then .expand
        else .ok ((List.range wd.regs).foldl (fun s i => s.setForm w (d.toNat + i) ((fs.getD i none).getD {})) s) none
      | _, _ => .ok (s.setRegs w d.toNat wd.regs val) none

def spillBody (wd : Sys2Proof.SpillWidth) (r a : Reg) (w : Who) (s : State) : Eff :=
  let k := SpillWidth.bytes wd
  let off := fun x => (s.g w x a.toNat).toNat
  if w.hood.isSome && !(s.form w a.toNat).uniform then .expand
  else match firstFault (s.sameWave w) w.xs (fun x => (spillPlace (off x) k).cause) (fun x => BitVec.ofNat 64 (off x)) (some a.toNat) with
    | some t => .trap t
    | none =>
      let t := w.xs.foldl (fun t x => t.writeLocal w.d w.gid x spSpill (off x) (bytesOf k (s.regsVal w x r.toNat wd.regs))) s
      .ok (match w.hood with
        | none => t
        | some _ => t.modGroup w.d w.gid fun G => { G with tags :=
            (w.xs.flatMap fun x => (List.range wd.regs).map fun i =>
              (⟨G.spillBase x + off x + 4 * i, (s.form w (r.toNat + i)).stride⟩ : SpillTag)) ++ G.tags }) none

def execFill (wd : Sys2Proof.SpillWidth) (d a : Reg) (la : La) : State → Res := threadWord (.fill wd d a la) (fillBody wd d a)
def execSpill (wd : Sys2Proof.SpillWidth) (r a : Reg) : State → Res := threadWord (.spill wd r a) (spillBody wd r a)

/-! ## BRLD -/

/-- Space code of the descriptor cache for a local space, and the group it belongs to. -/
def descSpace (space gid : Nat) : Nat × Nat := if space = spShared then (1, gid) else (2, 0)

def brldBody (n m : Buf) (a : Reg) (w : Who) (s : State) : Eff :=
  let B := s.buf w m
  let x := w.xs.headD 0
  let o := (s.g w x a.toNat).toNat
  let pl := if B.bad then .fault Cause.fmt else if B.space = spSpill then .fault Cause.bounds
    else s.place w.d w.gid 0 { B with mode := 0 } o 32 false
  if w.hood.isSome && !(s.form w a.toNat).uniform then .expand
  else match pl with
    | .fault c => .trap { cause := c, faddr := BitVec.ofNat 64 (B.base + o), xs := [x], freg := some a.toNat }
    | .nowhere => .ok s none
    | .at b =>
      if s.byteHeld w B b 32 false then .hold s .held else
      let (sp, g) := descSpace B.space w.gid
      let ctx := s.ctxOf w.d w.gid
      let bs := s.descRead w.d w.core ctx sp g b 32 (s.readLocal w.d w.gid x B.space b 32)
      let s := s.descFill w.d w.core ctx sp g b bs
      .ok (((List.range 8).foldl (fun s i => s.setK w (8 * n.toNat + i) (BitVec.ofNat 32 (fieldAt bs (4 * i) 4))) s).useRecord w.d w.gid B) none

def execBrld (n m : Buf) (a : Reg) (la : La) : State → Res :=
  waveWord (.brld n m a la) (brldBody n m a)

end Sys2Proof.Machine
end

