-- ==== Sys2Proof/Machine/Links.lean ====
section
/-! DEFINITION. The device links: the route a packet takes, the replay buffers, and LINK (R220 to R223). -/
namespace Sys2Proof.Machine

/-- The agent that sent a packet is told of a link that is gone: the fabric's record names the causing word and the port (R222, R317); the
supervisor wave's own words fault as R329 says. -/
def State.linkFault (s : State) (d : DieId) (ctx : Ctx) (pc : DWord) (port : Nat) : State :=
  let f : FaultRec := { die := d, slot := 249, clock := s.clock, form := {},
                        stop := { cause := Cause.link, cls := 4, ctx := ctx, pc := pc, faddr := BitVec.ofNat 64 port } }
  if ctx = 0 then s.raiseSv d f else s.raiseFault f

def State.link (s : State) (n : Nat) : Link := vget s.links n {}
/-- The listed port with the most free permits, the lowest on a tie; retired ports are skipped (R223). -/
def State.bestPort (s : State) : List (Fin 36) → Option Nat
  | [] => none
  | p :: ps =>
    let rest := s.bestPort ps
    if (s.link p.val).retired then rest
    else match rest with
      | none => some p.val
      | some q => if Config.permits s.seq 1000 q < Config.permits s.seq 1000 p.val ∨
          (Config.permits s.seq 1000 q = Config.permits s.seq 1000 p.val ∧ p.val ≤ q) then some p.val else some q
def State.routeOf (s : State) (rank : Nat) : List (Fin 36) := ((s.route.find? fun e => e.1.toNat == rank).map (·.2)).getD []

/-- The replay buffer holds the last 512 flits sent (R220). -/
def Link.record (l : Link) (e : Sent) : Link :=
  let rec keep : Nat → List Sent → List Sent
    | _, [] => []
    | n, e :: es => if n < e.flits then [] else e :: keep (n - e.flits) es
  { l with sent := keep 512 (e :: l.sent) }

/-- Data bytes of a packet; those of a generation's traffic fit its header. -/
def Payload.bytes : Payload → Nat
  | .tile p => p.bytes.length
  | .session (.row _ _ vals) => 4 * vals.length
  | .session (.result _ _ bytes _) => bytes.length
  | .session (.join _) => 64
  | _ => 0
/-- One header flit, then the data flits (R220). -/
def Payload.flits (m : Payload) : Nat := 1 + (m.bytes + 63) / 64

/-- Sends a packet over link `n` for die `d`, or for no partition here; a retired one completes it with LINK (R222). -/
def State.sendFrom (s : State) (n : Nat) (d : Option DieId) (pc : DWord) (h : Header) (m : Payload) : State :=
  if (s.link n).retired then (match d with | some d => s.linkFault d h.ctx pc n | none => s)
  else { s with out := s.out ++ [.link n h m], links := vput s.links n ((s.link n).record ⟨d, pc, m.flits, h⟩) }
def State.sendOver (s : State) (n : Nat) (d : DieId) (pc : DWord) (h : Header) (m : Payload) : State := s.sendFrom n (some d) pc h m
/-- Sends a packet to the rank of its header; one that no live port leads to completes with LINK (R222, R223). -/
def State.transmit (s : State) (d : DieId) (pc : DWord) (h : Header) (m : Payload) : State :=
  match s.bestPort (s.routeOf h.dst) with
  | some n => s.sendOver n d pc h m
  | none => s.linkFault d h.ctx pc (((s.routeOf h.dst).head?.map (·.val)).getD 0)

end Sys2Proof.Machine
end

