-- ==== Sys2Proof/Machine/Collect.lean ====
section
/-! DEFINITION. Counter sets: phase counters and barrier generations (R236, R251 to R255, R380). -/
namespace Sys2Proof.Machine

/-- The launch of a group. -/
def State.launchOf (s : State) (d : DieId) (G : Group) : Option Launch :=
  s.launches.find? fun L => L.id == G.launch && L.part == s.partOf d
def State.launchById (s : State) (id : Nat) : Option Launch := s.launches.find? (·.id == id)
def State.modLaunch (s : State) (id : Nat) (f : Launch → Launch) : State :=
  { s with launches := s.launches.map fun L => if L.id == id then f L else L }

/-- The scope instance that holds a core: its logical quad, its die, the partition; one at .pod (R13, R227). -/
def State.instOf (s : State) (d : DieId) (core : Nat) (sc : Scope) : Nat :=
  match sc with
  | .quad => ((s.die d).quad core).getD 0
  | .die => d.val
  | _ => 0
/-- The home of a scope instance on this package: the die's engine, or that of the partition's lowest die (R227, R251). -/
def State.scopeHome (s : State) (d : DieId) (sc : Scope) : DieId :=
  match sc with
  | .pkg | .pod => s.firstDie d
  | _ => d

/-- The launch's counters are of this scope. -/
def Launch.phaseAt (L : Launch) (sc : Scope) : Option PhaseHdr := L.phase.filter (·.scope == sc)
/-- This package holds the counters and the generation of the scope: always, but at .pod only rank 0 (R380). -/
def Launch.holds (L : Launch) (sc : Scope) : Bool := sc != .pod || L.rank == 0
/-- Words of a set (R236). -/
def Launch.setWords (L : Launch) (sc : Scope) : Nat :=
  if !L.holds sc then 1 else match L.phaseAt sc with
    | some h => h.exps.length + 1
    | none => 1

def CSet.is (c : CSet) (home : DieId) (launch : Nat) (sc : Scope) (inst : Nat) : Bool :=
  c.die == home && c.launch == launch && c.scope == sc && c.inst == inst
def State.cset (s : State) (home : DieId) (launch : Nat) (sc : Scope) (inst : Nat) : Option CSet :=
  s.sets.find? (·.is home launch sc inst)
def State.modSet (s : State) (home : DieId) (launch : Nat) (sc : Scope) (inst : Nat) (f : CSet → CSet) : State :=
  { s with sets := s.sets.map fun c => if c.is home launch sc inst then f c else c }

/-- Words in use in the counter-set region of a die, and in the overflow area of a context on it. -/
def State.regionWords (s : State) (home : DieId) : Nat := (s.sets.filter fun c => c.die == home && !c.overflow).foldl (fun n c => n + c.words) 0
def State.overflowWords (s : State) (home : DieId) (ctx : Ctx) : Nat :=
  (s.sets.filter fun c => c.die == home && c.overflow && c.ctx == ctx).foldl (fun n c => n + c.words) 0
def regionSize : Nat := 131072
def frameWords : Nat := 524288
/-- The first frame of the overflow area that sys.syncovf names for a context on a die (R236). -/
def State.overflowFirst (s : State) (home : DieId) (ctx : Ctx) : Nat :=
  field (((s.banksOn home).find? (·.ctx == ctx)).map (·.syncovf) |>.getD 0) 20 0
/-- The words of the overflow area that sys.syncovf names for a context on a die (R236). -/
def State.overflowSize (s : State) (home : DieId) (ctx : Ctx) : Nat :=
  field (((s.banksOn home).find? (·.ctx == ctx)).map (·.syncovf) |>.getD 0) 28 21 * frameWords

/-- Allocates the set of an instance when it is first needed (R236): SYNCOVF where it has no room, PROT where its place in the overflow area is no frame of
the pool (R42). -/
def State.needSet (s : State) (home : DieId) (ctx : Ctx) (L : Launch) (sc : Scope) (inst : Nat) : Acc State :=
  match s.cset home L.id sc inst with
  | some _ => .ok s
  | none =>
    let n := L.setWords sc
    let inRegion := s.regionWords home + n ≤ regionSize
    let after := s.overflowWords home ctx + n
    if ¬inRegion ∧ s.overflowSize home ctx < after then .fault Cause.syncovf 0
    else if ¬inRegion ∧ s.hbmFrames * frameWords < s.overflowFirst home ctx * frameWords + after then .fault Cause.prot 0
    else
      let c : CSet :=
        { die := home, part := L.part, ctx := ctx, launch := L.id, scope := sc, inst := inst, words := n, overflow := !decide inRegion,
          counters := if L.holds sc then (match L.phaseAt sc with | some h => h.exps | none => []) else [],
          gen := 0, open_ := false, members := [], arrived := [], ranks := [], sentUp := false, pc := 0 }
      .ok { s with sets := s.sets ++ [c] }

/-- The groups of a launch that are resident in a scope instance: started and not exited, their context swapped out or not (R254, R255). -/
def State.residents (s : State) (home : DieId) (launch : Nat) (sc : Scope) (inst : Nat) : List (DieId × Nat) :=
  let dies := match sc with | .pkg | .pod => s.partDies home | _ => [home]
  dies.flatMap fun d => (((s.banksOn d).flatMap (·.groups)).filter fun G =>
    G.launch == launch && (sc != .quad || s.instOf d G.core .quad == inst) && !G.liveIdx.isEmpty).map fun G => (d, G.gid)

/-- Every member has arrived; an exited member counts as arrived. -/
def State.membersIn (s : State) (c : CSet) : Bool :=
  c.members.all fun m => c.arrived.contains m || match ((s.banksOn m.1).flatMap (·.groups)).find? (·.gid == m.2) with
    | some G => G.launch != c.launch || G.liveIdx.isEmpty
    | none => true

/-- The header of this package's .pod barrier traffic to a rank (R220, log 43). -/
def Launch.header (L : Launch) (dst : Nat) : Header := ⟨L.ctx, .session, dst, L.rank⟩
/-- Rank 0 tells every other rank (R380). -/
def State.tellRanks (s : State) (home : DieId) (L : Launch) (pc : DWord) (m : Payload) : State :=
  ((List.range L.ranks.length).filter (· ≠ 0)).foldl (fun (s : State) r => s.transmit home pc (L.header r) m) s

/-- Opens the generation of a set: its members are the residents of this moment; the groups that came early have arrived (R254, R380). -/
def State.openSet (s : State) (home : DieId) (launch : Nat) (sc : Scope) (inst : Nat) : State :=
  s.modSet home launch sc inst fun c =>
    { c with open_ := true, members := s.residents home launch sc inst, arrived := c.next, next := [], ranks := [], sentUp := false }
/-- Opens a generation at its home, at the first arrival after the previous one ended (R254, R380). -/
def State.openGen (s : State) (home : DieId) (L : Launch) (sc : Scope) (inst : Nat) (pc : DWord := 0) : State :=
  match s.cset home L.id sc inst with
  | none => s
  | some c =>
    if c.open_ then s
    else
      let s := (s.openSet home L.id sc inst).modSet home L.id sc inst fun c => { c with pc := pc }
      if sc == .pod then s.tellRanks home L pc (.podOpen L.id c.gen pc) else s
/-- The end of a generation at its home: the number advances, the counters reload, the ranks are released, and where groups already wait for
the next one it opens. -/
def State.endGen (s : State) (L : Launch) (c : CSet) : State :=
  let s := s.modSet c.die L.id c.scope c.inst fun c =>
    { c with gen := c.gen + 1, open_ := false, members := [], arrived := [], ranks := [],
             counters := match L.phaseAt c.scope with | some h => h.exps | none => [] }
  let s := if c.scope == .pod then s.tellRanks c.die L c.pc (.podRelease L.id c.gen) else s
  if c.next.isEmpty then s else s.openGen c.die L c.scope c.inst c.pc

/-- Ends an open generation whose members have arrived and whose counters stand at zero (R254); at .pod the home also waits for every
rank, and another package sends its combined arrival (R380). -/
def State.settleOnce (s : State) (home : DieId) (launch : Nat) (sc : Scope) (inst : Nat) : State :=
  match s.cset home launch sc inst, s.launchById launch with
  | some c, some L =>
    if !c.open_ || !s.membersIn c then s
    else if !L.holds sc then
      if c.sentUp then s
      else (s.modSet home launch sc inst fun c => { c with sentUp := true }).transmit home c.pc (L.header 0) (.podArrival launch c.num true c.pc)
    else if c.counters.all (· == 0) && (sc != .pod || (List.range L.ranks.length).all fun r => r == 0 || c.ranks.contains r) then s.endGen L c
    else s
  | _, _ => s
/-- A generation that opens with every member there ends at once. -/
def State.settleSet (s : State) (home : DieId) (launch : Nat) (sc : Scope) (inst : Nat) : State :=
  (s.settleOnce home launch sc inst).settleOnce home launch sc inst
/-- Settles every set of a launch: an exit, an arrival or a count may have ended a generation. -/
def State.settleLaunch (s : State) (launch : Nat) : State :=
  (s.sets.filter (·.launch == launch)).foldl (fun s c => s.settleSet c.die c.launch c.scope c.inst) s

/-- Groups wait for a generation that only the home can open: the first of them lets it know (R380, log 43). -/
def State.askOpen (s : State) (home : DieId) (L : Launch) (c : CSet) : State := s.transmit home c.pc (L.header 0) (.podArrival L.id c.num false c.pc)
/-- A group arrives at its barrier (R253): the generation it arrived in; a group that is no member of the open one waits for the next
(R254). -/
def State.barArrive (s : State) (d : DieId) (gid : Nat) (home : DieId) (L : Launch) (sc : Scope) (inst : Nat) (pc : DWord) : State × Nat :=
  let s := if L.holds sc then s.openGen home L sc inst pc else s
  match s.cset home L.id sc inst with
  | none => (s, 0)
  | some c =>
    if c.open_ ∧ c.members.contains (d, gid) then
      (s.modSet home L.id sc inst fun c => { c with arrived := (d, gid) :: c.arrived, pc := pc }, c.gen)
    else
      let c' := { c with next := (d, gid) :: c.next, pc := if c.open_ then c.pc else pc }
      let s := s.modSet home L.id sc inst fun _ => c'
      (if c.open_ || !c.next.isEmpty then s else s.askOpen home L c', if c.open_ then c.gen + 1 else c.gen)

/-- One PHASE (R252): a fault, or the state with the counter lower. PHASE.pod in a launch without a process-group table raises PART, as .pod scope is then
refused (R14, R224), after the check of the header (DESIGN CHOICE, log 46). -/
def State.phaseCount (s : State) (d : DieId) (core : Nat) (L : Launch) (sc : Scope) (pc : DWord) (dest c : Nat) : Acc State :=
  match L.phaseAt sc with
  | none => .fault Cause.fmt 0
  | some h =>
    if sc == .pod && L.ranks.isEmpty then .fault Cause.part 0
    else if dest ≥ h.exps.length then .fault Cause.fmt 0
    else
      let home := s.scopeHome d sc
      let inst := s.instOf d core sc
      match s.needSet home (s.ctxOf d 1) L sc inst with
      | .fault c fa => .fault c fa
      | .ok s =>
        if !L.holds sc then .ok (s.transmit d pc (L.header 0) (.podCount L.id dest c pc))
        else
          let cur := ((s.cset home L.id sc inst).map fun x => x.counters.getD dest 0).getD 0
          if c > cur then .fault Cause.baruse 0
          else .ok ((s.modSet home L.id sc inst fun x => { x with counters := x.counters.set dest (cur - c), pc := pc }).settleLaunch L.id)

end Sys2Proof.Machine
end

