-- ==== Sys2Proof/Machine/Gather.lean ====
section
/-! DEFINITION. Gathered words (R128): the gather of a wave position, the effect it has when it completes, and what the issuing threads
do meanwhile (R130, R139, R253, R269 to R271). -/
namespace Sys2Proof.Machine

/-- What comes of an attempt: a new state, or a fault for a position. -/
inductive GRes where
  | ok (s : State)
  | fault (c : Cause) (p : Nat)
  /-- the word is held, and has done nothing -/
  | hold

/-- BARRIVE and RCONS.free: their threads are held while what they release is not complete (R130). -/
def GatherKind.arrives : GatherKind → Bool
  | .barrive | .consFree => true
  | _ => false

def Group.openAt (G : Group) (p : Nat) : Option Gather := G.gathers.find? fun g => g.pos == p && !g.done
def Group.setOpen (G : Group) (g : Gather) : Group :=
  { G with gathers := g :: G.gathers.filter fun h => !(h.pos == g.pos && !h.done) }
def Group.dropOpen (G : Group) (p : Nat) : Group := { G with gathers := G.gathers.filter fun h => !(h.pos == p && !h.done) }

/-- The completed gather that index `x` has still to return from. -/
def Group.doneAt (G : Group) (kind : GatherKind) (addr x : Nat) : Option Gather :=
  G.gathers.find? fun g => g.done && g.kind == kind && g.addr == addr && g.selected.contains x
/-- Index `x` returns from its completed gather; the last one clears it. -/
def Group.returnFrom (G : Group) (kind : GatherKind) (addr : Nat) (xs : List Nat) : Group :=
  let gs := G.gathers.map fun g =>
    if g.done && g.kind == kind && g.addr == addr then { g with selected := g.selected.filter (!xs.contains ·) } else g
  { G with gathers := gs.filter fun g => !(g.done && g.selected.isEmpty) }

/-- Moves the allocation of a position and zeroes what a claim adds (R269). -/
def Group.setAlloc (G : Group) (p g : Nat) : Group :=
  let old := G.alloc.getD p 0
  let fresh := List.range 64 |>.filter fun r => old ≤ r && r < g
  { G with
    alloc := G.alloc.set p g
    hoods := if fresh.isEmpty then G.hoods else G.hoods.map fun h =>
      if (range h.lo h.hi).any fun x => G.pos x == p then { h with g := fresh.foldl (fun v r => vput v r {}) h.g } else h
    lanes := if fresh.isEmpty then G.lanes else G.lanes.map fun l =>
      if G.pos l.x == p then { l with g := fresh.foldl (fun v r => vput v r 0) l.g } else l }

def natWord (n : Nat) : Word := BitVec.ofNat 32 n

/-- Marks the gather of a position as having had its effect. -/
def State.gatherDone (s : State) (d : DieId) (gid : Nat) (g : Gather) (r : Nat) : State :=
  s.modGroup d gid fun G => G.setOpen { g with full := true, done := true, result := r }
def State.gatherDrop (s : State) (d : DieId) (gid p : Nat) : State := s.modGroup d gid (·.dropOpen p)
/-- Index `x` issues the word now, or is held at it (R130). -/
def Group.atArrival (G : Group) (now : List Nat) (x : Nat) : Bool :=
  now.contains x || (G.hoods.any fun h => h.ctl.wait == .arrive && decide (h.lo ≤ x ∧ x < h.hi)) || G.lanes.any fun l => l.ctl.wait == .arrive && l.x == x
/-- The same for BARRIVE and RCONS.free: of its indices only those that `now` issue or are held at the word have still to return. -/
def State.gatherEnds (s : State) (d : DieId) (gid : Nat) (G : Group) (g : Gather) (now : List Nat) : State :=
  let xs := g.selected.filter (G.atArrival now)
  if xs.isEmpty then s.gatherDrop d gid g.pos else s.gatherDone d gid { g with selected := xs } 0

/-- The effect of a complete gather of position `p`; `now`: the indices that issue its word, none for an EXIT. An arrival, or a slot's freeing,
comes once the writes that it releases are complete, those of every gathered index that has not gone on; the word that completed the gather is
held until then (R130, R206). -/
def State.gatherEffect (s : State) (d : DieId) (gid : Nat) (G : Group) (g : Gather) (now : List Nat) : GRes :=
  let p := g.pos
  let wait := fun (s : State) => GRes.ok (s.modGroup d gid fun G => G.setOpen { g with full := true })
  let arriveLater := if now.isEmpty then .hold else wait s
  let here := g.selected.filter (G.atArrival now)
  match g.kind with
  | .barrive =>
    if !s.boundReady d gid here (natWord g.addr) then arriveLater
    else match s.slotAddr d gid (natWord g.addr) 16 with
      | .fault c _ => .fault c p
      | .ok a => if s.badObject d gid a then .fault Cause.ecc p else match s.arrive d gid a with
        | none => .fault Cause.baruse p
        | some s => .ok ((s.noteRelease d gid (natWord g.addr) g.late).gatherEnds d gid G g now)
  | .consFree =>
    if !s.boundReady d gid here (natWord g.addr) then arriveLater
    else match s.slotAddr d gid (natWord g.addr) 16 with
      | .fault c _ => .fault c p
      | .ok a => if s.badObject d gid a then .fault Cause.ecc p else match (s.ring d gid a).bind (·.consFree p) with
        | none => .fault Cause.baruse p
        | some r => .ok (((s.putRing d gid a r).noteRelease d gid (natWord g.addr) g.late).gatherEnds d gid G g now)
  | .consTake _ => match s.slotAddr d gid (natWord g.addr) 16 with
    | .fault c _ => .fault c p
    | .ok a => if s.badObject d gid a then .fault Cause.ecc p else match s.ring d gid a with
      | none => .fault Cause.baruse p
      | some r => match r.consTake p with
        | .bad => .fault Cause.baruse p
        | .wait => wait s
        | .got r i => .ok (((s.putRing d gid a r).noteAcquire d gid (natWord g.addr)).gatherDone d gid g i)
  | .give n => .ok ((s.modGroup d gid fun G => { G.setAlloc p (G.alloc.getD p 0 - 8 * n) with pool := G.pool + n }).gatherDone d gid g 0)
  | .claim n =>
    let q := if G.claims.contains p then G.claims else G.claims ++ [p]
    if G.pool < n ∨ q.head? ≠ some p then wait (s.modGroup d gid fun G => { G with claims := q })
    else .ok ((s.modGroup d gid fun G =>
      { G.setAlloc p (G.alloc.getD p 0 + 8 * n) with pool := G.pool - n, claims := q.drop 1 }).gatherDone d gid g 0)
  | .bar sc =>
    let s := s.modGroup d gid fun G => G.setOpen { g with full := true }
    match s.group d gid with
    | none => .ok s
    | some G =>
      let ps := (List.range G.positions).filter fun q => !(G.liveAt q).isEmpty
      if ps.all fun q => match G.openAt q with | some h => h.full && h.kind == .bar sc | none => false then
        match s.launchOf d G with
        | none => .ok s
        | some L =>
          let inst := s.instOf d G.core sc
          let home := s.scopeHome d sc
          let pc := match G.hoods, G.lanes with
            | h :: _, _ => h.ctl.pc
            | _, l :: _ => l.ctl.pc
            | _, _ => 0
          let (s, gen) := s.barArrive d gid home L sc inst pc
          let s := s.modGroup d gid fun G => { G with gathers := G.gathers.map fun h =>
            if !h.done && (h.kind == GatherKind.bar sc) then { h with done := true, result := gen } else h }
          .ok (s.settleLaunch L.id)
      else .ok s

/-- Completes the gather of a position if every live index has issued, and attempts its effect. An arrival that has still to come is the completing
word's to attempt: what it raises is precise there (R130). -/
def State.tryGather (s : State) (d : DieId) (gid p : Nat) (now : List Nat) : GRes :=
  match s.group d gid with
  | none => .ok s
  | some G => match G.openAt p with
    | none => .ok s
    | some g =>
      if g.full then
        if now.isEmpty || (g.kind.arrives && !now.any g.last.contains) then .ok s else s.gatherEffect d gid G g now
      else if (G.liveAt p).all g.issued.contains then
        if g.selected.isEmpty then .ok (s.gatherDrop d gid p) else s.gatherEffect d gid G { g with last := now } now
      else .ok s

def addIdx (xs ys : List Nat) : List Nat := xs ++ ys.filter (!xs.contains ·)

/-- Adds the issuing indices of one position to its gather and tries to complete it (R128). While a complete gather's arrival has still to come, a
thread that has gone on from it is held at its next gathered word (R130). -/
def State.joinGather (s : State) (w : Who) (kind : GatherKind) (addr p : Nat) (xs sel : List Nat) : GRes :=
  match s.group w.d w.gid with
  | none => .ok s
  | some G =>
    let add := fun (g : Gather) =>
      let late := if kind.arrives && w.cap.isEmpty then s.unwritten w.d w.gid sel (natWord addr) else []
      (s.modGroup w.d w.gid fun G => G.setOpen { g with
        issued := addIdx g.issued xs, selected := addIdx g.selected sel, late := addIdx g.late late }).tryGather w.d w.gid p xs
    match G.openAt p with
    | some g => if g.full && g.kind.arrives && w.cap.isEmpty then .hold else if g.kind == kind && g.addr == addr then add g else if sel.isEmpty then .ok s else .fault Cause.baruse p
    | none => add { kind := kind, addr := addr, pos := p, issued := [], selected := [] }

def GRes.andThen : GRes → (State → GRes) → GRes
  | .ok s, f => f s
  | .fault c p, _ => .fault c p
  | .hold, _ => .hold

/-- A complete gather whose arrival has still to come, and which index `x` completed (R130). -/
def Group.completes (G : Group) (x : Nat) : Bool :=
  match G.openAt (G.pos x) with
  | some g => g.full && g.kind.arrives && g.last.contains x
  | none => false
/-- BAR returns once its generation has ended (R254); BARRIVE and RCONS.free once the effect has taken place, or, in a thread that has not completed
the gather, once the writes of `mine` that it releases are complete (R130); the others once their effect has taken place. -/
def State.gatherBack (s : State) (d : DieId) (G : Group) (kind : GatherKind) (addr : Nat) (mine : List Nat) (x : Nat) : Bool :=
  match G.doneAt kind addr x with
  | none => kind.arrives && !G.completes x && ((G.openAt (G.pos x)).isNone || s.boundReady d G.gid mine (natWord addr))
  | some g => match kind with
    | .bar sc => match s.cset (s.scopeHome d sc) G.launch sc (s.instOf d G.core sc) with
      | some c => decide (g.result < c.gen)
      | none => true
    | _ => true

/-- A gathered word. `k`: the wait state in which its threads wait for the effect; `dst`: the register that receives the gather's
result. -/
def gatherBody (i : Instr) (kind : GatherKind) (addr : Nat) (k : Wait) (dst : Option Nat) (fa : DWord) (w : Who) (s : State) : Eff :=
  match s.group w.d w.gid with
  | none => .done s
  | some G =>
    let fresh := w.all.filter fun x => (G.doneAt kind addr x).isNone
    let r := (positionsOf G fresh).foldl (fun (r : GRes) p => r.andThen fun s =>
      s.joinGather w kind addr p (fresh.filter fun x => G.pos x == p) (fresh.filter fun x => G.pos x == p && w.xs.contains x)) (.ok s)
    match r with
    | .fault c p => .trap { cause := c, faddr := fa, xs := w.all.filter fun x => G.pos x == p }
    | .hold => .hold s .held
    | .ok s => match s.group w.d w.gid with
      | none => .done s
      | some G =>
        let passes := w.all.filter fun x => !w.xs.contains x && !G.completes x
        let back := w.xs.filter (s.gatherBack w.d G kind addr w.xs)
        let value := fun x => natWord (((G.doneAt kind addr x).map (·.result)).getD 0)
        let ret := fun (s : State) (xs : List Nat) => s.modGroup w.d w.gid fun G => G.returnFrom kind addr xs
        if back.length + passes.length = w.all.length then
          match dst with
          | none => .ok (ret s back) none
          | some d =>
            if w.hood.isSome then
              if back.all fun x => value x == value (back.headD 0) then
                .ok (ret (if back.isEmpty then s else s.setForm w d (uni (value (back.headD 0)))) back) none
              else .expand
            else .ok (ret (s.setLanes w back d value) back) none
        else if w.hood.isSome then .hold s k
        else
          let s := match dst with | some d => s.setLanes w back d value | none => s
          let s := ret s back
          let out := w.all.filter fun x => back.contains x || passes.contains x
          let s := s.finish { w with all := out, xs := back } i.use none unsafePoint w.next
          let stay := w.all.filter (!out.contains ·)
          .done (s.holdAt { w with all := stay, xs := stay } i k)

end Sys2Proof.Machine
end

