-- ==== Sys2Proof/Machine/SlotWords.lean ====
section
/-! DEFINITION. The slot words (R130 to R135) and the ring words (R138, R139). -/
namespace Sys2Proof.Machine

/-- A slot or ring word faults: the whole thread, at the slot address. -/
def slotFault (w : Who) (c : Cause) (v : Word) : Eff := kfault w c (BitVec.ofNat 64 v.toNat)
/-- The address that k[ka] holds, or its fault (R125). -/
def withSlot (w : Who) (s : State) (k : KReg) (n : Nat) (f : Slot → Eff) : Eff :=
  let v := s.k w k.toNat
  match s.slotAddr w.d w.gid v n with
  | .fault c _ => slotFault w c v
  | .ok a => f a
/-- A live barrier slot, or BARUSE (R130); ECC where its record is in error (R310). -/
def withBSlot (w : Who) (s : State) (k : KReg) (f : Slot → BSlot → Eff) : Eff :=
  withSlot w s k 16 fun a =>
    if s.badObject w.d w.gid a then slotFault w Cause.ecc (s.k w k.toNat)
    else match s.bslot w.d w.gid a with
      | none => slotFault w Cause.baruse (s.k w k.toNat)
      | some b => f a b
/-- A live ring, or BARUSE (R139); ECC where its record is in error (R310). -/
def withRing (w : Who) (s : State) (k : KReg) (f : Slot → Ring → Eff) : Eff :=
  withSlot w s k 16 fun a =>
    if s.badObject w.d w.gid a then slotFault w Cause.ecc (s.k w k.toNat)
    else match s.ring w.d w.gid a with
      | none => slotFault w Cause.baruse (s.k w k.toNat)
      | some r => f a r
def baruse (w : Who) (s : State) (k : KReg) : Eff := slotFault w Cause.baruse (s.k w k.toNat)

/-- Codes of the scopes (R13), and whether an object in a space may have one (R131). -/
def Scope.code : Sys2Proof.Scope → Nat
  | .lane => 0 | .core => 1 | .quad => 2 | .die => 3 | .pkg => 4 | .pod => 5
def scopeFits (space code : Nat) : Bool := if space = spShared then 1 ≤ code && code ≤ 3 else code == 3

def anyLive (s : State) (w : Who) (a : Slot) (n : Nat) : Bool := s.touchesLive w.d w.gid a.space a.addr n
def linesOf (a n : Nat) : List Nat := (List.range n).map fun i => a / 16 + i

def binitBody (sc : Scope) (k b : KReg) (w : Who) (s : State) : Eff :=
  let v := s.k w b.toNat
  let bm := v.getLsbD 19
  withSlot w s k 16 fun a =>
    let bl := a.addr + 16 * (field v 18 16 + 1)
    if field v 31 20 ≠ 0 ∨ field v 15 0 = 0 ∨ !scopeFits a.space (Scope.code sc) then baruse w s k
    else if bm ∧ !s.inSpace w.d w.gid a.space bl 16 then slotFault w Cause.bounds (s.k w k.toNat)
    else if anyLive s w a 16 || (bm && anyLive s w { a with addr := bl } 16) then baruse w s k
    else
      let sl : BSlot := { scope := Scope.code sc, phase := 0, bm := bm, bmd := field v 18 16, pending := 0, arrived := 0, expected := field v 15 0 }
      let s := s.writeLocal w.d w.gid 0 a.space a.addr sl.bytes
      let s := if bm then s.writeLocal w.d w.gid 0 a.space bl (bytesOf 16 0) else s
      .ok (s.setLive w.d w.gid a.space (a.addr / 16 :: (if bm then [bl / 16] else [])) true) none

/-- A thread waits at a WAIT on the object `v`. -/
def Ctl.waitsOn (c : Ctl) (v : Word) : Bool :=
  c.wait == .wait && match c.word, c.cap with
    | some (.wait ..), q :: _ => q.2 == v
    | _, _ => false
/-- Something of the context still names the slot (R132): an open gather or a waiting thread of the issuing core, an interest or a
queued command. -/
def State.slotNamed (s : State) (w : Who) (v : Word) : Bool :=
  let B := (s.die w.d).active
  let same := fun (gid : Nat) => v.getLsbD 31 || gid == w.gid
  let Gs := if w.gid = 0 then [(s.die w.d).sv] else B.groups.filter fun G => G.core == w.core && same G.gid
  (Gs.any fun G => (G.gathers.any fun g => !g.done && g.kind == .barrive && g.addr == v.toNat) ||
      G.hoods.any (fun h => h.ctl.waitsOn v) || G.lanes.any fun l => l.ctl.waitsOn v) ||
    (B.interests.any fun i => same i.gid && (BufRec.of i.buf).bound == v) ||
    ((s.cmds w.d).any fun q => same q.gid && q.object == v)
/-- Threads of other cores that wait on a retired slot of the scratchpad wait for good (R132). -/
def Group.strand (G : Group) (v : Word) : Group :=
  let f := fun (c : Ctl) => if c.waitsOn v then { c with wait := .lost } else c
  { G with hoods := G.hoods.map fun h => { h with ctl := f h.ctl }, lanes := G.lanes.map fun l => { l with ctl := f l.ctl } }
def State.strand (s : State) (w : Who) (v : Word) : State :=
  if v.getLsbD 31 && w.gid != 0 then s.modBank w.d fun B => { B with groups := B.groups.map fun G => if G.core = w.core then G else G.strand v } else s

def bretireBody (k : KReg) (w : Who) (s : State) : Eff :=
  withBSlot w s k fun a b =>
    if b.arrived ≠ 0 ∨ b.pending ≠ 0 ∨ s.slotNamed w (s.k w k.toNat) then baruse w s k
    else
      let t := s.strand w (s.k w k.toNat)
      let t := t.writeLocal w.d w.gid 0 a.space a.addr (bytesOf 16 0)
      let t := if b.bm then t.writeLocal w.d w.gid 0 a.space (b.bitmapAt a) (bytesOf 16 0) else t
      .ok (t.setLive w.d w.gid a.space (a.addr / 16 :: (if b.bm then [b.bitmapAt a / 16] else [])) false) none

/-- BARRIVE joins its gather, and is held there until the release's writes are complete (R128, R130). A thread held there has been checked. -/
def barriveBody (k : KReg) (w : Who) (s : State) : Eff :=
  let v := s.k w k.toNat
  let go := gatherBody (Instr.barrive k) .barrive v.toNat .arrive none (BitVec.ofNat 64 v.toNat) w s
  if w.xs.isEmpty || !w.cap.isEmpty then go else withBSlot w s k fun _ _ => go

def bexpectBody (k b : KReg) (w : Who) (s : State) : Eff :=
  let n := s.k w b.toNat
  withBSlot w s k fun a _ =>
    if field n 31 28 ≠ 0 then baruse w s k
    else match s.expect w.d w.gid a n.toNat with
      | none => baruse w s k
      | some s => .ok s none

/-- WAIT returns at a safe point (R133, R349). -/
def waitBody (k b : KReg) (w : Who) (s : State) : Eff :=
  withBSlot w s k fun _ sl => if sl.complete (s.k w b.toNat) then .jump (s.noteAcquire w.d w.gid (s.k w k.toNat)) (fun _ => true) w.next else .hold s .wait

def btestBody (d : Reg) (k b : KReg) (w : Who) (s : State) : Eff :=
  withBSlot w s k fun _ sl =>
    let c := sl.complete (s.k w b.toNat)
    .ok ((if c then s.noteAcquire w.d w.gid (s.k w k.toNat) else s).setUni w d.toNat (bit 32 c)) none

def ctestBody (d : Reg) (k b : KReg) (w : Who) (s : State) : Eff :=
  let v := s.k w b.toNat
  withBSlot w s k fun a sl =>
    if !sl.bm ∨ field v 31 19 ≠ 0 then baruse w s k
    else
      let m := fieldAt (s.readLocal w.d w.gid 0 a.space (sl.bitmapAt a) 16) (2 * field v 18 16) 2
      let all := BitVec.ofNat 16 m &&& v.setWidth 16 == v.setWidth 16
      .ok ((if all then s.noteAcquire w.d w.gid (s.k w k.toNat) else s).setUni w d.toNat (bit 32 all)) none

/-- WAIT.cnt (R135): each thread by its own counter; lanes of a wave that may go on, go on. -/
def waitCntBody (i : Instr) (c : Counter) (limit : BitVec 8) (w : Who) (s : State) : Eff :=
  match w.hood with
  | some _ => if s.counter w.d w.gid w.xs c ≤ limit.toNat then .jump s (fun _ => true) w.next else .hold s .wait
  | none =>
    let stay := w.xs.filter fun x => limit.toNat < s.counter w.d w.gid [x] c
    if stay.isEmpty then .jump s (fun _ => true) w.next
    else
      let gone := fun (xs : List Nat) => xs.filter (!stay.contains ·)
      let s := s.finish { w with all := gone w.all, xs := gone w.xs } i.use none (fun _ => true) w.next
      .done (s.holdAt { w with all := stay, xs := stay } i .wait)

def execBinit (sc : Scope) (k b : KReg) : State → Res := waveWord (.binit sc k b) (binitBody sc k b)
def execBretire (k : KReg) : State → Res := waveWord (.bretire k) (bretireBody k)
def execBarrive (k : KReg) : State → Res := waveWord (.barrive k) (barriveBody k)
def execBexpect (k b : KReg) : State → Res := waveWord (.bexpect k b) (bexpectBody k b)
def execWait (k b : KReg) : State → Res := waveWord (.wait k b) (waitBody k b)
def execBtest (d : Reg) (k b : KReg) : State → Res := waveWord (.btest d k b) (btestBody d k b)
def execCtest (d : Reg) (k b : KReg) : State → Res := waveWord (.ctest d k b) (ctestBody d k b)
def execWaitCnt (c : Counter) (limit : BitVec 8) : State → Res :=
  threadWord (.waitCnt c limit) (waitCntBody (.waitCnt c limit) c limit)

/-! ## Rings -/

/-- RINIT (R137, R138). DESIGN CHOICE: a record that is not 128-byte aligned raises BARUSE, as the spec names no cause for it (log 51). -/
def rinitBody (k b : KReg) (w : Who) (s : State) : Eff :=
  let v := s.k w b.toNat
  let r : Ring := { word0 := v.toNat, fulln := 0, free := v.toNat % 16 + 1, pi := 0,
                    slots := List.replicate 16 ⟨0, false, 0⟩, cursors := List.replicate 24 ⟨0, 0, 0⟩ }
  withSlot w s k 16 fun a =>
    if field v 31 27 ≠ 0 ∨ r.cons = 0 ∨ r.cons > 24 ∨ r.slot64 = 0 ∨ !scopeFits a.space (field v 26 24) ∨ a.addr % 128 ≠ 0 then baruse w s k
    else if !s.inSpace w.d w.gid a.space a.addr 128 then slotFault w Cause.bounds (s.k w k.toNat)
    else if anyLive s w a 128 then baruse w s k
    else .ok ((s.writeLocal w.d w.gid 0 a.space a.addr r.bytes).setLive w.d w.gid a.space (linesOf a.addr 8) true) none

/-- The reservation of an index on a ring (R139). -/
def Group.reserved (G : Group) (x : Nat) (ring : Word) : Option Nat :=
  (G.resv.find? fun q => q.x == x && q.ring == ring).map (·.slot)
/-- RPROD.take replaces an index's reservation. -/
def Group.reserve (G : Group) (x : Nat) (ring : Word) (i : Nat) : Group := { G with resv := ⟨x, ring, i⟩ :: G.resv.filter (·.x != x) }

/-- RPROD.take: the indices in ascending order, from the thread's progress index on; it waits while no slot is free. -/
def rprodTakeBody (k : KReg) (w : Who) (s : State) : Eff :=
  let v := s.k w k.toNat
  withRing w s k fun a r =>
    let step := fun (q : Ring × List (Nat × Nat)) (x : Nat) => match q.1.take with
      | some (r, i) => (r, q.2 ++ [(x, i)])
      | none => q
    let todo := w.xs.drop (if w.hood.isSome then w.prog else 0)
    let (r, got) := todo.foldl step (r, [])
    let s := s.modGroup w.d w.gid fun G => got.foldl (fun G q => G.reserve q.1 v q.2) G
    let s := if got.isEmpty then s else (s.putRing w.d w.gid a r).noteAcquire w.d w.gid v
    if got.length = todo.length then .ok s none
    else match w.hood with
      | some _ => .hold (s.modCtl w fun _ c => { c with prog := w.prog + got.length }) .wait
      | none =>
        let done := got.map (·.1)
        let out := w.all.filter fun x => done.contains x || !w.xs.contains x
        let s := s.finish { w with all := out, xs := done } (Instr.rprodTake k).use none unsafePoint w.next
        let stay := w.xs.filter (!done.contains ·)
        .done (s.holdAt { w with all := stay, xs := stay } (.rprodTake k) .wait)

/-- RPROD.fill: held until the release's writes are complete; every index must hold a reservation. -/
def rprodFillBody (k : KReg) (w : Who) (s : State) : Eff :=
  let v := s.k w k.toNat
  withRing w s k fun a r =>
    match s.group w.d w.gid with
    | none => .done s
    | some G =>
      let bad := w.xs.filter fun x => (G.reserved x v).isNone
      if !bad.isEmpty then .trap { cause := Cause.baruse, faddr := BitVec.ofNat 64 v.toNat, xs := bad }
      else if !s.boundReady w.d w.gid w.xs v then .hold s .held
      else
        let r := w.xs.foldl (fun r x => r.markFull ((G.reserved x v).getD 0)) r
        .ok (((s.putRing w.d w.gid a r).noteRelease w.d w.gid v (s.unwritten w.d w.gid w.xs v)).modGroup w.d w.gid fun G =>
          { G with resv := G.resv.filter fun q => !(w.xs.contains q.x && q.ring == v) }) none

def rconsTakeBody (d : Reg) (k : KReg) (w : Who) (s : State) : Eff :=
  let v := s.k w k.toNat
  let go := gatherBody (Instr.rconsTake d k) (.consTake d.toNat) v.toNat .wait (some d.toNat) (BitVec.ofNat 64 v.toNat) w s
  if w.xs.isEmpty then go else withRing w s k fun _ _ => go
/-- RCONS.free is gathered, and held, as BARRIVE is (R128, R130, R139). -/
def rconsFreeBody (k : KReg) (w : Who) (s : State) : Eff :=
  let v := s.k w k.toNat
  let go := gatherBody (Instr.rconsFree k) .consFree v.toNat .arrive none (BitVec.ofNat 64 v.toNat) w s
  if w.xs.isEmpty || !w.cap.isEmpty then go else withRing w s k fun _ _ => go

def execRinit (k b : KReg) : State → Res := waveWord (.rinit k b) (rinitBody k b)
def execRprodTake (k : KReg) : State → Res := threadWord (.rprodTake k) (rprodTakeBody k)
def execRprodFill (k : KReg) : State → Res := threadWord (.rprodFill k) (rprodFillBody k)
def execRconsTake (d : Reg) (k : KReg) : State → Res := waveWord (.rconsTake d k) (rconsTakeBody d k)
def execRconsFree (k : KReg) : State → Res := waveWord (.rconsFree k) (rconsFreeBody k)

end Sys2Proof.Machine
end

