-- ==== Sys2Proof/Machine/Copy.lean ====
section
/-! DEFINITION. The words that queue carder commands, TCOPY, GATH, SCAT and CRUN, at issue (R59, R64, R65, R67 to R71), and GLD (R358). -/
namespace Sys2Proof.Machine

/-- Captures the `n`-byte record at `va` through the core's descriptor cache; it is aligned to its length (R67). -/
def State.capture (s : State) (w : Who) (va : DWord) (n : Nat) : Acc (List Byte × State) :=
  if va.toNat % n ≠ 0 then .fault Cause.align va
  else (s.readVa w.d w.core (w.gid = 0) va n).bind fun fresh =>
    let ctx := s.ctxOf w.d w.gid
    let bs := s.descRead w.d w.core ctx 0 0 va.toNat n fresh
    .ok (bs, (s.descFill w.d w.core ctx 0 0 va.toNat bs).fillTlb w.d w.core (w.gid = 0) va)

/-! ## Queueing (R59, R65) -/

def queueSize : Nat := 16
/-- The groups on a die: the active context's, and the supervisor wave. -/
def Die.resident (D : Die) : List Group := D.sv :: D.active.groups
/-- Entries occupied in a carder's queue: commands, and those of GLDs whose data has not returned (R59, R358). -/
def State.queueLen (s : State) (d : DieId) (inst : Nat) : Nat :=
  ((s.die d).carder inst).queue.length + ((s.die d).resident.map fun G => G.glds.countP fun q => q.inst == inst && decide (q.step < 3)).foldl (· + ·) 0
/-- The carders of a core's quad. -/
def State.coreCarders (s : State) (d : DieId) (core : Nat) : Nat × Nat :=
  let q := ((s.die d).quad core).getD 0
  (2 * q, 2 * q + 1)
/-- The carder that a bulk command goes to: the one with fewer entries, carder 0 on a tie; none while both are full. -/
def State.bulkCarder (s : State) (w : Who) : Option Nat :=
  let (a, b) := s.coreCarders w.d w.core
  if queueSize ≤ s.queueLen w.d a ∧ queueSize ≤ s.queueLen w.d b then none
  else if s.queueLen w.d b < s.queueLen w.d a then some b else some a
/-- The carder that CRUN names. -/
def State.crunCarder (s : State) (c : Nat) (w : Who) : Option Nat :=
  let (a, b) := s.coreCarders w.d w.core
  let i := if c = 0 then a else b
  if queueSize ≤ s.queueLen w.d i then none else some i
def State.enqueue (s : State) (d : DieId) (inst : Nat) (q : Cmd) : State :=
  { s.modCarder d inst (fun c => { c with queue := c.queue ++ [{ q with id := s.nextId }] }) with nextId := s.nextId + 1 }

/-- Queues one command for each index until the queues are full: the indices left over. -/
def queueEach (choose : State → Option Nat) (d : DieId) (mk : Nat → Cmd) : List Nat → State → State × List Nat
  | [], s => (s, [])
  | x :: xs, s => match choose s with
    | none => (s, x :: xs)
    | some inst => queueEach choose d mk xs (s.enqueue d inst (mk x))

/-- One command for each participant; the word is held while no entry is free, with the progress recorded: in a hood the number
queued, in a wave a mark on each lane whose command is queued (R65, log 15). -/
def queueBody (choose : State → Option Nat) (mk : Nat → Cmd) (w : Who) (G : Group) (s : State) : Eff :=
  let todo := if w.hood.isSome then w.xs.drop w.prog else w.xs.filter fun x => (G.ctlOf none x).prog == 0
  let (s, left) := queueEach choose w.d mk todo s
  if left.isEmpty then .ok s none
  else if w.hood.isSome then .hold (s.modCtl w fun _ c => { c with prog := w.xs.length - left.length }) .held
  else .hold (s.modCtl { w with all := todo.filter (!left.contains ·) } fun _ c => { c with prog := 1 }) .held

/-- What every command of a thread holds (R58, R67, R83, R85). -/
def Cmd.of (s : State) (w : Who) (G : Group) (kind : CmdKind) : Cmd :=
  { id := 0, kind := kind, ctx := s.ctxOf w.d w.gid, sup := w.gid = 0, core := w.core, gid := w.gid, xs := w.xs, npart := w.xs.length,
    pc := w.pc, base := w.xs.headD 0, number := G.number, map := 1, hood := w.hood.isSome }
/-- The command of one participant (R83, R85): BASE is that of the wave or hood, and MAP has the participant's bit; in a hood of more than 32
indices BASE is that of its 32 indices, so that the bit exists (log 45). -/
def Cmd.single (q : Cmd) (G : Group) (x : Nat) : Cmd :=
  if q.hood then { q with xs := [x], npart := 1, base := q.base + (x - q.base) / 32 * 32, map := (1 : Word) <<< ((x - q.base) % 32) }
  else { q with xs := [x], npart := 1, base := G.first + 32 * G.pos x, map := (1 : Word) <<< G.laneNo x }
/-- A bulk command with what it knows of its bound object at issue: that it is a ring record, and the slot that index `x` has reserved (R68). -/
def State.bindCmd (s : State) (d : DieId) (G : Group) (x : Nat) (q : Cmd) : Cmd :=
  let obj := q.bufRec.bound
  q.onRing ((s.ringAt d G.gid obj).map (·.2)) (G.reserved x obj)

/-- `n` words of uniform registers from `r` on. -/
def State.kvec (s : State) (w : Who) (r : Nat) : Vector Word 8 := vmap (fun i => s.k w (r + i)) (Vector.mk #[0, 1, 2, 3, 4, 5, 6, 7] rfl)

/-! ## TCOPY, CRUN, GATH, SCAT -/

def tcopyBody (mc : Bool) (n : Buf) (k c : KReg) (w : Who) (s : State) : Eff :=
  match s.group w.d w.gid with
  | none => .done s
  | some G =>
    let va := s.kpair w k.toNat
    if s.vaStalled w.d w.core (w.gid = 0) va 128 then .hold s .held
    else match s.capture w va 128 with
      | .fault cause fa => kfault w cause fa
      | .ok (image, s) =>
        let q : Cmd := { Cmd.of s w G .tcopy with
          mc := mc, mask := if mc then (s.k w (c.toNat + 8)).setWidth 16 else 0, buf := s.bufBits w n, ops := s.kvec w c.toNat, image := image }
        queueBody (fun s => s.bulkCarder w) (fun x => s.bindCmd w.d G x (q.single G x)) w G (s.useRecord w.d w.gid q.bufRec)

def crunBody (c : Nat) (k a : KReg) (w : Who) (s : State) : Eff :=
  match s.group w.d w.gid with
  | none => .done s
  | some G =>
    let va := s.kpair w k.toNat
    if s.vaStalled w.d w.core (w.gid = 0) va 64 then .hold s .held
    else match s.capture w va 64 with
      | .fault cause fa => kfault w cause fa
      | .ok (image, s) =>
        if footBad image then kfault w Cause.fmt va
        else
          let q : Cmd := { Cmd.of s w G .crun with pgm := va, ops := s.kvec w a.toNat, image := image }
          queueBody (fun s => s.crunCarder c w) (fun x => { q.single G x with base := x, map := 1 }) w G s

/-- GATH and SCAT queue one command for all participants of a hood or of a logical wave (R64). -/
def rowsBody (kind : CmdKind) (n : Buf) (k : KReg) (a : Reg) (w : Who) (s : State) : Eff :=
  match s.group w.d w.gid with
  | none => .done s
  | some G =>
    let va := s.kpair w k.toNat
    if s.vaStalled w.d w.core (w.gid = 0) va 128 then .hold s .held
    else match s.capture w va 128 with
      | .fault cause fa => kfault w cause fa
      | .ok (image, s) =>
        match s.bulkCarder w with
        | none => .hold s .held
        | some inst =>
          let f := s.form w a.toNat
          let x0 := w.xs.headD 0
          let q : Cmd := { Cmd.of s w G kind with buf := s.bufBits w n, image := image, freg := BitVec.ofNat 8 a.toNat }
          let q : Cmd := s.bindCmd w.d G x0 q
          let q : Cmd := if q.hood then { q with fbase := f.at (w.all.headD 0) x0, fstride := f.stride, ftag := if f.uniform then 0 else 1 }
            else
              let base := G.first + 32 * G.pos x0
              { q with
                base := base, map := w.xs.foldl (fun m x => m ||| ((1 : Word) <<< G.laneNo x)) 0, ftag := 2
                lanes := w.xs.foldl (fun v x => vput v (G.laneNo x) (s.g w x a.toNat)) q.lanes }
          .ok ((s.useRecord w.d w.gid q.bufRec).enqueue w.d inst q) none

def execTcopy (n : Buf) (k c : KReg) : State → Res := jointWord (.tcopy n k c) (tcopyBody false n k c)
def execTcopyMc (n : Buf) (k c : KReg) : State → Res := jointWord (.tcopyMc n k c) (tcopyBody true n k c)
def execGath (n : Buf) (k : KReg) (a : Reg) : State → Res := waveWord (.gath n k a) (rowsBody .gath n k a)
def execScat (n : Buf) (k : KReg) (a : Reg) : State → Res := waveWord (.scat n k a) (rowsBody .scat n k a)
def execCrun (c : BitVec 1) (k a : KReg) : State → Res := jointWord (.crun c k a) (crunBody c.toNat k a)

/-! ## GLD -/

def GldWidth.bytes : Sys2Proof.GldWidth → Nat
  | .w32 => 4 | .x64 => 8

def Group.setGld (G : Group) (q : Gld) : Group := { G with glds := G.glds.map fun p => if p.id = q.id then q else p }

/-- A word whose HINT.ORD makes it a release is held until the thread's earlier accesses are complete (R247). -/
def State.releaseHeld (s : State) (w : Who) : Bool :=
  let (_, o) := ordOf w.hints
  (o == .rel || o == .ar) && !s.fullReady w.d w.gid w.xs

def releasing (body : Who → State → Eff) (w : Who) (s : State) : Eff := if s.releaseHeld w then .hold s .held else body w s

/-- Micro-steps 0 and 1 of a GLD: the checks of every participant, then the captured translations, in the translation cache of the carder whose free
entry it takes (R40, R59, R358). It starts at micro-step 0 again after a halt (R355). The thread goes on; its lookahead window waits for the result
(R21). -/
def gldIssue (wd : Sys2Proof.GldWidth) (d a : Reg) (w : Who) (s : State) : Eff :=
  let k := GldWidth.bytes wd
  let va := fun x => s.gpair w x a.toNat
  let inst := (s.bulkCarder w).getD (s.coreCarders w.d w.core).1
  let da := fun x => s.translate w.d (carderAgent inst) (w.gid = 0) (va x) .read
  let cause := fun x => if (va x).toNat >>> 57 ≠ 0 then some Cause.page else if (va x).toNat % k ≠ 0 then some Cause.align
    else match da x with
      | .fault c _ => some c
      | .ok _ => none
  let s := s.modCtl w fun _ c => { c with prog := 0 }
  if w.hood.isSome && !((s.form w a.toNat).uniform && (s.form w (a.toNat + 1)).uniform) then .expand
  else if s.releaseHeld w || w.xs.any fun x => s.walkStalled w.d (carderAgent inst) (w.gid = 0) (va x) || s.lateMain w.d w.gid (va x) k then .hold s .held
  else match firstFault (s.sameWave w) w.xs cause va (some a.toNat) with
    | some t => .done (s.trap { w with prog := 0 } t)
    | none => if (s.bulkCarder w).isNone then .hold s .held else
        let t := w.xs.foldl (fun t x => t.fillTlb w.d (carderAgent inst) (w.gid = 0) (va x)) s
        let q : Gld :=
          { id := s.nextId, hood := w.hood.isSome, xs := w.xs, pc := w.pc, chainPc := w.chainPc, chain := w.hints, ga := a.toNat, gd := d.toNat, regs := wd.regs,
            bytes := k, step := 1, inst := inst, vas := w.xs.map fun x => (x, va x),
            das := w.xs.map fun x => (x, match da x with | .ok a => a | .fault .. => 0) }
        .ok { t.modGroup w.d w.gid (fun G => { G with glds := G.glds ++ [q] }) with nextId := s.nextId + 1 } (some q.id)

/-- The thread of a GLD, at its word. -/
def Gld.who (q : Gld) (d : DieId) (G : Group) : Who :=
  { d := d, gid := G.gid, core := G.core, hood := if q.hood then ((G.hoods.find? fun h => q.xs.any fun x => decide (h.lo ≤ x ∧ x < h.hi)).map (·.lo)) else none, all := q.xs,
    xs := q.xs, pc := q.pc, chainPc := q.chainPc, hints := q.chain, prog := q.step }
/-- Micro-step 4: every destination register is written at once, in the hoods and lanes that now hold the participants (R358). -/
def Group.landGld (G : Group) (q : Gld) : Group :=
  let val := fun (x i : Nat) => BitVec.ofNat 32 (fieldAt (((q.data.find? (·.1 == x)).map (·.2)).getD []) (4 * i) 4)
  let G := (List.range q.regs).foldl (fun (G : Group) i => { G with
    hoods := G.hoods.map fun h => if q.xs.contains h.lo then { h with g := vput h.g (q.gd + i) (uni (val h.lo i)) } else h
    lanes := G.lanes.map fun l => if q.xs.contains l.x then { l with g := vput l.g (q.gd + i) (val l.x i) } else l }) G
  { G with glds := G.glds.filter (·.id != q.id) }
/-- A GLD meets a line in error: ECC, precise at its word, where its threads stand again (R310, R355). -/
def State.gldFault (s : State) (d : DieId) (G : Group) (q : Gld) (t : Trap) : State :=
  let f := s.faultRec (q.who d G) t
  let s := s.modGroup d G.gid fun G => G.rewind q (if G.gid = 0 then .none else .fault)
  if G.gid = 0 then s.raiseSv d f else s.raiseFault f
/-- A micro-step of a GLD that has issued: 2, the request is queued at the carder; 3, the data returns to the core's staging, in error if its line is
(R355); 4, every destination is written (R358). How long each takes is a free choice (log 36). -/
def State.gldStep (s : State) (d : DieId) (gid id : Nat) : State :=
  match s.group d gid with
  | none => s
  | some G => match G.glds.find? (·.id == id) with
    | none => s
    | some q =>
      let daOf := fun x => ((q.das.find? (·.1 == x)).map (·.2)).getD 0
      let vaOf := fun x => ((q.vas.find? (·.1 == x)).map (·.2)).getD 0
      if q.step = 1 then s.modGroup d gid (·.setGld { q with step := 2 })
      else if q.step = 2 then
        if !s.hit id || q.das.any fun p => s.stalled p.2 then s
        else match firstFault (s.sameWave (q.who d G)) q.xs (fun x => if s.badAt (daOf x) then some Cause.ecc else none) vaOf (some q.ga) with
          | some t => s.gldFault d G q t
          | none => s.modGroup d gid (·.setGld { q with step := 3, data := q.das.map fun p => (p.1, s.mem.readN p.2 q.bytes) })
      else (s.modGroup d gid (·.landGld q)).resolve d gid id

/-- GLD (R354, R355, R358): one command for each word of a hood or of a logical wave. -/
def execGld (wd : GldWidth) (d a : Reg) (la : La) : State → Res :=
  threadWord (.gld wd d a la) (perWave (.gld wd d a la) (gldIssue wd d a))

end Sys2Proof.Machine
end

