-- ==== Sys2Proof/Machine/CarderWords.lean ====
section
/-! DEFINITION. The carder-only words (R72 to R79), the start of a carder command (R60, R81) and the landing of one unit of a bulk
command (R68 to R70). -/
namespace Sys2Proof.Machine

/-! ## Carder-only words -/

/-- A carder word acts for the command that runs. -/
def withCmd (c : Carder) (s : State) (f : Cmd → CEff) : CEff :=
  match c.current with
  | none => .done s
  | some q => f q
/-- Reads at a carder address for the running command; an access to a frame on the move leaves the word for later (R54). -/
def cget (d : DieId) (inst : Nat) (q : Cmd) (s : State) (v : DWord) (n : Nat) (f : List Byte → CEff) : CEff :=
  if s.cstalled d inst q.sup v n then .done s
  else match s.cread d inst q.gid q.sup v n with
    | .fault c fa => .trap c fa
    | .ok bs => f bs
def cput (d : DieId) (inst : Nat) (q : Cmd) (s : State) (v : DWord) (bs : List Byte) (f : State → CEff) : CEff :=
  if s.cstalled d inst q.sup v bs.length then .done s
  else match s.cwrite d inst q.gid q.sup v bs with
    | .fault c fa => .trap c fa
    | .ok s => f s

def CWidth.bytes : Sys2Proof.CWidth → Nat
  | .n32 | .i32 => 4
  | .x64 => 8
def CWidth.extend (m : Sys2Proof.CWidth) (n : Nat) : DWord :=
  match m with
  | .i32 => (BitVec.ofNat 32 n).signExtend 64
  | _ => BitVec.ofNat 64 n
def SWidth.bytes : Sys2Proof.SWidth → Nat
  | .n32 => 4
  | .x64 => 8
/-- The address c[a] + c[b] × n (R74). -/
def Carder.indexed (c : Carder) (a b : Reg) (n : Nat) : DWord := c.reg a + c.reg b * BitVec.ofNat 64 n

def cldxBody (m : Sys2Proof.CWidth) (dst a b : Reg) (d : DieId) (inst : Nat) (c : Carder) (_ : List Hint) (s : State) : CEff :=
  let n := CWidth.bytes m
  let v := c.indexed a b n
  if v.toNat % n ≠ 0 then .trap Cause.align v
  else withCmd c s fun q => cget d inst q s v n fun bs =>
    .ok (c.set dst (CWidth.extend m (ofBytes bs))) (s.cfill d inst q.sup v n)
def cstxBody (m : Sys2Proof.CWidth) (src a b : Reg) (d : DieId) (inst : Nat) (c : Carder) (_ : List Hint) (s : State) : CEff :=
  let n := CWidth.bytes m
  let v := c.indexed a b n
  if v.toNat % n ≠ 0 then .trap Cause.align v
  else withCmd c s fun q => cput d inst q s v (bytesOf n (c.reg src).toNat) fun s => .ok c s

/-- Where the descriptor cache keeps a record at a carder address: space, group, address. -/
def descKey (q : Cmd) (v : DWord) : Nat × Nat × Nat :=
  match CAddr.of v with
  | some (.loc sp a) => if sp = spShared then (1, q.gid, a) else (2, 0, a)
  | _ => (0, 0, v.toNat)
/-- CADDR (R75). -/
def caddrBody (dst a b : Reg) (d : DieId) (inst : Nat) (c : Carder) (_ : List Hint) (s : State) : CEff :=
  let v := c.reg a
  if v.toNat % 128 ≠ 0 then .trap Cause.align v
  else withCmd c s fun q => cget d inst q s v 128 fun fresh =>
    let (sp, g, ad) := descKey q v
    let bs := s.descRead d (carderAgent inst) q.ctx sp g ad 128 fresh
    let s := (s.cfill d inst q.sup v 128).descFill d (carderAgent inst) q.ctx sp g ad bs
    let L := Layout.of bs
    let x := (List.range 8).map fun i => (vget c.c (b.toNat + i) 0).toNat
    if !L.ok then .trap Cause.fmt v
    else if L.outside x then .trap Cause.bounds 0
    else .ok (c.set dst (BitVec.ofInt 64 (L.addr x))) s

/-- CXFER moves one piece of 64 bytes at a time (R76). -/
def cxferBody (a b n : Reg) (d : DieId) (inst : Nat) (c : Carder) (_ : List Hint) (s : State) : CEff :=
  let len := (c.reg n).toNat
  if 2 ^ 32 ≤ len then .trap Cause.bounds 0
  else if len ≤ c.p0 then .ok c s
  else withCmd c s fun q =>
    let k := min 64 (len - c.p0)
    let at0 := BitVec.ofNat 64 c.p0
    cget d inst q s (c.reg a + at0) k fun bs => cput d inst q (s.cfill d inst q.sup (c.reg a + at0) k) (c.reg b + at0) bs fun s =>
      if c.p0 + k = len then .ok c s else .done (s.modCarder d inst fun o => { o with p0 := c.p0 + k })

/-- CSECT and CMRG take one step of their loop at a time (R77). -/
def sortedBody (merge : Bool) (w : Sys2Proof.SWidth) (dst a b : Reg) (d : DieId) (inst : Nat) (c : Carder) (_ : List Hint) (s : State) : CEff :=
  let k := SWidth.bytes w
  let reg := fun (r : Reg) (i : Nat) => vget c.c (r.toNat + i) 0
  let (sa, sb, out) := (reg a 0, reg a 2, reg b 0)
  let (la, lb, cap) := ((reg a 1).toNat, (reg a 3).toNat, (reg b 1).toNat)
  let el := fun (base : DWord) (i : Nat) => base + BitVec.ofNat 64 (k * i)
  match bestOf (fun (x y : DWord) => decide (x.toNat ≤ y.toNat)) ([sa, sb, out].filter fun v => v.toNat % k ≠ 0) with
  | some v => .trap Cause.align v
  | none => withCmd c s fun q =>
    let (i, j) := (c.p0, c.p1)
    let t := if i < la then s.cfill d inst q.sup (el sa i) k else s
    let t := if j < lb then t.cfill d inst q.sup (el sb j) k else t
    let go := fun (s : State) (i j n : Nat) => CEff.done (s.modCarder d inst fun o => { o with p0 := i, p1 := j, p2 := n })
    let emit := fun (bs : List Byte) (i j : Nat) =>
      if out = 0 then go t i j (c.p2 + 1)
      else if cap ≤ c.p2 then .trap Cause.bounds (el out c.p2)
      else cput d inst q t (el out c.p2) bs fun s => go s i j (c.p2 + 1)
    if i < la ∧ j < lb then
      cget d inst q s (el sa i) k fun x => cget d inst q s (el sb j) k fun y =>
        if ofBytes x < ofBytes y then (if merge then emit x (i + 1) j else go t (i + 1) j c.p2)
        else if ofBytes y < ofBytes x then (if merge then emit y i (j + 1) else go t i (j + 1) c.p2)
        else emit x (i + 1) (j + 1)
    else if merge ∧ i < la then cget d inst q s (el sa i) k fun x => emit x (i + 1) j
    else if merge ∧ j < lb then cget d inst q s (el sb j) k fun y => emit y i (j + 1)
    else .ok (c.set dst (BitVec.ofNat 64 c.p2)) s

/-- CARRIVE: one arrival and a credit, or the producer's side of a ring (R78). -/
def carriveBody (a b : Reg) (d : DieId) (_ : Nat) (c : Carder) (_ : List Hint) (s : State) : CEff :=
  let v := c.reg a
  withCmd c s fun q =>
    match CAddr.of v with
    | none => .trap Cause.bounds v
    | some (.main _) => .trap Cause.baruse v
    | some (.loc sp ad) =>
      if ad % 16 ≠ 0 ∨ (sp = spShared ∧ ad = 0) then .trap Cause.baruse v
      else if !s.inSpace d q.gid sp ad 16 then .trap Cause.bounds v
      else match s.ring d q.gid ⟨sp, ad⟩ with
        | some r => if s.badObject d q.gid ⟨sp, ad⟩ then .trap Cause.ecc v else match r.take with
          | none => .hold s
          | some (r, i) => .ok c (s.putRing d q.gid ⟨sp, ad⟩ (r.markFull i))
        | none => if s.badObject d q.gid ⟨sp, ad⟩ then .trap Cause.ecc v else match s.arriveCredit d q.gid ⟨sp, ad⟩ (c.reg b).toNat with
          | none => .trap Cause.baruse v
          | some s => .ok c s

/-- A command completes: it leaves its queue, and threads that wait on a counter or for an entry look again (R59, R66). -/
def State.completeCmd (s : State) (d : DieId) (inst : Nat) : State :=
  s.modCarder d inst fun c =>
    let rest := c.queue.eraseP (·.started)
    if rest.any (·.started) then { c with queue := rest } else { queue := rest }

/-- CHALT (R79): the carder's state is cleared (R55). -/
def chaltBody (d : DieId) (inst : Nat) (_ : Carder) (_ : List Hint) (s : State) : CEff := .done (s.completeCmd d inst)

def execCldx (m : CWidth) (dst a b : Reg) : State → Res := carderWord (.cldx m dst a b) (cldxBody m dst a b)
def execCstx (m : CWidth) (src a b : Reg) : State → Res := carderWord (.cstx m src a b) (cstxBody m src a b)
def execCaddr (dst a b : Reg) : State → Res := carderWord (.caddr dst a b) (caddrBody dst a b)
def execCxfer (a b c : Reg) : State → Res := carderWord (.cxfer a b c) (cxferBody a b c)
def execCsect (m : SWidth) (dst a b : Reg) : State → Res := carderWord (.csect m dst a b) (sortedBody false m dst a b)
def execCmrg (m : SWidth) (dst a b : Reg) : State → Res := carderWord (.cmrg m dst a b) (sortedBody true m dst a b)
def execCarrive (a b : Reg) : State → Res := carderWord (.carrive a b) (carriveBody a b)
def execChalt : State → Res := carderWord .chalt chaltBody

/-! ## Starting a command -/

/-- Tile words that the thread issued before and whose local bytes the command reads or writes are still queued (R304). -/
def State.tileBefore (s : State) (d : DieId) (q : Cmd) : Bool :=
  (s.tileWrites d q.gid q.xs).any fun t => decide (t.id < q.id) && q.footprint.any fun f => match f.space with
    | none => false
    | some sp => t.touches sp f.lo.toNat (f.hi - f.lo).toNat
/-- A command may start: every conflicting command queued before it on the quad has completed (R81), and every write into its regions that its group has
acquired (R120). -/
def State.mayStart (s : State) (d : DieId) (inst : Nat) (q : Cmd) : Bool :=
  ((quadCarders (inst / 2)).all fun i => (s.carderOf d i).queue.all fun p => decide (q.id ≤ p.id) || !p.conflicts q) && !s.tileBefore d q &&
    !q.footprint.any (s.lateClash d q.gid q.object false q.id)


/-- A carder may begin a command: it executes none. A halt stops the work of the tenant and not the supervisor wave's (R311): beside a command that it
stopped, the carder may take up one of the supervisor wave's, but not a second program, as it has one set of registers (log 45). -/
def State.idleFor (s : State) (d : DieId) (c : Carder) (q : Cmd) : Bool :=
  match c.current with
  | none => true
  | some p => q.sup && !p.sup && (s.part (s.partOf d)).halt && !(p.kind == .crun && q.kind == .crun)

/-- CARDER_COMMAND_START: the first command of the queue that may start does, and goes to the head (R86); a CRUN sets the registers of R71. -/
def execCarderCommandStart (d : DieId) (inst : Nat) (s : State) : Res :=
  let c := s.carderOf d inst
  match c.queue.find? fun q => !q.started && s.serves d inst q && s.idleFor d c q && s.mayStart d inst q with
    | none => .next s
    | some q =>
      let queue := { q with started := true } :: c.queue.filter (·.id != q.id)
      if q.kind = .crun then
        let regs : Vector DWord 32 := vput ((List.range 8).foldl (fun v i => vput v i ((vget q.ops i 0).setWidth 64)) (Vector.replicate 32 0))
          8 (BitVec.ofNat 64 (q.xs.headD 0))
        .next (s.modCarder d inst fun _ => { c := regs, ctl := { pc := q.pgm + 64 }, queue := queue })
      else .next (s.modCarder d inst fun c => { c with queue := queue })

/-! ## Landing a unit -/

/-- The positions of a command's participants, one for a TCOPY. -/
def Cmd.positions (q : Cmd) : List Nat := if q.kind = .tcopy then [0] else q.xs.map (· - q.base)
/-- Where the unit at local offset `o` stands after the record's mode: outside it, or at an offset. -/
def unitOffset (B : BufRec) (o u : Nat) : Option Nat :=
  if o + u ≤ B.extent then some o else if B.mode = 3 ∧ B.extent ≠ 0 then some (o % B.extent) else none

/-- The check of one unit's local place before any byte moves: the modes fault and wrap, and the limits of R114. -/
def State.unitFault (s : State) (d : DieId) (q : Cmd) (o : Nat) : Option Nat :=
  let B := q.bufRec
  let u := q.unit
  match unitOffset B o u with
  | none => if B.mode = 0 ∨ B.mode = 3 then some (B.base + o) else none
  | some e => if e + u > B.extent ∨ !s.inSpace d q.gid B.space (B.base + e) u then some (B.base + e) else none

/-- The cluster members that a .mc command names: rank and group number (R69). -/
def Cmd.members (q : Cmd) (G : Group) : List (Nat × Nat) :=
  ((List.range 16).filter q.mask.getLsbD).map fun m => (m, q.number.toNat / G.csize * G.csize + m)

/-- The checks that need no place in the buffer, before any byte moves (R67 to R70): n units of u bytes are those of one participant.
DESIGN CHOICE: of two causes that no rule orders, the first of this list stands: BOUNDS for SPACE 2 before the FMT of a DIR that does not fit GATH or SCAT
(R70), and BOUNDS for DIR 1 or a wrong space of TCOPY.mc before PART (R69; log 45). -/
def State.bulkFault (s : State) (d : DieId) (q : Cmd) : Option (Cause × DWord) :=
  let L := q.layout
  let B := q.bufRec
  if !L.ok || B.bad then some (Cause.fmt, 0)
  else if B.space = spSpill then some (Cause.bounds, 0)
  else if L.fmt ≠ B.fmt then some (Cause.fmt, 0)
  else if (q.kind = .gath ∧ L.dir) ∨ (q.kind = .scat ∧ !L.dir) then some (Cause.fmt, 0)
  else if q.boxUnits * q.unit ≥ 2 ^ 28 then some (Cause.bounds, 0)
  else if q.mc ∧ (L.dir ∨ B.space ≠ spShared) then some (Cause.bounds, 0)
  else match s.group d q.gid with
    | none => none
    | some G =>
      let share := match s.launchOf d G with | some K => (K.hi - K.lo + K.kernel.gsize - 1) / K.kernel.gsize | none => 0
      if q.mc && (q.members G).any fun m => G.csize ≤ m.1 || (1 < G.csize && share ≤ m.2) then some (Cause.part, 0) else none
/-- The check over the whole box, or over every participant's units, before the first one moves (R68, R70): the lowest address that fails, and the
participant whose it is (R83, R85). -/
def State.boxFault (s : State) (d : DieId) (q : Cmd) : Option (Nat × Nat) :=
  bestOf (fun (a b : Nat × Nat) => decide (a.1 < b.1) || (a.1 == b.1 && decide (a.2 ≤ b.2)))
    (q.positions.flatMap fun j => (List.range q.boxUnits).filterMap fun v => (s.unitFault d q ((q.place j v).off + q.shift)).map fun a => (a, j))

/-- Moves one unit between main memory and the local memory of group `gid`, and credits it: all or nothing (R68, R84). A unit that clamp or
zero-fill drops is not read from main memory either (DESIGN CHOICE, log 45). -/
def State.moveUnit (s : State) (d : DieId) (inst : Nat) (q : Cmd) (gid : Nat) (p : Place1) : Acc State :=
  let L := q.layout
  let B := q.bufRec
  let u := q.unit
  let va := BitVec.ofInt 64 (L.addr p.coord)
  let out := L.outside p.coord
  let agent := carderAgent inst
  let local_ := fun (f : Nat → Acc State) (drop : Acc State) => match unitOffset B (p.off + q.shift) u with
    | none => drop
    | some e =>
      let a := B.base + e
      if e + u > B.extent ∨ !s.inSpace d gid B.space a u then .fault Cause.bounds (localCaddr B.space a)
      else if s.touchesLive d gid B.space a u then .fault Cause.baruse (localCaddr B.space a)
      else f a
  let store := fun (bs : List Byte) => (s.writeVa d agent q.sup va bs).bind fun s => .ok (s.fillVa d agent q.sup va u)
  let moved : Acc State :=
    if out ∧ L.fill = 2 then .fault Cause.bounds va
    else if L.dir then
      if out then .ok s
      else local_ (fun a => if s.badLocalAt d gid 0 B.space a u then .fault Cause.ecc (localCaddr B.space a) else store (s.readLocal d gid 0 B.space a u))
        (if B.mode = 2 then store (List.replicate u 0) else .ok s)
    else local_ (fun a =>
      if out then .ok (s.writeLocal d gid 0 B.space a (List.replicate u (if L.fill = 1 then 0xFF else 0)))
      else (s.readVa d agent q.sup va u).bind fun bs => .ok ((s.fillVa d agent q.sup va u).writeLocal d gid 0 B.space a bs)) (.ok s)
  moved.bind fun s => s.credit d gid B.bound q.slot u

/-- The unit's main-memory bytes lie in a frame on the move (R54). -/
def State.unitStalled (s : State) (d : DieId) (inst : Nat) (q : Cmd) (p : Place1) : Bool :=
  !q.layout.outside p.coord && s.vaStalled d (carderAgent inst) q.sup (BitVec.ofInt 64 (q.layout.addr p.coord)) q.unit

/-- Replaces the running command. -/
def State.putCmd (s : State) (d : DieId) (inst : Nat) (q : Cmd) : State :=
  s.modCarder d inst fun c => { c with queue := modFirst (·.started) (fun _ => q) c.queue }

/-- The bulk command faults: its own cause, at the issuing word (R82). -/
def State.cmdFault (s : State) (d : DieId) (inst : Nat) (q : Cmd) (cause : Cause) (fa : DWord) : State :=
  s.raiseFault (s.carderFault d inst q cause 0 q.pc fa)

/-- The next unit of a TCOPY, GATH or SCAT that is not multicast. -/
def State.landUnit (s : State) (d : DieId) (inst : Nat) (q : Cmd) : State :=
  let next : Option (Nat × Nat) := if q.kind = .tcopy then (if q.p0 < q.boxUnits then some (0, q.p0) else none)
    else q.nextPos.map fun j => (j, q.p1)
  match next with
  | none => s.completeCmd d inst
  | some (j, v) =>
    let p := q.place j v
    if s.unitStalled d inst q p then s
    else match s.moveUnit d inst q q.gid p with
      | .fault c fa => s.cmdFault d inst q c fa
      | .ok s =>
        if q.kind = .tcopy then s.putCmd d inst { q with p0 := q.p0 + 1 }
        else if v + 1 < q.boxUnits then s.putCmd d inst { q with p1 := v + 1 }
        else s.putCmd d inst { q with p0 := j + 1, p1 := 0 }

/-- A member of a cluster: not started, resident under a group id, or ended. -/
inductive Member where
  | waiting | here (gid : Nat) | gone
def State.member (s : State) (d : DieId) (G : Group) (number : Nat) : Member :=
  match (s.die d).active.groups.find? fun H => H.launch == G.launch && !H.node && H.number.toNat == number with
  | some H => .here H.gid
  | none => match s.launchOf d G with
    | some L => if L.unplaced.any fun u => u.node.isNone && u.number == number then .waiting else .gone
    | none => .gone

/-- The next delivery of a TCOPY.mc (R69): to the member that is furthest behind of those that have started. What a member has received above P0 is
kept over a halt by the command itself, and is delivered and credited again where EQRD and EQWR rebuild it (DESIGN CHOICE, log 45). -/
def State.landMc (s : State) (d : DieId) (inst : Nat) (q : Cmd) (G : Group) : State :=
  let n := q.boxUnits
  let ms := q.members G
  let late := if q.late.isEmpty then ms.map fun m => (m.1, q.p0) else q.late
  let numberOf := fun (r : Nat) => ((ms.find? (·.1 == r)).map (·.2)).getD 0
  let late := late.map fun m => match s.member d G (numberOf m.1) with | .gone => (m.1, n) | _ => m
  let low := fun (l : List (Nat × Nat)) => l.foldl (fun k m => min k m.2) n
  if late.all fun m => n ≤ m.2 then s.completeCmd d inst
  else
    let here := late.filterMap fun m => if n ≤ m.2 then none else match s.member d G (numberOf m.1) with
      | .here gid => some (m.1, m.2, gid)
      | _ => none
    match here.find? fun m => here.all fun k => m.2.1 ≤ k.2.1 with
    | none => s
    | some (r, v, gid) =>
      let p := q.place 0 v
      if s.unitStalled d inst q p then s
      else match s.moveUnit d inst q gid p with
        | .fault c fa => s.cmdFault d inst q c fa
        | .ok s =>
          let late := late.map fun m => if m.1 = r then (r, v + 1) else m
          s.putCmd d inst { q with late := late, p0 := low late }

/-- UNIT_LANDING: the checks before the first unit; between those that need no place and those of the box, a ring slot for a command whose index
reserved none (DESIGN CHOICE, log 45); then one unit. -/
def execUnitLanding (d : DieId) (inst : Nat) (s : State) : Res :=
  match (s.carderOf d inst).current with
  | some q =>
    if q.kind = .crun || !s.serves d inst q then .next s
    else match s.group d q.gid with
      | none => .next s
      | some G =>
        let first := decide (q.p0 = 0 ∧ q.p1 = 0) && q.late.isEmpty
        if q.mc && q.mask == 0 then .next (s.completeCmd d inst)
        else match (if first then s.bulkFault d q else none) with
        | some (c, fa) => .next (s.cmdFault d inst q c fa)
        | none => match (if q.slot.isNone then s.ringAt d q.gid q.object else none) with
          | some (a, r) => match r.take with
            | none => .next s
            | some (r, i) => .next ((s.putRing d q.gid a r).putCmd d inst (q.onRing (some r) (some i)))
          | none => match (if first then s.boxFault d q else none) with
            | some (a, j) => .next (s.raiseFault (s.carderFault d inst q Cause.bounds 0 q.pc (localCaddr q.bufRec.space a) (some j)))
            | none => .next (if q.mc then s.landMc d inst q G else s.landUnit d inst q)
  | none => .next s

end Sys2Proof.Machine
end

