-- ==== Sys2Proof/Machine/Forms.lean ====
section
/-! DEFINITION. REFORM (R153), FORM, FORM.tag, EXPAND and HCOUNT (R164, R165). -/
namespace Sys2Proof.Machine

/-- The lowest index of a lane's position: LO in a wave (R150). -/
def Group.posLo (G : Group) (x : Nat) : Nat := G.first + 32 * G.pos x

def formBody (d a b : Reg) (w : Who) (s : State) : Eff :=
  match w.hood, s.group w.d w.gid with
  | some _, _ =>
    let fa := s.form w a.toNat
    let fb := s.form w b.toNat
    if fb.uniform then .ok (s.setForm w d.toNat ⟨fa.base, fa.stride + fb.base⟩) none else .expand
  | none, some G => .ok (s.setLanes w w.xs d.toNat fun x =>
      s.g w x a.toNat + s.g w x b.toNat * BitVec.ofNat 32 (x - G.posLo x)) none
  | none, none => .done s
def formTagBody (d a : Reg) (w : Who) (s : State) : Eff :=
  .ok (s.setUni w d.toNat (match w.hood with | some _ => bit 32 (!(s.form w a.toNat).uniform) | none => 2)) none

/-- EXPAND: the range expands, and in lanes nothing is left to do (R165). -/
def expandBody (w : Who) (s : State) : Eff := if w.hood.isSome then .expand else .ok s none

/-- HCOUNT: the participants of a hood; of a wave, the active lanes of each (R165). -/
def hcountBody (d : Reg) (w : Who) (s : State) : Eff :=
  match w.hood, s.group w.d w.gid with
  | some _, _ => .ok (s.setForm w d.toNat (uni (BitVec.ofNat 32 (min w.xs.length 0xFFFFFFFF)))) none
  | none, some G => .ok (s.setLanes w w.xs d.toNat fun x => BitVec.ofNat 32 (w.xs.countP fun y => G.pos y == G.pos x)) none
  | none, none => .done s

/-- The form that register `n` of the lanes `xs` has, if the values are affine (R153). -/
def State.laneForm (s : State) (w : Who) (n : Nat) : Option Form :=
  match w.xs with
  | [] => none
  | [x] => some ⟨s.g w x n, 0⟩
  | x :: y :: _ =>
    let st := s.g w y n - s.g w x n
    if (List.range w.xs.length).all fun j => s.g w (w.xs.getD j 0) n == s.g w x n + st * BitVec.ofNat 32 j then some ⟨s.g w x n, st⟩ else none

/-- The hood that REFORM makes, if its test passes: contiguous indices of one role and allocation, a free hood context, and every
register of the live mask affine. The supervisor wave has no hood contexts (log 13).
DESIGN CHOICE: participants of two allocations make it fail, as there is no one allocation that the hood could have (R153, log 13). -/
def State.reformed (s : State) (w : Who) (d : Reg) (k : KReg) (G : Group) : Option Hood :=
  let m := s.kpair w k.toNat
  let x0 := w.xs.headD 0
  let alloc := G.allocOf x0
  let named := fun n => n < alloc && m.getLsbD n
  let fs := (List.range 64).map fun n => if named n then s.laneForm w n else some {}
  let ctl := ((G.lane x0).map (·.ctl)).getD {}
  if w.gid ≠ 0 ∧ w.xs = range x0 (x0 + w.xs.length) ∧ s.hoodsFree w.d w.core ≠ 0 ∧
      (w.xs.all fun x => G.roleOf (G.pos x) == G.roleOf (G.pos x0) && G.allocOf x == alloc) ∧ fs.all (·.isSome) then
    let h : Hood := { lo := x0, hi := x0 + w.xs.length, ctl := ctl.advance (Instr.reform d k).use true none (w.pc + 4),
                      g := (List.range 64).foldl (fun v n => vput v n (((fs.getD n none).getD {}).norm x0 (x0 + w.xs.length))) (Vector.replicate 64 {}) }
    some { h with g := vput h.g d.toNat (uni 1) }
  else none

def reformBody (d : Reg) (k : KReg) (w : Who) (s : State) : Eff :=
  match w.hood, s.group w.d w.gid with
  | some _, _ => .ok (s.setForm w d.toNat (uni 1)) none
  | none, none => .done s
  | none, some G =>
    if w.xs.any fun x => (G.ctlOf none x).outstanding then .hold s .held
    else match s.reformed w d k G with
      | none => .ok (s.setLanes w w.xs d.toNat fun _ => 0) none
      | some h =>
        let out := w.all.filter (!w.xs.contains ·)
        let s := s.finish { w with all := out, xs := [] } (Instr.reform d k).use none unsafePoint w.next
        .done (s.modGroup w.d w.gid fun G =>
          ({ G with hoods := G.hoods ++ [h], lanes := G.lanes.filter fun l => !w.xs.contains l.x } : Group).settle)

def execForm (d a b : Reg) : State → Res := threadWord (.form d a b) (formBody d a b)
def execFormTag (d a : Reg) : State → Res := threadWord (.formTag d a) (formTagBody d a)
def execExpand : State → Res := threadWord .expand expandBody
def execHcount (d : Reg) : State → Res := threadWord (.hcount d) (hcountBody d)
def execReform (d : Reg) (k : KReg) : State → Res := threadWord (.reform d k) (reformBody d k)

end Sys2Proof.Machine
end

