-- ==== Sys2Proof/Machine/Control.lean ====
section
/-! DEFINITION. The control words (R260 to R269) and the hints (R25, R26). -/
namespace Sys2Proof.Machine

/-- A branch target (R19, R261). -/
def branchTo (pc : DWord) (off : BitVec 19) : DWord := pc + off.signExtend 64 * 4
/-- The target of a taken branch is a safe point when the branch goes back (R349). -/
def backEdge (off : BitVec 19) : Bool := decide (off.toInt ≤ 0)

def braBody (off : BitVec 19) (w : Who) (s : State) : Eff := .jump s (fun _ => backEdge off) fun _ => branchTo w.pc off
def brcBody (c : Reg) (off : BitVec 19) (w : Who) (s : State) : Eff :=
  match w.hood with
  | some _ => byCond w (fun x => (s.g w x c.toNat).getLsbD 0) fun t =>
      .jump s (fun _ => t && backEdge off) fun _ => if t then branchTo w.pc off else w.pc + 4
  | none =>
    let taken := fun x => (s.g w x c.toNat).getLsbD 0
    .jump s (fun x => taken x && backEdge off) fun x => if taken x then branchTo w.pc off else w.pc + 4
def callBody (d : Reg) (off : BitVec 19) (w : Who) (s : State) : Eff :=
  .jump (s.setUni w d.toNat (w.pc + 4).lo) unsafePoint fun _ => branchTo w.pc off

/-- RET and BRX (R262): the target has the upper half of the word's own PC. -/
def retBody (a : Reg) (w : Who) (s : State) : Eff :=
  let tgt := fun x => pair (s.g w x a.toNat) w.pc.hi
  if w.hood.isSome && !(s.form w a.toNat).uniform then .expand
  else match firstFault (s.sameWave w) w.xs (fun x => if (tgt x).toNat % 4 ≠ 0 then some Cause.align else none) tgt (some a.toNat) with
    | some t => .trap t
    | none => .jump s unsafePoint tgt

/-- A carder's jumps (R57). -/
def cbraBody (off : BitVec 19) (_ : DieId) (_ : Nat) (c : Carder) (_ : List Hint) (s : State) : CEff := .jump s c (branchTo c.ctl.pc off)
def cbrcBody (r : Reg) (off : BitVec 19) (_ : DieId) (_ : Nat) (c : Carder) (_ : List Hint) (s : State) : CEff :=
  .jump s c (if (c.reg r).getLsbD 0 then branchTo c.ctl.pc off else c.ctl.pc + 4)
def ccallBody (d : Reg) (off : BitVec 19) (_ : DieId) (_ : Nat) (c : Carder) (_ : List Hint) (s : State) : CEff :=
  .jump s (c.set d (c.ctl.pc + 4)) (branchTo c.ctl.pc off)
def cretBody (a : Reg) (_ : DieId) (_ : Nat) (c : Carder) (_ : List Hint) (s : State) : CEff :=
  if (c.reg a).toNat % 4 ≠ 0 then .trap Cause.align (c.reg a) else .jump s c (c.reg a)
def cskip (_ : DieId) (_ : Nat) (c : Carder) (_ : List Hint) (s : State) : CEff := .ok c s

/-! ## EXIT -/

/-- The indices end: their threads and reservations go (R265). -/
def Group.exitIdx (G : Group) (hood : Option Nat) (xs : List Nat) : Group :=
  { G with
    hoods := match hood with
      | some lo => if xs.isEmpty then G.hoods else G.hoods.filter (·.lo != lo)
      | none => G.hoods
    lanes := G.lanes.filter fun l => !xs.contains l.x
    resv := G.resv.filter fun q => !xs.contains q.x }

/-- EXIT completes the gathers that it leaves complete (R128): it is held until an arrival that comes of one can be applied (R130), and a fault of
one is precise at the EXIT. -/
def exitBody (w : Who) (s : State) : Eff :=
  match s.group w.d w.gid with
  | none => .done s
  | some G =>
    let t := s.modGroup w.d w.gid (·.exitIdx w.hood w.xs)
    let r := (positionsOf G w.xs).foldl (fun (r : GRes) p => r.andThen fun s => s.tryGather w.d w.gid p []) (.ok t)
    match r with
    | .fault c p => .trap { cause := c, xs := w.xs.filter fun x => G.pos x == p }
    | .hold => .hold s .held
    | .ok t =>
      let out := w.all.filter (!w.xs.contains ·)
      let t := t.finish { w with all := out, xs := [], hood := if out.isEmpty then none else w.hood } Instr.exit.use none unsafePoint w.next
      .done (t.settleLaunch G.launch)

/-! ## JOIN, YIELD, TRAPI, BRK -/

/-- JOIN in lanes: the wait, with the mask in the progress index, ends for all of them at once (R264); in a hood it goes on. -/
def joinBody (k : KReg) (w : Who) (s : State) : Eff :=
  match w.hood with
  | some _ => .jump s unsafePoint w.next
  | none =>
    let m := (s.k w k.toNat).toNat
    let out := w.all.filter (!w.xs.contains ·)
    let s := s.finish { w with all := out, xs := [] } (Instr.join k).use none unsafePoint w.next
    let s := s.modCtl { w with all := w.xs } fun _ c => { c with wait := .join, prog := m, stepped := true, age := 0 }
    .done (s.settle w)

def yieldBody (w : Who) (s : State) : Eff := .jump (s.modCtl { w with all := w.xs } fun _ c => { c with yielded := 16 }) unsafePoint w.next

/-- TRAPI has completed when its trap is raised: its thread stands at PC + 4, and goes on there once the halt is over (R267). -/
def trapiBody (i : Instr) (code : BitVec 12) (w : Who) (s : State) : Eff :=
  let f := s.faultRec w { cause := Cause.trapi, faddr := code.setWidth 64, xs := w.xs }
  let s := s.finish w i.use none unsafePoint w.next
  .done (if w.gid = 0 then s.raiseSv w.d f else (s.modCtl { w with all := w.xs } fun _ c => { c with wait := .fault }).raiseFault f)
/-- BRK stays at its own PC. -/
def brkBody (code : BitVec 12) (w : Who) (_ : State) : Eff := .trap { cause := Cause.brk, faddr := code.setWidth 64, xs := w.xs }

/-! ## REGCLAIM and REGGIVE -/

/-- The indices for which the allocation cannot change so (R269); an index whose gather is under way was checked before. -/
def Group.allocBad (G : Group) (kind : GatherKind) (w : Who) (p : Nat → Bool) : List Nat :=
  w.failing fun x => w.xs.contains x && (G.doneAt kind 0 x).isNone &&
    (match G.openAt (G.pos x) with | some g => !(g.kind == kind && g.issued.contains x) | none => true) && p (G.allocOf x)

def reggiveBody (i : Instr) (n : Nat) (w : Who) (s : State) : Eff :=
  match s.group w.d w.gid with
  | none => .done s
  | some G =>
    let bad := G.allocBad (.give n) w fun g => g < 8 * n + 8
    if !bad.isEmpty then .trap { cause := Cause.ill, xs := bad } else gatherBody i (.give n) 0 .claim none 0 w s
def regclaimBody (i : Instr) (n : Nat) (w : Who) (s : State) : Eff :=
  match s.group w.d w.gid with
  | none => .done s
  | some G =>
    let bad := G.allocBad (.claim n) w fun g => 64 < g + 8 * n
    if !bad.isEmpty then .trap { cause := Cause.ill, xs := bad } else gatherBody i (.claim n) 0 .claim none 0 w s

/-! ## Hints -/

/-- A hint joins its thread's chain (R25, R26): at most one of each kind, and a predicate register below the allocation; otherwise
ILL at the chain's first word. It takes an issue slot and changes nothing else; no window counts it (R27). -/
def hintThread (i : Instr) (h : Hint) (w : Who) (s : State) : State :=
  match s.group w.d w.gid with
  | none => s
  | some G =>
    let bad := w.failing fun x => !i.use.ok || (w.hintsAt x).any (fun g => g.kind == h.kind) ||
      (match h with | .pred g => G.allocOf x ≤ g.toNat | _ => false)
    if !bad.isEmpty then s.trap w { cause := Cause.ill, xs := bad, pc := some (w.chainPcAt (bad.headD 0)) }
    else s.modCtl w fun _ c => { c with pc := w.pc + 4, chain := c.chain ++ [h], chainPc := c.stepPc, age := 0 }

def hintCarder (i : Instr) (h : Hint) (d : DieId) (inst : Nat) (s : State) : State :=
  let c := (s.die d).carder inst
  let chainPc := if c.ctl.chain.isEmpty then c.ctl.pc else c.ctl.chainPc
  let bad := !i.carderShared || !i.use.ok || c.ctl.chain.any (fun g => g.kind == h.kind) ||
    (match h with | .pred g => decide (32 ≤ g.toNat) | _ => false)
  if bad then s.card d inst Cause.ill (if i.carderShared then chainPc else c.ctl.pc) 0
  else s.modCarder d inst fun o => { o with ctl := { o.ctl with pc := c.ctl.pc + 4, chain := o.ctl.chain ++ [h], chainPc := chainPc } }

def hintWord (i : Instr) (h : Hint) (s : State) : Res :=
  match s.cur with
  | .none => .fault .noThread
  | .carder d inst => .next (hintCarder i h d inst s)
  | a => match s.who a with
    | none => .fault .noThread
    | some w => .next (hintThread i h w s)

/-! ## The words -/

def execBra (off : BitVec 19) : State → Res := sharedWord (.bra off) (braBody off) (cbraBody off)
def execBrc (c : Reg) (off : BitVec 19) : State → Res := sharedWord (.brc c off) (brcBody c off) (cbrcBody c off)
def execCall (d : Reg) (off : BitVec 19) : State → Res := sharedWord (.call d off) (callBody d off) (ccallBody d off)
def execRet (a : Reg) : State → Res := sharedWord (.ret a) (retBody a) (cretBody a)
def execBrx (a : Reg) : State → Res := sharedWord (.brx a) (retBody a) (cretBody a)
def execExit : State → Res := threadWord .exit exitBody
def execYield : State → Res := threadWord .yield yieldBody
def execNop : State → Res := sharedWord .nop (fun _ s => .ok s none) cskip
def execJoin (k : KReg) : State → Res := threadWord (.join k) (joinBody k)
def execRegclaim (n : Reg) : State → Res := waveWord (.regclaim n) (regclaimBody (.regclaim n) n.toNat)
def execReggive (n : Reg) : State → Res := waveWord (.reggive n) (reggiveBody (.reggive n) n.toNat)
def execTrapi (code : BitVec 12) : State → Res := threadWord (.trapi code) (trapiBody (.trapi code) code)
def execBrk (code : BitVec 12) : State → Res := threadWord (.brk code) (brkBody code)
def execHintImmhi (v : BitVec 19) : State → Res := hintWord (.hintImmhi v) (.immhi v)
def execHintOrd (sc : Scope) (o : Order) (c : CachePolicy) : State → Res := hintWord (.hintOrd sc o c) (.ord sc o c)
def execHintMerge : State → Res := hintWord .hintMerge .merge
def execHintFmtx (r : HintRound) (sat sr : Bool) (seed : BitVec 16) : State → Res :=
  hintWord (.hintFmtx r sat sr seed) (.fmtx r sat sr seed)
def execHintLife (us : BitVec 22) : State → Res := hintWord (.hintLife us) (.life us)
def execHintPred (g : Reg) : State → Res := hintWord (.hintPred g) (.pred g)

end Sys2Proof.Machine
end

