-- ==== Sys2Proof/Machine/Float.lean ====
section
/-! DEFINITION. Number formats (R166 to R174): reading, exact arithmetic, rounding, block conversion; the floating-point operations of
R186 to R192 and the bounds of R191 on values. -/
namespace Sys2Proof.Machine

/-! ## Formats and values -/

/-- A floating-point format (R166). `inf`: it has infinities; e43 has none and one NaN pattern. -/
structure FloatFmt where
  ebits : Nat
  mbits : Nat
  bias  : Nat
  inf   : Bool
  nan   : Nat
  deriving DecidableEq, Repr

def f32 : FloatFmt := ⟨8, 23, 127, true, 0x7FC00000⟩
def b16 : FloatFmt := ⟨8, 7, 127, true, 0x7FC0⟩
def h16 : FloatFmt := ⟨5, 10, 15, true, 0x7E00⟩
def e43 : FloatFmt := ⟨4, 3, 7, false, 0x7F⟩
def e52 : FloatFmt := ⟨5, 2, 15, true, 0x7E⟩
/-- The floating-point format of a code (R34). -/
def floatFmt (c : Nat) : Option FloatFmt :=
  if c = 1 then some f32 else if c = 2 then some b16 else if c = 3 then some h16 else if c = 4 then some e43 else if c = 5 then some e52 else none
def NumFmt.fmt : Sys2Proof.NumFmt → FloatFmt
  | .f32 => f32 | .b16 => b16 | .h16 => h16 | .e43 => e43 | .e52 => e52

def FloatFmt.width (f : FloatFmt) : Nat := 1 + f.ebits + f.mbits
/-- The exponent of the smallest normal. -/
def FloatFmt.emin (f : FloatFmt) : Int := 1 - (f.bias : Int)
/-- The largest finite value, as bits without sign (R166). -/
def FloatFmt.maxBits (f : FloatFmt) : Nat :=
  if f.inf then (2 ^ f.ebits - 1) * 2 ^ f.mbits - 1 else 2 ^ (f.ebits + f.mbits) - 2
def FloatFmt.infBits (f : FloatFmt) : Nat := if f.inf then (2 ^ f.ebits - 1) * 2 ^ f.mbits else f.nan

/-- A value: NaN, an infinity, or sign, magnitude `m` times 2 to the `e` (R167). -/
inductive Val where
  | nan
  | inf (neg : Bool)
  | fin (neg : Bool) (m : Nat) (e : Int)
  deriving DecidableEq, Repr

/-- The value of the low bits of `v` in a format (R166, R167). -/
def FloatFmt.val (f : FloatFmt) (v : Nat) : Val :=
  let m := v % 2 ^ f.mbits
  let x := (v >>> f.mbits) % 2 ^ f.ebits
  let neg := v.testBit (f.ebits + f.mbits)
  if x = 2 ^ f.ebits - 1 ∧ f.inf then (if m = 0 then .inf neg else .nan)
  else if x = 2 ^ f.ebits - 1 ∧ m = 2 ^ f.mbits - 1 then .nan
  else if x = 0 then .fin neg m (f.emin - f.mbits)
  else .fin neg (2 ^ f.mbits + m) ((x : Int) - f.bias - f.mbits)

/-! ## Rounding -/

/-- Rounding modes (R172): stochastic rounding has its seed. -/
inductive Mode where
  | rne | rz | rdn | rup
  | sr (seed : BitVec 16)
  deriving DecidableEq, Repr

/-- The 16 random bits of stochastic rounding (R173). -/
def srBits (seed : BitVec 16) (key : Word) : Nat :=
  let v : Word := key * 0x9E3779B1 + seed.setWidth 32 * 0x85EBCA77
  let v := v ^^^ (v >>> 15)
  let v := v * 0x2C1B3C6D
  let v := v ^^^ (v >>> 12)
  v.toNat % 2 ^ 16

/-- `m` times 2 to the `-k`, rounded to an integer magnitude (R172, R173). -/
def roundShift (neg : Bool) (mode : Mode) (key : Word) (m k : Nat) : Nat :=
  let q := m >>> k
  let r := m % 2 ^ k
  if r = 0 then q
  else match mode with
    | .rne => if 2 * r > 2 ^ k ∨ (2 * r = 2 ^ k ∧ q % 2 = 1) then q + 1 else q
    | .rz => q
    | .rdn => if neg then q + 1 else q
    | .rup => if neg then q else q + 1
    | .sr seed => (m * 2 ^ 16 / 2 ^ k + srBits seed key) / 2 ^ 16

/-- `m` times 2 to the `e` in units of 2 to the `st`, rounded. -/
def roundAt (neg : Bool) (mode : Mode) (key : Word) (m : Nat) (e st : Int) : Nat :=
  if st ≤ e then m * 2 ^ (e - st).toNat else roundShift neg mode key m (st - e).toNat

/-- What an overflow gives, as bits without the sign handled (R174): an infinity (NaN in e43), or the largest finite value. -/
def FloatFmt.overflow (f : FloatFmt) (neg : Bool) (mode : Mode) (sat : Bool) : Nat :=
  let sign := if neg then 2 ^ (f.ebits + f.mbits) else 0
  let big := if f.inf then sign + f.infBits else f.nan
  if sat then sign + f.maxBits
  else match mode with
    | .rne | .sr _ => big
    | .rz => sign + f.maxBits
    | .rdn => if neg then big else sign + f.maxBits
    | .rup => if neg then sign + f.maxBits else big
/-- What an infinite result gives (R174). -/
def FloatFmt.infinite (f : FloatFmt) (neg : Bool) (sat : Bool) : Nat := f.overflow neg .rne sat

/-- Rounds a finite value into a format, with overflow by R174. -/
def FloatFmt.round (f : FloatFmt) (neg : Bool) (m : Nat) (e : Int) (mode : Mode) (sat : Bool) (key : Word) : Nat :=
  let sign := if neg then 2 ^ (f.ebits + f.mbits) else 0
  if m = 0 then sign
  else
    let top : Int := Nat.log2 m + e
    let st : Int := (if top < f.emin then f.emin else top) - f.mbits
    let n := roundAt neg mode key m e st
    let mag := if n < 2 ^ f.mbits then n
      else
        let up := Nat.log2 n - f.mbits
        ((st + f.mbits + up + f.bias).toNat) * 2 ^ f.mbits + ((n >>> up) - 2 ^ f.mbits)
    if mag > f.maxBits then f.overflow neg mode sat else sign + mag

/-- Rounds any value into a format (R180). -/
def FloatFmt.of (f : FloatFmt) (v : Val) (mode : Mode) (sat : Bool) (key : Word) : Nat :=
  match v with
  | .nan => f.nan
  | .inf neg => f.infinite neg sat
  | .fin neg m e => f.round neg m e mode sat key

/-! ## Exact arithmetic -/

def signed (neg : Bool) (m : Nat) : Int := if neg then -(m : Int) else m
/-- The signed magnitude of a finite value in units of 2 to the `e0`, which is no more than its exponent. -/
def units (neg : Bool) (m : Nat) (e e0 : Int) : Int := signed neg (m * 2 ^ (e - e0).toNat)

def Val.neg : Val → Val
  | .nan => .nan
  | .inf s => .inf !s
  | .fin s m e => .fin (!s) m e
def Val.isNan : Val → Bool
  | .nan => true
  | _ => false

/-- The exact sum; an exact zero has the sign that IEEE 754 gives it in the mode (R186). -/
def Val.add (a b : Val) (mode : Mode) : Val :=
  match a, b with
  | .nan, _ | _, .nan => .nan
  | .inf s, .inf t => if s = t then .inf s else .nan
  | .inf s, _ => .inf s
  | _, .inf t => .inf t
  | .fin s m e, .fin t n f =>
    let e0 := min e f
    let v := units s m e e0 + units t n f e0
    if v = 0 then .fin (if m = 0 ∧ n = 0 ∧ s = t then s else decide (mode = .rdn)) 0 e0
    else .fin (decide (v < 0)) v.natAbs e0
/-- The exact product. -/
def Val.mul (a b : Val) : Val :=
  match a, b with
  | .nan, _ | _, .nan => .nan
  | .inf s, .inf t => .inf (s != t)
  | .inf s, .fin t n _ => if n = 0 then .nan else .inf (s != t)
  | .fin s m _, .inf t => if m = 0 then .nan else .inf (s != t)
  | .fin s m e, .fin t n f => .fin (s != t) (m * n) (e + f)

/-- A quotient to 100 bits and more, its lowest bit standing for what remains: it rounds as the exact quotient does. -/
def quotient (m n : Nat) (e f : Int) : Nat × Int :=
  let k := Nat.log2 n + 112
  let q := (m * 2 ^ k) / n
  (2 * q + (if (m * 2 ^ k) % n = 0 then 0 else 1), e - f - k - 1)
/-- The quotient of R357. -/
def Val.div (a b : Val) : Val :=
  match a, b with
  | .nan, _ | _, .nan => .nan
  | .inf _, .inf _ => .nan
  | .inf s, .fin t _ _ => .inf (s != t)
  | .fin s _ _, .inf t => .fin (s != t) 0 0
  | .fin s m e, .fin t n f =>
    if n = 0 then (if m = 0 then .nan else .inf (s != t))
    else let (q, g) := quotient m n e f; .fin (s != t) q g

/-- The integer square root, bit by bit from bit `k - 1` down. -/
def isqrt (n : Nat) : (k r : Nat) → Nat
  | 0, r => r
  | k + 1, r => isqrt n k (if (r + 2 ^ k) * (r + 2 ^ k) ≤ n then r + 2 ^ k else r)
/-- A value with an even exponent, for a square root. -/
def evenExp (m : Nat) (e : Int) : Nat × Int := if e % 2 = 1 then (2 * m, e - 1) else (m, e)
/-- A square root to 56 bits and more, its lowest bit standing for what remains: it rounds as the exact one does, in every mode (R172, R173). -/
def rootOf (m : Nat) (e : Int) : Nat × Int :=
  let (m, e) := evenExp m e
  let n := m * 2 ^ 112
  let r := isqrt n (Nat.log2 n / 2 + 1) 0
  (2 * r + (if r * r = n then 0 else 1), (e - 112) / 2 - 1)
/-- The reciprocal of a square root, in the same way. -/
def recipRoot (m : Nat) (e : Int) : Nat × Int :=
  let (m, e) := evenExp m e
  let k := Nat.log2 m / 2 + 50
  let n := 2 ^ (2 * k) / m
  let r := isqrt n (Nat.log2 n / 2 + 1) 0
  (2 * r + (if r * r * m = 2 ^ (2 * k) then 0 else 1), -e / 2 - k - 1)

/-- Compares finite values and infinities by value: less, equal (R188). -/
def Val.le (a b : Val) : Bool :=
  match a, b with
  | .nan, _ | _, .nan => false
  | .inf s, .inf t => s || !t
  | .inf s, _ => s
  | _, .inf t => !t
  | .fin s m e, .fin t n f => let e0 := min e f; decide (units s m e e0 ≤ units t n f e0)
def Val.eqv (a b : Val) : Bool := a.le b && b.le a
def Val.lt (a b : Val) : Bool := a.le b && !b.le a

/-! ## The arithmetic of R186 in any format -/

def FloatFmt.addOp (f : FloatFmt) (a b : Nat) (mode : Mode) (sat : Bool) (key : Word) : Nat :=
  f.of ((f.val a).add (f.val b) mode) mode sat key
def FloatFmt.subOp (f : FloatFmt) (a b : Nat) (mode : Mode) (sat : Bool) (key : Word) : Nat :=
  f.of ((f.val a).add (f.val b).neg mode) mode sat key
def FloatFmt.mulOp (f : FloatFmt) (a b : Nat) (mode : Mode) (sat : Bool) (key : Word) : Nat :=
  f.of ((f.val a).mul (f.val b)) mode sat key
def FloatFmt.fmaOp (f : FloatFmt) (a b c : Nat) (mode : Mode) (sat : Bool) (key : Word) : Nat :=
  f.of (((f.val a).mul (f.val b)).add (f.val c) mode) mode sat key
def FloatFmt.divOp (f : FloatFmt) (a b : Nat) (mode : Mode) (sat : Bool) (key : Word) : Nat :=
  f.of ((f.val a).div (f.val b)) mode sat key

/-- FMIN and FMAX on f32 bits (R187): −0 is smaller than +0; one NaN gives the other operand. -/
def fminOp (mx : Bool) (a b : Word) : Word :=
  let x := f32.val a.toNat
  let y := f32.val b.toNat
  if x.isNan && y.isNan then 0x7FC00000
  else if x.isNan then b
  else if y.isNan then a
  else
    let aLess := x.lt y || (x.eqv y && a.msb)
    if aLess != mx then a else b
def fnegOp (a : Word) : Word := if (f32.val a.toNat).isNan then 0x7FC00000 else a ^^^ 0x80000000
def fabsOp (a : Word) : Word := if (f32.val a.toNat).isNan then 0x7FC00000 else a &&& 0x7FFFFFFF

/-- The float conditions (R30, R188). -/
def FCond.holds (c : Sys2Proof.FCond) (a b : Word) : Bool :=
  let x := f32.val a.toNat
  let y := f32.val b.toNat
  match c with
  | .eq => x.eqv y
  | .ne => !x.eqv y
  | .lt => x.lt y
  | .le => x.le y
  | .un => x.isNan || y.isNan

/-- FCLASS (R189). -/
def fclassOp (a : Word) : Word :=
  let neg := a.msb
  let x := field a 30 23
  let m := field a 22 0
  let bitNo :=
    if x = 255 then (if m = 0 then (if neg then 0 else 7) else if a.getLsbD 22 then 9 else 8)
    else if x = 0 then (if m = 0 then (if neg then 3 else 4) else if neg then 2 else 5)
    else if neg then 1 else 6
  (1 : Word) <<< bitNo

/-! ## Conversions -/

/-- CVTIF (R178). -/
def cvtifOp (neg : Bool) (m : Nat) (mode : Mode) (key : Word) : Word := BitVec.ofNat 32 (f32.round neg m 0 mode false key)
/-- CVTFI (R179): rounded to an integer and clamped. -/
def cvtfiOp (isSigned : Bool) (a : Word) (mode : Mode) (key : Word) : Word :=
  let lo : Int := if isSigned then -(2 ^ 31 : Int) else 0
  let hi : Int := if isSigned then 2 ^ 31 - 1 else 2 ^ 32 - 1
  match f32.val a.toNat with
  | .nan => 0
  | .inf neg => BitVec.ofInt 32 (if neg then lo else hi)
  | .fin neg m e =>
    let v := signed neg (roundAt neg mode key m e 0)
    BitVec.ofInt 32 (max lo (min hi v))

/-! ## Block formats (R169 to R171) -/

/-- A block: shared exponent, four shifts, 16 element fields of p + 1 bits. -/
def blockPack (p e : Nat) (sh : List Nat) (els : List Nat) : Nat :=
  e + 256 * (sh.getD 0 0 + 4 * sh.getD 1 0 + 16 * sh.getD 2 0 + 64 * sh.getD 3 0) +
    2 ^ 16 * ((els.zipIdx.map fun q => q.1 * 2 ^ (q.2 * (p + 1))).foldl (· + ·) 0)

/-- The magnitude that the choice of exponent and shifts sees: an infinity reads as 2^128 (R171). -/
def Val.magOf : Val → Nat × Int
  | .fin _ m e => (m, e)
  | _ => (1, 128)
def magLt (a b : Nat × Int) : Bool := let e0 := min a.2 b.2; decide (a.1 * 2 ^ (a.2 - e0).toNat < b.1 * 2 ^ (b.2 - e0).toNat)
def maxMag (l : List Val) : Nat × Int := (l.map Val.magOf).foldl (fun a b => if magLt a b then b else a) (0, 0)

/-- Converts 16 values, each with its key, into a block (R171). -/
def toBlock (p : Nat) (xs : List (Val × Word)) (mode : Mode) : Nat :=
  if xs.any fun x => x.1.isNan then 255
  else
    let m := maxMag (xs.map (·.1))
    let e : Nat := if m.1 = 0 then 0 else (max 0 (min 254 ((Nat.log2 m.1 : Int) + m.2 + 127))).toNat
    let shift := fun q =>
      let a := maxMag (((xs.drop (4 * q)).take 4).map (·.1))
      let below := fun (s : Nat) => magLt a (1, (e : Int) - 126 - s)
      if below 3 then 3 else if below 2 then 2 else if below 1 then 1 else 0
    let sh := (List.range 4).map shift
    let els := xs.zipIdx.map fun q =>
      let u : Int := (e : Int) - 127 - (sh.getD (q.2 / 4) 0 : Nat) - ((p : Int) - 1)
      let top := 2 ^ p - 1
      match q.1.1 with
      | .fin neg m f =>
        let v := min top (roundAt neg mode q.1.2 m f u)
        v + (if neg ∧ v ≠ 0 then 2 ^ p else 0)
      | .inf neg => top + (if neg then 2 ^ p else 0)
      | .nan => 0
    blockPack p e sh els

/-- Element `k` of a block; `plain`: the sign bit is an extra magnitude bit (R170, R209). -/
def blockElem (p b k : Nat) (plain : Bool) : Val :=
  let e := b % 256
  let el := (b >>> (16 + k * (p + 1))) % 2 ^ (p + 1)
  let s := (b >>> (8 + 2 * (k / 4))) % 4
  let ex : Int := (e : Int) - 127 - s - ((p : Int) - 1)
  if e = 255 then .nan
  else if plain then .fin false el ex
  else
    let m := el % 2 ^ p
    .fin (el ≥ 2 ^ p && m ≠ 0) m ex

/-! ## The function words: within the bounds of R191 -/

/-- The unit in the last place of f32 at a value `m` times 2 to the `e`. -/
def ulpExp (m : Nat) (e : Int) : Int := if m = 0 then -149 else (max (-126) ((Nat.log2 m : Int) + e)) - 23
/-- A finite f32 value lies within `k` times 2 to the `u` of a value that `v` approximates: the margin of 2^−64 units covers what `v` leaves
out, so that the bound holds of the exact value (log 38). -/
def within (y : Word) (neg : Bool) (m : Nat) (e : Int) (k : Nat) (u : Int) : Bool :=
  match f32.val y.toNat with
  | .fin s n f =>
    let e0 := min (min e f) (u - 64)
    decide ((units s n f e0 - units neg m e e0).natAbs + 2 ^ (u - 64 - e0).toNat ≤ k * 2 ^ (u - e0).toNat)
  | _ => false

/-- The part's own bits if they meet the bound, else the nearest value: `raw` is the free value. -/
def bounded (raw : Word) (neg : Bool) (m : Nat) (e : Int) (ok : Word → Bool) : Word :=
  if ok raw then raw else BitVec.ofNat 32 (f32.round neg m e .rne false 0)

/-- A power of two, and its exponent. -/
def pow2? (m : Nat) (e : Int) : Option Int := if m ≠ 0 ∧ 2 ^ Nat.log2 m = m then some (Nat.log2 m + e) else none

/-- A result that decreases with the input's magnitude, between two neighbours of f32: up to the part's threshold the upper one, else the lower
one (R191). -/
def stepDown (threshold : Word → Word) (neg : Bool) (x : Word) (m : Nat) (e : Int) : Word :=
  let lo := BitVec.ofNat 32 (f32.round false m e .rz false 0)
  let hi := BitVec.ofNat 32 (f32.round false m e .rup false 0)
  let sign : Word := if neg then 0x80000000 else 0
  sign ||| (if x.toNat ≤ (threshold (sign ||| lo)).toNat then hi else lo)

def frcpOp (a : Word) (sat : Bool) : Word :=
  match f32.val a.toNat with
  | .nan => 0x7FC00000
  | .inf neg => if neg then 0x80000000 else 0
  | .fin neg m e =>
    if m = 0 ∨ !magLt (1, -128) (m, e) then BitVec.ofNat 32 (f32.infinite neg sat)
    else
      let (q, g) := quotient 1 m 0 e
      match pow2? m e with
      | some _ => BitVec.ofNat 32 (f32.round neg q g .rne false 0)
      | none => stepDown Config.frcp neg (a &&& 0x7FFFFFFF) q g

def frsqOp (a : Word) (sat : Bool) : Word :=
  match f32.val a.toNat with
  | .nan => 0x7FC00000
  | .inf neg => if neg then 0x7FC00000 else 0
  | .fin neg m e =>
    if m = 0 then BitVec.ofNat 32 (f32.infinite neg sat)
    else if neg then 0x7FC00000
    else
      let (q, g) := recipRoot m e
      match (pow2? m e).filter (· % 2 = 0) with
      | some k => BitVec.ofNat 32 (f32.round false 1 (-k / 2) .rne false 0)
      | none => stepDown Config.frsq false a q g

def fsqrtOp (a : Word) (mode : Mode) (sat : Bool) (key : Word) : Word :=
  match f32.val a.toNat with
  | .nan => 0x7FC00000
  | .inf neg => if neg then 0x7FC00000 else BitVec.ofNat 32 (f32.infinite false sat)
  | .fin neg m e =>
    if m = 0 then a
    else if neg then 0x7FC00000
    else let (r, g) := rootOf m e; BitVec.ofNat 32 (f32.round false r g mode sat key)

/-- Fixed point with 128 fraction bits: the natural logarithm of 2, and 2 to the `f` for `f` below 1, by its series. -/
def fx : Nat := 128
def ln2 : Nat := 235865763225513294137944142764154484399
def expSeries (y : Nat) : (n k term acc : Nat) → Nat
  | 0, _, _, acc => acc
  | n + 1, k, term, acc => let t := term * y / 2 ^ fx / k; expSeries y n (k + 1) t (acc + t)
def exp2Frac (f : Nat) : Nat := expSeries (f * ln2 / 2 ^ fx) 40 1 (2 ^ fx) (2 ^ fx)
/-- A signed value in fixed point, rounded down; values beyond 2^20 in magnitude do not occur. -/
def toFix (neg : Bool) (m : Nat) (e : Int) : Int :=
  if 0 ≤ e + fx then signed neg (m * 2 ^ (e + fx).toNat) else (signed neg m).fdiv (2 ^ (-(e + fx)).toNat)
/-- 2 to the `x`, as magnitude and exponent, for `x` in fixed point. -/
def exp2Fix (x : Int) : Nat × Int :=
  let k := x.fdiv (2 ^ fx)
  (exp2Frac (x.fmod (2 ^ fx)).toNat, k - fx)
/-- At most this far from 0, what 2 to the `x` adds to 1 is far below an ulp of 1, and the bound sees its sign alone: so far `x` is moved from 0. -/
def awayFromZero (neg : Bool) (x : Int) : Int := if neg then min x (-2 ^ 66) else max x (2 ^ 66)

def fexp2Op (a : Word) (sat : Bool) : Word :=
  match f32.val a.toNat with
  | .nan => 0x7FC00000
  | .inf neg => if neg then 0 else BitVec.ofNat 32 (f32.infinite false sat)
  | .fin neg m e =>
    if m = 0 then 0x3F800000
    else if !neg ∧ !magLt (m, e) (128, 0) then BitVec.ofNat 32 (f32.infinite false sat)
    else
      let whole := e ≥ 0 ∨ m % 2 ^ (-e).toNat = 0
      if neg ∧ magLt (200, 0) (m, e) then bounded (Config.fexp2 a) false 0 0 fun y => decide (y.toNat ≤ 2)
      else if whole ∧ (!neg ∨ !magLt (149, 0) (m, e)) then BitVec.ofNat 32 (f32.round false 1 (toFix neg m e / 2 ^ fx) .rne false 0)
      else
        let (v, g) := exp2Fix (awayFromZero neg (toFix neg m e))
        bounded (Config.fexp2 a) false v g fun y => !y.msb && within y false v g 2 (ulpExp v g)

/-- The fraction bits of log2 of `t` in fixed point, 1 ≤ t < 2, bit by bit. -/
def log2Bits : (n t acc : Nat) → Nat
  | 0, _, acc => acc
  | n + 1, t, acc =>
    let u := t * t / 2 ^ fx
    if u ≥ 2 * 2 ^ fx then log2Bits n (u / 2) (2 * acc + 1) else log2Bits n u (2 * acc)
/-- log2 of a positive value, in units of 2^−112. -/
def log2Fix (m : Nat) (e : Int) : Int :=
  let t := m * 2 ^ fx / 2 ^ Nat.log2 m
  ((Nat.log2 m : Int) + e) * 2 ^ 112 + log2Bits 112 t 0

def flog2Op (a : Word) (sat : Bool) : Word :=
  match f32.val a.toNat with
  | .nan => 0x7FC00000
  | .inf neg => if neg then 0x7FC00000 else BitVec.ofNat 32 (f32.infinite false sat)
  | .fin neg m e =>
    if m = 0 then BitVec.ofNat 32 (f32.infinite true sat)
    else if neg then 0x7FC00000
    else match pow2? m e with
      | some k => BitVec.ofNat 32 (f32.round (decide (k < 0)) k.natAbs 0 .rne false 0)
      | none =>
        let v := log2Fix m e
        let inside := !magLt (m, e) (1, -1) && !magLt (2, 0) (m, e)
        bounded (Config.flog2 a) (decide (v < 0)) v.natAbs (-112) fun y =>
          within y (decide (v < 0)) v.natAbs (-112) (if inside then 1 else 2) (if inside then -22 else ulpExp v.natAbs (-112))

/-- 2 log2(e) in fixed point, for tanh by 2 to the 2x log2(e). -/
def twoLog2e : Nat := 2 * (2 ^ (2 * fx) / ln2)
def ftanhOp (a : Word) : Word :=
  match f32.val a.toNat with
  | .nan => 0x7FC00000
  | .inf neg => if neg then 0xBF800000 else 0x3F800000
  | .fin neg m e =>
    if magLt (m, e) (1, -12) then a
    else if !magLt (m, e) (9, 0) then (if neg then 0xBF800000 else 0x3F800000)
    else
      let x := (toFix false m e).toNat
      let (v, g) := exp2Fix ((x * twoLog2e / 2 ^ fx : Nat) : Int)
      let t := v * 2 ^ (g + fx).toNat
      let (q, h) := quotient (t - 2 ^ fx) (t + 2 ^ fx) 0 0
      bounded (if neg then Config.ftanh (a &&& 0x7FFFFFFF) ^^^ 0x80000000 else Config.ftanh a) neg q h fun y =>
        within y neg q h 1 (-22) && within y neg q h 4 (ulpExp q h)

end Sys2Proof.Machine
end

