-- ==== Sys2Proof/Machine/FloatWords.lean ====
section
/-! DEFINITION. The floating-point words and the conversions of one register (R177 to R180, R184 to R192, R357). -/
namespace Sys2Proof.Machine

/-- The key of stochastic rounding at an index (R173); of the high half of a packed word (R185). -/
def keyOf (x : Nat) : Word := BitVec.ofNat 32 x
def highKey (k : Word) : Word := k ^^^ 0x80000000

/-- The mode that a rounding field names, `own` being the word's (R26). -/
def hintMode (own : Mode) : HintRound → Mode
  | .own => own | .rne => .rne | .rz => .rz | .rdn => .rdn | .rup => .rup
/-- Rounding mode and saturation of a word under a HINT.FMTX (R26, R185). -/
def roundingOf (hs : List Hint) (own : Mode) (ownSat : Bool) : Mode × Bool :=
  match fmtxOf hs with
  | none => (own, ownSat)
  | some (r, sat, sr, seed) => (if sr then .sr seed else hintMode own r, sat)
def Mode.stochastic : Mode → Bool
  | .sr _ => true
  | _ => false

/-- What a word does with the FMTX rounding: nothing, or the mode it uses by default (R185). -/
abbrev Rounds := Option Mode
/-- Mode and saturation for the word; a stochastic mode in effect expands a hood (R184). -/
def modeOf (w : Who) (r : Rounds) : Mode × Bool × Bool :=
  let (m, sat) := roundingOf w.hints (r.getD .rne) false
  match r with
  | none => (.rne, sat, false)
  | some _ => (m, sat, m.stochastic)

/-- Words of one, two and three sources; `f` takes mode, saturation, key and the sources. -/
def fword1 (d a : Reg) (r : Rounds) (f : Mode → Bool → Word → Word → Word) (w : Who) (s : State) : Eff :=
  let (m, sat, sr) := modeOf w r
  match w.hood with
  | some _ => if sr then .expand else formEff s w d (formU1 (f m sat 0) (s.form w a.toNat))
  | none => .ok (s.setLanes w w.xs d.toNat fun x => f m sat (keyOf x) (s.g w x a.toNat)) none
def fword2 (d a b : Reg) (r : Rounds) (f : Mode → Bool → Word → Word → Word → Word) (w : Who) (s : State) : Eff :=
  let (m, sat, sr) := modeOf w r
  match w.hood with
  | some _ => if sr then .expand else formEff s w d (formU2 (f m sat 0) (s.form w a.toNat) (s.form w b.toNat))
  | none => .ok (s.setLanes w w.xs d.toNat fun x => f m sat (keyOf x) (s.g w x a.toNat) (s.g w x b.toNat)) none
def fword3 (d a b : Reg) (r : Rounds) (f : Mode → Bool → Word → Word → Word → Word → Word) (w : Who) (s : State) : Eff :=
  let (m, sat, sr) := modeOf w r
  match w.hood with
  | some _ => if sr then .expand else formEff s w d (formU3 (f m sat 0) (s.form w d.toNat) (s.form w a.toNat) (s.form w b.toNat))
  | none => .ok (s.setLanes w w.xs d.toNat fun x =>
      f m sat (keyOf x) (s.g w x d.toNat) (s.g w x a.toNat) (s.g w x b.toNat)) none

/-- A binary32 operation on registers. -/
def on32 (f : Nat → Nat → Mode → Bool → Word → Nat) (m : Mode) (sat : Bool) (key a b : Word) : Word :=
  BitVec.ofNat 32 (f a.toNat b.toNat m sat key)
/-- A 16-bit operation on both halves (R192). -/
def halves (f : Nat → Nat → Nat → Mode → Bool → Word → Nat) (m : Mode) (sat : Bool) (key c a b : Word) : Word :=
  BitVec.ofNat 16 (f (field a 31 16) (field b 31 16) (field c 31 16) m sat (highKey key)) ++
    BitVec.ofNat 16 (f (field a 15 0) (field b 15 0) (field c 15 0) m sat key)
def addHalf (F : FloatFmt) (a b _ : Nat) : Mode → Bool → Word → Nat := F.addOp a b
def mulHalf (F : FloatFmt) (a b _ : Nat) : Mode → Bool → Word → Nat := F.mulOp a b

def execFadd (d a b : Reg) (la : La) : State → Res := threadWord (.fadd d a b la) (fword2 d a b (some .rne) (on32 f32.addOp))
def execFsub (d a b : Reg) (la : La) : State → Res := threadWord (.fsub d a b la) (fword2 d a b (some .rne) (on32 f32.subOp))
def execFmul (d a b : Reg) (la : La) : State → Res := threadWord (.fmul d a b la) (fword2 d a b (some .rne) (on32 f32.mulOp))
def execFdiv (d a b : Reg) (la : La) : State → Res := threadWord (.fdiv d a b la) (fword2 d a b (some .rne) (on32 f32.divOp))
def execFfma (d a b : Reg) (la : La) : State → Res :=
  threadWord (.ffma d a b la) (fword3 d a b (some .rne) fun m sat key c x y => BitVec.ofNat 32 (f32.fmaOp x.toNat y.toNat c.toNat m sat key))
def execFmin (d a b : Reg) (la : La) : State → Res := threadWord (.fmin d a b la) (fword2 d a b none fun _ _ _ => fminOp false)
def execFmax (d a b : Reg) (la : La) : State → Res := threadWord (.fmax d a b la) (fword2 d a b none fun _ _ _ => fminOp true)
def execFneg (d a : Reg) (la : La) : State → Res := threadWord (.fneg d a la) (fword1 d a none fun _ _ _ => fnegOp)
def execFabs (d a : Reg) (la : La) : State → Res := threadWord (.fabs d a la) (fword1 d a none fun _ _ _ => fabsOp)
def execFcmp (c : FCond) (d a b : Reg) (la : La) : State → Res :=
  threadWord (.fcmp c d a b la) (fword2 d a b none fun _ _ _ x y => bit 32 (FCond.holds c x y))
def execFrcp (d a : Reg) (la : La) : State → Res := threadWord (.frcp d a la) (fword1 d a none fun _ sat _ x => frcpOp x sat)
def execFrsq (d a : Reg) (la : La) : State → Res := threadWord (.frsq d a la) (fword1 d a none fun _ sat _ x => frsqOp x sat)
def execFsqrt (d a : Reg) (la : La) : State → Res :=
  threadWord (.fsqrt d a la) (fword1 d a (some .rne) fun m sat key x => fsqrtOp x m sat key)
def execFexp2 (d a : Reg) (la : La) : State → Res := threadWord (.fexp2 d a la) (fword1 d a none fun _ sat _ x => fexp2Op x sat)
def execFlog2 (d a : Reg) (la : La) : State → Res := threadWord (.flog2 d a la) (fword1 d a none fun _ sat _ x => flog2Op x sat)
def execFtanh (d a : Reg) (la : La) : State → Res := threadWord (.ftanh d a la) (fword1 d a none fun _ _ _ => ftanhOp)
def execFclass (d a : Reg) (la : La) : State → Res := threadWord (.fclass d a la) (fword1 d a none fun _ _ _ => fclassOp)
def execCvtifI32 (d a : Reg) (la : La) : State → Res :=
  threadWord (.cvtifI32 d a la) (fword1 d a (some .rne) fun m _ key x => cvtifOp x.msb x.toInt.natAbs m key)
def execCvtifN32 (d a : Reg) (la : La) : State → Res :=
  threadWord (.cvtifN32 d a la) (fword1 d a (some .rne) fun m _ key x => cvtifOp false x.toNat m key)
def execCvtfiI32 (d a : Reg) (la : La) : State → Res :=
  threadWord (.cvtfiI32 d a la) (fword1 d a (some .rz) fun m _ key x => cvtfiOp true x m key)
def execCvtfiN32 (d a : Reg) (la : La) : State → Res :=
  threadWord (.cvtfiN32 d a la) (fword1 d a (some .rz) fun m _ key x => cvtfiOp false x m key)

/-- FCVT (R180): the low bits of the source, one rounding, zero-extended. -/
def fcvtOp (t f : NumFmt) (m : Mode) (sat : Bool) (key a : Word) : Word :=
  BitVec.ofNat 32 ((NumFmt.fmt t).of ((NumFmt.fmt f).val a.toNat) m sat key)
def execFcvt (dst src : NumFmt) (d a : Reg) (la : La) : State → Res :=
  threadWord (.fcvt dst src d a la) (fword1 d a (some .rne) (fcvtOp dst src))

/-- HADD2 and HMUL2 have two sources, HFMA2 counts gd as a third (R184, R192). -/
def packed2 (d a b : Reg) (f : Nat → Nat → Nat → Mode → Bool → Word → Nat) : Who → State → Eff :=
  fword2 d a b (some .rne) fun m sat key x y => halves f m sat key 0 x y
def packed3 (d a b : Reg) (F : FloatFmt) : Who → State → Eff :=
  fword3 d a b (some .rne) fun m sat key c x y => halves F.fmaOp m sat key c x y
def execHadd2H16 (d a b : Reg) (la : La) : State → Res := threadWord (.hadd2H16 d a b la) (packed2 d a b (addHalf h16))
def execHmul2H16 (d a b : Reg) (la : La) : State → Res := threadWord (.hmul2H16 d a b la) (packed2 d a b (mulHalf h16))
def execHfma2H16 (d a b : Reg) (la : La) : State → Res := threadWord (.hfma2H16 d a b la) (packed3 d a b h16)
def execHadd2B16 (d a b : Reg) (la : La) : State → Res := threadWord (.hadd2B16 d a b la) (packed2 d a b (addHalf b16))
def execHmul2B16 (d a b : Reg) (la : La) : State → Res := threadWord (.hmul2B16 d a b la) (packed2 d a b (mulHalf b16))
def execHfma2B16 (d a b : Reg) (la : La) : State → Res := threadWord (.hfma2B16 d a b la) (packed3 d a b b16)

end Sys2Proof.Machine
end

