-- ==== Sys2Proof/Machine/CrossLane.lean ====
section
/-! DEFINITION. The words that combine lanes: SHFL, GSHFL, VOTE, LRED, LSCAN (R193 to R198), BKPACK and BKUNPK (R181, R182), and the
format slots they and the tile engine name (R175, R176). -/
namespace Sys2Proof.Machine

/-! ## Shuffle groups (R193) -/

/-- Lanes of a shuffle group. -/
def Group.shflWidth (G : Group) : Nat := if G.lw16 then 16 else 32
/-- Local number of an index in a group of `n` lanes, and the index that its lane 0 would hold. -/
def Group.localNo (G : Group) (n x : Nat) : Nat := G.laneNo x % n
def Group.localBase (G : Group) (n x : Nat) : Nat := x - G.localNo n x
/-- What another lane reads of index `x`: its lane's register, its hood's form, or 0. -/
def Group.peek (G : Group) (x r : Nat) : Word :=
  match G.lane x with
  | some l => vget l.g r 0
  | none => match G.hoods.find? fun h => decide (h.lo ≤ x ∧ x < h.hi) with
    | some h => (vget h.g r {}).at h.lo x
    | none => 0

/-- A word that combines lanes: hoods expand first (R184). `f` gets the group as the cycle began and, for each participant, the
participants of its shuffle group in ascending order, its local number, and the index of its group's lane 0. -/
def crossWord (d : Reg) (n : Group → Nat) (f : Group → List Nat → (l base x : Nat) → Word) (w : Who) (s : State) : Eff :=
  match w.hood, s.snapGroup w.d w.gid with
  | some _, _ => .expand
  | none, none => .done s
  | none, some G =>
    .ok (s.setLanes w w.xs d.toNat fun x =>
      let b := G.localBase (n G) x
      f G (w.xs.filter fun y => G.localBase (n G) y == b) (G.localNo (n G) x) b x) none

/-- The source lane of SHFL, an exact integer (R194). -/
def shflSrc (m : ShflMode) (l b : Nat) : Int :=
  match m with
  | .idx => b
  | .up => l - b
  | .down => l + b
  | .xor => l ^^^ b
def shflOf (m : ShflMode) (a b : Reg) (G : Group) (ps : List Nat) (l base x : Nat) : Word :=
  let src := shflSrc m l (G.peek x b.toNat).toNat
  if 0 ≤ src ∧ src < G.shflWidth ∧ ps.contains (base + src.toNat) then G.peek (base + src.toNat) a.toNat else G.peek x a.toNat
/-- The source lane of GSHFL (R195). -/
def gshflSrc (m : GshflMode) (n l b : Nat) : Nat :=
  match m with
  | .idx => b % n
  | .rot => (l + b) % n
  | .xor => l ^^^ (b % n)
def gshflOf (m : GshflMode) (a b : Reg) (G : Group) (_ : List Nat) (l base x : Nat) : Word :=
  G.peek (base + gshflSrc m G.shflWidth l (G.peek x b.toNat).toNat) a.toNat

/-- VOTE (R196). -/
def voteOf (m : VoteMode) (a : Reg) (G : Group) (ps : List Nat) (_ base x : Nat) : Word :=
  let yes := ps.filter fun y => (G.peek y a.toNat).getLsbD 0
  match m with
  | .any => bit 32 (!yes.isEmpty)
  | .all => bit 32 (yes.length == ps.length)
  | .ballot => yes.foldl (fun v y => v ||| ((1 : Word) <<< (y - base))) 0
  | .first => bit 32 (yes.head? == some x)

/-- LRED and LSCAN over integers (R197). -/
def redOf (o : RedOp) (l : List Word) : Word := l.foldl (RedOp.apply o) (RedOp.identity o)
def lredOf (o : RedOp) (a : Reg) (G : Group) (ps : List Nat) (_ _ _ : Nat) : Word := redOf o (ps.map fun y => G.peek y a.toNat)
def lscanOf (o : RedOp) (incl : Bool) (a : Reg) (G : Group) (ps : List Nat) (_ _ x : Nat) : Word :=
  redOf o ((ps.filter fun y => y < x || (incl && y == x)).map fun y => G.peek y a.toNat)

/-- The operators of the f32 forms and their identities (R198). -/
def FRedOp.apply (o : Sys2Proof.FRedOp) (a b : Word) : Word :=
  match o with
  | .add => BitVec.ofNat 32 (f32.addOp a.toNat b.toNat .rne false 0)
  | .min => fminOp false a b
  | .max => fminOp true a b
def FRedOp.identity : Sys2Proof.FRedOp → Word
  | .add => 0x80000000
  | .min | .max => 0x7FC00000
/-- One level of the pairwise tree. -/
def pairUp (op : Word → Word → Word) : List Word → List Word
  | a :: b :: l => op a b :: pairUp op l
  | l => l
/-- The fixed tree over all lanes of the group. -/
def treeOf (op : Word → Word → Word) : (levels : Nat) → List Word → List Word
  | 0, l => l
  | n + 1, l => treeOf op n (pairUp op l)
def lredFOf (o : FRedOp) (a : Reg) (G : Group) (ps : List Nat) (_ base _ : Nat) : Word :=
  (treeOf (FRedOp.apply o) 5 ((List.range G.shflWidth).map fun l =>
    if ps.contains (base + l) then G.peek (base + l) a.toNat else FRedOp.identity o)).headD 0
/-- The ascending chain over participants. -/
def lscanFOf (o : FRedOp) (incl : Bool) (a : Reg) (G : Group) (ps : List Nat) (_ _ x : Nat) : Word :=
  ((ps.filter fun y => y < x || (incl && y == x)).map fun y => G.peek y a.toNat).foldl (FRedOp.apply o) (FRedOp.identity o)

def execShfl (m : ShflMode) (d a b : Reg) (la : La) : State → Res :=
  threadWord (.shfl m d a b la) (crossWord d Group.shflWidth (shflOf m a b))
def execGshfl (m : GshflMode) (d a b : Reg) (la : La) : State → Res :=
  threadWord (.gshfl m d a b la) (crossWord d Group.shflWidth (gshflOf m a b))
def execVote (m : VoteMode) (d a : Reg) (la : La) : State → Res :=
  threadWord (.vote m d a la) (crossWord d Group.shflWidth (voteOf m a))
def execLred (o : RedOp) (d a : Reg) (la : La) : State → Res :=
  threadWord (.lred o d a la) (crossWord d Group.shflWidth (lredOf o a))
def execLscanIncl (o : RedOp) (d a : Reg) (la : La) : State → Res :=
  threadWord (.lscanIncl o d a la) (crossWord d Group.shflWidth (lscanOf o true a))
def execLscanExcl (o : RedOp) (d a : Reg) (la : La) : State → Res :=
  threadWord (.lscanExcl o d a la) (crossWord d Group.shflWidth (lscanOf o false a))
def execLredF32 (o : FRedOp) (d a : Reg) (la : La) : State → Res :=
  threadWord (.lredF32 o d a la) (crossWord d Group.shflWidth (lredFOf o a))
def execLscanInclF32 (o : FRedOp) (d a : Reg) (la : La) : State → Res :=
  threadWord (.lscanInclF32 o d a la) (crossWord d Group.shflWidth (lscanFOf o true a))
def execLscanExclF32 (o : FRedOp) (d a : Reg) (la : La) : State → Res :=
  threadWord (.lscanExclF32 o d a la) (crossWord d Group.shflWidth (lscanFOf o false a))

/-! ## Format slots -/

/-- A format slot (R175). -/
structure FmtSlotVal where
  fmt  : Nat
  rnd  : Nat
  sat  : Bool
  seed : BitVec 16
  /-- no reserved bit or value (R176) -/
  ok   : Bool
  deriving DecidableEq, Repr

def FmtSlotVal.of (v : DWord) : FmtSlotVal where
  fmt := field v 7 0
  rnd := field v 9 8
  sat := v.getLsbD 10
  seed := v.extractLsb' 16 16
  ok := fmtValid (field v 7 0) && field v 9 8 != 3 && field v 15 11 == 0 && field v 63 32 == 0
def Group.fmtSlot (G : Group) (n : Nat) : FmtSlotVal := FmtSlotVal.of (vget G.fmts n 0)
/-- The slot's own rounding. -/
def FmtSlotVal.mode (f : FmtSlotVal) : Mode := if f.rnd = 1 then .rz else if f.rnd = 2 then .sr f.seed else .rne

/-! ## BKPACK and BKUNPK -/

/-- A word over 16-lane halves with a block slot: FMT at issue where the slot does not name a block format (R176). -/
def blockWord (d : Reg) (n : FmtSlot) (f : Nat → FmtSlotVal → List Hint → Group → (l base x : Nat) → Word) (w : Who) (s : State) : Eff :=
  match w.hood, s.snapGroup w.d w.gid with
  | some _, _ => .expand
  | none, none => .done s
  | none, some G =>
    let v := G.fmtSlot n.toNat
    match blockP v.fmt with
    | none => .trap { cause := Cause.fmt, xs := w.xs }
    | some p => if !v.ok then .trap { cause := Cause.fmt, xs := w.xs } else crossWord d (fun _ => 16) (fun G _ => f p v w.hints G) w s

/-- Words of a packed block. -/
def blockWords (p : Nat) : Nat := (16 * (p + 1) + 16 + 31) / 32
def bkpackOf (a : Reg) (p : Nat) (v : FmtSlotVal) (hs : List Hint) (G : Group) (l base _ : Nat) : Word :=
  let (m, _) := roundingOf hs v.mode v.sat
  let xs := (List.range 16).map fun k => (f32.val (G.peek (base + k) a.toNat).toNat, keyOf (base + k))
  if l < blockWords p then BitVec.ofNat 32 (toBlock p xs m >>> (32 * l)) else 0
def bkunpkOf (a : Reg) (p : Nat) (_ : FmtSlotVal) (_ : List Hint) (G : Group) (l base _ : Nat) : Word :=
  let b := (List.range (blockWords p)).foldl (fun acc j => acc + (G.peek (base + j) a.toNat).toNat * 2 ^ (32 * j)) 0
  BitVec.ofNat 32 (f32.of (blockElem p b l false) .rne false 0)
def execBkpack (d a : Reg) (n : FmtSlot) (la : La) : State → Res := threadWord (.bkpack d a n la) (blockWord d n (bkpackOf a))
def execBkunpk (d a : Reg) (n : FmtSlot) (la : La) : State → Res := threadWord (.bkunpk d a n la) (blockWord d n (bkunpkOf a))

end Sys2Proof.Machine
end

