-- ==== Sys2Proof/Machine/Fetch.lean ====
section
/-! DEFINITION. Fetching words (R263, R348, R351), the issue stage of a core (R256 to R259, R281, R291, R292), and what the free choice
of what moves next stands for. -/
namespace Sys2Proof.Machine

/-! ## Fetch -/

/-- A fetch: the word and the state with the caches filled, a frame on the move (R54), or a fault. -/
inductive Fetched where
  | word (w : Word) (s : State)
  | stall
  | fault (c : Cause) (va : DWord)

/-- The 128-byte line that holds `da`, as the agent reads it: its instruction buffer, the second-level cache, or memory, where the line may be in
error (R310, R351). -/
def State.fetchLine (s : State) (d : DieId) (agent line : Nat) : Option (List Byte) :=
  let D := s.die d
  let fresh := if s.badAt (128 * line) || s.badAt (128 * line + 64) then none else some (s.mem.readN (line * 128) 128)
  let l2 := match D.icache.find? fun e => e.agent.isNone && e.line == line with
    | some e => if s.hit line then some e.bytes else fresh
    | none => fresh
  match D.icache.find? fun e => e.agent == some agent && e.line == line with
  | some e => if s.hit (line + 1) then some e.bytes else l2
  | none => l2

/-- Fills the second-level cache and the agent's buffer. -/
def State.fillLine (s : State) (d : DieId) (agent line : Nat) (bs : List Byte) : State :=
  s.modDie d fun D => { D with icache :=
    [⟨some agent, line, bs⟩, ⟨none, line, bs⟩] ++
      (D.icache.filter fun e => !(e.line == line && (e.agent.isNone || e.agent == some agent))) }

/-- Fetches the word at `pc`. -/
def State.fetch (s : State) (d : DieId) (agent : Nat) (sup : Bool) (pc : DWord) : Fetched :=
  match s.translate d agent sup pc .fetch with
  | .fault c va => .fault c va
  | .ok da =>
    if s.stalled da || s.walkStalled d agent sup pc then .stall
    else match s.fetchLine d agent (da / 128) with
      | none => .fault Cause.ecc pc
      | some bs => .word (BitVec.ofNat 32 (ofBytes ((bs.drop (da % 128)).take 4))) ((s.fillLine d agent (da / 128) bs).fillTlb d agent sup pc)

/-- A PC inside a portable range of the active context is decoded as Silol (R348). -/
def State.isSilol (s : State) (d : DieId) (gid : Nat) (pc : DWord) : Bool :=
  gid != 0 && (s.die d).active.portable.any fun r => decide (r.base.toNat ≤ pc.toNat ∧ pc.toNat < r.base.toNat + r.size)

/-- The instruction of a fetched word: a word that is none issues as a malformed word (R35). -/
def decoded (silol : Bool) (w : Word) : Instr :=
  match if silol then decodeSilol w else decode w with
  | .ok i => i
  | .error _ => .malformedWord

/-! ## The engine class of a pair's target (R291) -/

def classOf (op : Nat) : EngineClass :=
  if op ≤ 0x0A ∨ (0x10 ≤ op ∧ op ≤ 0x15) ∨ (0x20 ≤ op ∧ op ≤ 0x28) ∨ (0x30 ≤ op ∧ op ≤ 0x36) then .vector
  else if 0x40 ≤ op ∧ op ≤ 0x45 then .local_
  else if op = 0x50 then .carder
  else if op = 0x58 then .fabric
  else if 0x60 ≤ op ∧ op ≤ 0x66 then .tile
  else if op = 0x5C ∨ (0x68 ≤ op ∧ op ≤ 0x6A) ∨ op = 0x6C then .sync
  else .none

def EngineClass.index : EngineClass → Option Nat
  | .vector => some 0 | .local_ => some 1 | .carder => some 2 | .fabric => some 3 | .tile => some 4 | .sync => some 5 | .none => Option.none

/-- The class of the word at `pc`, a hint chain counted as its target: a chain holds at most six hints. -/
def State.targetClass (s : State) (d : DieId) (agent : Nat) (sup : Bool) : (fuel : Nat) → DWord → EngineClass
  | 0, _ => .none
  | fuel + 1, pc => match s.fetch d agent sup pc with
    | .word w _ => if opcode w = 0x7F then s.targetClass d agent sup fuel (pc + 4) else classOf (opcode w)
    | _ => .none

/-! ## The choice of PCs in a pair (R257) -/

/-- Ready lanes of one group at one PC; `late` of them have executed YIELD within 16 issue cycles (R266). -/
structure PcGroup where
  gid : Nat
  pc : DWord
  /-- lanes that the choice counts, and lanes that issue where it is chosen -/
  count : Nat
  lanes : Nat
  late : Nat
  age : Nat
  deriving DecidableEq, Repr

def addLane (gid : Nat) (l : Lane) : List PcGroup → List PcGroup
  | [] => [⟨gid, l.ctl.pc, 1, 1, if l.ctl.yielded ≠ 0 then 1 else 0, l.ctl.age⟩]
  | p :: ps =>
    if p.gid = gid ∧ p.pc = l.ctl.pc then
      { p with count := p.count + 1, lanes := p.lanes + 1, late := p.late + (if l.ctl.yielded ≠ 0 then 1 else 0), age := max p.age l.ctl.age } :: ps
    else p :: addLane gid l ps

/-- The PC groups of a pair slot, with the lanes that `held` names not counted (R256). Lanes that have yielded are counted where no other
PC has a ready lane that has not (R266; DEDUCED: else two yielding PCs would each shut out the other). -/
def pcGroups (P : Part) (held : Nat → Nat → Bool) (Gs : List Group) (slot : Nat) : List PcGroup :=
  let ps := Gs.foldl (fun ps G => G.lanes.foldl (fun ps l =>
    if G.pairSlot (G.pos l.x) == slot && mayIssue P l.ctl && !held G.gid l.x then addLane G.gid l ps else ps) ps) []
  (ps.map fun p =>
    if ps.any fun q => !(q.gid == p.gid && q.pc == p.pc) && q.late != q.count then { p with count := p.count - p.late } else p).filter (·.count ≠ 0)

def moreReady (a b : PcGroup) : Bool := decide (b.count < a.count) || (a.count == b.count && decide (a.pc.toNat ≤ b.pc.toNat))

/-- The words that a pair issues: the most populous PC, then one that has waited through 64 issues, or the next most populous. -/
def choosePcs (ps : List PcGroup) : List PcGroup :=
  match bestOf moreReady ps with
  | none => []
  | some a =>
    let rest := ps.filter (· != a)
    let starved := rest.filter (·.age ≥ 63)
    match bestOf (fun x y => decide (y.age < x.age) || (x.age == y.age && decide (x.pc.toNat ≤ y.pc.toNat))) starved with
    | some b => [a, b]
    | none => match bestOf moreReady rest with
      | some b => [a, b]
      | none => [a]

/-- The words of one cycle in the order of R160: the one that more lanes issue first, then the lower PC. -/
def inOrder : List PcGroup → List PcGroup
  | [a, b] => if a.lanes < b.lanes || (a.lanes == b.lanes && decide (b.pc.toNat < a.pc.toNat)) then [b, a] else [a, b]
  | ps => ps

/-- The next word of a hood, a hint chain counted as part of it (R27, R152). -/
def State.nextWord (s : State) (d : DieId) (G : Group) : (fuel : Nat) → DWord → Option (DWord × Instr)
  | 0, _ => none
  | fuel + 1, pc => match s.fetch d G.core false pc with
    | .word w _ => if opcode w = 0x7F then s.nextWord d G fuel (pc + 4) else some (pc, decoded (s.isSilol d G.gid pc) w)
    | _ => none
/-- The next word of a hood is a merge point: the target of a MERGE chain it has come through, a JOIN, a slot WAIT or a BAR (R152). -/
def State.atMergePoint (s : State) (d : DieId) (G : Group) (h : Hood) : Bool :=
  match s.nextWord d G 1 h.ctl.pc with
  | some (_, i) => h.ctl.chain.any (· == .merge) || i.mergePoint
  | none => false
/-- A hood has reached a WAIT, in either shape. -/
def State.atWait (s : State) (d : DieId) (G : Group) (h : Hood) : Bool :=
  match s.nextWord d G 8 h.ctl.pc with
  | some (_, .wait ..) | some (_, .waitCnt ..) => true
  | _ => false
/-- A hood at a merge point is held no longer, or not at all, once no neighbour is short of it and of any WAIT (R152). -/
def State.atPoint (s : State) (d : DieId) (G : Group) (h : Hood) : Hood :=
  if (h.ctl.wait == .none || h.ctl.wait == .held || h.ctl.wait == .merge) && !h.ctl.merged && s.atMergePoint d G h &&
      !G.hoods.any (fun n => holdsFor h n && !s.atWait d G n) then
    { h with ctl := { h.ctl with merged := true, wait := if h.ctl.wait == .merge then .none else h.ctl.wait } }
  else h

/-! ## One cycle of a core -/

def satInc (n : Nat) : Nat := min (n + 1) 255

/-- The threads of a group whose issued word waits: each tests its condition again (R130, R133, R269); and its GLDs (R355). -/
def Group.waiters (G : Group) (d : DieId) : List Agent :=
  (G.glds.map fun q => .gld d G.gid q.id) ++
  ((G.hoods.filter fun h => h.ctl.wait.waits).map fun h => .hood d G.gid h.lo) ++
  ((G.lanes.filter fun l => l.ctl.wait.waits && ((G.waitingWith l.x).head?.any fun m => m.x == l.x)).map fun l => .waiting d G.gid l.x)
/-- The ready lanes whose next word is held: performing it would leave them at a hold, no further in it than before (R256, R65). -/
def State.heldLanes (s : State) (perform : Agent → State → State) (d : DieId) (G : Group) : List Nat :=
  let ready := G.lanes.filter fun l => l.ctl.ready
  let at_ := (ready.map fun l => (G.pairSlot (G.pos l.x), l.ctl.pc)).eraseDups
  at_.flatMap fun (slot, pc) =>
    match (perform (.lanes d G.gid slot pc) s).group d G.gid with
    | none => []
    | some H => ((G.issuing slot pc).filter fun l => (H.lane l.x).any fun m => m.ctl.wait == .held && m.ctl.prog == l.ctl.prog).map (·.x)
/-- The hold that the next word of a ready hood meets: `held`, `merge`, or none. -/
def State.hoodHold (s : State) (perform : Agent → State → State) (d : DieId) (G : Group) (h : Hood) : Wait :=
  match ((perform (.hood d G.gid h.lo) s).group d G.gid).bind (·.hood h.lo) with
  | some k => if (k.ctl.wait == .held && k.ctl.prog == h.ctl.prog) || k.ctl.wait == .merge then k.ctl.wait else .none
  | none => .none

/-- The pairs of a core with the words that each would issue: held lanes are not counted (R256, R257). -/
def State.corePairs (perform : Agent → State → State) (s : State) (d : DieId) (core : Nat) : List (Nat × List PcGroup) :=
  let Gs := (s.die d).active.groups.filter (·.core == core)
  let held := Gs.map fun G => (G.gid, s.heldLanes perform d G)
  (List.range 32).map fun p => (p, choosePcs (pcGroups (s.part (s.partOf d)) (fun gid x => held.any fun q => q.1 == gid && q.2.contains x) Gs p))
/-- The ages of the pairs after a cycle in which pair `issued`, if any, issues: the cycles for which each has been ready without issuing (R291). -/
def Sched.aged (sc : Sched) (pairs : List (Nat × List PcGroup)) (issued : Option Nat) : Vector Nat 32 :=
  pairs.foldl (fun v q => vput v q.1 (if q.2.isEmpty || issued == some q.1 then 0 else vget v q.1 0 + 1)) sc.age

/-- No word of the core issues: every idle count moves on, and so does the age of a ready pair (R291). -/
def State.idleCycle (perform : Agent → State → State) (s : State) (d : DieId) (core : Nat) : State :=
  if !s.ready then s
  else
    let pairs := s.corePairs perform d core
    s.modDie d fun D => { D with sched := vput D.sched core (let sc : Sched := vget D.sched core {}; { sc with idle := vmap satInc sc.idle, age := sc.aged pairs none }) }

/-- A core's cycle: its groups are noted as the cycle begins, and the words that issue are listed in the order of R204, after the tests of
the words that wait. `perform` gives the state after an agent's word: it tells which words would be held. -/
def State.coreCycle (perform : Agent → State → State) (s : State) (d : DieId) (core : Nat) : State :=
  let mine := fun (s : State) => (s.die d).active.groups.filter (·.core == core)
  if !s.ready || s.stopped d core || (mine s).isEmpty then s.idleCycle perform d core
  else
    let s := s.modBank d fun B => { B with groups := B.groups.map fun G => if G.core ≠ core then G else { G with hoods := G.hoods.map (s.atPoint d G) } }
    let D := s.die d
    let P := s.part (s.partOf d)
    let Gs := mine s
    let held := Gs.map fun G => (G.gid, s.heldLanes perform d G)
    let isHeld := fun (gid x : Nat) => held.any fun q => q.1 == gid && q.2.contains x
    let holds := Gs.flatMap fun G => (G.hoods.filter fun h => h.ctl.ready).map fun h => (G.gid, h.lo, s.hoodHold perform d G h)
    let holdOf := fun (gid lo : Nat) => ((holds.find? fun q => q.1 == gid && q.2.1 == lo).map (·.2.2)).getD .none
    let sc : Sched := vget D.sched core {}
    let pairs := s.corePairs perform d core
    let ready := pairs.filter fun q => !q.2.isEmpty
    let agent := core
    let idleOf := fun (q : Nat × List PcGroup) => match q.2 with
      | [] => 0
      | a :: _ => match (s.targetClass d agent false 8 a.pc).index with
        | some i => vget sc.idle i 0
        | none => 0
    let ageOf := fun (p : Nat) => vget sc.age p 0
    let old := ready.filter fun q => ageOf q.1 ≥ 224
    let chosen := match bestOf (fun x y => decide (ageOf y.1 < ageOf x.1) || (ageOf x.1 == ageOf y.1 && decide (x.1 ≤ y.1))) old with
      | some q => some q
      | none => bestOf (fun x y => decide (idleOf y < idleOf x) || (idleOf x == idleOf y &&
          (decide (ageOf y.1 < ageOf x.1) || (ageOf x.1 == ageOf y.1 && decide (x.1 ≤ y.1))))) ready
    -- Silol: one word in this cycle, and nothing the next time the pair is chosen (R348)
    let (words, skip) := match chosen with
      | none => ([], sc.skip)
      | some (p, ws) =>
        if sc.skip.contains p then ([], sc.skip.filter (· != p))
        else if ws.any fun w => s.isSilol d w.gid w.pc then
          let one := match ws with
            | [_, b] => if b.age ≥ 63 then [b] else ws.take 1
            | ws => ws
          (one, if one.any fun w => s.isSilol d w.gid w.pc then p :: sc.skip else sc.skip)
        else (ws, sc.skip)
    let slot := match chosen with | some (p, _) => p | none => 0
    -- the hood unit (R259, R281)
    let hoods := Gs.flatMap fun G => (G.hoods.filter fun h =>
      mayIssue P h.ctl && holdOf G.gid h.lo == .none && !(sc.hoodSkip && s.isSilol d G.gid h.ctl.pc)).map fun h => (G, h)
    let hoods := if hoods.any fun q => q.2.ctl.yielded == 0 then hoods.filter fun q => q.2.ctl.yielded == 0 else hoods
    let hood := bestOf (fun (x y : Group × Hood) => decide (y.2.ctl.age < x.2.ctl.age) || (x.2.ctl.age == y.2.ctl.age &&
      (decide (x.1.number.toNat < y.1.number.toNat) || (x.1.number == y.1.number && decide (x.2.lo ≤ y.2.lo))))) hoods
    let agents := ((inOrder words).map fun w => Agent.lanes d w.gid slot w.pc) ++
      (match hood with | some (G, h) => [Agent.hood d G.gid h.lo] | none => [])
    -- classes that issue
    let cls := (words.map fun w => s.targetClass d agent false 8 w.pc) ++
      (match hood with | some (_, h) => [s.targetClass d agent false 8 h.ctl.pc] | none => [])
    let idle := (List.range 6).foldl (fun v i => vput v i (if cls.any (·.index == some i) then 1 else satInc (vget v i 0))) sc.idle
    let age := sc.aged pairs (if words.isEmpty then none else some slot)
    let sc : Sched := { idle := idle, age := age, skip := skip,
                        hoodSkip := match hood with | some (G, h) => s.isSilol d G.gid h.ctl.pc | none => false }
    let inPair := fun (G : Group) (l : Lane) => chosen.isSome && G.pairSlot (G.pos l.x) == slot
    let tick := fun (G : Group) => if G.core ≠ core then G else
      { G with
        lanes := G.lanes.map fun l =>
          if inPair G l then
            { l with ctl := { l.ctl with age := if l.ctl.ready && !isHeld G.gid l.x then l.ctl.age + 1 else 0, yielded := l.ctl.yielded - 1 } }
          else l
        hoods := G.hoods.map fun h =>
          let c := if holdOf G.gid h.lo == .merge then { h.ctl with wait := .merge } else h.ctl
          { h with ctl := { c with age := c.age + 1, yielded := c.yielded - 1, heldFor := if c.wait == .merge then c.heldFor + 1 else c.heldFor } } }
    let tests := if P.step then Gs.flatMap fun G => { G with
          hoods := G.hoods.filter (!·.ctl.stepped), lanes := G.lanes.filter (!·.ctl.stepped) : Group }.waiters d
      else Gs.flatMap (·.waiters d)
    let s := s.modDie d fun D => { D with sched := vput D.sched core sc, active := { D.active with groups := D.active.groups.map tick } }
    { s with issue := tests ++ agents, snap := mine s, kwr := [] }

/-- A cycle of the supervisor wave: it issues as a pair of its own, halted partition or not (R314). -/
def State.svCycle (perform : Agent → State → State) (s : State) (d : DieId) : State :=
  if !s.powered then s
  else
    let G := (s.die d).sv
    let held := s.heldLanes perform d G
    let ws := choosePcs (pcGroups {} (fun _ x => held.contains x) [G] 0)
    let s := s.modDie d fun D => { D with sv := { D.sv with lanes := D.sv.lanes.map fun l =>
      { l with ctl := { l.ctl with age := if l.ctl.ready && !held.contains l.x then l.ctl.age + 1 else 0, yielded := l.ctl.yielded - 1 } } } }
    { s with issue := G.waiters d ++ (inOrder ws).map fun w => Agent.lanes d 0 0 w.pc, snap := [(s.die d).sv], kwr := [] }

/-- A cycle of a carder that runs a program (R56). -/
def State.carderCycle (s : State) (d : DieId) (inst : Nat) : State :=
  match ((s.die d).carder inst).current with
  | some q =>
    let goes := if q.sup then s.serves d inst q
      else s.ready && !s.stopped d (200 + inst) && !((s.part (s.partOf d)).step && ((s.die d).carder inst).ctl.stepped)
    if q.kind = .crun && goes then { s with issue := [.carder d inst], snap := [], kwr := [] } else s
  | none => s

/-- Where a carder fetches the word at a PC: in a portable body with a translation area, from the native copy (R348). -/
def State.carderPc (s : State) (d : DieId) (sup : Bool) (pc : DWord) : DWord :=
  if sup then pc
  else match (s.die d).active.areas.findSome? fun a =>
      if a.base.toNat ≤ pc.toNat ∧ pc.toNat < a.base.toNat + a.size then (a.copies.find? (·.1 == pc.toNat - a.base.toNat)).map fun e => a.area + BitVec.ofNat 64 e.2
      else none with
    | some va => va
    | none => pc

/-! ## What moves next -/

/-- What a free choice stands for: a cycle of a core, of a supervisor wave or of a carder, or an event of an engine. An event whose
condition does not hold changes nothing. -/
inductive Move where
  | core (d : DieId) (c : Nat)
  | sv (d : DieId)
  | carder (d : DieId) (i : Nat)
  | event (i : Instr)

def dieOf (n : Nat) : DieId := ⟨n % 8, Nat.mod_lt _ (by decide)⟩

/-- The moves, numbered. -/
def moveOf (n : Nat) : Move :=
  let kind := n % 35
  let d := dieOf (n / 35)
  let a := n / 280
  let x := a % 2 ^ 64
  let y := a / 2 ^ 64
  match kind with
  | 0 => .core d (a % 100)
  | 1 => .sv d
  | 2 => .carder d (a % 48)
  | 3 => .event (.carderCommandStart d (a % 48))
  | 4 => .event (.unitLanding d (a % 48))
  | 5 => .event (.mergeHoldTimeout d x y)
  | 6 => .event (.launchStart d (BitVec.ofNat 32 a))
  | 7 => .event (.groupPlacement d)
  | 8 => .event (.workSteal d)
  | 9 => .event (.groupEnd d a)
  | 10 => .event (.launchEnd a)
  | 11 => .event (.binTimerExpiry x y)
  | 12 => .event (.binDrain x y)
  | 13 => .event (.queueMiss a)
  | 14 => .event (.atomicPerform a)
  | 15 => .event (.syncReplyLanding a)
  | 16 => .event (.interestArrival a)
  | 17 => .event (.tileHeaderArrival a)
  | 18 => .event (.withdrawalArrival a)
  | 19 => .event (.pendingDeadline a)
  | 20 => .event (.offerHeaderArrival a)
  | 21 => .event (.offerChunkArrival a)
  | 22 => .event (.retentionExpiry a)
  | 23 => .event (.chunkLanding a)
  | 24 => .event (.interestLifetimeExpiry d a)
  | 25 => .event (.sessionJoin a)
  | 26 => .event (.sessionClose a)
  | 27 => .event (.sessionResultWrite a)
  | 28 => .event (.migrationComplete a)
  | 29 => .event (.tileWordPerform d (a % 100))
  | 30 => .event (.haltComplete d)
  | 31 => .event (.eventDelivery d)
  | 32 => .event (.tsliceExpiry d)
  | 33 => .event (.stepHalt d)
  | _ => if a % 2 = 0 then .event (.swapComplete d) else .event (.shadowOpComplete d)

/-- The event of an input (R340, R341, R361 and the rules of each). -/
def State.inputEvent (s : State) : Input → Option Instr
  | .bringup _ => some .powerOnBringup
  | .timeout .. => some .bringupTimeout
  | .loader =>
    let opc := s.mem.read (s.ringBase.toNat + 64 * s.ringHead)
    some (if opc = 1 then .loaderLoad else if opc = 2 then .loaderIcinv else if opc = 3 then .loaderReadatt else .loaderInvalidCommand)
  | .publish _ => some .translationPublish
  | .keyWrite _ => some .keySlotWrite
  | .route .. => some .podRouteTableWrite
  | .layout _ => some .partitionLayoutWrite
  | .link _ _ m => match m with
    | .podOpen .. => some .podGenerationOpen
    | .podArrival .. => some .podCombinedArrival
    | .podCount .. => some .podPhaseCount
    | .podRelease .. => some .podRelease
    | .tile _ | .session _ => none
  | .flitError _ => some .linkFlitError
  | .spare .. => some .laneSparing
  | .headerCrc .. => some .headerCrcFailure
  | .migrate .. => some .migrationStart
  | .throttle _ => some .thermalThrottle
  | .shutdown => some .thermalShutdown
  | .routerFails _ => some .routerFailure
  | .ecc _ => some .eccUncorrectable
  | .softError _ => some .softErrorCorrected
  | .coreFails .. => some .coreFailure
  | .measurements => some .spdmMeasurements
  | .debugPort p _ => some (.haltreq p)
  | .ringAddress _ => none

end Sys2Proof.Machine
end

