-- ==== Sys2Proof/Machine/Tile.lean ====
section
/-! DEFINITION. The tile engine: tile words at issue (R201 to R216) and the performance of the head of the engine's queue. -/
namespace Sys2Proof.Machine

/-! ## Elements of tiles (R201) -/

/-- Formats whose elements the row words and .tr move. -/
def scalarFmt (f : Nat) : Bool := f = 1 || f = 2 || f = 3 || f = 4 || f = 5 || f = 9 || f = 0x0B
/-- The bits of a scalar element. -/
def Shape.elem (S : Shape) (T : Mem) (r c : Nat) : Nat := T.get (r * rowBytes S.fmt S.cols + c * unitBytes S.fmt) (unitBytes S.fmt)
def Shape.setElem (S : Shape) (T : Mem) (r c v : Nat) : Mem :=
  T.put (r * rowBytes S.fmt S.cols + c * unitBytes S.fmt) (unitBytes S.fmt) v
/-- The value of an element as TMMA reads it; `signed` is the operand's signedness bit (R209). -/
def Shape.value (S : Shape) (T : Mem) (isSigned : Bool) (r c : Nat) : Val :=
  match blockP S.fmt with
  | some p => blockElem p (T.get (r * rowBytes S.fmt S.cols + c / 16 * unitBytes S.fmt) (unitBytes S.fmt)) (c % 16) (!isSigned)
  | none => match floatFmt S.fmt with
    | some f => f.val (S.elem T r c)
    | none => .nan
/-- An i8 or i4 element as TMMAI reads it. -/
def Shape.int (S : Shape) (T : Mem) (isSigned : Bool) (r c : Nat) : Int :=
  if S.fmt = 0x0A then
    let b := T.get (r * rowBytes S.fmt S.cols + c / 2) 1
    let v : BitVec 4 := BitVec.ofNat 4 (if c % 2 = 0 then b else b / 16)
    if isSigned then v.toInt else v.toNat
  else
    let v : BitVec 8 := BitVec.ofNat 8 (S.elem T r c)
    if isSigned then v.toInt else v.toNat

/-! ## Captures -/

def Mode.hint : Mode → HintRound
  | .rne | .sr _ => .rne | .rz => .rz | .rdn => .rdn | .rup => .rup
def Mode.seed : Mode → BitVec 16
  | .sr v => v
  | _ => 0
/-- The rounding that a queue entry captured. -/
def TileCmd.mode (q : TileCmd) : Mode := if q.sr then .sr q.seed else hintMode .rne q.round

def Group.shapeOf (G : Group) (t : Tile) : Shape := Shape.of (vget G.shape t.toNat 0)
/-- What every entry of a thread holds. -/
def TileCmd.of (s : State) (w : Who) (G : Group) (kind : TileKind) : TileCmd :=
  { id := s.nextId, core := w.core, kind := kind, ctx := s.ctxOf w.d w.gid, pc := w.pc, gid := w.gid, number := G.number,
    base := if w.hood.isSome then w.all.headD 0 else G.first + 32 * G.pos (w.all.headD 0), xs := w.xs,
    lanes := w.xs.foldl (fun m x => m ||| ((1 : Word) <<< G.laneNo x)) 0 }

/-! ## Issue (R203 to R205) -/

def tileQueueSize : Nat := 8
/-- The words that wait in a core's engine. -/
def State.tileQueue (s : State) (d : DieId) (core : Nat) : List TileCmd := (s.die d).active.tileq.filter (·.core == core)

/-- What a tile word makes of a thread: a fault, or the entry. -/
inductive TRes where
  | fault (c : Cause) (fa : DWord)
  | entry (q : TileCmd)

def TRes.fault? : TRes → Option (Cause × DWord)
  | .fault c fa => some (c, fa)
  | .entry _ => none

/-- A tile word: one entry for a hood, one for each logical wave of a pair, the lower wave's first; the checks for both come before
either enters, and a full queue holds the word (R204), as do bytes that an acquired write has still to reach (R120). DESIGN CHOICE: the two entries of a
pair enter together: one free place holds the word (log 48). DESIGN CHOICE: MAP of a faulting word has every participant of its wave, as all of them
fault with that cause (R122, R205, log 48). -/
def tileIssue (i : Instr) (freg : Option Nat) (mk : Who → Group → State → TRes) (w : Who) (s : State) : Eff :=
  match s.snapGroup w.d w.gid, s.group w.d w.gid with
  | some G, some _ =>
    let parts := if w.hood.isSome then [w] else (positionsOf G w.all).map fun p => w.part fun x => G.pos x == p
    let act := parts.filter fun p => !p.xs.isEmpty
    match act.find? fun p => ((mk p G s).fault?).isSome with
    | some p => match mk p G s with
      | .fault c fa => .trap { cause := c, faddr := fa, xs := p.xs, freg := freg }
      | .entry _ => .done s
    | none =>
      let late := act.any fun p => match mk p G s with
        | .fault _ _ => false
        | .entry q => q.memRows.any fun r => let B := BufRec.of q.buf
            s.lateClash w.d w.gid B.bound true s.nextId ⟨false, some B.space, B.base + r.off, B.base + r.off + r.len⟩
      if late || (s.tileQueue w.d w.core).length + act.length > tileQueueSize then .hold s .held
      else
        let push := fun (p : Who) (s : State) => match mk p G s with
          | .fault _ _ => s
          | .entry q => ({ s.modBank w.d (fun B => { B with tileq := B.tileq ++ [q] }) with nextId := s.nextId + 1 } : State).useRecord w.d w.gid (BufRec.of q.buf)
        let tok := fun (s : State) => if i.use.var then some s.nextId else none
        if w.hood.isSome then .ok (push w s) (tok s)
        else .done (parts.foldl (fun s p =>
          if p.xs.isEmpty then s.skip p i.use else (push p s).finish p i.use (tok s) unsafePoint p.next) s)
  | _, _ => .done s

/-- A word that reads a general register as one value expands a hood in which it is not UNIFORM (R203). -/
def uniformReg (a : Reg) (body : Who → State → Eff) (w : Who) (s : State) : Eff :=
  if w.hood.isSome && !(s.form w a.toNat).uniform then .expand else body w s
/-- A word whose effect depends on lane numbers expands a hood. -/
def lanesOnly (body : Who → State → Eff) (w : Who) (s : State) : Eff := if w.hood.isSome then .expand else body w s

/-- The first memory row that faults (R208). -/
def State.rowsFault (s : State) (w : Who) (q : TileCmd) (align : Nat) : Option (Cause × DWord) :=
  let B := BufRec.of q.buf
  (q.memRows).findSome? fun r => (s.rowFault w.d w.gid B align r).map fun c => (c, BitVec.ofNat 64 (B.base + r.off))
def orFault (f : Option (Cause × DWord)) (r : TRes) : TRes :=
  match f with
  | some (c, fa) => .fault c fa
  | none => r
def fault0 (c : Cause) : TRes := .fault c 0
/-- A valid shape (R201). -/
def withShape (S : Shape) (k : TRes) : TRes :=
  match S.fault with
  | some c => fault0 c
  | none => k

def loadStore (kind : TileKind) (tr : Bool) (t : Tile) (n : Buf) (a : Reg) (w : Who) (G : Group) (s : State) : TRes :=
  let S := G.shapeOf t
  let B := s.buf w n
  let q : TileCmd := { TileCmd.of s w G kind with
    tr := tr, td := t.toNat, sd := vget G.shape t.toNat 0, buf := s.bufBits w n, off := s.g w (w.xs.headD 0) a.toNat }
  withShape S (
    if B.bad then fault0 Cause.fmt
    else if B.space = spSpill then fault0 Cause.bounds
    else if B.fmt ≠ S.fmt then fault0 Cause.fmt
    else if tr && !scalarFmt S.fmt then fault0 Cause.fmt
    else orFault (s.rowsFault w q (unitAlign S.fmt)) (.entry q))

/-- Operand formats of the matrix words (R209). -/
def mmaFmt (int : Bool) (f : Nat) : Bool := if int then f = 9 || f = 0x0A else (floatFmt f).isSome || (blockP f).isSome

def matrix (int : Bool) (td ta tb : Tile) (fa fb : FmtSlot) (sa sb acc : Bool) (w : Who) (G : Group) (s : State) : TRes :=
  let D := G.shapeOf td
  let A := G.shapeOf ta
  let B := G.shapeOf tb
  let FA := G.fmtSlot fa.toNat
  let FB := G.fmtSlot fb.toNat
  let signOk := fun (f : Nat) (sg : Bool) => int || sg || (blockP f).isSome
  withShape D (withShape A (withShape B (
    if D.fmt ≠ (if int then 0x0B else 1) then fault0 Cause.fmt
    else if !mmaFmt int A.fmt || !mmaFmt int B.fmt || A.fmt ≠ FA.fmt || B.fmt ≠ FB.fmt then fault0 Cause.fmt
    else if !signOk A.fmt sa || !signOk B.fmt sb then fault0 Cause.fmt
    else if A.rows ≠ D.rows ∨ B.rows ≠ D.cols ∨ A.cols ≠ B.cols then fault0 Cause.size
    else if !FA.ok || !FB.ok then fault0 Cause.fmt
    else .entry { TileCmd.of s w G (if int then .tmmai else .tmma) with
      acc := acc, td := td.toNat, ta := ta.toNat, tb := tb.toNat, fa := fa.toNat, fb := fb.toNat, sa := sa, sb := sb
      sd := vget G.shape td.toNat 0, sha := vget G.shape ta.toNat 0, shb := vget G.shape tb.toNat 0 })))

/-- TDRAIN (R215): the checks in the order of its pseudocode. DEDUCED: BOUNDS for a record of SPACE 2, which it takes from TLD, comes with the checks of the
rows, after FMT and SIZE (log 48). -/
def drain (conv : Option FmtSlot) (t : Tile) (n : Buf) (a : Reg) (w : Who) (G : Group) (s : State) : TRes :=
  let S := G.shapeOf t
  let B := s.buf w n
  let F := G.fmtSlot ((conv.map (·.toNat)).getD 0)
  let D := if conv.isSome then F.fmt else S.fmt
  let (m, sat) := if conv.isSome then roundingOf w.hints F.mode F.sat else (.rne, false)
  let q : TileCmd := { TileCmd.of s w G .tdrain with
    conv := conv.isSome, td := t.toNat, cslot := (conv.map (·.toNat)).getD 0, ofmt := D, sd := vget G.shape t.toNat 0
    buf := s.bufBits w n, off := s.g w (w.xs.headD 0) a.toNat
    round := m.hint, sat := sat, sr := m.stochastic, seed := m.seed }
  withShape S (
    if S.fmt ≠ 1 ∧ (S.fmt ≠ 0x0B ∨ conv.isSome) then fault0 Cause.fmt
    else if conv.isSome && (!F.ok || !mmaFmt false F.fmt) then fault0 Cause.fmt
    else if B.bad then fault0 Cause.fmt
    else if B.fmt ≠ D then fault0 Cause.fmt
    else if (blockP D).isSome ∧ S.cols % 16 ≠ 0 then fault0 Cause.size
    else if B.space = spSpill then fault0 Cause.bounds
    else orFault (s.rowsFault w q (unitAlign D)) (.entry q))

def laneVec (G : Group) (w : Who) (f : Nat → Word) : Vector Word 32 :=
  w.xs.foldl (fun v x => vput v (G.laneNo x) (f x)) (Vector.replicate 32 0)

def rowWord (kind : TileKind) (t : Tile) (a b : Option Reg) (gd : Nat) (w : Who) (G : Group) (s : State) : TRes :=
  let S := G.shapeOf t
  let vec := fun (r : Option Reg) => match r with
    | none => Vector.replicate 32 0
    | some r => laneVec G w fun x => s.g w x r.toNat
  withShape S (if !scalarFmt S.fmt then fault0 Cause.fmt
    else .entry { TileCmd.of s w G kind with
      td := t.toNat, sd := vget G.shape t.toNat 0, gaL := vec a, gbL := vec b, gd := gd })

def scale (t : Tile) (a : Reg) (w : Who) (G : Group) (s : State) : TRes :=
  let S := G.shapeOf t
  let (m, sat) := roundingOf w.hints .rne false
  let v := if w.hood.isSome then Vector.replicate 32 (s.g w (w.xs.headD 0) a.toNat) else laneVec G w fun x => s.g w x a.toNat
  withShape S (if S.fmt ≠ 1 then fault0 Cause.fmt
    else .entry { TileCmd.of s w G .tscale with
      td := t.toNat, sd := vget G.shape t.toNat 0, gaL := v, round := m.hint, sat := sat, sr := m.stochastic, seed := m.seed })

def zero (t : Tile) (w : Who) (G : Group) (s : State) : TRes :=
  withShape (G.shapeOf t) (.entry { TileCmd.of s w G .tzero with td := t.toNat, sd := vget G.shape t.toNat 0 })

/-- The open handle of a group's context that a register value names on a core (R216, R229). -/
def Die.handleOf (D : Die) (gid core : Nat) (v : Word) : Option Handle :=
  (D.handlesOf gid).find? fun h => h.core == core && h.gen * 16 + h.h == v.toNat
/-- The rows of a lane set as a mask. -/
def rowMask (rows : List Nat) : BitVec 64 := rows.foldl (fun m r => m ||| ((1 : BitVec 64) <<< r)) 0

/-- Of the two entries of a pair, the second sees the rows of the first as sent (R204): `before` are the positions already pushed. -/
def sendRows (t : Tile) (k : KReg) (w : Who) (G : Group) (s : State) : TRes :=
  let S := G.shapeOf t
  let v := s.k w k.toNat
  let q : TileCmd := { TileCmd.of s w G .tdred with td := t.toNat, sd := vget G.shape t.toNat 0, handle := v }
  withShape S (
    if S.fmt ≠ 1 then fault0 Cause.fmt
    else match (s.die w.d).handleOf w.gid w.core v with
      | none => fault0 Cause.baruse
      | some h =>
        if S.rows ≠ h.rows ∨ S.cols ≠ h.cols then fault0 Cause.size
        else if h.sent &&& rowMask (laneRows q.lanes S.rows) ≠ 0 then fault0 Cause.baruse
        else .entry q)

/-- TDRED: the rows of the entries are marked as sent at issue; a row that both waves of a pair name is sent twice (R204, R216). -/
def tdredBody (t : Tile) (k : KReg) (w : Who) (s : State) : Eff :=
  match s.snapGroup w.d w.gid with
  | none => .done s
  | some G =>
    let S := G.shapeOf t
    let rowsAt := fun (p : Nat) => laneRows ((w.xs.filter fun x => G.pos x == p).foldl (fun m x => m ||| ((1 : Word) <<< G.laneNo x)) 0) S.rows
    let ps := if w.hood.isSome then [] else positionsOf G w.xs
    let twice := match ps with
      | p :: q :: _ => (rowsAt p).any (rowsAt q).contains
      | _ => false
    let v := s.k w k.toNat
    let all := laneRows (w.xs.foldl (fun m x => m ||| ((1 : Word) <<< G.laneNo x)) 0) S.rows
    let mark := fun (s : State) => s.modHandles w.d w.gid (·.map fun h =>
      if h.core == w.core && h.h == v.toNat % 16 then { h with sent := h.sent ||| rowMask all } else h)
    match tileIssue (.tdred t k) none (sendRows t k) w s with
    | .ok s tok => .ok (mark s) tok
    | .done s' => if twice then .trap { cause := Cause.baruse, xs := w.xs.filter fun x => G.pos x == (ps.drop 1).headD 0 } else .done (mark s')
    | e => e

def execTmma (td ta tb : Tile) (fa fb : FmtSlot) (sa sb acc : Bool) (la : La) : State → Res :=
  let i := Instr.tmma td ta tb fa fb sa sb acc la
  jointWord i (tileIssue i none (matrix false td ta tb fa fb sa sb acc))
def execTmmai (td ta tb : Tile) (fa fb : FmtSlot) (sa sb acc : Bool) (la : La) : State → Res :=
  let i := Instr.tmmai td ta tb fa fb sa sb acc la
  jointWord i (tileIssue i none (matrix true td ta tb fa fb sa sb acc))
def execTld (tr : Bool) (t : Tile) (n : Buf) (a : Reg) (la : La) : State → Res :=
  jointWord (.tld tr t n a la) (uniformReg a (tileIssue (.tld tr t n a la) (some a.toNat) (loadStore .tld tr t n a)))
def execTst (tr : Bool) (t : Tile) (n : Buf) (a : Reg) : State → Res :=
  jointWord (.tst tr t n a) (uniformReg a (tileIssue (.tst tr t n a) (some a.toNat) (loadStore .tst tr t n a)))
def execTdrain (t : Tile) (n : Buf) (a : Reg) (la : La) : State → Res :=
  jointWord (.tdrain t n a la) (uniformReg a (tileIssue (.tdrain t n a la) (some a.toNat) (drain none t n a)))
def execTdrainFmt (f : FmtSlot) (t : Tile) (n : Buf) (a : Reg) (la : La) : State → Res :=
  jointWord (.tdrainFmt f t n a la) (uniformReg a (tileIssue (.tdrainFmt f t n a la) (some a.toNat) (drain (some f) t n a)))
def execTrowrd (d : Reg) (t : Tile) (b : Reg) (la : La) : State → Res :=
  jointWord (.trowrd d t b la) (lanesOnly (tileIssue (.trowrd d t b la) none (rowWord .trowrd t none (some b) d.toNat)))
def execTrowwr (t : Tile) (a b : Reg) : State → Res :=
  jointWord (.trowwr t a b) (lanesOnly (tileIssue (.trowwr t a b) none (rowWord .trowwr t (some a) (some b) 0)))
def execTscale (t : Tile) (a : Reg) : State → Res :=
  jointWord (.tscale t a) (uniformReg a (tileIssue (.tscale t a) none (scale t a)))
def execTzero (t : Tile) : State → Res := jointWord (.tzero t) (tileIssue (.tzero t) none (zero t))
def execTdred (t : Tile) (k : KReg) : State → Res := jointWord (.tdred t k) (tdredBody t k)

/-! ## Performing the head of the queue -/

/-- The exact sum of products of one k-block (R210). -/
def sumVals (l : List Val) : Val :=
  if l.any (·.isNan) then .nan
  else
    let infs := l.filterMap fun v => match v with | .inf s => some s | _ => none
    match infs with
    | s :: rest => if rest.all (· == s) then .inf s else .nan
    | [] =>
      let fins := l.filterMap fun v => match v with | .fin s m e => some (s, m, e) | _ => none
      let e0 := fins.foldl (fun (a : Int) (v : Bool × Nat × Int) => min a v.2.2) 0
      let t := fins.foldl (fun (a : Int) (v : Bool × Nat × Int) => a + units v.1 v.2.1 v.2.2 e0) 0
      .fin (decide (t < 0)) t.natAbs e0
/-- c + Sb rounded once; a zero sum is +0 (R210). -/
def accumulate (c sb : Val) : Nat :=
  match c.add sb .rne with
  | .fin _ 0 _ => 0
  | v => f32.of v .rne false 0

/-- The tile of a group. -/
def Group.tileMem (G : Group) (n : Nat) : Mem := vget G.tile n []
/-- K-blocks of a matrix word. -/
def TileCmd.blocks (q : TileCmd) : Nat := ((Shape.of q.sha).cols + 15) / 16
def TileCmd.isMma (q : TileCmd) : Bool := q.kind == .tmma || q.kind == .tmmai

/-- One k-block of TMMA or TMMAI. -/
def TileCmd.kBlock (q : TileCmd) (G : Group) : Mem :=
  let D := Shape.of q.sd
  let A := Shape.of q.sha
  let B := Shape.of q.shb
  let TA := G.tileMem q.ta
  let TB := G.tileMem q.tb
  let ks := range (16 * q.prog) (min (16 * q.prog + 16) A.cols)
  let first := !q.acc && q.prog == 0
  (laneRows q.lanes D.rows).foldl (fun T m => (List.range D.cols).foldl (fun T n =>
    let old := D.elem T m n
    D.setElem T m n (
      if q.kind = .tmma then
        accumulate (if first then .fin false 0 0 else f32.val old)
          (sumVals (ks.map fun k => (A.value TA q.sa m k).mul (B.value TB q.sb n k)))
      else
        (BitVec.ofInt 32 (((if first then 0 else old : Nat) : Int) +
          (ks.map fun k => A.int TA q.sa m k * B.int TB q.sb n k).foldl (· + ·) 0)).toNat)) T) (G.tileMem q.td)

/-- The bytes of a memory row as TLD reads them: beyond EXTENT zero bytes under zero-fill (R208). -/
def State.rowBytesAt (s : State) (d : DieId) (q : TileCmd) (r : MRow) : List Byte :=
  let B := BufRec.of q.buf
  s.readLocal d q.gid 0 B.space (B.base + r.off) (r.cut B) ++ List.replicate (r.len - r.cut B) 0
/-- A loaded tile. -/
def State.loadTile (s : State) (d : DieId) (q : TileCmd) (T : Mem) : Mem :=
  let S := Shape.of q.sd
  let u := unitBytes S.fmt
  q.memRows.foldl (fun T r =>
    let bs := s.rowBytesAt d q r
    if q.tr then (List.range S.rows).foldl (fun T i => S.setElem T i r.row (fieldAt bs (i * u) u)) T
    else T.writeN (r.row * rowBytes S.fmt S.cols) bs) T

/-- The bytes of a stored or drained row (R208, R215). -/
def TileCmd.rowOut (q : TileCmd) (T : Mem) (r : MRow) : List Byte :=
  let S := Shape.of q.sd
  let u := unitBytes S.fmt
  let key := fun (c : Nat) => BitVec.ofNat 32 (256 * r.row + c)
  let val := fun (c : Nat) => f32.val (S.elem T r.row c)
  if q.kind = .tst then
    if q.tr then (List.range S.rows).flatMap fun i => bytesOf u (S.elem T i r.row)
    else T.readN (r.row * rowBytes S.fmt S.cols) r.len
  else if q.ofmt = S.fmt then T.readN (r.row * rowBytes S.fmt S.cols) r.len
  else match blockP q.ofmt with
    | some p => (List.range (S.cols / 16)).flatMap fun b =>
        bytesOf (unitBytes q.ofmt) (toBlock p ((List.range 16).map fun k => (val (16 * b + k), key (16 * b + k))) q.mode)
    | none => (List.range S.cols).flatMap fun c => match floatFmt q.ofmt with
      | some f => bytesOf (unitBytes q.ofmt) (f.of (val c) q.mode q.sat (key c))
      | none => []
/-- A tile stored or drained into local memory. -/
def State.storeTile (s : State) (d : DieId) (q : TileCmd) (T : Mem) : State :=
  let B := BufRec.of q.buf
  q.memRows.foldl (fun s r => s.writeLocal d q.gid 0 B.space (B.base + r.off) ((q.rowOut T r).take (r.cut B))) s

/-- Row and column that a participant addresses (R213). -/
def rowCol (l : Nat) (b : Word) : Nat × Nat := (2 * l + (if b.getLsbD 8 then 1 else 0), field b 7 0)

def State.setTile (s : State) (d : DieId) (gid n : Nat) (T : Mem) : State :=
  s.modGroup d gid fun G => { G with tile := vput G.tile n T }
/-- The word leaves the engine: its result is there. -/
def State.tileDone (s : State) (d : DieId) (q : TileCmd) : State :=
  (s.modBank d fun B => { B with tileq := B.tileq.filter (·.id != q.id) }).resolve d q.gid q.id

/-! ## The engine's stop record (R219) -/

def TileKind.code : TileKind → Nat
  | .tmma => 0 | .tmmai => 1 | .tld => 2 | .tst => 3 | .tdrain => 4 | .tdred => 5 | .trowrd => 6 | .trowwr => 7 | .tscale => 8 | .tzero => 9
/-- The rows that a tile word changes or sends (R219). DESIGN CHOICE: TDRAIN sends its rows; TST and TROWRD change no row of a tile and send none (log 48). -/
def TileCmd.rowSet (q : TileCmd) : BitVec 64 :=
  let S := Shape.of q.sd
  match q.kind with
  | .trowrd | .tst => 0
  | .tld => rowMask (List.range S.rows)
  | .trowwr => rowMask (((List.range 32).filter q.lanes.getLsbD).filterMap fun l =>
      let (r, c) := rowCol l (vget q.gbL l 0)
      if r < S.rows ∧ c < S.cols then some r else none)
  | _ => rowMask (laneRows q.lanes S.rows)
/-- Indices relative to a base as a bitmap. -/
def relMap (base : Nat) (xs : List Nat) : Word := xs.foldl (fun m x => if base ≤ x ∧ x < base + 32 then m ||| ((1 : Word) <<< (x - base)) else m) 0
/-- A tile engine's record (R219). -/
def State.tileRecord (s : State) (d : DieId) (core : Nat) : StopRec :=
  let qs := s.tileQueue d core
  let r : StopRec := { cls := 1, kind := 255, inst := BitVec.ofNat 8 core, b5 := BitVec.ofNat 8 qs.length, ctx := (s.die d).active.ctx }
  match qs with
  | [] => r
  | q :: _ => { r with
      kind := BitVec.ofNat 8 q.kind.code, ctx := q.ctx, pc := q.pc, q18 := BitVec.ofNat 64 q.prog, q20 := q.rowSet, base := BitVec.ofNat 64 q.base,
      group := q.number, map := relMap q.base q.xs }

/-- The tile registers whose old contents a word reads, and whether it writes its whole tile (R208 to R216). -/
def TileCmd.reads (q : TileCmd) : List Nat :=
  match q.kind with
  | .tmma | .tmmai => [q.ta, q.tb] ++ (if q.acc || q.prog != 0 then [q.td] else [])
  | .tld | .tzero | .trowwr => []
  | _ => [q.td]
def TileCmd.writesAll (q : TileCmd) : Bool :=
  let all := laneRows q.lanes (Shape.of q.sd).rows == List.range (Shape.of q.sd).rows
  match q.kind with
  | .tld => true
  | .tmma | .tmmai => !q.acc && q.prog == 0 && all
  | .tzero => all
  | _ => false
/-- The word would read a tile register, or local memory, that is in error (R117, R217, R310). -/
def State.tileBad (s : State) (d : DieId) (G : Group) (q : TileCmd) : Bool :=
  let B := BufRec.of q.buf
  q.reads.any G.badTiles.contains || (q.kind == .tld && q.memRows.any fun r => s.badLocalAt d q.gid 0 B.space (B.base + r.off) (r.cut B))
/-- The tile engine of a core halts its partition with ECC (R217, R219). -/
def State.tileEcc (s : State) (d : DieId) (core : Nat) : State :=
  s.raiseFault { die := d, slot := 100 + core, clock := s.clock, form := {}, stop := { s.tileRecord d core with cause := Cause.ecc } }

/-! ### Rows of a session (R216, R230) -/

/-- The pieces of a row: 128 columns are one chunk, the most that a packet carries (R220). -/
def rowPieces (r : Nat × List Word) : List (Nat × List Word) :=
  (2 * r.1, r.2.take 128) :: (if r.2.length ≤ 128 then [] else [(2 * r.1 + 1, r.2.drop 128)])
/-- The session's home is another package's (R227). -/
def Handle.remote (h : Handle) : Bool := h.scope == .pod && h.rank != 0
/-- A TDRED at `pc` places pieces of rows in the staging of its handle. -/
def State.stageRows (s : State) (d : DieId) (gid : Nat) (h : Handle) (pc : DWord) (out : List (Nat × List Word)) : State :=
  s.modHandles d gid (·.map fun x =>
    if x.core == h.core && x.h == h.h then { x with staged := x.staged ++ out, pcs := x.pcs ++ out.map fun r => (r.1 / 2, pc) } else x)
/-- This participant as its home knows it. -/
def State.joinOf (s : State) (d : DieId) (h : Handle) : SJoin :=
  { rank := h.rank, part := s.partOf d, die := d, ctx := h.ctx, gid := h.gid, core := h.core, h := h.uid, pno := h.pno, crown := h.crown,
    pc := h.pc, dest := h.dest, dstride := h.dstride, notify := h.notify, closed := false, written := 0, staged := [] }
/-- Sends a message of a handle's session to rank 0; `pc`: the word that causes it (R222). -/
def State.toHome (s : State) (d : DieId) (pc : DWord) (h : Handle) (m : SMsg) : State :=
  s.transmit d pc ⟨h.ctx, .session, 0, h.rank⟩ (.session m)

/-- Performs a word of the queue, a matrix word by one k-block (R210 to R218); one that meets an uncorrectable error has no effect. -/
def State.performTile (s : State) (d : DieId) (q : TileCmd) : State :=
  match s.group d q.gid with
  | none => s.tileDone d q
  | some G =>
    if s.tileBad d G q then s.tileEcc d q.core else
    let s := if q.writesAll then s.modGroup d q.gid fun G => { G with badTiles := G.badTiles.filter (· != q.td) } else s
    let S := Shape.of q.sd
    let T := G.tileMem q.td
    let rows := laneRows q.lanes S.rows
    match q.kind with
    | .tmma | .tmmai =>
      let s := s.setTile d q.gid q.td (q.kBlock G)
      if q.prog + 1 < q.blocks then
        s.modBank d fun B => { B with tileq := B.tileq.map fun p => if p.id == q.id then { p with prog := q.prog + 1 } else p }
      else s.tileDone d q
    | .tld => (s.setTile d q.gid q.td (s.loadTile d q T)).tileDone d q
    | .tst | .tdrain => (s.storeTile d q T).tileDone d q
    | .trowrd =>
      let lanes := (List.range 32).filter q.lanes.getLsbD
      let val := fun (l : Nat) => let (r, c) := rowCol l (vget q.gbL l 0); if r < S.rows ∧ c < S.cols then S.elem T r c else 0
      (s.modGroup d q.gid fun G => G.modLanes (lanes.map (q.base + ·)) fun l => { l with g := vput l.g q.gd (BitVec.ofNat 32 (val (G.laneNo l.x))) }).tileDone d q
    | .trowwr =>
      let T := ((List.range 32).filter q.lanes.getLsbD).foldl (fun T l =>
        let (r, c) := rowCol l (vget q.gbL l 0)
        if r < S.rows ∧ c < S.cols then S.setElem T r c (vget q.gaL l 0).toNat else T) T
      (s.setTile d q.gid q.td T).tileDone d q
    | .tscale =>
      let T := rows.foldl (fun T r => (List.range S.cols).foldl (fun T c =>
        S.setElem T r c (f32.mulOp (S.elem T r c) (vget q.gaL (r / 2) 0).toNat q.mode q.sat (BitVec.ofNat 32 (256 * r + c)))) T) T
      (s.setTile d q.gid q.td T).tileDone d q
    | .tzero => (s.setTile d q.gid q.td (rows.foldl (fun T r => T.clear (r * rowBytes S.fmt S.cols) (rowBytes S.fmt S.cols)) T)).tileDone d q
    | .tdred =>
      let out := (rows.map fun r => (r, (List.range S.cols).map fun c => BitVec.ofNat 32 (S.elem T r c))).flatMap rowPieces
      match (s.die d).handleOf q.gid q.core q.handle with
      | none => s.tileDone d q
      | some h => (s.stageRows d q.gid h q.pc out).tileDone d q

/-- TILE_WORD_PERFORM: the word at the head of a core's queue, while the partition runs. -/
def execTileWordPerform (d : DieId) (core : Nat) (s : State) : Res :=
  match s.tileQueue d core, s.ready && !s.stopped d (100 + core) with
  | q :: _, true => .next (s.performTile d q)
  | _, _ => .next s

end Sys2Proof.Machine
end

