-- ==== Sys2Proof/Machine/Sync.lean ====
section
/-! DEFINITION. The sync engine: the atomic words (R237 to R249), the queue words and resident queues (R282 to R290), and the events
that perform requests and land their replies. -/
namespace Sys2Proof.Machine

/-! ## The atomic words at issue -/

/-- The checks of one participant's address, in the order of R237. -/
def State.syncCause (s : State) (w : Who) (k : Access) (width : Nat) (va : DWord) : Option Cause :=
  if va.toNat >>> 57 ≠ 0 then some Cause.page
  else if va.toNat % width ≠ 0 then some Cause.align
  else match s.translate w.d w.core (w.gid = 0) va k with
    | .fault c _ => some c
    | .ok da => if poolOf da = 1 then some Cause.prot else none

/-- Sends a request. -/
def State.send (s : State) (r : SyncReq) : State := { s with reqs := s.reqs ++ [{ r with id := s.nextId }], nextId := s.nextId + 1 }

/-- What an atomic word is: its operation, access, width, registers, and in a hood the operand of its one request. -/
structure Atomic where
  op    : SyncOp
  acc   : Access
  width : Nat
  addr  : Reg
  src   : Option Reg
  dst   : Option Reg
  cas   : Bool := false
  once  : Option (Nat → Word → Word) := none

/-- The request of index `x`, or of a whole hood. -/
def Atomic.request (A : Atomic) (s : State) (w : Who) (x : Nat) (xs : List Nat) (word : Nat) (acq : Bool) : SyncReq :=
  let va := s.gpair w x A.addr.toNat
  let da := match s.translate w.d w.core (w.gid = 0) va A.acc with
    | .ok da => da
    | .fault _ _ => 0
  let n := A.width / 4
  let val := match A.src with
    | none => 0
    | some b => s.regsVal w x b.toNat n
  let arg := match w.hood, A.once with
    | some _, some f => if n = 1 then (f xs.length (BitVec.ofNat 32 val)).toNat else val
    | _, _ => val
  { id := 0, home := s.homeOf da, op := A.op, part := s.partOf w.d, ctx := s.ctxOf w.d w.gid, die := w.d, core := w.core, gid := w.gid, xs := xs,
    hood := w.hood.isSome, pc := w.pc, addr := da, va := va, width := A.width, arg := BitVec.ofNat 256 arg,
    cmp := BitVec.ofNat 128 (if A.cas then (match A.dst with | some d => s.regsVal w x d.toNat n | none => 0) else 0),
    dst := match A.dst with | some d => d.toNat | none => 0, dstk := 0, acq := acq, reply := none, flag := 0, word := word, wb := A.dst.isSome }

/-- Every register that a hood must hold UNIFORM for its one request (R240). -/
def Atomic.uniform (A : Atomic) (s : State) (w : Who) : Bool :=
  (span A.addr.toNat 2 ++ (match A.src with | some b => span b.toNat (A.width / 4) | none => [])).all fun r => (s.form w r).uniform

/-- An atomic word (R239, R240, R245, R247): all checks first, then one request for each participant. An acquire keeps the thread from
going on before the reply. -/
def atomicBody (i : Instr) (A : Atomic) (w : Who) (s : State) : Eff :=
  let va := fun x => s.gpair w x A.addr.toNat
  if w.hood.isSome && (A.once.isNone || !A.uniform s w) then .expand
  else if w.xs.any fun x => s.walkStalled w.d w.core (w.gid = 0) (va x) || s.lateMain w.d w.gid (va x) A.width then .hold s .held
  else match firstFault (s.sameWave w) w.xs (fun x => s.syncCause w A.acc A.width (va x)) va (some A.addr.toNat) with
    | some t => .trap t
    | none =>
      let (_, o) := ordOf w.hints
      let acq := o == .acq || o == .ar
      let u : Use := if acq then { i.use with var := true, la := 0 } else i.use
      let word := s.nextId
      let issue := fun (s' : State) (x : Nat) (xs : List Nat) =>
        ((s'.fillTlb w.d w.core (w.gid = 0) (va x)).send (A.request s w x xs word acq), if u.var then some s'.nextId else none)
      match w.hood with
      | some _ => let (s', tok) := issue s (w.xs.headD 0) w.xs; .done (s'.finish w u tok unsafePoint w.next)
      | none => .done (w.all.foldl (fun s' x =>
          let one := { w with all := [x], xs := [x] }
          if w.xs.contains x then let (s', tok) := issue s' x [x]; s'.finish one u tok unsafePoint w.next else s'.skip one i.use) s)

def atomWord (i : Instr) (A : Atomic) : State → Res := threadWord i (releasing (atomicBody i A))

def execAtom (o : RedOp) (d a b : Reg) (la : La) : State → Res :=
  atomWord (.atom o d a b la) { op := .red o, acc := .both, width := 4, addr := a, src := some b, dst := some d }
def execAtomXchg (d a b : Reg) (la : La) : State → Res :=
  atomWord (.atomXchg d a b la) { op := .xchg, acc := .both, width := 4, addr := a, src := some b, dst := some d }
def execAcas (d a b : Reg) (la : La) : State → Res :=
  atomWord (.acas d a b la) { op := .cas, acc := .both, width := 4, addr := a, src := some b, dst := some d, cas := true }
def execAcasX64 (d a b : Reg) (la : La) : State → Res :=
  atomWord (.acasX64 d a b la) { op := .cas, acc := .both, width := 8, addr := a, src := some b, dst := some d, cas := true }
def execAcas128 (d a b : Reg) (la : La) : State → Res :=
  atomWord (.acas128 d a b la) { op := .cas, acc := .both, width := 16, addr := a, src := some b, dst := some d, cas := true }
def execSld (d a : Reg) (la : La) : State → Res :=
  atomWord (.sld d a la) { op := .load, acc := .read, width := 4, addr := a, src := none, dst := some d, once := some fun _ v => v }
def execSldX64 (d a : Reg) (la : La) : State → Res :=
  atomWord (.sldX64 d a la) { op := .load, acc := .read, width := 8, addr := a, src := none, dst := some d, once := some fun _ v => v }
def execSst (a b : Reg) : State → Res :=
  atomWord (.sst a b) { op := .store, acc := .write, width := 4, addr := a, src := some b, dst := none, once := some fun _ v => v }
def execSstX64 (a b : Reg) : State → Res :=
  atomWord (.sstX64 a b) { op := .store, acc := .write, width := 8, addr := a, src := some b, dst := none, once := some fun _ v => v }
/-- The operand of a hood's one ARED (R240). -/
def combineN (o : RedOp) (n : Nat) (v : Word) : Word :=
  match o with
  | .add => BitVec.ofNat 32 n * v
  | .xor => if n % 2 = 1 then v else 0
  | _ => v
def execAred (o : RedOp) (a b : Reg) : State → Res :=
  atomWord (.ared o a b) { op := .red o, acc := .both, width := 4, addr := a, src := some b, dst := none, once := some (combineN o) }

/-! ## The queue words at issue (R289) -/

/-- A queue word sends its request and waits at the word for the reply; lanes that a predicate excludes go on. -/
def queueWord (i : Instr) (op : SyncOp) (rel : Bool) (k : KReg) (rec8 : Option KReg) (dst : Nat) (dstk : Nat) (w : Who) (s : State) : Eff :=
  if rel && !s.fullReady w.d w.gid w.xs then .hold s .held
  else
    let words := match rec8 with
      | none => 0
      | some b => (List.range 8).foldl (fun v j => v + (s.k w (b.toNat + j)).toNat * 2 ^ (32 * j)) 0
    let r : SyncReq :=
      { id := 0, home := w.d, op := op, part := s.partOf w.d, ctx := s.ctxOf w.d w.gid, die := w.d, core := w.core, gid := w.gid, xs := w.xs,
        hood := w.hood.isSome, pc := w.pc, addr := (s.k w k.toNat).toNat, width := 0, arg := BitVec.ofNat 256 words, cmp := 0, dst := dst, dstk := dstk,
        acq := false, reply := none, flag := 0 }
    let s := s.send r
    let out := w.all.filter (!w.xs.contains ·)
    let s := if w.hood.isSome || out.isEmpty then s else s.skip { w with all := out, xs := [] } i.use
    .done (s.holdAt { w with all := w.xs } i .reply)

def execQpush (k b : KReg) : State → Res := waveWord (.qpush k b) (queueWord (.qpush k b) .push true k (some b) 0 0)
def execQpop (d : Reg) (k b : KReg) : State → Res := waveWord (.qpop d k b) (queueWord (.qpop d k b) .pop false k none d.toNat b.toNat)
def execQlen (d : Reg) (k : KReg) : State → Res := waveWord (.qlen d k) (queueWord (.qlen d k) .len false k none d.toNat 0)
def execNemit (k b : KReg) : State → Res := waveWord (.nemit k b) (queueWord (.nemit k b) .emit true k (some b) 0 0)

/-! ## Lines in error (R234, R310, R317) -/

/-- The sync engine of die `d` halts a partition with ECC: its record names the requesting word, or none, and the device address of the line. It
stands on that die, or on the partition's lowest die where `d` is another's (log 14). -/
def State.syncEcc (s : State) (p : PartId) (d : DieId) (c : Ctx) (pc line : DWord) : State :=
  s.raiseFault { die := if s.partOf d == p then d else (s.diesOf p).headD d, slot := 248, clock := s.clock, form := {},
                 stop := { cause := Cause.ecc, cls := 2, ctx := c, pc := pc, faddr := line } }
/-- A translation by the sync engine or the scheduler: an error in a table is reported by the table's line. -/
def State.syncTranslate (s : State) (d : DieId) (sup : Bool) (va : DWord) (k : Access) : Acc Nat :=
  match s.translate d syncAgent sup va k with
  | .ok da => .ok da
  | .fault c fa => .fault c (if c = Cause.ecc then s.badLine d syncAgent sup va 1 else fa)

/-! ## Resident queues (R282 to R284) -/

def RQueue.is (q : RQueue) (p : PartId) (c : Ctx) (h : Nat) : Bool := q.part == p && q.ctx == c && q.handle == h
/-- The engine that holds a queue, and the queue. -/
def State.queueOf (s : State) (p : PartId) (c : Ctx) (h : Nat) : Option RQueue :=
  allDies.findSome? fun d => (s.die d).queues.find? (·.is p c h)
def State.putQueue (s : State) (q : RQueue) : State :=
  s.modDie q.die fun D => { D with queues := D.queues.map fun o => if o.is q.part q.ctx q.handle then { q with used := s.seq } else o }

/-- The device address of a byte of the ring or the head area, by the translations kept (R283). -/
def RQueue.da (q : RQueue) (va : Nat) : Nat := ((q.pages.find? (·.1 == va / 4096)).map (·.2)).getD 0 * 4096 + va % 4096
def RQueue.das (q : RQueue) (va n : Nat) : List Nat := (span va n).map q.da
/-- Writes bytes at device addresses. -/
def State.writeAll (s : State) (das : List Nat) (bs : List Byte) : State :=
  { s with mem := (das.zip bs).foldl (fun m (a, b) => m.write a b) s.mem }.rewrite das
def State.readAll (s : State) (das : List Nat) : List Byte := das.map s.mem.read

/-- A queue's ring, head area or descriptor lies in a frame on the move: what reads or writes there stalls (R54). -/
def State.ringStalled (s : State) (q : RQueue) : Bool := !s.moving.isEmpty && (s.stalled q.desc || q.pages.any fun p => s.stalled (p.2 * 4096))

/-- The write-back of a queue: its on-chip records to the head area, its counts to the descriptor (R283). -/
def State.queueBack (s : State) (q : RQueue) : State :=
  let s := s.writeAll (q.das q.hsave.toNat (32 * q.chip.length)) (q.chip.flatMap fun r => bytesOf 32 r.toNat)
  let s := s.writeDa (q.desc + 0x10) (bytesOf 4 q.rhead ++ bytesOf 4 q.rcount)
  let s := s.writeDa (q.desc + 0x20) (bytesOf 4 q.chip.length)
  s.modDie q.die fun D => { D with queues := D.queues.filter fun o => !o.is q.part q.ctx q.handle }

/-- The least recently used queue that is not pinned. -/
def lruQueue : List RQueue → Option RQueue
  | [] => none
  | q :: l => match lruQueue l with
    | none => if q.pin then none else some q
    | some r => if !q.pin && q.used ≤ r.used then some q else some r

/-- The translations of the pages that `n` bytes at `va` touch, or a fault. -/
def State.translatePages (s : State) (d : DieId) (sup : Bool) : List Nat → Acc (List (Nat × Nat))
  | [] => .ok []
  | p :: ps => (s.syncTranslate d sup (BitVec.ofNat 64 p) .both).bind fun da =>
      (s.translatePages d sup ps).bind fun l => .ok ((p / 4096, da / 4096) :: l)

/-- The address of the descriptor of handle `h` (R282). -/
def State.descVa (s : State) (d : DieId) (h : Nat) : DWord := (s.die d).active.qtbase + BitVec.ofNat 64 (64 * h)
/-- A queue-miss adds 1 to sys.qmiss of the descriptor's home (R283); where no descriptor is found, of the die that asks (log 41). -/
def State.countMiss (s : State) (d : DieId) (sup : Bool) (h : Nat) : State :=
  let home := if h > 4095 then d else match s.translate d syncAgent sup (s.descVa d h) .read with
    | .ok desc => s.homeOf desc
    | .fault _ _ => d
  s.modDie home fun D => { D with qmiss := D.qmiss + 1 }

/-- A queue-miss (R283): the queue of handle `h`, as die `d` translates for its context, becomes resident at its descriptor's home. -/
def State.queueMiss (s : State) (d : DieId) (sup : Bool) (p : PartId) (c : Ctx) (h : Nat) : Acc State :=
  if h > 4095 then .fault Cause.fmt 0
  else
    let va := s.descVa d h
    (s.syncTranslate d sup va .read).bind fun desc =>
      let bs := s.mem.readN desc 64
      let f := fieldAt bs
      let kind := f 0x0C 4 % 4
      let chipn := f 0x20 4
      if s.badAt desc then .fault Cause.ecc (lineDa desc)
      else if f 0x0B 1 ≠ 0 ∨ f 0x0C 4 >>> 4 ≠ 0 ∨ chipn >>> 6 ≠ 0 ∨ f 0x24 28 ≠ 0 ∨ !(f 0x0C 4).testBit 2 ∨ kind = 3 ∨ chipn > 32 then .fault Cause.fmt va
      else
        let ring := f 0 8
        let rcap := f 8 3
        let hsave := f 0x18 8
        (s.translatePages d sup (pagesOf ring (32 * rcap) ++ pagesOf hsave 1024)).bind fun pages =>
          let home := s.homeOf desc
          let pinned := (s.die home).queues.countP (·.pin)
          let q : RQueue :=
            { die := home, part := p, ctx := c, handle := h, desc := desc, kind := kind, pin := (f 0x0C 4).testBit 3 && decide (pinned < 256), rcap := rcap,
              chip := [], rhead := f 0x10 4, rcount := f 0x14 4, ring := BitVec.ofNat 64 ring, hsave := BitVec.ofNat 64 hsave, pages := pages, used := s.seq }
          let slots := q.das hsave (32 * chipn)
          let head := s.readAll slots
          match slots.find? s.badAt with
          | some a => .fault Cause.ecc (lineDa a)
          | none =>
            let q := { q with chip := (List.range chipn).map fun i => BitVec.ofNat 256 (fieldAt head (32 * i) 32) }
            let s := if (s.die home).queues.length < 512 then s else match lruQueue (s.die home).queues with
              | some old => s.queueBack old
              | none => s
            let known := (p, c, h)
            .ok { (s.modDie home fun D => { D with queues := q :: D.queues }) with
              launchQueues := if kind = 1 && !s.launchQueues.contains known then known :: s.launchQueues else s.launchQueues }
/-- A queue-miss meets a frame on the move: in the descriptor, the ring or the head area, or in those of a queue that it would evict (R54). -/
def State.missStalled (s : State) (d : DieId) (sup : Bool) (h : Nat) : Bool :=
  !s.moving.isEmpty && (s.vaStalled d syncAgent sup (s.descVa d h) 64 ||
    match s.translate d syncAgent sup (s.descVa d h) .read with
    | .fault _ _ => false
    | .ok desc =>
      let f := fieldAt (s.mem.readN desc 64)
      s.vaStalled d syncAgent sup (BitVec.ofNat 64 (f 0 8)) (32 * f 8 3) || s.vaStalled d syncAgent sup (BitVec.ofNat 64 (f 0x18 8)) 1024 ||
        (decide (512 ≤ (s.die (s.homeOf desc)).queues.length) && (lruQueue (s.die (s.homeOf desc)).queues).any s.ringStalled))
/-- A miss by the scheduler, for no word: what faults leaves the queue where it is (log 20); a line in error halts the partition (R310). -/
def State.schedMiss (s : State) (d : DieId) (p : PartId) (c : Ctx) (h : Nat) : State :=
  if s.missStalled d false h then s
  else
    let s := s.countMiss d false h
    match s.queueMiss d false p c h with
    | .ok s => s
    | .fault e line => if e = Cause.ecc then s.syncEcc p d c 0 line else s

/-- Push (R284): none on a full queue. -/
def State.qPush (s : State) (q : RQueue) (r : BitVec 256) : Option State :=
  if q.rcount = 0 ∧ q.chip.length < 32 then some (s.putQueue { q with chip := q.chip ++ [r] })
  else if q.rcount < q.rcap then
    let s := s.writeAll (q.das (q.ring.toNat + 32 * ((q.rhead + q.rcount) % q.rcap)) 32) (bytesOf 32 r.toNat)
    some (s.putQueue { q with rcount := q.rcount + 1 })
  else none
/-- The refill of a pop: ring records move up while there is room. A record in a line in error moves up as a free value; the first such line is
answered (R310, log 14). -/
def RQueue.refill (s : State) : (fuel : Nat) → (q : RQueue) → (bad : Option Nat) → RQueue × Option Nat
  | 0, q, bad => (q, bad)
  | n + 1, q, bad =>
    if q.chip.length < 32 ∧ q.rcount > 0 then
      let at_ := q.das (q.ring.toNat + 32 * q.rhead) 32
      let lost := at_.find? s.badAt
      let r := if lost.isSome then Config.lostValue s.seq q.rhead else BitVec.ofNat 256 (ofBytes (s.readAll at_))
      RQueue.refill s n { q with chip := q.chip ++ [r], rhead := (q.rhead + 1) % q.rcap, rcount := q.rcount - 1 } (bad.or lost)
    else (q, bad)
/-- Pop (R284), for the word at `pc`, or for none: nothing on an empty queue. A refill that meets a line in error halts the partition. -/
def State.qPop (s : State) (q : RQueue) (pc : DWord := 0) : Option (BitVec 256 × State) :=
  match q.chip with
  | [] => none
  | r :: l =>
    let (q, bad) := RQueue.refill s 32 { q with chip := l } none
    let s := s.putQueue q
    some (r, match bad with | some a => s.syncEcc q.part q.die q.ctx pc (lineDa a) | none => s)
def RQueue.len (q : RQueue) : Nat := q.chip.length + q.rcount

/-! ## Node bins (R287) -/

/-- The die that starts a node's groups: the bin's home, or the partition's lowest die if that lies outside it (log 20). -/
def State.binDie (s : State) (L : Launch) (q : RQueue) : DieId := if s.partOf q.die == L.part then q.die else (s.diesOf L.part).headD q.die
def Node.takesOn (n : Node) (d : DieId) : Nat := ((n.takes.find? (·.1 == d)).map (·.2)).getD 0

/-- Pops up to `n` records of a queue. -/
def State.popN (s : State) (p : PartId) (c : Ctx) (h : Nat) : (n : Nat) → List (BitVec 256) × State
  | 0 => ([], s)
  | n + 1 => match (s.queueOf p c h).bind s.qPop with
    | none => ([], s)
    | some (r, s) => let (rs, s) := s.popN p c h n; (r :: rs, s)

/-- A take from the bin of node `i`: its records start one group, and the timer starts again if records remain. -/
def State.binTake (s : State) (L : Launch) (i : Nat) (N : Node) : State :=
  match s.queueOf L.part L.ctx N.qh with
  | none => s
  | some q =>
    let d := s.binDie L q
    let (rs, s) := s.popN L.part L.ctx N.qh N.coal
    if rs.isEmpty then s
    else
      let left := ((s.queueOf L.part L.ctx N.qh).map (·.len)).getD 0
      let k := N.takesOn d
      let N' : Node := { N with takes := (d, k + 1) :: N.takes.filter (·.1 != d), due := if left = 0 ∨ N.timer = 0 then none else some (s.clock + 1600 * N.timer) }
      let u : Unplaced := { die := d, number := k, node := some i, records := rs }
      s.modLaunch L.id fun L => { L with nodes := L.nodes.set i N', unplaced := L.unplaced ++ [u] }

/-- A record has entered the bin of node `i`: an empty bin's timer starts; COAL records are taken. -/
def State.binPushed (s : State) (L : Launch) (i : Nat) (wasEmpty : Bool) : State :=
  match L.nodes[i]? with
  | none => s
  | some N =>
    let N := if wasEmpty && N.timer != 0 then { N with due := some (s.clock + 1600 * N.timer) } else N
    let s := s.modLaunch L.id fun L => { L with nodes := L.nodes.set i N }
    if N.coal ≤ ((s.queueOf L.part L.ctx N.qh).map (·.len)).getD 0 then s.binTake L i N else s

/-! ## Performing requests -/

/-- The thread of a request. -/
def SyncReq.who (r : SyncReq) : Who :=
  { d := r.die, gid := r.gid, core := r.core, hood := if r.hood then r.xs.head? else none, all := r.xs, xs := r.xs, pc := r.pc, chainPc := r.pc,
    hints := [], prog := 0 }
def State.putReq (s : State) (r : SyncReq) : State := { s with reqs := s.reqs.map fun q => if q.id == r.id then r else q }
def State.dropReq (s : State) (id : Nat) : State := { s with reqs := s.reqs.filter (·.id != id) }

/-- An earlier request on the same line that goes first: of a thread it shares an index with, or of the same word (R239, R246). -/
def State.blocked (s : State) (r : SyncReq) : Bool :=
  s.reqs.any fun q => decide (q.id < r.id) && q.reply.isNone && q.width ≠ 0 && q.addr / 64 == r.addr / 64 && q.die == r.die && q.gid == r.gid &&
    (q.word == r.word || q.xs.any r.xs.contains)

/-- The new value of the operand, if it changes, and the old one (R241 to R244). -/
def SyncReq.result (r : SyncReq) (old : Nat) : Option Nat :=
  let m := 2 ^ (8 * r.width)
  match r.op with
  | .red o => some (RedOp.apply o (BitVec.ofNat 32 old) (BitVec.ofNat 32 r.arg.toNat)).toNat
  | .xchg | .store | .put => some (r.arg.toNat % m)
  | .cas => if old = r.cmp.toNat % m then some (r.arg.toNat % m) else none
  | _ => none

/-- The engine keeps the line of a variable, for the partition that uses it (R234, R235). -/
def touchLine (line : Nat) (p : PartId) (l : List (Nat × List PartId)) : List (Nat × List PartId) :=
  let old := ((l.find? (·.1 == line)).map (·.2)).getD []
  ((line, if old.contains p then old else p :: old) :: l.filter (·.1 != line)).take 32768

/-- A queue word fails at the engine: the thread stands at its word again, and the word faults there (R289). -/
def State.queueFault (s : State) (r : SyncReq) (c : Cause) (fa : DWord) : State :=
  let w := r.who
  ((s.dropReq r.id).modCtl w fun _ k => { k with wait := .none }).trap w { cause := c, faddr := fa, xs := r.xs }

/-- The handle that a queue request names; NEMIT names a node of its launch (R290). -/
def State.reqHandle (s : State) (r : SyncReq) : Option Nat :=
  match r.op with
  | .emit => match (s.group r.die r.gid).bind (s.launchOf r.die) with
    | none => none
    | some L => (L.nodes[r.addr]?).map (·.qh)
  | _ => some r.addr
def SyncOp.queue : SyncOp → Bool
  | .push | .pop | .len | .emit => true
  | _ => false

/-- An operation that writes without reading. -/
def SyncOp.blind : SyncOp → Bool
  | .store | .put => true
  | _ => false
/-- A queue word's miss meets a line in error: its partition halts with ECC, recorded by the engine with the word's PC; the request is given up, and the
thread stands at its word, to issue it again when the partition goes on (R310, R317, log 14). -/
def State.queueEcc (s : State) (r : SyncReq) (line : DWord) : State :=
  ((s.dropReq r.id).modCtl r.who fun _ k => { k with wait := if r.gid = 0 then .none else .fault }).syncEcc r.part r.die r.ctx r.pc line

/-- QUEUE_MISS: request `k` names a queue that is not resident. -/
def execQueueMiss (k : Nat) (s : State) : Res :=
  match s.reqs[k]? with
  | none => .next s
  | some r =>
    if !r.op.queue || r.reply.isSome then .next s
    else match s.reqHandle r with
      | none => .next (s.queueFault r Cause.fmt 0)
      | some h =>
        if (s.queueOf r.part r.ctx h).isSome then .next s
        else if s.missStalled r.die (r.gid = 0) h then .next s
        else
          let s := s.countMiss r.die (r.gid = 0) h
          match s.queueMiss r.die (r.gid = 0) r.part r.ctx h with
          | .fault c fa => .next (if c = Cause.ecc then s.queueEcc r fa else s.queueFault r c fa)
          | .ok s => .next s

/-- The operation reaches the queue's ring: a push behind ring records or a full chip, a pop's refill (R284). -/
def RQueue.usesRing (q : RQueue) (op : SyncOp) : Bool :=
  match op with
  | .push | .emit => !(q.rcount == 0 && decide (q.chip.length < 32))
  | .pop => q.rcount != 0
  | _ => false

/-- The performance of a queue request on its resident queue (R290). -/
def State.performQueue (s : State) (r : SyncReq) (q : RQueue) : State :=
  let push := match s.qPush q r.arg with
    | none => s.queueFault r Cause.qfull 0
    | some s => s.putReq { r with reply := some 0 }
  match r.op with
  | .push => if q.kind = 2 then s.queueFault r Cause.fmt 0 else push
  | .emit =>
    match (s.group r.die r.gid).bind (s.launchOf r.die), s.qPush q r.arg with
    | some L, some s => (s.putReq { r with reply := some 0 }).binPushed L r.addr (q.len == 0)
    | _, _ => push
  | .pop =>
    if q.kind ≠ 0 then s.queueFault r Cause.fmt 0
    else match s.qPop q r.pc with
      | none => s.putReq { r with reply := some 0, flag := 0 }
      | some (v, s) => s.putReq { r with reply := some v, flag := 1 }
  | .len => s.putReq { r with reply := some (BitVec.ofNat 256 q.len) }
  | _ => s

/-- What a request finds in its variable: the bytes, or a free value where the line is in error (R310). -/
def State.variable (s : State) (r : SyncReq) : Nat :=
  if s.badAt r.addr then (Config.lostValue s.seq 0).toNat % 2 ^ (8 * r.width) else s.mem.get r.addr r.width
/-- ATOMIC_PERFORM: the home engine performs request `k`, halted partition or not (R249, R312). One that reads a line in error is performed like any
other, on a free value, and halts its partition with ECC; what it writes does not end the error, as it does not rewrite the line (log 14). -/
def execAtomicPerform (k : Nat) (s : State) : Res :=
  match s.reqs[k]? with
  | none => .next s
  | some r =>
    let count := fun (home : DieId) (s : State) => s.inSkid home fun D => if D.active.ctx == r.ctx then { D with skidReqs := D.skidReqs + 1 } else D
    if r.reply.isSome then .next s
    else if r.op.queue then
      match (s.reqHandle r).bind (s.queueOf r.part r.ctx) with
      | none => .next s
      | some q => if q.usesRing r.op && s.ringStalled q then .next s else .next (((count q.die s).putQueue q).performQueue r q)
    else if s.stalled r.addr || s.blocked r then .next s
    else
      let home := s.homeOf r.addr
      let lost := s.badAt r.addr && !r.op.blind
      let old := s.variable r
      let t := match r.result old with
        | some v => if lost then { s with mem := s.mem.writeN r.addr (bytesOf r.width v) } else s.writeDa r.addr (bytesOf r.width v)
        | none => s
      let t := count home (t.modDie home fun D => { D with held := touchLine (r.addr / 64) r.part D.held })
      let t := if r.op == .put then t.dropReq r.id else t.putReq { r with reply := some (BitVec.ofNat 256 old) }
      .next (if lost then t.syncEcc r.part home r.ctx r.pc (lineDa r.addr) else t)

/-- The destination registers of a reply, in the lanes or hoods that now hold its indices. -/
def Group.land (G : Group) (xs : List Nat) (r n : Nat) (v : Nat) : Group :=
  (List.range n).foldl (fun G i =>
    let x := BitVec.ofNat 32 (v >>> (32 * i))
    { G with hoods := G.hoods.map fun h => if xs.contains h.lo then { h with g := vput h.g (r + i) (uni x) } else h,
             lanes := G.lanes.map fun l => if xs.contains l.x then { l with g := vput l.g (r + i) x } else l }) G

/-- SYNC_REPLY_LANDING: the reply of request `k` reaches its core: the register, the counter, and for a queue word the octet and the
end of the hold (R245, R249, R289). -/
def execSyncReplyLanding (k : Nat) (s : State) : Res :=
  match s.reqs[k]? with
  | none => .next s
  | some r => match r.reply with
    | none => .next s
    | some v =>
      let s := s.dropReq r.id
      if r.op.queue then
        -- the supervisor wave may have left its word for the handler of a fault that is no word's (R222)
        let s' := s
        let w := { r.who with all := r.xs.filter fun x => (s'.group r.die r.gid).any fun G => (G.ctlOf (r.who).hood x).wait == .reply }
        let s := match r.op with
          | .pop =>
            let s := s.setUni w r.dst (if r.flag = 1 then 1 else 0)
            if r.flag = 1 then (List.range 8).foldl (fun (s : State) i => s.setK w (r.dstk + i) (BitVec.ofNat 32 (v.toNat >>> (32 * i)))) s else s
          | .len => s.setUni w r.dst (BitVec.ofNat 32 v.toNat)
          | _ => s
        .next (s.finish w {} none unsafePoint w.next)
      else
        let s := if r.wb then s.modGroup r.die r.gid fun G => G.land r.xs r.dst (r.width / 4) v.toNat else s
        .next (s.resolve r.die r.gid r.id)

end Sys2Proof.Machine
end

