-- ==== Sys2Proof/Machine/Order.lean ====
section
/-! DEFINITION. The ordering words: BIND, ACQ, REL, TFENCE, IFENCE and DINV (R298 to R303). -/
namespace Sys2Proof.Machine

/-- An object that ACQ, REL and BIND name: a live slot or ring (R299, R300). -/
def State.liveObject (s : State) (w : Who) (v : Word) : Bool :=
  match s.slotAddr w.d w.gid v 16 with
  | .fault _ _ => false
  | .ok a => (s.bslot w.d w.gid a).isSome || (s.ring w.d w.gid a).isSome

/-- The record of the object is in error (R310). -/
def State.lostObject (s : State) (w : Who) (v : Word) : Bool :=
  match s.slotAddr w.d w.gid v 16 with
  | .fault _ _ => false
  | .ok a => s.badObject w.d w.gid a

/-- BIND (R299): eight explicit bindings a group. -/
def bindBody (k b : KReg) (w : Who) (s : State) : Eff :=
  let o := s.k w k.toNat
  let a := s.kpair w b.toNat
  let len := (s.k w (b.toNat + 2)).toNat
  match s.group w.d w.gid with
  | none => .done s
  | some G =>
    if s.k w (b.toNat + 3) ≠ 0 ∨ (CAddr.of a).isNone then baruse w s k
    else if o ≠ 0 ∧ s.lostObject w o then slotFault w Cause.ecc o
    else if o ≠ 0 ∧ !s.liveObject w o then baruse w s k
    else if len = 0 then
      .ok (s.modGroup w.d w.gid fun G => { G with binds := G.binds.filter fun x => o ≠ 0 && x.obj != o }) none
    else if o = 0 ∨ 8 ≤ G.binds.length then baruse w s k
    else .ok (s.modGroup w.d w.gid fun G => { G with binds := ⟨o, a, len⟩ :: G.binds }) none

/-- ACQ reads the object, or, with object 0, is a fence: it is held until the thread's earlier reads have been made (R298, R300). -/
def acqBody (k : KReg) (w : Who) (s : State) : Eff :=
  let o := s.k w k.toNat
  if o = 0 then (if s.readsDone w.d w.gid w.xs then .ok s none else .hold s .held)
  else if s.lostObject w o then slotFault w Cause.ecc o
  else if s.liveObject w o then .ok (s.noteAcquire w.d w.gid o) none else baruse w s k
/-- REL is held until the writes it covers are complete: with object 0 all of them, else those of R120 (R300). -/
def relBody (k : KReg) (w : Who) (s : State) : Eff :=
  let o := s.k w k.toNat
  if o = 0 then (if s.fullReady w.d w.gid w.xs then .ok s none else .hold s .held)
  else if s.lostObject w o then slotFault w Cause.ecc o
  else if !s.liveObject w o then baruse w s k
  else if s.boundReady w.d w.gid w.xs o then .ok (s.noteRelease w.d w.gid o (s.unwritten w.d w.gid w.xs o)) none
  else .hold s .held

/-- The agents that a scope covers: those of the issuing core, its quad, its die, or the partition (R52, R303). -/
def State.covers (s : State) (w : Who) (sc : Scope) (d : DieId) (agent : Nat) : Bool :=
  match sc with
  | .lane | .core => d == w.d && agent == w.core
  | .quad =>
    let (a, b) := s.coreCarders w.d w.core
    d == w.d && ((decide (agent < 100) && agent / 4 == w.core / 4) || agent == carderAgent a || agent == carderAgent b)
  | .die => d == w.d
  | .pkg | .pod => s.partOf d == s.partOf w.d

/-- TFENCE (R51, R52, R301): at .pkg it waits for the migrations of its partition's frames, and always for the requests and the GLDs whose
address was translated through what it discards; then the cached translations of the contexts it covers go, the
supervisor wave's of every context; an engine in its scope writes back the queues whose translations go (R283). -/
def tfenceBody (sc : Scope) (w : Who) (s : State) : Eff :=
  let wide := sc == .pkg || sc == .pod
  let mine := fun (c : Ctx) => w.gid == 0 || c == s.ctxOf w.d w.gid
  let uses := fun (r : SyncReq) => r.reply.isNone && !r.op.queue && s.covers w sc r.die r.core && mine r.ctx
  let loads := allDies.any fun d => (s.die d).resident.any fun G => mine (s.ctxOf d G.gid) && G.glds.any fun q =>
    decide (q.step < 3) && s.covers w sc d (carderAgent q.inst)
  let back := fun (q : RQueue) => s.covers w sc q.die syncAgent && mine q.ctx && q.part == s.partOf w.d
  if wide && s.moving.any (fun m => s.partOf (s.homeOf (m.frame * 2 ^ 21)) == s.partOf w.d || s.partOf m.dst == s.partOf w.d) then .hold s .held
  else if s.reqs.any uses || loads || allDies.any (fun d => (s.die d).queues.any fun q => back q && s.ringStalled q) then .hold s .held
  else
    let s := allDies.foldl (fun t d => t.modDie d fun D => { D with tlb := D.tlb.filter fun e => !(s.covers w sc d e.agent && mine e.ctx) }) s
    let qs := allDies.flatMap fun d => (s.die d).queues.filter back
    .ok (qs.foldl State.queueBack s) none

/-- IFENCE (R302): the issuing core's buffers go, and every line kept on the die whose bytes a write has changed. -/
def ifenceBody (w : Who) (s : State) : Eff :=
  let keep := fun (e : ILine) => e.agent != some w.core && e.bytes == s.mem.readN (e.line * 128) 128
  .ok (s.modDie w.d fun D => { D with icache := D.icache.filter keep }) none

/-- DINV (R303): after the thread's earlier writes to main memory, the descriptor copies of its context in the scope go. -/
def dinvBody (sc : Scope) (w : Who) (s : State) : Eff :=
  if !((s.cmdsOf w.d w.gid w.xs).isEmpty && (s.gldsOf w.d w.gid w.xs).isEmpty && (s.reqsOf w.d w.gid w.xs).all (·.reply.isSome)) then .hold s .held
  else .ok (allDies.foldl (fun t d => t.modDie d fun D =>
    { D with desc := D.desc.filter fun e => !(s.covers w sc d e.agent && e.ctx == s.ctxOf w.d w.gid) }) s) none

def execBind (k b : KReg) : State → Res := waveWord (.bind k b) (bindBody k b)
def execAcq (sc : Scope) (k : KReg) : State → Res := waveWord (.acq sc k) (acqBody k)
def execRel (sc : Scope) (k : KReg) : State → Res := waveWord (.rel sc k) (relBody k)
def execTfence (sc : Scope) : State → Res := waveWord (.tfence sc) (tfenceBody sc)
def execIfence : State → Res := waveWord .ifence ifenceBody
def execDinv (sc : Scope) : State → Res := waveWord (.dinv sc) (dinvBody sc)

end Sys2Proof.Machine
end

