-- ==== Sys2Proof/Machine/Sessions.lean ====
section
/-! DEFINITION. Reduction sessions (R226 to R232), PHASE and BAR (R251 to R255), and the traffic of .pod generations (R380). -/
namespace Sys2Proof.Machine

/-! ## CRED and CCLOSE -/

/-- A session descriptor (R226). -/
structure SessDesc where
  sid     : Word
  count   : Nat
  pno     : Nat
  rows    : Nat
  cols    : Nat
  dfmt    : Nat
  flags   : Nat
  dstride : Nat
  dest    : DWord
  notify  : Word
  ok      : Bool

def SessDesc.of (bs : List Byte) : SessDesc where
  sid := BitVec.ofNat 32 (fieldAt bs 0 4)
  count := fieldAt bs 4 2
  pno := fieldAt bs 6 2
  rows := fieldAt bs 8 1 + 1
  cols := fieldAt bs 9 1 + 1
  dfmt := fieldAt bs 0x0A 1
  flags := fieldAt bs 0x0B 1
  dstride := fieldAt bs 0x0C 4
  dest := BitVec.ofNat 64 (fieldAt bs 0x10 8)
  notify := BitVec.ofNat 32 (fieldAt bs 0x18 4)
  ok := decide (fieldAt bs 8 1 ≤ 63) && (floatFmt (fieldAt bs 0x0A 1)).isSome && decide (fieldAt bs 0x0B 1 % 4 ≤ 1) &&
    decide (fieldAt bs 0x0B 1 < 8) && fieldAt bs 0x1C 36 == 0 && decide (fieldAt bs 6 2 < fieldAt bs 4 2)

/-- Bytes of a result row, and between rows. -/
def packedRow (dfmt cols : Nat) : Nat := rowBytes dfmt cols
def rowStride (dfmt cols dstride : Nat) : Nat := if dstride = 0 then packedRow dfmt cols else dstride

/-- The check of DEST for every result row (R227). -/
def State.destFault (s : State) (w : Who) (D : SessDesc) : Option (Cause × DWord) :=
  if D.dest = 0 then none
  else match CAddr.of D.dest with
    | none => some (Cause.bounds, D.dest)
    | some c => (List.range D.rows).findSome? fun m =>
        let at_ := D.dest + BitVec.ofNat 64 (m * rowStride D.dfmt D.cols D.dstride)
        let bad := match c with
          | .main _ => false
          | .loc sp a => !s.inSpace w.d w.gid sp (a + m * rowStride D.dfmt D.cols D.dstride) (packedRow D.dfmt D.cols)
        if bad then some (Cause.bounds, at_) else if at_.toNat % unitAlign D.dfmt ≠ 0 then some (Cause.align, at_) else none

def chunks (bytes : Nat) : Nat := (bytes + 511) / 512
/-- A join came from this package: at .pod the home is rank 0's. -/
def SJoin.here (x : Session) (j : SJoin) : Bool := x.scope != .pod || j.rank == 0
def Session.isJoin (j i : SJoin) : Bool := i.rank == j.rank && i.die == j.die && i.core == j.core && i.h == j.h && i.ctx == j.ctx

/-- 512-byte chunks of a crown's tile store that stored tiles and staging take up (R100, R227): staging of a handle, of a close on its way to
a home here, and of a closed participant whose rows its home, here or on another package, has still to read (R230). -/
def State.crownUsed (s : State) (d : DieId) (c : Fin 4) : Nat :=
  let size := fun (rows cols : Nat) => chunks (4 * rows * cols)
  let st := (s.stores.filter fun e => e.at_ == Router.crown d c).foldl (fun n e => n + chunks e.size) 0
  let hs := (((s.banksOn d).flatMap (·.handles) ++ (s.die d).svHandles).filter fun h => h.crown == c.val).foldl (fun n h => n + size h.rows h.cols) 0
  let reads := fun (x : Session) => if x.abandoned || x.result.isSome then 0 else
    (x.joins.countP fun j => SJoin.here x j && j.die == d && j.crown == c.val &&
      (j.closed || s.smsgs.any fun m => match m with | .close _ _ _ i => Session.isJoin i j | _ => false)) * size x.rows x.cols
  let coming := s.smsgs.filterMap fun m => match m with | .join x => some x | _ => none
  (s.sessions ++ coming).foldl (fun n x => n + reads x)
    ((s.kept.filter fun k => k.j.die == d && k.j.crown == c.val).foldl (fun n k => n + k.chunks) (st + hs))
def crownChunks : Nat := 4096

/-- CRED (R227). R227 says a free handle: the model takes the lowest one (DESIGN CHOICE, log 50). -/
def credBody (isExact : Bool) (sc : Scope) (k a : KReg) (w : Who) (s : State) : Eff :=
  match s.group w.d w.gid with
  | none => .done s
  | some G =>
    let v := s.k w a.toNat
    match s.slotAddr w.d w.gid v 64 with
    | .fault c _ => slotFault w c v
    | .ok A =>
      let D := SessDesc.of (s.readLocal w.d w.gid 0 A.space A.addr 64)
      let L := s.launchOf w.d G
      if s.tileClash w A.space A.addr 64 false then .hold s .held
      else if A.addr % 64 ≠ 0 then slotFault w Cause.align v
      else if s.touchesLive w.d w.gid A.space A.addr 64 then slotFault w Cause.baruse v
      else if s.badLocalAt w.d w.gid 0 A.space A.addr 64 then slotFault w Cause.ecc v
      else if !D.ok then slotFault w Cause.fmt v
      else match s.destFault w D with
        | some (c, fa) => kfault w c fa
        | none =>
          if sc == .pod && (match L with | some L => L.ranks.isEmpty | none => true) then kfault w Cause.part 0
          else
            let D0 := s.die w.d
            let crown := vget (s.die w.d).crowns (D.sid.toNat % 4) 0
            let mine := (D0.handlesOf w.gid).filter (·.core == w.core)
            match (List.range 16).find? fun h => mine.all (·.h != h) with
            | none => .hold s .held
            | some h =>
              if s.crownUsed w.d crown + chunks (4 * D.rows * D.cols) > crownChunks then .hold s .held
              else
                let gen := (((D0.gensOf w.gid).find? fun g => g.1 == w.core && g.2.1 == h).map (·.2.2)).getD 0
                let inst := s.instOf w.d w.core sc
                let rank := (L.map (·.rank)).getD 0
                let hd : Handle :=
                  { core := w.core, h := h, gid := w.gid, sid := D.sid, scope := sc, inst := inst, part := D.pno, rows := D.rows, cols := D.cols,
                    crown := crown.val, sent := 0, pc := w.pc, pno := D.pno, dest := D.dest, dstride := D.dstride, notify := D.notify, staged := [],
                    rank := rank, gen := gen, ctx := s.ctxOf w.d w.gid, uid := s.nextId }
                let m : Session :=
                  { home := s.scopeHome w.d sc, part := s.partOf w.d, ctx := s.ctxOf w.d w.gid, sid := D.sid, scope := sc, inst := inst, exactMode := isExact,
                    count := D.count, rows := D.rows, cols := D.cols, dfmt := BitVec.ofNat 8 D.dfmt, flags := BitVec.ofNat 8 D.flags,
                    joins := [s.joinOf w.d hd], abandoned := false, result := none }
                let s := { s.modHandles w.d w.gid (· ++ [hd]) with nextId := s.nextId + 1 }
                let s := if hd.remote then s.toHome w.d w.pc hd (.join m) else { s with smsgs := s.smsgs ++ [SMsg.join m] }
                .ok (s.setK w k.toNat (BitVec.ofNat 32 (gen * 16 + h))) none

/-- A handle is closed, and the close goes to the home (R229): with its rows, or, where the home is on another package, with their numbers: they stay in the
entry crown until the home reads them (R230). -/
def State.closeHandle (s : State) (d : DieId) (gid : Nat) (h : Handle) (pc : DWord) : State :=
  let j := { s.joinOf d h with closed := true, mask := rowMask (h.staged.map (·.1 / 2)), staged := if h.remote then [] else h.staged, pc := pc }
  let m : SMsg := .close h.sid h.scope (s.scopeHome d h.scope) j
  let s := if h.ended then s
    else if !h.remote then { s with smsgs := s.smsgs ++ [m] }
    else
      let t := s.toHome d pc h m
      if h.staged.isEmpty then t else { t with kept := t.kept ++ [⟨{ j with staged := h.staged }, chunks (4 * h.rows * h.cols), h.pcs⟩] }
  (s.modHandles d gid (·.filter fun x => !(x.core == h.core && x.h == h.h))).modGens d gid fun gs =>
    (h.core, h.h, h.gen + 1) :: gs.filter fun g => !(g.1 == h.core && g.2.1 == h.h)

/-- CCLOSE (R229): held while a TDRED of the core on the handle is in the tile engine. -/
def ccloseBody (k : KReg) (w : Who) (s : State) : Eff :=
  let v := s.k w k.toNat
  match (s.die w.d).handleOf w.gid w.core v with
  | none => slotFault w Cause.baruse v
  | some h =>
    if (s.tileQueue w.d w.core).any fun q => q.kind == .tdred && q.handle.toNat % 16 == h.h then .hold s .held
    else .ok (s.closeHandle w.d w.gid h w.pc) none

def execCredCanon (sc : Scope) (k a : KReg) : State → Res := waveWord (.credCanon sc k a) (credBody false sc k a)
def execCredExact (sc : Scope) (k a : KReg) : State → Res := waveWord (.credExact sc k a) (credBody true sc k a)
def execCclose (k : KReg) : State → Res := waveWord (.cclose k) (ccloseBody k)

/-! ## A session at its home -/

/-- A fault of a thread that an engine reports with the word's PC (R222, R228, R231). -/
def State.threadFault (s : State) (d : DieId) (gid core : Nat) (xs : List Nat) (pc : DWord) (c : Cause) (fa : DWord) : State :=
  let w : Who := { d := d, gid := gid, core := core, hood := none, all := xs, xs := xs, pc := pc, chainPc := pc, hints := [], prog := 0 }
  let f := s.faultRec w { cause := c, faddr := fa, xs := xs }
  s.raiseFault { f with stop := { f.stop with kind := 255 } }
def State.joinFault (s : State) (j : SJoin) (c : Cause) (fa : DWord) : State :=
  if j.gid = 0 then s.raiseSv j.die (s.faultRec { d := j.die, gid := 0, core := j.core, hood := none, all := [0], xs := [0], pc := j.pc, chainPc := j.pc,
                                                  hints := [], prog := 0 } { cause := c, faddr := fa, xs := [0] })
  else s.threadFault j.die j.gid j.core [] j.pc c fa

/-- One open session has the identity of another (R227). -/
def Session.same (x m : Session) : Bool :=
  x.result.isNone && x.sid == m.sid && x.scope == m.scope && x.inst == m.inst && x.ctx == m.ctx && (x.scope == .pod || x.part == m.part) && x.home == m.home
def Session.agrees (x m : Session) : Bool :=
  x.exactMode == m.exactMode && x.count == m.count && x.rows == m.rows && x.cols == m.cols && x.dfmt == m.dfmt && x.flags == m.flags

def State.dropMsg (s : State) (k : Nat) : State := { s with smsgs := s.smsgs.eraseIdx k }
def State.modSession (s : State) (id : Nat) (f : Session → Option Session) : State :=
  { s with sessions := s.sessions.filterMap fun y => if y.id == id then f y else some y }
def maxSessions : Nat := 48
/-- A message of the home to a participant on another package, along the path of its join (R223); `pc`: the word that causes it. -/
def State.toJoin (s : State) (x : Session) (pc : DWord) (j : SJoin) (m : SMsg) : State :=
  match j.link with
  | some n => s.sendOver n x.home pc ⟨x.ctx, .session, j.rank, 0⟩ (.session m)
  | none => s

/-- The home abandons a session, of which joins may still be on their way to it: LINK in the partitions of the participants that are not `gone` (R232). -/
def State.abandon (s : State) (x : Session) (gone : SJoin → Bool) : State :=
  let of := fun (y : Session) => (x.id != 0 && y.id == x.id) || y.same x
  let joins := (s.sessions.filter of).flatMap (·.joins) ++ s.smsgs.flatMap fun m => match m with | .join y => if of y then y.joins else [] | _ => []
  let s := { s with sessions := s.sessions.filter (!of ·), smsgs := s.smsgs.filter fun m => match m with | .join y => !of y | _ => true }
  (joins.filter (!gone ·)).foldl (fun (s : State) j =>
    if SJoin.here x j then s.joinFault j Cause.link 0 else s.toJoin x j.pc j (.lost j)) s
/-- The message says that the partition of a join has been reset. -/
def SMsg.endsJoin (j : SJoin) : SMsg → Bool
  | .gone i => Session.isJoin j i
  | _ => false

/-- SESSION_JOIN: the join in message `k` reaches its home (R227, R228); the end of its partition may have come before it (R232). -/
def execSessionJoin (k : Nat) (s : State) : Res :=
  match s.smsgs[k]? with
  | some (.join m) =>
    match m.joins.head? with
    | none => .next (s.dropMsg k)
    | some j =>
      if s.smsgs.any (SMsg.endsJoin j) then
        .next ({ s with smsgs := s.smsgs.filter (!SMsg.endsJoin j ·) }.abandon m (Session.isJoin j))
      else match s.sessions.find? (·.same m) with
      | none =>
        if (s.sessions.countP fun x => x.home == m.home) < maxSessions then
          .next { s.dropMsg k with sessions := s.sessions ++ [{ m with id := s.nextId }], nextId := s.nextId + 1 }
        else .next s
      | some x =>
        let bad := !x.agrees m || x.joins.any (·.pno == j.pno)
        let s := (s.dropMsg k).modSession x.id fun y => some { y with joins := y.joins ++ [j], abandoned := y.abandoned || bad }
        if !bad then .next s
        else if SJoin.here m j then .next (s.joinFault j Cause.fmt 0)
        else .next (s.toJoin x j.pc j (.refused j))
  | _ => .next s

/-- Element (m, c) of participant p: from its row's piece, or +0 where it sent none. -/
def Session.elem (x : Session) (p m c : Nat) : Word :=
  match (x.joins.find? (·.pno == p)).bind fun j => j.staged.find? (·.1 == 2 * m + c / 128) with
  | some r => r.2.getD (c % 128) 0
  | none => 0
/-- Truncation toward zero of `v` times 2 to the `k` (R230). -/
def truncAt (neg : Bool) (m : Nat) (e k : Int) : Int := signed neg (if 0 ≤ e + k then m * 2 ^ (e + k).toNat else m >>> (-(e + k)).toNat)
/-- The largest exponent of a block of 16 columns (R230). -/
def Session.emax (x : Session) (m c : Nat) : Option Int :=
  let vs := (List.range x.count).flatMap fun p => (range (c / 16 * 16) (min (c / 16 * 16 + 16) x.cols)).filterMap fun i =>
    match f32.val (x.elem p m i).toNat with
    | .fin _ n e => if n = 0 then none else some ((Nat.log2 n : Int) + e)
    | _ => none
  match vs with
  | [] => none
  | v :: l => some (l.foldl max v)
/-- One element of the result, in the result format (R230). -/
def Session.value (x : Session) (m c : Nat) : Nat :=
  let f := (floatFmt x.dfmt.toNat).getD f32
  let mode : Mode := if x.flags.toNat % 4 = 1 then .rz else .rne
  let sat := x.flags.getLsbD 2
  let vs := (List.range x.count).map fun p => x.elem p m c
  if !x.exactMode then
    let add := fun (a b : Word) => BitVec.ofNat 32 (f32.addOp a.toNat b.toNat .rne false 0)
    f.of (f32.val ((treeOf add 16 vs).headD 0).toNat) mode sat 0
  else match sumVals (vs.map fun v => f32.val v.toNat) with
    | .nan => f.nan
    | .inf neg => f.of (.inf neg) mode sat 0
    | .fin _ _ _ => match x.emax m c with
      | none => 0
      | some e =>
        let ts : List Int := vs.map fun v => match f32.val v.toNat with | .fin neg n g => truncAt neg n g (62 - e) | _ => 0
        let t : Int := ts.foldl (· + ·) 0
        f.round (decide (t < 0)) t.natAbs (e - 62) mode sat 0
def Session.resultRows (x : Session) : List (List Byte) :=
  (List.range x.rows).map fun m => (List.range x.cols).flatMap fun c => bytesOf (unitBytes x.dfmt.toNat) (x.value m c)

/-- A row of a participant stands in the home's staging, every piece of it. -/
def Session.hasRow (x : Session) (j : SJoin) (m : Nat) : Bool :=
  (2 * m :: if x.cols ≤ 128 then [] else [2 * m + 1]).all fun i => j.staged.any (·.1 == i)
/-- The next row that the home reads from the entry crown of a participant on another package: row by row, each in participant order (R230). -/
def Session.unread (x : Session) : Option (SJoin × Nat) :=
  (List.range x.rows).findSome? fun m =>
    (bestOf (fun (a b : SJoin) => decide (a.pno ≤ b.pno)) (x.joins.filter fun j => !SJoin.here x j && j.mask.getLsbD m && !x.hasRow j m)).map fun j => (j, m)
/-- A session whose closes or rows have come on: with the last close, and every row read, the result is computed (R230); an abandoned one frees what it
holds (R228). -/
def State.advance (s : State) (x : Session) : State :=
  let put := fun (x : Session) => s.modSession x.id fun _ => some x
  if x.joins.countP (·.closed) < x.count then put x
  else if x.abandoned then
    (x.joins.filter fun j => !SJoin.here x j).foldl (fun (s : State) j => s.toJoin x x.pc j (.free { j with staged := [] })) (s.modSession x.id fun _ => none)
  else match x.unread with
    | none => put { x with result := some x.resultRows }
    | some (j, m) =>
      if x.asked == some (j.pno, m) then put x
      else (put { x with asked := some (j.pno, m) }).toJoin x x.pc j (.read { j with staged := [] } m)

/-- SESSION_CLOSE: the close in message `k` reaches its home, behind its join (R229, R230). -/
def execSessionClose (k : Nat) (s : State) : Res :=
  match s.smsgs[k]? with
  | some (.close sid sc home j) =>
    match s.sessions.find? fun x => x.result.isNone && x.sid == sid && x.scope == sc && x.home == home && x.joins.any (Session.isJoin j) with
    | none =>
      let coming := j.link.isSome || s.smsgs.any fun m => match m with | .join x => x.joins.any (Session.isJoin j) | _ => false
      .next (if coming then s else s.dropMsg k)
    | some x =>
      let take := fun (i : SJoin) => if Session.isJoin j i then { i with closed := true, mask := j.mask, staged := i.staged ++ j.staged } else i
      .next ((s.dropMsg k).advance { x with joins := x.joins.map take, pc := j.pc })
  | _ => .next s

/-- Writes bytes of a result at an offset from a participant's DEST and then credits NOTIFY with `credit` (R231): none while its context is not
there to take them, or while their frame is on the move (R54); a fault leaves them to be written again (R310). They are bound to NOTIFY (R120). -/
def State.writeResult (s : State) (j : SJoin) (off : Nat) (bytes : List Byte) (credit : Nat) : Option (Bool × State) :=
  let at_ := j.dest + BitVec.ofNat 64 off
  if !(s.ready && !(s.part (s.partOf j.die)).halt) || (if j.gid = 0 then (s.die j.die).svOwn else (s.die j.die).active.ctx != j.ctx) then none
  else if (match CAddr.of at_ with | some (.main va) => s.vaStalled j.die j.core (j.gid = 0) va bytes.length | _ => false) then none
  else
    let put : Acc State := match CAddr.of at_ with
      | none => .fault Cause.bounds at_
      | some (.main va) => (s.writeVa j.die j.core (j.gid = 0) va bytes).bind fun s => .ok (s.useBytes j.die j.gid j.notify none va.toNat bytes.length)
      | some (.loc sp a) =>
        if !s.inSpace j.die j.gid sp a bytes.length then .fault Cause.bounds at_
        else if s.touchesLive j.die j.gid sp a bytes.length then .fault Cause.baruse at_
        else .ok ((s.writeLocal j.die j.gid 0 sp a bytes).useBytes j.die j.gid j.notify (some sp) a bytes.length)
    match put.bind fun s => if credit = 0 then .ok s else s.credit j.die j.gid j.notify none credit with
    | .ok s => some (true, s)
    | .fault c fa => some (false, s.joinFault j c fa)

/-- The next row of a result for a participant: written here, or sent to its package in packets (R220, R231). -/
def State.resultRow (s : State) (x : Session) (bytes : List Byte) (j : SJoin) : Option (Bool × State) :=
  let (dfmt, m) := (x.dfmt.toNat, j.written)
  let off := m * rowStride dfmt x.cols j.dstride
  let credit := if m + 1 = x.rows then x.rows * packedRow dfmt x.cols else 0
  if SJoin.here x j then s.writeResult j off bytes credit
  else
    let first := bytes.take 512
    let rest := bytes.drop 512
    let send := fun (s : State) (o : Nat) (bs : List Byte) (c : Nat) => s.toJoin x x.pc j (.result j (off + o) bs c)
    some (true, if rest.isEmpty then send s 0 first credit else send (send s 0 first 0) 512 rest credit)

/-- SESSION_RESULT_WRITE: one row of the result of session `k` goes to the first participant that asks for it and can take it; the session
ends when all have it. Beyond the sessions, `k` counts the messages from homes on other packages. -/
def execSessionResultWrite (k : Nat) (s : State) : Res :=
  match s.sessions[k]? with
  | some x => match x.result with
    | none => .next s
    | some rows =>
      let wants := x.joins.filter fun j => j.dest ≠ 0 ∧ j.written < x.rows
      if wants.isEmpty then .next (s.modSession x.id fun _ => none)
      else match wants.findSome? fun j => (s.resultRow x (rows.getD j.written []) j).map fun r => (j, r) with
        | none => .next s
        | some (_, false, s) => .next s
        | some (j, true, s) => .next (s.modSession x.id fun y =>
            some { y with joins := y.joins.map fun i => if Session.isJoin j i then { i with written := i.written + 1 } else i })
  | none =>
    let i := k - s.sessions.length
    match s.smsgs[i]? with
    | some (.result j off bytes credit) =>
      -- a participant's rows are written in ascending order (R231)
      let behind := (s.smsgs.take i).any fun m => match m with | .result k .. => Session.isJoin j k | _ => false
      match (if behind then none else s.writeResult j off bytes credit) with
      | none => .next s
      | some (ok, s) => .next (if ok then s.dropMsg i else s)
    | some (.lost j) => .next ((s.dropMsg i).joinFault j Cause.link 0)
    | some (.refused j) => .next ((s.dropMsg i).joinFault j Cause.fmt 0)
    | _ => .next s

/-! ## Messages of other packages -/

/-- The partition that a packet from a link is for: that of the launch of its context and rank, else one that holds its context (R14). -/
def State.partFor (s : State) (h : Header) : Option PartId :=
  match s.launches.find? fun L => L.ctx == h.ctx && !L.ranks.isEmpty && L.rank == h.dst with
  | some L => some L.part
  | none => (allDies.find? fun d => (s.banksOn d).any fun B => B.ctx == h.ctx && h.ctx != 0).map s.partOf
/-- A join as its home knows it: it came from the header's rank by link `n`. -/
def SJoin.from (n : Nat) (h : Header) (j : SJoin) : SJoin := { j with rank := h.src, ctx := h.ctx, link := some n }
/-- A session needs no more of the rows that a participant keeps in its entry crown. -/
def State.dropKept (s : State) (j : SJoin) : State := { s with kept := s.kept.filter fun k => !Session.isJoin j k.j }
/-- The participant's handle, in whichever bank it lies, is of a session that is over (R232). -/
def State.handleOver (s : State) (j : SJoin) : State :=
  let f := fun (B : Bank) => { B with handles := B.handles.map fun h => if h.uid == j.h then { h with ended := true } else h }
  { s.modDie j.die fun D => { D with active := f D.active, shadow := f D.shadow } with
    saves := s.saves.map fun e => if e.away && e.die == j.die then { e with bank := f e.bank } else e }
/-- A home reads a row from the entry crown of a participant: it goes back along the link that asks for it, and its room is free with the last one
(R223, R230). -/
def State.sendRow (s : State) (n : Nat) (j : SJoin) (row : Nat) : State :=
  match s.kept.find? fun k => Session.isJoin j k.j with
  | none => s
  | some k =>
    let out := k.j.staged.filter fun r => r.1 / 2 == row
    let rest := k.j.staged.filter fun r => r.1 / 2 != row
    let pc := ((k.pcs.find? (·.1 == row)).map (·.2)).getD k.j.pc
    let s := out.foldl (fun (s : State) r => s.sendOver n k.j.die pc ⟨k.j.ctx, .session, 0, k.j.rank⟩ (.session (.row { k.j with staged := [] } r.1 r.2))) s
    { s with kept := (s.kept.map fun o => if Session.isJoin j o.j then { o with j := { o.j with staged := rest } } else o).filter fun o => !o.j.staged.isEmpty }
/-- A message of a session arrives over a link. -/
def State.takeSession (s : State) (n : Nat) (h : Header) (m : SMsg) : State :=
  let back := { s with smsgs := s.smsgs ++ [m] }
  match m with
  | .result j .. => if j.ctx == h.ctx then back else s
  | .refused j => if j.ctx == h.ctx then back.dropKept j else s
  | .lost j => if j.ctx == h.ctx then (back.dropKept j).handleOver j else s
  | .read j row => if j.ctx == h.ctx then s.sendRow n j row else s
  | .free j => if j.ctx == h.ctx then s.dropKept j else s
  | .row j piece vals =>
    let j := j.from n h
    match s.sessions.find? fun x => x.result.isNone && x.joins.any (Session.isJoin j) with
    | none => s
    | some x => s.advance { x with joins := x.joins.map fun i => if Session.isJoin j i then { i with staged := i.staged ++ [(piece, vals)] } else i }
  | .gone j =>
    let j := j.from n h
    let coming := s.smsgs.filterMap fun m => match m with | .join x => some x | _ => none
    match (s.sessions ++ coming).filter fun x => x.result.isNone && x.joins.any fun i => Session.isJoin j i && !i.closed with
    | [] => { s with smsgs := s.smsgs ++ [.gone j] }
    | xs => xs.foldl (fun (s : State) x => s.abandon x fun i => i.rank == j.rank && i.part == j.part) s
  | .join m => match s.partFor h with
    | none => s
    | some p => { s with smsgs := s.smsgs ++ [.join { m with home := (s.diesOf p).headD 0, part := p, ctx := h.ctx, joins := m.joins.map (·.from n h) }] }
  | .close sid sc _ j => match s.partFor h with
    | none => s
    | some p => { s with smsgs := s.smsgs ++ [.close sid sc ((s.diesOf p).headD 0) (j.from n h)] }

/-! ## PHASE and BAR -/

/-- PHASE (R252): a release, then the count. -/
def phaseBody (sc : Scope) (k b : KReg) (w : Who) (s : State) : Eff :=
  match (s.group w.d w.gid).bind (s.launchOf w.d) with
  | none => kfault w Cause.fmt 0
  | some L =>
    match s.phaseCount w.d w.core L sc w.pc (s.k w k.toNat).toNat (s.k w b.toNat).toNat with
    | .fault c _ => kfault w c 0
    | .ok t => if s.fullReady w.d w.gid w.xs then .ok t none else .hold s .held
def execPhase (sc : Scope) (k b : KReg) : State → Res := waveWord (.phase sc k b) (phaseBody sc k b)

/-- BAR (R253): PART, SYNCOVF and PROT at issue, held as a release, then gathered; it returns when the generation has ended. -/
def barBody (sc : Scope) (w : Who) (s : State) : Eff :=
  match s.group w.d w.gid with
  | none => .done s
  | some G =>
    let go := fun (s : State) => gatherBody (.bar sc) (.bar sc) 0 .wait none 0 w s
    if w.xs.isEmpty then go s
    else match s.launchOf w.d G with
      | none => .ok s none
      | some L =>
        if sc == .pod && L.ranks.isEmpty then kfault w Cause.part 0
        else match s.needSet (s.scopeHome w.d sc) (s.ctxOf w.d w.gid) L sc (s.instOf w.d w.core sc) with
          | .fault c fa => kfault w c fa
          | .ok t =>
            if w.xs.all (fun x => (G.doneAt (.bar sc) 0 x).isNone) && !s.fullReady w.d w.gid w.xs then .hold t .held else go t
def execBar (sc : Scope) : State → Res := waveWord (.bar sc) (barBody sc)

/-! ## .pod generations (R380) -/

/-- Handles the input at the head of the inbox. -/
def withInput (s : State) (f : Input → State → State) : Res :=
  match s.inbox with
  | [] => .next s
  | i :: rest => .next (f i { s with inbox := rest })

/-- The launch that a packet of a .pod generation names: of the header's context (R10). -/
def State.podLaunch (s : State) (h : Header) (id : Nat) : Option Launch := s.launches.find? fun L => L.id == id && L.ctx == h.ctx
/-- The engine of the package that combines a launch's .pod traffic. -/
def State.podHome (s : State) (L : Launch) : DieId := (s.diesOf L.part).headD 0
/-- The counter set of the package for a launch's .pod traffic, allocated where it is needed (R236); where no room is, the packet is lost (log 43). -/
def State.withPodSet (s : State) (L : Launch) (f : DieId → CSet → State → State) : State :=
  let home := s.podHome L
  match s.needSet home L.ctx L .pod 0 with
  | .fault .. => s
  | .ok t => match t.cset home L.id .pod 0 with
    | some c => f home c t
    | none => t

/-- Rank 0 has opened a generation: this package takes its members; one that runs no group of the launch has arrived at once. -/
def execPodGenerationOpen (s : State) : Res :=
  withInput s fun i s => match i with
    | .link n h (.podOpen launch gen pc) => match s.podLaunch h launch with
      | none => s.sendFrom n.val ((s.partFor h).bind fun p => (s.diesOf p).head?) pc { h with dst := h.src, src := h.dst } (.podArrival launch gen true pc)
      | some L => s.withPodSet L fun home c s =>
          if c.open_ then s
          else ((s.openSet home L.id .pod 0).modSet home L.id .pod 0 fun c => { c with num := gen, pc := pc }).settleSet home L.id .pod 0
    | _ => s
/-- An arrival of another package reaches the home: its first, which opens the generation, or the combined one. -/
def execPodCombinedArrival (s : State) : Res :=
  withInput s fun i s => match i with
    | .link _ h (.podArrival launch gen combined pc) => match s.podLaunch h launch with
      | none => s
      | some L => s.withPodSet L fun home c s =>
          if !combined then (s.openGen home L .pod 0 pc).settleSet home L.id .pod 0
          else if c.gen ≠ gen || !c.open_ then s
          else (s.modSet home L.id .pod 0 fun c => { c with ranks := h.src :: c.ranks, pc := pc }).settleSet home L.id .pod 0
    | _ => s
/-- A forwarded PHASE.pod count reaches the home; one that no phase expects raises BARUSE there (R252). -/
def execPodPhaseCount (s : State) : Res :=
  withInput s fun i s => match i with
    | .link _ h (.podCount launch dest n pc) => match s.podLaunch h launch with
      | none => s
      | some L => s.withPodSet L fun home c s =>
          let cur := c.counters.getD dest 0
          if cur < n then
            s.raiseFault { die := home, slot := 248, clock := s.clock, form := {}, stop := { cause := Cause.baruse, cls := 2, ctx := L.ctx } }
          else (s.modSet home L.id .pod 0 fun c => { c with counters := c.counters.set dest (cur - n), pc := pc }).settleLaunch L.id
    | _ => s
/-- The release of a generation reaches another package, which releases its own members; groups that wait already ask for the next one. -/
def execPodRelease (s : State) : Res :=
  withInput s fun i s => match i with
    | .link _ h (.podRelease launch gen) => match s.podLaunch h launch with
      | none => s
      | some L =>
        let home := s.podHome L
        let s := s.modSet home L.id .pod 0 fun c =>
          if c.open_ ∧ c.num = gen then { c with gen := c.gen + 1, open_ := false, members := [], arrived := [], sentUp := false } else c
        match s.cset home L.id .pod 0 with
        | some c => if c.open_ || c.next.isEmpty then s else s.askOpen home L c
        | none => s
    | _ => s

end Sys2Proof.Machine
end

