-- ==== Sys2Proof/Machine/Fabric.lean ====
section
/-! DEFINITION. Tiles by name (R88 to R112): the name table, WANT, OFFER, UNWANT, NEVICT and NTWR, the routers' pending tables, the home
stores, and the landing of tiles. -/
namespace Sys2Proof.Machine

/-- Cycles of 1.6 GHz in `n` microseconds (R8). -/
def usCycles (n : Nat) : Nat := 1600 * n

/-! ## Names and their homes -/

/-- A name-table entry (R94). -/
structure NameEntry where
  size64 : Nat
  fmt    : Nat
  ret    : Nat
  life   : Nat
  valid  : Bool
  scope  : Nat
  policy : Nat
  home   : Nat
  /-- none of R94's cases of FMT -/
  ok     : Bool

def NameEntry.of (v : BitVec 128) : NameEntry :=
  let (scope, policy) := (field v 30 29, field v 28 27)
  { size64 := field v 114 104, fmt := field v 103 96, ret := field v 79 64, life := field v 53 32, valid := v.getLsbD 31, scope := scope,
    policy := policy, home := field v 15 0,
    ok := field v 127 115 == 0 && field v 95 80 == 0 && field v 63 54 == 0 && field v 26 16 == 0 && decide (1 ≤ field v 114 104 ∧ field v 114 104 ≤ 1024) &&
      field v 53 32 != 0 && fmtValid (field v 103 96) &&
      (match scope with | 0 => policy == 0 | 1 => decide (policy ≤ 1) | 2 => policy == 0 || policy == 2 | _ => false) }
/-- Bytes of the tile (R94). -/
def NameEntry.bytes (E : NameEntry) : Nat := 64 * E.size64

/-- The 16-bit hash of a name (R95). -/
def nameHash (n : DWord) : Nat := field n 63 48 ^^^ field n 47 32 ^^^ field n 31 16 ^^^ field n 15 0
def State.crownAt (s : State) (d : DieId) (i : Nat) : Router := .crown d (vget (s.die d).crowns (i % 4) 0)

/-- The home of a name for a thread of die `d`, and its rank if that is another package's (R95). -/
def State.homeOfName (s : State) (d : DieId) (L : Option Launch) (name : DWord) (E : NameEntry) : Acc (Router × Option Nat) :=
  let h := nameHash name
  let dies := s.partDies d
  match E.scope with
  | 0 => .ok (s.crownAt d h, none)
  | 1 =>
    if E.policy = 0 then .ok (s.crownAt (dies.getD (h % dies.length) d) (h >>> 3), none)
    else if dies.length ≤ E.home then .fault Cause.part name
    else .ok (s.crownAt (dies.getD E.home d) h, none)
  | _ =>
    let (g, own) := match L with | some L => (L.ranks.length, L.rank) | none => (0, 0)
    let r := if E.policy = 0 then h % g else E.home
    if g = 0 ∨ g ≤ r then .fault Cause.part name else .ok (.package, if r = own then none else some r)

/-! ## Routers -/

/-- The die that a router stands on. -/
def routerDie : Router → Option DieId
  | .leaf d _ | .middle d _ | .crown d _ => some d
  | .package => none
/-- A number for each router. -/
def routerCode : Router → Nat
  | .leaf d n => d.val * 32 + n.val | .middle d n => d.val * 32 + 16 + n.val | .crown d n => d.val * 32 + 24 + n.val | .package => 256
/-- The leaf that a core's quad attaches to (R88). -/
def State.leafOf (s : State) (d : DieId) (core : Nat) : Router :=
  .leaf d ⟨((s.die d).quad core).getD 0 % 16, Nat.mod_lt _ (by decide)⟩
def State.routerLive (s : State) (r : Router) : Bool := !s.harvested.contains r
/-- The live up-port with the most free permits, the lowest on a tie (R90, R91). -/
def State.adaptive (s : State) (r : Router) (rs : List Router) : Option Router :=
  bestOf (fun a b => decide (Config.permits s.seq (routerCode r) (routerCode b) < Config.permits s.seq (routerCode r) (routerCode a)) ||
    (Config.permits s.seq (routerCode r) (routerCode a) == Config.permits s.seq (routerCode r) (routerCode b) && decide ((routerCode a) ≤ (routerCode b)))) (rs.filter s.routerLive)
def middles (d : DieId) : List Router := (List.finRange 8).map (.middle d ·)
def crownsOf (d : DieId) : List Router := (List.finRange 4).map (.crown d ·)
def bridges (d : DieId) : List Router := [.leaf d 13, .leaf d 14]

/-- The next router of a request on its way to its home (R90); a step down passes no router twice (log 16). DESIGN CHOICE: where R90 names no router and
marks no adaptive step, the middle router below the crown of the issuing die and the bridge leaf of either die, the one with the most free permits is taken
(log 16). -/
def State.nextHop (s : State) (p : Packet) (r : Router) : Option Router :=
  let fresh := fun (rs : List Router) => rs.filter (!p.via.contains ·)
  match r, p.src with
  | .leaf _ _, .router (.middle _ _) => some .package
  | .leaf d _, _ => s.adaptive r (middles d)
  | .middle d _, .router (.crown _ _) => s.adaptive r (fresh (bridges d))
  | .middle d _, _ => match p.home with
    | .crown h n => if h = d then some (.crown h n) else s.adaptive r (crownsOf d)
    | _ => s.adaptive r (crownsOf d)
  | .crown d _, _ => s.adaptive r (fresh (middles d))
  | .package, _ => match p.home with
    | .crown h _ => s.adaptive r (bridges h)
    | _ => none

/-- Changes or removes the first element that satisfies `p`. -/
def updFirst {α : Type} (p : α → Bool) (f : α → Option α) : List α → List α
  | [] => []
  | x :: l => if p x then (match f x with | some y => y :: l | none => l) else x :: updFirst p f l

/-- Classes of packets that keep their order on one port: interests, deliveries, offers, evictions. -/
def PacketKind.cls : PacketKind → Nat
  | .interest | .withdrawal => 0
  | .header | .chunk _ | .sizeNotice => 1
  | .offer _ | .offerChunk _ _ | .accept _ => 2
  | .evict => 3
/-- Packet `k` is the oldest of its flow. -/
def State.oldest (s : State) (k : Nat) (p : Packet) : Bool :=
  (s.packets.take k).all fun q => !(q.at_ == p.at_ && q.src == p.src && q.ctx == p.ctx && q.name == p.name && q.kind.cls == p.kind.cls)
def State.takePacket (s : State) (k : Nat) : State := { s with packets := s.packets.eraseIdx k }
def State.post (s : State) (p : Packet) : State := { s with packets := s.packets ++ [p] }
/-- The class of a packet on a device link (R220, log 43). -/
def PacketKind.link : PacketKind → LinkClass
  | .interest => .interest
  | .withdrawal => .withdrawal
  | .header | .chunk _ | .sizeNotice => .delivery
  | .offer _ | .offerChunk _ _ | .accept _ | .evict => .offer

/-- Sends a packet from a router through one of its ports; over a link with a header, and the lifetime that is left (R99, R220). -/
def State.through (s : State) (r : Router) (port : Port) (p : Packet) : State :=
  match port with
  | .link n rank => s.sendOver n p.die p.pc ⟨p.ctx, p.kind.link, rank, p.own⟩ (.tile { p with life := p.life - s.clock - min (Config.linkLatency n) 400 })
  | .store => s
  | port => s.post { p with at_ := port, src := .router r }
/-- The port of a request on its way up: at the package's router of its path a live link to its home rank (R90, R223). -/
def State.upPort (s : State) (p : Packet) (r : Router) : Option Port :=
  if r = p.home then match p.rank with
    | some rank => (s.bestPort (s.routeOf rank)).map (Port.link · rank)
    | none => none
  else (s.nextHop p r).map Port.router
/-- A request whose home rank no live link leads to completes with LINK (R223). -/
def State.unrouted (s : State) (p : Packet) : State := s.linkFault p.die p.ctx p.pc ((((s.routeOf (p.rank.getD 0)).head?).map (·.val)).getD 0)
/-- A packet that link `n` brings: it stands at the package's router, for the partition here, and its remaining lifetime runs from now on. -/
def State.receive (s : State) (n : Nat) (h : Header) (p : Packet) : State :=
  match s.partFor h with
  | none => s
  | some q => s.post { p with at_ := .router .package, src := .link n h.src, ctx := h.ctx, part := q, home := .package, rank := none, own := h.dst,
                              life := s.clock + p.life, die := (s.diesOf q).headD 0, via := [], path := [] }

/-! ## Pending entries -/

def PendEntry.is (e : PendEntry) (r : Router) (c : Ctx) (n : DWord) (st : PendState) : Bool := e.at_ == r && e.ctx == c && e.name == n && e.state == st
def State.pendAt (s : State) (r : Router) (c : Ctx) (n : DWord) (st : PendState) : Option PendEntry := s.pend.find? (·.is r c n st)
def State.modPend (s : State) (r : Router) (c : Ctx) (n : DWord) (st : PendState) (f : PendEntry → Option PendEntry) : State :=
  { s with pend := updFirst (·.is r c n st) f s.pend }
def pendEntries : Nat := 4096

/-- What a header says of a tile: its size and format, where an entry has them. -/
def tileBits (size : Nat) (fmt : Byte) : BitVec 128 := BitVec.ofNat 128 ((size / 64) * 2 ^ 104 + fmt.toNat * 2 ^ 96)

/-- A stored tile is still there for interests (R101). -/
def StoreEntry.serves (t : StoreEntry) (now : Nat) : Bool := t.state == .stored && !t.evict && decide (now < t.expiry)

/-- A chunk of a stored tile is in error: the partition that owns the name halts with ECC (R100, R317). -/
def State.storeEcc (s : State) (r : Router) (t : StoreEntry) : State :=
  let d := match routerDie r with
    | some d => if s.partOf d == t.part then d else (s.diesOf t.part).headD d
    | none => (s.diesOf t.part).headD 0
  s.raiseFault { die := d, slot := 249, clock := s.clock, form := {}, stop := { cause := Cause.ecc, cls := 4, ctx := t.ctx, faddr := t.name } }

/-- A delivery from the home's store to the entry in WAIT, at once: the header and the chunks leave the store, behind those of a delivery of the
name that is still under way; a captured size that differs ends the entry with SIZE notices (R99, R101). Its packets are caused by the OFFER. -/
def State.startDelivery (s : State) (r : Router) (e : PendEntry) (t : StoreEntry) : State :=
  let p : Packet := { kind := .header, at_ := .router r, src := .store, ctx := e.ctx, part := t.part, name := e.name, home := r, rank := none, own := t.own,
                      entry := tileBits t.size t.fmt, life := 0, bytes := [], die := t.die, pc := t.pc, via := [] }
  let all := fun (s : State) (p : Packet) => e.ports.foldl (fun (s : State) port => s.through r port p) s
  if e.size ≠ t.size then all (s.modPend r e.ctx e.name .wait fun _ => none) { p with kind := .sizeNotice }
  else if !t.bad.isEmpty then s.storeEcc r t
  else
    let s := (s.modPend r e.ctx e.name .wait fun e => some { e with state := .deliv }).post p
    (List.range (chunks t.size)).foldl (fun (s : State) c => s.post { p with kind := .chunk c, bytes := (t.bytes.drop (512 * c)).take 512 }) s

/-- An interest at a router (R99): merged, refreshed or entered; it waits while no entry is free or no port is live. -/
def State.interestAt (s : State) (k : Nat) (r : Router) (p : Packet) : State :=
  let s1 := s.takePacket k
  match s.pendAt r p.ctx p.name .wait with
  | some e =>
    let later := fun (e : PendEntry) => { e with deadline := max e.deadline p.life }
    if e.ports.contains p.src then
      let s1 := s1.modPend r p.ctx p.name .wait fun e => some (later e)
      match e.up with
      | some up => s1.through r up p
      | none => s1
    else s1.modPend r p.ctx p.name .wait fun e => some { later e with ports := e.ports ++ [p.src] }
  | none =>
    if pendEntries ≤ s.pend.countP (·.at_ == r) then s
    else
      let entry : PendEntry := { at_ := r, ctx := p.ctx, part := p.part, name := p.name, ports := [p.src], up := none, deadline := p.life,
                                 size := (NameEntry.of p.entry).bytes, state := .wait }
      let enter := fun (s : State) (up : Option Port) => ({ s with pend := s.pend ++ [{ entry with up := up }] } : State)
      if r = p.home then match p.rank with
        | none =>
          let s1 := enter s1 none
          match s1.pendAt r p.ctx p.name .wait, s1.stores.find? fun (t : StoreEntry) => t.at_ == r && t.ctx == p.ctx && t.name == p.name with
          | some e, some t => if t.serves s.clock then s1.startDelivery r e t else s1
          | _, _ => s1
        | some _ => match s.upPort p r with
          | none => s1.unrouted p
          | some port => (enter s1 (some port)).through r port p
      else match s.upPort p r with
        | none => s
        | some port => (enter s1 (some port)).through r port { p with via := p.via ++ [r] }

/-- A withdrawal at a router (R99). -/
def State.withdrawalAt (s : State) (k : Nat) (r : Router) (p : Packet) : State :=
  let s1 := s.takePacket k
  match s.pendAt r p.ctx p.name .wait with
  | none => s1
  | some e =>
    let ports := e.ports.filter (· != p.src)
    if !ports.isEmpty then s1.modPend r p.ctx p.name .wait fun e => some { e with ports := ports }
    else
      let s1 := s1.modPend r p.ctx p.name .wait fun _ => none
      match e.up with
      | some up => s1.through r up p
      | none => s1

/-- Routers of two events: an event of packet `k`, if it is the oldest of its flow. -/
def withPacket (s : State) (k : Nat) (f : Packet → State) : Res :=
  match s.packets[k]? with
  | some p => .next (if s.oldest k p then f p else s)
  | none => .next s

def execInterestArrival (k : Nat) (s : State) : Res :=
  withPacket s k fun p => match p.kind, p.at_ with
    | .interest, .router r => s.interestAt k r p
    | _, _ => s
def execWithdrawalArrival (k : Nat) (s : State) : Res :=
  withPacket s k fun p => match p.kind, p.at_ with
    | .withdrawal, .router r => s.withdrawalAt k r p
    | _, _ => s
def execPendingDeadline (k : Nat) (s : State) : Res :=
  match s.pend[k]? with
  | some e => .next (if e.state == .wait && decide (e.deadline < s.clock) then { s with pend := s.pend.eraseIdx k } else s)
  | none => .next s

/-! ## At the core -/

/-- A fault that names the thread of a queued WANT or OFFER (R102, R103, R319). -/
def State.fabricFault (s : State) (d : DieId) (core gid : Nat) (pc : DWord) (hood : Bool) (xs : List Nat) (c : Cause) (fa : DWord) : State :=
  let w : Who := { d := d, gid := gid, core := core, hood := if hood then xs.head? else none, all := xs, xs := xs, pc := pc, chainPc := pc, hints := [],
                   prog := 0 }
  let f := s.faultRec w { cause := c, faddr := fa, xs := xs }
  if gid = 0 then s.raiseSv d f else s.raiseFault f
def State.interestFault (s : State) (d : DieId) (i : Interest) (c : Cause) (fa : DWord) : State :=
  s.fabricFault d i.core i.gid i.pc i.hood i.xs c fa

/-- The table entries of a core that a packet concerns. -/
def State.interestOf (s : State) (d : DieId) (core : Nat) (p : Packet) (i : Interest) : Bool :=
  i.core == core && i.name == p.name && s.ctxOf d i.gid == p.ctx
def State.modInterests (s : State) (d : DieId) (p : Interest → Bool) (f : Interest → Option Interest) : State :=
  s.modBank d fun B => { B with interests := B.interests.filterMap fun i => if p i then f i else some i }

/-- Ends pending entries of a core with SIZE (R99). -/
def State.sizeEnds (s : State) (d : DieId) (p : Interest → Bool) : State :=
  let is := (s.die d).active.interests.filter p
  is.foldl (fun (s : State) i => s.interestFault d i Cause.size i.name) (s.modInterests d p fun _ => none)

/-- A header or a SIZE notice at a core. -/
def State.headerAtCore (s : State) (d : DieId) (core : Nat) (p : Packet) : State :=
  let mine := fun (i : Interest) => s.interestOf d core p i && i.state == .pending
  let fits := fun (i : Interest) => p.kind == .header && (NameEntry.of i.entry).bytes == (NameEntry.of p.entry).bytes
  let s := s.sizeEnds d fun i => mine i && !fits i
  s.modInterests d mine fun i => some { i with state := .landing }

/-- A tile header, or a SIZE notice, comes from above, at the home from its store (R99); a second delivery of a name waits for the first to pass. -/
def State.headerAt (s : State) (k : Nat) (r : Router) (p : Packet) : State :=
  let s1 := s.takePacket k
  let from_ := fun (e : PendEntry) => e.is r p.ctx p.name .wait && e.up == some p.src
  let all := fun (e : PendEntry) (s : State) (p : Packet) => e.ports.foldl (fun (s : State) port => s.through r port p) s
  match s.pend.find? from_ with
  | none => match s.pend.find? fun e => e.is r p.ctx p.name .deliv && e.up.isNone && p.src == .store with
    | some e => all e s1 p
    | none => s1
  | some e =>
    if p.kind == .header && e.size == (NameEntry.of p.entry).bytes then
      if (s.pendAt r p.ctx p.name .deliv).isSome then s
      else all e { s1 with pend := updFirst from_ (fun e => some { e with state := .deliv }) s1.pend } p
    else all e { s1 with pend := updFirst from_ (fun _ => none) s1.pend } { p with kind := .sizeNotice }

def execTileHeaderArrival (k : Nat) (s : State) : Res :=
  withPacket s k fun p => match p.kind, p.at_ with
    | .header, .router r | .sizeNotice, .router r => s.headerAt k r p
    | .header, .core d n | .sizeNotice, .core d n => (s.takePacket k).headerAtCore d n p
    | _, _ => s

/-- One chunk lands for one entry (R103): its bytes, its bit, its credit. -/
def State.landChunk (s : State) (d : DieId) (i : Interest) (c : Nat) (bytes : List Byte) : State :=
  let B := BufRec.of i.buf
  let a := B.base + 512 * c
  if s.touchesLive d i.gid B.space a bytes.length then s.interestFault d i Cause.baruse (localCaddr B.space a)
  else
    let s := s.writeLocal d i.gid 0 B.space a bytes
    let s := if B.bound = 0 then s else match s.slotAddr d i.gid B.bound 16 with
      | .fault _ _ => s
      | .ok sl => match s.bslot d i.gid sl with
        | some b =>
          let at_ := b.bitmapAt sl + c / 8
          if b.bm then s.writeLocal d i.gid 0 sl.space at_
            ((s.readLocal d i.gid 0 sl.space at_ 1).map fun x => x ||| ((1 : Byte) <<< (c % 8))) else s
        | none => s
    let slot := match i.slot, s.slotAddr d i.gid B.bound 16 with
      | none, .ok sl => (s.ring d i.gid sl).map fun r => 512 * c / r.size
      | o, _ => o
    match s.credit d i.gid B.bound slot bytes.length with
    | .ok s => s
    | .fault cause fa => s.interestFault d i cause fa

/-- CHUNK_LANDING: a chunk moves one router down, or lands at every entry of the core that awaits it; with the last one the entry frees. -/
def execChunkLanding (k : Nat) (s : State) : Res :=
  withPacket s k fun p => match p.kind, p.at_ with
    | .chunk c, .router r =>
      let s1 := s.takePacket k
      let from_ := fun (e : PendEntry) => e.is r p.ctx p.name .deliv && (e.up == some p.src || (e.up.isNone && p.src == .store))
      match s.pend.find? from_ with
      | none => s1
      | some e =>
        let s1 := e.ports.foldl (fun (s : State) port => s.through r port p) s1
        if c + 1 = chunks e.size then { s1 with pend := updFirst from_ (fun _ => none) s1.pend } else s1
    | .chunk c, .core d n =>
      let s1 := s.takePacket k
      let mine := fun (i : Interest) => s.interestOf d n p i && i.state == .landing
      let s1 := ((s.die d).active.interests.filter mine).foldl (fun (s : State) i => s.landChunk d i c p.bytes) s1
      let last := c + 1 = chunks (NameEntry.of p.entry).bytes
      let s1 := if last then s1.inSkid d fun D => { D with skidDelivs := D.skidDelivs + 1 } else s1
      s1.modInterests d mine fun i => if last then none else some i
    | _, _ => s

/-- INTEREST_LIFETIME_EXPIRY: NEVER, after the lifetime and its grace (R102); lifetimes run while the context runs (R104). -/
def execInterestLifetimeExpiry (d : DieId) (k : Nat) (s : State) : Res :=
  match (s.die d).active.interests[k]? with
  | none => .next s
  | some i =>
    let grace := if (NameEntry.of i.entry).scope = 2 then usCycles 20 else usCycles 2
    if i.state == .pending && s.running d && decide (i.life + grace ≤ s.clock) then
      let s := s.modBank d fun B => { B with interests := B.interests.eraseIdx k }
      .next (s.interestFault d i Cause.never i.name)
    else .next s

/-! ## Home stores -/

def packageChunks : Nat := 32768
/-- Room in the store of a router for a tile (R100). -/
def State.roomFor (s : State) (r : Router) (size : Nat) : Bool :=
  match r with
  | .crown d n => decide (s.crownUsed d n + chunks size ≤ crownChunks)
  | _ => decide ((s.stores.filter (·.at_ == r)).foldl (fun n e => n + chunks e.size) 0 + chunks size ≤ packageChunks)
def StoreEntry.is (t : StoreEntry) (r : Router) (c : Ctx) (n : DWord) : Bool := t.at_ == r && t.ctx == c && t.name == n
def State.modStore (s : State) (r : Router) (c : Ctx) (n : DWord) (f : StoreEntry → Option StoreEntry) : State :=
  { s with stores := updFirst (·.is r c n) f s.stores }
/-- Deliveries from the store of a name that have not sent their last chunk. -/
def State.sending (s : State) (t : StoreEntry) : Bool :=
  s.packets.any fun p => p.at_ == .router t.at_ && p.src == .store && p.ctx == t.ctx && p.name == t.name
/-- Frees the chunks of a tile whose retention has ended, unless a delivery still sends them (R101). -/
def State.freeTile (s : State) (t : StoreEntry) : State :=
  if t.state == .stored && !s.sending t then s.modStore t.at_ t.ctx t.name fun _ => none
  else s.modStore t.at_ t.ctx t.name fun t => some { t with evict := true }
/-- NEVICT at the home (R101, R110). -/
def State.evictAt (s : State) (r : Router) (c : Ctx) (n : DWord) : State :=
  match s.stores.find? (·.is r c n) with
  | some t => s.freeTile t
  | none => s

def State.modOffer (s : State) (d : DieId) (id : Nat) (f : Offer → Offer) : State :=
  s.modBank d fun B => { B with offers := B.offers.map fun o => if o.id = id then f o else o }
/-- The producer may read its tile out: the home has room for it, or discards it. -/
def State.openOffer (s : State) (c : Ctx) (id : Nat) : State :=
  allDies.foldl (fun (s : State) d => s.modOffer d id fun o => if s.ctxOf d o.gid = c then { o with open_ := true } else o) s
def State.acceptOffer (s : State) (id : Nat) (p : Packet) : State :=
  match p.src with
  | .link n rank => s.through .package (.link n rank) { p with kind := .accept id }
  | _ => s.openOffer p.ctx id
/-- The rank that a packet comes from, if another package's. -/
def Packet.origin (p : Packet) : Option Nat :=
  match p.src with
  | .link _ rank => some rank
  | _ => none

/-- An offer's header at a router below its home: it goes on, and the OFFER notes its port, which its chunks will take (R89, R90). -/
def State.offerUp (s s1 : State) (p : Packet) (id : Nat) (r : Router) : State :=
  match s.upPort p r with
  | some port => (s1.modOffer p.die id fun o => { o with path := o.path ++ [port] }).through r port { p with via := p.via ++ [r] }
  | none => if r = p.home then s1.unrouted p else s
/-- At the home the header allocates the tile's chunks, or waits for room; another offer of the name is taken and discarded (R101). -/
def State.offerAt (s s1 : State) (p : Packet) (id : Nat) (r : Router) : State :=
  let E := NameEntry.of p.entry
  match s.stores.find? (·.is r p.ctx p.name) with
  | some t =>
    if t.state == .filling && t.offer == id && t.origin == p.origin then
      (s1.modStore r p.ctx p.name fun t => some { t with bytes := [] }).acceptOffer id p
    else if t.state == .filling || t.serves s.clock then s1.acceptOffer id p
    else s
  | none =>
    if s.roomFor r E.bytes then
      let t : StoreEntry := { at_ := r, ctx := p.ctx, part := p.part, name := p.name, size := E.bytes, fmt := BitVec.ofNat 8 E.fmt, ret := E.ret,
                              bytes := [], state := .filling, expiry := 0, evict := false, offer := id, origin := p.origin, own := p.own, die := p.die,
                              pc := p.pc }
      { s1 with stores := s1.stores ++ [t] }.acceptOffer id p
    else s

/-- OFFER_HEADER_ARRIVAL: a header moves one router on, or reaches its home; or a home on another package accepts an offer. -/
def execOfferHeaderArrival (k : Nat) (s : State) : Res :=
  withPacket s k fun p => match p.kind, p.at_ with
    | .accept id, _ => (s.takePacket k).openOffer p.ctx id
    | .offer id, .router r => if r = p.home ∧ p.rank.isNone then s.offerAt (s.takePacket k) p id r else s.offerUp (s.takePacket k) p id r
    | _, _ => s

/-- Stores one chunk; with the last one the tile is STORED and goes to the pending entry (R101). -/
def State.storeChunk (s : State) (r : Router) (p : Packet) (id c : Nat) : State :=
  match s.stores.find? (·.is r p.ctx p.name) with
  | none => s
  | some t =>
    if t.state != .filling || t.offer != id || t.origin != p.origin || t.bytes.length != 512 * c then s
    else
      let t := { t with bytes := t.bytes ++ p.bytes, bad := t.bad.filter (· != c) }
      if t.bytes.length < t.size then s.modStore r p.ctx p.name fun _ => some t
      else
        let t := { t with state := .stored, expiry := s.clock + usCycles t.ret }
        let s := s.modStore r p.ctx p.name fun _ => some t
        match s.pendAt r p.ctx p.name .wait with
        | some e => s.startDelivery r e t
        | none => s
/-- A chunk of an offer at a router: on along the path of its header, or, where that ends, into the home's store. -/
def State.offerChunkAt (s : State) (r : Router) (p : Packet) (id c : Nat) : State :=
  match p.path with
  | port :: rest => s.through r port { p with path := rest }
  | [] => s.storeChunk r p id c

/-- The header of an offer as it leaves the core (R90). -/
def State.offerPacket (s : State) (d : DieId) (o : Offer) : Packet :=
  { kind := .offer o.id, at_ := .router (s.leafOf d o.core), src := .core d o.core, ctx := s.ctxOf d o.gid, part := s.partOf d, name := o.name,
    home := o.home, rank := o.rank, own := o.own, entry := o.entry, life := 0, bytes := [], die := d, pc := o.pc, via := [] }
/-- Reads out the next chunk of an OFFER (R105, R108): it goes to the home; after the last one the bound object is credited. -/
def State.readOut (s : State) (d : DieId) (o : Offer) : State :=
  let B := BufRec.of o.buf
  let E := NameEntry.of o.entry
  let at_ := B.base + 512 * o.next
  let n := min 512 (E.bytes - 512 * o.next)
  if s.badLocalAt d o.gid 0 B.space at_ n then s.fabricFault d o.core o.gid o.pc o.hood o.xs Cause.ecc (localCaddr B.space at_)
  else if s.touchesLive d o.gid B.space at_ n then s.fabricFault d o.core o.gid o.pc o.hood o.xs Cause.baruse (localCaddr B.space at_)
  else
    let s := s.post { s.offerPacket d o with kind := .offerChunk o.id o.next, bytes := s.readLocal d o.gid 0 B.space at_ n, path := o.path }
    if 512 * (o.next + 1) < E.bytes then s.modOffer d o.id fun q => { q with next := o.next + 1 }
    else
      let s := s.modBank d fun B => { B with offers := B.offers.filter (·.id != o.id) }
      let slot := match o.slot, s.slotAddr d o.gid B.bound 16 with
        | none, .ok sl => (s.ring d o.gid sl).map fun _ => 0
        | i, _ => i
      match s.credit d o.gid B.bound slot E.bytes with
      | .ok s => s
      | .fault c fa => s.fabricFault d o.core o.gid o.pc o.hood o.xs c fa

/-- OFFER_CHUNK_ARRIVAL: packet `k`, or beyond the packets an offer of this package whose home accepts its chunks. -/
def execOfferChunkArrival (k : Nat) (s : State) : Res :=
  if k < s.packets.length then
    withPacket s k fun p => match p.kind, p.at_ with
      | .offerChunk id c, .router r => (s.takePacket k).offerChunkAt r p id c
      | _, _ => s
  else
    match (allDies.flatMap fun d => (s.die d).active.offers.map fun o => (d, o))[k - s.packets.length]? with
    | some (d, o) => .next (if o.open_ && (s.running d || o.gid == 0) then s.readOut d o else s)
    | none => .next s

/-- RETENTION_EXPIRY: a stored tile whose retention ends, or an eviction from another package (packets first). -/
def execRetentionExpiry (k : Nat) (s : State) : Res :=
  if k < s.packets.length then
    withPacket s k fun p => match p.kind, p.at_ with
      | .evict, .router r => (s.takePacket k).evictAt r p.ctx p.name
      | _, _ => s
  else match s.stores[k - s.packets.length]? with
    | some t => .next (if t.state == .stored && (t.evict || decide (t.expiry ≤ s.clock)) then s.freeTile t else s)
    | none => .next s

/-! ## The words -/

/-- A fault of a named-tile word names the lowest participating index (R106). -/
def nfault (w : Who) (c : Cause) (fa : DWord) : Eff := .trap { cause := c, faddr := fa, xs := w.xs.take 1 }

/-- Captures the name-table entry of the name in a register pair (R96): NAMEMISS, FMT. -/
def withName (k : KReg) (w : Who) (s : State) (f : DWord → BitVec 128 → NameEntry → State → Eff) : Eff :=
  let name := s.kpair w k.toNat
  let va := (s.die w.d).active.ntbase + BitVec.ofNat 64 (16 * field name 63 44)
  if s.vaStalled w.d w.core (w.gid = 0) va 16 then .hold s .held
  else match s.capture w va 16 with
    | .fault c fa => nfault w c fa
    | .ok (bs, s) =>
      let raw := BitVec.ofNat 128 (ofBytes bs)
      let E := NameEntry.of raw
      if !E.valid then nfault w Cause.namemiss name
      else if !E.ok then nfault w Cause.fmt va
      else f name raw E s

/-- The checks of WANT and OFFER on their buffer (R107, R118), then the home. -/
def withTile (n : Buf) (k : KReg) (w : Who) (s : State) (f : Group → DWord → BitVec 128 → NameEntry → Router × Option Nat → State → Eff) : Eff :=
  match s.group w.d w.gid with
  | none => .done s
  | some G => withName k w s fun name raw E s =>
    let B := s.buf w n
    if B.bad then nfault w Cause.fmt 0
    else if B.space = spSpill then nfault w Cause.bounds 0
    else if B.fmt ≠ E.fmt then nfault w Cause.fmt 0
    else if B.extent < E.bytes then nfault w Cause.size 0
    else if !s.inSpace w.d w.gid B.space B.base E.bytes then nfault w Cause.bounds (BitVec.ofNat 64 B.base)
    else match s.homeOfName w.d (s.launchOf w.d G) name E with
      | .fault c fa => nfault w c fa
      | .ok h => f G name raw E h s

/-- Sends an interest of a core toward its home (R90). -/
def State.sendInterest (s : State) (d : DieId) (i : Interest) : State :=
  s.post { kind := .interest, at_ := .router (s.leafOf d i.core), src := .core d i.core, ctx := s.ctxOf d i.gid, part := s.partOf d, name := i.name,
           home := i.home, rank := i.rank, own := i.own, entry := i.entry, life := i.life, bytes := [], die := d, pc := i.pc, via := [] }
/-- Sends the header of an offer toward its home (R90). -/
def State.sendOffer (s : State) (d : DieId) (o : Offer) : State := (s.modOffer d o.id fun o => { o with path := [] }).post (s.offerPacket d o)
/-- The rank of this package in the launch of a thread's group; 0 without a table. -/
def State.ownRank (s : State) (d : DieId) (G : Group) : Nat := ((s.launchOf d G).map (·.rank)).getD 0

def interestSlots : Nat := 64

/-- WANT finds its own entry: the name in the thread's context, the same bound object and the same buffer, of which those in group shared memory
are each group's own (R92, R97). -/
def State.refreshes (s : State) (w : Who) (name : DWord) (B : BufRec) (i : Interest) : Bool :=
  let A := BufRec.of i.buf
  i.core == w.core && i.name == name && s.ctxOf w.d i.gid == s.ctxOf w.d w.gid && A.bound == B.bound && A.space == B.space && A.base == B.base &&
    (i.gid == w.gid || (B.space == spScratch && (B.bound == 0 || B.bound.getLsbD 31)))

/-- WANT (R97, R107): it refreshes the entry of the same slot and buffer, or adds one, and sends the interest. -/
def wantBody (n : Buf) (k : KReg) (w : Who) (s : State) : Eff :=
  withTile n k w s fun G name raw E h s =>
    let B := s.buf w n
    let life := s.clock + usCycles (match lifeOf w.hints with | some v => v.toNat | none => E.life)
    let same := s.refreshes w name B
    let is := (s.die w.d).active.interests
    match is.find? same with
    | some i =>
      let later := fun (i : Interest) => { i with life := max i.life life }
      .ok ((s.modInterests w.d same fun i => some (later i)).sendInterest w.d (later i)) none
    | none =>
      if interestSlots ≤ is.countP (·.core == w.core) then .hold s .held
      else
        let i : Interest :=
          { core := w.core, name := name, buf := s.bufBits w n, entry := raw, life := life, slot := G.reserved (w.xs.headD 0) B.bound, home := h.1, rank := h.2,
            own := s.ownRank w.d G, gid := w.gid, xs := w.xs, pc := w.pc, hood := w.hood.isSome, state := .pending }
        .ok (((s.modBank w.d fun B => { B with interests := B.interests ++ [i] }).sendInterest w.d i).useRecord w.d w.gid B) none

/-- OFFER (R108, R112): a release of the thread's local writes; its bytes are read out as the home accepts them. -/
def offerBody (n : Buf) (k : KReg) (w : Who) (s : State) : Eff :=
  withTile n k w s fun G name raw _ h s =>
    let B := s.buf w n
    if !(s.tileWrites w.d w.gid w.xs).isEmpty || s.lateClash w.d w.gid B.bound false s.nextId ⟨false, some B.space, B.base, B.base + B.extent⟩ then .hold s .held
    else
      let o : Offer :=
        { id := s.nextId, core := w.core, gid := w.gid, xs := w.xs, pc := w.pc, name := name, buf := s.bufBits w n, entry := raw, next := 0, open_ := false,
          slot := G.reserved (w.xs.headD 0) (s.buf w n).bound, home := h.1, rank := h.2, own := s.ownRank w.d G, hood := w.hood.isSome }
      let s := { s.modBank w.d (fun B => { B with offers := B.offers ++ [o] }) with nextId := s.nextId + 1 }
      .ok ((s.sendOffer w.d o).useRecord w.d w.gid (s.buf w n)) none

/-- The size of a delivery of the name whose header has passed the core's leaf and not reached the core (R104, R109). A header that has reached the
core has made every entry it serves LANDING, and serves no entry made since. -/
def State.pastLeaf (s : State) (d : DieId) (core : Nat) (c : Ctx) (name : DWord) : Option Nat :=
  (s.packets.find? fun p => p.at_ == .core d core && p.ctx == c && p.name == name && p.kind == .header).map fun p => (NameEntry.of p.entry).bytes

/-- UNWANT (R109): an entry whose delivery is past the leaf will land and can raise NEVER no more; every other one is freed; a withdrawal goes
up to where the name still waits. -/
def unwantBody (k : KReg) (w : Who) (s : State) : Eff :=
  let name := s.kpair w k.toNat
  let c := s.ctxOf w.d w.gid
  let mine := fun (i : Interest) => i.core == w.core && i.name == name && s.ctxOf w.d i.gid == c && i.state == .pending
  match (s.die w.d).active.interests.find? mine with
  | none => .ok s none
  | some i =>
    let past := s.pastLeaf w.d w.core c name
    let s := s.modInterests w.d mine fun i => if past = some (NameEntry.of i.entry).bytes then some { i with state := .landing } else none
    .ok (s.post { kind := .withdrawal, at_ := .router (s.leafOf w.d w.core), src := .core w.d w.core, ctx := c, part := s.partOf w.d, name := name,
                  home := i.home, rank := i.rank, own := i.own, entry := i.entry, life := 0, bytes := [], die := w.d, pc := w.pc, via := [] }) none

/-- NEVICT (R110). -/
def nevictBody (k : KReg) (w : Who) (s : State) : Eff :=
  match s.group w.d w.gid with
  | none => .done s
  | some G => withName k w s fun name raw E s =>
    match s.homeOfName w.d (s.launchOf w.d G) name E with
    | .fault c fa => nfault w c fa
    | .ok (r, none) => .ok (s.evictAt r (s.ctxOf w.d w.gid) name) none
    | .ok (r, some rank) =>
      let p : Packet := { kind := .evict, at_ := .router r, src := .core w.d w.core, ctx := s.ctxOf w.d w.gid, part := s.partOf w.d, name := name, home := r,
                          rank := some rank, own := s.ownRank w.d G, entry := raw, life := 0, bytes := [], die := w.d, pc := w.pc, via := [] }
      .ok (s.transmit w.d w.pc ⟨p.ctx, p.kind.link, rank, p.own⟩ (.tile p)) none

/-- NTWR (R111): a write through the sync engine of the entry's home die. -/
def ntwrBody (k b : KReg) (w : Who) (s : State) : Eff :=
  let i := s.k w k.toNat
  let va := (s.die w.d).active.ntbase + BitVec.ofNat 64 (16 * i.toNat)
  if i.toNat > 1048575 then nfault w Cause.fmt 0
  else if s.walkStalled w.d w.core (w.gid = 0) va then .hold s .held
  else match s.translate w.d w.core (w.gid = 0) va .write with
    | .fault c fa => nfault w c fa
    | .ok da =>
      if poolOf da = 1 then nfault w Cause.prot va
      else
        let v : BitVec 128 := s.k w (b.toNat + 3) ++ s.k w (b.toNat + 2) ++ s.k w (b.toNat + 1) ++ s.k w b.toNat
        .ok ((s.fillTlb w.d w.core (w.gid = 0) va).send
          { id := 0, home := s.homeOf da, op := .put, part := s.partOf w.d, ctx := s.ctxOf w.d w.gid, die := w.d, core := w.core, gid := w.gid, xs := w.xs,
            hood := w.hood.isSome, pc := w.pc, addr := da, va := va, width := 16, arg := v.setWidth 256, cmp := 0, dst := 0, dstk := 0, acq := false,
            reply := none, flag := 0, wb := false }) none

def execWant (n : Buf) (k : KReg) : State → Res := waveWord (.want n k) (wantBody n k)
def execOffer (n : Buf) (k : KReg) : State → Res := waveWord (.offer n k) (offerBody n k)
def execUnwant (k : KReg) : State → Res := waveWord (.unwant k) (unwantBody k)
def execNevict (k : KReg) : State → Res := waveWord (.nevict k) (nevictBody k)
def execNtwr (k b : KReg) : State → Res := waveWord (.ntwr k b) (ntwrBody k b)

/-! ## Halts and resumption (R104, R105) -/

/-- Every delivery past a leaf of the partition has landed. -/
def State.deliveriesDone (s : State) (p : PartId) : Bool :=
  (s.pend.all fun e => match e.at_ with | .leaf d _ => !(s.partOf d == p && e.state == .deliv && e.ports.any fun q => match q with | .core _ _ => true | _ => false)
                                        | _ => true) &&
  (s.packets.all fun q => match q.at_ with | .core d _ => s.partOf d != p | _ => true)

/-- A port that leads to a requester of this package. -/
def Port.inside : Port → Bool
  | .link _ _ => false
  | _ => true

/-- The halt drops the partition's other pending entries and requests on their way, and its unfinished offers; the interest tables keep the
lifetimes left. -/
def State.dropFabric (s : State) (p : PartId) : State :=
  let rose := (s.part p).rose
  let ids := (s.diesOf p).flatMap fun d => (s.die d).active.offers.map (·.id)
  let pend := s.pend.filterMap fun (e : PendEntry) => if e.part != p then some e else
    let ports := e.ports.filter (!Port.inside ·)
    if ports.isEmpty then none else some { e with ports := ports }
  let packets := s.packets.filter fun (q : Packet) => !(q.part == p && q.src.inside && (match q.kind with
    | .interest | .withdrawal => true
    | .offer id | .offerChunk id _ => ids.contains id
    | _ => false))
  let stores := s.stores.filter fun (t : StoreEntry) => !(t.state == .filling && ids.contains t.offer && t.origin.isNone)
  let asleep := fun (i : Interest) => { i with life := i.life - rose, state := .pending }
  let again := fun (o : Offer) => { o with next := 0, open_ := false }
  (s.diesOf p).foldl (fun (s : State) d => s.modBank d fun B => { B with interests := B.interests.map asleep, offers := B.offers.map again })
    { s with pend := pend, packets := packets, stores := stores }

/-- When the context runs again, each pending interest is sent as a refresh with its remaining lifetime, and each offer from its start. -/
def State.refreshFabric (s : State) (d : DieId) : State :=
  let awake := fun (i : Interest) => { i with life := s.clock + i.life }
  let s := s.modBank d fun B => { B with interests := B.interests.map awake }
  let B := (s.die d).active
  let s := B.interests.foldl (fun (s : State) i => s.sendInterest d i) s
  B.offers.foldl (fun (s : State) o => s.sendOffer d o) s

end Sys2Proof.Machine
end

