-- ==== Sys2Proof/Machine/Crypto.lean ====
section
/-! DEFINITION. SHAKE256 (FIPS 202), and Ed448 and Ed448ph (RFC 8032), which R339, R344, R361 and R364 name. -/
namespace Sys2Proof.Machine

/-! ## SHAKE256 -/

/-- The sponge's state: five planes (y) of five lanes (x). -/
abbrev Sponge := List (List DWord)
/-- The positions (x, y) that the walk of rho visits, from (1, 0). -/
def rhoWalk : (steps x y : Nat) → List (Nat × Nat)
  | 0, _, _ => []
  | n + 1, x, y => (x, y) :: rhoWalk n y ((2 * x + 3 * y) % 5)
/-- How far rho turns the lane (x, y): the position visited at step t turns by the triangular number of t + 1. -/
def rhoTurn (x y : Nat) : Nat :=
  match (rhoWalk 24 1 0).idxOf? (x, y) with
  | some t => (t + 1) * (t + 2) / 2 % 64
  | none => 0
def rhoTurns : List (List Nat) := (List.range 5).map fun y => (List.range 5).map fun x => rhoTurn x y
/-- The shift register of iota, after `n` steps: x^8 + x^6 + x^5 + x^4 + 1. -/
def iotaShift : (n : Nat) → BitVec 9
  | 0 => 1
  | n + 1 =>
    let r := iotaShift n <<< 1
    if r.getLsbD 8 then r ^^^ 0x171 else r
/-- Iota's constant of a round: bit 2^j − 1 is the register's low bit after j + 7 · round steps. -/
def iotaConst (round : Nat) : DWord :=
  (List.range 7).foldl (fun c j => if (iotaShift (j + 7 * round)).getLsbD 0 then c ||| 1 <<< (2 ^ j - 1) else c) 0
def iotaConsts : List DWord := (List.range 24).map iotaConst

/-- Adds to each lane the parities of the two columns beside it. -/
def Sponge.theta (s : Sponge) : Sponge :=
  let col := s.foldl (List.zipWith (· ^^^ ·)) (List.replicate 5 0)
  let d := List.zipWith (fun l r => l ^^^ r.rotateLeft 1) (col.rotateLeft 4) (col.rotateLeft 1)
  s.map (List.zipWith (· ^^^ ·) d)
def Sponge.rho (s : Sponge) : Sponge := List.zipWith (List.zipWith BitVec.rotateLeft) s rhoTurns
/-- The lane (x, y) is taken from plane x, lane x + 3y. -/
def Sponge.pi (s : Sponge) : Sponge :=
  (List.range 5).map fun y => (List.zipIdx s).map fun (p, x) => p.getD ((x + 3 * y) % 5) 0
def Sponge.chi (s : Sponge) : Sponge :=
  s.map fun p => List.zipWith (· ^^^ ·) p (List.zipWith (fun b c => ~~~ b &&& c) (p.rotateLeft 1) (p.rotateLeft 2))
/-- Adds 64-bit words to the lanes, plane by plane; lanes past the words stay. -/
def Sponge.mix (s : Sponge) (ws : List DWord) : Sponge :=
  (List.zipIdx s).map fun (p, y) => (List.zipIdx p).map fun (l, x) => l ^^^ ws.getD (5 * y + x) 0
/-- The permutation: 24 rounds. -/
def Sponge.permute (s : Sponge) : Sponge := iotaConsts.foldl (fun s c => s.theta.rho.pi.chi.mix [c]) s

/-- Bytes of a block of SHAKE256. -/
def shakeRate : Nat := 136
/-- The 64-bit words of a block. -/
def rateWords (block : List Byte) : List DWord :=
  (List.range 17).map fun i => BitVec.ofNat 64 (ofBytes ((block.drop (8 * i)).take 8))
/-- Takes the padded message in, block by block: 1F after the message, zeros, and 80 added to the last byte of a block. -/
def Sponge.takeIn (s : Sponge) (m : List Byte) : (blocks : Nat) → Sponge
  | 0 =>
    let last := m ++ [0x1F] ++ List.replicate (shakeRate - 1 - m.length) 0
    ((s.mix (rateWords last)).mix (List.replicate 16 0 ++ [0x8000000000000000])).permute
  | n + 1 => ((s.mix (rateWords (m.take shakeRate))).permute).takeIn (m.drop shakeRate) n
def Sponge.giveOut (s : Sponge) : (blocks : Nat) → List Byte
  | 0 => []
  | n + 1 => ((s.flatten.take 17).flatMap fun l => bytesOf 8 l.toNat) ++ s.permute.giveOut n
/-- SHAKE256 of `m` with an output of `n` bytes. -/
def shake256 (m : List Byte) (n : Nat) : List Byte :=
  let zero : Sponge := List.replicate 5 (List.replicate 5 0)
  ((zero.takeIn m (m.length / shakeRate)).giveOut (n / shakeRate + 1)).take n

/-! ## The curve edwards448 -/

/-- The field's modulus, the group's order and the curve's constant −d (RFC 8032, 5.2). -/
def ed448P : Nat := 2 ^ 448 - 2 ^ 224 - 1
def ed448L : Nat := 2 ^ 446 - 13818066809895115352007386748515426880336692474882178609894547503885
def ed448NegD : Nat := 39081

def fAdd (a b : Nat) : Nat := (a + b) % ed448P
def fSub (a b : Nat) : Nat := (a + (ed448P - b % ed448P)) % ed448P
def fMul (a b : Nat) : Nat := a * b % ed448P
/-- The power of `a` by the low `n` bits of `e`. -/
def fPow (a e : Nat) : (n : Nat) → Nat
  | 0 => 1
  | n + 1 =>
    let h := fPow a (e / 2) n
    let q := fMul h h
    if e % 2 = 1 then fMul q a else q
def fInv (a : Nat) : Nat := fPow a (ed448P - 2) 448

/-- A point in projective coordinates. -/
structure EdPoint where
  x : Nat
  y : Nat
  z : Nat
  deriving DecidableEq, Repr

def edZero : EdPoint := ⟨0, 1, 1⟩
def edBase : EdPoint where
  x := 224580040295924300187604334099896036246789641632564134246125461686950415467406032909029192869357953282578032075146446173674602635247710
  y := 298819210078481492676017930443930673437544040154080242095928241372331506189835876003536878655418784733982303233503462500531545062832660
  z := 1
/-- Addition; complete, so it also doubles. -/
def EdPoint.add (p q : EdPoint) : EdPoint :=
  let a := fMul p.z q.z
  let b := fMul a a
  let c := fMul p.x q.x
  let d := fMul p.y q.y
  let e := fMul ed448NegD (fMul c d)
  let f := fAdd b e
  let g := fSub b e
  let h := fMul (fAdd p.x p.y) (fAdd q.x q.y)
  ⟨fMul a (fMul f (fSub h (fAdd c d))), fMul a (fMul g (fSub d c)), fMul f g⟩
/-- The multiple of a point by the low `n` bits of `e`. -/
def EdPoint.mul (p : EdPoint) (e : Nat) : (n : Nat) → EdPoint
  | 0 => edZero
  | n + 1 =>
    let h := p.mul (e / 2) n
    let q := h.add h
    if e % 2 = 1 then q.add p else q
def EdPoint.same (p q : EdPoint) : Bool := fMul p.x q.z == fMul q.x p.z && fMul p.y q.z == fMul q.y p.z
/-- The 57-byte encoding: y, and the lowest bit of x as bit 455. -/
def EdPoint.encode (p : EdPoint) : List Byte :=
  let i := fInv p.z
  bytesOf 57 (fMul p.y i + fMul p.x i % 2 * 2 ^ 455)
/-- Decoding; none for bytes that encode no point. -/
def edDecode (bs : List Byte) : Option EdPoint :=
  let n := ofBytes bs
  let y := n % 2 ^ 455
  let sign := n / 2 ^ 455 % 2
  if bs.length ≠ 57 ∨ ed448P ≤ y then none
  else
    let y2 := fMul y y
    let u := fSub y2 1
    let v := fSub (fSub 0 (fMul ed448NegD y2)) 1
    let u3 := fMul u (fMul u u)
    let v3 := fMul v (fMul v v)
    let x := fMul (fMul u3 v) (fPow (fMul (fMul u3 (fMul u u)) v3) ((ed448P - 3) / 4) 448)
    if fMul v (fMul x x) ≠ u ∨ (x = 0 ∧ sign = 1) then none
    else some ⟨if x % 2 = sign then x else ed448P - x, y, 1⟩

/-! ## Signatures -/

/-- dom4 with an empty context string: phflag 1 for Ed448ph. -/
def ed448Dom (ph : Bool) : List Byte := [0x53, 0x69, 0x67, 0x45, 0x64, 0x34, 0x34, 0x38, if ph then 1 else 0, 0]
/-- What is hashed of a message: its pre-hash for Ed448ph. -/
def edMessage (ph : Bool) (m : List Byte) : List Byte := if ph then shake256 m 64 else m
def edHash (ph : Bool) (bs : List Byte) : Nat := ofBytes (shake256 (ed448Dom ph ++ bs) 114) % ed448L

/-- Verification of a 114-byte signature. -/
def ed448Verify (ph : Bool) (key m sig : List Byte) : Bool :=
  let n := ofBytes (sig.drop 57)
  match edDecode key, edDecode (sig.take 57) with
  | some a, some r =>
    if sig.length ≠ 114 ∨ ed448L ≤ n then false
    else
      let k := edHash ph (sig.take 57 ++ key ++ edMessage ph m)
      ((edBase.mul n 446).mul 4 3).same ((r.add (a.mul k 446)).mul 4 3)
  | _, _ => false

/-- The public key of a 57-byte seed. -/
def ed448Scalar (seed : List Byte) : Nat := 2 ^ 447 + ofBytes ((shake256 seed 114).take 57) % 2 ^ 447 / 4 * 4
def ed448Public (seed : List Byte) : List Byte := (edBase.mul (ed448Scalar seed) 448).encode
/-- The signature of a message. -/
def ed448Sign (ph : Bool) (seed m : List Byte) : List Byte :=
  let s := ed448Scalar seed
  let pm := edMessage ph m
  let r := edHash ph ((shake256 seed 114).drop 57 ++ pm)
  let R := (edBase.mul r 446).encode
  let k := edHash ph (R ++ ed448Public seed ++ pm)
  R ++ bytesOf 57 ((r + k * s) % ed448L)

end Sys2Proof.Machine
end

