-- ==== Sys2Proof/Machine/Traps.lean ====
section
/-! DEFINITION. Halts, delivery and return (R310 to R330): the stop records, HALT_COMPLETE, EVENT_DELIVERY, TRAPRET, HALTP, time slices,
single steps, the merge hold's end, and words that are no instruction. -/
namespace Sys2Proof.Machine

/-! ## Threads and carders as a halt records them -/

/-- A thread as a halt records it: at its next unissued word, the first word of a chain, or the word it waits at (R27, R312). A GLD on its way is
abandoned at the micro-step reached, and its thread is recorded at it, the earliest one of several (R312, R355, log 36). -/
def Ctl.halted (c : Ctl) : Ctl :=
  { c with pc := c.stepPc, chain := [], prog := if c.wait == .join then 0 else c.prog, wait := .none, heldFor := 0, word := none }
def Group.halted (G : Group) : Group :=
  let G := G.glds.foldr (fun q G => G.rewind q .none) G
  { G with hoods := G.hoods.map fun h => { h with ctl := h.ctl.halted }, lanes := G.lanes.map fun l => { l with ctl := l.ctl.halted }, glds := [] }
/-- A carder keeps its wait for EQRD (R333); a program of the supervisor wave goes on (R311). -/
def Carder.halted (c : Carder) : Carder := if c.current.any (·.sup) then c else { c with ctl := { c.ctl with pc := c.ctl.stepPc, chain := [] } }

/-! ## Stop records -/

/-- Where the first thread of a core stands in its record: of the group of the lowest number, the thread of the lowest index (R312, R365; DESIGN CHOICE, log
49); 0 for a core without a thread. -/
def State.recordedPc (s : State) (d : DieId) (core : Nat) : DWord :=
  let threads := ((s.die d).active.groups.filter (·.core == core)).flatMap fun G =>
    let H := G.halted
    (H.hoods.map fun h => (G.number.toNat, h.lo, h.ctl.pc)) ++ H.lanes.map fun l => (G.number.toNat, l.x, l.ctl.pc)
  ((bestOf (fun (a b : Nat × Nat × DWord) => decide (a.1 < b.1) || (a.1 == b.1 && decide (a.2.1 ≤ b.2.1))) threads).map (·.2.2)).getD 0
/-- A core with no fault of its own (R316); its PC is its thread's (R365). -/
def State.coreRecord (s : State) (d : DieId) (core : Nat) : StopRec :=
  { cls := 3, kind := 255, inst := BitVec.ofNat 8 core, b5 := BitVec.ofNat 8 (s.threadsOn d core), ctx := (s.die d).active.ctx,
    pc := s.recordedPc d core, q28 := 0xFF00 }

/-- A carder's record (R83). -/
def State.carderRecord (s : State) (d : DieId) (inst : Nat) : StopRec :=
  let c := s.carderOf d inst
  match (c.queue.find? fun q => q.started && !q.sup).or c.current with
  | some q => (s.carderFault d inst q 0 0 (if q.kind = .crun then c.ctl.stepPc else q.pc) 0).stop
  | none => { cls := 0, kind := 255, inst := BitVec.ofNat 8 inst, ctx := (s.die d).active.ctx }

/-- The sync engine's and the fabric's records (R317). -/
def State.syncRecord (s : State) (d : DieId) : StopRec :=
  (s.tallied { die := d, slot := 248, clock := 0, form := {}, stop := { cls := 2, ctx := (s.die d).active.ctx } }).stop
def State.fabricRecord (s : State) (d : DieId) : StopRec :=
  (s.tallied { die := d, slot := 249, clock := 0, form := {}, stop := { cls := 4, ctx := (s.die d).active.ctx } }).stop
/-- The pending entries of a partition on a die's routers that a halt drops (R104). -/
def State.droppedOn (s : State) (d : DieId) : Nat :=
  s.pend.countP fun e => e.part == s.partOf d && routerDie e.at_ == some d && e.ports.all Port.inside

/-- Every record of a die: its slot, and its contents when the engine has no fault of its own. -/
def State.records (s : State) (d : DieId) : List (Nat × StopRec) :=
  let cores := (s.die d).cores
  cores.map (fun c => (c, s.coreRecord d c)) ++ cores.map (fun c => (100 + c, s.tileRecord d c)) ++
    (List.range 48).map (fun i => (200 + i, s.carderRecord d i)) ++ [(248, s.syncRecord d), (249, s.fabricRecord d)]
/-- Writes the stop area of a die (R315): an engine's own fault, or what it was doing, and a fault that is no engine's (log 26). -/
def State.writeRecords (s : State) (d : DieId) : State :=
  let P := s.part (s.partOf d)
  let own := (s.records d).map fun r => (r.1, ((P.faultAt d r.1).map (·.stop)).getD r.2)
  let rest := (P.faults.filter fun f => f.die == d && decide (f.slot < stopSlots) && own.all (·.1 != f.slot)).map fun f => (f.slot, f.stop)
  (own ++ rest).foldl (fun (t : State) r => t.svWrite d (stopArea + 64 * r.1) r.2.bytes) s

/-! ## The halt is complete -/

/-- Requests of a partition's threads whose replies have not landed (R249, R290). -/
def State.awaited (s : State) (p : PartId) : List SyncReq := s.reqs.filter fun r => s.partOf r.die == p && r.gid != 0 && r.op.counted
/-- The word at the head of each tile engine completes, but for a matrix word, which stands at its k-block (R218). -/
def State.finishHeads (s : State) (d : DieId) : State :=
  (s.die d).cores.foldl (fun (t : State) c => match t.tileQueue d c with
    | q :: _ => if q.isMma || ((t.part (t.partOf d)).faultAt d (100 + c)).isSome then t else t.performTile d q
    | [] => t) s

/-- The halt line has reached every core, tile engine and carder of a partition. -/
def State.lineThrough (s : State) (p : PartId) : Bool :=
  (s.diesOf p).all fun d => (s.die d).cores.all (fun c => s.stopped d c && s.stopped d (100 + c)) && (List.range 48).all fun i => s.stopped d (200 + i)

/-- HALT_COMPLETE (R312, R313): every engine has stopped, every reply has landed, and the records are written. -/
def execHaltComplete (p : PartId) (s : State) : Res :=
  let P := s.part p
  if !s.powered || !P.halt || P.complete || !(s.lineThrough p) || !(s.awaited p).isEmpty || !s.deliveriesDone p then .next s
  else
    let ds := s.diesOf p
    let s := ds.foldl State.finishHeads s
    let s := ds.foldl (fun (s : State) d => s.modDie d fun D => { D with dropped := s.droppedOn d }) s
    let s := s.modPart p fun P => { P with faults := P.faults.map s.tallied }
    let s := ds.foldl State.writeRecords s
    let s := ds.foldl (fun (s : State) d => s.modDie d fun D =>
      { D with active := { D.active with groups := D.active.groups.map Group.halted }, carders := vmap Carder.halted D.carders }) s
    .next ((s.dropFabric p).modPart p fun P => { P with complete := true })

/-! ## Delivery and return -/

/-- The supervisor wave stands at a word boundary: no lane has its word half done, a queue word whose reply has not come, or bulk commands of which some
are queued (R65, R324). -/
def Group.atBoundary (G : Group) : Bool := G.lanes.all fun l => l.ctl.wait != .reply && (l.ctl.prog == 0 || l.ctl.wait == .join)
/-- EVENT_DELIVERY: the supervisor wave of a die enters its handler, once the halt is complete; one that is in its handler, or has
released the partition, does not, nor one in the handler of its own fault or short of a word boundary (R314, R324, R329). -/
def execEventDelivery (d : DieId) (s : State) : Res :=
  let P := s.part (s.partOf d)
  let D := s.die d
  if s.powered && P.halt && P.complete && !D.handler && !(P.released.any (·.1 == d)) && D.ownOver && D.sv.atBoundary then
    .next (s.deliver d)
  else .next s

/-- Results that no engine will bring any more: their requests and queued words are gone (R331). -/
def State.unanswered (s : State) (d : DieId) (id : Nat) : Bool :=
  !(s.reqs.any (·.id == id)) && !((s.die d).active.tileq.any (·.id == id))
/-- Windows that a halt found open are closed: the next word waits for their results (R271). -/
def Ctl.resumed (c : Ctl) (gone : Nat → Bool) : Ctl :=
  let waited := fun (w : Window) => match w.tok with
    | some id => if gone id then none else some { w with left := 0 }
    | none => none
  { c with stepped := false, windows := c.windows.filterMap waited }
def Die.resumed (D : Die) (gone : Nat → Bool) : Die :=
  let G := fun (G : Group) => { G with
    hoods := G.hoods.map fun h => { h with ctl := h.ctl.resumed gone }, lanes := G.lanes.map fun l => { l with ctl := l.ctl.resumed gone } }
  { D with skidReqs := 0, skidDelivs := 0, dropped := 0, taken := 0,
           active := { D.active with groups := D.active.groups.map G, removed := [] }, shadow := { D.shadow with removed := [] },
           carders := vmap (fun c => { c with ctl := { c.ctl with stepped := false } }) D.carders }

/-- The partition runs again: the halt line falls, every engine continues from its record, lifetimes run (R328, R330); a halt in which TSLICE was
delivered restarts the slice's count (R322). -/
def State.resume (s : State) (p : PartId) : State :=
  let s := s.modPart p fun P => { P with halt := false, complete := false, faults := [], released := [],
                                         elapsed := if P.frames.any (·.1 == Cause.tslice) then 0 else P.elapsed, frames := [] }
  (s.diesOf p).foldl (fun (s : State) d => (s.modDie d (·.resumed (s.unanswered d))).refreshFabric d) s

/-- TRAPRET (R328): it waits for a swap of its die to end (R336). Where it returns it is a release with full coverage (R309): it waits for the writes of
the supervisor wave of its die as REL does. A misaligned PC that the supervisor wrote into sys.svepc is kept (DESIGN CHOICE, log 34). -/
def trapretBody (w : Who) (s : State) : Eff :=
  let p := s.partOf w.d
  let P := s.part p
  let D := s.die w.d
  if !(P.halt && P.complete && D.handler) then kfault w Cause.baruse 0
  else if P.tpend ≠ 0 then .done (s.deliverAgain w.d)
  else if D.swapBusy then .hold s .held
  else if P.released.any fun r => r.2 != D.active.ctx then kfault w Cause.baruse 0
  else if !s.fullReady w.d w.gid w.all then .hold s .held
  else
    let s := s.modDie w.d fun D => { D with handler := false, sv := D.sv.svJump (pair D.svepc w.pc.hi) }
    let s := s.modPart p fun P => { P with released := (w.d, D.active.ctx) :: P.released }
    .done (if (s.diesOf p).all fun d => (s.part p).released.any (·.1 == d) then s.resume p else s)
def execTrapret : State → Res := waveWord .trapret trapretBody

/-! ## Halts that the supervisor and the debugger ask for -/

/-- HALTP (R327). -/
def haltpBody (p : BitVec 3) (_ : Who) (s : State) : Eff :=
  let p : PartId := p.toFin
  .ok (if (s.diesOf p).isEmpty then s else s.raiseEvent p Cause.tslice) none
def execHaltp (p : BitVec 3) : State → Res := waveWord (.haltp p) (haltpBody p)

/-- HALTREQ, from sys.dbgctl or the debug port (R322). -/
def State.haltRequest (s : State) (p : PartId) : State := s.raiseEvent p Cause.dbghalt
/-- A write of sys.dbgctl (R322). -/
def State.dbgWrite (s : State) (p : PartId) (v : Word) : State :=
  let s := s.modPart p fun P => { P with step := v.getLsbD 1 }
  if v.getLsbD 0 then s.haltRequest p else s
/-- HALTREQ: a write of sys.dbgctl through the debug port, or by itself. -/
def execHaltreq (p : PartId) (s : State) : Res :=
  match s.inbox with
  | .debugPort _ v :: rest => .next ({ s with inbox := rest }.dbgWrite p v)
  | _ => .next (s.haltRequest p)

/-- A write of sys.tslice (R322). -/
def State.setSlice (s : State) (p : PartId) (v : Word) : State := s.modPart p fun P => { P with tslice := v, elapsed := 0 }
def execTsliceWrite (d : DieId) (v : Word) (s : State) : Res := .next (s.setSlice (s.partOf d) v)
/-- TSLICE_EXPIRY: the slice counts only while the partition runs; it may end in the very cycle in which the line rises (R313, R322). -/
def execTsliceExpiry (p : PartId) (s : State) : Res :=
  let P := s.part p
  if s.ready && (!P.halt || P.rose == s.clock) && P.tslice ≠ 0 && decide (usCycles P.tslice.toNat ≤ P.elapsed) then .next (s.raiseEvent p Cause.tslice) else .next s
/-- A write of sys.tpend: ones clear (R322). -/
def State.clearPend (s : State) (p : PartId) (v : Word) : State := s.modPart p fun P => { P with tpend := P.tpend &&& ~~~(v.setWidth 5) }
def execTpendClear (d : DieId) (v : Word) (s : State) : Res := .next (s.clearPend (s.partOf d) v)

/-- Time passes: the clock, and the slices of running partitions (R162, R322). -/
def State.pass (s : State) (n : Nat) : State :=
  if s.powered then { s with clock := s.clock + n, parts := vmap (fun P => if P.halt then P else { P with elapsed := P.elapsed + n }) s.parts } else s

/-- The control states of a partition's threads and running carder programs. -/
def State.threads (s : State) (p : PartId) : List Ctl :=
  (s.diesOf p).flatMap fun d =>
    ((s.die d).active.groups.flatMap fun G => G.hoods.map (·.ctl) ++ G.lanes.map (·.ctl)) ++
      ((s.die d).carders.toArray.toList.filterMap fun c => match c.current with
        | some q => if q.kind = .crun && !q.sup then some c.ctl else none
        | none => none)
/-- A GLD of the partition is on its way. -/
def State.gldUnderWay (s : State) (p : PartId) : Bool := (s.diesOf p).any fun d => (s.die d).active.groups.any fun G => !G.glds.isEmpty
/-- STEP_HALT (R322): each thread has issued its one step, or cannot issue; a GLD comes to its end first, as it would begin again after the halt
(R355, log 36). -/
def execStepHalt (p : PartId) (s : State) : Res :=
  let ts := s.threads p
  if s.ready && (s.part p).step && (!(s.part p).halt || (s.part p).rose == s.clock) && ts.any (·.stepped) && ts.all (fun c => c.stepped || !c.ready) && !s.gldUnderWay p then
    .next (s.raiseEvent p Cause.step)
  else .next s

/-! ## Merge holds, and words that are no instruction -/

/-- MERGE_HOLD_TIMEOUT: a merge hold ends 64 cycles after it began (R152). -/
def execMergeHoldTimeout (d : DieId) (gid lo : Nat) (s : State) : Res :=
  match (s.group d gid).bind (·.hood lo) with
  | none => .next s
  | some h =>
    if h.ctl.wait == .merge && decide (64 ≤ h.ctl.heldFor) && s.running d then
      .next (s.modGroup d gid fun G => G.modHood lo fun h => { h with ctl := { h.ctl with wait := .none, heldFor := 0, merged := true } })
    else .next s

/-- The major opcode of the word at a PC. -/
def State.opAt (s : State) (d : DieId) (agent : Nat) (sup : Bool) (pc : DWord) : Option Nat :=
  match s.fetch d agent sup pc with
  | .word w _ => some (opcode w)
  | _ => none
/-- A hint accepts a word that is no instruction, by its major opcode: it names its targets by major opcode, or takes any (R26). DESIGN CHOICE: the others
name instructions, which such a word is not (log 48). -/
def Hint.takes (op : Option Nat) : Hint → Bool
  | .merge | .pred _ => true
  | .fmtx .. => op.any fun o => decide (0x20 ≤ o ∧ o ≤ 0x28)
  | _ => false
/-- The chain is malformed by a word that is no instruction: the word is a hint, or some hint of the chain does not accept it (R25, R26). -/
def strays (op : Option Nat) (chain : List Hint) : Bool := op == some 0x7F || !chain.all (Hint.takes op)
/-- MALFORMED_WORD (R35): ILL at the first word of a chain that it makes malformed, else at its own PC, or CARD wrapping it; where the predicate excludes every participant it is passed (R270). -/
def execMalformedWord (s : State) : Res :=
  match s.cur with
  | .none => .fault .noThread
  | .carder d inst =>
    let c := (s.die d).carder inst
    let sup := match c.current with | some q => q.sup | none => false
    let chainPc := if c.ctl.chain.isEmpty then c.ctl.pc else c.ctl.chainPc
    let stray := strays (s.opAt d (carderAgent inst) sup c.ctl.pc) c.ctl.chain
    if !stray && (match predOf c.ctl.chain with | some g => !(vget c.c g.toNat 0).getLsbD 0 | none => false) then
      .next (s.modCarder d inst fun o => { o with p0 := 0, p1 := 0, p2 := 0, ctl := { o.ctl with pc := c.ctl.pc + 4, chain := [], stepped := true } })
    else .next (s.card d inst Cause.ill (if stray then chainPc else c.ctl.pc) 0)
  | a => match s.who a with
    | none => .fault .noThread
    | some w =>
      let op := s.opAt w.d w.core (w.gid = 0) w.pc
      let astray := w.failing fun x => strays op (w.hintsAt x)
      let xs := s.selected w
      let named := w.naming (op == some 0x58)
      .next (if !astray.isEmpty then s.trap w { cause := Cause.ill, xs := named astray, pc := some (w.chainPcAt (astray.headD 0)) }
        else if xs.isEmpty then s.skip w {} else s.trap w { cause := Cause.ill, xs := named xs, pc := some w.pc })

end Sys2Proof.Machine
end

