-- ==== Sys2Proof/Machine/Swap.lean ====
section
/-! DEFINITION. Context swap and the shadow bank (R323, R335, R336), and the migration of frames (R54). -/
namespace Sys2Proof

/-- What a LOAD brings from an area that is no save area of the context, or has been altered (R336: undefined contents): applied to the
step counter. -/
opaque Config.undefinedBank : Nat → Machine.Bank

end Sys2Proof

namespace Sys2Proof.Machine

/-! ## Swap -/

/-- A carder of the die holds a command of a context. -/
def Die.carderHolds (D : Die) (c : Ctx) : Bool := D.carders.toArray.toList.any fun k => k.queue.any (·.ctx == c)

/-- A write of sys.swap (R336): the banks of every core are exchanged, spill memory with its groups; BUSY until SWAP_COMPLETE. A bank that
held no context leaves the shadow bank empty. None where R336 raises BARUSE. -/
def State.swap (s : State) (d : DieId) (c : Ctx) : Option State :=
  let P := s.part (s.partOf d)
  let D := s.die d
  if !(P.halt && P.complete) || D.shState ≠ 1 || D.shadow.ctx != c || D.carderHolds D.active.ctx then none
  else some (s.modDie d fun D =>
    { D with active := D.shadow, shadow := D.active, shState := if D.active.ctx = 0 then 0 else 1, swapBusy := true,
             sched := Vector.replicate 100 {} })

/-- The supervisor wave of a die faults at its word (R329). -/
def State.svFault (s : State) (d : DieId) (c : Cause) (fa : DWord) : State :=
  let G := (s.die d).sv
  let pc := G.svPc
  let w : Who := { d := d, gid := 0, core := G.core, hood := none, all := G.lanes.map (·.x), xs := G.lanes.map (·.x), pc := pc, chainPc := pc,
                   hints := [], prog := 0 }
  s.trap w { cause := c, faddr := fa, xs := w.xs }
/-- What a register write by itself leaves: its effect, or BARUSE in the supervisor trap frame. -/
def orBaruse (s : State) (d : DieId) (o : Option State) : Res := .next (o.getD (s.svFault d Cause.baruse 0))

/-- CONTEXT_SWAP: a write of sys.swap. -/
def execContextSwap (d : DieId) (c : Ctx) (s : State) : Res := orBaruse s d (s.swap d c)
/-- SWAP_COMPLETE (R336). -/
def execSwapComplete (d : DieId) (s : State) : Res :=
  .next (if (s.die d).swapBusy then s.modDie d fun D => { D with swapBusy := false } else s)

/-! ## The shadow bank -/

/-- SAVE, LOAD and CREATE (R323, R336): the first two run in the background; none while the bank is busy, nor SAVE of an empty bank, nor
CREATE in a full one. -/
def State.shadowSave (s : State) (d : DieId) : Option State :=
  if (s.die d).shState = 1 then some (s.modDie d fun D => { D with shState := 2, shOp := some .save }) else none
def State.shadowLoad (s : State) (d : DieId) (c : Ctx) : Option State :=
  if (s.die d).shState ≠ 2 then some (s.modDie d fun D => { D with shState := 2, shOp := some (.load c) }) else none
def State.shadowCreate (s : State) (d : DieId) (c : Ctx) : Option State :=
  if (s.die d).shState = 0 then some (s.modDie d fun D => { D with shState := 1, shadow := { ctx := c } }) else none
def execShadowSave (d : DieId) (s : State) : Res := orBaruse s d (s.shadowSave d)
def execShadowLoad (d : DieId) (c : Ctx) (s : State) : Res := orBaruse s d (s.shadowLoad d c)
def execShadowCreate (d : DieId) (c : Ctx) (s : State) : Res := orBaruse s d (s.shadowCreate d c)

/-- The save area of a die, by device address (R322). -/
def Die.saveArea (D : Die) : Nat := D.ctxsave.toNat * 4096
/-- Bytes of a save area (R336). -/
abbrev saveBytes : Nat := 100 * 1179648
/-- The save area, 100 slots of 1,152 KiB, does not lie in a pool (R42, R336). -/
def State.areaBad (s : State) (d : DieId) : Bool := !(s.poolOk (s.die d).saveArea && s.poolOk ((s.die d).saveArea + saveBytes - 1))
/-- It meets a frame on the move: the accesses stall (R54). -/
def State.areaStalled (s : State) (d : DieId) : Bool :=
  s.moving.any fun m => decide ((s.die d).saveArea < (m.frame + 1) * 2 ^ 21 ∧ m.frame * 2 ^ 21 < (s.die d).saveArea + saveBytes)
/-- The first of its lines in error (R43, R310). -/
def State.areaLine (s : State) (d : DieId) : Option Nat :=
  bestOf (fun (a b : Nat) => decide (a ≤ b)) (s.badLines.filter fun l => decide ((s.die d).saveArea / 64 ≤ l ∧ l < ((s.die d).saveArea + saveBytes) / 64))
/-- A context goes to its save area, which software may move whole: the model writes there only the number of what is kept (log 7). All of the area is
rewritten. -/
def State.saveBank (s : State) (d : DieId) (B : Bank) : State :=
  let e : Saved := { id := s.nextId, ctx := B.ctx, die := d, bank := B, away := true }
  let t := { s with saves := e :: s.saves, nextId := s.nextId + 1 }
  { t.writeDa (s.die d).saveArea (bytesOf 8 s.nextId) with
    badLines := s.badLines.filter fun l => !decide ((s.die d).saveArea / 64 ≤ l ∧ l < ((s.die d).saveArea + saveBytes) / 64) }
/-- The saved context that a save area holds. -/
def State.savedAt (s : State) (a : Nat) (c : Ctx) : Option Saved := s.saves.find? fun e => e.id == s.mem.get a 8 && e.ctx == c
/-- A home lies in a die's partition or in the package's own part, on this package (R94). -/
def State.ownHome (s : State) (d : DieId) (home : Router) (rank : Option Nat) : Bool :=
  rank.isNone && match routerDie home with
    | some e => s.partOf e == s.partOf d
    | none => true
/-- A device address at which no table lies: every translation by it raises PROT (R42). -/
abbrev noTable : DWord := 0xC0000000000
/-- The bank that a LOAD brings; from an altered area a free one, confined to its partition (R5): no translation tables, no launch, its interests and
offers at homes of its own partition, its handles its own (log 7). -/
def State.loadedBank (s : State) (d : DieId) (a : Nat) (c : Ctx) : Bank :=
  match s.savedAt a c with
  | some e => { e.bank with removed := [] }
  | none =>
    let B := Config.undefinedBank s.seq
    { B with
      ctx := c, rtab := noTable, ptroot := noTable, interests := B.interests.filter fun i => s.ownHome d i.home i.rank
      offers := B.offers.filter fun o => s.ownHome d o.home o.rank, handles := B.handles.map fun h => { h with ctx := c }
      groups := (B.groups.filter (·.gid != 0)).map fun G => { G with launch := 0 }, tileq := B.tileq.map fun q => { q with ctx := c } }

/-- SHADOW_OP_COMPLETE: a SAVE leaves the context in its area and the bank empty; a LOAD brings the context (R336). Where the area lies outside
the pools, or a LOAD meets a line of it in error, the accesses in context 0x000 raise PROT or ECC in the supervisor wave, and the bank stays as it was
(R42, R43, log 18). -/
def execShadowOpComplete (d : DieId) (s : State) : Res :=
  let D := s.die d
  match D.shOp with
  | none => .next s
  | some op =>
    let fails := fun (c : Cause) (fa : Nat) =>
      (s.modDie d fun D => { D with shState := if D.shadow.ctx = 0 then 0 else 1, shOp := none }).svFault d c (BitVec.ofNat 64 fa)
    if s.areaBad d then .next (fails Cause.prot D.saveArea)
    else if s.areaStalled d then .next s
    else match op, s.areaLine d with
      | .save, _ => .next ((s.saveBank d D.shadow).modDie d fun D => { D with shState := 0, shOp := none, shadow := {} })
      | .load _, some l => .next (fails Cause.ecc (64 * l))
      | .load c, none =>
        let id := (s.savedAt D.saveArea c).map (·.id)
        .next { s.modDie d fun D => { D with shState := 1, shOp := none, shadow := s.loadedBank d D.saveArea c } with
          saves := s.saves.map fun e => if some e.id == id then { e with away := false } else e }

/-! ## Migration -/

def State.setMigctl (s : State) (p : PartId) (v : Word) : State := s.modPart p fun P => { P with migctl := v.getLsbD 0 }
/-- MIGCTL_WRITE (R54): the partition's one copy. -/
def execMigctlWrite (d : DieId) (v : Word) (s : State) : Res := .next (s.setMigctl (s.partOf d) v)

/-- Frames that some context's overflow area names on a die (R54, R236). -/
def Bank.overflowNames (B : Bank) (f : Nat) : Bool := decide (field B.syncovf 20 0 ≤ f ∧ f < field B.syncovf 20 0 + field B.syncovf 28 21)
/-- A frame may migrate: it exists, is not on the move, no overflow area names it, and both partitions allow it. -/
def State.mayMigrate (s : State) (f : Nat) (dst : DieId) : Bool :=
  decide (f < s.hbmFrames) && !(s.moving.any (·.frame == f)) && (s.part (s.partOf (s.homeOf (f * 2 ^ 21)))).migctl && (s.part (s.partOf dst)).migctl &&
    allDies.all fun d => (s.banksOn d).all fun B => !B.overflowNames f
/-- MIGRATION_START: new accesses to the frame stall (R54, step 1). -/
def execMigrationStart (s : State) : Res :=
  withInput s fun i s => match i with
    | .migrate f dst => if s.ready && s.mayMigrate f dst then { s with moving := s.moving ++ [⟨f, dst⟩] } else s
    | _ => s
/-- The write-back of a queue of the frame meets another frame whose migration began before: it stalls. To one that began later it is an access in
flight (R54, steps 2 and 3). -/
def State.backStalled (s : State) (f : Nat) (q : RQueue) : Bool :=
  { s with moving := s.moving.takeWhile (·.frame != f) }.ringStalled q
/-- MIGRATION_COMPLETE: hot variables and the frame's resident queues are written back, the frame has its new home, and the stalled
accesses go on (R54, steps 3 to 6). -/
def execMigrationComplete (f : Nat) (s : State) : Res :=
  match s.moving.find? (·.frame == f) with
  | none => .next s
  | some m =>
    let old := s.homeOf (f * 2 ^ 21)
    let qs := (s.die old).queues.filter fun q => poolOf q.desc == 0 && frameOf q.desc == f
    if qs.any (s.backStalled f) then .next s
    else
    let s := qs.foldl State.queueBack s
    let s := s.modDie old fun D => { D with held := D.held.filter fun l => !(poolOf (l.1 * 64) == 0 && frameOf (l.1 * 64) == f) }
    .next ({ s with home := (f, m.dst) :: s.home.filter (·.1 != f), moving := s.moving.filter (·.frame != f) })

end Sys2Proof.Machine
end

