-- ==== Sys2Proof/Machine/System.lean ====
section
/-! DEFINITION. The system words (R325, R326): SYSRD and SYSWR over every system register, EQRD and EQWR with the engine images
(R331 to R334), and ICINV (R351). -/
namespace Sys2Proof.Machine

/-! ## Reading system registers -/

/-- The device hash of the part (R346). -/
def deviceHash : DWord := 0x5A1C93E009604E46
/-- The bank that per-context registers reach (R323); none raises BARUSE. -/
def Die.selected (D : Die) : Option Bank := if !D.ctxsel then some D.active else if D.shState = 1 then some D.shadow else none
/-- log2 of a partition's dies. -/
def logDies (n : Nat) : Nat := if n = 8 then 3 else if n = 4 then 2 else if n = 2 then 1 else 0

/-- Bits that a value must leave zero (R322 and the rules that define each). No rule reserves the low bits of sys.ntbase, which R93 calls 64 KiB
aligned: they are kept and used (DESIGN CHOICE, log 34). -/
def sysReserved (n : Nat) : DWord :=
  match n with
  | 0x100 => 3
  | 0x102 => 0xFFFFFFE0
  | 0x104 => 0xFFFFFFFC
  | 0x105 => 0xFFFFE000
  | 0x106 => 0xF000FFFC
  | 0x108 | 0x122 => 0xFFFFFFFE
  | 0x125 => 0xFFFF8080
  | 0x126 => 0xE0000000
  | _ => 0

/-- The contents of a system register as a wave of die `d` reads it (R322, R323 and the rules that define each); none raises BARUSE. -/
def State.sysValue (s : State) (d : DieId) (n : Nat) : Option DWord :=
  let D := s.die d
  let p := s.partOf d
  let P := s.part p
  let num := fun (v : Nat) => some (BitVec.ofNat 64 v)
  let word := fun (v : Word) => some (v.setWidth 64)
  match n with
  | 0x000 => num (if s.ready then 1 else 0)
  | 0x001 => word s.podid
  | 0x002 => num (if s.powered then p.val + (s.firstDie d).val * 8 + logDies (s.partDies d).length * 64 else 0)
  | 0x003 => word deviceHash.lo
  | 0x004 => word deviceHash.hi
  | 0x100 => word D.trapvec
  | 0x101 => word D.svepc
  | 0x102 => num P.tpend.toNat
  | 0x103 => word P.tslice
  | 0x104 => num (if P.step then 2 else 0)
  | 0x105 => num (D.active.ctx.toNat + if D.swapBusy then 2 ^ 12 else 0)
  | 0x106 => num (D.shState + (match D.shOp with | some (.load c) => c.toNat | _ => D.shadow.ctx.toNat) * 2 ^ 16)
  | 0x107 => word D.ctxsave
  | 0x108 => num (if D.ctxsel then 1 else 0)
  | 0x109 => some D.svboot
  | 0x120 => D.selected.map (·.rtab)
  | 0x121 => D.selected.map (·.ptroot)
  | 0x122 => num (if P.migctl then 1 else 0)
  | 0x123 => num (s.hbmFrames + s.cxlFrames * 2 ^ 21)
  | 0x124 => D.selected.map (·.ntbase)
  | 0x125 => D.selected.map fun B => B.sprange.setWidth 64
  | 0x126 => D.selected.map fun B => B.syncovf.setWidth 64
  | 0x127 => D.selected.map (·.qtbase)
  | 0x128 => word D.qmiss
  | _ => some 0

/-- What SYSRD reads: reserved bits read zero (R4), of all registers but sys.swap and sys.shadow, whose value has none. -/
def State.sysRead (s : State) (d : DieId) (n : Nat) : Option DWord := (s.sysValue d n).map (· &&& ~~~sysReserved n)

/-- SYSRD and SYSRD.x64: UNIFORM in a hood, every active lane in a wave. -/
def sysrdBody (wide : Bool) (d : Reg) (n : BitVec 12) (w : Who) (s : State) : Eff :=
  match s.sysRead w.d n.toNat with
  | none => kfault w Cause.baruse 0
  | some v => .ok (if wide then (s.setUni w d.toNat v.lo).setUni w (d.toNat + 1) v.hi else s.setUni w d.toNat v.lo) none
def execSysrd (d : Reg) (n : BitVec 12) : State → Res := waveWord (.sysrd d n) (sysrdBody false d n)
def execSysrdX64 (d : Reg) (n : BitVec 12) : State → Res := waveWord (.sysrdX64 d n) (sysrdBody true d n)

/-! ## Writing them -/

/-- Changes the bank that per-context registers reach. -/
def State.modSelected (s : State) (d : DieId) (f : Bank → Bank) : Option State :=
  let D := s.die d
  if !D.ctxsel then some (s.modDie d fun D => { D with active := f D.active })
  else if D.shState = 1 then some (s.modDie d fun D => { D with shadow := f D.shadow }) else none

/-- A write of sys.shadow (R322, R323, R336). -/
def State.shadowWrite (s : State) (d : DieId) (v : Word) : Option State :=
  let c := v.extractLsb' 16 12
  match v.toNat % 4 with
  | 0 => some s
  | 1 => s.shadowSave d
  | 2 => s.shadowLoad d c
  | _ => s.shadowCreate d c
/-- A range of the scratchpad that a context is given reads zero, but for the bytes that it had before (R114, log 46). -/
def Die.assignRange (D : Die) (old new : Word) : Die :=
  let inside := fun (v : Word) (a : Nat) => decide (field v 6 0 * 2 ^ 20 ≤ a ∧ a < field v 14 8 * 2 ^ 20)
  let fresh := fun (a : Nat) => inside new a && !inside old a
  { D with scratch := D.scratch.filter fun c => !fresh c.1, scratchLive := D.scratchLive.filter fun l => !fresh (16 * l),
           badLocal := D.badLocal.filter fun b => !(b.1 == spScratch && fresh (16 * b.2.2)) }

/-- The effect of a write by a wave of die `d`; none raises BARUSE. -/
def State.sysWrite (s : State) (d : DieId) (n : Nat) (v : DWord) : Option State :=
  let p := s.partOf d
  match n with
  | 0x100 => some (s.modDie d fun D => { D with trapvec := v.lo })
  | 0x101 => some (s.modDie d fun D => { D with svepc := v.lo })
  | 0x102 => some (s.clearPend p v.lo)
  | 0x103 => some (s.setSlice p v.lo)
  | 0x104 => some (s.dbgWrite p v.lo)
  | 0x105 => s.swap d (v.setWidth 12)
  | 0x106 => s.shadowWrite d v.lo
  | 0x107 => some (s.modDie d fun D => { D with ctxsave := v.lo })
  | 0x108 => some (s.modDie d fun D => { D with ctxsel := v.getLsbD 0 })
  | 0x120 => s.modSelected d fun B => { B with rtab := v }
  | 0x121 => s.modSelected d fun B => { B with ptroot := v }
  | 0x122 => some (s.setMigctl p v.lo)
  | 0x124 => s.modSelected d fun B => { B with ntbase := v }
  | 0x125 => (s.die d).selected.bind fun B =>
      (s.modDie d (·.assignRange B.sprange v.lo)).modSelected d fun B => { B with sprange := v.lo }
  | 0x126 => s.modSelected d fun B => { B with syncovf := v.lo }
  | 0x127 => s.modSelected d fun B => { B with qtbase := v }
  | _ => some s

/-- The word that a supervisor word takes from `ga`: UNIFORM in a hood, else of the lowest active lane (R325). -/
def withSource (regs : Nat) (a : Reg) (body : DWord → Who → State → Eff) (w : Who) (s : State) : Eff :=
  if w.hood.isSome && !((List.range regs).all fun i => (s.form w (a.toNat + i)).uniform) then .expand
  else
    let x := w.xs.headD 0
    body (if regs = 2 then s.gpair w x a.toNat else (s.g w x a.toNat).setWidth 64) w s

/-- SYSWR and SYSWR.x64: a reserved bit traps ILL. -/
def syswrBody (n : BitVec 12) (v : DWord) (w : Who) (s : State) : Eff :=
  if v &&& sysReserved n.toNat ≠ 0 then kfault w Cause.ill 0
  else match s.sysWrite w.d n.toNat v with
    | none => kfault w Cause.baruse 0
    | some s => .ok s none
def execSyswr (n : BitVec 12) (a : Reg) : State → Res := waveWord (.syswr n a) (withSource 1 a (syswrBody n))
def execSyswrX64 (n : BitVec 12) (a : Reg) : State → Res := waveWord (.syswrX64 n a) (withSource 2 a (syswrBody n))

/-! ## Engine images (R333, R334) -/

def word64 (n : Nat) : List Byte := bytesOf 8 n
def word32 (n : Nat) : List Byte := bytesOf 4 n
def zeros (n : Nat) : List Byte := List.replicate n 0
def lanesBytes (v : Vector Word 32) : List Byte := v.toArray.toList.flatMap fun x => bytesOf 4 x.toNat
def lanesOf (bs : List Byte) (o : Nat) : Vector Word 32 := (List.range 32).foldl (fun v i => vput v i (BitVec.ofNat 32 (fieldAt bs (o + 4 * i) 4))) (Vector.replicate 32 0)

/-- A carder entry, 384 bytes. -/
def Cmd.entry (q : Cmd) : List Byte :=
  [q.kind.code, (if q.mc then 1 else 0) + (if q.started then 2 else 0)] ++ bytesOf 2 q.mask.toNat ++ bytesOf 2 q.ctx.toNat ++ bytesOf 2 q.npart ++
    word64 q.pc.toNat ++ word64 q.base ++ word32 q.number.toNat ++ word32 q.map.toNat ++ word32 q.fbase.toNat ++ word32 q.fstride.toNat ++
    [q.ftag] ++ zeros 7 ++ word64 q.pgm.toNat ++ zeros 8 ++ bytesOf 32 q.buf.toNat ++ (q.ops.toArray.toList.flatMap fun x => bytesOf 4 x.toNat) ++
    (q.image ++ zeros 128).take 128 ++ lanesBytes q.lanes
/-- A carder's header, 512 bytes. -/
def Carder.header (c : Carder) (ctx : Ctx) : List Byte :=
  let cur : Option Cmd := c.current
  let crun := match cur with | some q => q.kind == CmdKind.crun | none => false
  let (p0, p1, p2) := match cur with
    | some q => if q.kind == CmdKind.crun then (c.p0, c.p1, c.p2) else (q.p0, q.p1, q.p2)
    | none => (0, 0, 0)
  let st : Byte := if cur.isNone then 0 else if !crun then 2 else if c.ctl.wait == Wait.none then 1 else 3
  (c.c.toArray.toList.flatMap fun (x : DWord) => word64 x.toNat) ++ word64 (if crun then c.ctl.pc.toNat else 0) ++ word64 p0 ++ word64 p1 ++ word64 p2 ++
    [st, BitVec.ofNat 8 c.queue.length] ++ bytesOf 2 ((cur.map fun (q : Cmd) => q.ctx).getD ctx).toNat ++ zeros 220
def Carder.image (c : Carder) (ctx : Ctx) : List Byte := c.header ctx ++ c.queue.flatMap Cmd.entry

/-- The register of a queued TROWRD stands in the image's fields TA and TB, which that word does not use (log 19). -/
def TileCmd.tiles (q : TileCmd) : Nat :=
  let (ta, tb) := if q.kind == .trowrd then (q.gd % 16, q.gd / 16) else (q.ta, q.tb)
  q.td + ta * 16 + tb * 256 + q.cslot * 4096
/-- A tile-engine entry, 384 bytes. -/
def TileCmd.entry (q : TileCmd) : List Byte :=
  [BitVec.ofNat 8 q.kind.code, BitVec.ofNat 8 ((if q.acc then 1 else 0) + (if q.tr then 2 else 0) + (if q.conv then 4 else 0))] ++ bytesOf 2 q.tiles ++
    [BitVec.ofNat 8 (q.fa + q.fb * 8 + (if q.sa then 64 else 0) + (if q.sb then 128 else 0)), 0] ++ bytesOf 2 q.ctx.toNat ++ word64 q.pc.toNat ++
    word64 q.prog ++ word32 q.lanes.toNat ++ word32 q.number.toNat ++ word64 q.base ++ word32 q.sd.toNat ++ word32 q.sha.toNat ++ word32 q.shb.toNat ++
    word32 q.off.toNat ++ word32 q.handle.toNat ++ zeros 4 ++ bytesOf 32 q.buf.toNat ++ zeros 32 ++ lanesBytes q.gaL ++ lanesBytes q.gbL
/-- The sync engine's summary, 64 bytes. -/
def State.syncImage (s : State) (d : DieId) : List Byte :=
  let c := (s.die d).active.ctx
  word32 (s.reqs.countP fun r => r.die == d && r.ctx == c) ++ word32 (s.die d).active.sessionIds.length ++
    word32 (s.sets.countP fun x => x.die == d && x.ctx == c) ++ word32 ((s.die d).queues.countP (·.ctx == c)) ++
    word32 ((s.overflowWords d c + frameWords - 1) / frameWords) ++ bytesOf 2 c.toNat ++ zeros 42

/-- EQRD: the image into the image buffer, the number of entries into gd; a carder or a tile engine is emptied (R331). -/
def eqrdBody (d : Reg) (cls : BitVec 4) (inst : BitVec 8) (w : Who) (s : State) : Eff :=
  let P := s.part (s.partOf w.d)
  let i := inst.toNat
  let D := s.die w.d
  let put := fun (bs : List Byte) (n : Nat) (s : State) => Eff.ok ((s.svWrite w.d imageAt bs).setUni w d.toNat (BitVec.ofNat 32 n)) none
  if !(P.halt && P.complete) then .ok (s.setUni w d.toNat 0xFFFFFFFF) none
  else match cls.toNat with
    | 0 =>
      let c := s.carderOf w.d i
      put (c.image D.active.ctx) c.queue.length ((s.modCarder w.d i fun _ => {}).modBank w.d fun B =>
        { B with removed := B.removed ++ c.queue.map fun q => ⟨false, q.gid, q.xs⟩ })
    | 1 =>
      if !D.cores.contains i then .ok (s.setUni w d.toNat 0) none
      else
        let qs := s.tileQueue w.d i
        put (qs.flatMap TileCmd.entry) qs.length (s.modBank w.d fun B => { B with
          tileq := B.tileq.filter (·.core != i), removed := B.removed ++ (qs.filter (·.kind.counted)).map fun q => ⟨true, q.gid, q.xs⟩ })
    | _ => put (s.syncImage w.d) 1 s
def execEqrd (d : Reg) (cls : BitVec 4) (inst : BitVec 8) : State → Res := waveWord (.eqrd d cls inst) (eqrdBody d cls inst)

/-! ## Rebuilding an engine (R332) -/

/-- The bank that holds a context on a die: active or shadow; an entry may be rebuilt for the context that the next swap brings in (R332, R336). -/
def Die.bankWith (D : Die) (ctx : Ctx) : Option Bank :=
  if D.active.ctx == ctx then some D.active else if D.shState == 1 && D.shadow.ctx == ctx then some D.shadow else none
/-- The group that an image names: the supervisor wave's for context 0, else the group of the entry's context with the number, the lowest of
several; an unused id where there is none (log 19). -/
def State.imageGroup (s : State) (d : DieId) (ctx : Ctx) (n : Word) : Group :=
  if ctx = 0 then (s.die d).sv
  else match bestOf (fun (a b : Group) => decide (a.gid ≤ b.gid)) (((((s.die d).bankWith ctx).map (·.groups)).getD []).filter (·.number == n)) with
  | some G => G
  | none => { gid := s.nextId, number := n }
/-- The die as a context of it finds its local memory when it runs. -/
def State.asActive (s : State) (d : DieId) (ctx : Ctx) : State :=
  match (s.die d).bankWith ctx with
  | some B => s.modDie d fun D => { D with active := B }
  | none => s

def cmdKindOf (n : Nat) : CmdKind := if n = 0 then .tcopy else if n = 1 then .gath else if n = 2 then .scat else .crun
/-- A command from its entry and, if it is started, the header's progress. The image names no ring slot: the command takes the reservation that its
index holds at EQWR (DESIGN CHOICE, log 45). -/
def Cmd.ofEntry (s : State) (d : DieId) (bs : List Byte) (p0 p1 p2 : Nat) : Cmd :=
  let f := fieldAt bs
  let kind := cmdKindOf (f 0 1)
  let rows := kind == .gath || kind == .scat
  let hood := rows && f 0x28 1 ≠ 2
  let base := f 0x10 8
  let map : Word := BitVec.ofNat 32 (f 0x1C 4)
  let npart := f 6 2
  let xs := if hood then span base npart else ((List.range 32).filter map.getLsbD).map (base + ·)
  let ctx : Ctx := BitVec.ofNat 12 (f 4 2)
  let G := s.imageGroup d ctx (BitVec.ofNat 32 (f 0x18 4))
  let started := (BitVec.ofNat 8 (f 1 1)).getLsbD 1
  let buf : BitVec 256 := BitVec.ofNat 256 (f 0x40 32)
  { id := 0, kind := kind, mc := f 1 1 % 2 = 1, started := started, mask := BitVec.ofNat 16 (f 2 2), ctx := ctx, sup := ctx = 0, core := G.core, gid := G.gid,
    xs := xs, npart := npart, pc := BitVec.ofNat 64 (f 8 8), base := base, number := G.number, map := map, hood := hood, fbase := BitVec.ofNat 32 (f 0x20 4),
    fstride := BitVec.ofNat 32 (f 0x24 4), ftag := BitVec.ofNat 8 (f 0x28 1), pgm := BitVec.ofNat 64 (f 0x30 8), buf := buf,
    ops := (List.range 8).foldl (fun v i => vput v i (BitVec.ofNat 32 (f (0x60 + 4 * i) 4))) (Vector.replicate 8 0), image := (bs.drop 0x80).take 128,
    lanes := lanesOf bs 0x100, p0 := if started then p0 else 0, p1 := if started then p1 else 0, p2 := if started then p2 else 0 : Cmd }.onRing
    (if kind = .crun then none else ((s.asActive d ctx).ringAt d G.gid (BufRec.of buf).bound).map (·.2))
    (if kind = .crun then none else G.reserved (xs.headD 0) (BufRec.of buf).bound)
/-- A reserved field of a carder entry. -/
def entryBad (bs : List Byte) : Bool := decide (3 < fieldAt bs 1 1) || fieldAt bs 0x29 7 != 0 || fieldAt bs 0x38 8 != 0

/-- Gives fresh ids to rebuilt work. -/
def State.fresh (s : State) (n : Nat) : State := { s with nextId := s.nextId + n }

/-- Installs `n` entries, and the header, into a carder. Between the carders of a quad the commands count as queued in the order of the EQWR words, which
are all that tells of an order (R81; DESIGN CHOICE, log 45). The carder's PC is installed as the image has it, also one that is not 4-byte aligned (R17;
DESIGN CHOICE, log 34). -/
def State.installCarder (s : State) (d : DieId) (i n : Nat) : Option State :=
  let at_ := fun (o len : Nat) => (s.die d).sv.shared.readN (imageAt + o) len
  let hd := at_ 0 512
  let es := (List.range n).map fun e => at_ (512 + 384 * e) 384
  let c := s.carderOf d i
  if 16 < n ∨ !c.queue.isEmpty ∨ (hd.drop 0x124).any (· ≠ 0) ∨ es.any entryBad then none
  else
    let f := fieldAt hd
    let (p0, p1, p2) := (f 0x108 8, f 0x110 8, f 0x118 8)
    let queue := (List.range n).map fun e => { Cmd.ofEntry s d (es.getD e []) p0 p1 p2 with id := s.nextId + e }
    let crun := queue.any fun q => q.started && q.kind == .crun
    let regs : Vector DWord 32 := (List.range 32).foldl (fun v r => vput v r (BitVec.ofNat 64 (f (8 * r) 8))) (Vector.replicate 32 0)
    some ((s.modCarder d i fun _ => { c := regs, ctl := { pc := BitVec.ofNat 64 (f 0x100 8) }, p0 := if crun then p0 else 0, p1 := if crun then p1 else 0,
                                      p2 := if crun then p2 else 0, queue := queue }).fresh n)

def tileKindOf (n : Nat) : TileKind :=
  match n with
  | 0 => .tmma | 1 => .tmmai | 2 => .tld | 3 => .tst | 4 => .tdrain | 5 => .tdred | 6 => .trowrd | 7 => .trowwr | 8 => .tscale | _ => .tzero
/-- A tile word from its entry: its conversion's format, rounding and saturation are those of its slot (log 19). -/
def TileCmd.ofEntry (s : State) (d : DieId) (core : Nat) (bs : List Byte) : TileCmd :=
  let f := fieldAt bs
  let kind := tileKindOf (f 0 1)
  let t := f 2 2
  let lanes : Word := BitVec.ofNat 32 (f 0x18 4)
  let base := f 0x20 8
  let G := s.imageGroup d (BitVec.ofNat 12 (f 6 2)) (BitVec.ofNat 32 (f 0x1C 4))
  let cslot := (t >>> 12) % 8
  let F := G.fmtSlot cslot
  let conv := (f 1 1).testBit 2
  let sd : Word := BitVec.ofNat 32 (f 0x28 4)
  let m : Mode := if conv then F.mode else .rne
  { id := 0, core := core, kind := kind, acc := (f 1 1).testBit 0, tr := (f 1 1).testBit 1, conv := conv, td := t % 16, ta := (t >>> 4) % 16,
    tb := (t >>> 8) % 16, cslot := cslot, ofmt := if conv then F.fmt else (Shape.of sd).fmt, fa := f 4 1 % 8, fb := (f 4 1 >>> 3) % 8,
    sa := (f 4 1).testBit 6, sb := (f 4 1).testBit 7, ctx := BitVec.ofNat 12 (f 6 2), pc := BitVec.ofNat 64 (f 8 8), prog := f 0x10 8, lanes := lanes,
    gid := G.gid, number := G.number, base := base, xs := ((List.range 32).filter lanes.getLsbD).map (base + ·), sd := sd,
    sha := BitVec.ofNat 32 (f 0x2C 4), shb := BitVec.ofNat 32 (f 0x30 4), off := BitVec.ofNat 32 (f 0x34 4), handle := BitVec.ofNat 32 (f 0x38 4),
    buf := BitVec.ofNat 256 (f 0x40 32), gaL := lanesOf bs 0x80, gbL := lanesOf bs 0x100, gd := (t >>> 4) % 64, round := m.hint, sat := conv && F.sat,
    sr := m.stochastic, seed := m.seed }
/-- A reserved field of a tile entry. -/
def tileEntryBad (bs : List Byte) : Bool :=
  decide (7 < fieldAt bs 1 1) || (fieldAt bs 2 2).testBit 15 || fieldAt bs 5 1 != 0 || fieldAt bs 0x3C 4 != 0 || fieldAt bs 0x60 32 != 0

/-- A rebuilt TROWRD answers the window of the word that EQRD removed. -/
def Ctl.rewire (c : Ctl) (gone : Nat → Bool) (g id : Nat) : Ctl :=
  { c with windows := c.windows.map fun w => match w.tok with
      | some t => if gone t && w.regs.contains (.g g) then { w with tok := some id } else w
      | none => w }
def State.rewire (s : State) (d : DieId) (q : TileCmd) : State :=
  if q.kind != .trowrd then s
  else s.modGroup d q.gid fun G => G.modLanes q.xs fun l => { l with ctl := l.ctl.rewire (s.unanswered d) q.gd q.id }

def State.installTile (s : State) (d : DieId) (core n : Nat) : Option State :=
  let es := (List.range n).map fun e => (s.die d).sv.shared.readN (imageAt + 384 * e) 384
  if 8 < n ∨ !(s.tileQueue d core).isEmpty ∨ es.any tileEntryBad then none
  else
    let qs := (List.range n).map fun e => { TileCmd.ofEntry s d core (es.getD e []) with id := s.nextId + e }
    let t := qs.foldl (fun (t : State) q => t.rewire d q) s
    some ((t.modBank d fun B => { B with tileq := B.tileq ++ qs }).fresh n)

/-- The resident queue of the active context that EQWR of the sync engine writes back. -/
def State.eqwrQueue (s : State) (d : DieId) (v : Word) : Option RQueue :=
  if v.getLsbD 31 && field v 30 12 == 0 then (s.die d).queues.find? fun q => q.is (s.partOf d) (s.die d).active.ctx (field v 11 0) else none
/-- EQWR of the sync engine: abandons sessions (R232), or writes a queue back. -/
def State.syncCommand (s : State) (d : DieId) (v : Word) : Option State :=
  let B := (s.die d).active
  if v = 0 then some s
  else if v = 1 then
    let ids := B.sessionIds
    let gone := fun (x : Session) => x.ctx == B.ctx && ids.any fun i => i.1 == x.sid && i.2.1 == x.scope && i.2.2 == x.inst
    let here := fun (x : Session) (j : SJoin) => SJoin.here x j && j.part == s.partOf d
    let s := (B.handles.filter fun h => h.remote && !h.ended).foldl (fun (s : State) h => (s.toHome d h.pc h (.gone (s.joinOf d h))).handleOver (s.joinOf d h)) s
    let coming := s.smsgs.filterMap fun m => match m with | .join x => some x | _ => none
    some (((s.sessions ++ coming).filter fun x => x.result.isNone && gone x).foldl (fun (s : State) x => s.abandon x (here x)) s)
  else if v.getLsbD 31 && field v 30 12 == 0 then
    some (match s.eqwrQueue d v with | some q => s.queueBack q | none => s)
  else none

/-- EQWR (R332). The write-back of a queue stalls while its ring, head area or descriptor moves (R54). -/
def eqwrBody (cls : BitVec 4) (inst : BitVec 8) (v : DWord) (w : Who) (s : State) : Eff :=
  let P := s.part (s.partOf w.d)
  let i := inst.toNat
  let ready := P.halt && P.complete
  if ready && decide (1 < cls.toNat) && (s.eqwrQueue w.d v.lo).any s.ringStalled then .hold s .held
  else
  let r := if !ready then none
    else match cls.toNat with
      | 0 => s.installCarder w.d i v.toNat
      | 1 => if (s.die w.d).cores.contains i then s.installTile w.d i v.toNat else none
      | _ => s.syncCommand w.d v.lo
  match r with
  | none => kfault w Cause.baruse 0
  | some s => .ok s none
def execEqwr (cls : BitVec 4) (inst : BitVec 8) (a : Reg) : State → Res := waveWord (.eqwr cls inst a) (withSource 1 a (eqwrBody cls inst))

/-! ## ICINV (R351) -/

/-- Discards the lines of a 4 KiB block, and every instruction buffer, on one die. -/
def Die.discard (D : Die) (block : Nat) : Die := { D with icache := D.icache.filter fun e => e.agent.isNone && e.line / 32 != block }
/-- ICINV: held until the writes before it are performed. -/
def icinvBody (v : DWord) (w : Who) (s : State) : Eff :=
  if field v 63 44 ≠ 0 then kfault w Cause.prot 0
  else if !(s.fullReady w.d w.gid w.xs) || s.reqs.any (fun r => r.die == w.d && r.gid == w.gid && r.reply.isNone) then .hold s .held
  else .ok (allDies.foldl (fun (s : State) d => s.modDie d (·.discard (v.toNat / 4096))) s) none
def execIcinv (a : Reg) : State → Res := waveWord (.icinv a) (withSource 2 a icinvBody)

end Sys2Proof.Machine
end

