-- ==== Sys2Proof/Machine/Loader.lean ====
section
/-! DEFINITION. The loader engine (R337 to R346, R351) and the blocking translator's publications (R349). -/
namespace Sys2Proof.Machine

/-! ## Reads of the loader (R310) -/

/-- A line in error among the bytes at a device address. -/
def State.badIn (s : State) (da n : Nat) : Option Nat := s.badLines.find? fun l => decide (da < 64 * l + 64 ∧ 64 * l < da + n)
/-- The loader meets an uncorrectable error: it halts the partition that it works for; the record is the sync engine's of its lowest die, with
PC 0, as no word of the partition asks (R310, log 22). -/
def State.loaderEcc (s : State) (p : PartId) (fa : Nat) : State :=
  match s.diesOf p with
  | [] => s
  | d :: _ => s.raiseFault { die := d, slot := 248, clock := s.clock, form := {},
                             stop := { cause := Cause.ecc, cls := 2, ctx := (s.die d).active.ctx, faddr := BitVec.ofNat 64 fa } }

/-! ## The loader's translation (R40, R342) -/

/-- The bank of a context on a die, active or shadow. -/
def Die.bankOf (D : Die) (c : Ctx) : Option Bank :=
  if D.active.ctx = c then some D.active else if D.shState = 1 ∧ D.shadow.ctx = c then some D.shadow else none
/-- The tables of a context on the dies of the partition that hold it, each pair once: range table and root table (R45). -/
def State.loaderTables (s : State) (p : PartId) (c : Ctx) : List (Nat × Nat) :=
  ((s.diesOf p).filterMap fun d => ((s.die d).bankOf c).map fun B => (B.rtab.toNat, B.ptroot.toNat)).eraseDups
/-- The device address of a virtual one by one die's tables: U is ignored and W is not required. -/
def State.tableVa (s : State) (va : Nat) (t : Nat × Nat) : Acc Nat :=
  if va >>> 57 ≠ 0 then .fault Cause.page (BitVec.ofNat 64 va)
  else match (match rangeLookup s.tableBad s.mem t.1 va 64 0 with | some r => r | none => walk s.tableBad s.mem (Config.pageEntry s.seq) va 4 t.2) with
    | .ok (da, _) => if da < 2 ^ 44 && s.poolOk da then .ok da else .fault Cause.prot (BitVec.ofNat 64 va)
    | .fault c fa => .fault c fa
/-- The device addresses of a virtual one, by the tables of every die. -/
def State.throughAll (s : State) (va : Nat) : List (Nat × Nat) → Acc (List Nat)
  | [] => .ok []
  | t :: ts => match s.tableVa va t with
    | .fault c fa => .fault c fa
    | .ok da => match s.throughAll va ts with
      | .ok das => .ok (if das.contains da then das else da :: das)
      | .fault c fa => .fault c fa
/-- The same for a context; one that no die holds has no tables. -/
def State.loaderVa (s : State) (p : PartId) (c : Ctx) (va : Nat) : Acc (List Nat) :=
  match s.loaderTables p c with
  | [] => .fault Cause.page (BitVec.ofNat 64 va)
  | ts => s.throughAll va ts
/-- Writes bytes page by page; where a page faults, the bytes before it stay, and the answer is false. -/
def State.loaderPages (s : State) (p : PartId) (c : Ctx) (va : Nat) (bs : List Byte) : List Nat → Bool × State
  | [] => (true, s)
  | a :: as => match s.loaderVa p c a with
    | .fault e fa => (false, if e = Cause.ecc then s.loaderEcc p fa.toNat else s)
    | .ok das =>
      (das.foldl (fun (s : State) da => s.writeDa da ((bs.drop (a - va)).take (4096 - a % 4096))) s).loaderPages p c va bs as
def State.loaderWrite (s : State) (p : PartId) (c : Ctx) (va : Nat) (bs : List Byte) : Bool × State :=
  s.loaderPages p c va bs (pagesOf va bs.length)

/-! ## The entries that map an address -/

/-- A range entry or a leaf: the device address of its permission bits, and the virtual addresses it maps. -/
structure MapEntry where
  flags : Nat
  lo    : Nat
  hi    : Nat
  deriving DecidableEq, Repr

def rangeEntry (m : Mem) (tab va : Nat) : (fuel i : Nat) → Option MapEntry
  | 0, _ => none
  | fuel + 1, i =>
    let a := tab + 32 * i
    let base := vpn (m.get a 8)
    let limit := vpn (m.get (a + 8) 8)
    if m.get (a + 24) 8 % 2 = 1 ∧ base ≤ vpn va ∧ (vpn va < limit ∨ limit ≤ base) then some ⟨a + 24, base * 4096, limit * 4096⟩
    else rangeEntry m tab va fuel (i + 1)
def leafEntry (m : Mem) (va : Nat) : (level table : Nat) → Option MapEntry
  | 0, _ => none
  | l + 1, table =>
    let shift := 12 + 9 * l
    let at_ := table + 8 * (if l = 3 then (va >>> 39) % 2 ^ 18 else (va >>> shift) % 512)
    let e := m.get at_ 8
    if e % 2 = 0 then none
    else if e.testBit 5 then
      let size := if l = 0 ∧ e.testBit 6 then 2 ^ 16 else 2 ^ shift
      some ⟨at_, va / size * size, va / size * size + size⟩
    else leafEntry m va l (((e >>> 12) % 2 ^ 32) * 4096)
/-- The entry that translation of an address uses by one die's tables (R46). -/
def State.mapEntry (s : State) (va : Nat) (t : Nat × Nat) : Option MapEntry :=
  match rangeEntry s.mem t.1 va 64 0 with
  | some e => some e
  | none => leafEntry s.mem va 4 t.2
/-- X := 1, W := 0 in an entry (R342). -/
def State.setX (s : State) (e : MapEntry) : State := s.writeDa e.flags [(s.mem.read e.flags ||| 0x08) &&& ~~~0x04]
/-- X on the pages of a range, in the entries of every die's tables. -/
def State.makeExecutable (s : State) (p : PartId) (c : Ctx) (va n : Nat) : State :=
  (s.loaderTables p c).foldl (fun (s : State) t => (pagesOf va n).foldl (fun (s : State) a => match s.mapEntry a t with
    | some e => s.setX e
    | none => s) s) s
/-- Entries of its own, in every die's tables: they map the range and no byte outside it but what fills its last page (R342, log 22). -/
def State.ownEntries (s : State) (p : PartId) (c : Ctx) (va n : Nat) : Bool :=
  (s.loaderTables p c).all fun t => (pagesOf va n).all fun a => match s.mapEntry a t with
    | some e => decide (va ≤ e.lo ∧ e.hi ≤ (va + n + 4095) / 4096 * 4096)
    | none => false
/-- No access of the context that has been translated is still to be performed (R51, R301). -/
def State.quiet (s : State) (p : PartId) (c : Ctx) : Bool :=
  (s.reqs.all fun r => !(r.part == p && r.ctx == c && r.width != 0) || r.reply.isSome) &&
    (s.diesOf p).all fun d => (s.banksOn d).all fun B => B.ctx != c || B.groups.all (·.glds.isEmpty)
/-- The order of TFENCE.pkg after writes of a context's entries (R301). -/
def State.fenceContext (s : State) (p : PartId) (c : Ctx) : State :=
  let s := (s.diesOf p).foldl (fun (s : State) d => s.modDie d fun D => { D with tlb := D.tlb.filter (·.ctx != c) }) s
  (allDies.flatMap fun d => (s.die d).queues.filter fun q => q.ctx == c && q.part == p).foldl State.queueBack s
/-- The discard of placed pages, with every instruction buffer, on the dies of the partition. -/
def State.discardPages (s : State) (p : PartId) (c : Ctx) (va n : Nat) : State :=
  let das := (pagesOf va n).flatMap fun a => match s.loaderVa p c a with
    | .ok l => l
    | .fault .. => []
  (s.diesOf p).foldl (fun (s : State) d => s.modDie d fun D => das.foldl (fun D da => D.discard (da / 4096)) D) s

/-! ## Containers (R337, R338) -/

structure Segment where
  kind    : Nat
  key     : Nat
  devhash : Nat
  off     : Nat
  len     : Nat
  va      : Nat
  meas    : List Byte
  sig     : List Byte
  /-- the descriptor bytes that are signed and measured with the contents -/
  head    : List Byte
  /-- every condition of R338 on the descriptor alone -/
  ok      : Bool

def Segment.of (bs : List Byte) : Segment :=
  let f := fieldAt bs
  let code := f 0 1 = 0 ∨ f 0 1 = 1 ∨ f 0 1 = 4
  { kind := f 0 1, key := f 1 1, devhash := f 8 8, off := f 0x10 8, len := f 0x18 8, va := f 0x20 8, meas := (bs.drop 0x28).take 64,
    sig := (bs.drop 0x68).take 114, head := bs.take 0x28,
    ok := decide (f 0 1 ≤ 4 ∧ f 1 1 ≤ 15 ∧ f 2 1 = (if f 0 1 = 1 then 1 else 0) ∧ f 3 5 = 0 ∧ (f 0 1 = 0 ∨ f 8 8 = 0) ∧ f 0x10 8 % 4096 = 0 ∧
      (code → f 0x18 8 % 4 = 0) ∧ f 0x20 8 % 4096 = 0 ∧ f 0xDA 38 = 0) }

/-- Where a container can lie: aligned, and in the pools (R42, R337). -/
def State.placed (s : State) (src len : Nat) : Bool := src % 4096 == 0 && decide (128 ≤ len) && s.poolOk src && s.poolOk (src + len - 1)
/-- The number of segments that a sound header gives (R337). -/
def headerSegments (head : List Byte) (len : Nat) : Option Nat :=
  let f := fieldAt head
  let n := f 6 2
  if f 0 4 ≠ 0x4C534147 ∨ f 4 2 ≠ 1 ∨ n = 0 ∨ 64 < n ∨ f 8 8 ≠ len ∨ f 0x10 112 ≠ 0 ∨ len < 0x80 + 256 * n then none else some n
/-- The descriptors, if every one is sound (R338). -/
def State.segments (s : State) (src len n : Nat) : Option (List Segment) :=
  let gs := (List.range n).map fun i => Segment.of (s.mem.readN (src + 0x80 + 256 * i) 256)
  if gs.all fun g => g.ok && decide (g.off + g.len ≤ len) then some gs else none
/-- What the loader reads of the container at `src`. -/
inductive Container where
  /-- status 1 -/
  | bad
  /-- a line in error (R310) -/
  | lost (line : Nat)
  | sound (gs : List Segment)
def State.container (s : State) (src len : Nat) : Container :=
  if !s.placed src len then .bad
  else match s.badIn src 128 with
    | some l => .lost l
    | none => match headerSegments (s.mem.readN src 128) len with
      | none => .bad
      | some n => match s.badIn (src + 0x80) (256 * n) with
        | some l => .lost l
        | none => match s.segments src len n with
          | none => .bad
          | some gs => match gs.findSome? fun g => s.badIn (src + g.off) g.len with
            | some l => .lost l
            | none => .sound gs
/-- The contents of a segment. -/
def State.contents (s : State) (src : Nat) (g : Segment) : List Byte := s.mem.readN (src + g.off) g.len

/-! ## Measurements (R339, R344) -/

def keyBytes (k : KeySlot) : List Byte := bytesOf 57 k.key.toNat
/-- Status 2, 3 or 4 of a segment, if it fails. -/
def State.segmentFails (s : State) (p : PartId) (src : Nat) (g : Segment) : Option Nat :=
  let k := vget s.keys g.key {}
  let t := g.head ++ s.contents src g
  if !k.enabled || !(s.part p).keymask.getLsbD g.key then some 2
  else if !ed448Verify true (keyBytes k) t g.sig then some 3
  else if shake256 (t ++ keyBytes k) 64 ≠ g.meas then some 4
  else none
/-- Extend(m, k, v). -/
def State.extendAtt (s : State) (p : PartId) (m : List Byte) (k : Byte) (v : Nat) : State :=
  s.modPart p fun P =>
    { P with attValue := BitVec.ofNat 512 (ofBytes (shake256 (bytesOf 64 P.attValue.toNat ++ m ++ [k] ++ bytesOf 8 v) 64)), attCount := P.attCount + 1 }
/-- The attestation record of a partition, 80 bytes. -/
def State.attRecord (s : State) (p : PartId) : List Byte :=
  bytesOf 64 (s.part p).attValue.toNat ++ bytesOf 4 (s.part p).attCount.toNat ++ [BitVec.ofNat 8 p.val] ++ List.replicate 11 0

/-! ## LOAD (R342, R345, R346) -/

/-- The bodies of a container that this device can run: native, Silol, entry map; and the mode, if there is one. -/
structure Bodies where
  native : Option Segment
  silol  : Option Segment
  emap   : Option Segment
  mode   : Option Nat

def bodiesOf (gs : List Segment) : Bodies :=
  let native := gs.find? fun g => g.kind == 0 && g.devhash == deviceHash.toNat
  let silol := gs.find? (·.kind == 1)
  let emap := gs.find? (·.kind == 4)
  { native := native, silol := silol, emap := emap,
    mode := if native.isSome && (silol.isNone || emap.isSome) then some 0 else if silol.isSome then some 1 else none }

/-- The code object descriptor, 64 bytes; a native body that MODE 1 never runs is not named. -/
def Bodies.descriptor (b : Bodies) (mode : Nat) : List Byte :=
  let at_ := fun (o : Option Segment) => match o with
    | some g => word64 g.va ++ word64 g.len
    | none => zeros 16
  (if mode = 0 then at_ b.native else zeros 16) ++ at_ b.silol ++ word64 ((b.emap.map (·.va)).getD 0) ++ word32 ((b.emap.map (·.len / 8)).getD 0) ++
    [BitVec.ofNat 8 mode] ++ zeros 19
/-- A code segment: native stamped for this device, or Silol. -/
def Segment.code (g : Segment) : Bool := (g.kind == 0 && g.devhash == deviceHash.toNat) || g.kind == 1

/-- Changes a context's bank on every die of the partition that holds it. -/
def State.modContext (s : State) (p : PartId) (c : Ctx) (f : Bank → Bank) : State :=
  (s.diesOf p).foldl (fun (s : State) d => s.modDie d fun D =>
    if D.active.ctx = c then { D with active := f D.active } else if D.shState = 1 ∧ D.shadow.ctx = c then { D with shadow := f D.shadow } else D) s
/-- A portable range on each die (R348): a context has sixteen, the newest ones (log 22). -/
def State.addPortable (s : State) (p : PartId) (c : Ctx) (g : Segment) : State :=
  s.modContext p c fun B => { B with portable := (⟨BitVec.ofNat 64 g.va, g.len⟩ :: B.portable).take 16 }

/-- Copies the contents of the segments to their addresses; false where a page faults. -/
def State.placeAll (s : State) (p : PartId) (c : Ctx) (src : Nat) : List Segment → Bool × State
  | [] => (true, s)
  | g :: gs => match s.loaderWrite p c g.va (s.contents src g) with
    | (true, s) => s.placeAll p c src gs
    | (false, s) => (false, s)

/-- What a sound and verified load does once its contents are in place: the measurements, X, and the discards. -/
def State.commitLoad (s : State) (p : PartId) (c : Ctx) (gs : List Segment) : State :=
  let s := gs.foldl (fun (s : State) g => s.extendAtt p g.meas (BitVec.ofNat 8 g.kind) g.va) s
  let s := (gs.filter Segment.code).foldl (fun (s : State) g => s.makeExecutable p c g.va g.len) s
  let s := s.fenceContext p c
  gs.foldl (fun (s : State) g => s.discardPages p c g.va g.len) s

/-! ### The translation area (R348, R349) -/

/-- The native copies of a body's carder programs: the offset in the body of each word that a carder may run, its place inside the area, of which no two
share one, and the word (log 23). -/
def State.carderCopies (s : State) (size : Nat) (bs : List Byte) : List (Nat × Nat × List Byte) :=
  (List.range (bs.length / 4)).foldl (fun out i =>
    let w := (bs.drop (4 * i)).take 4
    match Config.carderPlace s.seq (4 * i), decode (BitVec.ofNat 32 (ofBytes w)) with
    | some o, .ok ins => if ins.carderOk && o % 4 == 0 && decide (o + 4 ≤ size) && out.all (·.2.1 != o) then out ++ [(4 * i, o, w)] else out
    | _, _ => out) []
/-- Writes the copies; false where a page faults. -/
def State.copyCarder (s : State) (p : PartId) (c : Ctx) (area : Nat) : List (Nat × Nat × List Byte) → Bool × State
  | [] => (true, s)
  | e :: es => match s.loaderWrite p c (area + e.2.1) e.2.2 with
    | (true, s) => s.copyCarder p c area es
    | (false, s) => (false, s)
/-- The area that a command gives a portable body: one that runs in MODE 1, with a TAREA; it holds the copies of its carder programs. -/
def State.areaOf (s : State) (q : LoaderCmd) (src mode : Nat) (b : Bodies) : Option TransArea :=
  match b.silol with
  | some g => if mode = 1 ∧ q.tarea ≠ 0 then
      some { base := BitVec.ofNat 64 g.va, size := g.len, meas := BitVec.ofNat 512 (ofBytes g.meas), area := q.tarea, bytes := q.tsize.toNat,
             copies := (s.carderCopies q.tsize.toNat (s.contents src g)).map fun e => (e.1, e.2.1) } else none
  | none => none
/-- The checked copy of LOAD into TAREA (R348). -/
def State.fillArea (s : State) (p : PartId) (c : Ctx) (src : Nat) (b : Bodies) (a : Option TransArea) : Bool × State :=
  match a, b.silol with
  | some a, some g => s.copyCarder p c a.area.toNat (s.carderCopies a.bytes (s.contents src g))
  | _, _ => (true, s)
/-- The addresses of the copies. -/
def TransArea.words (a : TransArea) : List Nat := a.copies.map fun e => a.area.toNat + e.2
/-- The area of a load that succeeds: X on the pages of the copies, and the discards, as for a code segment. -/
def State.addArea (s : State) (p : PartId) (c : Ctx) (a : Option TransArea) : State :=
  match a with
  | some a =>
    let s := a.words.foldl (fun (s : State) va => s.makeExecutable p c va 4) s
    let s := a.words.foldl (fun (s : State) va => s.discardPages p c va 4) s
    s.modContext p c fun B => { B with areas := a :: B.areas.filter (·.base != a.base) }
  | none => s

/-! ### The command -/

/-- A sound container whose segments verify: its bodies are placed, and one of them is picked. -/
def State.loadSegments (s : State) (p : PartId) (q : LoaderCmd) (gs : List Segment) : Nat × State :=
  let c : Ctx := q.ctx.setWidth 12
  let src := q.src.toNat
  match s.placeAll p c src gs with
  | (false, s) => (5, s)
  | (true, s) =>
    let b := bodiesOf gs
    match b.mode with
    | none => (6, s)
    | some mode =>
      let a := s.areaOf q src mode b
      if q.desc.toNat % 64 ≠ 0 then (5, s)
      else match s.loaderWrite p c q.desc.toNat (b.descriptor mode) with
        | (false, s) => (5, s)
        | (true, s) => match s.fillArea p c src b a with
          | (false, s) => (5, s)
          | (true, s) =>
            if !(gs.filter Segment.code).all fun g => s.ownEntries p c g.va g.len then (5, s)
            else
              let s := (s.addArea p c a).commitLoad p c gs
              (0, match b.silol with
                | some g => s.addPortable p c g
                | none => s)
/-- LOAD: its status, and the state it leaves. -/
def State.loadContainer (s : State) (p : PartId) (q : LoaderCmd) : Nat × State :=
  match s.container q.src.toNat q.len.toNat with
  | .bad => (1, s)
  | .lost l => (5, s.loaderEcc p (64 * l))
  | .sound gs => match gs.findSome? (s.segmentFails p q.src.toNat) with
    | some code => (code, s)
    | none => if 2 ^ 12 ≤ q.ctx.toNat then (5, s) else s.loadSegments p q gs

/-! ## Commands (R341) -/

/-- The fields of a command's 64 bytes. -/
def LoaderCmd.of (bs : List Byte) : LoaderCmd :=
  let f := fun (o n w : Nat) => BitVec.ofNat w (fieldAt bs o n)
  { opc := f 0 1 8, part := f 1 1 8, ctx := f 2 2 16, resv0 := f 4 4 32, src := f 8 8 64, len := f 0x10 8 64, desc := f 0x18 8 64,
    tarea := f 0x20 8 64, tsize := f 0x28 8 64, status := f 0x30 8 64, dies := f 0x38 1 8, resv1 := f 0x39 7 56 }
/-- Where the ring holds the next command. -/
def State.slotAt (s : State) : Nat := s.ringBase.toNat + 64 * s.ringHead
/-- The ring's next slot; how many it has is the part's (log 22). -/
def State.nextSlot (s : State) : State := { s with ringHead := if s.ringHead + 1 = Config.ringSlots then 0 else s.ringHead + 1 }
/-- The loader meets a device address in no pool for a partition's command: PROT, in the record of the sync engine of its lowest die (R42, log 22). -/
def State.loaderProt (s : State) (p : PartId) (da : Nat) : State :=
  match s.diesOf p with
  | [] => s
  | d :: _ => s.raiseFault { die := d, slot := 248, clock := s.clock, form := {},
                             stop := { cause := Cause.prot, cls := 2, ctx := (s.die d).active.ctx, faddr := BitVec.ofNat 64 da } }
/-- The status word, written through the sync engine as a release; an address outside the pools, or in the CXL tier, raises PROT (R42, R43), and one that is
not aligned is not written (log 22). -/
def State.loaderStatus (s : State) (q : LoaderCmd) (p : PartId) (code : Nat) : State :=
  let a := q.status.toNat
  if !s.poolOk a || poolOf a ≠ 0 then s.loaderProt p a
  else if a % 8 ≠ 0 then s
  else (s.writeDa a (bytesOf 8 code)).modDie (s.homeOf a) fun D => { D with held := touchLine (a / 64) p D.held }
/-- A reserved field is not zero, or a partition does not exist: status 0xFF. -/
def commandBad (q : LoaderCmd) : Bool := q.resv0 != 0 || q.resv1 != 0 || (q.opc != 2 && (q.dies != 0 || decide (8 ≤ q.part.toNat)))
def commandPart (q : LoaderCmd) : PartId := ⟨q.part.toNat % 8, Nat.mod_lt _ (by decide)⟩
/-- The command at the head of the ring, if it can be read. -/
def State.ringCommand (s : State) : Option LoaderCmd :=
  if !s.poolOk s.slotAt || (s.badIn s.slotAt 64).isSome then none else some (LoaderCmd.of (s.mem.readN s.slotAt 64))
/-- A LOAD orders its writes of table entries as TFENCE.pkg does: what its context has translated is performed first (R51, R342). -/
def State.commandWaits (s : State) : Bool :=
  match s.ringCommand with
  | some q => q.opc == 1 && !commandBad q && !s.quiet (commandPart q) (q.ctx.setWidth 12)
  | none => false
/-- The ring's next command (R341): with READY low none is performed; as every access of a frame, it waits while one is on the move (R54); a slot in no
pool, or with a line in error, gives no command, as it names no partition that could take the fault (log 22). -/
def withCommand (s : State) (f : LoaderCmd → State → Nat × State) : Res :=
  match s.inbox with
  | .loader :: rest =>
    if !s.ready then .next { s with inbox := rest }
    else if !s.moving.isEmpty || s.commandWaits then .next s
    else
      let t := { s.nextSlot with inbox := rest }
      match s.ringCommand with
      | none => .next t
      | some q =>
        let r := if commandBad q then (0xFF, t) else f q t
        .next (r.2.loaderStatus q (commandPart q) r.1)
  | _ => .next s

def execLoaderLoad (s : State) : Res := withCommand s fun q s => s.loadContainer (commandPart q) q
/-- ICINV: each 4 KiB block from SRC to SRC + LEN − 1, on the dies of the mask. -/
def execLoaderIcinv (s : State) : Res :=
  withCommand s fun q s =>
    let lo := q.src.toNat
    let keep := fun (e : ILine) => e.agent.isNone && !decide (lo / 4096 ≤ e.line / 32 ∧ e.line / 32 * 4096 < lo + q.len.toNat)
    (0, (allDies.filter fun d => q.dies.getLsbD d.val).foldl (fun (s : State) d => s.modDie d fun D => { D with icache := D.icache.filter keep }) s)
/-- READATT: the record to SRC; an address in no pool answers status 5, a placement that faulted (R42, R343, log 22). -/
def execLoaderReadatt (s : State) : Res :=
  withCommand s fun q s =>
    let a := q.src.toNat
    if s.poolOk a && s.poolOk (a + 79) then (0, s.writeDa a (s.attRecord (commandPart q))) else (5, s)
def execLoaderInvalidCommand (s : State) : Res := withCommand s fun _ s => (0xFF, s)

/-! ## Publications (R349) -/

/-- The translation area of a context that holds an address range, on one of the dies of its partition. -/
def State.areaAt (s : State) (p : PartId) (c : Ctx) (va n : Nat) : Option TransArea :=
  (s.diesOf p).findSome? fun d => ((s.die d).bankOf c).bind fun B =>
    B.areas.find? fun a => decide (a.area.toNat ≤ va ∧ va + n ≤ a.area.toNat + a.bytes)
/-- A pair of the safe-point map: an address of the Silol body and one of its translation area. -/
def TransArea.pairs (a : TransArea) (e : DWord × DWord) : Bool :=
  decide (a.base.toNat ≤ e.1.toNat ∧ e.1.toNat < a.base.toNat + a.size ∧ a.area.toNat ≤ e.2.toNat ∧ e.2.toNat < a.area.toNat + a.bytes)
/-- TRANSLATION_PUBLISH: the native words, the discard, the extension and X, then the safe-point entries; one that faults, or that lies in no
area which a LOAD in MODE 1 gave (R349), publishes nothing. -/
def State.publish (s : State) (q : Publication) : State :=
  let bytes := q.words.flatMap fun w => bytesOf 4 w.toNat
  let va := q.addr.toNat
  match s.areaAt q.part q.ctx va bytes.length with
  | none => s
  | some a =>
    if !q.pairs.all a.pairs then s
    else match s.loaderWrite q.part q.ctx va bytes with
      | (false, s) => s
      | (true, s) =>
        let s := s.discardPages q.part q.ctx va bytes.length
        let s := s.extendAtt q.part (shake256 (bytes ++ bytesOf 64 a.meas.toNat) 64) 0x80 va
        let s := (s.makeExecutable q.part q.ctx va bytes.length).fenceContext q.part q.ctx
        s.modContext q.part q.ctx fun B => { B with safe := B.safe ++ q.pairs.map fun e => ⟨e.1, e.2⟩ }
def execTranslationPublish (s : State) : Res :=
  match s.inbox with
  | .publish q :: rest =>
    if !s.ready then .next { s with inbox := rest }
    else if !s.moving.isEmpty || !s.quiet q.part q.ctx then .next s
    else .next ({ s with inbox := rest }.publish q)
  | _ => .next s

/-- Inputs that wait: something else moves first. While bring-up runs only a time-out or a reset comes in; a loader command and a publication wait for
frames on the move and for what their context has translated. -/
def State.inputWaits (s : State) (i : Input) : Bool :=
  match i with
  | .bringup _ | .timeout .. => false
  | .loader => s.boot.isSome || (s.ready && (!s.moving.isEmpty || s.commandWaits))
  | .publish q => s.boot.isSome || (s.ready && (!s.moving.isEmpty || !s.quiet q.part q.ctx))
  | _ => s.boot.isSome

end Sys2Proof.Machine
end

