-- ==== Sys2Proof/Machine/Manage.lean ====
section
/-! DEFINITION. The management block and what happens to the module: bring-up (R324, R361), the partition layout (R9, R12, R363), heat
(R360), links (R220 to R223), failures and spares (R91, R362, R381), memory errors (R310), key slots and reports (R340, R364). -/
namespace Sys2Proof.Machine

/-! ## Layouts (R9, R12, R363) -/

def layoutOf (v : Word) : Vector PartId 8 := ⟨⟨allDies.map fun d => (v.extractLsb' (3 * d.val) 3).toFin⟩, rfl⟩
/-- Every partition is an aligned run of 1, 2, 4 or 8 dies (R9). -/
def layoutOk (l : Vector PartId 8) : Bool :=
  allDies.all fun d =>
    let n := allDies.countP fun e => l.get e == l.get d
    (n == 1 || n == 2 || n == 4 || n == 8) && allDies.all fun e => (l.get e == l.get d) == (e.val / n == d.val / n)
/-- A die is halted, and no tenant's context stands in its banks (R12). -/
def State.dieIdle (s : State) (d : DieId) : Bool :=
  let P := s.part (s.partOf d)
  let D := s.die d
  P.halt && P.complete && D.active.ctx == 0 && (D.shState == 0 || (D.shState == 1 && D.shadow.ctx == 0))
/-- A partition that the supervisor creates: halted as its dies are, migration enabled, its attestation record reset (R54, R344, log 24). -/
def newPart : Part := { halt := true, complete := true }
/-- Accepts a layout: partitions whose dies change are new. -/
def State.setLayout (s : State) (l : Vector PartId 8) : State :=
  let same := fun (p : PartId) => allDies.all fun d => (s.layout.get d == p) == (l.get d == p)
  (allDies.foldl (fun (t : State) p => if same p then t else t.modPart p fun P => { newPart with rose := P.rose }) s) |> fun t => { t with layout := l }
/-- PARTITION_LAYOUT_WRITE: refused with a reserved bit, a partition against R9, or a die that is not idle; the layout then stays. -/
def execPartitionLayoutWrite (s : State) : Res :=
  withInput s fun i s => match i with
    | .layout v => if s.ready && field v 31 24 == 0 && layoutOk (layoutOf v) && allDies.all s.dieIdle then s.setLayout (layoutOf v) else s
    | _ => s

/-! ## Bring-up (R324, R361, R381) -/

/-- The supervisor wave of a die at READY (R314, R324). -/
def bootWave (core : Nat) (pc : DWord) : Group where
  gid := 0
  core := core
  count := 32
  slots := [0]
  alloc := [64]
  size := svSharedSize
  lanes := (List.range 32).map fun x => { x := x, ctl := { pc := pc }, g := Vector.replicate 64 0 }
/-- Physical quads left out: those of failed cores, or the spare, quad 24 (R381). DESIGN CHOICE: where cores of several quads have failed, every one
of them is left out, and the die keeps fewer than 24 quads; the spec has one spare and says nothing of a second failure (log 44). -/
def quadsOut (failed : List Nat) : List Nat := if failed.isEmpty then [24] else (failed.map (· / 4)).eraseDups
/-- What boot firmware writes for a die at step 4; cores that failed in service stay failed (R362, log 44). -/
def bootDie (b : DieBoot) (old : List Nat) : Die :=
  let failed := (b.failed ++ old).eraseDups
  { svboot := b.svboot, trapvec := b.trapvec &&& ~~~(3 : Word), svRtab := b.rtab, svPtroot := b.ptroot, sv := bootWave b.svCore b.svboot, failed := failed,
    retired := quadsOut failed, crowns := (List.range 4).foldl (fun v i => vput v i (b.crowns.getD i 0)) (Vector.replicate 4 0) }
/-- The module as a reset leaves it: what it holds in memory stays until step 3 of bring-up, what has failed stays so (log 44); the inputs and outputs
stay. -/
def State.moduleReset (s : State) : State :=
  { State.reset with podid := s.podid, mem := s.mem, badLines := s.badLines, dies := vmap (fun D => { failed := D.failed }) s.dies, harvested := s.harvested,
                     inbox := s.inbox, out := s.out, seq := s.seq, nextId := s.nextId }
/-- A step of bring-up fails: READY stays low, and the step and a reason are reported. -/
def State.bringupFails (s : State) (step : Nat) (reason : Word) : State :=
  { s with ready := false, bringup := step - 1, boot := none, out := s.out ++ [Out.bringupFailed step reason] }
/-- Step 4: routers, routing tables and crown maps, the home map, and what boot firmware writes for each die. -/
def State.program (s : State) (b : BootImage) : State :=
  { s with harvested := (b.harvested ++ s.harvested).eraseDups, route := b.routes.map (fun r => (r.1, r.2.take 4)),
           dies := (List.range 8).foldl (fun v i => vput v i (bootDie (b.dies.getD i default) (vget s.dies i {}).failed)) (Vector.replicate 8 ({} : Die)) }
/-- The next step of bring-up (R361): 1 measures the firmware, 3 zero-fills HBM4E while the CXL devices keep what they hold (log 25), 4 programs the dies,
5 raises READY. -/
def State.bringupStep (s : State) (b : BootImage) : State :=
  let step := s.bringup + 1
  let ok := { s with bringup := step }
  if step = 5 then { ok with ready := true, boot := none }
  else if (step = 1 && !b.trusted) || (b.fails.any fun i => i.val + 2 == step) then s.bringupFails step (Config.bringupReason s.seq)
  else if step = 1 then { ok with fwMeas := b.measurement }
  else if step = 3 then { ok with mem := s.mem.filter fun c => poolOf c.1 != 0, badLines := s.badLines.filter fun l => poolOf (64 * l) != 0 }
  else if step = 4 then ok.program b
  else ok
/-- POWER_ON_BRINGUP: power-on or a module reset begins it; then each of its steps. -/
def execPowerOnBringup (s : State) : Res :=
  match s.inbox, s.boot with
  | .bringup b :: rest, _ => .next { { s with inbox := rest }.moduleReset with boot := some b }
  | _, some b => .next (s.bringupStep b)
  | _, none => .next s
/-- BRINGUP_TIMEOUT: the budget of the step under way runs out, and the compute dies stay in reset. -/
def execBringupTimeout (s : State) : Res :=
  withInput s fun i s => match i with
    | .timeout step reason =>
      if s.boot.isSome && step == s.bringup + 1 && decide (step ≤ 4) then { s.moduleReset with fwMeas := s.fwMeas }.bringupFails step reason else s
    | _ => s

/-! ## Heat (R360) -/

/-- THERMAL_THROTTLE: issue cycles are withheld, which changes only time; the free choice of what moves next stands for it (log 5). -/
def execThermalThrottle (s : State) : Res :=
  withInput s fun i s => match i with
    | .throttle d => s.modDie d fun D => { D with throttled := true }
    | _ => s
/-- THERMAL_SHUTDOWN: every partition halts with ECC and a record whose PC is 0, and READY drops; the record is no engine's (log 26). -/
def State.shutdown (s : State) : State :=
  let f := fun (d : DieId) => ({ die := d, slot := 255, clock := s.clock, form := {}, stop := { cause := Cause.ecc } } : FaultRec)
  let s := allDies.foldl (fun (s : State) p => match s.diesOf p with
    | [] => s
    | d :: _ => s.raiseFault (f d)) s
  { s with ready := false }
def execThermalShutdown (s : State) : Res :=
  withInput s fun i s => match i with
    | .shutdown => s.shutdown
    | _ => s

/-! ## Links (R220, R221, R223) -/

def State.modLink (s : State) (n : Nat) (f : Link → Link) : State := { s with links := vput s.links n (f (s.link n)) }
/-- LINK_FLIT_ERROR: the flit is dropped, and the link replays. -/
def execLinkFlitError (s : State) : Res :=
  withInput s fun i s => match i with
    | .flitError n => s.modLink n fun l => if l.retired then l else { l with replays := l.replays + 1 }
    | _ => s
/-- LANE_SPARING: a lane's traffic moves to the spare lane. -/
def execLaneSparing (s : State) : Res :=
  withInput s fun i s => match i with
    | .spare n lane => s.modLink n fun l => if l.retired then l else { l with spared := some lane }
    | _ => s
/-- A link is retired: every packet of its replay buffer completes with LINK in its sending partition (R221, R222). -/
def State.retireLink (s : State) (n : Nat) : State :=
  let sent := (s.link n).sent
  sent.foldl (fun (s : State) e => match e.die with | some d => s.linkFault d e.head.ctx e.pc n | none => s) (s.modLink n fun l => { l with retired := true, sent := [] })
/-- HEADER_CRC_FAILURE: a replay; the replayed header's failure retires the link. -/
def execHeaderCrcFailure (s : State) : Res :=
  withInput s fun i s => match i with
    | .headerCrc n replayed =>
      if (s.link n).retired then s else if replayed then s.retireLink n else s.modLink n fun l => { l with replays := l.replays + 1 }
    | _ => s
/-- POD_ROUTE_TABLE_WRITE: up to four ports for a rank. -/
def execPodRouteTableWrite (s : State) : Res :=
  withInput s fun i s => match i with
    | .route rank ports => { s with route := (rank, ports.take 4) :: s.route.filter (·.1 != rank) }
    | _ => s

/-! ## The reset of a partition (R91, R232, R250, R362, R381) -/

/-- The contexts of a die leave it, and the quads of failed cores are retired; the supervisor wave goes on (log 27). -/
def Die.partReset (D : Die) : Die :=
  { D with active := {}, shadow := {}, shState := 0, shOp := none, swapBusy := false, carders := Vector.replicate 48 {},
           sched := Vector.replicate 100 {}, tlb := D.tlb.filter (·.ctx == 0), desc := [], icache := [], scratch := [], scratchLive := [],
           retired := quadsOut D.failed }
/-- The homes on other packages learn that the partition's open handles are gone (R232). -/
def State.tellHomes (s : State) (p : PartId) : State :=
  (s.diesOf p).foldl (fun (s : State) d => (((s.banksOn d).flatMap (·.handles)).filter (·.remote)).foldl (fun (s : State) h =>
    if h.ended then s else s.toHome d h.pc h (.gone (s.joinOf d h))) s) s
/-- The fabric's and the engines' state of a partition is discarded, and the sessions in which it holds an open handle, or which are its own, are
abandoned. -/
def State.resetPartition (s : State) (p : PartId) : State :=
  let mine := fun (x : Session) (j : SJoin) => SJoin.here x j && j.part == p
  let s := s.tellHomes p
  let coming := s.smsgs.filterMap fun m => match m with | .join x => some x | _ => none
  let s := ((s.sessions ++ coming).filter fun x => x.part == p || (x.result.isNone && x.joins.any fun j => mine x j && !j.closed)).foldl (fun (s : State) x =>
    s.abandon x (mine x)) s
  let gone := fun (m : SMsg) => match m with
    | .close _ _ h j => (j.link.isNone && j.part == p) || s.partOf h == p
    | .gone _ => false
    | .result j .. | .refused j | .lost j => j.part == p
    | _ => false
  let s := { s with
    pend := s.pend.filter (·.part != p), stores := s.stores.filter (·.part != p), packets := s.packets.filter (·.part != p),
    reqs := s.reqs.filter (·.part != p), launches := s.launches.filter (·.part != p), sets := s.sets.filter (·.part != p),
    sessions := s.sessions.filter (·.part != p), kept := s.kept.filter (·.j.part != p), smsgs := s.smsgs.filter (!gone ·), issue := [], snap := [] }
  let s := (s.diesOf p).foldl (fun (s : State) d => s.modDie d Die.partReset) s
  allDies.foldl (fun (s : State) d => s.modDie d fun D => { D with queues := D.queues.filter (·.part != p) }) s
/-- The die of the sync engine that a request goes to: that of the resident queue, or of the variable's frame (R53, R283). -/
def State.reqHome (s : State) (r : SyncReq) : DieId :=
  if r.op.queue then (((s.reqHandle r).bind (s.queueOf r.part r.ctx)).map (·.die)).getD r.home else s.homeOf r.addr
/-- A request, or its reply, crosses a router: the leaf of its core, leaf 12 of its home engine and, between two dies, the package's router (R88). Which
middle and crown routers and bridge leaves of the two dies it takes is a free value, as the spec gives atomics no path (log 27). -/
def State.reqCrosses (s : State) (q : SyncReq) (r : Router) : Bool :=
  let home := s.reqHome q
  let on := fun (d : DieId) => d == q.die || d == home
  let may := s.hit (512 * q.id + routerCode r)
  r == s.leafOf q.die q.core || r == .leaf home 12 || match r with
    | .package => q.die != home
    | .leaf d n => q.die != home && on d && (n == 13 || n == 14) && may
    | .middle d _ | .crown d _ => on d && may
/-- The partitions whose traffic crossed a router: the one whose die it stands on, and those with requests, tiles or packets there (log 27). -/
def State.crossing (s : State) (r : Router) : List PartId :=
  let here := match routerDie r with
    | some d => [s.partOf d]
    | none => []
  let path := fun (l : List Port) => l.contains (.router r)
  allDies.filter fun p => here.contains p || s.pend.any (fun e => e.part == p && e.at_ == r) || s.stores.any (fun t => t.part == p && t.at_ == r) ||
    s.packets.any (fun q => q.part == p && (q.at_ == .router r || q.src == .router r || q.via.contains r || path q.path)) ||
    s.reqs.any (fun q => q.part == p && s.reqCrosses q r) || (s.diesOf p).any fun d => (s.die d).active.offers.any fun o => o.open_ && path o.path
/-- ROUTER_FAILURE. -/
def execRouterFailure (s : State) : Res :=
  withInput s fun i s => match i with
    | .routerFails r =>
      if s.harvested.contains r then s else (s.crossing r).foldl State.resetPartition { s with harvested := r :: s.harvested }
    | _ => s
/-- CORE_FAILURE: the quad is marked; it is retired at the next reset of the partition. -/
def execCoreFailure (s : State) : Res :=
  withInput s fun i s => match i with
    | .coreFails d core => if 100 ≤ core then s else s.modDie d fun D => { D with failed := if D.failed.contains core then D.failed else core :: D.failed }
    | _ => s

/-! ## Memory errors (R43, R100, R117, R217, R234, R310) -/

/-- An engine of a die halts its partition with ECC (R310). -/
def State.eccFault (s : State) (d : DieId) (slot : Nat) (stop : StopRec) : State :=
  s.raiseFault { die := d, slot := slot, clock := s.clock, form := {}, stop := { stop with cause := Cause.ecc } }
/-- A line is in error until it is rewritten. -/
def State.markBad (s : State) (da : Nat) : State := { s with badLines := (da / 64) :: s.badLines.filter (· != da / 64) }
/-- The partitions that own state in a variable line of die `d`'s engine: those whose variables it holds there, with a request for it, or with a
queue descriptor in it (R234). -/
def State.lineOwners (s : State) (d : DieId) (da : Nat) : List PartId :=
  let line := da / 64
  allDies.filter fun p => ((s.die d).held.any fun e => e.1 == line && e.2.contains p) ||
    s.reqs.any (fun r => r.part == p && r.width != 0 && r.addr / 64 == line && r.reply.isNone) || (s.die d).queues.any fun q => q.part == p && q.desc / 64 == line
/-- The word whose request for a line comes first (R317). -/
def State.requesting (s : State) (p : PartId) (da : Nat) : DWord :=
  ((s.reqs.find? fun r => r.part == p && r.width != 0 && r.addr / 64 == da / 64 && r.reply.isNone).map (·.pc)).getD 0
/-- The record of such an error is in the context that runs on its die. -/
def State.syncError (s : State) (p : PartId) (d : DieId) (pc line : DWord) : State :=
  s.syncEcc p d (s.die (if s.partOf d == p then d else (s.diesOf p).headD d)).active.ctx pc line
/-- The micro-steps of a division (R354). -/
def divisionSteps : Instr → Nat
  | .idivI32 .. | .idivN32 .. | .iremI32 .. | .iremN32 .. => 9
  | .fdiv .. => 5
  | _ => 0
/-- The threads that issue the next word of index `x`, and that word, where they may issue it. -/
def State.standsAt (s : State) (d : DieId) (gid x : Nat) : Option (Who × Instr) :=
  match s.group d gid with
  | none => none
  | some G =>
    let w := match G.hoods.find? fun h => decide (h.lo ≤ x ∧ x < h.hi) with
      | some h => if h.ctl.ready then s.who (.hood d gid h.lo) else none
      | none => match G.lane x with
        | some l => Who.ofLanes d gid G ((G.issuing (G.pairSlot (G.pos x)) l.ctl.pc).filter fun m => G.pos m.x == G.pos x)
        | none => none
    w.bind fun w => match s.fetch d w.core (gid = 0) w.pc with
      | .word b _ => some ({ w with xs := s.selected w }, decoded (s.isSilol d gid w.pc) b)
      | _ => none
/-- An error in a core's registers stops a division part-way: no register has changed, the record has the word's PC and the micro-step reached, and the
word begins again when the partition goes on (R355). -/
def State.divisionEcc (s : State) (d : DieId) (gid x step : Nat) : State :=
  match s.standsAt d gid x with
  | none => s
  | some (w, i) =>
    if w.xs.isEmpty || !(s.running d || gid = 0) || !decide (1 ≤ step ∧ step < divisionSteps i) then s
    else (s.modCtl w fun _ c => { c with prog := step }).trap { w with prog := step } { cause := Cause.ecc, xs := w.xs }
/-- ECC_UNCORRECTABLE. An error in the engine's queue, counter or session lines is reported; what those lines hold goes on as it was (log 14). -/
def State.eccError (s : State) (site : EccSite) : State :=
  match site with
  | .memory d da => (s.markBad da).syncError (s.partOf d) d 0 (lineDa da)
  | .localMem d core space gid a =>
    let b := (space, if space = spScratch then 0 else gid, a / 16)
    (s.modDie d fun D => { D with badLocal := b :: D.badLocal.filter (· != b) }).eccFault d core { s.coreRecord d core with pc := 0 }
  | .division d gid x step => s.divisionEcc d gid x step
  | .tile d core gid t => (s.modGroup d gid fun G => { G with badTiles := t :: G.badTiles.filter (· != t) }).tileEcc d core
  | .sync d da => (s.lineOwners d da).foldl (fun (s : State) p => s.syncError p d (s.requesting p da) (lineDa da)) (s.markBad da)
  | .queue d k => match (s.die d).queues[k]? with
    | some q => s.syncError q.part d 0 (lineDa q.desc)
    | none => s
  | .counters k => match s.sets[k]? with
    | some c => s.syncError c.part c.die 0 0
    | none => s
  | .session k => match s.sessions[k]? with
    | some x => ((x.joins.filter (SJoin.here x)).map (·.part)).eraseDups.foldl (fun (s : State) p => s.syncError p x.home 0 0) s
    | none => s
  | .store r k c =>
    match (s.stores.filter (·.at_ == r))[k]? with
    | none => s
    | some t => ({ s with stores := s.stores.map fun u => if u == t then { u with bad := c :: u.bad.filter (· != c) } else u }).storeEcc r t
def execEccUncorrectable (s : State) : Res :=
  withInput s fun i s => match i with
    | .ecc site => if s.ready then s.eccError site else s
    | _ => s
/-- SOFT_ERROR_CORRECTED: counted per die in the management block. -/
def execSoftErrorCorrected (s : State) : Res :=
  withInput s fun i s => match i with
    | .softError d => s.modDie d fun D => { D with softErrs := D.softErrs + 1 }
    | _ => s

/-! ## Keys and reports (R340, R364) -/

/-- KEY_SLOT_WRITE. -/
def State.writeKey (s : State) (w : KeyWrite) : State :=
  match w with
  | .key i k => { s with keys := vset s.keys i { s.keys.get i with key := k } }
  | .enable i on => { s with keys := vset s.keys i { s.keys.get i with enabled := on } }
  | .mask p m => s.modPart p fun P => { P with keymask := m }
def execKeySlotWrite (s : State) : Res :=
  withInput s fun i s => match i with
    | .keyWrite w => s.writeKey w
    | _ => s

/-- SPDM_MEASUREMENTS: the firmware measurement and the attestation records, signed with the identity key (log 28). -/
def State.report (s : State) : State :=
  let recs := allDies.map fun p => ((s.part p).attValue, (s.part p).attCount)
  let bytes := bytesOf 64 s.fwMeas.toNat ++ allDies.flatMap s.attRecord
  { s with out := s.out ++ [Out.measurements s.fwMeas recs (ed448Sign false (bytesOf 57 Config.identityKey.toNat) bytes)] }
def execSpdmMeasurements (s : State) : Res :=
  withInput s fun i s => match i with
    | .measurements => s.report
    | _ => s

end Sys2Proof.Machine
end

