-- ==== Sys2Proof/Machine/Sched.lean ====
section
/-! DEFINITION. The grid scheduler (R272 to R280, R285 to R287, R292): launch records, refusals, placement, stealing, and the ends of
groups and launches. -/
namespace Sys2Proof.Machine

/-! ## Launch records -/

/-- A launch record (R272). -/
structure LRec where
  hdr     : Word
  entry   : Nat
  code    : Nat
  n       : Nat
  shape   : Nat
  args    : Nat
  argsize : Nat
  argres  : Nat
  pgt     : Nat
  phdr    : Nat
  fmts    : Vector DWord 8
  nodes   : Nat
  rest    : Nat

def LRec.of (bs : List Byte) : LRec :=
  let f := fieldAt bs
  { hdr := BitVec.ofNat 32 (f 0 4), entry := f 4 4, code := f 8 8, n := f 0x10 8, shape := f 0x18 8, args := f 0x20 8, argsize := f 0x28 4, argres := f 0x2C 4,
    pgt := f 0x30 8, phdr := f 0x38 8, fmts := (List.range 8).foldl (fun v i => vput v i (BitVec.ofNat 64 (f (0x40 + 8 * i) 8))) (Vector.replicate 8 0),
    nodes := f 0x80 8, rest := f 0x88 120 }

def LRec.gsize (r : LRec) : Nat := r.shape % 2 ^ 16
def LRec.csize (r : LRec) : Nat := (r.shape >>> 16) % 2 ^ 8
def LRec.roles (r : LRec) : Nat := (r.shape >>> 24) % 2 ^ 4
def LRec.shared (r : LRec) : Nat := (r.shape >>> 32) % 2 ^ 19
/-- Registers per lane, tile registers and roles of a kernel header word (R272, R268). -/
def hdrRegs (h : Word) : Nat := 8 * field h 7 2
def hdrTiles (h : Word) : Nat := field h 11 8
def hdrRoles (h : Word) : Nat := max 1 (field h 15 12)

/-- A reserved bit is set, or a field lies outside its range (R274, code 0x01); a node's record ignores N, PGT, PHDR and NODES (R286). -/
def LRec.bad (r : LRec) (node : Bool) : Bool :=
  field r.hdr 31 16 != 0 || !decide (1 ≤ field r.hdr 7 2 ∧ field r.hdr 7 2 ≤ 8) || r.entry % 4 != 0 || r.code % 64 != 0 ||
  (!node && !decide (1 ≤ r.n ∧ r.n < 2 ^ 63)) || !decide (1 ≤ r.gsize ∧ r.gsize ≤ 2048) || decide (16 < r.csize) || r.roles != field r.hdr 15 12 ||
  (r.shape >>> 28) % 16 != 0 || decide (393216 < r.shared) || r.shape >>> 51 != 0 || r.args % 4 != 0 || (r.argsize == 0 && r.args != 0) ||
  r.argsize % 4 != 0 || decide (768 < r.argsize) || r.argres != 0 || r.rest != 0

/-- The scheduler, as an agent that translates; it keeps no cache. -/
def schedAgent : Nat := 201
/-- The scheduler reads memory as user code of the context does. -/
def State.schedRead (s : State) (d : DieId) (va n : Nat) : Option (List Byte) :=
  match s.readVa d schedAgent false (BitVec.ofNat 64 va) n with
  | .ok bs => some bs
  | .fault _ _ => none

def roundUp (n m : Nat) : Nat := (n + m - 1) / m * m
/-- One group of the kernel can fit on an empty core (R277). -/
def fitsEmpty (regs tiles shared positions hoods : Nat) : Bool :=
  decide (positions ≤ 64 ∧ positions * regs ≤ 3072 ∧ roundUp shared 256 ≤ 393216 ∧ tiles ≤ 16 ∧ hoods ≤ 32)

/-- The entry of a launch: its refusal codes, and the address (R345, R346). -/
def State.entryOf (s : State) (d : DieId) (r : LRec) : List Nat × DWord :=
  match s.schedRead d r.code 64 with
  | none => ([7], 0)
  | some bs =>
    let f := fieldAt bs
    let (nbase, nsize, sbase, ssize, emap, emapn, mode) := (f 0 8, f 8 8, f 0x10 8, f 0x18 8, f 0x20 8, f 0x28 4, f 0x2C 1)
    let at_ := fun (base off : Nat) => BitVec.ofNat 64 (base + off)
    if f 0x2D 19 ≠ 0 ∨ 1 < mode then ([8], 0)
    else if mode = 1 then (if r.entry < ssize then ([], at_ sbase r.entry) else ([8], 0))
    else if sbase = 0 then (if r.entry < nsize then ([], at_ nbase r.entry) else ([8], 0))
    else if ssize ≤ r.entry then ([8], 0)
    else match s.schedRead d emap (8 * emapn) with
      | none => ([7], 0)
      | some m => match (List.range emapn).find? fun i => fieldAt m (8 * i) 4 == r.entry with
        | none => ([8], 0)
        | some i => ([], at_ nbase (fieldAt m (8 * i + 4) 4))

/-- The kernel that a launch record names, for groups of at most `most` indices and `least` in the smallest: refusal codes and the kernel. -/
def State.kernelOf (s : State) (d : DieId) (r : LRec) (node : Bool) (least : Nat) : List Nat × Kernel :=
  let regs := hdrRegs r.hdr
  let positions := (r.gsize + 31) / 32
  let roles := hdrRoles r.hdr
  let hoods := if r.hdr.getLsbD 1 then 0 else roles
  let (ce, entry) := s.entryOf d r
  let args := if r.argsize = 0 then some [] else s.schedRead d r.args r.argsize
  let words := ((args.getD [])).length / 4
  ((if r.bad node then [1] else []) ++ (if (least + 31) / 32 < roles then [4] else []) ++
      (if fitsEmpty regs (hdrTiles r.hdr) r.shared positions hoods then [] else [5]) ++ (if args.isNone then [7] else []) ++ ce,
    { hdr := r.hdr, entry := entry, gsize := r.gsize, csize := max 1 r.csize, shared := r.shared,
      args := (List.range words).map fun i => BitVec.ofNat 32 (fieldAt (args.getD []) (4 * i) 4), fmts := r.fmts })

/-- The process-group table (R224, R225): codes, the ranks, this package's rank. DEDUCED: a table that names two partitions of one package, which R14
rules out, is invalid like any other (log 46). -/
def State.ranksOf (s : State) (d : DieId) (r : LRec) : List Nat × List Rank × Nat :=
  if r.pgt = 0 then ([], [], 0)
  else if r.pgt % 64 ≠ 0 then ([2], [], 0)
  else match s.schedRead d r.pgt 64 with
    | none => ([7], [], 0)
    | some h =>
      let g := fieldAt h 0 2
      if g = 0 ∨ 4096 < g ∨ (h.drop 2).any (· ≠ 0) then ([2], [], 0)
      else match s.schedRead d (r.pgt + 64) (64 * g) with
        | none => ([7], [], 0)
        | some bs =>
          let f := fun (i o n : Nat) => fieldAt bs (64 * i + o) n
          let ranks := (List.range g).map fun i => ({ podid := BitVec.ofNat 32 (f i 0 4), partno := f i 4 1, slo := f i 8 8, shi := f i 0x10 8 } : Rank)
          let bad := (List.range g).any fun i => f i 5 3 != 0 || f i 0x28 24 != 0 || decide (7 < f i 4 1) || decide (f i 0x10 8 < f i 8 8) || decide (r.n < f i 0x10 8)
          let bad := bad || !(ranks.map (·.podid)).Nodup
          let own := (List.range g).filter fun i => match ranks[i]? with
            | some k => k.podid == s.podid && k.partno == (s.partOf d).val
            | none => false
          match own with
          | [x] => if bad then ([2], [], 0) else ([], ranks, x)
          | _ => ([2], [], 0)

def scopeOf (n : Nat) : Option Scope := match n with | 2 => some .quad | 3 => some .die | 4 => some .pkg | 5 => some .pod | _ => none
/-- The phase header (R251). -/
def State.phaseHdr (s : State) (d : DieId) (r : LRec) : List Nat × Option PhaseHdr :=
  if r.phdr = 0 then ([], none)
  else if r.phdr % 64 ≠ 0 then ([3], none)
  else match s.schedRead d r.phdr 64 with
    | none => ([7], none)
    | some h =>
      let n := fieldAt h 0 2
      match scopeOf (fieldAt h 2 1) with
      | none => ([3], none)
      | some sc =>
        if n = 0 ∨ 1024 < n ∨ (h.drop 3).any (· ≠ 0) then ([3], none)
        else match s.schedRead d (r.phdr + 64) (4 * n) with
          | none => ([7], none)
          | some bs =>
            let exps := (List.range n).map fun i => fieldAt bs (4 * i) 4
            if exps.any fun e => e == 0 || decide (2 ^ 31 ≤ e) then ([3], none) else ([], some ⟨sc, exps⟩)

/-- The node table (R286). -/
def State.nodesOf (s : State) (d : DieId) (r : LRec) : List Nat × List Node :=
  if r.nodes = 0 then ([], [])
  else match s.schedRead d r.nodes 32 with
    | none => ([7], [])
    | some h =>
      let n := fieldAt h 0 2
      if n = 0 ∨ 4096 < n ∨ (h.drop 2).any (· ≠ 0) then ([6], [])
      else match s.schedRead d (r.nodes + 32) (32 * n) with
        | none => ([7], [])
        | some bs =>
          let one := fun (i : Nat) =>
            let f := fun (o k : Nat) => fieldAt bs (32 * i + o) k
            match s.schedRead d (f 0 8) 256 with
            | none => ([6], none)
            | some lb =>
              let k := LRec.of lb
              let (codes, kernel) := s.kernelOf d k true k.gsize
              let bad := f 0 8 % 256 != 0 || decide (4095 < f 8 2) || f 0x10 16 != 0 || f 0x0A 2 == 0 || decide (k.gsize < f 0x0A 2) ||
                decide (k.shared < 32 * f 0x0A 2) || !codes.isEmpty
              (if bad then [6] else [],
                some ({ kernel := kernel, qh := f 8 2, coal := f 0x0A 2, timer := f 0x0C 4, due := none, takes := [] } : Node))
          let all := (List.range n).map one
          (all.flatMap (·.1), all.filterMap (·.2))

/-- What a launch record gives: the lowest refusal code, or the launch (R274, R275). -/
def State.launchRec (s : State) (d : DieId) (va : Nat) : Nat ⊕ Launch :=
  match s.schedRead d va 256 with
  | none => .inl 7
  | some bs =>
    let r := LRec.of bs
    let (c2, ranks, rank) := s.ranksOf d r
    let (lo, hi) := match ranks[rank]? with | some k => (k.slo, k.shi) | none => (0, r.n)
    let (c3, phase) := s.phaseHdr d r
    let (c6, nodes) := s.nodesOf d r
    let last := (hi - lo) % r.gsize
    let (ck, kernel) := s.kernelOf d r false (if last = 0 then r.gsize else last)
    let codes := (if va % 256 ≠ 0 then [1] else []) ++ c2 ++ c3 ++ c6 ++ ck
    match codes with
    | c :: cs => .inl (cs.foldl min c)
    | [] => .inr { id := 0, part := s.partOf d, ctx := (s.die d).active.ctx, kernel := kernel, n := r.n, lo := lo, hi := hi, ranks := ranks, rank := rank,
                   phase := phase, nodes := nodes, unplaced := [], started := 0, status := 0, queue := 0, serial := false }

/-! ## Launching -/

/-- Groups of a launch's share (R275). -/
def Launch.groups (L : Launch) : Nat := (L.hi - L.lo + L.kernel.gsize - 1) / L.kernel.gsize
/-- The runs of R278: die `k` of `n` receives the groups from one boundary to the next; with clusters a boundary is a multiple of C. -/
def runBounds (g n c k : Nat) : Nat := if k = n then g else k * g / n / c * c
def Launch.spread (L : Launch) (ds : List DieId) : List Unplaced :=
  (ds.zipIdx).flatMap fun (d, k) =>
    (range (runBounds L.groups ds.length L.kernel.csize k) (runBounds L.groups ds.length L.kernel.csize (k + 1))).map fun g =>
      { die := d, number := g, node := none, records := [] }

/-- A write of the status variable at `va`, through the sync engine, as its die translates the address then (R51, R285); an address that can hold no sync
variable is not written (log 20). -/
def State.putStatus (s : State) (d : DieId) (ctx : Ctx) (va code started : Nat) : State :=
  match s.translate d syncAgent false (BitVec.ofNat 64 va) .write with
  | .fault _ _ => s
  | .ok da =>
    if va = 0 || poolOf da ≠ 0 || va % 8 ≠ 0 then s
    else s.send { id := 0, home := s.homeOf da, op := .put, part := s.partOf d, ctx := ctx, die := d, core := 0, gid := 0, xs := [], hood := false, pc := 0,
                  addr := da, width := 8, arg := BitVec.ofNat 256 (code + started * 2 ^ 32), cmp := 0, dst := 0, dstk := 0, acq := false, reply := none, flag := 0,
                  wb := false }

/-- The records that a launch record names, its own included, with their lengths; those that its nodes name are read with the table. -/
def State.launchPieces (s : State) (d : DieId) (va : Nat) : List (Nat × Nat) :=
  let at_ := fun (va n : Nat) => (s.schedRead d va n).getD []
  let one := fun (va : Nat) =>
    let r := LRec.of (at_ va 256)
    [(va, 256), (r.code, 64), (r.args, r.argsize), (fieldAt (at_ r.code 64) 0x20 8, 8 * fieldAt (at_ r.code 64) 0x28 4)]
  let r := LRec.of (at_ va 256)
  let many := fun (head va n : Nat) => if va = 0 then [] else [(va, head), (va + head, n * fieldAt (at_ va head) 0 2)]
  one va ++ many 64 r.pgt 64 ++ many 64 r.phdr 4 ++ many 32 r.nodes 32 ++
    (if r.nodes = 0 then [] else (List.range (fieldAt (at_ r.nodes 32) 0 2)).flatMap fun i => one (fieldAt (at_ (r.nodes + 32 + 32 * i) 8) 0 8))
/-- Reading them meets a frame on the move (R54). -/
def State.launchStalled (s : State) (d : DieId) (va : Nat) : Bool :=
  !s.moving.isEmpty && (s.launchPieces d va).any fun q => s.vaStalled d schedAgent false (BitVec.ofNat 64 q.1) q.2
/-- Reading them meets a line in error, which halts the partition and is no refusal (R310). -/
def State.launchLost (s : State) (d : DieId) (va : Nat) : Option DWord :=
  if s.badLines.isEmpty then none
  else ((s.launchPieces d va).find? fun q => match s.readVa d schedAgent false (BitVec.ofNat 64 q.1) q.2 with | .fault c _ => c == Cause.ecc | .ok _ => false).map
    fun q => s.badLine d schedAgent false (BitVec.ofNat 64 q.1) q.2
/-- The acquire of a launch start: the descriptor caches of the partition's dies hold nothing of the context (R67, R96, R124, R273). -/
def State.freshDescs (s : State) (p : PartId) (c : Ctx) : State :=
  (s.diesOf p).foldl (fun (s : State) d => s.modDie d fun D => { D with desc := D.desc.filter (·.ctx != c) }) s

/-- The next launch of a queue may begin (R285): the previous one has placed its last group, or, for a SERIAL record, has ended. -/
def State.mayLaunch (s : State) (p : PartId) (c : Ctx) (h : Nat) (serial : Bool) : Bool :=
  s.launches.all fun L => !(L.part == p && L.ctx == c && L.queue == h) || (!serial && L.unplaced.all (·.node.isSome))

/-- LAUNCH_START: the scheduler of the partition's lowest die pops the next record of a launch queue and begins or refuses it. -/
def execLaunchStart (p : PartId) (handle : Word) (s : State) : Res :=
  match s.diesOf p with
  | [] => .next s
  | d :: _ =>
    let c := (s.die d).active.ctx
    let h := handle.toNat
    if !s.running d || c = 0 then .next s
    else match s.queueOf p c h with
      | none => .next (if s.launchQueues.contains (p, c, h) then s.schedMiss d p c h else s)
      | some q =>
        match q.chip with
        | [] => .next s
        | r :: _ =>
          if q.kind ≠ 1 || (q.usesRing .pop && s.ringStalled q) || s.launchStalled d (field r 63 0) || !(s.mayLaunch p c h (r.getLsbD 128)) then .next s
          else match s.launchLost d (field r 63 0), s.qPop q with
            -- the scheduler has no stop record: the error stands in the sync engine's of its die, with PC 0 (log 14)
            | some line, _ => .next (s.syncEcc p d c 0 line)
            | none, none => .next s
            | none, some (r, s) =>
              let va := field r 127 64
              let bad := field r 159 129 ≠ 0 ∨ field r 255 160 ≠ 0
              match (if bad then .inl 1 else s.launchRec d (field r 63 0)) with
              | .inl code => .next (s.putStatus d c va (0x80000000 + code) 0)
              | .inr L =>
                let L := { L with id := s.nextId, status := va, queue := h, serial := r.getLsbD 128 }
                .next { s.freshDescs p c with nextId := s.nextId + 1, launches := s.launches ++ [{ L with unplaced := L.spread (s.diesOf p) }] }

/-! ## Placement -/

/-- What the resident groups of a core take up (R277): a group, a partial one too, has the positions of its kernel's GSIZE. -/
structure Load where
  positions : Nat
  regs      : Nat
  shared    : Nat
  tiles     : Nat
  hoods     : Nat
def State.load (s : State) (d : DieId) (core : Nat) : Load :=
  ((s.die d).active.groups.filter (·.core == core)).foldl (fun l G =>
    ⟨l.positions + G.slots.length, l.regs + G.alloc.foldl (· + ·) 0 + 8 * G.pool, l.shared + G.size, l.tiles + G.tiles, l.hoods + G.hoods.length⟩) ⟨0, 0, 0, 0, 0⟩

/-- Hoods that a group of `positions` starts with (R268). -/
def startHoods (k : Kernel) : Nat := if k.hdr.getLsbD 1 then 0 else hdrRoles k.hdr
/-- The group fits on the core (R277). -/
def Load.fits (l : Load) (k : Kernel) (positions : Nat) : Bool :=
  decide (l.positions + positions ≤ 64 ∧ l.regs + positions * hdrRegs k.hdr ≤ 3072 ∧ l.shared + roundUp k.shared 256 ≤ 393216 ∧
    l.tiles + hdrTiles k.hdr ≤ 16 ∧ l.hoods + startHoods k ≤ 32)

/-- The lowest wave slots that are free. -/
def freeSlots (used : List Nat) : List Nat := (List.range 64).filter (!used.contains ·)
/-- Wave slots of a group (R292): pairs take a wholly free pair slot where there is one. -/
def takeSlots : (fuel : Nat) → (positions : Nat) → (used : List Nat) → List Nat
  | 0, _, _ => []
  | fuel + 1, n, used =>
    if n = 0 then []
    else
      let whole := (List.range 32).find? fun p => !used.contains (2 * p) && !used.contains (2 * p + 1)
      match whole with
      | some p => if 2 ≤ n then 2 * p :: (2 * p + 1) :: takeSlots fuel (n - 2) ((2 * p) :: (2 * p + 1) :: used)
        else let x := (freeSlots used).headD 0; [x]
      | none =>
        let xs := (freeSlots used).take (min n 2)
        xs ++ takeSlots fuel (n - min n 2) (xs ++ used)

/-- The hoods of a group: one, or one over the indices of each role (R268). -/
def startRanges (first count positions roles : Nat) : List (Nat × Nat) :=
  (List.range roles).filterMap fun r =>
    let ps := (List.range positions).filter fun p => p * roles / positions == r
    match ps with
    | [] => none
    | p :: _ => some (first + 32 * p, min (first + 32 * (ps.getLastD p + 1)) (first + count))

/-- A group as it starts (R276, R268, R141, R200, R114). -/
def newGroup (k : Kernel) (entry : DWord) (gid number launch core first count csize : Nat) (rank : Word) (slots : List Nat) (records : List (BitVec 256))
    (node : Bool := false) : Group :=
  let positions := (count + 31) / 32
  let roles := hdrRoles k.hdr
  let ctl : Ctl := { pc := entry }
  { gid := gid, number := BitVec.ofNat 32 number, launch := launch, core := core, first := first, count := count, roles := roles, csize := csize, rank := rank, node := node,
    lw16 := k.hdr.getLsbD 0, tiles := hdrTiles k.hdr, slots := slots,
    k := (k.args.zipIdx).foldl (fun v a => vput v a.2 a.1) (Vector.replicate 192 0),
    hoods := if k.hdr.getLsbD 1 then [] else (startRanges first count positions roles).map fun (lo, hi) => { lo := lo, hi := hi, ctl := ctl, g := Vector.replicate 64 {} },
    lanes := if k.hdr.getLsbD 1 then (range first (first + count)).map fun x => { x := x, ctl := ctl, g := Vector.replicate 64 0 } else [],
    alloc := List.replicate slots.length (hdrRegs k.hdr), fmts := k.fmts, size := roundUp k.shared 256,
    shared := Mem.writeN [] 0 (records.flatMap fun r => bytesOf 32 r.toNat) }

/-- The kernel, the first index and the number of indices of a group not yet placed. -/
def Launch.unit (L : Launch) (u : Unplaced) : Kernel × Nat × Nat × Nat :=
  match u.node.bind (L.nodes[·]?) with
  | some N => (N.kernel, 0, u.records.length, 1)
  | none =>
    let first := L.lo + u.number * L.kernel.gsize
    (L.kernel, first, min L.kernel.gsize (L.hi - first), L.kernel.csize)

/-- A cluster of which some member has started and this one has not (R280). -/
def Launch.openCluster (L : Launch) (u : Unplaced) : Bool :=
  u.node.isNone && decide (1 < L.kernel.csize) &&
    (range (u.number / L.kernel.csize * L.kernel.csize) (min (u.number / L.kernel.csize * L.kernel.csize + L.kernel.csize) L.groups)).any fun g =>
      !(L.unplaced.any fun v => v.node.isNone && v.number == g)
/-- The group that a die's scheduler places next: a member of an open cluster, else the first of the oldest launch (R278, R280). -/
def State.nextGroup (s : State) (d : DieId) : Option (Launch × Unplaced) :=
  let all := s.launches.flatMap fun L => if L.part == s.partOf d && L.ctx == (s.die d).active.ctx then
    (L.unplaced.filter (·.die == d)).map fun u => (L, u) else []
  (all.find? fun q => q.1.openCluster q.2).or all.head?

/-- The core with the most free wave positions on which the group fits, the lowest on a tie (R278). -/
def State.coreFor (s : State) (d : DieId) (k : Kernel) (positions : Nat) : Option Nat :=
  bestOf (fun (a b : Nat) => decide ((s.load d a).positions < (s.load d b).positions) || ((s.load d a).positions == (s.load d b).positions && decide (a ≤ b)))
    ((s.die d).cores.filter fun c => (s.load d c).fits k positions)

/-- GROUP_PLACEMENT (R278). -/
def execGroupPlacement (d : DieId) (s : State) : Res :=
  if !s.running d then .next s
  else match s.nextGroup d with
    | none => .next s
    | some (L, u) =>
      let (k, first, count, csize) := L.unit u
      let positions := (k.gsize + 31) / 32
      match s.coreFor d k positions with
      | none => .next s
      | some core =>
        let used := ((s.die d).active.groups.filter (·.core == core)).flatMap (·.slots)
        let G := newGroup k (s.safeTarget d k.entry) s.nextId u.number L.id core first count csize (BitVec.ofNat 32 L.rank) (takeSlots 64 positions used) u.records
          u.node.isSome
        let s := { s.modBank d (fun B => { B with groups := B.groups ++ [G] }) with nextId := s.nextId + 1 }
        .next (s.modLaunch L.id fun L => { L with unplaced := L.unplaced.filter (· != u), started := L.started + 1 })

/-- The unplaced groups of die `v` that may move to another die, in the order of placement: whole clusters, of which none has started a member (R279,
R280); each with its launch. -/
def Launch.loose (L : Launch) (v : DieId) : List (List (Nat × Unplaced)) :=
  let us := (L.unplaced.filter fun u => u.node.isNone && u.die == v && !(L.openCluster u)).map fun u => (L.id, u)
  if L.kernel.csize ≤ 1 then us.map fun u => [u]
  else (us.map fun u => u.2.number / L.kernel.csize).eraseDups.map fun c => us.filter fun u => u.2.number / L.kernel.csize == c
/-- The launches that a die's scheduler places groups of. -/
def State.launchesOn (s : State) (d : DieId) : List Launch := s.launches.filter fun L => L.part == s.partOf d && L.ctx == (s.die d).active.ctx
def State.loose (s : State) (d v : DieId) : List (List (Nat × Unplaced)) := (s.launchesOn d).flatMap (·.loose v)
def State.waiting (s : State) (d v : DieId) : Nat := (s.loose d v).flatten.length
/-- The upper half of them, at least one (R279). -/
def State.steal (s : State) (d v : DieId) : List (Nat × Unplaced) :=
  let us := s.loose d v
  (us.drop (us.length - max 1 (us.length / 2))).flatten

/-- WORK_STEAL (R279): a scheduler with no unplaced group takes from the die that holds the most, the lowest on a tie. -/
def execWorkSteal (d : DieId) (s : State) : Res :=
  if !s.running d || (s.launchesOn d).any (fun L => L.unplaced.any (·.die == d)) then .next s
  else match bestOf (fun (a b : DieId) => decide (s.waiting d b < s.waiting d a) || (s.waiting d a == s.waiting d b && decide (a.val ≤ b.val))) (s.partDies d) with
    | none => .next s
    | some v =>
      let us := s.steal d v
      .next { s with launches := s.launches.map fun L => { L with unplaced := L.unplaced.map fun u => if us.contains (L.id, u) then { u with die := d } else u } }

/-! ## Ends -/

/-- GROUP_END (R265): its indices have exited and its counts stand at zero; handles are closed, interests bound to its shared memory are
withdrawn, and its room returns to the core. -/
def execGroupEnd (d : DieId) (gid : Nat) (s : State) : Res :=
  match s.group d gid with
  | none => .next s
  | some G =>
    let B := (s.die d).active
    let busy := !G.liveIdx.isEmpty || (s.cmds d).any (·.gid == gid) || B.interests.any (·.gid == gid) || B.offers.any (·.gid == gid) ||
      B.tileq.any (·.gid == gid) || s.reqs.any fun r => r.die == d && r.gid == gid && r.op.counted
    if gid = 0 || busy || !s.running d then .next s
    else
      let s := (B.handles.filter (·.gid == gid)).foldl (fun (s : State) h => s.closeHandle d gid h h.pc) s
      let s := s.modBank d fun B => { B with groups := B.groups.filter (·.gid != gid) }
      .next (s.settleLaunch G.launch)

/-- Records of a queue, resident or not; none if its descriptor cannot be read. -/
def State.queueSize (s : State) (d : DieId) (p : PartId) (c : Ctx) (h : Nat) : Option Nat :=
  match s.queueOf p c h with
  | some q => some q.len
  | none => match s.translate d syncAgent false ((s.die d).active.qtbase + BitVec.ofNat 64 (64 * h)) .read with
    | .ok da => some (s.mem.get (da + 0x20) 4 + s.mem.get (da + 0x14) 4)
    | .fault _ _ => none
/-- Some group of a launch has not ended: in any bank of its partition, or saved. -/
def State.hasGroups (s : State) (L : Launch) : Bool :=
  (s.diesOf L.part).any fun d => (s.banksOn d).any fun B => B.groups.any (·.launch == L.id)
/-- The die whose scheduler keeps a launch, if the launch's context runs there. -/
def State.launchDie (s : State) (L : Launch) : Option DieId :=
  match s.diesOf L.part with
  | [] => none
  | d :: _ => if s.running d && (s.die d).active.ctx == L.ctx then some d else none

/-- LAUNCH_END (R285): the status variable is written, and the launch's counter sets are freed (R236). -/
def execLaunchEnd (id : Nat) (s : State) : Res :=
  match s.launchById id with
  | none => .next s
  | some L => match s.launchDie L with
    | none => .next s
    | some d =>
      if s.hasGroups L || !L.unplaced.isEmpty || L.nodes.any (fun N => s.queueSize d L.part L.ctx N.qh != some 0) then .next s
      else
        let s := { s with launches := s.launches.filter (·.id != id), sets := s.sets.filter (·.launch != id) }
        .next (s.putStatus d L.ctx L.status 1 L.started)

/-- BIN_TIMER_EXPIRY (R287); a bin that is not resident becomes so first. -/
def execBinTimerExpiry (launch node : Nat) (s : State) : Res :=
  match s.launchById launch with
  | none => .next s
  | some L => match L.nodes[node]?, s.launchDie L with
    | some N, some d => match N.due with
      | some t =>
        if s.clock < t then .next s
        else match s.queueOf L.part L.ctx N.qh with
          | some q => .next (if q.usesRing .pop && s.ringStalled q then s else s.binTake L node { N with due := none })
          | none => .next (s.schedMiss d L.part L.ctx N.qh)
      | none => .next s
    | _, _ => .next s
/-- BIN_DRAIN (R287): no group of the launch is resident or unplaced; a bin that is not resident becomes so first. -/
def execBinDrain (launch node : Nat) (s : State) : Res :=
  match s.launchById launch with
  | none => .next s
  | some L => match L.nodes[node]?, s.launchDie L with
    | some N, some d =>
      if s.hasGroups L || !L.unplaced.isEmpty then .next s
      else match s.queueOf L.part L.ctx N.qh with
        | some q => .next (if q.usesRing .pop && s.ringStalled q then s else s.binTake L node N)
        | none => .next (s.schedMiss d L.part L.ctx N.qh)
    | _, _ => .next s

end Sys2Proof.Machine
end

