-- ==== Sys2Proof/Machine/Dispatch.lean ====
section
/-! DEFINITION. The meaning of every instruction and event, arm by arm. -/
namespace Sys2Proof.Machine

def exec (i : Instr) (s : State) : Host.Outcome State Fault Refusal :=
  match i with
  | .iadd d a b => Sys2Proof.Machine.execIadd d a b s
  | .isub d a b => Sys2Proof.Machine.execIsub d a b s
  | .iaddSatI32 d a b => Sys2Proof.Machine.execIaddSatI32 d a b s
  | .isubSatI32 d a b => Sys2Proof.Machine.execIsubSatI32 d a b s
  | .iaddSatN32 d a b => Sys2Proof.Machine.execIaddSatN32 d a b s
  | .isubSatN32 d a b => Sys2Proof.Machine.execIsubSatN32 d a b s
  | .iabs d a => Sys2Proof.Machine.execIabs d a s
  | .ineg d a => Sys2Proof.Machine.execIneg d a s
  | .imul d a b la => Sys2Proof.Machine.execImul d a b la s
  | .imulhI32 d a b la => Sys2Proof.Machine.execImulhI32 d a b la s
  | .imulhN32 d a b la => Sys2Proof.Machine.execImulhN32 d a b la s
  | .imad d a b la => Sys2Proof.Machine.execImad d a b la s
  | .iminI32 d a b => Sys2Proof.Machine.execIminI32 d a b s
  | .iminN32 d a b => Sys2Proof.Machine.execIminN32 d a b s
  | .imaxI32 d a b => Sys2Proof.Machine.execImaxI32 d a b s
  | .imaxN32 d a b => Sys2Proof.Machine.execImaxN32 d a b s
  | .and d a b => Sys2Proof.Machine.execAnd d a b s
  | .or d a b => Sys2Proof.Machine.execOr d a b s
  | .xor d a b => Sys2Proof.Machine.execXor d a b s
  | .andn d a b => Sys2Proof.Machine.execAndn d a b s
  | .not d a => Sys2Proof.Machine.execNot d a s
  | .shl d a b => Sys2Proof.Machine.execShl d a b s
  | .shr d a b => Sys2Proof.Machine.execShr d a b s
  | .sar d a b => Sys2Proof.Machine.execSar d a b s
  | .rol d a b => Sys2Proof.Machine.execRol d a b s
  | .bfxI32 d a b => Sys2Proof.Machine.execBfxI32 d a b s
  | .bfxN32 d a b => Sys2Proof.Machine.execBfxN32 d a b s
  | .bfi d a b => Sys2Proof.Machine.execBfi d a b s
  | .popc d a => Sys2Proof.Machine.execPopc d a s
  | .clz d a => Sys2Proof.Machine.execClz d a s
  | .ctz d a => Sys2Proof.Machine.execCtz d a s
  | .brev d a => Sys2Proof.Machine.execBrev d a s
  | .icmp c d a b => Sys2Proof.Machine.execIcmp c d a b s
  | .sel d a b => Sys2Proof.Machine.execSel d a b s
  | .mov d a => Sys2Proof.Machine.execMov d a s
  | .movk d k => Sys2Proof.Machine.execMovk d k s
  | .idivI32 d a b la => Sys2Proof.Machine.execIdivI32 d a b la s
  | .idivN32 d a b la => Sys2Proof.Machine.execIdivN32 d a b la s
  | .iremI32 d a b la => Sys2Proof.Machine.execIremI32 d a b la s
  | .iremN32 d a b la => Sys2Proof.Machine.execIremN32 d a b la s
  | .movi d imm => Sys2Proof.Machine.execMovi d imm s
  | .addi d a imm => Sys2Proof.Machine.execAddi d a imm s
  | .andi d a imm => Sys2Proof.Machine.execAndi d a imm s
  | .ori d a imm => Sys2Proof.Machine.execOri d a imm s
  | .xori d a imm => Sys2Proof.Machine.execXori d a imm s
  | .shli d a imm => Sys2Proof.Machine.execShli d a imm s
  | .kadd k b => Sys2Proof.Machine.execKadd k b s
  | .ksub k b => Sys2Proof.Machine.execKsub k b s
  | .kmul k b => Sys2Proof.Machine.execKmul k b s
  | .kand k b => Sys2Proof.Machine.execKand k b s
  | .kor k b => Sys2Proof.Machine.execKor k b s
  | .kxor k b => Sys2Proof.Machine.execKxor k b s
  | .kshl k b => Sys2Proof.Machine.execKshl k b s
  | .kshr k b => Sys2Proof.Machine.execKshr k b s
  | .kcmp c k b => Sys2Proof.Machine.execKcmp c k b s
  | .kmov k b => Sys2Proof.Machine.execKmov k b s
  | .kmovi k imm => Sys2Proof.Machine.execKmovi k imm s
  | .kld k n o => Sys2Proof.Machine.execKld k n o s
  | .kst k n o => Sys2Proof.Machine.execKst k n o s
  | .rds d s1 hi => Sys2Proof.Machine.execRds d s1 hi s
  | .movts n k => Sys2Proof.Machine.execMovts n k s
  | .fadd d a b la => Sys2Proof.Machine.execFadd d a b la s
  | .fsub d a b la => Sys2Proof.Machine.execFsub d a b la s
  | .fmul d a b la => Sys2Proof.Machine.execFmul d a b la s
  | .ffma d a b la => Sys2Proof.Machine.execFfma d a b la s
  | .fmin d a b la => Sys2Proof.Machine.execFmin d a b la s
  | .fmax d a b la => Sys2Proof.Machine.execFmax d a b la s
  | .fneg d a la => Sys2Proof.Machine.execFneg d a la s
  | .fabs d a la => Sys2Proof.Machine.execFabs d a la s
  | .fcmp c d a b la => Sys2Proof.Machine.execFcmp c d a b la s
  | .frcp d a la => Sys2Proof.Machine.execFrcp d a la s
  | .frsq d a la => Sys2Proof.Machine.execFrsq d a la s
  | .fsqrt d a la => Sys2Proof.Machine.execFsqrt d a la s
  | .fexp2 d a la => Sys2Proof.Machine.execFexp2 d a la s
  | .flog2 d a la => Sys2Proof.Machine.execFlog2 d a la s
  | .ftanh d a la => Sys2Proof.Machine.execFtanh d a la s
  | .fclass d a la => Sys2Proof.Machine.execFclass d a la s
  | .cvtifI32 d a la => Sys2Proof.Machine.execCvtifI32 d a la s
  | .cvtifN32 d a la => Sys2Proof.Machine.execCvtifN32 d a la s
  | .cvtfiI32 d a la => Sys2Proof.Machine.execCvtfiI32 d a la s
  | .cvtfiN32 d a la => Sys2Proof.Machine.execCvtfiN32 d a la s
  | .fcvt dst src d a la => Sys2Proof.Machine.execFcvt dst src d a la s
  | .hadd2H16 d a b la => Sys2Proof.Machine.execHadd2H16 d a b la s
  | .hmul2H16 d a b la => Sys2Proof.Machine.execHmul2H16 d a b la s
  | .hfma2H16 d a b la => Sys2Proof.Machine.execHfma2H16 d a b la s
  | .hadd2B16 d a b la => Sys2Proof.Machine.execHadd2B16 d a b la s
  | .hmul2B16 d a b la => Sys2Proof.Machine.execHmul2B16 d a b la s
  | .hfma2B16 d a b la => Sys2Proof.Machine.execHfma2B16 d a b la s
  | .bkpack d a n la => Sys2Proof.Machine.execBkpack d a n la s
  | .bkunpk d a n la => Sys2Proof.Machine.execBkunpk d a n la s
  | .fdiv d a b la => Sys2Proof.Machine.execFdiv d a b la s
  | .shfl m d a b la => Sys2Proof.Machine.execShfl m d a b la s
  | .vote m d a la => Sys2Proof.Machine.execVote m d a la s
  | .lred o d a la => Sys2Proof.Machine.execLred o d a la s
  | .lscanIncl o d a la => Sys2Proof.Machine.execLscanIncl o d a la s
  | .lscanExcl o d a la => Sys2Proof.Machine.execLscanExcl o d a la s
  | .lredF32 o d a la => Sys2Proof.Machine.execLredF32 o d a la s
  | .lscanInclF32 o d a la => Sys2Proof.Machine.execLscanInclF32 o d a la s
  | .lscanExclF32 o d a la => Sys2Proof.Machine.execLscanExclF32 o d a la s
  | .gshfl m d a b la => Sys2Proof.Machine.execGshfl m d a b la s
  | .form d a b => Sys2Proof.Machine.execForm d a b s
  | .formTag d a => Sys2Proof.Machine.execFormTag d a s
  | .hcount d => Sys2Proof.Machine.execHcount d s
  | .reform d k => Sys2Proof.Machine.execReform d k s
  | .bra off => Sys2Proof.Machine.execBra off s
  | .brc c off => Sys2Proof.Machine.execBrc c off s
  | .call d off => Sys2Proof.Machine.execCall d off s
  | .ret a => Sys2Proof.Machine.execRet a s
  | .brx a => Sys2Proof.Machine.execBrx a s
  | .join k => Sys2Proof.Machine.execJoin k s
  | .regclaim n => Sys2Proof.Machine.execRegclaim n s
  | .reggive n => Sys2Proof.Machine.execReggive n s
  | .trapi code => Sys2Proof.Machine.execTrapi code s
  | .brk code => Sys2Proof.Machine.execBrk code s
  | .ld w d n a la => Sys2Proof.Machine.execLd w d n a la s
  | .st w s1 n a => Sys2Proof.Machine.execSt w s1 n a s
  | .fill w d a la => Sys2Proof.Machine.execFill w d a la s
  | .spill w s1 a => Sys2Proof.Machine.execSpill w s1 a s
  | .brld n m a la => Sys2Proof.Machine.execBrld n m a la s
  | .gld w d a la => Sys2Proof.Machine.execGld w d a la s
  | .binit s1 k b => Sys2Proof.Machine.execBinit s1 k b s
  | .bretire k => Sys2Proof.Machine.execBretire k s
  | .barrive k => Sys2Proof.Machine.execBarrive k s
  | .bexpect k b => Sys2Proof.Machine.execBexpect k b s
  | .wait k b => Sys2Proof.Machine.execWait k b s
  | .btest d k b => Sys2Proof.Machine.execBtest d k b s
  | .ctest d k b => Sys2Proof.Machine.execCtest d k b s
  | .rinit k b => Sys2Proof.Machine.execRinit k b s
  | .rprodTake k => Sys2Proof.Machine.execRprodTake k s
  | .rprodFill k => Sys2Proof.Machine.execRprodFill k s
  | .rconsTake d k => Sys2Proof.Machine.execRconsTake d k s
  | .rconsFree k => Sys2Proof.Machine.execRconsFree k s
  | .waitCnt c limit => Sys2Proof.Machine.execWaitCnt c limit s
  | .tcopy n k c => Sys2Proof.Machine.execTcopy n k c s
  | .tcopyMc n k c => Sys2Proof.Machine.execTcopyMc n k c s
  | .gath n k a => Sys2Proof.Machine.execGath n k a s
  | .scat n k a => Sys2Proof.Machine.execScat n k a s
  | .crun c k a => Sys2Proof.Machine.execCrun c k a s
  | .cldx m d a b => Sys2Proof.Machine.execCldx m d a b s
  | .cstx m s1 a b => Sys2Proof.Machine.execCstx m s1 a b s
  | .caddr d a b => Sys2Proof.Machine.execCaddr d a b s
  | .cxfer a b c => Sys2Proof.Machine.execCxfer a b c s
  | .csect m d a b => Sys2Proof.Machine.execCsect m d a b s
  | .cmrg m d a b => Sys2Proof.Machine.execCmrg m d a b s
  | .carrive a b => Sys2Proof.Machine.execCarrive a b s
  | .want n k => Sys2Proof.Machine.execWant n k s
  | .offer n k => Sys2Proof.Machine.execOffer n k s
  | .unwant k => Sys2Proof.Machine.execUnwant k s
  | .nevict k => Sys2Proof.Machine.execNevict k s
  | .ntwr k b => Sys2Proof.Machine.execNtwr k b s
  | .credCanon s1 k a => Sys2Proof.Machine.execCredCanon s1 k a s
  | .credExact s1 k a => Sys2Proof.Machine.execCredExact s1 k a s
  | .cclose k => Sys2Proof.Machine.execCclose k s
  | .phase s1 k b => Sys2Proof.Machine.execPhase s1 k b s
  | .bar s1 => Sys2Proof.Machine.execBar s1 s
  | .tmma td ta tb fa fb sa sb acc la => Sys2Proof.Machine.execTmma td ta tb fa fb sa sb acc la s
  | .tmmai td ta tb fa fb sa sb acc la => Sys2Proof.Machine.execTmmai td ta tb fa fb sa sb acc la s
  | .tld tr t n a la => Sys2Proof.Machine.execTld tr t n a la s
  | .tst tr t n a => Sys2Proof.Machine.execTst tr t n a s
  | .tdrain t n a la => Sys2Proof.Machine.execTdrain t n a la s
  | .tdrainFmt f t n a la => Sys2Proof.Machine.execTdrainFmt f t n a la s
  | .trowrd d t b la => Sys2Proof.Machine.execTrowrd d t b la s
  | .trowwr t a b => Sys2Proof.Machine.execTrowwr t a b s
  | .tscale t a => Sys2Proof.Machine.execTscale t a s
  | .tzero t => Sys2Proof.Machine.execTzero t s
  | .tdred t k => Sys2Proof.Machine.execTdred t k s
  | .atom o d a b la => Sys2Proof.Machine.execAtom o d a b la s
  | .atomXchg d a b la => Sys2Proof.Machine.execAtomXchg d a b la s
  | .acas d a b la => Sys2Proof.Machine.execAcas d a b la s
  | .acasX64 d a b la => Sys2Proof.Machine.execAcasX64 d a b la s
  | .acas128 d a b la => Sys2Proof.Machine.execAcas128 d a b la s
  | .sld d a la => Sys2Proof.Machine.execSld d a la s
  | .sst a b => Sys2Proof.Machine.execSst a b s
  | .sldX64 d a la => Sys2Proof.Machine.execSldX64 d a la s
  | .sstX64 a b => Sys2Proof.Machine.execSstX64 a b s
  | .ared o a b => Sys2Proof.Machine.execAred o a b s
  | .qpush k b => Sys2Proof.Machine.execQpush k b s
  | .qpop d k b => Sys2Proof.Machine.execQpop d k b s
  | .qlen d k => Sys2Proof.Machine.execQlen d k s
  | .nemit k b => Sys2Proof.Machine.execNemit k b s
  | .bind k b => Sys2Proof.Machine.execBind k b s
  | .acq s1 k => Sys2Proof.Machine.execAcq s1 k s
  | .rel s1 k => Sys2Proof.Machine.execRel s1 k s
  | .tfence s1 => Sys2Proof.Machine.execTfence s1 s
  | .dinv s1 => Sys2Proof.Machine.execDinv s1 s
  | .sysrd d n => Sys2Proof.Machine.execSysrd d n s
  | .syswr n a => Sys2Proof.Machine.execSyswr n a s
  | .eqrd d cls inst => Sys2Proof.Machine.execEqrd d cls inst s
  | .eqwr cls inst a => Sys2Proof.Machine.execEqwr cls inst a s
  | .haltp p => Sys2Proof.Machine.execHaltp p s
  | .icinv a => Sys2Proof.Machine.execIcinv a s
  | .sysrdX64 d n => Sys2Proof.Machine.execSysrdX64 d n s
  | .syswrX64 n a => Sys2Proof.Machine.execSyswrX64 n a s
  | .hintImmhi v => Sys2Proof.Machine.execHintImmhi v s
  | .hintOrd s1 o c => Sys2Proof.Machine.execHintOrd s1 o c s
  | .hintFmtx r sat sr seed => Sys2Proof.Machine.execHintFmtx r sat sr seed s
  | .hintLife us => Sys2Proof.Machine.execHintLife us s
  | .hintPred g => Sys2Proof.Machine.execHintPred g s
  | .carderCommandStart d inst => Sys2Proof.Machine.execCarderCommandStart d inst s
  | .unitLanding d inst => Sys2Proof.Machine.execUnitLanding d inst s
  | .mergeHoldTimeout d gid lo => Sys2Proof.Machine.execMergeHoldTimeout d gid lo s
  | .launchStart p handle => Sys2Proof.Machine.execLaunchStart p handle s
  | .groupPlacement d => Sys2Proof.Machine.execGroupPlacement d s
  | .workSteal d => Sys2Proof.Machine.execWorkSteal d s
  | .groupEnd d gid => Sys2Proof.Machine.execGroupEnd d gid s
  | .launchEnd launch => Sys2Proof.Machine.execLaunchEnd launch s
  | .binTimerExpiry launch node => Sys2Proof.Machine.execBinTimerExpiry launch node s
  | .binDrain launch node => Sys2Proof.Machine.execBinDrain launch node s
  | .queueMiss k => Sys2Proof.Machine.execQueueMiss k s
  | .atomicPerform k => Sys2Proof.Machine.execAtomicPerform k s
  | .syncReplyLanding k => Sys2Proof.Machine.execSyncReplyLanding k s
  | .interestArrival k => Sys2Proof.Machine.execInterestArrival k s
  | .tileHeaderArrival k => Sys2Proof.Machine.execTileHeaderArrival k s
  | .withdrawalArrival k => Sys2Proof.Machine.execWithdrawalArrival k s
  | .pendingDeadline k => Sys2Proof.Machine.execPendingDeadline k s
  | .offerHeaderArrival k => Sys2Proof.Machine.execOfferHeaderArrival k s
  | .offerChunkArrival k => Sys2Proof.Machine.execOfferChunkArrival k s
  | .retentionExpiry k => Sys2Proof.Machine.execRetentionExpiry k s
  | .chunkLanding k => Sys2Proof.Machine.execChunkLanding k s
  | .interestLifetimeExpiry d k => Sys2Proof.Machine.execInterestLifetimeExpiry d k s
  | .sessionJoin k => Sys2Proof.Machine.execSessionJoin k s
  | .sessionClose k => Sys2Proof.Machine.execSessionClose k s
  | .sessionResultWrite k => Sys2Proof.Machine.execSessionResultWrite k s
  | .migrationComplete frame => Sys2Proof.Machine.execMigrationComplete frame s
  | .migctlWrite d v => Sys2Proof.Machine.execMigctlWrite d v s
  | .tileWordPerform d core => Sys2Proof.Machine.execTileWordPerform d core s
  | .haltComplete p => Sys2Proof.Machine.execHaltComplete p s
  | .eventDelivery d => Sys2Proof.Machine.execEventDelivery d s
  | .tsliceExpiry p => Sys2Proof.Machine.execTsliceExpiry p s
  | .tsliceWrite d v => Sys2Proof.Machine.execTsliceWrite d v s
  | .tpendClear d v => Sys2Proof.Machine.execTpendClear d v s
  | .haltreq p => Sys2Proof.Machine.execHaltreq p s
  | .stepHalt p => Sys2Proof.Machine.execStepHalt p s
  | .contextSwap d ctx => Sys2Proof.Machine.execContextSwap d ctx s
  | .swapComplete d => Sys2Proof.Machine.execSwapComplete d s
  | .shadowSave d => Sys2Proof.Machine.execShadowSave d s
  | .shadowLoad d ctx => Sys2Proof.Machine.execShadowLoad d ctx s
  | .shadowCreate d ctx => Sys2Proof.Machine.execShadowCreate d ctx s
  | .shadowOpComplete d => Sys2Proof.Machine.execShadowOpComplete d s
  | .expand => Sys2Proof.Machine.execExpand s
  | .exit => Sys2Proof.Machine.execExit s
  | .yield => Sys2Proof.Machine.execYield s
  | .nop => Sys2Proof.Machine.execNop s
  | .chalt => Sys2Proof.Machine.execChalt s
  | .ifence => Sys2Proof.Machine.execIfence s
  | .trapret => Sys2Proof.Machine.execTrapret s
  | .hintMerge => Sys2Proof.Machine.execHintMerge s
  | .malformedWord => Sys2Proof.Machine.execMalformedWord s
  | .podGenerationOpen => Sys2Proof.Machine.execPodGenerationOpen s
  | .podCombinedArrival => Sys2Proof.Machine.execPodCombinedArrival s
  | .podPhaseCount => Sys2Proof.Machine.execPodPhaseCount s
  | .podRelease => Sys2Proof.Machine.execPodRelease s
  | .linkFlitError => Sys2Proof.Machine.execLinkFlitError s
  | .laneSparing => Sys2Proof.Machine.execLaneSparing s
  | .headerCrcFailure => Sys2Proof.Machine.execHeaderCrcFailure s
  | .migrationStart => Sys2Proof.Machine.execMigrationStart s
  | .partitionLayoutWrite => Sys2Proof.Machine.execPartitionLayoutWrite s
  | .powerOnBringup => Sys2Proof.Machine.execPowerOnBringup s
  | .bringupTimeout => Sys2Proof.Machine.execBringupTimeout s
  | .thermalThrottle => Sys2Proof.Machine.execThermalThrottle s
  | .thermalShutdown => Sys2Proof.Machine.execThermalShutdown s
  | .routerFailure => Sys2Proof.Machine.execRouterFailure s
  | .eccUncorrectable => Sys2Proof.Machine.execEccUncorrectable s
  | .softErrorCorrected => Sys2Proof.Machine.execSoftErrorCorrected s
  | .loaderLoad => Sys2Proof.Machine.execLoaderLoad s
  | .loaderIcinv => Sys2Proof.Machine.execLoaderIcinv s
  | .loaderReadatt => Sys2Proof.Machine.execLoaderReadatt s
  | .loaderInvalidCommand => Sys2Proof.Machine.execLoaderInvalidCommand s
  | .translationPublish => Sys2Proof.Machine.execTranslationPublish s
  | .spdmMeasurements => Sys2Proof.Machine.execSpdmMeasurements s
  | .keySlotWrite => Sys2Proof.Machine.execKeySlotWrite s
  | .podRouteTableWrite => Sys2Proof.Machine.execPodRouteTableWrite s
  | .coreFailure => Sys2Proof.Machine.execCoreFailure s

end Sys2Proof.Machine
end

