-- ==== Sys2Proof/Machine/Step.lean ====
section
/-! DEFINITION. One step of the machine, and the machine with an instruction placed where the next step fetches it. -/
namespace Sys2Proof.Machine

/-- After a step the free-value counter moves on, and no one issues. -/
def State.tick (s : State) : State := { s with seq := s.seq + 1, cur := .none }

/-- The end of a core cycle: its snapshot goes, and time passes by a free amount (log 5). -/
def State.endCycle (s : State) : State :=
  if s.issue.isEmpty then { s.pass (Config.cycles s.seq) with snap := [], kwr := [] } else s

/-- What a step does around an outcome. -/
def after : Res → Res
  | .next s => .next s.endCycle.tick
  | .fault f => .fault f
  | .refused r => .refused r

/-- The word with which a hood waits. -/
def Who.waitsAt (t : Who) (s : State) : Option Instr :=
  match t.hood with
  | some lo => match (s.group t.d t.gid).bind (·.hood lo) with
    | some h => if h.ctl.wait.waits then h.ctl.word else none
    | none => none
  | none => none

/-- The word of an agent: fetched, decoded, performed; a thread that waits tests its word again. -/
def State.issueWord (s : State) (a : Agent) : Res :=
  match a with
  | .none => .next s
  | .carder d inst =>
    let c := (s.die d).carder inst
    let sup := match c.current with | some q => q.sup | none => false
    match s.fetch d (carderAgent inst) sup (s.carderPc d sup c.ctl.pc) with
    | .stall => .next s
    | .fault cause va => .next (s.card d inst cause c.ctl.pc va)
    | .word w s => exec (decoded false w) { s with cur := a }
  | .waiting d gid x =>
    match ((s.group d gid).bind (·.lane x)).bind (·.ctl.word) with
    | some i => exec i { s with cur := a }
    | none => .next s
  | .gld d gid id => .next (s.gldStep d gid id)
  | .hood d gid _ | .lanes d gid _ _ =>
    match s.who a with
    | none => .next s
    | some t =>
      match t.waitsAt s with
      | some i => exec i { s with cur := a }
      | none =>
        match s.fetch d t.core (gid = 0) t.pc with
        | .stall => .next s
        | .fault cause va => .next (s.trap t { cause := cause, faddr := va, xs := t.all })
        | .word w s => exec (decoded (s.isSilol d gid t.pc) w) { s with cur := a }

/-- The state after an agent's word. -/
def State.perform (a : Agent) (s : State) : State :=
  match s.issueWord a with
  | .next t => t
  | _ => s

/-- What a free choice moves. -/
def State.move (s : State) : Move → Res
  | .core d c => .next (s.coreCycle State.perform d c)
  | .sv d => .next (s.svCycle State.perform d)
  | .carder d i => .next (s.carderCycle d i)
  | .event i => exec i s

/-- An input from outside is handled before anything else moves. -/
def State.input (s : State) (i : Input) (rest : List Input) : Res :=
  match i with
  | .link n h (.tile p) => .next ({ s with inbox := rest }.receive n.val h p)
  | .link n h (.session m) => .next ({ s with inbox := rest }.takeSession n.val h m)
  | .ringAddress a => .next { s with inbox := rest, ringBase := a, ringHead := 0 }
  | i => match s.inputEvent i with
    | some e => exec e s
    | none => .next { s with inbox := rest }

/-- What moves when no word issues and no input is taken: bring-up, step by step, or a free choice. -/
def State.onward (s : State) : Res := if s.boot.isSome then exec .powerOnBringup s else s.move (moveOf (Config.choice s.seq))

/-- One step: the words of a core cycle under way, else an input, else what moves on. -/
def step (s : State) : Host.Outcome State Fault Refusal :=
  match s.issue with
  | a :: rest => after ({ s with issue := rest }.issueWord a)
  | [] => match s.inbox with
    | i :: rest => after (if s.inputWaits i then s.onward else s.input i rest)
    | [] => after s.onward

/-! ## An instruction in place -/

/-- Where the placed instruction stands: virtual address 0x1000, device address 0x4000_0000. -/
def placedVa : DWord := 0x1000
def placedDa : Nat := 0x40000000
/-- A range table with one entry that maps the placed word's page R, X, U, at device address 0x4000_1000. -/
def placedTable : Nat := 0x40001000

/-- The group that issues the placed instruction: one index, expanded, G = 64, T = 15. -/
def placedGroup (gid : Nat) : Group where
  gid := gid
  count := 1
  tiles := 15
  slots := [0]
  alloc := [64]
  size := 0x8000
  lanes := [{ x := 0, ctl := { pc := placedVa }, g := Vector.replicate 64 0 }]

/-- A CRUN command, started, for a placed carder word. -/
def placedCmd : Cmd :=
  { id := 0, kind := .crun, started := true, ctx := 1, sup := false, core := 0, gid := 1, xs := [0], npart := 1, pc := placedVa, base := 0,
    number := 0, map := 1, hood := false }

/-- `s` with the word `w` placed where the next step fetches it: READY is up, no input waits, context 1 is active on die 0, and the
thread that may issue the word (the supervisor wave for supervisor words, a carder for carder-only words, else a tenant's lane) is
next. -/
def State.withFetchWord (s : State) (_nbits w : Nat) : State :=
  let word := BitVec.ofNat 32 w
  let i := decoded false word
  let entry := bytesOf 8 placedVa.toNat ++ bytesOf 8 (placedVa.toNat + 0x1000) ++ bytesOf 8 (placedDa - placedVa.toNat) ++ bytesOf 8 0b11011
  let mem := (s.mem.writeN placedDa (bytesOf 4 word.toNat)).writeN placedTable entry
  let a : Agent := if i.supervisor then .lanes 0 0 0 placedVa else if i.carderOnly then .carder 0 0 else .lanes 0 1 0 placedVa
  let s := s.modDie 0 fun D =>
    { D with svRtab := BitVec.ofNat 64 placedTable, tlb := [], icache := [], sv := placedGroup 0,
             active := { D.active with ctx := 1, rtab := BitVec.ofNat 64 placedTable, portable := [], groups := [placedGroup 1] },
             carders := if i.carderOnly then vput D.carders 0 { ctl := { pc := placedVa }, queue := [placedCmd] } else D.carders }
  let s := s.modPart (s.partOf 0) fun P => { P with halt := false, complete := false }
  { s with ready := true, mem := mem, moving := [], inbox := [], issue := [a], snap := [], kwr := [], cur := .none }

end Sys2Proof.Machine
end

