-- ==== Sys2Proof/Safety.lean ====
section
/-! DEFINITION. What counts as a safe run, and the terms in which claims speak of words: threads and carders that stand ready to perform
a word, and what the word leaves behind. -/
namespace Sys2Proof.Machine

/-- The run of `n` steps goes on: it meets no fault and no refusal. -/
def runsOn (s : State) (n : Nat) : Bool :=
  match Sys2Proof.core.run n s with
  | .next _ => true
  | _ => false

/-- Main memory is in canonical form. -/
def State.memWf (s : State) : Prop := s.mem.wf = true

/-! ## Threads that stand ready -/

/-- The issuing threads, with the participants of R258 as those that take part. -/
def State.taking (s : State) (w : Who) : Who := { w with xs := s.selected w }

/-- A hood, or lanes that came by one hint chain, issue the word `i` and perform it: it is a well-formed word of compute threads, its hints accept it, every register
it names lies below the allocation and outside the open windows, a supervisor word is issued by the supervisor wave (R20, R22, R25, R35,
R37; `State.precheck`), the predicate leaves a lane or the whole hood (R270), a control-flow word waits for no result (R22), and a hood at
a merge point finds no neighbour to wait for or to merge with (R152). -/
structure Ready (s : State) (i : Instr) (w : Who) (G : Group) : Prop where
  who   : s.who s.cur = some w
  group : s.group w.d w.gid = some G
  one   : w.mixed = []
  check : s.precheck w i = none
  sel   : s.selected w ≠ []
  whole : w.hood ≠ none → s.selected w = w.all
  free  : i.use.ctl = true → ∀ x ∈ w.all, (G.ctlOf w.hood x).outstanding = false
  point : ∀ lo, w.hood = some lo → (i.mergePoint || w.hints.any (· == .merge)) = true → G.mergeCheck lo = .proceed

/-- One logical wave, or a hood, issues: not both waves of a pair. -/
def Solo (G : Group) (w : Who) : Prop := w.hood ≠ none ∨ ∃ p, p < G.positions ∧ ∀ x ∈ w.all, G.pos x = p

/-- A hint is issued by threads whose chain holds none of its kind (R25). -/
structure HintReady (s : State) (i : Instr) (h : Hint) (w : Who) (G : Group) : Prop where
  who   : s.who s.cur = some w
  group : s.group w.d w.gid = some G
  ok    : i.use.ok = true
  fresh : ∀ x ∈ w.all, (w.hintsAt x).any (fun g => g.kind == h.kind) = false
  reg   : ∀ g, h = .pred g → ∀ x ∈ w.all, g.toNat < G.allocOf x

/-- A carder runs the word `i` of its program: the word is in the carder profile, its hints accept it, and no predicate excludes it
(R26, R36, R56). -/
structure CarderReady (s : State) (i : Instr) (d : DieId) (inst : Nat) : Prop where
  issue : s.cur = .carder d inst
  lt    : inst < 48
  hints : ((s.die d).carder inst).ctl.chain.any (fun h => !h.accepts i) = false
  word  : i.carderOk = true
  pred  : ∀ g, predOf ((s.die d).carder inst).ctl.chain = some g → (vget ((s.die d).carder inst).c g.toNat 0).getLsbD 0 = true

/-! ## What a word leaves behind -/

/-- The state without the registers and control states of a group's threads. -/
def Group.bare (G : Group) : Group := { G with hoods := [], lanes := [] }
def State.still (s : State) (w : Who) : State := s.modGroup w.d w.gid Group.bare
/-- The control state of index `x`. -/
def State.ctlAt (s : State) (w : Who) (x : Nat) : Ctl :=
  match s.group w.d w.gid with
  | some G => G.ctlOf w.hood x
  | none => {}

/-- The issuing threads have performed a word. Apart from the threads of their group, `t` is `u`: every special, uniform and exception
register, all local and main memory, every other group and die. Register `r` of index `x` holds `v x r`, or what it held where that is
none; every other thread keeps its registers; and each index goes on at `tgt x`, its hint chain ended. -/
structure Goes (s t u : State) (w : Who) (v : Nat → Nat → Option Word) (tgt : Nat → DWord) : Prop where
  still  : t.still w = u.still w
  regs   : ∀ x ∈ w.all, ∀ r, t.g w x r = (v x r).getD (s.g w x r)
  others : ∀ h x r, h ≠ w.hood ∨ (h = none ∧ x ∉ w.all) → t.g { w with hood := h } x r = s.g { w with hood := h } x r
  pc     : ∀ x ∈ w.all, (t.ctlAt w x).pc = tgt x
  chain  : ∀ x ∈ w.all, (t.ctlAt w x).chain = []

/-- The issuing threads perform the word `i` and go on at the next word: apart from them the state is `u`, and their registers take the
values `v`. -/
def Completes (i : Instr) (s u : State) (w : Who) (v : Nat → Nat → Option Word) : Prop :=
  ∃ t, exec i s = .next t ∧ Goes s t u w v w.next

/-- No register changes. -/
def noReg (_ _ : Nat) : Option Word := none
/-- Register `d` of the participants takes the values of `f`. -/
def oneReg (P : List Nat) (d : Nat) (f : Nat → Word) (x r : Nat) : Option Word := if P.contains x ∧ r = d then some (f x) else none
/-- `n` registers of the participants from `d` on. -/
def someRegs (P : List Nat) (d n : Nat) (f : Nat → Nat → Word) (x r : Nat) : Option Word :=
  if P.contains x ∧ d ≤ r ∧ r < d + n then some (f x (r - d)) else none

/-- The participants stay at their word in a wait state, nothing of theirs changed, and lanes that the predicate excludes pass it (R21, R270); apart
from them `t` is `u`. -/
structure Waits (s t u : State) (w : Who) (k : Wait) : Prop where
  still : t.still w = u.still w
  regs  : ∀ h x r, t.g { w with hood := h } x r = s.g { w with hood := h } x r
  pc    : ∀ x ∈ s.selected w, (t.ctlAt w x).pc = (s.ctlAt w x).pc
  chain : ∀ x ∈ s.selected w, (t.ctlAt w x).chain = (s.ctlAt w x).chain
  wait  : ∀ x ∈ s.selected w, (t.ctlAt w x).wait = k
  pass  : ∀ x ∈ w.all, x ∉ s.selected w → (t.ctlAt w x).pc = w.pc + 4

/-- The range of the issuing hood has expanded into lanes that stand at the word (R149). -/
def Expands (s t : State) (w : Who) : Prop :=
  ∃ lo, w.hood = some lo ∧ t = s.modGroup w.d w.gid fun G => (G.expand lo).settle

/-- A carder has performed a word: only its registers, its pc, its progress and its chain change. -/
def CarderGoes (t u : State) (d : DieId) (inst : Nat) (c : Vector DWord 32) (tgt : DWord) : Prop :=
  t = u.modCarder d inst fun o =>
    { o with c := c, p0 := 0, p1 := 0, p2 := 0, ctl := { o.ctl with pc := tgt, chain := [], wait := .none, stepped := true } }

end Sys2Proof.Machine
end

