-- ==== Sys2Proof/Certificates/Slice0/Obligations.lean ====
section
/-! DEFINITION. The statements for the provers. Tables in `Sys2Proof.Claims` say in the spec's terms what words compute; the obligations say that
`exec` does it. -/

open Sys2Proof Sys2Proof.Machine

/-! ## Integer words (R26, R30, R57, R145 to R157, R356) -/

namespace Sys2Proof.Claims

/-- The nearest value of `n` signed bits. -/
def nearest (n : Nat) (v : Int) : BitVec n := BitVec.ofInt n (max (-(2 ^ (n - 1) : Int)) (min (2 ^ (n - 1) - 1) v))
/-- A bit field operand: position in the low five or six bits, width from bit 8 on, cut at the top of the register (R57, R155). -/
def fieldPos {n : Nat} (b : BitVec n) : Nat := b.toNat % n
def fieldWidth {n : Nat} (b : BitVec n) : Nat := min (b.toNat / 256 % (2 * n)) (n - fieldPos b)
/-- The bits `p` to `p + k - 1`. -/
def maskOf (n p k : Nat) : BitVec n := BitVec.ofNat n ((2 ^ k - 1) * 2 ^ p)

/-- The destination and the value of an integer word, of lanes (32 bits) and of carders (64 bits): `r` gives the registers, `im` reads the
immediate. -/
def result {n : Nat} (im : BitVec 13 → BitVec n) : Instr → Option (Reg × ((Reg → BitVec n) → BitVec n))
  | .iadd d a b => some (d, fun r => r a + r b)
  | .isub d a b => some (d, fun r => r a - r b)
  | .iaddSatI32 d a b => some (d, fun r => nearest n ((r a).toInt + (r b).toInt))
  | .isubSatI32 d a b => some (d, fun r => nearest n ((r a).toInt - (r b).toInt))
  | .iaddSatN32 d a b => some (d, fun r => BitVec.ofNat n (min (2 ^ n - 1) ((r a).toNat + (r b).toNat)))
  | .isubSatN32 d a b => some (d, fun r => BitVec.ofNat n ((r a).toNat - (r b).toNat))
  | .iabs d a => some (d, fun r => BitVec.ofNat n (r a).toInt.natAbs)
  | .ineg d a => some (d, fun r => BitVec.ofInt n (-(r a).toInt))
  | .imul d a b _ => some (d, fun r => BitVec.ofInt n ((r a).toInt * (r b).toInt))
  | .imulhI32 d a b _ => some (d, fun r => BitVec.ofInt n ((r a).toInt * (r b).toInt / 2 ^ n))
  | .imulhN32 d a b _ => some (d, fun r => BitVec.ofNat n ((r a).toNat * (r b).toNat / 2 ^ n))
  | .imad d a b _ => some (d, fun r => r a * r b + r d)
  | .iminI32 d a b => some (d, fun r => BitVec.ofInt n (min (r a).toInt (r b).toInt))
  | .iminN32 d a b => some (d, fun r => BitVec.ofNat n (min (r a).toNat (r b).toNat))
  | .imaxI32 d a b => some (d, fun r => BitVec.ofInt n (max (r a).toInt (r b).toInt))
  | .imaxN32 d a b => some (d, fun r => BitVec.ofNat n (max (r a).toNat (r b).toNat))
  | .and d a b => some (d, fun r => r a &&& r b)
  | .or d a b => some (d, fun r => r a ||| r b)
  | .xor d a b => some (d, fun r => r a ^^^ r b)
  | .andn d a b => some (d, fun r => r a &&& ~~~r b)
  | .not d a => some (d, fun r => ~~~r a)
  | .shl d a b => some (d, fun r => BitVec.ofNat n ((r a).toNat * 2 ^ (r b).toNat))
  | .shr d a b => some (d, fun r => BitVec.ofNat n ((r a).toNat / 2 ^ (r b).toNat))
  | .sar d a b => some (d, fun r => BitVec.ofInt n ((r a).toInt / 2 ^ (r b).toNat))
  | .rol d a b => some (d, fun r => (r a).rotateLeft (r b).toNat)
  | .bfxN32 d a b => some (d, fun r => BitVec.ofNat n ((r a).toNat / 2 ^ fieldPos (r b) % 2 ^ fieldWidth (r b)))
  | .bfxI32 d a b => some (d, fun r => BitVec.ofInt n (Int.bmod ((r a).toNat / 2 ^ fieldPos (r b) : Nat) (2 ^ fieldWidth (r b))))
  | .bfi d a b => some (d, fun r =>
      let m := maskOf n (fieldPos (r b)) (fieldWidth (r b))
      (r d &&& ~~~m) ||| (r a * BitVec.ofNat n (2 ^ fieldPos (r b)) &&& m))
  | .popc d a => some (d, fun r => BitVec.ofNat n ((List.range n).countP fun i => (r a).getLsbD i))
  | .clz d a => some (d, fun r => BitVec.ofNat n (((List.range n).find? fun i => (r a).getMsbD i).getD n))
  | .ctz d a => some (d, fun r => BitVec.ofNat n (((List.range n).find? fun i => (r a).getLsbD i).getD n))
  | .brev d a => some (d, fun r => (r a).reverse)
  | .icmp c d a b => some (d, fun r => if ICond.holds c (r a) (r b) then 1 else 0)
  | .sel d a b => some (d, fun r => if (r d).getLsbD 0 then r a else r b)
  | .mov d a => some (d, fun r => r a)
  | .movi d v => some (d, fun _ => im v)
  | .addi d a v => some (d, fun r => r a + im v)
  | .andi d a v => some (d, fun r => r a &&& im v)
  | .ori d a v => some (d, fun r => r a ||| im v)
  | .xori d a v => some (d, fun r => r a ^^^ im v)
  | .shli d a v => some (d, fun r => BitVec.ofNat n ((r a).toNat * 2 ^ v.toNat))
  | _ => none

/-- The same with the words that carders do not have: MOVK, and the divisions, whose corners R356 gives. -/
def laneResult (im : BitVec 13 → Word) (k : KReg → Word) : Instr → Option (Reg × ((Reg → Word) → Word))
  | .movk d j => some (d, fun _ => k j)
  | .idivI32 d a b _ => some (d, fun r => if r b = 0 then 0xFFFFFFFF else BitVec.ofInt 32 ((r a).toInt.tdiv (r b).toInt))
  | .idivN32 d a b _ => some (d, fun r => if r b = 0 then 0xFFFFFFFF else BitVec.ofNat 32 ((r a).toNat / (r b).toNat))
  | .iremI32 d a b _ => some (d, fun r => if r b = 0 then r a else BitVec.ofInt 32 ((r a).toInt.tmod (r b).toInt))
  | .iremN32 d a b _ => some (d, fun r => if r b = 0 then r a else BitVec.ofNat 32 ((r a).toNat % (r b).toNat))
  | i => result im i

/-- Register `r` is UNIFORM in the issuing hood (R143). -/
def uniformIn (s : State) (w : Who) (r : Reg) : Prop := (s.form w r.toNat).stride = 0
/-- A condition holds for every index of the hood or for none (R147). -/
def agrees (w : Who) (p : Nat → Bool) : Prop := ∀ x ∈ w.all, ∀ y ∈ w.all, p x = p y

/-- When an integer word is done once in a hood (R145, R146), or its condition set is all of it or nothing (R147). -/
def once (s : State) (w : Who) : Instr → Prop
  | .iadd .. | .isub .. | .ineg .. | .not .. | .mov .. | .movk .. | .movi .. | .addi .. | .shli .. => True
  | .imul _ a b _ | .imad _ a b _ => uniformIn s w a ∨ uniformIn s w b
  | .shl _ _ b => uniformIn s w b
  | .icmp c _ a b => agrees w fun x => ICond.holds c (s.g w x a.toNat) (s.g w x b.toNat)
  | .sel d _ _ => agrees w fun x => (s.g w x d.toNat).getLsbD 0
  | i => ∀ r ∈ i.use.gr, (s.form w r).stride = 0

/-- The registers of a lane or of a hood's index. -/
def regsOf (s : State) (w : Who) (x : Nat) (r : Reg) : Word := s.g w x r.toNat

end Sys2Proof.Claims

open Sys2Proof Sys2Proof.Machine Sys2Proof.Claims

/-- R154 to R157, R356, R26: every lane that takes part writes the integer word's result from its own registers. -/
def Sys2Proof.Claims.IntegerWordsOnLanes : Prop :=
  ∀ (s : State) (i : Instr) (w : Who) (G : Group) (d : Reg) (f : (Reg → Word) → Word), Ready s i w G → w.hood = none →
    laneResult (immOf w.hints) (fun k => s.k w k.toNat) i = some (d, f) →
    Completes i s s w (oneReg (s.selected w) d.toNat fun x => f (regsOf s w x))

/-- R26, R258: lanes that stand at one integer word by different hint chains perform it together, each with its own hints. -/
def Sys2Proof.Claims.IntegerWordsByChain : Prop :=
  ∀ (s : State) (i : Instr) (w : Who) (G : Group) (d : Reg) (f : Nat → (Reg → Word) → Word), s.who s.cur = some w → s.group w.d w.gid = some G →
    w.hood = none → s.precheck w i = none → s.selected w ≠ [] →
    (∀ x, laneResult (immOf (w.hintsAt x)) (fun k => s.k w k.toNat) i = some (d, f x)) →
    Completes i s s w (oneReg (s.selected w) d.toNat fun x => f x (regsOf s w x))

/-- R145, R146, R147: a hood performs an integer word once, by forms, and every index then holds what a lane of its own would hold. -/
def Sys2Proof.Claims.IntegerWordsInHoods : Prop :=
  ∀ (s : State) (i : Instr) (w : Who) (G : Group) (d : Reg) (f : (Reg → Word) → Word), Ready s i w G → w.hood ≠ none → once s w i →
    laneResult (immOf w.hints) (fun k => s.k w k.toNat) i = some (d, f) →
    Completes i s s w (oneReg w.all d.toNat fun x => f (regsOf s w x))

/-- R57, R36: on a carder the integer words work on 64-bit c registers, an immediate sign-extended to 64 bits. -/
def Sys2Proof.Claims.IntegerWordsOnCarders : Prop :=
  ∀ (s : State) (i : Instr) (d : DieId) (inst : Nat) (r : Reg) (f : (Reg → DWord) → DWord), CarderReady s i d inst →
    let c := (s.die d).carder inst
    result (fun v => (immOf c.ctl.chain v).signExtend 64) i = some (r, f) →
    ∃ t, exec i s = .next t ∧ CarderGoes t s d inst (vput c.c r.toNat (f fun q => vget c.c q.toNat 0)) (c.ctl.pc + 4)

/-- R26: HINT.IMMHI supplies bits 31 to 13 of the immediate of the word after it; without one the 13 bits are sign-extended. -/
def Sys2Proof.Claims.ImmediateFromHint : Prop :=
  (∀ hs v, immhiOf hs = none → (immOf hs v).toInt = v.toInt) ∧
  ∀ hs hi v, immhiOf hs = some hi → (immOf hs v).extractLsb' 13 19 = hi ∧ (immOf hs v).extractLsb' 0 13 = v

/-- The integer words in lanes and in hoods, and the immediate that HINT.IMMHI forms. -/
def Obligations.IntegerWords : Prop := Claims.IntegerWordsOnLanes ∧ Claims.IntegerWordsByChain ∧ Claims.IntegerWordsInHoods ∧ Claims.ImmediateFromHint

/-! ## Floating point and conversions (R177 to R192, R357), cross-lane words (R181 to R183, R193 to R198) -/

namespace Sys2Proof.Claims

/-- A floating-point word's destination and value: exact arithmetic, rounded once in the mode that the word and its HINT.FMTX give, with
the key of stochastic rounding (R172 to R174). -/
def floatResult (hs : List Hint) (key : Word) : Instr → Option (Reg × ((Reg → Word) → Word)) :=
  let m := (roundingOf hs .rne false).1
  let sat := (roundingOf hs .rne false).2
  let v := fun (x : Word) => f32.val x.toNat
  let to32 := fun (x : Val) => BitVec.ofNat 32 (f32.of x m sat key)
  let pair16 := fun (F : FloatFmt) (op : Val → Val → Val → Val) (c a b : Word) =>
    BitVec.ofNat 16 (F.of (op (F.val (a.toNat / 65536)) (F.val (b.toNat / 65536)) (F.val (c.toNat / 65536))) m sat (key ^^^ 0x80000000)) ++
      BitVec.ofNat 16 (F.of (op (F.val (a.toNat % 65536)) (F.val (b.toNat % 65536)) (F.val (c.toNat % 65536))) m sat key)
  fun i => match i with
  | .fadd d a b _ => some (d, fun r => to32 ((v (r a)).add (v (r b)) m))
  | .fsub d a b _ => some (d, fun r => to32 ((v (r a)).add (v (r b)).neg m))
  | .fmul d a b _ => some (d, fun r => to32 ((v (r a)).mul (v (r b))))
  | .fdiv d a b _ => some (d, fun r => to32 ((v (r a)).div (v (r b))))
  | .ffma d a b _ => some (d, fun r => to32 (((v (r a)).mul (v (r b))).add (v (r d)) m))
  | .fmin d a b _ => some (d, fun r => fminOp false (r a) (r b))
  | .fmax d a b _ => some (d, fun r => fminOp true (r a) (r b))
  | .fneg d a _ => some (d, fun r => if v (r a) = .nan then 0x7FC00000 else r a ^^^ 0x80000000)
  | .fabs d a _ => some (d, fun r => if v (r a) = .nan then 0x7FC00000 else r a &&& 0x7FFFFFFF)
  | .fcmp c d a b _ => some (d, fun r => if FCond.holds c (r a) (r b) then 1 else 0)
  | .frcp d a _ => some (d, fun r => frcpOp (r a) sat)
  | .frsq d a _ => some (d, fun r => frsqOp (r a) sat)
  | .fsqrt d a _ => some (d, fun r => fsqrtOp (r a) m sat key)
  | .fexp2 d a _ => some (d, fun r => fexp2Op (r a) sat)
  | .flog2 d a _ => some (d, fun r => flog2Op (r a) sat)
  | .ftanh d a _ => some (d, fun r => ftanhOp (r a))
  | .fclass d a _ => some (d, fun r => fclassOp (r a))
  | .cvtifI32 d a _ => some (d, fun r => BitVec.ofNat 32 (f32.of (.fin (r a).msb (r a).toInt.natAbs 0) m false key))
  | .cvtifN32 d a _ => some (d, fun r => BitVec.ofNat 32 (f32.of (.fin false (r a).toNat 0) m false key))
  | .cvtfiI32 d a _ => some (d, fun r => cvtfiOp true (r a) (roundingOf hs .rz false).1 key)
  | .cvtfiN32 d a _ => some (d, fun r => cvtfiOp false (r a) (roundingOf hs .rz false).1 key)
  | .fcvt t f d a _ => some (d, fun r => BitVec.ofNat 32 ((NumFmt.fmt t).of ((NumFmt.fmt f).val (r a).toNat) m sat key))
  | .hadd2H16 d a b _ => some (d, fun r => pair16 h16 (fun x y _ => x.add y m) 0 (r a) (r b))
  | .hadd2B16 d a b _ => some (d, fun r => pair16 b16 (fun x y _ => x.add y m) 0 (r a) (r b))
  | .hmul2H16 d a b _ => some (d, fun r => pair16 h16 (fun x y _ => x.mul y) 0 (r a) (r b))
  | .hmul2B16 d a b _ => some (d, fun r => pair16 b16 (fun x y _ => x.mul y) 0 (r a) (r b))
  | .hfma2H16 d a b _ => some (d, fun r => pair16 h16 (fun x y z => (x.mul y).add z m) (r d) (r a) (r b))
  | .hfma2B16 d a b _ => some (d, fun r => pair16 b16 (fun x y z => (x.mul y).add z m) (r d) (r a) (r b))
  | _ => none

/-- The floating-point words that round: a stochastic mode in effect expands a hood (R184, R185). -/
def roundsByMode : Instr → Bool
  | .fmin .. | .fmax .. | .fneg .. | .fabs .. | .fcmp .. | .frcp .. | .frsq .. | .fexp2 .. | .flog2 .. | .ftanh .. | .fclass .. => false
  | _ => true
/-- A stochastic mode is in effect. -/
def stochastic (hs : List Hint) : Bool := match fmtxOf hs with
  | some (_, _, sr, _) => sr
  | none => false

/-- Destination and value, at index `x`, of the words that combine lanes; `S` is the group as the core cycle began (R183), `P` the
participants. BKPACK and BKUNPK have a value where their slot names a block format (R176): word `h` of the block of the 16 lanes of the half, and
element `h` of the block that its first lanes hold (`BlockValues` says what these are). -/
def crossResult (hs : List Hint) (S : Group) (P : List Nat) (x : Nat) : Instr → Option (Reg × Word) :=
  let n := if S.lw16 then 16 else 32
  let l := S.laneNo x % n
  let h := S.laneNo x % 16
  let base := x - l
  let mates := P.filter fun y => y - S.laneNo y % n == base
  let rd := fun (y : Nat) (r : Reg) => S.peek y r.toNat
  let lane := fun (src : Int) (a : Reg) => if 0 ≤ src ∧ src < n ∧ base + src.toNat ∈ mates then rd (base + src.toNat) a else rd x a
  let red := fun (o : RedOp) (ys : List Nat) (a : Reg) => (ys.map fun y => rd y a).foldl (RedOp.apply o) (RedOp.identity o)
  let redF := fun (o : FRedOp) (ys : List Nat) (a : Reg) => (ys.map fun y => rd y a).foldl (FRedOp.apply o) (FRedOp.identity o)
  fun i => match i with
  | .shfl .idx d a b _ => some (d, lane (rd x b).toNat a)
  | .shfl .up d a b _ => some (d, lane ((l : Int) - (rd x b).toNat) a)
  | .shfl .down d a b _ => some (d, lane ((l : Int) + (rd x b).toNat) a)
  | .shfl .xor d a b _ => some (d, lane (l ^^^ (rd x b).toNat : Nat) a)
  | .gshfl .idx d a b _ => some (d, rd (base + (rd x b).toNat % n) a)
  | .gshfl .rot d a b _ => some (d, rd (base + (l + (rd x b).toNat) % n) a)
  | .gshfl .xor d a b _ => some (d, rd (base + (l ^^^ ((rd x b).toNat % n))) a)
  | .vote .any d a _ => some (d, if mates.any fun y => (rd y a).getLsbD 0 then 1 else 0)
  | .vote .all d a _ => some (d, if mates.all fun y => (rd y a).getLsbD 0 then 1 else 0)
  | .vote .ballot d a _ => some (d, (mates.filter fun y => (rd y a).getLsbD 0).foldl (fun v y => v ||| ((1 : Word) <<< (y - base))) 0)
  | .vote .first d a _ => some (d, if (mates.filter fun y => (rd y a).getLsbD 0).head? = some x then 1 else 0)
  | .lred o d a _ => some (d, red o mates a)
  | .lscanIncl o d a _ => some (d, red o (mates.filter fun y => decide (y ≤ x)) a)
  | .lscanExcl o d a _ => some (d, red o (mates.filter fun y => decide (y < x)) a)
  | .lredF32 o d a _ => some (d, (treeOf (FRedOp.apply o) 5 ((List.range n).map fun j =>
      if base + j ∈ mates then rd (base + j) a else FRedOp.identity o)).headD 0)
  | .lscanInclF32 o d a _ => some (d, redF o (mates.filter fun y => decide (y ≤ x)) a)
  | .lscanExclF32 o d a _ => some (d, redF o (mates.filter fun y => decide (y < x)) a)
  | .bkpack d a sl _ =>
    let v := S.fmtSlot sl.toNat
    match blockP v.fmt with
    | some p => if v.ok then some (d, if h < blockWords p then BitVec.ofNat 32 (toBlock p ((List.range 16).map fun k =>
        (f32.val (rd (x - h + k) a).toNat, BitVec.ofNat 32 (x - h + k))) (roundingOf hs v.mode v.sat).1 / 2 ^ (32 * h)) else 0) else none
    | none => none
  | .bkunpk d a sl _ =>
    let v := S.fmtSlot sl.toNat
    match blockP v.fmt with
    | some p => if v.ok then some (d, BitVec.ofNat 32 (f32.of (blockElem p (((List.range (blockWords p)).map fun j =>
        (rd (x - h + j) a).toNat * 2 ^ (32 * j)).sum) h false) .rne false 0)) else none
    | none => none
  | _ => none

/-- The words that combine lanes. -/
def crossesLanes : Instr → Bool
  | .shfl .. | .gshfl .. | .vote .. | .lred .. | .lscanIncl .. | .lscanExcl .. | .lredF32 .. | .lscanInclF32 .. | .lscanExclF32 ..
  | .bkpack .. | .bkunpk .. => true
  | _ => false
/-- The format slot that a block word names. -/
def blockSlot : Instr → Option FmtSlot
  | .bkpack _ _ n _ | .bkunpk _ _ n _ => some n
  | _ => none

end Sys2Proof.Claims

/-- R177 to R180, R184 to R192, R357: floating-point words and conversions in lanes; the index is the key of stochastic rounding (R173). -/
def Sys2Proof.Claims.FloatWordsOnLanes : Prop :=
  ∀ (s : State) (i : Instr) (w : Who) (G : Group) (d : Reg) (f : Nat → (Reg → Word) → Word), Ready s i w G → w.hood = none →
    (∀ x, floatResult w.hints (BitVec.ofNat 32 x) i = some (d, f x)) →
    Completes i s s w (oneReg (s.selected w) d.toNat fun x => f x (regsOf s w x))

/-- R184: in a hood a floating-point word is done once on UNIFORM sources; on others, or with a stochastic mode in effect, its range expands
first. -/
def Sys2Proof.Claims.FloatWordsInHoods : Prop :=
  ∀ (s : State) (i : Instr) (w : Who) (G : Group) (d : Reg) (f : (Reg → Word) → Word), Ready s i w G → w.hood ≠ none →
    floatResult w.hints 0 i = some (d, f) →
    let fits := (∀ r ∈ i.use.gr, (s.form w r).stride = 0) ∧ ¬(roundsByMode i = true ∧ stochastic w.hints = true)
    (fits → Completes i s s w (oneReg w.all d.toNat fun x => f (regsOf s w x))) ∧
    (¬fits → (∀ x ∈ w.all, (G.ctlOf w.hood x).outstanding = false) → ∃ t, exec i s = .next t ∧ Expands s t w)

/-- The floating-point words in lanes and in hoods. -/
def Obligations.FloatWords : Prop := Claims.FloatWordsOnLanes ∧ Claims.FloatWordsInHoods

/-- R183, R193 to R198, R181, R182: SHFL, GSHFL, VOTE, LRED, LSCAN, BKPACK and BKUNPK in lanes read every lane as the cycle began and write
each participant's value. -/
def Sys2Proof.Claims.CrossLaneWords : Prop :=
  ∀ (s : State) (i : Instr) (w : Who) (G S : Group) (d : Reg) (v : Nat → Word), Ready s i w G → w.hood = none →
    s.snapGroup w.d w.gid = some S → (∀ x, crossResult w.hints S (s.selected w) x i = some (d, v x)) →
    Completes i s s w (oneReg (s.selected w) d.toNat v)

/-- R176: a block word whose format slot names no block format, or has a reserved bit set, traps FMT for all that take part. -/
def Sys2Proof.Claims.BlockWordsCheckFormat : Prop :=
  ∀ (s : State) (i : Instr) (w : Who) (G S : Group) (n : FmtSlot), Ready s i w G → w.hood = none → s.snapGroup w.d w.gid = some S →
    blockSlot i = some n → (blockP (S.fmtSlot n.toNat).fmt = none ∨ (S.fmtSlot n.toNat).ok = false) →
    exec i s = .next (s.trap (s.taking w) { cause := Cause.fmt, xs := s.selected w })

/-- The cross-lane words, and the check of the block words' format slot. -/
def Obligations.CrossLaneAndBlockWords : Prop := Claims.CrossLaneWords ∧ Claims.BlockWordsCheckFormat

/-! ## Values (R170 to R174, R179, R187 to R191) -/

namespace Sys2Proof.Claims

/-- The rounded integer of a real number in a mode (R172): to nearest with ties to even, toward zero, down, up; R173 for a stochastic mode. -/
def IsRounded (mode : Mode) (key : Word) (t : ℝ) (n : ℤ) : Prop := match mode with
  | .rne => |t - n| ≤ 1 / 2 ∧ (|t - n| = 1 / 2 → n % 2 = 0)
  | .rz => if 0 ≤ t then (n : ℝ) ≤ t ∧ t < n + 1 else (n : ℝ) - 1 < t ∧ t ≤ n
  | .rdn => (n : ℝ) ≤ t ∧ t < n + 1
  | .rup => (n : ℝ) - 1 < t ∧ t ≤ n
  | .sr seed => n = (if t < 0 then -1 else 1) * ⌊|t| + (srBits seed key : ℝ) / 2 ^ 16⌋
/-- The exponent of the unit in the last place at `t`, of a format: `lo` is its smallest subnormal's exponent, `w` its mantissa width. -/
def IsStep (lo : ℤ) (w : ℕ) (t : ℝ) (u : ℤ) : Prop := lo ≤ u ∧ |t| < (2 : ℝ) ^ (u + w + 1) ∧ (u = lo ∨ (2 : ℝ) ^ (u + w) ≤ |t|)
/-- The unit of binary32. -/
def IsUlp (t : ℝ) (u : ℤ) : Prop := IsStep (-149) 23 t u
/-- The real number of a finite value. -/
def Reads (v : Val) (t : ℝ) : Prop := ∃ neg m e, v = .fin neg m e ∧ t = (signed neg m : ℝ) * (2 : ℝ) ^ e
/-- An f32 result is finite and within `b` of `t`. -/
def Near (y : Word) (t b : ℝ) : Prop := ∃ v, Reads (f32.val y.toNat) v ∧ |v - t| ≤ b
/-- Bits of a format that hold a non-zero real number, rounded once from `t` (R172 to R174). -/
def RoundsTo (F : FloatFmt) (neg : Bool) (t : ℝ) (mode : Mode) (sat : Bool) (key : Word) (y : ℕ) : Prop :=
  ∀ (top : ℝ) (u n : ℤ), IsStep (F.emin - F.mbits) F.mbits t u → IsRounded mode key (t / (2 : ℝ) ^ u) n → Reads (F.val F.maxBits) top →
    y < 2 ^ F.width ∧ (|n * (2 : ℝ) ^ u| ≤ top → Reads (F.val y) (n * (2 : ℝ) ^ u) ∧ y.testBit (F.width - 1) = neg) ∧
    (top < |n * (2 : ℝ) ^ u| → y = F.overflow neg mode sat)
/-- A row of the table of R166: the format, its exponent and mantissa widths, its bias, whether it has infinities, and the bits of its largest finite
value, of what a positive infinity is written as, and of the canonical NaN. -/
structure FmtRow where
  fmt  : FloatFmt
  x    : ℕ
  w    : ℕ
  bias : ℤ
  inf  : Bool
  max  : ℕ
  infB : ℕ
  nan  : ℕ
def fmtTable : List FmtRow :=
  [⟨f32, 8, 23, 127, true, 0x7F7FFFFF, 0x7F800000, 0x7FC00000⟩, ⟨b16, 8, 7, 127, true, 0x7F7F, 0x7F80, 0x7FC0⟩, ⟨h16, 5, 10, 15, true, 0x7BFF, 0x7C00, 0x7E00⟩,
   ⟨e43, 4, 3, 7, false, 0x7E, 0x7F, 0x7F⟩, ⟨e52, 5, 2, 15, true, 0x7B, 0x7C, 0x7E⟩]
/-- Bits without sign; a NaN; the order in which −0 stands below +0; the order of values. -/
def magBits (a : Word) : ℕ := (a &&& 0x7FFFFFFF).toNat
def NanBits (a : Word) : Prop := 0x7F800000 < magBits a
def bitOrder (a : Word) : ℤ := if a.msb then -1 - (magBits a : ℤ) else magBits a
def valueOrder (a : Word) : ℤ := if a.msb then -(magBits a : ℤ) else magBits a
/-- The class of a bit of FCLASS (R189). -/
def InClass (a : Word) : ℕ → Prop
  | 0 => a = 0xFF800000
  | 1 => a.msb = true ∧ 2 ^ 23 ≤ magBits a ∧ magBits a < 0x7F800000
  | 2 => a.msb = true ∧ 0 < magBits a ∧ magBits a < 2 ^ 23
  | 3 => a = 0x80000000
  | 4 => a = 0
  | 5 => a.msb = false ∧ 0 < magBits a ∧ magBits a < 2 ^ 23
  | 6 => a.msb = false ∧ 2 ^ 23 ≤ magBits a ∧ magBits a < 0x7F800000
  | 7 => a = 0x7F800000
  | 8 => NanBits a ∧ a.getLsbD 22 = false
  | 9 => NanBits a ∧ a.getLsbD 22 = true
  | _ => False
/-- Magnitude of a value where a block's exponent and shifts are chosen: an infinity counts as 2^128 (R171). -/
def MagOf (v : Val) (t : ℝ) : Prop := match v with
  | .nan => False
  | .inf _ => t = (2 : ℝ) ^ (128 : ℤ)
  | .fin _ m e => t = m * (2 : ℝ) ^ e
/-- The largest magnitude of a list. -/
def MaxMag (l : List Val) (t : ℝ) : Prop := (∃ v ∈ l, MagOf v t) ∧ ∀ v ∈ l, ∀ x, MagOf v x → x ≤ t
/-- Fields of a block (R169). -/
def blockE (b : ℕ) : ℕ := b % 256
def blockShift (b q : ℕ) : ℕ := b / 2 ^ (8 + 2 * q) % 4
def blockM (p b k : ℕ) : ℕ := b / 2 ^ (16 + k * (p + 1)) % 2 ^ p
def blockSign (p b k : ℕ) : ℕ := b / 2 ^ (16 + k * (p + 1) + p) % 2
/-- The exponent of one unit of element `k` (R170). -/
def blockUnit (p b k : ℕ) : ℤ := (blockE b : ℤ) - 127 - blockShift b (k / 4) - ((p : ℤ) - 1)

end Sys2Proof.Claims

/-- R172 to R174: a finite value rounds to a multiple of the unit at it; past the largest finite value the result is the overflow's. -/
def Sys2Proof.Claims.RoundingValues : Prop :=
  ∀ F ∈ [f32, b16, h16, e43, e52], ∀ (neg : Bool) (m : ℕ) (e : ℤ) (mode : Mode) (sat : Bool) (key : Word), m ≠ 0 →
    RoundsTo F neg ((signed neg m : ℝ) * (2 : ℝ) ^ e) mode sat key (F.round neg m e mode sat key)

/-- R166, R167, R174: what the bits of each format read as, and the bits that a NaN, an infinite result, a zero and an overflow are written as. -/
def Sys2Proof.Claims.FormatPatterns : Prop :=
  ∀ R ∈ fmtTable, ∀ (v : ℕ) (neg sat : Bool) (mode : Mode) (key : Word),
    let F := R.fmt
    let m := v % 2 ^ R.w
    let x := v / 2 ^ R.w % 2 ^ R.x
    let s := v.testBit (R.x + R.w)
    let sign := if neg then 2 ^ (R.x + R.w) else 0
    let ones := x = 2 ^ R.x - 1
    let isNan := ones ∧ (if R.inf then m ≠ 0 else m = 2 ^ R.w - 1)
    let isInf := ones ∧ R.inf = true ∧ m = 0
    let finite := fun (t : ℝ) => Reads (F.val v) (if s then -t else t) ∧ ∃ n e, F.val v = .fin s n e
    let big := if R.inf then sign + R.infB else R.nan
    F.width = 1 + R.x + R.w ∧ F.maxBits = R.max ∧
    (isNan → F.val v = .nan) ∧ (isInf → F.val v = .inf s) ∧
    (¬isNan → ¬isInf → x = 0 → finite (m * (2 : ℝ) ^ (1 - R.bias - R.w))) ∧
    (¬isNan → ¬isInf → x ≠ 0 → finite ((1 + m * (2 : ℝ) ^ (-(R.w : ℤ))) * (2 : ℝ) ^ ((x : ℤ) - R.bias))) ∧
    F.of .nan mode sat key = R.nan ∧ F.of (.inf neg) mode sat key = (if sat then sign + R.max else big) ∧
    (∀ e, F.of (.fin neg 0 e) mode sat key = sign) ∧
    (∀ n e, n ≠ 0 → RoundsTo F neg ((signed neg n : ℝ) * (2 : ℝ) ^ e) mode sat key (F.of (.fin neg n e) mode sat key)) ∧
    F.overflow neg mode true = sign + R.max ∧ F.overflow neg .rne false = big ∧ (∀ seed, F.overflow neg (.sr seed) false = big) ∧
    F.overflow neg .rz false = sign + R.max ∧ F.overflow neg .rdn false = (if neg then big else R.max) ∧
    F.overflow neg .rup false = (if neg then sign + R.max else big)

/-- R186, R192, R357: the exact sum and product of finite values, and a quotient that rounds as the exact one does; the cases of NaN, of infinities, and the
sign of a zero. -/
def Sys2Proof.Claims.ExactArithmetic : Prop :=
  ∀ (a b : Val) (mode : Mode),
    (a = .nan ∨ b = .nan → a.add b mode = .nan ∧ a.mul b = .nan ∧ a.div b = .nan) ∧
    (∀ s t, a = .inf s → b = .inf t → a.add b mode = (if s = t then .inf s else .nan) ∧ a.mul b = .inf (s != t) ∧ a.div b = .nan) ∧
    (∀ s t n f, a = .inf s → b = .fin t n f → a.add b mode = .inf s ∧ b.add a mode = .inf s ∧ a.mul b = (if n = 0 then .nan else .inf (s != t)) ∧
      b.mul a = (if n = 0 then .nan else .inf (s != t)) ∧ a.div b = .inf (s != t) ∧ ∃ e, b.div a = .fin (t != s) 0 e) ∧
    ∀ s m e t n f, a = .fin s m e → b = .fin t n f → ∀ x y : ℝ, Reads a x → Reads b y →
      Reads (a.add b mode) (x + y) ∧
      (x + y = 0 → ∃ g, a.add b mode = .fin (if x = 0 ∧ y = 0 ∧ s = t then s else decide (mode = .rdn)) 0 g) ∧
      Reads (a.mul b) (x * y) ∧ (∃ k g, a.mul b = .fin (s != t) k g) ∧
      (y = 0 → a.div b = if x = 0 then .nan else .inf (s != t)) ∧
      (y ≠ 0 → x = 0 → ∃ g, a.div b = .fin (s != t) 0 g) ∧
      ∀ F ∈ [f32, b16, h16, e43, e52], ∀ (p q : ℕ) (sat : Bool) (key : Word), a = F.val p → b = F.val q → x ≠ 0 → y ≠ 0 →
        RoundsTo F (s != t) (x / y) mode sat key (F.of (a.div b) mode sat key)

/-- R210: the block sum of TMMA is exact, and is added to the accumulator in one rounding to the nearest; an exact zero is +0, and two infinities of unlike
sign, or a NaN, give the canonical NaN. -/
def Sys2Proof.Claims.BlockSums : Prop :=
  (∀ l : List Val, (.nan ∈ l ∨ (.inf true ∈ l ∧ .inf false ∈ l) → sumVals l = .nan) ∧
    (∀ neg, .nan ∉ l → .inf neg ∈ l → .inf (!neg) ∉ l → sumVals l = .inf neg) ∧
    ∀ xs : List ℝ, List.Forall₂ Reads l xs → Reads (sumVals l) xs.sum) ∧
  ∀ c sb : Val,
    (c = .nan ∨ sb = .nan ∨ (∃ neg, c = .inf neg ∧ sb = .inf !neg) → accumulate c sb = 0x7FC00000) ∧
    (∀ neg, c = .inf neg ∨ sb = .inf neg → c ≠ .nan → sb ≠ .nan → c ≠ .inf (!neg) → sb ≠ .inf (!neg) →
      accumulate c sb = if neg then 0xFF800000 else 0x7F800000) ∧
    ∀ x y : ℝ, Reads c x → Reads sb y → (x + y = 0 → accumulate c sb = 0) ∧
      (x + y ≠ 0 → RoundsTo f32 (decide (x + y < 0)) (x + y) .rne false 0 (accumulate c sb))

/-- R187: FMIN and FMAX, −0 below +0; one NaN gives the other operand, two give the canonical NaN. -/
def Sys2Proof.Claims.MinMaxValues : Prop :=
  ∀ (mx : Bool) (a b : Word),
    (NanBits a → NanBits b → fminOp mx a b = 0x7FC00000) ∧ (NanBits a → ¬NanBits b → fminOp mx a b = b) ∧
    (¬NanBits a → NanBits b → fminOp mx a b = a) ∧
    (¬NanBits a → ¬NanBits b → bitOrder (fminOp mx a b) = if mx then max (bitOrder a) (bitOrder b) else min (bitOrder a) (bitOrder b))

/-- R188: FCMP compares values; a NaN makes EQ, LT and LE false, NE and UN true. -/
def Sys2Proof.Claims.CompareValues : Prop :=
  ∀ (a b : Word),
    (NanBits a ∨ NanBits b → FCond.holds .eq a b = false ∧ FCond.holds .lt a b = false ∧ FCond.holds .le a b = false ∧
      FCond.holds .ne a b = true ∧ FCond.holds .un a b = true) ∧
    (¬NanBits a → ¬NanBits b → FCond.holds .eq a b = decide (valueOrder a = valueOrder b) ∧
      FCond.holds .ne a b = decide (valueOrder a ≠ valueOrder b) ∧ FCond.holds .lt a b = decide (valueOrder a < valueOrder b) ∧
      FCond.holds .le a b = decide (valueOrder a ≤ valueOrder b) ∧ FCond.holds .un a b = false)

/-- R189: FCLASS writes the one bit of the class. -/
def Sys2Proof.Claims.ClassTable : Prop := ∀ a : Word, (∃ k, InClass a k) ∧ ∀ k, InClass a k → fclassOp a = BitVec.ofNat 32 (2 ^ k)

/-- R179: CVTFI rounds to an integer and clamps; a NaN gives 0, an infinity the limit. -/
def Sys2Proof.Claims.CvtfiValues : Prop :=
  ∀ (sg : Bool) (a : Word) (mode : Mode) (key : Word),
    let lo : ℤ := if sg then -2 ^ 31 else 0
    let hi : ℤ := if sg then 2 ^ 31 - 1 else 2 ^ 32 - 1
    (NanBits a → cvtfiOp sg a mode key = 0) ∧ (a = 0x7F800000 → cvtfiOp sg a mode key = BitVec.ofInt 32 hi) ∧
    (a = 0xFF800000 → cvtfiOp sg a mode key = BitVec.ofInt 32 lo) ∧
    ∀ (t : ℝ) (n : ℤ), Reads (f32.val a.toNat) t → IsRounded mode key t n → cvtfiOp sg a mode key = BitVec.ofInt 32 (max lo (min hi n))

/-- R190: the special results of the function words; under sat an infinity becomes the largest finite value. -/
def Sys2Proof.Claims.FunctionSpecials : Prop :=
  ∀ (a : Word) (sat : Bool) (mode : Mode) (key : Word),
    let inf : Bool → Word := fun neg => (if neg then 0x80000000 else 0) ||| (if sat then 0x7F7FFFFF else 0x7F800000)
    let six : Word → List Word := fun x => [frcpOp x sat, frsqOp x sat, fsqrtOp x mode sat key, fexp2Op x sat, flog2Op x sat, ftanhOp x]
    let nan : Word := 0x7FC00000
    (NanBits a → six a = [nan, nan, nan, nan, nan, nan]) ∧
    six 0xFF800000 = [0x80000000, nan, nan, 0, nan, 0xBF800000] ∧
    six 0x80000000 = [inf true, inf true, 0x80000000, 0x3F800000, inf true, 0x80000000] ∧
    six 0 = [inf false, inf false, 0, 0x3F800000, inf true, 0] ∧
    six 0x7F800000 = [0, 0, inf false, inf false, inf false, 0x3F800000] ∧
    (InClass a 1 ∨ InClass a 2 → frsqOp a sat = nan ∧ fsqrtOp a mode sat key = nan ∧ flog2Op a sat = nan) ∧
    (magBits a ≤ 0x00200000 → frcpOp a sat = inf a.msb) ∧
    (¬NanBits a → a.msb = false → 0x43000000 ≤ magBits a → fexp2Op a sat = inf false) ∧
    (¬NanBits a → a.msb = true → 0x42FC0000 < magBits a → (fexp2Op a sat).toNat < 2 ^ 23)

/-- R191: FRCP and FRSQ are within one ulp, exact where the rule says so, and monotonic; FSQRT is correctly rounded. Within the bounds the values
are the part's own, free here (log 38). -/
def Sys2Proof.Claims.RootsAndReciprocals : Prop :=
  (∀ (a : Word) (sat : Bool) (t : ℝ) (u : ℤ), Reads (f32.val a.toNat) t → 0x00200000 < magBits a → IsUlp t⁻¹ u →
    Near (frcpOp a sat) t⁻¹ ((2 : ℝ) ^ u) ∧ (∀ k : ℤ, |t| = (2 : ℝ) ^ k → Near (frcpOp a sat) t⁻¹ 0)) ∧
  (∀ (a b : Word) (sat : Bool), ¬NanBits a → ¬NanBits b → a.msb = b.msb → bitOrder a ≤ bitOrder b →
    bitOrder (frcpOp b sat) ≤ bitOrder (frcpOp a sat)) ∧
  (∀ (a : Word) (sat : Bool) (t : ℝ) (u : ℤ), Reads (f32.val a.toNat) t → 0 < t → IsUlp (√t)⁻¹ u →
    Near (frsqOp a sat) (√t)⁻¹ ((2 : ℝ) ^ u) ∧ (∀ k : ℤ, t = (4 : ℝ) ^ k → Near (frsqOp a sat) (√t)⁻¹ 0)) ∧
  (∀ (a b : Word) (sat : Bool), ¬NanBits a → ¬NanBits b → a.msb = false → b.msb = false → bitOrder a ≤ bitOrder b →
    bitOrder (frsqOp b sat) ≤ bitOrder (frsqOp a sat)) ∧
  ∀ (a : Word) (mode : Mode) (sat : Bool) (key : Word) (t : ℝ) (u n : ℤ), Reads (f32.val a.toNat) t → 0 < t → IsUlp √t u →
    IsRounded mode key (√t / (2 : ℝ) ^ u) n → Near (fsqrtOp a mode sat key) (n * (2 : ℝ) ^ u) 0

/-- R191: FEXP2 and FLOG2 within two ulp, FLOG2 between 0.5 and 2 within 2^−22; exact at integers and at powers of two (log 38). -/
def Sys2Proof.Claims.ExponentialAndLogarithm : Prop :=
  (∀ (a : Word) (sat : Bool) (t : ℝ) (u : ℤ), Reads (f32.val a.toNat) t → t < 128 → IsUlp ((2 : ℝ) ^ t) u →
    Near (fexp2Op a sat) ((2 : ℝ) ^ t) (2 * (2 : ℝ) ^ u) ∧ (fexp2Op a sat).msb = false ∧
    (∀ k : ℤ, t = k → -149 ≤ k → Near (fexp2Op a sat) ((2 : ℝ) ^ k) 0)) ∧
  ∀ (a : Word) (sat : Bool) (t : ℝ) (u : ℤ), Reads (f32.val a.toNat) t → 0 < t → IsUlp (Real.logb 2 t) u →
    (1 / 2 ≤ t ∧ t ≤ 2 → Near (flog2Op a sat) (Real.logb 2 t) ((2 : ℝ) ^ (-22 : ℤ))) ∧
    (¬(1 / 2 ≤ t ∧ t ≤ 2) → Near (flog2Op a sat) (Real.logb 2 t) (2 * (2 : ℝ) ^ u)) ∧
    (∀ k : ℤ, t = (2 : ℝ) ^ k → Near (flog2Op a sat) k 0 ∧ (k = 0 → flog2Op a sat = 0))

/-- R191: FTANH gives a small argument back and ±1 from 9 on; between, it is within 2^−22 and within 2^−21 of the value itself, which four ulp are
at most (log 38). It is odd. -/
def Sys2Proof.Claims.TanhValues : Prop :=
  ∀ (a : Word) (t : ℝ), Reads (f32.val a.toNat) t →
    (|t| < (2 : ℝ) ^ (-12 : ℤ) → ftanhOp a = a) ∧ (9 ≤ t → ftanhOp a = 0x3F800000) ∧ (t ≤ -9 → ftanhOp a = 0xBF800000) ∧
    ((2 : ℝ) ^ (-12 : ℤ) ≤ |t| → |t| < 9 → Near (ftanhOp a) (Real.tanh t) (min ((2 : ℝ) ^ (-22 : ℤ)) ((2 : ℝ) ^ (-21 : ℤ) * |Real.tanh t|))) ∧
    ftanhOp (a ^^^ 0x80000000) = ftanhOp a ^^^ 0x80000000

/-- The error bounds and exact cases of the function words. -/
def Obligations.FunctionBounds : Prop := Claims.RootsAndReciprocals ∧ Claims.ExponentialAndLogarithm ∧ Claims.TanhValues

/-- R171, R181: the block that 16 values convert into; R170, R182: what its elements read as, exactly in f32. -/
def Sys2Proof.Claims.BlockValues : Prop :=
  ∀ p ∈ [2, 4, 7],
    (∀ (xs : List (Val × Word)) (mode : Mode), xs.length = 16 →
      let b := toBlock p xs mode
      (Val.nan ∈ xs.map (·.1) → b = 255) ∧
      (Val.nan ∉ xs.map (·.1) → b < 2 ^ (16 + 16 * (p + 1)) ∧
        (MaxMag (xs.map (·.1)) 0 → blockE b = 0) ∧
        (∀ (t : ℝ) (l : ℤ), MaxMag (xs.map (·.1)) t → (2 : ℝ) ^ l ≤ t → t < (2 : ℝ) ^ (l + 1) → (blockE b : ℤ) = max 0 (min 254 (l + 127))) ∧
        (∀ q < 4, ∀ t : ℝ, MaxMag (((xs.map (·.1)).drop (4 * q)).take 4) t →
          (blockShift b q = 0 ∨ t < (2 : ℝ) ^ ((blockE b : ℤ) - 126 - blockShift b q)) ∧
          ∀ s : ℕ, blockShift b q < s → s ≤ 3 → (2 : ℝ) ^ ((blockE b : ℤ) - 126 - s) ≤ t) ∧
        ∀ (k : ℕ) (v : Val) (key : Word), xs[k]? = some (v, key) →
          (∀ neg, v = .inf neg → blockM p b k = 2 ^ p - 1 ∧ blockSign p b k = neg.toNat) ∧
          ∀ (t : ℝ) (n : ℤ), Reads v t → IsRounded mode key (t / (2 : ℝ) ^ blockUnit p b k) n →
            blockM p b k = min (2 ^ p - 1) n.natAbs ∧ blockSign p b k = if n < 0 then 1 else 0)) ∧
    ∀ (b k : ℕ), k < 16 →
      (blockE b = 255 → blockElem p b k false = .nan ∧ f32.of (blockElem p b k false) .rne false 0 = 0x7FC00000) ∧
      (blockE b ≠ 255 → let t : ℝ := (-1) ^ blockSign p b k * blockM p b k * (2 : ℝ) ^ blockUnit p b k
        let y := f32.of (blockElem p b k false) .rne false 0
        Reads (blockElem p b k false) t ∧ Reads (f32.val y) t ∧ (blockM p b k = 0 → y = 0))

/-- The values of rounding, of each format's bits, of the exact sum, product and quotient and of TMMA's block sums, of FMIN, FMAX, FCMP, FCLASS, CVTFI, of the function words at their special operands, and of blocks. -/
def Obligations.FloatValues : Prop := Claims.RoundingValues ∧ Claims.FormatPatterns ∧ Claims.ExactArithmetic ∧ Claims.BlockSums ∧ Claims.MinMaxValues ∧ Claims.CompareValues ∧ Claims.ClassTable ∧ Claims.CvtfiValues ∧ Claims.FunctionSpecials ∧ Claims.BlockValues

/-! ## Uniform words, special registers, forms (R57, R143, R150, R153, R158 to R165) -/

namespace Sys2Proof.Claims

/-- The destination and the value of a uniform word: `r` gives the uniform registers, or a carder's c registers. -/
def kResult {n : Nat} : Instr → Option (KReg × ((KReg → BitVec n) → BitVec n))
  | .kadd k b => some (k, fun r => r k + r b)
  | .ksub k b => some (k, fun r => r k - r b)
  | .kmul k b => some (k, fun r => BitVec.ofNat n ((r k).toNat * (r b).toNat))
  | .kand k b => some (k, fun r => r k &&& r b)
  | .kor k b => some (k, fun r => r k ||| r b)
  | .kxor k b => some (k, fun r => r k ^^^ r b)
  | .kshl k b => some (k, fun r => BitVec.ofNat n ((r k).toNat * 2 ^ (r b).toNat))
  | .kshr k b => some (k, fun r => BitVec.ofNat n ((r k).toNat / 2 ^ (r b).toNat))
  | .kcmp c k b => some (k, fun r => if ICond.holds c (r k) (r b) then 1 else 0)
  | .kmov k b => some (k, fun r => r b)
  | .kmovi k imm => some (k, fun _ => BitVec.ofInt n imm.toInt)
  | _ => none

/-- Lowest index of an index's position, and LO and HI of its thread (R150). -/
def lowOf (w : Who) (G : Group) (x : Nat) : Nat := if w.hood.isSome then w.all.headD 0 else G.first + 32 * ((x - G.first) / 32)
def highOf (w : Who) (G : Group) (x : Nat) : Nat :=
  if w.hood.isSome then w.all.headD 0 + w.all.length else min (lowOf w G x + 32) (G.first + G.count)

/-- The special registers (R150, R161, R162). -/
def specialAt (s : State) (w : Who) (G : Group) (n : Nat) (hi : Bool) (x : Nat) : Word :=
  let half := fun (v : Nat) => BitVec.ofNat 32 (if hi then v / 2 ^ 32 else v)
  match n with
  | 0 => half x
  | 1 => half (lowOf w G x)
  | 2 => half (highOf w G x)
  | 3 => if w.hood.isSome then BitVec.ofNat 32 ((w.all.headD 0 - G.first) % 32) + BitVec.ofNat 32 (x - w.all.headD 0)
    else BitVec.ofNat 32 ((x - G.first) % 32)
  | 4 => BitVec.ofNat 32 ((x - G.first) / 32)
  | 5 => BitVec.ofNat 32 (G.roleOf (((if w.hood.isSome then w.all.headD 0 else x) - G.first) / 32))
  | 6 => G.number
  | 7 => BitVec.ofNat 32 w.core
  | 8 => BitVec.ofNat 32 (((s.die w.d).quad w.core).getD 0)
  | 9 => BitVec.ofNat 32 w.d.val
  | 10 => G.rank
  | 11 => BitVec.ofNat 32 (G.ctlOf w.hood x).prog
  | _ => half s.clock
/-- The special register has a form in the hood: its range lies in one position where the register tells positions apart, and IDX.hi is
one value. -/
def specialFits (w : Who) (G : Group) (n : Nat) (hi : Bool) : Prop :=
  (n = 3 ∨ n = 4 → agrees' fun x => (x - G.first) / 32) ∧ (n = 0 → hi = true → agrees' fun x => x / 2 ^ 32)
where agrees' (f : Nat → Nat) : Prop := f (w.all.headD 0) = f (w.all.headD 0 + w.all.length - 1)

/-- Register `n` of the lanes `xs` is affine over them (R153). -/
def affineIn (s : State) (w : Who) (xs : List Nat) (n : Nat) : Prop :=
  ∃ st : Word, ∀ j < xs.length, s.g w (xs.getD j 0) n = s.g w (xs.headD 0) n + st * BitVec.ofNat 32 j
/-- The live mask of REFORM. -/
def liveMask (s : State) (w : Who) (k : KReg) (n : Nat) : Bool := (s.k w (k.toNat + 1) ++ s.k w k.toNat).getLsbD n

end Sys2Proof.Claims

/-- R158, R160: a uniform word is performed once for the threads that issue it, whole; `setK` keeps the first value of a core cycle. -/
def Sys2Proof.Claims.UniformWordsInThreads : Prop :=
  ∀ (s : State) (i : Instr) (w : Who) (G : Group) (k : KReg) (f : (KReg → Word) → Word), Ready s i w G → kResult i = some (k, f) →
    let v := f fun q => s.k w q.toNat
    Completes i s (s.setK w k.toNat v) w noReg ∧
    (s.kwr.contains (w.gid, k.toNat) = true → s.setK w k.toNat v = s) ∧
    (s.kwr.contains (w.gid, k.toNat) = false → (s.setK w k.toNat v).group w.d w.gid = some { G with k := vput G.k k.toNat v })

/-- R57, R36: on a carder the uniform words act on 64-bit c registers. -/
def Sys2Proof.Claims.UniformWordsOnCarders : Prop :=
  ∀ (s : State) (i : Instr) (d : DieId) (inst : Nat) (k : KReg) (f : (KReg → DWord) → DWord), CarderReady s i d inst →
    kResult i = some (k, f) →
    let c := (s.die d).carder inst
    ∃ t, exec i s = .next t ∧ CarderGoes t s d inst (vput c.c k.toNat (f fun q => vget c.c q.toNat 0)) (c.ctl.pc + 4)

/-- The integer and uniform words on carders, over 64 bits. -/
def Obligations.CarderArithmetic : Prop := Claims.IntegerWordsOnCarders ∧ Claims.UniformWordsOnCarders

/-- R150, R162: RDS writes the special register's value, in a hood as a form; where the hood has no form for it, its range expands. -/
def Obligations.SpecialRegisterReads : Prop :=
  ∀ (s : State) (w : Who) (G : Group) (d : Reg) (n : BitVec 8) (hi : Bool), Ready s (.rds d n hi) w G →
    (w.hood = none ∨ specialFits w G n.toNat hi →
      Completes (.rds d n hi) s s w (oneReg (s.selected w) d.toNat fun x => specialAt s w G n.toNat hi x)) ∧
    (w.hood ≠ none → ¬specialFits w G n.toNat hi → (∀ x ∈ w.all, (G.ctlOf w.hood x).outstanding = false) →
      ∃ t, exec (.rds d n hi) s = .next t ∧ Expands s t w)

/-- R163: MOVTS copies a uniform register into a shape register, unchecked. -/
def Sys2Proof.Claims.MovtsWritesShape : Prop :=
  ∀ (s : State) (w : Who) (G : Group) (n : Tile) (k : KReg), Ready s (.movts n k) w G →
    Completes (.movts n k) s (s.modGroup w.d w.gid fun G => { G with shape := vput G.shape n.toNat (s.k w k.toNat) }) w noReg

/-- The uniform words and MOVTS. -/
def Obligations.UniformWords : Prop := Claims.UniformWordsInThreads ∧ Claims.MovtsWritesShape

/-- R164, R165: FORM gives each index ga + gb × (x − LO), FORM.tag the tag of a register, HCOUNT the participants; EXPAND in lanes does
nothing. -/
def Obligations.FormWords : Prop :=
  ∀ (s : State) (w : Who) (G : Group),
    (∀ d a b, Ready s (.form d a b) w G → (w.hood ≠ none → uniformIn s w b) →
      Completes (.form d a b) s s w (oneReg (s.selected w) d.toNat fun x =>
        regsOf s w x a + regsOf s w x b * BitVec.ofNat 32 (x - lowOf w G x))) ∧
    (∀ d a, Ready s (.formTag d a) w G →
      Completes (.formTag d a) s s w (oneReg (s.selected w) d.toNat fun _ =>
        if w.hood = none then 2 else if (s.form w a.toNat).stride = 0 then 0 else 1)) ∧
    (∀ d, Ready s (.hcount d) w G →
      Completes (.hcount d) s s w (oneReg (s.selected w) d.toNat fun x =>
        if w.hood = none then BitVec.ofNat 32 ((s.selected w).countP fun y => (y - G.first) / 32 == (x - G.first) / 32)
        else BitVec.ofNat 32 (min w.all.length 0xFFFFFFFF))) ∧
    (Ready s .expand w G → w.hood = none → Completes .expand s s w noReg)

/-- R153: the test of REFORM. The supervisor wave makes no hood (log 13: the model's choice). -/
def Sys2Proof.Claims.ReformTest : Prop :=
  ∀ (s : State) (w : Who) (G : Group) (d : Reg) (k : KReg), s.group w.d w.gid = some G → w.xs ≠ [] →
    ((s.reformed w d k G).isSome = true ↔
      w.gid ≠ 0 ∧ w.xs = range (w.xs.headD 0) (w.xs.headD 0 + w.xs.length) ∧ s.hoodsFree w.d w.core ≠ 0 ∧
      (∀ x ∈ w.xs, G.roleOf (G.pos x) = G.roleOf (G.pos (w.xs.headD 0)) ∧ G.allocOf x = G.allocOf (w.xs.headD 0)) ∧
      ∀ n < 64, n < G.allocOf (w.xs.headD 0) → liveMask s w k n = true → affineIn s w w.xs n) ∧
    ∀ h, s.reformed w d k G = some h →
      h.lo = w.xs.headD 0 ∧ h.hi = w.xs.headD 0 + w.xs.length ∧ h.ctl.pc = w.pc + 4 ∧ h.ctl.chain = [] ∧ vget h.g d.toNat {} = uni 1 ∧
      ∀ n < 64, n ≠ d.toNat →
        (n < G.allocOf (w.xs.headD 0) ∧ liveMask s w k n = true → ∀ x ∈ w.xs, (vget h.g n {}).at h.lo x = s.g w x n) ∧
        (¬(n < G.allocOf (w.xs.headD 0) ∧ liveMask s w k n = true) → vget h.g n {} = uni 0)

/-- R153: REFORM in a hood writes UNIFORM 1; in lanes it makes the hood that its test allows and takes their lanes away, or writes 0. -/
def Sys2Proof.Claims.ReformMakesHood : Prop :=
  ∀ (s : State) (w : Who) (G : Group) (d : Reg) (k : KReg), Ready s (.reform d k) w G →
    (w.hood ≠ none → Completes (.reform d k) s s w (oneReg w.all d.toNat fun _ => 1)) ∧
    (w.hood = none → (∀ x ∈ s.selected w, (G.ctlOf none x).outstanding = false) →
      (s.reformed (s.taking w) d k G = none → Completes (.reform d k) s s w (oneReg (s.selected w) d.toNat fun _ => 0)) ∧
      ∀ h, s.reformed (s.taking w) d k G = some h → ∃ t G', exec (.reform d k) s = .next t ∧ t.still w = s.still w ∧
        t.group w.d w.gid = some G' ∧ (∃ h' ∈ G'.hoods, h'.lo = h.lo ∧ h'.hi = h.hi ∧ h'.g = h.g ∧ h'.ctl.pc = w.pc + 4) ∧
        (∀ x ∈ s.selected w, G'.lane x = none) ∧
        ∀ x r, x ∉ s.selected w → t.g { w with hood := none } x r = s.g { w with hood := none } x r)

/-- REFORM: its test, and the hood it makes. -/
def Obligations.ReformWord : Prop := Claims.ReformTest ∧ Claims.ReformMakesHood

/-! ## Lane, uniform and spill accesses (R113 to R124, R159, R358) -/

namespace Sys2Proof.Claims

/-- The value that a load writes into its register `i`: zero-extended, sign-extended, a nibble of the byte, or a word of a pair or quad
(R31, R121). -/
def loaded (wd : Width) (o : Word) (bs : List Byte) (i : Nat) : Word :=
  let v := ofBytes bs
  let nib := if o.toNat % 2 = 1 then v / 16 else v % 16
  match wd with
  | .i8 => BitVec.ofInt 32 (Int.bmod v 256)
  | .i4 => BitVec.ofInt 32 (Int.bmod nib 16)
  | .n4 => BitVec.ofNat 32 (nib % 16)
  | .w32 | .x64 | .x128 | .n8 | .e43 | .e52 | .h16 | .b16 => BitVec.ofNat 32 (v / 2 ^ (32 * i))
/-- The bytes of a width, and of a spill width. -/
def bytesIn : Width → Nat
  | .i4 | .n4 | .i8 | .n8 | .e43 | .e52 => 1
  | .h16 | .b16 => 2
  | .w32 => 4
  | .x64 => 8
  | .x128 => 16
def spillBytes : SpillWidth → Nat
  | .w32 => 4 | .x64 => 8 | .x128 => 16
/-- The byte offset that an offset register gives. -/
def offsetOf (wd : Width) (v : Word) : Nat := match wd with
  | .i4 | .n4 => v.toNat / 2
  | _ => v.toNat

/-- Where a byte of local memory lies in the memory that holds it: a spill view is 32 bytes of the group's spill memory (R116). -/
def cellOf (G : Group) (space x a : Nat) : Nat := if space = 2 then (x - G.first) * 32 + a else a
/-- Byte `b` of index `y` in a space is one of the `n` bytes at `a` of index `x`. -/
def covers (G : Group) (space x a n sp y b : Nat) : Prop := sp = space ∧ cellOf G space x a ≤ cellOf G sp y b ∧ cellOf G sp y b < cellOf G space x a + n
/-- The first fault of an access by several indices: cause and indices (R122). -/
def faultOf (xs : List Nat) (pl : Nat → Place) (x : Nat) (c : Cause) (ys : List Nat) : Prop :=
  x ∈ xs ∧ pl x = .fault c ∧ (∀ y ∈ xs.takeWhile (· != x), ∀ c', pl y ≠ .fault c') ∧ ys = xs.filter fun y => decide (pl y = .fault c)

/-- The lowest address of the indices `ys` whose fault one record names with that of `x`: a hood's, or those of its logical wave (R316, R319). -/
def lowestOf (w : Who) (G : Group) (addr : Nat → Nat) (x : Nat) (ys : List Nat) (a : Nat) : Prop :=
  let zs := ys.filter fun y => w.hood.isSome || decide ((y - G.first) / 32 = (x - G.first) / 32)
  (∃ y ∈ zs, addr y = a) ∧ ∀ y ∈ zs, a ≤ addr y

/-- Byte `j` of the registers `r 0`, `r 1` and so on: the lowest register first, the low byte of each first (R121). -/
def regByte (r : Nat → Word) (j : Nat) : Byte := BitVec.ofNat 8 ((r (j / 4)).toNat / 256 ^ (j % 4))
/-- The bytes that a store of a width writes (R121, R122): of a whole width the low bytes of its registers; of a nibble width the byte `old` that stands
there, with the low four bits of the register in the nibble that bit 0 of the offset register `o` names, its neighbour kept. -/
def storedBytes (wd : Width) (o : Word) (old : Byte) (r : Nat → Word) : List Byte :=
  let nib := (r 0).toNat % 16
  match wd with
  | .i4 | .n4 => [BitVec.ofNat 8 (if o.toNat % 2 = 1 then old.toNat % 16 + 16 * nib else old.toNat / 16 * 16 + nib)]
  | .i8 | .n8 | .e43 | .e52 => (List.range 1).map (regByte r)
  | .h16 | .b16 => (List.range 2).map (regByte r)
  | .w32 => (List.range 4).map (regByte r)
  | .x64 => (List.range 8).map (regByte r)
  | .x128 => (List.range 16).map (regByte r)
/-- What a store by the participants `xs` leaves: each index's bytes, in ascending order. -/
def storeAll (s : State) (w : Who) (wd : Width) (space : Nat) (pl : Nat → Place) (r a : Reg) (xs : List Nat) : State :=
  xs.foldl (fun t x => match pl x with
    | .at b => t.writeLocal w.d w.gid x space b
        (storedBytes wd (s.g w x a.toNat) ((t.readLocal w.d w.gid x space b 1).headD 0) fun i => s.g w x (r.toNat + i))
    | _ => t) s

/-- The threads of a GLD back at its word, in a wait state: the micro-step reached is their progress, and the windows that wait for it are closed (R312,
R355). -/
def takenBack (G : Group) (q : Gld) (k : Wait) : Group :=
  let back := fun (c : Ctl) => { c with pc := q.pc, chainPc := q.chainPc, chain := q.chain, prog := q.step, wait := k, windows := c.windows.filter (·.tok != some q.id),
                                        word := none, cap := [], merged := false }
  { G with hoods := G.hoods.map fun h => if q.xs.contains h.lo then { h with ctl := back h.ctl } else h,
           lanes := G.lanes.map fun l => if q.xs.contains l.x then { l with ctl := back l.ctl } else l,
           glds := G.glds.filter (·.id != q.id) }

end Sys2Proof.Claims

/-- R119: where an access of `n` bytes at an offset of a record lands, mode by mode; a read of a line in error raises ECC (R117, R310). -/
def Sys2Proof.Claims.EffectiveOffset : Prop :=
  ∀ (s : State) (d : DieId) (gid x : Nat) (B : BufRec) (o n : Nat) (write : Bool), n ≠ 0 → B.mode < 4 →
    let land := fun e => if s.inSpace d gid B.space (B.base + e) n = false then Place.fault Cause.bounds
      else if (B.base + e) % n ≠ 0 then .fault Cause.align
      else if s.touchesLive d gid B.space (B.base + e) n = true then .fault Cause.baruse
      else if write = false ∧ s.badLocalAt d gid x B.space (B.base + e) n = true then .fault Cause.ecc else .at (B.base + e)
    (o + n ≤ B.extent → s.place d gid x B o n write = land o) ∧
    (B.extent < o + n → B.mode = 0 → s.place d gid x B o n write = .fault Cause.bounds) ∧
    (B.extent < o + n → B.mode = 1 → write = true → s.place d gid x B o n write = .nowhere) ∧
    (B.extent < o + n → B.mode = 1 → write = false → B.extent < n → s.place d gid x B o n write = .fault Cause.bounds) ∧
    (B.extent < o + n → B.mode = 1 → write = false → n ≤ B.extent → s.place d gid x B o n write = land ((B.extent - n) / n * n)) ∧
    (B.extent < o + n → B.mode = 2 → s.place d gid x B o n write = .nowhere) ∧
    (B.extent < o + n → B.mode = 3 → (B.extent = 0 ∨ B.extent < o % B.extent + n) → s.place d gid x B o n write = .fault Cause.bounds) ∧
    (B.extent < o + n → B.mode = 3 → B.extent ≠ 0 → o % B.extent + n ≤ B.extent → s.place d gid x B o n write = land (o % B.extent))

/-- R121 to R123: LD writes the extended bytes at each participant's place; in a hood a UNIFORM offset gives a UNIFORM value. -/
def Obligations.LoadWritesRegisters : Prop :=
  ∀ (s : State) (w : Who) (G : Group) (wd : Width) (d : Reg) (n : Buf) (a : Reg) (la : La), Ready s (.ld wd d n a la) w G →
    let B := s.buf w n
    let pl := fun x => s.lanePlace w x B (offsetOf wd (regsOf s w x a)) (bytesIn wd) false
    let val := fun x i => loaded wd (regsOf s w x a) (s.readPlace w x B.space (bytesIn wd) (pl x)) i
    (∀ x ∈ s.selected w, ∀ c, pl x ≠ .fault c) → s.accessHeld (s.taking w) B (bytesIn wd) false pl = false →
    (w.hood ≠ none → uniformIn s w a ∧ ∀ x ∈ w.all, ∀ i < wd.regs, val x i = val (w.all.headD 0) i) →
    Completes (.ld wd d n a la) s (s.useRecord w.d w.gid B) w (someRegs (s.selected w) d.toNat wd.regs val)

/-- R121, R122: ST writes each participant's bytes, which `storedBytes` gives, in ascending order of the indices, and completes; a participant whose bytes no
other one overlaps finds just those there; every byte outside the stored ones reads as before. -/
def Sys2Proof.Claims.StoreWritesBytes : Prop :=
  ∀ (s : State) (w : Who) (G : Group) (wd : Width) (r : Reg) (n : Buf) (a : Reg), Ready s (.st wd r n a) w G →
    let B := s.buf w n
    let pl := fun x => s.lanePlace w x B (offsetOf wd (regsOf s w x a)) (bytesIn wd) true
    let t' := storeAll s w wd B.space pl r a (s.selected w)
    (∀ x ∈ s.selected w, ∀ c, pl x ≠ .fault c) → s.accessHeld (s.taking w) B (bytesIn wd) true pl = false →
    Completes (.st wd r n a) s (t'.useRecord w.d w.gid B) w noReg ∧
    ∀ t, exec (.st wd r n a) s = .next t → t.mem = s.mem ∧ (G.shared.wf = true → G.spill.wf = true → (s.die w.d).scratch.wf = true →
      (∀ x ∈ s.selected w, ∀ e, pl x = .at e →
        (∀ y ∈ s.selected w, ∀ e', y ≠ x → pl y = .at e' → ∀ i < bytesIn wd, ¬covers G B.space y e' (bytesIn wd) B.space x (e + i)) →
        t.readLocal w.d w.gid x B.space e (bytesIn wd) =
          storedBytes wd (s.g w x a.toNat) ((s.readLocal w.d w.gid x B.space e 1).headD 0) fun i => s.g w x (r.toNat + i)) ∧
      ∀ sp y b, sp ≤ 2 → (∀ x ∈ s.selected w, ∀ e, pl x = .at e → ¬covers G B.space x e (bytesIn wd) sp y b) →
        t.readLocal w.d w.gid y sp b 1 = s.readLocal w.d w.gid y sp b 1)

/-- R121: what one index stores, it then reads back: whole widths as they are, a nibble beside its neighbour. -/
def Sys2Proof.Claims.StoreThenReadLocal : Prop :=
  ∀ (s : State) (d : DieId) (gid x sp a : Nat) (bs : List Byte) (G : Group), s.group d gid = some G → sp ≤ 2 →
    G.shared.wf = true → G.spill.wf = true → (s.die d).scratch.wf = true →
    (s.writeLocal d gid x sp a bs).readLocal d gid x sp a bs.length = bs

/-- What a store writes, and that a read finds it. -/
def Obligations.StoreWords : Prop := Claims.StoreWritesBytes ∧ Claims.StoreThenReadLocal

/-- R122, R316: if a participant's place faults, nothing changes but the fault: LD and ST trap with the cause of the lowest faulting index, name
every index that faults with it, and FADDR is the lowest of their addresses, taken over a hood or a logical wave (R319). -/
def Sys2Proof.Claims.AccessFaultsFirst : Prop :=
  ∀ (s : State) (w : Who) (G : Group) (wd : Width) (d : Reg) (n : Buf) (a : Reg) (la : La) (x : Nat) (c : Cause) (ys : List Nat) (low : Nat),
    let B := s.buf w n
    let addr := fun x => B.base + offsetOf wd (regsOf s w x a)
    let pl := fun write x => s.lanePlace w x B (offsetOf wd (regsOf s w x a)) (bytesIn wd) write
    let t := s.trap (s.taking w) { cause := c, faddr := BitVec.ofNat 64 low, xs := ys, freg := some a.toNat }
    lowestOf w G addr x ys low →
    (Ready s (.ld wd d n a la) w G → (w.hood ≠ none → uniformIn s w a) → faultOf (s.selected w) (pl false) x c ys →
      exec (.ld wd d n a la) s = .next t) ∧
    (Ready s (.st wd d n a) w G → faultOf (s.selected w) (pl true) x c ys → exec (.st wd d n a) s = .next t)

/-- The offset of a local access, and the faults that come before it. -/
def Obligations.AccessOffsetsAndFaults : Prop := Claims.EffectiveOffset ∧ Claims.AccessFaultsFirst

/-- R116, R121 to R123: FILL in lanes reads each index's own view; in a hood it restores the form that SPILL recorded, and where the records or
the words fit no form the range expands. -/
def Sys2Proof.Claims.FillReadsSpillView : Prop :=
  ∀ (s : State) (w : Who) (G : Group) (wd : SpillWidth) (d a : Reg) (la : La), Ready s (.fill wd d a la) w G →
    let o := fun x => (regsOf s w x a).toNat
    let val := fun x i => BitVec.ofNat 32 (ofBytes (s.readLocal w.d w.gid x 2 (o x) (spillBytes wd)) / 2 ^ (32 * i))
    let recorded := fun i => ∃ f : Form, ∀ x ∈ w.all,
      G.tagOf x (o (w.all.headD 0) + 4 * i) = some f.stride ∧ val x i = f.at (w.all.headD 0) x
    (∀ x ∈ s.selected w, o x + spillBytes wd ≤ 32 ∧ o x % spillBytes wd = 0 ∧ s.badLocalAt w.d w.gid x 2 (o x) (spillBytes wd) = false) →
    (w.hood ≠ none → uniformIn s w a) →
    ((w.hood ≠ none → ∀ i < wd.regs, recorded i) →
      Completes (.fill wd d a la) s s w (someRegs (s.selected w) d.toNat wd.regs val)) ∧
    (w.hood ≠ none → (∃ i, i < wd.regs ∧ ¬recorded i) → (∀ x ∈ w.all, (G.ctlOf w.hood x).outstanding = false) →
      ∃ t, exec (.fill wd d a la) s = .next t ∧ Expands s t w)

/-- R116, R121 to R123: SPILL stores the registers in each index's view; from a hood it records each word's stride, from lanes it leaves the words
without one. -/
def Sys2Proof.Claims.SpillWritesView : Prop :=
  ∀ (s : State) (w : Who) (G : Group) (wd : SpillWidth) (r a : Reg), Ready s (.spill wd r a) w G →
    let o := fun x => (regsOf s w x a).toNat
    (∀ x ∈ s.selected w, o x + spillBytes wd ≤ 32 ∧ o x % spillBytes wd = 0) → (w.hood ≠ none → uniformIn s w a) →
    let t := (s.selected w).foldl (fun t x => t.writeLocal w.d w.gid x 2 (o x) ((List.range (spillBytes wd)).map (regByte fun i => s.g w x (r.toNat + i)))) s
    let tags := if w.hood = none then [] else w.all.flatMap fun x => (List.range wd.regs).map fun i =>
      (⟨(x - G.first) * 32 + o x + 4 * i, (s.form w (r.toNat + i)).stride⟩ : SpillTag)
    Completes (.spill wd r a) s (t.modGroup w.d w.gid fun G => { G with tags := tags ++ G.tags }) w noReg

/-- FILL and SPILL through the spill view. -/
def Obligations.SpillWords : Prop := Claims.FillReadsSpillView ∧ Claims.SpillWritesView

/-- R159, R119: KLD loads a uniform register, KST stores one, through a record outside the spill space. -/
def Sys2Proof.Claims.UniformLoadStore : Prop :=
  ∀ (s : State) (w : Who) (G : Group) (k : KReg) (n : Buf) (o : KReg),
    let B := s.buf w n
    (Ready s (.kld k n o) w G → B.bad = false → B.space ≠ 2 →
      (∀ e, s.place w.d w.gid 0 B (s.k w o.toNat).toNat 4 false = .at e → s.byteHeld (s.taking w) B e 4 false = false →
        Completes (.kld k n o) s ((s.setK w k.toNat (BitVec.ofNat 32 (ofBytes (s.readLocal w.d w.gid 0 B.space e 4)))).useRecord w.d w.gid B) w noReg) ∧
      (s.place w.d w.gid 0 B (s.k w o.toNat).toNat 4 false = .nowhere → Completes (.kld k n o) s (s.setK w k.toNat 0) w noReg)) ∧
    (Ready s (.kst k n o) w G → B.bad = false → B.space ≠ 2 →
      (∀ e, s.place w.d w.gid 0 B (s.k w o.toNat).toNat 4 true = .at e → s.byteHeld (s.taking w) B e 4 true = false →
        Completes (.kst k n o) s ((s.writeLocal w.d w.gid 0 B.space e (bytesOf 4 (s.k w k.toNat).toNat)).useRecord w.d w.gid B) w noReg) ∧
      (s.place w.d w.gid 0 B (s.k w o.toNat).toNat 4 true = .nowhere → Completes (.kst k n o) s s w noReg)) ∧
    (Ready s (.kld k n o) w G → B.bad = false → B.space = 2 → exec (.kld k n o) s = .next (s.trap (s.taking w)
      { cause := Cause.bounds, faddr := BitVec.ofNat 64 (B.base + (s.k w o.toNat).toNat), xs := s.selected w })) ∧
    (Ready s (.kst k n o) w G → B.bad = false → B.space = 2 → exec (.kst k n o) s = .next (s.trap (s.taking w)
      { cause := Cause.bounds, faddr := BitVec.ofNat 64 (B.base + (s.k w o.toNat).toNat), xs := s.selected w }))

/-- R124: BRLD reads 32 bytes of a record, checked as in fault mode, through the core's descriptor cache, into the octet of its buffer slot. -/
def Sys2Proof.Claims.BufferRecordLoad : Prop :=
  ∀ (s : State) (w : Who) (G : Group) (n m : Buf) (a : Reg) (la : La) (b : Nat), Ready s (.brld n m a la) w G → Solo G w →
    (w.hood ≠ none → uniformIn s w a) →
    let B := s.buf w m
    let x := (s.selected w).headD 0
    B.bad = false → B.space ≠ 2 → s.place w.d w.gid 0 { B with mode := 0 } (regsOf s w x a).toNat 32 false = .at b →
    let sp := if B.space = 0 then (1, w.gid) else (2, 0)
    let bs := s.descRead w.d w.core (s.ctxOf w.d w.gid) sp.1 sp.2 b 32 (s.readLocal w.d w.gid x B.space b 32)
    let u := (List.range 8).foldl (fun t i => t.setK w (8 * n.toNat + i) (BitVec.ofNat 32 (fieldAt bs (4 * i) 4)))
      (s.descFill w.d w.core (s.ctxOf w.d w.gid) sp.1 sp.2 b bs)
    Completes (.brld n m a la) s (u.useRecord w.d w.gid B) w noReg

/-- KLD, KST and BRLD. -/
def Obligations.UniformMemoryWords : Prop := Claims.UniformLoadStore ∧ Claims.BufferRecordLoad

/-- R358, R355, R40, R59, R21: a GLD issues once each address passes its checks, in the translation cache of the carder whose free entry it takes, and its
thread goes on with a lookahead window that waits for it; micro-step 2 queues it; at 3, when the carder has answered (a free moment), the data has
returned, or a line in error halts with the threads back at the word, PROG 2; and then every destination register is written at once. -/
def Obligations.MainMemoryLoad : Prop :=
  (∀ (s : State) (w : Who) (G : Group) (wd : GldWidth) (d a : Reg) (la : La) (inst : Nat) (da : Nat → Nat), Ready s (.gld wd d a la) w G → Solo G w →
    let P := s.selected w
    let va := fun x => s.g w x (a.toNat + 1) ++ s.g w x a.toNat
    (∀ x ∈ P, (va x).toNat < 2 ^ 57 ∧ (va x).toNat % (4 * wd.regs) = 0 ∧ s.translate w.d (carderAgent inst) (w.gid = 0) (va x) .read = .ok (da x) ∧
      s.walkStalled w.d (carderAgent inst) (w.gid = 0) (va x) = false ∧ s.lateMain w.d w.gid (va x) (4 * wd.regs) = false) →
    s.bulkCarder (s.taking w) = some inst →
    ((ordOf w.hints).2 = .rel ∨ (ordOf w.hints).2 = .ar → s.fullReady w.d w.gid P = true) →
    (w.hood ≠ none → uniformIn s w a ∧ (s.form w (a.toNat + 1)).stride = 0) →
    let q : Gld := { id := s.nextId, hood := w.hood.isSome, xs := P, pc := w.pc, chainPc := w.chainPc, chain := w.hints, ga := a.toNat, gd := d.toNat,
                     regs := wd.regs, bytes := 4 * wd.regs, step := 1, inst := inst, vas := P.map fun x => (x, va x), das := P.map fun x => (x, da x) }
    Completes (.gld wd d a la) s { (P.foldl (fun t x => t.fillTlb w.d (carderAgent inst) (w.gid = 0) (va x)) s).modGroup w.d w.gid
      (fun G => { G with glds := G.glds ++ [q] }) with nextId := s.nextId + 1 } w noReg ∧
    ∀ t, exec (.gld wd d a la) s = .next t → ∀ x ∈ P, ∃ v ∈ (t.ctlAt w x).windows, v.left = la.toNat ∧ v.tok = some q.id) ∧
  ∀ (s : State) (d : DieId) (gid id : Nat) (rest : List Agent) (G : Group) (q : Gld), s.issue = .gld d gid id :: rest → s.group d gid = some G →
    G.glds.find? (·.id == id) = some q →
    let s1 := { s with issue := rest }
    let becomes := fun (p : Gld) => s1.modGroup d gid fun G => { G with glds := G.glds.map fun o => if o.id = id then p else o }
    let waits := s1.hit id = false ∨ ∃ p ∈ q.das, s1.stalled p.2 = true
    let bad := fun x => s1.badAt (((q.das.find? (·.1 == x)).map (·.2)).getD 0)
    (q.step = 1 → step s = after (.next (becomes { q with step := 2 }))) ∧
    (q.step = 2 → waits → step s = after (.next s1)) ∧
    (q.step = 2 → ¬waits → (∀ x ∈ q.xs, bad x = false) →
      step s = after (.next (becomes { q with step := 3, data := q.das.map fun p => (p.1, s1.mem.readN p.2 q.bytes) }))) ∧
    (q.step = 2 → ¬waits → (∃ x ∈ q.xs, bad x = true) → ∃ f : FaultRec, f.stop.cause = Cause.ecc ∧ f.stop.pc = q.pc ∧ f.stop.q18 = 2 ∧
      step s = after (.next (if gid = 0 then (s1.modGroup d gid fun G => takenBack G q .none).raiseSv d f
        else (s1.modGroup d gid fun G => takenBack G q .fault).raiseFault f))) ∧
    (q.step ≠ 1 → q.step ≠ 2 → ∃ t G', step s = after (.next t) ∧ t.group d gid = some G' ∧ t.mem = s.mem ∧ G'.glds = G.glds.filter (·.id != id) ∧
      (∀ h x, ∀ v ∈ (G'.ctlOf h x).windows, v.tok ≠ some id) ∧
      ∀ h x r, r < 64 →
        let lands := q.gd ≤ r ∧ r < q.gd + q.regs ∧ match h with
          | none => x ∈ q.xs ∧ (G.lane x).isSome = true
          | some lo => lo ∈ q.xs ∧ (G.hood lo).isSome = true
        (lands → G'.g h x r = BitVec.ofNat 32 (ofBytes (((((q.data.find? (·.1 == h.getD x)).map (·.2)).getD []).drop (4 * (r - q.gd))).take 4))) ∧
        (¬lands → G'.g h x r = G.g h x r))

/-! ## Control flow, traps and hints (R25 to R27, R57, R260 to R267, R349) -/

namespace Sys2Proof.Claims

/-- The target of a branch word: its own PC plus four times its offset (R19). -/
def branchTarget (pc : DWord) (off : BitVec 19) : DWord := BitVec.ofInt 64 (pc.toInt + 4 * off.toInt)
/-- Where a step takes index `x`: at a safe point whose map entry is visible, to the native address, a wave only with every lane of it
(R349). -/
def landing (s : State) (w : Who) (G : Group) (safe : Nat → Bool) (tgt : Nat → DWord) (x : Nat) : DWord :=
  if safe x = true ∧ w.gid ≠ 0 ∧ G.wholeWave (s.taking w) safe x = true then s.safeTarget w.d (tgt x) else tgt x
/-- The indices that a predicate excludes go on at the next word (R270). -/
def orNext (s : State) (w : Who) (tgt : Nat → DWord) (x : Nat) : DWord := if x ∈ s.selected w then tgt x else w.pc + 4
/-- A branch that goes back, or stays, ends at a safe point (R349). -/
def goesBack (off : BitVec 19) : Bool := decide (off.toInt ≤ 0)
/-- The condition of BRC (R261). -/
def taken (s : State) (w : Who) (c : Reg) (x : Nat) : Bool := (regsOf s w x c).getLsbD 0
/-- The target of RET and BRX: the register below the upper half of the word's own PC (R262). -/
def returnTarget (s : State) (w : Who) (a : Reg) (x : Nat) : DWord := w.pc.extractLsb' 32 32 ++ regsOf s w x a

/-- The hint that a hint word puts into its thread's chain. -/
def hintOf : Instr → Option Hint
  | .hintImmhi v => some (.immhi v)
  | .hintOrd sc o c => some (.ord sc o c)
  | .hintMerge => some .merge
  | .hintFmtx r sat sr seed => some (.fmtx r sat sr seed)
  | .hintLife us => some (.life us)
  | .hintPred g => some (.pred g)
  | _ => none

end Sys2Proof.Claims

/-- R260, R261: BRA goes to its target; BRC does where bit 0 of its register is set, in lanes each for itself, in a hood all together. -/
def Sys2Proof.Claims.BranchesGoToTarget : Prop :=
  ∀ (s : State) (w : Who) (G : Group) (off : BitVec 19) (c : Reg),
    let dest := fun (safe : Nat → Bool) (tgt : Nat → DWord) => orNext s w (landing s w G safe tgt)
    (Ready s (.bra off) w G →
      ∃ t, exec (.bra off) s = .next t ∧ Goes s t s w noReg (dest (fun _ => goesBack off) fun _ => branchTarget w.pc off)) ∧
    (Ready s (.brc c off) w G → (w.hood ≠ none → agrees w (taken s w c)) →
      ∃ t, exec (.brc c off) s = .next t ∧ Goes s t s w noReg
        (dest (fun x => taken s w c x && goesBack off) fun x => if taken s w c x = true then branchTarget w.pc off else w.pc + 4))

/-- R262: CALL writes the low half of PC + 4 and goes to its target. -/
def Sys2Proof.Claims.CallWritesLink : Prop :=
  ∀ (s : State) (w : Who) (G : Group) (d : Reg) (off : BitVec 19), Ready s (.call d off) w G →
    ∃ t, exec (.call d off) s = .next t ∧
      Goes s t s w (oneReg (s.selected w) d.toNat fun _ => (w.pc + 4).setWidth 32) (orNext s w fun _ => branchTarget w.pc off)

/-- R262, R316: RET and BRX go to the register's address under the upper half of their own PC; bits 1 and 0 must be zero, or ALIGN with the lowest
such target as FADDR. An AFFINE register expands the range. -/
def Sys2Proof.Claims.ReturnsGoToRegister : Prop :=
  ∀ (s : State) (w : Who) (G : Group) (i : Instr) (a : Reg), (i = .ret a ∨ i = .brx a) → Ready s i w G →
    (w.hood ≠ none → ¬uniformIn s w a → ∃ t, exec i s = .next t ∧ Expands s t w) ∧
    ((w.hood ≠ none → uniformIn s w a) → ((∀ x ∈ s.selected w, (regsOf s w x a).toNat % 4 = 0) →
      ∃ t, exec i s = .next t ∧ Goes s t s w noReg (orNext s w (returnTarget s w a))) ∧
    ∀ x ∈ s.selected w, (∀ y ∈ (s.selected w).takeWhile (· != x), (regsOf s w y a).toNat % 4 = 0) → (regsOf s w x a).toNat % 4 ≠ 0 →
      let ys := (s.selected w).filter fun y => (regsOf s w y a).toNat % 4 != 0
      ∀ low : DWord, lowestOf w G (fun y => (returnTarget s w a y).toNat) x ys low.toNat →
        exec i s = .next (s.trap (s.taking w) { cause := Cause.align, faddr := low, xs := ys, freg := some a.toNat }))

/-- BRA, BRC, CALL, RET and BRX. -/
def Obligations.JumpWords : Prop := Claims.BranchesGoToTarget ∧ Claims.CallWritesLink ∧ Claims.ReturnsGoToRegister

/-- R57: the control words of a carder program: 64-bit link and targets, RET and BRX of an unaligned target fault. -/
def Sys2Proof.Claims.ControlWordsOnCarders : Prop :=
  ∀ (s : State) (d : DieId) (inst : Nat),
    let c := (s.die d).carder inst
    let goes := fun (i : Instr) (v : Vector DWord 32) (tgt : DWord) => ∃ t, exec i s = .next t ∧ CarderGoes t s d inst v tgt
    (∀ off, CarderReady s (.bra off) d inst → goes (.bra off) c.c (branchTarget c.ctl.pc off)) ∧
    (∀ r off, CarderReady s (.brc r off) d inst →
      goes (.brc r off) c.c (if (vget c.c r.toNat 0).getLsbD 0 then branchTarget c.ctl.pc off else c.ctl.pc + 4)) ∧
    (∀ r off, CarderReady s (.call r off) d inst → goes (.call r off) (vput c.c r.toNat (c.ctl.pc + 4)) (branchTarget c.ctl.pc off)) ∧
    (∀ r i, (i = .ret r ∨ i = .brx r) → CarderReady s i d inst →
      ((vget c.c r.toNat 0).toNat % 4 = 0 → goes i c.c (vget c.c r.toNat 0)) ∧
      ((vget c.c r.toNat 0).toNat % 4 ≠ 0 → exec i s = .next (s.card d inst Cause.align c.ctl.pc (vget c.c r.toNat 0)))) ∧
    (CarderReady s .nop d inst → goes .nop c.c (c.ctl.pc + 4))

/-- R266, R267: NOP changes nothing; YIELD makes its thread the last choice for 16 issue cycles. -/
def Sys2Proof.Claims.NopAndYield : Prop :=
  ∀ (s : State) (w : Who) (G : Group),
    (Ready s .nop w G → Completes .nop s s w noReg) ∧
    (Ready s .yield w G → ∃ t, exec .yield s = .next t ∧ Goes s t s w noReg w.next ∧ ∀ x ∈ s.selected w, (t.ctlAt w x).yielded = 16)

/-- R264: JOIN in a hood goes on at once. In lanes it goes on when every live lane of its mask waits there, and until then its lanes wait; the lane
that makes a waiting lane's mask complete releases it. A waiting lane keeps its mask in `prog`; that none of them is free already holds
after every word. -/
def Sys2Proof.Claims.JoinWaitsForMask : Prop :=
  ∀ (s : State) (w : Who) (G : Group) (k : KReg), Ready s (.join k) w G →
    let lane := fun (x n : Nat) => G.first + 32 * ((x - G.first) / 32) + n
    let named := fun n => n < 32 ∧ (s.k w k.toNat).getLsbD n = true
    (w.hood ≠ none → Completes (.join k) s s w noReg) ∧
    (w.hood = none → (∀ x ∈ s.selected w, ∀ n, named n → G.lane (lane x n) = none ∨ lane x n ∈ s.selected w) →
      Completes (.join k) s s w noReg) ∧
    (w.hood = none → ∃ t, exec (.join k) s = .next t ∧ t.still w = s.still w ∧
      (∀ h x r, t.g { w with hood := h } x r = s.g { w with hood := h } x r) ∧
      (∀ x ∈ s.selected w, ∀ n, named n →
        (∃ l, G.lane (lane x n) = some l ∧ lane x n ∉ s.selected w ∧ (l.ctl.wait ≠ .join ∨ l.ctl.pc ≠ w.pc)) →
        (t.ctlAt w x).wait = .join ∧ (t.ctlAt w x).pc = w.pc) ∧
      ((∀ l ∈ G.lanes, l.ctl.wait = .join → G.joinFree l = false) →
        ∀ y l, y ∉ w.all → G.lane y = some l → l.ctl.wait = .join →
          (∀ n < 32, l.ctl.prog.testBit n = true → G.lane (lane y n) = none ∨ ∃ m, G.lane (lane y n) = some m ∧ m.ctl.pc = l.ctl.pc ∧
            (lane y n ∈ s.selected w ∨ lane y n ∉ w.all ∧ m.ctl.wait = .join)) →
          (t.ctlAt w y).wait = .none ∧ (t.ctlAt w y).pc = l.ctl.pc + 4))

/-- R265: EXIT ends its indices: no hood and no lane holds them any more; no other thread's register and no byte of main memory changes. -/
def Sys2Proof.Claims.ExitEndsIndices : Prop :=
  ∀ (s : State) (w : Who) (G : Group), Ready s .exit w G → (∀ g ∈ G.gathers, g.done = true ∨ ∀ x ∈ w.all, g.pos ≠ G.pos x) →
    ∃ t, exec .exit s = .next t ∧ t.mem = s.mem ∧
      (∀ G', t.group w.d w.gid = some G' → (∀ lo, w.hood = some lo → G'.hood lo = none) ∧ (w.hood = none → ∀ x ∈ s.selected w, G'.lane x = none)) ∧
      (∀ h x r, (h = none → x ∉ s.selected w) → h ≠ w.hood ∨ w.hood = none →
        t.g { w with hood := h } x r = s.g { w with hood := h } x r)

/-- R267, R310 to R312, R329: TRAPI raises TRAPI with its code as the faulting address and its thread stands after it and issues nothing more before
the halt; BRK raises BRK and its thread stands at it. The supervisor wave's go to its own handler. -/
def Sys2Proof.Claims.TrapWordsRaise : Prop :=
  ∀ (s : State) (w : Who) (G : Group) (code : BitVec 12),
    (Ready s (.brk code) w G → exec (.brk code) s = .next (s.trap (s.taking w) { cause := Cause.brk, faddr := code.setWidth 64, xs := s.selected w })) ∧
    (Ready s (.trapi code) w G →
      let f := s.faultRec (s.taking w) { cause := Cause.trapi, faddr := code.setWidth 64, xs := s.selected w }
      ∃ u, Goes s u s w noReg w.next ∧ (w.gid ≠ 0 → ∀ x ∈ s.selected w, (u.ctlAt w x).wait = .fault) ∧
        exec (.trapi code) s = .next (if w.gid = 0 then u.raiseSv w.d f else u.raiseFault f))

/-- JOIN and EXIT; TRAPI and BRK; NOP and YIELD. -/
def Obligations.JoinExitTrapIdle : Prop := Claims.JoinWaitsForMask ∧ Claims.ExitEndsIndices ∧ Claims.TrapWordsRaise ∧ Claims.NopAndYield

/-- R25, R26, R27: a hint word joins the chain of the word after it, PC + 4, and changes nothing else; a chain keeps the PC of its first word. -/
def Sys2Proof.Claims.HintsJoinChain : Prop :=
  ∀ (s : State) (i : Instr) (h : Hint) (w : Who) (G : Group), hintOf i = some h → HintReady s i h w G →
    ∃ t, exec i s = .next t ∧ t.still w = s.still w ∧ (∀ k x r, t.g { w with hood := k } x r = s.g { w with hood := k } x r) ∧
      ∀ x ∈ w.all, (t.ctlAt w x).pc = w.pc + 4 ∧ (t.ctlAt w x).chain = (s.ctlAt w x).chain ++ [h] ∧
        (t.ctlAt w x).chainPc = if (s.ctlAt w x).chain = [] then (s.ctlAt w x).pc else (s.ctlAt w x).chainPc

/-- R25, R26, R36: on a carder HINT.IMMHI and HINT.PRED of a c register join the chain of its program. -/
def Sys2Proof.Claims.CarderHintsJoinChain : Prop :=
  ∀ (s : State) (i : Instr) (h : Hint) (d : DieId) (inst : Nat), hintOf i = some h → s.cur = .carder d inst →
    let c := (s.die d).carder inst
    (∀ h' ∈ c.ctl.chain, h'.kind ≠ h.kind) → ((∃ v, h = .immhi v) ∨ ∃ g, h = .pred g ∧ g.toNat < 32) →
    exec i s = .next (s.modCarder d inst fun o => { o with ctl := { o.ctl with
      pc := c.ctl.pc + 4, chain := o.ctl.chain ++ [h], chainPc := if c.ctl.chain = [] then c.ctl.pc else c.ctl.chainPc } })

/-- Control flow and hints of carder programs. -/
def Obligations.CarderControl : Prop := Claims.ControlWordsOnCarders ∧ Claims.CarderHintsJoinChain

/-- R25, R26: a malformed hint, a second hint of a kind in one chain, and a predicate register at or above the allocation trap ILL at the chain's
first word: a hood as a whole, of lanes those whose chain is so. -/
def Sys2Proof.Claims.BadChainsTrapIll : Prop :=
  ∀ (s : State) (i : Instr) (h : Hint) (w : Who) (G : Group), hintOf i = some h → s.who s.cur = some w → s.group w.d w.gid = some G →
    let bad := fun x => !i.use.ok || (w.hintsAt x).any (fun g => g.kind == h.kind) ||
      (match h with | .pred g => decide (G.allocOf x ≤ g.toNat) | _ => false)
    let xs := if w.hood.isSome then w.all else w.all.filter bad
    (∃ x ∈ w.all, bad x = true) →
      exec i s = .next (s.trap w { cause := Cause.ill, xs := xs, pc := some (w.chainPcAt (xs.headD 0)) })

/-- Hints join their chain, and malformed chains trap. -/
def Obligations.HintWords : Prop := Claims.HintsJoinChain ∧ Claims.BadChainsTrapIll

/-! ## Barrier slots, rings, gathers, allocations (R125 to R139, R251 to R254, R269) -/

namespace Sys2Proof.Claims

/-- The local memories of a thread's group are in canonical form. -/
def localWf (s : State) (w : Who) (G : Group) : Prop := G.shared.wf = true ∧ G.spill.wf = true ∧ (s.die w.d).scratch.wf = true
/-- A slot after an update: a phase whose arrivals and bytes have all come ends in it (R129). -/
def endPhase (b : BSlot) : BSlot := if b.arrived = b.expected ∧ b.pending = 0 then { b with phase := b.phase + 1, arrived := 0 } else b
/-- The slot word's slot register; BINIT, which makes a slot, is not among them. -/
def slotKey : Instr → Option KReg
  | .bretire k | .barrive k | .bexpect k _ | .wait k _ | .btest _ k _ | .ctest _ k _ => some k
  | _ => none
/-- The ring word's ring register; RINIT is not among them. -/
def ringKey : Instr → Option KReg
  | .rprodTake k | .rprodFill k | .rconsTake _ k | .rconsFree k => some k
  | _ => none
/-- Phase `v` is complete (R129). -/
def phaseDone (b : BSlot) (v : Word) : Prop := 1 ≤ (b.phase - v).toNat ∧ (b.phase - v).toNat ≤ 2 ^ 31 - 1

/-- The issuing thread is the only thread of wave position `p`, and issues for all its live indices. -/
structure Alone (G : Group) (w : Who) (p : Nat) : Prop where
  lt    : p < G.positions
  here  : ∀ x ∈ w.all, G.pos x = p
  live  : ∀ x ∈ G.liveAt p, x ∈ w.all
  lanes : ∀ l ∈ G.lanes, G.pos l.x = p → w.hood = none
  hoods : ∀ h ∈ G.hoods, (∃ x ∈ range h.lo h.hi, G.pos x = p) → w.hood = some h.lo
/-- No gather of the group awaits its return, and none is open at the thread's positions. -/
def quiet (G : Group) (w : Who) : Prop := ∀ g ∈ G.gathers, g.done = false ∧ ∀ x ∈ w.all, g.pos ≠ G.pos x

/-- Waiting, with nothing else of the thread changed: its participants stand at the word. -/
def standsWaiting (s t : State) (w : Who) (k : Wait) : Prop :=
  (∀ h x r, t.g { w with hood := h } x r = s.g { w with hood := h } x r) ∧
  ∀ x ∈ s.selected w, (t.ctlAt w x).wait = k ∧ (t.ctlAt w x).pc = w.pc

end Sys2Proof.Claims

/-- R129: the updates of a slot: an arrival, an expectation of `n` bytes, a credit of `n` bytes. Each is refused where it would break a condition, and on a
line that is no live slot; the phase ends in the update in which all arrivals and bytes have come, and its bitmap block is cleared. A phase is complete for
the values that lie 1 to 2^31 - 1 behind. -/
def Sys2Proof.Claims.SlotUpdates : Prop :=
  ∀ (s : State) (w : Who) (G : Group) (a : Slot) (n : Nat), s.group w.d w.gid = some G → localWf s w G → a.space ≤ 1 →
    (s.bslot w.d w.gid a = none → s.arrive w.d w.gid a = none ∧ s.expect w.d w.gid a n = none ∧ s.creditSlot w.d w.gid a n = none) ∧
    ∀ b, s.bslot w.d w.gid a = some b → b.arrived ≤ b.expected →
      let leaves := fun (r : Option State) (b' : BSlot) => ∃ t, r = some t ∧ t.bslot w.d w.gid a = some (endPhase b') ∧
        (b'.arrived = b'.expected → b'.pending = 0 → b.bm = true → t.readLocal w.d w.gid 0 a.space (b.bitmapAt a) 16 = List.replicate 16 0)
      (b.arrived = b.expected → s.arrive w.d w.gid a = none) ∧
      (b.arrived < b.expected → leaves (s.arrive w.d w.gid a) { b with arrived := b.arrived + 1 }) ∧
      (2 ^ 28 ≤ b.pending + n → s.expect w.d w.gid a n = none) ∧
      (b.pending + n < 2 ^ 28 → leaves (s.expect w.d w.gid a n) { b with pending := b.pending + n }) ∧
      (b.pending < n → s.creditSlot w.d w.gid a n = none) ∧
      (n ≤ b.pending → leaves (s.creditSlot w.d w.gid a n) { b with pending := b.pending - n }) ∧
      ∀ v, b.complete v = true ↔ phaseDone b v

/-- R125, R131: BINIT writes a fresh slot of its scope, clears its bitmap block if it has one, and makes both lines live. Reserved bits, no expected arrival,
a scope that the space does not have, or a line that is live already raise BARUSE, and a bitmap block outside the space BOUNDS. -/
def Sys2Proof.Claims.BinitMakesSlot : Prop :=
  ∀ (s : State) (w : Who) (G : Group) (sc : Scope) (k b : KReg), Ready s (.binit sc k b) w G → Solo G w →
    let refuses := fun (c : Cause) => exec (.binit sc k b) s = .next (s.trap (s.taking w)
      { cause := c, faddr := BitVec.ofNat 64 (s.k w k.toNat).toNat, xs := s.selected w })
    (∀ c fa, s.slotAddr w.d w.gid (s.k w k.toNat) 16 = .fault c fa → refuses c) ∧
    ∀ a : Slot, s.slotAddr w.d w.gid (s.k w k.toNat) 16 = .ok a →
      let v := (s.k w b.toNat).toNat
      let bm := (s.k w b.toNat).getLsbD 19
      let bl := a.addr + 16 * (v / 2 ^ 16 % 8 + 1)
      let bad := 2 ^ 20 ≤ v ∨ v % 2 ^ 16 = 0 ∨ (a.space = 0 ∧ sc ≠ .core ∧ sc ≠ .quad ∧ sc ≠ .die) ∨ (a.space = 1 ∧ sc ≠ .die)
      let inside := bm = true → s.inSpace w.d w.gid a.space bl 16 = true
      let live := s.touchesLive w.d w.gid a.space a.addr 16 = true ∨ (bm = true ∧ s.touchesLive w.d w.gid a.space bl 16 = true)
      let sl : BSlot := { scope := Sys2Proof.Machine.Scope.code sc, phase := 0, bm := bm, bmd := v / 2 ^ 16 % 8, pending := 0, arrived := 0, expected := v % 2 ^ 16 }
      let u := s.writeLocal w.d w.gid 0 a.space a.addr sl.bytes
      let u := if bm then u.writeLocal w.d w.gid 0 a.space bl (List.replicate 16 0) else u
      let u := u.setLive w.d w.gid a.space (a.addr / 16 :: if bm then [bl / 16] else []) true
      (bad → refuses Cause.baruse) ∧ (¬bad → ¬inside → refuses Cause.bounds) ∧ (¬bad → inside → live → refuses Cause.baruse) ∧
      (¬bad → inside → ¬live → Completes (.binit sc k b) s u w noReg ∧ (localWf s w G → u.bslot w.d w.gid a = some sl))

/-- R132: BRETIRE of an idle slot that nothing names zeroes it and its bitmap block, and their lines are live no more. A thread of another core
that waits on the slot of the scratchpad waits for good. A slot in use, or one that something names, raises BARUSE. -/
def Sys2Proof.Claims.BretireClearsSlot : Prop :=
  ∀ (s : State) (w : Who) (G : Group) (k : KReg) (a : Slot) (b : BSlot), Ready s (.bretire k) w G → Solo G w →
    s.slotAddr w.d w.gid (s.k w k.toNat) 16 = .ok a → s.bslot w.d w.gid a = some b → s.badObject w.d w.gid a = false →
    let v := s.k w k.toNat
    let u := (s.strand w v).writeLocal w.d w.gid 0 a.space a.addr (List.replicate 16 0)
    let u := if b.bm then u.writeLocal w.d w.gid 0 a.space (b.bitmapAt a) (List.replicate 16 0) else u
    (b.arrived = 0 → b.pending = 0 → s.slotNamed (s.taking w) v = false →
      Completes (.bretire k) s (u.setLive w.d w.gid a.space (a.addr / 16 :: if b.bm then [b.bitmapAt a / 16] else []) false) w noReg) ∧
    (∀ gid H, gid ≠ 0 → w.gid ≠ 0 → v.getLsbD 31 = true → s.group w.d gid = some H → H.core ≠ w.core →
      ∃ H', (s.strand w v).group w.d gid = some H' ∧
        H'.lanes = H.lanes.map (fun l => { l with ctl := { l.ctl with wait := if l.ctl.waitsOn v then .lost else l.ctl.wait } }) ∧
        H'.hoods = H.hoods.map (fun h => { h with ctl := { h.ctl with wait := if h.ctl.waitsOn v then .lost else h.ctl.wait } })) ∧
    (b.arrived ≠ 0 ∨ b.pending ≠ 0 ∨ s.slotNamed (s.taking w) v = true → exec (.bretire k) s = .next (s.trap (s.taking w)
      { cause := Cause.baruse, faddr := BitVec.ofNat 64 v.toNat, xs := s.selected w }))

/-- R130, R133, R134: BEXPECT, BTEST, CTEST and WAIT on a live slot; WAIT of a phase that is not complete stays at its word, with the slot and the
phase that it named. Those that find the phase or the chunks complete are acquires of the slot (R295). BEXPECT of more than the slot can hold, or with
reserved bits, and CTEST of a slot without a bitmap, or with reserved bits, raise BARUSE. -/
def Sys2Proof.Claims.SlotWordsOnLiveSlot : Prop :=
  ∀ (s : State) (w : Who) (G : Group) (d : Reg) (k b : KReg) (a : Slot) (sl : BSlot), Solo G w →
    s.slotAddr w.d w.gid (s.k w k.toNat) 16 = .ok a → s.bslot w.d w.gid a = some sl → s.badObject w.d w.gid a = false →
    let v := s.k w b.toNat
    let acquired := s.noteAcquire w.d w.gid (s.k w k.toNat)
    let refused := fun (i : Instr) => exec i s = .next (s.trap (s.taking w)
      { cause := Cause.baruse, faddr := BitVec.ofNat 64 (s.k w k.toNat).toNat, xs := s.selected w })
    (Ready s (.bexpect k b) w G → 2 ^ 28 ≤ v.toNat ∨ s.expect w.d w.gid a v.toNat = none → refused (.bexpect k b)) ∧
    (Ready s (.ctest d k b) w G → sl.bm = false ∨ 2 ^ 19 ≤ v.toNat → refused (.ctest d k b)) ∧
    (Ready s (.bexpect k b) w G → ∀ t, v.toNat < 2 ^ 28 → s.expect w.d w.gid a v.toNat = some t → Completes (.bexpect k b) s t w noReg) ∧
    (Ready s (.btest d k b) w G →
      (phaseDone sl v → Completes (.btest d k b) s acquired w (oneReg (s.selected w) d.toNat fun _ => 1)) ∧
      (¬phaseDone sl v → Completes (.btest d k b) s s w (oneReg (s.selected w) d.toNat fun _ => 0))) ∧
    (Ready s (.ctest d k b) w G → sl.bm = true → v.toNat < 2 ^ 19 →
      let m := fieldAt (s.readLocal w.d w.gid 0 a.space (sl.bitmapAt a) 16) (2 * (v.toNat / 2 ^ 16)) 2
      let all := m &&& v.toNat % 2 ^ 16 = v.toNat % 2 ^ 16
      Completes (.ctest d k b) s (if all then acquired else s) w (oneReg (s.selected w) d.toNat fun _ => if all then 1 else 0)) ∧
    (Ready s (.wait k b) w G → phaseDone sl v →
      ∃ t, exec (.wait k b) s = .next t ∧ Goes s t acquired w noReg (orNext s w (landing s w G (fun _ => true) w.next))) ∧
    (Ready s (.wait k b) w G → ¬phaseDone sl v →
      ∃ t, exec (.wait k b) s = .next t ∧ t.still w = s.still w ∧ standsWaiting s t w .wait ∧
        ∀ x ∈ s.selected w, (t.ctlAt w x).cap = [(k.toNat, s.k w k.toNat), (b.toNat, v)])

/-- R130, R139, R310: a slot word other than BINIT, or a ring word other than RINIT, on a line that is no live slot or ring raises BARUSE precisely; where
a line of the object's record is in error it raises ECC. -/
def Obligations.DeadObjectRaisesBaruse : Prop :=
  ∀ (s : State) (i : Instr) (w : Who) (G : Group) (k : KReg) (a : Slot), Ready s i w G → Solo G w → s.slotAddr w.d w.gid (s.k w k.toNat) 16 = .ok a →
    let v := s.k w k.toNat
    let traps := fun (c : Cause) => exec i s = .next (s.trap (s.taking w) { cause := c, faddr := BitVec.ofNat 64 v.toNat, xs := s.selected w })
    ((slotKey i = some k ∧ s.bslot w.d w.gid a = none) ∨ (ringKey i = some k ∧ s.ring w.d w.gid a = none) → s.badObject w.d w.gid a = false →
      w.cap = [] → traps Cause.baruse) ∧
    (slotKey i = some k ∨ ringKey i = some k → s.badObject w.d w.gid a = true → w.cap = [] → traps Cause.ecc)

/-- R128, R130, R120: a BARRIVE joins its position's gather. The one that completes it is one arrival, or raises BARUSE on a full slot, and with the
arrival come the writes that the gathered threads had still to make (log 41); one that does not complete it goes on; and until the writes that it
releases are complete it is held at its word, in its gather, and no arrival is made. -/
def Obligations.BarriveIsGathered : Prop :=
  ∀ (s : State) (w : Who) (G : Group) (k : KReg) (a : Slot) (b : BSlot) (p : Nat), Ready s (.barrive k) w G → Solo G w → quiet G w → w.cap = [] →
    let v := s.k w k.toNat
    let late := s.unwritten w.d w.gid (s.selected w) v
    let g : Gather := { kind := .barrive, addr := v.toNat, pos := p, issued := w.all, selected := s.selected w, late := late }
    s.slotAddr w.d w.gid v 16 = .ok a → s.bslot w.d w.gid a = some b → s.badObject w.d w.gid a = false →
    (s.boundReady w.d w.gid (s.selected w) v = true →
      (Alone G w p → ∀ t, s.arrive w.d w.gid a = some t → Completes (.barrive k) s (t.noteRelease w.d w.gid v late) w noReg) ∧
      (Alone G w p → b.arrived = b.expected → exec (.barrive k) s = .next (s.trap (s.taking w)
        { cause := Cause.baruse, faddr := BitVec.ofNat 64 v.toNat, xs := w.all })) ∧
      (p < G.positions → (∀ x ∈ w.all, G.pos x = p) → (∃ x ∈ G.liveAt p, x ∉ w.all) →
        Completes (.barrive k) s (s.modGroup w.d w.gid fun G => { G with gathers := g :: G.gathers }) w noReg)) ∧
    (s.boundReady w.d w.gid (s.selected w) v = false → p < G.positions → (∀ x ∈ w.all, G.pos x = p) →
      ∃ t, exec (.barrive k) s = .next t ∧ standsWaiting s t w .arrive ∧ t.bslot w.d w.gid a = some b ∧
        ∃ G' g', t.group w.d w.gid = some G' ∧ g' ∈ G'.gathers ∧ g'.done = false ∧ g'.kind = g.kind ∧ g'.addr = g.addr ∧ g'.pos = p ∧
          g'.issued = g.issued ∧ g'.selected = g.selected ∧ g'.late = late)

/-- R125, R137 to R139: RINIT writes the ring that its image describes, all slots free, and makes its eight lines live. Reserved bits, counts or a slot size
out of range, a scope that the space does not have, or a line that is live already raise BARUSE, and a record that does not lie in the space BOUNDS. That a
record which is not 128-byte aligned raises BARUSE is the model's choice (log 51). -/
def Sys2Proof.Claims.RinitMakesRing : Prop :=
  ∀ (s : State) (w : Who) (G : Group) (k b : KReg), Ready s (.rinit k b) w G → Solo G w →
    let refuses := fun (c : Cause) => exec (.rinit k b) s = .next (s.trap (s.taking w)
      { cause := c, faddr := BitVec.ofNat 64 (s.k w k.toNat).toNat, xs := s.selected w })
    (∀ c fa, s.slotAddr w.d w.gid (s.k w k.toNat) 16 = .fault c fa → refuses c) ∧
    ∀ a : Slot, s.slotAddr w.d w.gid (s.k w k.toNat) 16 = .ok a →
      let v := (s.k w b.toNat).toNat
      let bad := 2 ^ 27 ≤ v ∨ v / 2 ^ 18 % 64 = 0 ∨ 24 < v / 2 ^ 18 % 64 ∨ v / 16 % 2 ^ 14 = 0 ∨
        (a.space = 0 ∧ ¬(1 ≤ v / 2 ^ 24 ∧ v / 2 ^ 24 ≤ 3)) ∨ (a.space = 1 ∧ v / 2 ^ 24 ≠ 3) ∨ a.addr % 128 ≠ 0
      let inside := s.inSpace w.d w.gid a.space a.addr 128 = true
      let live := s.touchesLive w.d w.gid a.space a.addr 128 = true
      let r : Ring := { word0 := v, fulln := 0, free := v % 16 + 1, pi := 0, slots := List.replicate 16 ⟨0, false, 0⟩, cursors := List.replicate 24 ⟨0, 0, 0⟩ }
      let u := (s.writeLocal w.d w.gid 0 a.space a.addr r.bytes).setLive w.d w.gid a.space ((List.range 8).map fun i => a.addr / 16 + i) true
      (bad → refuses Cause.baruse) ∧ (¬bad → ¬inside → refuses Cause.bounds) ∧ (¬bad → inside → live → refuses Cause.baruse) ∧
      (¬bad → inside → ¬live → Completes (.rinit k b) s u w noReg ∧ (localWf s w G → u.ring w.d w.gid a = some r))

/-- BINIT, BRETIRE and RINIT. -/
def Obligations.ObjectsAreMade : Prop := Claims.BinitMakesSlot ∧ Claims.BretireClearsSlot ∧ Claims.RinitMakesRing

/-- R139: RPROD.take reserves the next slots for its participants in ascending order, and waits while none is free; RPROD.fill marks the reserved
slots FULL and clears the reservations, or raises BARUSE for the indices that hold none. The one is an acquire of the ring, the other a release. -/
def Sys2Proof.Claims.ProducerRingWords : Prop :=
  ∀ (s : State) (w : Who) (G : Group) (k : KReg) (a : Slot) (r : Ring), s.slotAddr w.d w.gid (s.k w k.toNat) 16 = .ok a →
    s.ring w.d w.gid a = some r → s.badObject w.d w.gid a = false →
    let v := s.k w k.toNat
    let P := s.selected w
    (Ready s (.rprodTake k) w G → r.pi < r.n → (w.hood ≠ none → w.prog = 0) → P.length ≤ r.free →
      Completes (.rprodTake k) s (((s.modGroup w.d w.gid fun G => P.zipIdx.foldl (fun G q => G.reserve q.1 v ((r.pi + q.2) % r.n)) G).putRing w.d w.gid a
        { r with free := r.free - P.length, pi := (r.pi + P.length) % r.n }).noteAcquire w.d w.gid v) w noReg) ∧
    (Ready s (.rprodTake k) w G → (w.hood ≠ none → w.prog = 0) → r.free = 0 →
      ∃ t, exec (.rprodTake k) s = .next t ∧ t.still w = s.still w ∧ standsWaiting s t w .wait) ∧
    (Ready s (.rprodFill k) w G → (∀ x ∈ P, (G.reserved x v).isSome = true) → s.boundReady w.d w.gid P v = true →
      Completes (.rprodFill k) s (((s.putRing w.d w.gid a (P.foldl (fun r x => r.markFull ((G.reserved x v).getD 0)) r)).noteRelease w.d w.gid v
          (s.unwritten w.d w.gid P v)).modGroup w.d w.gid fun G =>
        { G with resv := G.resv.filter fun q => !(P.contains q.x && q.ring == v) }) w noReg) ∧
    (Ready s (.rprodFill k) w G → (∃ x ∈ P, G.reserved x v = none) →
      exec (.rprodFill k) s = .next (s.trap (s.taking w)
        { cause := Cause.baruse, faddr := BitVec.ofNat 64 v.toNat, xs := P.filter fun x => (G.reserved x v).isNone }))

/-- R139, R128: RCONS.take of a complete position gives it the slot at its TC, RCONS.free returns the one at its FC; the last position to free a slot
clears it. The one is an acquire of the ring, the other a release. RCONS.take of a slot that is not FULL waits. A take beyond the slots there are, a free of none, and a position at or above CONS raise BARUSE. -/
def Sys2Proof.Claims.ConsumerRingWords : Prop :=
  ∀ (s : State) (w : Who) (G : Group) (d : Reg) (k : KReg) (a : Slot) (r : Ring) (p : Nat), Solo G w → quiet G w → Alone G w p → w.cap = [] →
    s.slotAddr w.d w.gid (s.k w k.toNat) 16 = .ok a → s.ring w.d w.gid a = some r → s.badObject w.d w.gid a = false →
    let v := s.k w k.toNat
    let c := r.cursor p
    let refused := fun (i : Instr) => exec i s = .next (s.trap (s.taking w)
      { cause := Cause.baruse, faddr := BitVec.ofNat 64 (s.k w k.toNat).toNat, xs := w.all })
    (Ready s (.rconsTake d k) w G → r.cons ≤ p ∨ c.out = r.n → refused (.rconsTake d k)) ∧
    (Ready s (.rconsFree k) w G → s.boundReady w.d w.gid (s.selected w) (s.k w k.toNat) = true → r.cons ≤ p ∨ c.out = 0 → refused (.rconsFree k)) ∧
    (p < r.cons →
    (Ready s (.rconsTake d k) w G → c.out ≠ r.n → (r.slot c.tc).full = true →
      Completes (.rconsTake d k) s ((s.putRing w.d w.gid a (r.setCursor p { c with tc := (c.tc + 1) % r.n, out := c.out + 1 })).noteAcquire w.d w.gid v) w
        (oneReg (s.selected w) d.toNat fun _ => BitVec.ofNat 32 c.tc)) ∧
    (Ready s (.rconsTake d k) w G → c.out ≠ r.n → (r.slot c.tc).full = false →
      ∃ t, exec (.rconsTake d k) s = .next t ∧ t.mem = s.mem ∧ standsWaiting s t w .wait) ∧
    (Ready s (.rconsFree k) w G → s.boundReady w.d w.gid (s.selected w) (s.k w k.toNat) = true → c.out ≠ 0 →
      let r1 := r.setCursor p { c with fc := (c.fc + 1) % r.n, out := c.out - 1 }
      let r2 := if (r.slot c.fc).rel + 1 = r.cons then { r1.setSlot c.fc ⟨0, false, 0⟩ with fulln := r.fulln - 1, free := r.free + 1 }
        else r1.setSlot c.fc { r.slot c.fc with rel := (r.slot c.fc).rel + 1 }
      Completes (.rconsFree k) s ((s.putRing w.d w.gid a r2).noteRelease w.d w.gid v (s.unwritten w.d w.gid (s.selected w) v)) w noReg))

/-- The ring words of producers and consumers. -/
def Obligations.RingWords : Prop := Claims.ProducerRingWords ∧ Claims.ConsumerRingWords

/-- R139: a credit of `b` bytes on a ring slot: BARUSE on a FULL slot or past its size, else LANDED rises, and the slot that is whole is FULL. -/
def Sys2Proof.Claims.RingCredit : Prop :=
  ∀ (r : Ring) (i b : Nat), i < r.slots.length →
    ((r.slot i).full = true ∨ 64 * r.slot64 < (r.slot i).landed + b → r.credit i b = none) ∧
    ((r.slot i).full = false → (r.slot i).landed + b < 64 * r.slot64 →
      ∃ q, r.credit i b = some q ∧ q.slot i = { r.slot i with landed := (r.slot i).landed + b } ∧ q.fulln = r.fulln) ∧
    ((r.slot i).full = false → (r.slot i).landed + b = 64 * r.slot64 →
      ∃ q, r.credit i b = some q ∧ q.slot i = { r.slot i with landed := (r.slot i).landed + b, full := true } ∧ q.fulln = r.fulln + 1)

/-- The updates of barrier slots and the credits of ring slots. -/
def Obligations.SlotUpdatesAndCredits : Prop := Claims.SlotUpdates ∧ Claims.RingCredit

/-- R269: REGGIVE returns 8n registers of a position to the pool, REGCLAIM takes 8n from it and zeroes them. -/
def Obligations.AllocationsMove : Prop :=
  ∀ (s : State) (w : Who) (G : Group) (n : Reg) (p : Nat), Solo G w → quiet G w → Alone G w p →
    let g := G.alloc.getD p 0
    (Ready s (.reggive n) w G → 8 * n.toNat + 8 ≤ g →
      Completes (.reggive n) s ((s.modGroup w.d w.gid fun G => { G with alloc := G.alloc.set p (g - 8 * n.toNat), pool := G.pool + n.toNat })) w noReg) ∧
    (Ready s (.regclaim n) w G → g + 8 * n.toNat ≤ 64 → n.toNat ≤ G.pool → G.claims = [] →
      Completes (.regclaim n) s ((s.modGroup w.d w.gid fun G => { G with alloc := G.alloc.set p (g + 8 * n.toNat), pool := G.pool - n.toNat })) w
        fun _ r => if g ≤ r ∧ r < g + 8 * n.toNat then some 0 else none) ∧
    (Ready s (.regclaim n) w G → g + 8 * n.toNat ≤ 64 → G.pool < n.toNat →
      ∃ t, exec (.regclaim n) s = .next t ∧ t.mem = s.mem ∧ standsWaiting s t w .claim)

/-- R135: WAIT.cnt goes on when its thread's counter is at or below the limit, and waits when no participant's is. -/
def Sys2Proof.Claims.WaitCounter : Prop :=
  ∀ (s : State) (w : Who) (G : Group) (c : Counter) (n : BitVec 8), Ready s (.waitCnt c n) w G →
    let count := fun x => if w.hood = none then s.counter w.d w.gid [x] c else s.counter w.d w.gid w.all c
    ((∀ x ∈ s.selected w, count x ≤ n.toNat) →
      ∃ t, exec (.waitCnt c n) s = .next t ∧ Goes s t s w noReg (orNext s w (landing s w G (fun _ => true) w.next))) ∧
    ((∀ x ∈ s.selected w, n.toNat < count x) → ∃ t, exec (.waitCnt c n) s = .next t ∧ t.still w = s.still w ∧ standsWaiting s t w .wait)

/-- BEXPECT, BTEST, CTEST and WAIT on a live slot, and WAIT.cnt. -/
def Obligations.SlotWordsAndWaits : Prop := Claims.SlotWordsOnLiveSlot ∧ Claims.WaitCounter

/-- R252: PHASE lowers its launch's counter, once the release it makes may be performed, and until then is held. Without a phase header, at another
scope, or for a destination beyond the header's it raises FMT; for more than the counter holds BARUSE; at .pod without a process-group table PART (R14,
R224; after the check of the header, which is the model's order, log 46). -/
def Sys2Proof.Claims.PhaseLowersCounter : Prop :=
  ∀ (s : State) (w : Who) (G : Group) (sc : Scope) (k b : KReg), Ready s (.phase sc k b) w G → Solo G w →
    let home := s.scopeHome w.d sc
    let inst := s.instOf w.d w.core sc
    let dest := (s.k w k.toNat).toNat
    let n := (s.k w b.toNat).toNat
    let traps := fun (c : Cause) => exec (.phase sc k b) s = .next (s.trap (s.taking w) { cause := c, faddr := 0, xs := s.selected w })
    ((∀ L h, s.launchOf w.d G = some L → L.phase = some h → h.scope ≠ sc ∨ (h.exps.length ≤ dest ∧ ¬(sc = .pod ∧ L.ranks = []))) → traps Cause.fmt) ∧
    (∀ L h, s.launchOf w.d G = some L → L.phase = some h → h.scope = sc → sc = .pod → L.ranks = [] → traps Cause.part) ∧
    ∀ L h c, s.launchOf w.d G = some L → L.phase = some h → h.scope = sc → dest < h.exps.length → s.cset home L.id sc inst = some c → (sc ≠ .pod ∨ L.ranks ≠ [] ∧ L.rank = 0) →
      (c.counters.getD dest 0 < n → traps Cause.baruse) ∧
      (n ≤ c.counters.getD dest 0 → s.fullReady w.d w.gid (s.selected w) = true →
        Completes (.phase sc k b) s
          ((s.modSet home L.id sc inst fun x => { x with counters := x.counters.set dest (c.counters.getD dest 0 - n), pc := w.pc }).settleLaunch L.id) w noReg) ∧
      (n ≤ c.counters.getD dest 0 → s.fullReady w.d w.gid (s.selected w) = false →
        ∃ t, exec (.phase sc k b) s = .next t ∧ t.still w = s.still w ∧ standsWaiting s t w .held)

/-- R253, R254: the BAR of a group's last thread is the group's arrival in the generation; a group that started after the generation opened arrives
in the next one; a thread whose generation has ended returns. A BAR of a group that no launch started, the supervisor wave's, goes on at once (the
model's reading, log 30). -/
def Sys2Proof.Claims.BarArrivesAndReturns : Prop :=
  ∀ (s : State) (w : Who) (G : Group) (sc : Scope), Ready s (.bar sc) w G → Solo G w →
    (s.launchOf w.d G = none → Completes (.bar sc) s s w noReg) ∧
    ∀ (L : Launch) (c : CSet), s.launchOf w.d G = some L → (sc = .pod → L.ranks ≠ []) →
      let home := s.scopeHome w.d sc
      let inst := s.instOf w.d w.core sc
      s.cset home L.id sc inst = some c → w.core = G.core →
      ((∀ x ∈ w.all, ∃ g, G.doneAt (.bar sc) 0 x = some g ∧ g.result < c.gen) →
        Completes (.bar sc) s (s.modGroup w.d w.gid (·.returnFrom (.bar sc) 0 (s.selected w))) w noReg) ∧
      (∀ p, quiet G w → Alone G w p → (∀ x ∈ G.liveIdx, G.pos x = p) → s.fullReady w.d w.gid (s.selected w) = true →
        ∃ t, exec (.bar sc) s = .next t ∧ ∀ c', t.cset home L.id sc inst = some c' → c'.gen = c.gen →
          ((if c.open_ then (w.d, w.gid) ∈ c.members else w.gid ≠ 0 ∧ (sc ≠ .pod ∨ L.rank = 0)) → (w.d, w.gid) ∈ c'.arrived) ∧
          ((if c.open_ then (w.d, w.gid) ∉ c.members else sc = .pod ∧ L.rank ≠ 0) → (w.d, w.gid) ∈ c'.next))

/-- PHASE and BAR. -/
def Obligations.PhaseAndBar : Prop := Claims.PhaseLowersCounter ∧ Claims.BarArrivesAndReturns

/-! ## Bulk commands, carder programs (R55 to R84) -/

namespace Sys2Proof.Claims

/-- A bulk word's participants all have their command still to queue (R65, log 15). -/
def nothingQueued (s : State) (w : Who) (G : Group) : Prop :=
  if w.hood = none then ∀ x ∈ s.selected w, (G.ctlOf none x).prog = 0 else w.prog = 0
/-- The two carders of the core's quad exist, and together have room for `n` commands: 16 entries each (R59). -/
def roomFor (s : State) (w : Who) (n : Nat) : Prop :=
  let q := s.coreCarders w.d w.core
  q.1 < 48 ∧ q.2 < 48 ∧ s.queueLen w.d q.1 ≤ 16 ∧ s.queueLen w.d q.2 ≤ 16 ∧ s.queueLen w.d q.1 + s.queueLen w.d q.2 + n ≤ 32
/-- Commands queued one by one, each at the carder that `choose` names then. -/
def queued (choose : State → Option Nat) (d : DieId) (mk : Nat → Cmd) (xs : List Nat) (s : State) : State :=
  xs.foldl (fun u x => u.enqueue d ((choose u).getD 0) (mk x)) s
/-- The ring that a command's buffer record names as its bound object, if it is one. -/
def boundRing (s : State) (w : Who) (B : BufRec) : Option Ring := match s.slotAddr w.d w.gid B.bound 16 with
  | .ok a => s.ring w.d w.gid a
  | .fault .. => none
/-- A command of index `x`, with the slot that it has reserved on that ring; slot `i` begins at offset i × 64 × SLOT64 (R68, R137). -/
def onSlot (s : State) (w : Who) (G : Group) (x : Nat) (B : BufRec) (q : Cmd) : Cmd :=
  { q with slot := G.reserved x B.bound, ring := (boundRing s w B).isSome,
           shift := match boundRing s w B, G.reserved x B.bound with
             | some r, some i => i * 64 * r.slot64
             | _, _ => 0 }
/-- The command of a GATH or SCAT, for all participants of a hood or wave (R64, R67, R70). -/
def rowsCmd (s : State) (w : Who) (G : Group) (kind : CmdKind) (n : Buf) (a : Reg) (image : List Byte) : Cmd :=
  let f := s.form w a.toNat
  let x0 := w.xs.headD 0
  let q := onSlot s w G x0 (s.buf w n) { Cmd.of s w G kind with buf := s.bufBits w n, image := image, freg := BitVec.ofNat 8 a.toNat }
  if w.hood.isSome then { q with fbase := f.at (w.all.headD 0) x0, fstride := f.stride, ftag := if f.stride = 0 then 0 else 1 }
  else
    let base := G.first + 32 * G.pos x0
    let map := w.xs.foldl (fun m x => m ||| ((1 : Word) <<< G.laneNo x)) 0
    { q with base := base, map := map, ftag := 2, lanes := w.xs.foldl (fun v x => vput v (G.laneNo x) (s.g w x a.toNat)) q.lanes }
/-- The address c[a] + c[b] × n (R74). -/
def indexedAt (c : Carder) (a b : Reg) (n : Nat) : DWord := vget c.c a.toNat 0 + vget c.c b.toNat 0 * BitVec.ofNat 64 n
def carderBytes : CWidth → Nat
  | .n32 | .i32 => 4
  | .x64 => 8
def carderValue (m : CWidth) (n : Nat) : DWord := match m with
  | .i32 => BitVec.ofInt 64 (Int.bmod n (2 ^ 32))
  | .n32 | .x64 => BitVec.ofNat 64 n
def sortedBytes : SWidth → Nat
  | .n32 => 4
  | .x64 => 8

end Sys2Proof.Claims

/-- R64, R65, R67: TCOPY captures its layout record, operands and buffer record, and queues one command for each participant at the emptier carder
of its quad. That the participants are marked as having queued is the model's choice (log 15). -/
def Sys2Proof.Claims.TcopyQueuesCommands : Prop :=
  ∀ (s s1 : State) (w : Who) (G : Group) (mc : Bool) (n : Buf) (k c : KReg) (image : List Byte),
    let i := if mc then Instr.tcopyMc n k c else .tcopy n k c
    let va := s.kpair w k.toNat
    let W := s.taking w
    Ready s i w G → nothingQueued s w G → s.vaStalled w.d w.core (w.gid = 0) va 128 = false → s.capture W va 128 = .ok (image, s1) →
    roomFor s w (s.selected w).length →
    let q : Cmd := { Cmd.of s1 W G .tcopy with mc := mc, mask := if mc then (s1.k w (c.toNat + 8)).setWidth 16 else 0, buf := s1.bufBits w n, ops := s1.kvec w c.toNat, image := image }
    let B := s1.buf w n
    Completes i s (queued (fun u => u.bulkCarder W) w.d (fun x => onSlot s1 w G x B (q.single G x))
      (s.selected w) (s1.useRecord w.d w.gid B)) w noReg

/-- R64, R67, R70: GATH and SCAT queue one command for all participants of a hood or wave. -/
def Sys2Proof.Claims.RowsQueueCommand : Prop :=
  ∀ (s s1 : State) (w : Who) (G : Group) (sc : Bool) (n : Buf) (k : KReg) (a : Reg) (image : List Byte) (inst : Nat),
    let i := if sc then Instr.scat n k a else .gath n k a
    let va := s.kpair w k.toNat
    let W := s.taking w
    Ready s i w G → Solo G w → s.vaStalled w.d w.core (w.gid = 0) va 128 = false → s.capture W va 128 = .ok (image, s1) →
    s1.bulkCarder W = some inst →
    Completes i s ((s1.useRecord w.d w.gid (s1.buf w n)).enqueue w.d inst (rowsCmd s1 W G (if sc then .scat else .gath) n a image)) w noReg

/-- R71, R73: CRUN captures its footprint record and operands and queues one program for each participant at the carder it names; a footprint with a
reserved bit set traps FMT. -/
def Sys2Proof.Claims.CrunQueuesProgram : Prop :=
  ∀ (s s1 : State) (w : Who) (G : Group) (c : BitVec 1) (k a : KReg) (image : List Byte), Ready s (.crun c k a) w G → nothingQueued s w G →
    let va := s.kpair w k.toNat
    let W := s.taking w
    s.vaStalled w.d w.core (w.gid = 0) va 64 = false → s.capture W va 64 = .ok (image, s1) →
    let at_ := if c = 0 then (s.coreCarders w.d w.core).1 else (s.coreCarders w.d w.core).2
    (footBad image = true → exec (.crun c k a) s = .next (s.trap W { cause := Cause.fmt, faddr := va, xs := s.selected w })) ∧
    (footBad image = false → at_ < 48 → s.queueLen w.d at_ + (s.selected w).length ≤ 16 →
      let q : Cmd := { Cmd.of s1 W G .crun with pgm := va, ops := s1.kvec w a.toNat, image := image }
      Completes (.crun c k a) s (queued (fun _ => some at_) w.d (fun x => { q.single G x with base := x, map := 1 }) (s.selected w) s1) w noReg)

/-- TCOPY, GATH, SCAT and CRUN queue commands at the carders. -/
def Obligations.BulkWordsQueue : Prop := Claims.TcopyQueuesCommands ∧ Claims.RowsQueueCommand ∧ Claims.CrunQueuesProgram

/-- R60, R71, R81: the first queued command that conflicts with no earlier one starts; a CRUN starts with its operands in c0 to c7, its index in c8, and
its PC after the footprint record. -/
def Sys2Proof.Claims.CommandStarts : Prop :=
  ∀ (s : State) (d : DieId) (inst : Nat) (q : Cmd), inst < 48 →
    let c := (s.die d).carder inst
    let serves := fun (p : Cmd) => if p.sup then s.powered && !((s.part (s.partOf d)).faults.any fun f => f.die == d && f.slot == 200 + inst) else s.running d
    let beside := fun (p : Cmd) => match c.current with
      | none => true
      | some o => p.sup && !o.sup && (s.part (s.partOf d)).halt && !(o.kind == .crun && p.kind == .crun)
    c.queue.find? (fun p => !p.started && serves p && beside p && s.mayStart d inst p) = some q →
    ∃ t, exec (.carderCommandStart d inst) s = .next t ∧
      let c' := (t.die d).carder inst
      c'.queue = { q with started := true } :: c.queue.filter (fun p => p.id != q.id) ∧
      (q.kind ≠ .crun → c'.c = c.c) ∧
      (q.kind = .crun → c'.ctl.pc = q.pgm + 64 ∧ (∀ i < 8, vget c'.c i 0 = (vget q.ops i 0).setWidth 64) ∧
        vget c'.c 8 0 = BitVec.ofNat 64 (q.xs.headD 0) ∧ ∀ i, 8 < i → vget c'.c i 0 = 0) ∧
      t.mem = s.mem

/-- R68, R84: a unit of a TCOPY, GATH or SCAT that is not multicast lands: the bytes move and are credited at once, and the progress index goes on;
after the last unit the command leaves its queue. -/
def Sys2Proof.Claims.UnitLands : Prop :=
  ∀ (s : State) (d : DieId) (inst : Nat) (q : Cmd) (G : Group), s.serves d inst q = true → ((s.die d).carder inst).current = some q →
    s.group d q.gid = some G → q.kind ≠ .crun → q.mc = false → (q.slot.isSome = true ∨ s.ringAt d q.gid q.object = none) →
    (q.p0 = 0 → q.p1 = 0 → s.bulkFault d q = none ∧ s.boxFault d q = none) →
    let land := fun (j v : Nat) (q' : Cmd) => s.unitStalled d inst q (q.place j v) = false →
      ∀ t, s.moveUnit d inst q q.gid (q.place j v) = .ok t → exec (.unitLanding d inst) s = .next (t.putCmd d inst q')
    (q.kind = .tcopy → q.p0 < q.boxUnits → land 0 q.p0 { q with p0 := q.p0 + 1 }) ∧
    (q.kind = .tcopy → q.boxUnits ≤ q.p0 → exec (.unitLanding d inst) s = .next (s.completeCmd d inst)) ∧
    (q.kind ≠ .tcopy → ∀ j, q.nextPos = some j →
      (q.p1 + 1 < q.boxUnits → land j q.p1 { q with p1 := q.p1 + 1 }) ∧ (q.boxUnits ≤ q.p1 + 1 → land j q.p1 { q with p0 := j + 1, p1 := 0 })) ∧
    (q.kind ≠ .tcopy → q.nextPos = none → exec (.unitLanding d inst) s = .next (s.completeCmd d inst))

/-- R68, R70, R84, R119: what landing a unit does. Between its main-memory address and its place in the buffer the bytes move as DIR says: a unit
outside the tensor reads as FILL has it, or raises BOUNDS; one that clamp or zero-fill drops moves nothing, but that zero-fill stores zeros; then its
bytes are credited on the bound object. A unit into local memory changes no byte of main memory, and one into main memory no byte but its own.
That a dropped unit is not read from main memory is the model's choice (log 45). -/
def Sys2Proof.Claims.UnitsMoveAndCredit : Prop :=
  ∀ (s : State) (d : DieId) (inst gid : Nat) (q : Cmd) (p : Place1),
    let L := q.layout
    let B := q.bufRec
    let u := q.unit
    let o := p.off + q.shift
    let va := BitVec.ofInt 64 (L.addr p.coord)
    let out := ∃ i < 8, L.ext.getD i 1 ≤ p.coord.getD i 0
    let lands := fun (a : Nat) => (o + u ≤ B.extent ∧ a = B.base + o) ∨ (B.extent < o + u ∧ B.mode = 3 ∧ B.extent ≠ 0 ∧ o % B.extent + u ≤ B.extent ∧ a = B.base + o % B.extent)
    let dropped := B.extent < o + u ∧ (B.mode = 1 ∨ B.mode = 2)
    let free := fun (a : Nat) => s.inSpace d gid B.space a u = true ∧ s.touchesLive d gid B.space a u = false
    let gives := fun (m : State) => s.moveUnit d inst q gid p = m.credit d gid B.bound q.slot u
    let faults := fun (c : Cause) (fa : DWord) => s.moveUnit d inst q gid p = .fault c fa
    p.coord.length = 8 →
    (out → L.fill = 2 → faults Cause.bounds va) ∧
    (¬(out ∧ L.fill = 2) → ∀ a, lands a → L.dir = false ∨ ¬out →
      (s.inSpace d gid B.space a u = false → ∃ fa, faults Cause.bounds fa) ∧
      (s.inSpace d gid B.space a u = true → s.touchesLive d gid B.space a u = true → ∃ fa, faults Cause.baruse fa)) ∧
    (L.dir = false → out → L.fill ≠ 2 → ∀ a, lands a → free a →
      gives (s.writeLocal d gid 0 B.space a (List.replicate u (if L.fill = 1 then 0xFF else 0)))) ∧
    (L.dir = false → ¬out → ∀ a, lands a → free a →
      (∀ bs, s.readVa d (carderAgent inst) q.sup va u = .ok bs →
        gives ((s.fillVa d (carderAgent inst) q.sup va u).writeLocal d gid 0 B.space a bs)) ∧
      (∀ c fa, s.readVa d (carderAgent inst) q.sup va u = .fault c fa → faults c fa)) ∧
    (L.dir = true → ¬out → ∀ a, lands a → free a → s.badLocalAt d gid 0 B.space a u = false →
      (∀ m, s.writeVa d (carderAgent inst) q.sup va (s.readLocal d gid 0 B.space a u) = .ok m → gives (m.fillVa d (carderAgent inst) q.sup va u)) ∧
      (∀ c fa, s.writeVa d (carderAgent inst) q.sup va (s.readLocal d gid 0 B.space a u) = .fault c fa → faults c fa)) ∧
    (dropped → ¬(out ∧ L.fill = 2) → L.dir = false ∨ out ∨ B.mode = 1 → gives s) ∧
    (dropped → L.dir = true → ¬out → B.mode = 2 → ∀ m, s.writeVa d (carderAgent inst) q.sup va (List.replicate u 0) = .ok m →
      gives (m.fillVa d (carderAgent inst) q.sup va u)) ∧
    (out → L.fill ≠ 2 → L.dir = true → gives s) ∧
    ∀ t, s.moveUnit d inst q gid p = .ok t → (L.dir = false → t.mem = s.mem) ∧
      (L.dir = true → s.memWf → ∀ da, (∀ das, s.translateN d (carderAgent inst) q.sup .write u va = .ok das → da ∉ das) → t.mem.read da = s.mem.read da)

/-- The events that start a carder's command and land its units. -/
def Obligations.CarderCommandsRun : Prop := Claims.CommandStarts ∧ Claims.UnitLands ∧ Claims.UnitsMoveAndCredit

/-- R51, R74, R75: CLDX, CSTX and CADDR of an aligned address; an unaligned one, one that no access may be made at, and for CADDR an invalid record
and a coordinate outside the tensor fault. R79: CHALT completes the command. -/
def Obligations.CarderLoadsAndStores : Prop :=
  ∀ (s : State) (d : DieId) (inst : Nat) (q : Cmd) (m : CWidth) (r a b : Reg),
    let c := (s.die d).carder inst
    let n := carderBytes m
    let v := indexedAt c a b n
    let raises := fun (i : Instr) (cause : Cause) (fa : DWord) => exec i s = .next (s.card d inst cause c.ctl.pc fa)
    c.current = some q →
    (CarderReady s (.cldx m r a b) d inst → v.toNat % n = 0 → s.cstalled d inst q.sup v n = false →
      (∀ bs, s.cread d inst q.gid q.sup v n = .ok bs →
        ∃ t, exec (.cldx m r a b) s = .next t ∧ CarderGoes t (s.cfill d inst q.sup v n) d inst
          (vput c.c r.toNat (carderValue m (ofBytes bs))) (c.ctl.pc + 4)) ∧
      ∀ e fa, s.cread d inst q.gid q.sup v n = .fault e fa → raises (.cldx m r a b) e fa) ∧
    (CarderReady s (.cstx m r a b) d inst → v.toNat % n = 0 → s.cstalled d inst q.sup v n = false →
      let bs := bytesOf n (vget c.c r.toNat 0).toNat
      (∀ u, s.cwrite d inst q.gid q.sup v bs = .ok u → ∃ t, exec (.cstx m r a b) s = .next t ∧ CarderGoes t u d inst c.c (c.ctl.pc + 4)) ∧
      ∀ e fa, s.cwrite d inst q.gid q.sup v bs = .fault e fa → raises (.cstx m r a b) e fa) ∧
    (CarderReady s (.cldx m r a b) d inst → v.toNat % n ≠ 0 → raises (.cldx m r a b) Cause.align v) ∧
    (CarderReady s (.cstx m r a b) d inst → v.toNat % n ≠ 0 → raises (.cstx m r a b) Cause.align v) ∧
    (CarderReady s .chalt d inst → exec .chalt s = .next (s.completeCmd d inst)) ∧
    (CarderReady s (.caddr r a b) d inst →
      let v := vget c.c a.toNat 0
      let x := (List.range 8).map fun i => (vget c.c (b.toNat + i) 0).toNat
      let key := descKey q v
      (v.toNat % 128 ≠ 0 → raises (.caddr r a b) Cause.align v) ∧
      (v.toNat % 128 = 0 → s.cstalled d inst q.sup v 128 = false →
        (∀ e fa, s.cread d inst q.gid q.sup v 128 = .fault e fa → raises (.caddr r a b) e fa) ∧
        ∀ fresh, s.cread d inst q.gid q.sup v 128 = .ok fresh →
          let bs := s.descRead d (carderAgent inst) q.ctx key.1 key.2.1 key.2.2 128 fresh
          let u := (s.cfill d inst q.sup v 128).descFill d (carderAgent inst) q.ctx key.1 key.2.1 key.2.2 bs
          ((Layout.of bs).ok = false → raises (.caddr r a b) Cause.fmt v) ∧
          ((Layout.of bs).ok = true → (Layout.of bs).outside x = true → raises (.caddr r a b) Cause.bounds 0) ∧
          ((Layout.of bs).ok = true → (Layout.of bs).outside x = false →
            ∃ t, exec (.caddr r a b) s = .next t ∧ CarderGoes t u d inst (vput c.c r.toNat (BitVec.ofInt 64 ((Layout.of bs).addr x))) (c.ctl.pc + 4))))

/-- R76: CXFER moves its bytes in pieces of at most 64; with the last piece it goes on. -/
def Sys2Proof.Claims.CxferMovesPieces : Prop :=
  ∀ (s : State) (d : DieId) (inst : Nat) (q : Cmd) (a b n : Reg), CarderReady s (.cxfer a b n) d inst →
    let c := (s.die d).carder inst
    let len := (vget c.c n.toNat 0).toNat
    let k := min 64 (len - c.p0)
    let src := vget c.c a.toNat 0 + BitVec.ofNat 64 c.p0
    let dst := vget c.c b.toNat 0 + BitVec.ofNat 64 c.p0
    let s1 := s.cfill d inst q.sup src k
    c.current = some q → len < 2 ^ 32 →
    (len ≤ c.p0 → ∃ t, exec (.cxfer a b n) s = .next t ∧ CarderGoes t s d inst c.c (c.ctl.pc + 4)) ∧
    (c.p0 < len → s.cstalled d inst q.sup src k = false → s1.cstalled d inst q.sup dst k = false →
      ∀ bs u, s.cread d inst q.gid q.sup src k = .ok bs → bs.length = k → s1.cwrite d inst q.gid q.sup dst bs = .ok u →
        (c.p0 + k = len → ∃ t, exec (.cxfer a b n) s = .next t ∧ CarderGoes t u d inst c.c (c.ctl.pc + 4)) ∧
        (c.p0 + k < len → exec (.cxfer a b n) s = .next (u.modCarder d inst fun o => { o with p0 := c.p0 + k })))

/-- R77: one step of CSECT and CMRG over two sorted sequences, and their end, which writes the count. An address that is not a multiple of the
element's size faults, the lowest of several, and so does an element beyond the output's capacity. -/
def Sys2Proof.Claims.SortedWordsStep : Prop :=
  ∀ (s : State) (d : DieId) (inst : Nat) (q : Cmd) (merge : Bool) (m : SWidth) (r a b : Reg),
    let i := if merge then Instr.cmrg m r a b else .csect m r a b
    let c := (s.die d).carder inst
    let k := sortedBytes m
    let reg := fun (r : Reg) (i : Nat) => vget c.c (r.toNat + i) 0
    let el := fun (base : DWord) (i : Nat) => base + BitVec.ofNat 64 (k * i)
    let la := (reg a 1).toNat
    let lb := (reg a 3).toNat
    let out := reg b 0
    CarderReady s i d inst → c.current = some q →
    (∀ v ∈ [reg a 0, reg a 2, out], v.toNat % k ≠ 0 → (∀ u ∈ [reg a 0, reg a 2, out], u.toNat % k ≠ 0 → v.toNat ≤ u.toNat) → exec i s = .next (s.card d inst Cause.align c.ctl.pc v)) ∧
    ((reg a 0).toNat % k = 0 → (reg a 2).toNat % k = 0 → out.toNat % k = 0 →
    let t1 := if c.p0 < la then s.cfill d inst q.sup (el (reg a 0) c.p0) k else s
    let t2 := if c.p1 < lb then t1.cfill d inst q.sup (el (reg a 2) c.p1) k else t1
    (∀ v n, s.cstalled d inst q.sup v n = false ∧ t2.cstalled d inst q.sup v n = false) →
    let finished := if merge then la ≤ c.p0 ∧ lb ≤ c.p1 else la ≤ c.p0 ∨ lb ≤ c.p1
    let at_ := fun (u : State) (i j n : Nat) => u.modCarder d inst fun o => { o with p0 := i, p1 := j, p2 := n }
    let emits := fun (bs : List Byte) (i j : Nat) (t : State) =>
      if out = 0 then t = at_ t2 i j (c.p2 + 1) else ∃ u, t2.cwrite d inst q.gid q.sup (el out c.p2) bs = .ok u ∧ t = at_ u i j (c.p2 + 1)
    let full := out ≠ 0 ∧ (reg b 1).toNat ≤ c.p2
    let overruns := exec i s = .next (s.card d inst Cause.bounds c.ctl.pc (el out c.p2))
    (finished → ∃ t, exec i s = .next t ∧ CarderGoes t s d inst (vput c.c r.toNat (BitVec.ofNat 64 c.p2)) (c.ctl.pc + 4)) ∧
    ∀ x y, (c.p0 < la → s.cread d inst q.gid q.sup (el (reg a 0) c.p0) k = .ok x) → (c.p1 < lb → s.cread d inst q.gid q.sup (el (reg a 2) c.p1) k = .ok y) →
      (full → c.p0 < la → c.p1 < lb → ofBytes x = ofBytes y → overruns) ∧
      (full → merge = true → c.p0 < la ∨ c.p1 < lb → overruns) ∧
      (c.p0 < la → c.p1 < lb → ofBytes x = ofBytes y → ∀ t, emits x (c.p0 + 1) (c.p1 + 1) t → ¬full → exec i s = .next t) ∧
      (c.p0 < la → c.p1 < lb → ofBytes x < ofBytes y → merge = false → exec i s = .next (at_ t2 (c.p0 + 1) c.p1 c.p2)) ∧
      (c.p0 < la → c.p1 < lb → ofBytes y < ofBytes x → merge = false → exec i s = .next (at_ t2 c.p0 (c.p1 + 1) c.p2)) ∧
      (c.p0 < la → (lb ≤ c.p1 ∨ ofBytes x < ofBytes y) → merge = true → ∀ t, emits x (c.p0 + 1) c.p1 t → ¬full → exec i s = .next t) ∧
      (c.p1 < lb → (la ≤ c.p0 ∨ ofBytes y < ofBytes x) → merge = true → ∀ t, emits y c.p0 (c.p1 + 1) t → ¬full → exec i s = .next t))

/-- R78: CARRIVE on a slot is one arrival and a credit; on a ring it takes the next slot and marks it FULL, and it is held while none is free. An address
that can name no slot, a line that is none, a full slot and more bytes than are pending raise BARUSE; a record in error raises ECC (R310). -/
def Sys2Proof.Claims.CarriveSignals : Prop :=
  ∀ (s : State) (d : DieId) (inst : Nat) (q : Cmd) (a b : Reg) (sp ad : Nat), CarderReady s (.carrive a b) d inst →
    let c := (s.die d).carder inst
    let v := vget c.c a.toNat 0
    let raises := fun (cause : Cause) => exec (.carrive a b) s = .next (s.card d inst cause c.ctl.pc v)
    c.current = some q →
    (CAddr.of v = none → raises Cause.bounds) ∧ (∀ va, CAddr.of v = some (.main va) → raises Cause.baruse) ∧
    (CAddr.of v = some (.loc sp ad) → ad % 16 ≠ 0 ∨ (sp = 0 ∧ ad = 0) → raises Cause.baruse) ∧
    (CAddr.of v = some (.loc sp ad) → ad % 16 = 0 → (sp = 0 → ad ≠ 0) → s.inSpace d q.gid sp ad 16 = false → raises Cause.bounds) ∧
    (CAddr.of v = some (.loc sp ad) → ad % 16 = 0 → (sp = 0 → ad ≠ 0) → s.inSpace d q.gid sp ad 16 = true →
    (s.badObject d q.gid ⟨sp, ad⟩ = true → raises Cause.ecc) ∧
    (s.badObject d q.gid ⟨sp, ad⟩ = false →
    (s.ring d q.gid ⟨sp, ad⟩ = none → s.arriveCredit d q.gid ⟨sp, ad⟩ (vget c.c b.toNat 0).toNat = none → raises Cause.baruse) ∧
    (s.ring d q.gid ⟨sp, ad⟩ = none → ∀ u, s.arriveCredit d q.gid ⟨sp, ad⟩ (vget c.c b.toNat 0).toNat = some u →
      ∃ t, exec (.carrive a b) s = .next t ∧ CarderGoes t u d inst c.c (c.ctl.pc + 4)) ∧
    ∀ r, s.ring d q.gid ⟨sp, ad⟩ = some r →
      (r.free ≠ 0 → ∃ t, exec (.carrive a b) s = .next t ∧
        CarderGoes t (s.putRing d q.gid ⟨sp, ad⟩ (({ r with free := r.free - 1, pi := (r.pi + 1) % r.n } : Ring).markFull r.pi)) d inst c.c (c.ctl.pc + 4)) ∧
      (r.free = 0 → exec (.carrive a b) s = .next (s.modCarder d inst fun o => { o with ctl := { o.ctl with wait := .wait, stepped := true } }))))

/-- CXFER, CSECT, CMRG and CARRIVE. -/
def Obligations.CarderTransfers : Prop := Claims.CxferMovesPieces ∧ Claims.SortedWordsStep ∧ Claims.CarriveSignals

/-! ## The machine as a whole: reset, the step, decoding, checks, predicates, hoods (R17 to R37, R142 to R152, R270, R322) -/

namespace Sys2Proof.Claims

/-- Registers of compute threads that a word names beyond the thread's limits, or inside an open window (R20, R22). -/
def refusedAt (G : Group) (w : Who) (u : Use) (x : Nat) : Bool :=
  (u.gr ++ u.gw).any (fun r => decide (G.allocOf x ≤ r)) || (u.tr ++ u.tw ++ u.sh).any (fun t => decide (G.tiles ≤ t)) ||
    (G.ctlOf w.hood x).windows.any fun win => win.left != 0 && win.regs.any fun n =>
      u.names.contains n || (match predOf (w.hintsAt x) with | some g => n == .g g.toNat | none => false)
/-- The registers of a word that must be UNIFORM in a hood, in whose absence the range expands; the words that expand every hood (R123, R145,
R146, R164, R165, R184, R203, R213, R240, R262, R358). -/
def hoodNeeds : Instr → Option (List Nat)
  | .iabs _ a | .popc _ a | .clz _ a | .ctz _ a | .brev _ a => some [a.toNat]
  | .iaddSatI32 _ a b | .isubSatI32 _ a b | .iaddSatN32 _ a b | .isubSatN32 _ a b | .imulhI32 _ a b _ | .imulhN32 _ a b _ | .iminI32 _ a b
  | .iminN32 _ a b | .imaxI32 _ a b | .imaxN32 _ a b | .and _ a b | .or _ a b | .xor _ a b | .andn _ a b | .shr _ a b | .sar _ a b | .rol _ a b
  | .bfxI32 _ a b | .bfxN32 _ a b | .idivI32 _ a b _ | .idivN32 _ a b _ | .iremI32 _ a b _ | .iremN32 _ a b _ => some [a.toNat, b.toNat]
  | .bfi d a b => some [d.toNat, a.toNat, b.toNat]
  | .andi _ a _ | .ori _ a _ | .xori _ a _ => some [a.toNat]
  | .shl _ _ b | .form _ _ b => some [b.toNat]
  | .ld _ _ _ a _ | .fill _ _ a _ | .spill _ _ a | .brld _ _ a _ | .ret a | .brx a | .tld _ _ _ a _ | .tst _ _ _ a | .tdrain _ _ a _
  | .tdrainFmt _ _ _ a _ | .tscale _ a => some [a.toNat]
  | .gld _ _ a _ => some [a.toNat, a.toNat + 1]
  | _ => none
def hoodNever : Instr → Bool
  | .expand | .trowrd .. | .trowwr .. | .atom .. | .atomXchg .. | .acas .. | .acasX64 .. | .acas128 .. => true
  | i => crossesLanes i
/-- The condition set of a word in a hood, as its predicate (R147). -/
def condOf (s : State) (w : Who) : Instr → Option (Nat → Bool)
  | .icmp c _ a b => some fun x => ICond.holds c (regsOf s w x a) (regsOf s w x b)
  | .sel d _ _ => some fun x => (regsOf s w x d).getLsbD 0
  | .brc c _ => some fun x => (regsOf s w x c).getLsbD 0
  | _ => none
/-- The hood from `lo` has become two, which meet at `m` and stand at `lowPc` and `highPc`; register `r` of each index holds `v x r` (R148). -/
def splitInto (s t : State) (w : Who) (lo m hi : Nat) (lowPc highPc : DWord) (v : Nat → Nat → Word) : Prop :=
  t.still w = s.still w ∧ ∃ G', t.group w.d w.gid = some G' ∧
    (G'.hood lo).map (fun h => (h.hi, h.ctl.pc)) = some (m, lowPc) ∧ (G'.hood m).map (fun h => (h.hi, h.ctl.pc)) = some (hi, highPc) ∧
    ∀ x r, r < 64 → (lo ≤ x → x < m → G'.g (some lo) x r = v x r) ∧ (m ≤ x → x < hi → G'.g (some m) x r = v x r)
/-- The words of named tiles, whose faults name the lowest index only (R106). -/
def namesLowest : Instr → Bool
  | .want .. | .offer .. | .unwant _ | .nevict _ | .ntwr .. => true
  | _ => false
/-- A hint accepts a word that is no instruction by its major opcode (R26); that the hints which name instructions do not is the model's choice (log 48). -/
def acceptsOp (op : Option Nat) : Hint → Bool
  | .merge | .pred _ => true
  | .fmtx _ _ _ _ => match op with
    | some o => decide (0x20 ≤ o ∧ o ≤ 0x28)
    | none => false
  | _ => false
/-- Where a carder fetches the word at a PC: at the native copy of a portable body's word, or there itself (R348; which words have copies: log 23). -/
def carderFetches (s : State) (d : DieId) (sup : Bool) (pc pc' : DWord) : Prop :=
  let As := if sup then [] else (s.die d).active.areas
  ((∀ a ∈ As, ∀ e ∈ a.copies, pc.toNat ≠ a.base.toNat + e.1) ∧ pc' = pc) ∨
  ∃ a e, As = [a] ∧ a.base.toNat ≤ pc.toNat ∧ pc.toNat < a.base.toNat + a.size ∧ a.copies.find? (·.1 == pc.toNat - a.base.toNat) = some e ∧
    pc' = a.area + BitVec.ofNat 64 e.2
/-- The word makes a release of its thread's earlier accesses (R247). -/
def releases (hs : List Hint) : Prop := (ordOf hs).2 = .rel ∨ (ordOf hs).2 = .ar

end Sys2Proof.Claims

/-- R42, R54, R162, R322, R361: the part as power-on leaves it, before bring-up: READY low, CLOCK 0, memory in canonical form and read as zero,
the registers of R322 at their reset values, migration enabled in every partition. The lists of keys and routes are empty by the model's choice
(log 1). -/
def Obligations.ResetState : Prop :=
  let s := State.reset
  s.ready = false ∧ s.clock = 0 ∧ s.memWf ∧ (∀ a, s.mem.read a = 0) ∧ s.hbmFrames = 244136 ∧
  (∀ d, s.partOf d = 0) ∧
  (∀ d, ∀ n ∈ [0x000, 0x100, 0x101, 0x102, 0x103, 0x104, 0x105, 0x106, 0x107, 0x108], s.sysRead d n = some 0) ∧
  (∀ d, s.sysRead d 0x122 = some 1) ∧ s.route = [] ∧ ∀ k : Fin 16, (s.keys.get k).enabled = false

/-- R1, R17, R35, R263, R310, R351: a step in which a thread issues fetches the word at its PC, decodes it, and performs it; a word that decodes to none
is performed as the malformed word, and a line in error traps ECC. Around it the caches are filled and the step's own counters move (`after`).
Where no copy of the line is cached the word is the four bytes of main memory there, the lowest first. A thread whose word has issued and waits
performs that word again. A carder's word is fetched where R348 has it. -/
def Obligations.StepRunsDecodedInstruction : Prop :=
  (∀ (s : State) (a : Agent) (rest : List Agent) (w : Who) (da : Nat), s.issue = a :: rest →
    let s1 := { s with issue := rest }
    s1.who a = some w → (∀ d gid x, a ≠ .waiting d gid x) → w.waitsAt s1 = none →
    s1.translate w.d w.core (w.gid = 0) w.pc .fetch = .ok da → s1.stalled da = false → s1.walkStalled w.d w.core (w.gid = 0) w.pc = false →
    (∀ line, s1.fetchLine w.d w.core (da / 128) = some line →
      let word : Word := BitVec.ofNat 32 (ofBytes ((line.drop (da % 128)).take 4))
      let s2 := { (s1.fillLine w.d w.core (da / 128) line).fillTlb w.d w.core (w.gid = 0) w.pc with cur := a }
      let dec := if s1.isSilol w.d w.gid w.pc then decodeSilol word else decode word
      (∀ i, dec = .ok i → step s = after (exec i s2)) ∧ (∀ e, dec = .error e → step s = after (exec .malformedWord s2)) ∧
      (da % 4 = 0 → (∀ e ∈ (s1.die w.d).icache, e.line ≠ da / 128) → word = BitVec.ofNat 32 (s1.mem.get da 4))) ∧
    (s1.fetchLine w.d w.core (da / 128) = none → step s = after (.next (s1.trap w { cause := Cause.ecc, faddr := w.pc, xs := w.all })))) ∧
  (∀ (s : State) (d : DieId) (gid x : Nat) (rest : List Agent) (G : Group) (l : Lane) (i : Instr), s.issue = .waiting d gid x :: rest →
    s.group d gid = some G → G.lane x = some l → l.ctl.word = some i →
    step s = after (exec i { s with issue := rest, cur := .waiting d gid x })) ∧
  (∀ (s : State) (d : DieId) (gid lo : Nat) (rest : List Agent) (G : Group) (h : Hood) (i : Instr), s.issue = .hood d gid lo :: rest →
    s.group d gid = some G → G.hood lo = some h → h.ctl.wait.waits = true → h.ctl.word = some i →
    step s = after (exec i { s with issue := rest, cur := .hood d gid lo })) ∧
  (∀ (s : State) (d : DieId) (inst : Nat) (rest : List Agent) (da : Nat) (i : Instr) (line : List Byte) (pc : DWord), s.issue = .carder d inst :: rest →
    let s1 := { s with issue := rest }
    let c := (s1.die d).carder inst
    let sup := match c.current with
      | some q => q.sup
      | none => false
    carderFetches s1 d sup c.ctl.pc pc →
    s1.translate d (carderAgent inst) sup pc .fetch = .ok da → s1.stalled da = false → s1.walkStalled d (carderAgent inst) sup pc = false →
    s1.fetchLine d (carderAgent inst) (da / 128) = some line →
    decode (BitVec.ofNat 32 (ofBytes ((line.drop (da % 128)).take 4))) = .ok i →
    step s = after (exec i { (s1.fillLine d (carderAgent inst) (da / 128) line).fillTlb d (carderAgent inst) sup pc with cur := .carder d inst })) ∧
  ∀ t : State, after (.next t) = .next (if t.issue = [] then { t.pass (Config.cycles t.seq) with snap := [], kwr := [], seq := t.seq + 1, cur := .none }
    else { t with seq := t.seq + 1, cur := .none })

/-- R18, R28 to R34: words as the spec prints them decode to the instructions that it says they are, and a reserved operation code to none. -/
def Obligations.DecodeSpecWords : Prop :=
  decode 0x0028C380 = .ok (.iadd 5 6 7) ∧ decode 0x80204220 = .ok (.ld .w32 4 1 2 2) ∧ decode 0x3001F1F8 = .ok (.kadd 62 63) ∧
  decode 0xFF400003 = .ok (.hintPred 3) ∧ decode 0xC1002983 = .ok (.tmma 8 0 1 2 3 false true true 0) ∧ decode 0x72280003 = .ok (.brc 5 3) ∧
  decode 0x40408303 = .ok (.ffma 8 4 6 0) ∧ decode 0x66102181 = .ok (.gshfl .rot 2 1 3 0) ∧ decode 0xA0114180 = .ok (.tcopy 2 40 48) ∧
  decode 0xAA408601 = .ok (.csect .n32 8 4 12) ∧ decode 0xB020F000 = .ok (.want 4 30) ∧ decode 0xD0204308 = .ok (.atom .add 4 2 6 1) ∧
  decode 0xD82850C1 = .ok (.qpop 5 10 24) ∧ decode 0xE0184801 = .ok (.acq .die 9) ∧ decode 0xF0309088 = .ok (.syswrX64 0x121 6) ∧
  decode 0x88184500 = .ok (.brld 3 1 5 0) ∧ decode 0x86400309 = .ok (.spill .x64 8 3) ∧ decode 0xC8_40C0_0A = .ok (.tdrainFmt 2 8 3 0 0) ∧
  decode 0x76000004 = .ok .nop ∧ ∀ i, decode 0xFA000000 ≠ .ok i

/-- R18, R28: every well-formed instruction, with every operand at every value, decodes from the word that it encodes to. -/
def Obligations.DecodeEncode : Prop := ∀ i : Instr, i.wellFormed = true → decode (encode i) = .ok i

/-- The model's invariant: every step keeps main memory in its canonical form (rising addresses, no byte that an unlisted address would read). -/
def Obligations.MemoryCanonicalKept : Prop := ∀ s t : State, s.memWf → step s = .next t → t.memWf

/-- R20, R22, R25, R26, R35, R37, R311: what a thread must not issue traps ILL or PRIV precisely, its word without effect: a target that a hint does
not accept; a register beyond the limits or in an open window; a carder word; a supervisor word in a user's thread; a word that is none. A hood is
named as a whole, of lanes those for which the check fails, and of those of a word of named tiles the lowest (R106). -/
def Sys2Proof.Claims.WordsTrapIllAndPriv : Prop :=
  ∀ (s : State) (i : Instr) (w : Who) (G : Group), s.who s.cur = some w → s.group w.d w.gid = some G →
    let P := s.selected w
    let low := fun (b : Bool) (xs : List Nat) => if b && w.hood.isNone then xs.take 1 else xs
    let named := fun (p : Nat → Bool) (xs : List Nat) => if w.hood.isSome then xs else xs.filter p
    let astray := fun x => (w.hintsAt x).any fun h => !h.accepts i
    let op := s.opAt w.d w.core (w.gid = 0) w.pc
    let odd := fun x => op == some 0x7F || !(w.hintsAt x).all (acceptsOp op)
    let tile := namesLowest i
    let named58 := op == some 0x58
    let ill := fun (i : Instr) (xs : List Nat) (pc : Option DWord) => exec i s = .next (s.trap w { cause := Cause.ill, xs := xs, pc := pc })
    (i.encoded = true → hintOf i = none →
      ((∃ x ∈ w.all, astray x = true) → ill i (low tile (named astray w.all)) (some (w.chainPcAt ((named astray w.all).headD 0)))) ∧
      ((∀ x ∈ w.all, astray x = false) → P ≠ [] →
        (i.wellFormed = false ∨ i.carderOnly = true → ill i (low tile P) none) ∧
        (i.wellFormed = true → i.carderOnly = false →
          ((∃ x ∈ P, refusedAt G w i.use x = true) → ill i (low tile (named (refusedAt G w i.use) P)) none) ∧
          ((∀ x ∈ P, refusedAt G w i.use x = false) → i.supervisor = true → w.gid ≠ 0 →
            exec i s = .next (s.trap w { cause := Cause.priv, xs := low tile P }))))) ∧
    ((∃ x ∈ w.all, odd x = true) → ill .malformedWord (low named58 (named odd w.all)) (some (w.chainPcAt ((named odd w.all).headD 0)))) ∧
    ((∀ x ∈ w.all, odd x = false) → P ≠ [] → ill .malformedWord (low named58 P) (some w.pc)) ∧
    ((∀ x ∈ w.all, odd x = false) → P = [] → w.all ≠ [] → Completes .malformedWord s s w noReg)

/-- R26, R35, R36, R82: on a carder a word outside the carder profile, one that a hint of its chain does not accept, and one that is none, raise CARD
wrapping ILL, at the word or at the first word of the malformed chain; one that the predicate excludes is passed. -/
def Sys2Proof.Claims.CarderProfileHolds : Prop :=
  ∀ (s : State) (i : Instr) (d : DieId) (inst : Nat), s.cur = .carder d inst → inst < 48 →
    let c := (s.die d).carder inst
    let chainPc := if c.ctl.chain = [] then c.ctl.pc else c.ctl.chainPc
    let excluded := ∃ g, predOf c.ctl.chain = some g ∧ (vget c.c g.toNat 0).getLsbD 0 = false
    let sup := match c.current with
      | some q => q.sup
      | none => false
    let raises := fun (i : Instr) (pc : DWord) => exec i s = .next (s.card d inst Cause.ill pc 0)
    (i.encoded = true → hintOf i = none → (∃ h ∈ c.ctl.chain, h.accepts i = false) → raises i chainPc) ∧
    (i.encoded = true → hintOf i = none → (∀ h ∈ c.ctl.chain, h.accepts i = true) → i.carderOk = false → ¬excluded → raises i c.ctl.pc) ∧
    (i.encoded = true → hintOf i = none → (∀ h ∈ c.ctl.chain, h.accepts i = true) → excluded →
      ∃ t, exec i s = .next t ∧ CarderGoes t s d inst c.c (c.ctl.pc + 4)) ∧
    (∀ h, hintOf i = some h → (∀ v, h ≠ .immhi v) → (∀ g, h ≠ .pred g) → raises i c.ctl.pc) ∧
    let op := s.opAt d (carderAgent inst) sup c.ctl.pc
    (op ≠ some 0x7F → (∀ h ∈ c.ctl.chain, acceptsOp op h = true) → ¬excluded → raises .malformedWord c.ctl.pc) ∧
    (op = some 0x7F ∨ (∃ h ∈ c.ctl.chain, acceptsOp op h = false) → raises .malformedWord chainPc) ∧
    ∀ q, c.current = some q → s.card d inst Cause.ill c.ctl.pc 0 = s.raiseFault (s.carderFault d inst q Cause.card Cause.ill c.ctl.pc 0)

/-- The words that trap ILL, PRIV or CARD wrapping ILL. -/
def Obligations.IllAndPriv : Prop := Claims.WordsTrapIllAndPriv ∧ Claims.CarderProfileHolds

/-- R270: threads that their predicate excludes pass the word as a NOP: they go on at the next one, no window closes, and nothing else changes. -/
def Obligations.ExcludedThreadsPass : Prop :=
  ∀ (s : State) (i : Instr) (w : Who) (G : Group), i.encoded = true → hintOf i = none → i.gathered = false → s.who s.cur = some w →
    s.group w.d w.gid = some G → w.all ≠ [] → s.selected w = [] → (∀ x ∈ w.all, ∀ h ∈ w.hintsAt x, h.accepts i = true) →
    (∀ lo, w.hood = some lo → (i.mergePoint || w.hints.any (· == .merge)) = true → G.mergeCheck lo = .proceed) →
    ∃ t, exec i s = .next t ∧ Goes s t s w noReg w.next ∧
      ∀ x ∈ w.all, ∀ win ∈ (s.ctlAt w x).windows, 1 < win.left → { win with left := win.left - 1 } ∈ (t.ctlAt w x).windows

/-- R148, R149, R151: splits, expansions and merges change no value that any index sees, and a merge that R151's test allows makes one form. -/
def Sys2Proof.Claims.HoodsKeepValues : Prop :=
  (∀ (G : Group) (h : Hood) (m x r : Nat), G.hood h.lo = some h → h.lo < m → m < h.hi → G.hood m = none → r < 64 →
    let S := G.split h.lo m
    (h.lo ≤ x → x < m → S.g (some h.lo) x r = G.g (some h.lo) x r) ∧ (m ≤ x → x < h.hi → S.g (some m) x r = G.g (some h.lo) x r) ∧
    (S.hood h.lo).map (fun l => (l.lo, l.hi, l.ctl)) = some (h.lo, m, h.ctl) ∧ (S.hood m).map (fun u => (u.lo, u.hi, u.ctl)) = some (m, h.hi, h.ctl)) ∧
  (∀ (G : Group) (h : Hood) (x r : Nat), G.hood h.lo = some h → r < 64 →
    let E := G.expand h.lo
    (h.lo ≤ x → x < h.hi → E.g none x r = G.g (some h.lo) x r ∧ (E.ctlOf none x).pc = h.ctl.pc ∧ (E.ctlOf none x).chain = h.ctl.chain) ∧
    (x < h.lo ∨ h.hi ≤ x → E.lane x = G.lane x) ∧ E.hood h.lo = none) ∧
  ∀ (l u : Hood) (n x : Nat), l.lo < l.hi → l.hi = u.lo → u.lo < u.hi → n < 64 →
    (∃ f : Form, ∀ y, (l.lo ≤ y → y < l.hi → f.at l.lo y = (vget l.g n {}).at l.lo y) ∧ (u.lo ≤ y → y < u.hi → f.at l.lo y = (vget u.g n {}).at u.lo y)) →
    (mergeForm (vget l.g n {}) (vget u.g n {}) (l.hi - l.lo) (u.hi - u.lo)).isSome = true ∧
    (l.lo ≤ x → x < l.hi → (vget (mergeHoods l u).g n {}).at l.lo x = (vget l.g n {}).at l.lo x) ∧
    (u.lo ≤ x → x < u.hi → (vget (mergeHoods l u).g n {}).at l.lo x = (vget u.g n {}).at u.lo x)

/-- R145 to R149 and the rules of each word: a hood whose word needs UNIFORM registers, and finds another form, or that works by lanes, expands its range
and stands at the word. A condition set of BRC, ICMP, SEL or HINT.PRED that starts or ends the range splits the hood there, and both siblings complete the
word; where it does neither, or no hood context is free, the range expands. -/
def Sys2Proof.Claims.HoodsExpandAndSplit : Prop :=
  (∀ (s : State) (i : Instr) (w : Who) (G : Group), Ready s i w G → w.hood ≠ none → ¬releases w.hints →
    (hoodNever i = true ∨ ∃ rs, hoodNeeds i = some rs ∧ ∃ r ∈ rs, (s.form w r).stride ≠ 0) → (∀ x ∈ w.all, (G.ctlOf w.hood x).outstanding = false) →
    ∃ t, exec i s = .next t ∧ Expands s t w) ∧
  (∀ (s : State) (i : Instr) (w : Who) (G : Group) (p : Nat → Bool), Ready s i w G → w.hood ≠ none → condOf s w i = some p →
    (∀ x ∈ w.all, (G.ctlOf w.hood x).outstanding = false) →
    ((∃ x ∈ w.all, ∃ y ∈ w.all, ∃ z ∈ w.all, x < y ∧ y < z ∧ p x = p z ∧ p x ≠ p y) ∨ (s.hoodsFree w.d w.core = 0 ∧ ∃ x ∈ w.all, ∃ y ∈ w.all, p x ≠ p y)) →
    ∃ t, exec i s = .next t ∧ Expands s t w) ∧
  (∀ (s : State) (i : Instr) (w : Who) (G : Group) (lo m hi : Nat) (low : Bool) (p : Nat → Bool), Ready s i w G → w.hood = some lo → w.hints = [] →
    w.all = range lo hi → lo < m → m < hi → s.hoodsFree w.d w.core ≠ 0 → G.hood m = none → condOf s w i = some p →
    (∀ x ∈ w.all, p x = if x < m then low else !low) →
    (∀ c off, i = .brc c off →
      let tgt := fun (b : Bool) => if b = false then w.pc + 4 else if goesBack off = true ∧ w.gid ≠ 0 then s.safeTarget w.d (branchTarget w.pc off)
        else branchTarget w.pc off
      ∃ t, exec i s = .next t ∧ splitInto s t w lo m hi (tgt low) (tgt (!low)) (s.g w)) ∧
    (∀ c d a b, i = .icmp c d a b →
      ∃ t, exec i s = .next t ∧ splitInto s t w lo m hi (w.pc + 4) (w.pc + 4) fun x r => if r = d.toNat then (if p x then 1 else 0) else s.g w x r) ∧
    (∀ d a b, i = .sel d a b →
      ∃ t, exec i s = .next t ∧ splitInto s t w lo m hi (w.pc + 4) (w.pc + 4)
        fun x r => if r = d.toNat then (if p x then regsOf s w x a else regsOf s w x b) else s.g w x r)) ∧
  ∀ (s : State) (i : Instr) (w : Who) (G : Group) (g d : Reg) (f : (Reg → Word) → Word) (lo m hi : Nat) (low : Bool),
    s.who s.cur = some w → s.group w.d w.gid = some G → s.precheck w i = none → w.hood = some lo → w.hints = [.pred g] → w.all = range lo hi → lo < m → m < hi →
    s.hoodsFree w.d w.core ≠ 0 → G.hood m = none → (∀ x ∈ w.all, (regsOf s w x g).getLsbD 0 = if x < m then low else !low) →
    once s w i → laneResult (immOf w.hints) (fun k => s.k w k.toNat) i = some (d, f) →
    ∃ t, exec i s = .next t ∧ splitInto s t w lo m hi (w.pc + 4) (w.pc + 4)
      fun x r => if r = d.toNat ∧ (regsOf s w x g).getLsbD 0 = true then f (regsOf s w x) else s.g w x r

/-- Hoods keep every index's values, and expand and split where a word needs it. -/
def Obligations.HoodForms : Prop := Claims.HoodsKeepValues ∧ Claims.HoodsExpandAndSplit

/-! ## The tile engine (R200 to R219) -/

namespace Sys2Proof.Claims

/-- A valid shape (R201). -/
def validShape (S : Shape) : Prop :=
  S.bad = false ∧ fmtValid S.fmt = true ∧ (S.fmt = 0x0A → S.cols % 2 = 0) ∧ ((blockP S.fmt).isSome = true → S.cols % 16 = 0) ∧
    S.rows * rowBytes S.fmt S.cols ≤ 16384
/-- Formats that TMMA multiplies, and TMMAI (R209). -/
def multiplies (int : Bool) (f : Nat) : Prop := if int then f = 9 ∨ f = 0x0A else (floatFmt f).isSome = true ∨ (blockP f).isSome = true
/-- The checks of TMMA and TMMAI, in the spec's terms (R209). -/
def mmaFits (S : Group) (int : Bool) (td ta tb : Tile) (fa fb : FmtSlot) (sa sb : Bool) : Prop :=
  let D := S.shapeOf td
  let A := S.shapeOf ta
  let B := S.shapeOf tb
  validShape D ∧ validShape A ∧ validShape B ∧ D.fmt = (if int then 0x0B else 1) ∧ multiplies int A.fmt ∧ multiplies int B.fmt ∧
    A.fmt = (S.fmtSlot fa.toNat).fmt ∧ B.fmt = (S.fmtSlot fb.toNat).fmt ∧ (int = false → sa = false → (blockP A.fmt).isSome = true) ∧
    (int = false → sb = false → (blockP B.fmt).isSome = true) ∧ A.rows = D.rows ∧ B.rows = D.cols ∧ A.cols = B.cols ∧
    (S.fmtSlot fa.toNat).ok = true ∧ (S.fmtSlot fb.toNat).ok = true
/-- No memory row of the word faults (R208). -/
def rowsFit (s : State) (w : Who) (q : TileCmd) (align : Nat) : Prop :=
  ∀ r ∈ q.memRows, s.rowFault w.d w.gid (BufRec.of q.buf) align r = none
/-- No memory row of the word meets a write that its group has acquired and that has still to land (R120, log 41). -/
def rowsSettled (s : State) (w : Who) (q : TileCmd) : Prop :=
  let B := BufRec.of q.buf
  ∀ r ∈ q.memRows, s.lateClash w.d w.gid B.bound true s.nextId ⟨false, some B.space, B.base + r.off, B.base + r.off + r.len⟩ = false
/-- A register's values by lane number. -/
def byLane (s : State) (w : Who) (S : Group) (r : Reg) : Vector Word 32 :=
  w.xs.foldl (fun v x => vput v (S.laneNo x) (s.g w x r.toNat)) (Vector.replicate 32 0)

/-- What a tile word of the participants `w.xs` captures, and the checks that it passes. -/
def tileEntry (s : State) (w : Who) (S : Group) : Instr → Option (TileCmd × Prop)
  | .tmma td ta tb fa fb sa sb acc _ =>
    let q := TileCmd.of s w S .tmma
    some ({ q with acc := acc, td := td.toNat, ta := ta.toNat, tb := tb.toNat, fa := fa.toNat, fb := fb.toNat, sa := sa, sb := sb,
                   sd := vget S.shape td.toNat 0, sha := vget S.shape ta.toNat 0, shb := vget S.shape tb.toNat 0 }, mmaFits S false td ta tb fa fb sa sb)
  | .tmmai td ta tb fa fb sa sb acc _ =>
    let q := TileCmd.of s w S .tmmai
    some ({ q with acc := acc, td := td.toNat, ta := ta.toNat, tb := tb.toNat, fa := fa.toNat, fb := fb.toNat, sa := sa, sb := sb,
                   sd := vget S.shape td.toNat 0, sha := vget S.shape ta.toNat 0, shb := vget S.shape tb.toNat 0 }, mmaFits S true td ta tb fa fb sa sb)
  | .tld tr t n a _ =>
    let q := { TileCmd.of s w S .tld with
      tr := tr, td := t.toNat, sd := vget S.shape t.toNat 0, buf := s.bufBits w n, off := s.g w (w.xs.headD 0) a.toNat }
    some (q, validShape (S.shapeOf t) ∧ (s.buf w n).bad = false ∧ (s.buf w n).space ≠ 2 ∧ (s.buf w n).fmt = (S.shapeOf t).fmt ∧
      (tr = true → scalarFmt (S.shapeOf t).fmt = true) ∧ rowsFit s w q (unitAlign (S.shapeOf t).fmt))
  | .tst tr t n a =>
    let q := { TileCmd.of s w S .tst with
      tr := tr, td := t.toNat, sd := vget S.shape t.toNat 0, buf := s.bufBits w n, off := s.g w (w.xs.headD 0) a.toNat }
    some (q, validShape (S.shapeOf t) ∧ (s.buf w n).bad = false ∧ (s.buf w n).space ≠ 2 ∧ (s.buf w n).fmt = (S.shapeOf t).fmt ∧
      (tr = true → scalarFmt (S.shapeOf t).fmt = true) ∧ rowsFit s w q (unitAlign (S.shapeOf t).fmt))
  | .tdrain t n a _ =>
    let q := { TileCmd.of s w S .tdrain with
      td := t.toNat, ofmt := (S.shapeOf t).fmt, sd := vget S.shape t.toNat 0, buf := s.bufBits w n, off := s.g w (w.xs.headD 0) a.toNat }
    some (q, validShape (S.shapeOf t) ∧ ((S.shapeOf t).fmt = 1 ∨ (S.shapeOf t).fmt = 0x0B) ∧ (s.buf w n).bad = false ∧ (s.buf w n).space ≠ 2 ∧
      (s.buf w n).fmt = (S.shapeOf t).fmt ∧ rowsFit s w q (unitAlign (S.shapeOf t).fmt))
  | .tdrainFmt f t n a _ =>
    let F := S.fmtSlot f.toNat
    let m := (roundingOf w.hints F.mode F.sat).1
    let q := { TileCmd.of s w S .tdrain with
      conv := true, td := t.toNat, cslot := f.toNat, ofmt := F.fmt, sd := vget S.shape t.toNat 0, buf := s.bufBits w n,
      off := s.g w (w.xs.headD 0) a.toNat, round := m.hint, sat := (roundingOf w.hints F.mode F.sat).2, sr := m.stochastic, seed := m.seed }
    some (q, validShape (S.shapeOf t) ∧ (S.shapeOf t).fmt = 1 ∧ F.ok = true ∧ multiplies false F.fmt ∧ (s.buf w n).bad = false ∧
      (s.buf w n).space ≠ 2 ∧ (s.buf w n).fmt = F.fmt ∧ ((blockP F.fmt).isSome = true → (S.shapeOf t).cols % 16 = 0) ∧ rowsFit s w q (unitAlign F.fmt))
  | .trowrd d t b _ =>
    some ({ TileCmd.of s w S .trowrd with td := t.toNat, sd := vget S.shape t.toNat 0, gbL := byLane s w S b, gd := d.toNat },
      w.hood = none ∧ validShape (S.shapeOf t) ∧ scalarFmt (S.shapeOf t).fmt = true)
  | .trowwr t a b =>
    some ({ TileCmd.of s w S .trowwr with td := t.toNat, sd := vget S.shape t.toNat 0, gaL := byLane s w S a, gbL := byLane s w S b },
      w.hood = none ∧ validShape (S.shapeOf t) ∧ scalarFmt (S.shapeOf t).fmt = true)
  | .tscale t a =>
    let m := (roundingOf w.hints .rne false).1
    some ({ TileCmd.of s w S .tscale with
        td := t.toNat, sd := vget S.shape t.toNat 0, round := m.hint, sat := (roundingOf w.hints .rne false).2, sr := m.stochastic, seed := m.seed,
        gaL := if w.hood = none then byLane s w S a else Vector.replicate 32 (s.g w (w.xs.headD 0) a.toNat) },
      validShape (S.shapeOf t) ∧ (S.shapeOf t).fmt = 1)
  | .tzero t => some ({ TileCmd.of s w S .tzero with td := t.toNat, sd := vget S.shape t.toNat 0 }, validShape (S.shapeOf t))
  | _ => none
/-- The register whose one value a tile word reads. -/
def tileOffset : Instr → Option Reg
  | .tld _ _ _ a _ | .tst _ _ _ a | .tdrain _ _ a _ | .tdrainFmt _ _ _ a _ | .tscale _ a => some a
  | _ => none
/-- The register that gives a tile word's address in memory, which its trap names (R316). -/
def tileAddress : Instr → Option Reg
  | .tld _ _ _ a _ | .tst _ _ _ a | .tdrain _ _ a _ | .tdrainFmt _ _ _ a _ => some a
  | _ => none
/-- The check of a list that fails first, each with its cause and address. -/
def failsFirst : List (Prop × Cause × DWord) → Cause → DWord → Prop
  | [], _, _ => False
  | p :: l, c, a => (¬p.1 ∧ c = p.2.1 ∧ a = p.2.2) ∨ (p.1 ∧ failsFirst l c a)
/-- The checks of a shape (R201). -/
def shapeChecks (S : Shape) : List (Prop × Cause × DWord) :=
  [(S.bad = false ∧ fmtValid S.fmt = true, Cause.fmt, 0), (S.fmt = 0x0A → S.cols % 2 = 0, Cause.size, 0),
   ((blockP S.fmt).isSome = true → S.cols % 16 = 0, Cause.size, 0), (S.rows * rowBytes S.fmt S.cols ≤ 16384, Cause.size, 0)]
/-- The checks of the memory rows of a tile word, row by row (R208). -/
def rowChecks (s : State) (w : Who) (q : TileCmd) (align : Nat) : List (Prop × Cause × DWord) :=
  let B := BufRec.of q.buf
  q.memRows.flatMap fun r =>
    let fa : DWord := BitVec.ofNat 64 (B.base + r.off)
    [(B.mode = 0 ∨ B.mode = 1 → r.off + r.len ≤ B.extent, Cause.bounds, fa),
     (B.mode = 3 → B.extent ≠ 0 ∧ r.off + r.len ≤ B.extent, Cause.bounds, fa),
     (s.inSpace w.d w.gid B.space (B.base + r.off) r.len = true, Cause.bounds, fa), ((B.base + r.off) % align = 0, Cause.align, fa),
     (s.touchesLive w.d w.gid B.space (B.base + r.off) r.len = false, Cause.baruse, fa)]
/-- The checks of a tile word at issue, in their order (R205, R208, R209, R212 to R216); `q` is what it captures. That TDRAIN's SPACE comes after its FMT
and SIZE is the model's reading (log 48). -/
def tileChecks (s : State) (w : Who) (S : Group) (q : TileCmd) : Instr → List (Prop × Cause × DWord)
  | .tmma td ta tb fa fb sa sb _ _ => matrixChecks S false td ta tb fa fb sa sb
  | .tmmai td ta tb fa fb sa sb _ _ => matrixChecks S true td ta tb fa fb sa sb
  | .tld tr t n _ _ | .tst tr t n _ => shapeChecks (S.shapeOf t) ++
    [((s.buf w n).bad = false, Cause.fmt, 0), ((s.buf w n).space ≠ 2, Cause.bounds, 0), ((s.buf w n).fmt = (S.shapeOf t).fmt, Cause.fmt, 0),
     (tr = true → scalarFmt (S.shapeOf t).fmt = true, Cause.fmt, 0)] ++ rowChecks s w q (unitAlign (S.shapeOf t).fmt)
  | .tdrain t n _ _ => shapeChecks (S.shapeOf t) ++
    [((S.shapeOf t).fmt = 1 ∨ (S.shapeOf t).fmt = 0x0B, Cause.fmt, 0), ((s.buf w n).bad = false, Cause.fmt, 0),
     ((s.buf w n).fmt = (S.shapeOf t).fmt, Cause.fmt, 0), ((s.buf w n).space ≠ 2, Cause.bounds, 0)] ++ rowChecks s w q (unitAlign (S.shapeOf t).fmt)
  | .tdrainFmt f t n _ _ =>
    let F := S.fmtSlot f.toNat
    shapeChecks (S.shapeOf t) ++
    [((S.shapeOf t).fmt = 1, Cause.fmt, 0), (F.ok = true ∧ multiplies false F.fmt, Cause.fmt, 0), ((s.buf w n).bad = false, Cause.fmt, 0),
     ((s.buf w n).fmt = F.fmt, Cause.fmt, 0), ((blockP F.fmt).isSome = true → (S.shapeOf t).cols % 16 = 0, Cause.size, 0),
     ((s.buf w n).space ≠ 2, Cause.bounds, 0)] ++ rowChecks s w q (unitAlign F.fmt)
  | .trowrd _ t _ _ | .trowwr t _ _ => shapeChecks (S.shapeOf t) ++ [(scalarFmt (S.shapeOf t).fmt = true, Cause.fmt, 0)]
  | .tscale t _ => shapeChecks (S.shapeOf t) ++ [((S.shapeOf t).fmt = 1, Cause.fmt, 0)]
  | .tzero t => shapeChecks (S.shapeOf t)
  | _ => []
where
  /-- The checks of TMMA and TMMAI (R209). -/
  matrixChecks (S : Group) (int : Bool) (td ta tb : Tile) (fa fb : FmtSlot) (sa sb : Bool) : List (Prop × Cause × DWord) :=
    let D := S.shapeOf td
    let A := S.shapeOf ta
    let B := S.shapeOf tb
    shapeChecks D ++ shapeChecks A ++ shapeChecks B ++
    [(D.fmt = (if int then 0x0B else 1), Cause.fmt, 0),
     (multiplies int A.fmt ∧ multiplies int B.fmt ∧ A.fmt = (S.fmtSlot fa.toNat).fmt ∧ B.fmt = (S.fmtSlot fb.toNat).fmt, Cause.fmt, 0),
     (int = false → (sa = false → (blockP A.fmt).isSome = true) ∧ (sb = false → (blockP B.fmt).isSome = true), Cause.fmt, 0),
     (A.rows = D.rows ∧ B.rows = D.cols ∧ A.cols = B.cols, Cause.size, 0),
     ((S.fmtSlot fa.toNat).ok = true ∧ (S.fmtSlot fb.toNat).ok = true, Cause.fmt, 0)]
/-- The bytes that a row of a tile puts into memory under TST, TST.tr, TDRAIN and TDRAIN.fmtN (R208, R215). -/
def rowWritten (q : TileCmd) (T : Mem) (r : MRow) : List Byte :=
  let D := Shape.of q.sd
  let key := fun c => BitVec.ofNat 32 (256 * r.row + c)
  let val := fun c => f32.val (D.elem T r.row c)
  if q.kind = .tst ∧ q.tr = true then (List.range D.rows).flatMap fun i => bytesOf (unitBytes D.fmt) (D.elem T i r.row)
  else if q.kind = .tst ∨ q.ofmt = D.fmt then T.readN (r.row * rowBytes D.fmt D.cols) r.len
  else match floatFmt q.ofmt, blockP q.ofmt with
    | some f, _ => (List.range D.cols).flatMap fun c => bytesOf (unitBytes q.ofmt) (f.of (val c) q.mode q.sat (key c))
    | none, some p => (List.range (D.cols / 16)).flatMap fun b =>
        bytesOf (unitBytes q.ofmt) (toBlock p ((List.range 16).map fun k => (val (16 * b + k), key (16 * b + k))) q.mode)
    | none, none => []
/-- The rows of a shape that a lane set names: lane `l` names rows `2l` and `2l + 1` (R202). -/
def rowsOf (lanes : Word) (S : Shape) : List Nat := (List.range S.rows).filter fun r => lanes.getLsbD (r / 2)

end Sys2Proof.Claims

/-- R200 to R216, R334: a tile word that passes its checks enters its core's queue with what it captured, if the queue has room for it among its 8
words; a full queue holds it, and so do rows that a write which its group has acquired has still to reach (R120). A record that it uses is one of its
group's (R120). TDRED also marks its rows as sent. -/
def Sys2Proof.Claims.TileWordsQueue : Prop :=
  ∀ (s : State) (i : Instr) (w : Who) (G S : Group), Ready s i w G → s.snapGroup w.d w.gid = some S → Solo S w →
    let W := s.taking w
    let room := (s.tileQueue w.d w.core).length < 8
    let enters := fun (q : TileCmd) => ({ s.modBank w.d (fun B => { B with tileq := B.tileq ++ [q] }) with nextId := s.nextId + 1 } : State)
    (∀ q fits, tileEntry s W S i = some (q, fits) → fits → (∀ a, tileOffset i = some a → w.hood ≠ none → uniformIn s w a) →
      (room → rowsSettled s w q → Completes i s ((enters q).useRecord w.d w.gid (BufRec.of q.buf)) w noReg) ∧
      (¬room ∨ ¬rowsSettled s w q → ∃ t, exec i s = .next t ∧ t.still w = s.still w ∧ standsWaiting s t w .held)) ∧
    ∀ (t : Tile) (k : KReg) (h : Handle), i = .tdred t k → validShape (S.shapeOf t) → (S.shapeOf t).fmt = 1 →
      (s.die w.d).handleOf w.gid w.core (s.k w k.toNat) = some h → (S.shapeOf t).rows = h.rows → (S.shapeOf t).cols = h.cols →
      let q := { TileCmd.of s w S .tdred with td := t.toNat, sd := vget S.shape t.toNat 0, handle := s.k w k.toNat }
      let m := rowMask (rowsOf q.lanes (S.shapeOf t))
      h.sent &&& m = 0 → room →
      Completes i s ((enters q).modHandles w.d w.gid fun hs => hs.map fun x =>
        if x.core = w.core ∧ x.h = (s.k w k.toNat).toNat % 16 then { x with sent := x.sent ||| m } else x) w noReg

/-- R205, R208, R209, R212 to R216: a tile word whose first failing check has a cause traps with it at its own PC, names its participants by R122, and
changes nothing else: no word enters the queue. TDRED's checks are its shape, its format, its handle, the rows and columns, and the rows sent. -/
def Sys2Proof.Claims.TileWordsCheckFirst : Prop :=
  ∀ (s : State) (i : Instr) (w : Who) (G S : Group), Ready s i w G → s.snapGroup w.d w.gid = some S → Solo S w →
    let W := s.taking w
    (∀ q fits c a, tileEntry s W S i = some (q, fits) → failsFirst (tileChecks s W S q i) c a →
      (∀ r, tileOffset i = some r → w.hood ≠ none → uniformIn s w r) → (∀ g t b la, i = .trowrd g t b la → w.hood = none) →
      (∀ t g b, i = .trowwr t g b → w.hood = none) → W.xs ≠ [] →
      exec i s = .next (s.trap W { cause := c, faddr := a, xs := W.xs, freg := (tileAddress i).map (·.toNat) })) ∧
    ∀ (t : Tile) (k : KReg) (c : Cause), i = .tdred t k → W.xs ≠ [] →
      let D := S.shapeOf t
      let h := (s.die w.d).handleOf w.gid w.core (s.k w k.toNat)
      let lanes := W.xs.foldl (fun m x => m ||| ((1 : Word) <<< S.laneNo x)) 0
      failsFirst (shapeChecks D ++ [(D.fmt = 1, Cause.fmt, 0), (h.isSome = true, Cause.baruse, 0),
        (∀ x, h = some x → D.rows = x.rows ∧ D.cols = x.cols, Cause.size, 0), (∀ x, h = some x → x.sent &&& rowMask (rowsOf lanes D) = 0, Cause.baruse, 0)]) c 0 →
      exec i s = .next (s.trap W { cause := c, xs := W.xs })

/-- The tile words: the words that enter the queue, and the checks that come first. -/
def Obligations.TileWords : Prop := Claims.TileWordsQueue ∧ Claims.TileWordsCheckFirst

/-- R120, R204, R208 to R218: the engine performs the word at the head of its queue: TMMA and TMMAI one k-block at a time, one rounding a k-block;
the word then leaves the queue. Rows outside the lane set, the other tiles, the registers, and the bytes of local memory that the word does not
write stay as they were. A word that meets an uncorrectable error halts the partition with ECC and stays (R217). -/
def Obligations.TileEnginePerforms : Prop :=
  ∀ (s : State) (d : DieId) (core : Nat) (q : TileCmd) (rest : List TileCmd) (G : Group), s.ready = true → s.stopped d (100 + core) = false →
    s.tileQueue d core = q :: rest → (∀ p ∈ rest, p.id ≠ q.id) → s.group d q.gid = some G → q.td < 16 → validShape (Shape.of q.sd) →
    (G.tileMem q.td).wf = true →
    let i := Instr.tileWordPerform d core
    let D := Shape.of q.sd
    let T := G.tileMem q.td
    let B := BufRec.of q.buf
    let named := rowsOf q.lanes D
    let others := fun (G' : Group) => ∀ n, n ≠ q.td → G'.tileMem n = G.tileMem n
    let registers := fun (G' : Group) => G'.k = G.k ∧ G'.lanes.map (fun l => (l.x, l.g)) = G.lanes.map (fun l => (l.x, l.g)) ∧
      G'.hoods.map (·.g) = G.hoods.map (·.g)
    let local_ := fun (t : State) => ∀ sp y a, t.readLocal d q.gid y sp a 1 = s.readLocal d q.gid y sp a 1
    -- the tile's elements afterwards
    let becomes := fun (v : Nat → Nat → Nat) (t : State) => ∃ G', t.group d q.gid = some G' ∧ others G' ∧ registers G' ∧ local_ t ∧
      ∀ r c, r < D.rows → c < D.cols → D.elem (G'.tileMem q.td) r c = v r c
    let elements := fun (v : Nat → Nat → Nat) => becomes fun r c => if r ∈ named then v r c else D.elem T r c
    let leaves := fun (t : State) => t.tileQueue d core = rest ∧ t.mem = s.mem
    let ends := fun (v : Nat → Nat → Nat) => ∃ t, exec i s = .next t ∧ elements v t ∧ leaves t
    let blocks := ((Shape.of q.sha).cols + 15) / 16
    let ks := range (16 * q.prog) (min (16 * q.prog + 16) (Shape.of q.sha).cols)
    let goesOn := fun (v : Nat → Nat → Nat) => ∃ t, exec i s = .next t ∧ elements v t ∧ t.mem = s.mem ∧
      t.tileQueue d core = { q with prog := q.prog + 1 } :: rest
    let start := fun (r c : Nat) => if q.acc = false ∧ q.prog = 0 then 0 else D.elem T r c
    -- the bytes of a memory row, zero bytes beyond EXTENT under zero-fill
    let rowRead := fun (r : MRow) => s.readLocal d q.gid 0 B.space (B.base + r.off) (r.cut B) ++ List.replicate (r.len - r.cut B) (0 : Byte)
    let within := fun (r : MRow) a => B.base + r.off ≤ a ∧ a < B.base + r.off + r.cut B
    (s.tileBad d G q = true → ∃ t, exec i s = .next t ∧ t.tileQueue d core = q :: rest ∧ t.group d q.gid = some G ∧ local_ t ∧
      ∃ f ∈ (t.part (t.partOf d)).faults, f.stop = { s.tileRecord d core with cause := Cause.ecc }) ∧
    (s.tileBad d G q = false →
    (q.kind = .tmma → D.fmt = 1 →
      let v := fun r c => accumulate (if q.acc = false ∧ q.prog = 0 then .fin false 0 0 else f32.val (D.elem T r c))
        (sumVals (ks.map fun k => ((Shape.of q.sha).value (G.tileMem q.ta) q.sa r k).mul ((Shape.of q.shb).value (G.tileMem q.tb) q.sb c k))) % 2 ^ 32
      (q.prog + 1 < blocks → goesOn v) ∧ (blocks ≤ q.prog + 1 → ends v)) ∧
    (q.kind = .tmmai → D.fmt = 0x0B →
      let v := fun r c => (BitVec.ofInt 32 (start r c +
        (ks.map fun k => (Shape.of q.sha).int (G.tileMem q.ta) q.sa r k * (Shape.of q.shb).int (G.tileMem q.tb) q.sb c k).sum)).toNat
      (q.prog + 1 < blocks → goesOn v) ∧ (blocks ≤ q.prog + 1 → ends v)) ∧
    (q.kind = .tzero → scalarFmt D.fmt = true → ends fun _ _ => 0) ∧
    (q.kind = .tscale → D.fmt = 1 → ends fun r c =>
      f32.mulOp (D.elem T r c) (vget q.gaL (r / 2) 0).toNat q.mode q.sat (BitVec.ofNat 32 (256 * r + c)) % 2 ^ 32) ∧
    (q.kind = .tld → q.tr = false → ∃ t G', exec i s = .next t ∧ leaves t ∧ t.group d q.gid = some G' ∧ others G' ∧ registers G' ∧ local_ t ∧
      ∀ r ∈ q.memRows, (G'.tileMem q.td).readN (r.row * rowBytes D.fmt D.cols) r.len = rowRead r) ∧
    (q.kind = .tld → q.tr = true → scalarFmt D.fmt = true → ∃ t, exec i s = .next t ∧ leaves t ∧
      becomes (fun e c => match q.memRows[c]? with
        | some r => ofBytes (((rowRead r).drop (e * unitBytes D.fmt)).take (unitBytes D.fmt))
        | none => 0) t) ∧
    (q.kind = .tst ∧ (q.tr = true → scalarFmt D.fmt = true) ∨
      q.kind = .tdrain ∧ (q.ofmt = D.fmt ∨ D.fmt = 1 ∧ ((floatFmt q.ofmt).isSome = true ∨ (blockP q.ofmt).isSome = true)) →
      B.space ≤ 1 → G.shared.wf = true → (s.die d).scratch.wf = true → G.spill.wf = true →
      ∃ t G', exec i s = .next t ∧ leaves t ∧ t.group d q.gid = some G' ∧ G'.tile = G.tile ∧ registers G' ∧
        (∀ r ∈ q.memRows, (∀ r' ∈ q.memRows, r.row < r'.row → ∀ a, within r a → ¬within r' a) →
          t.readLocal d q.gid 0 B.space (B.base + r.off) (r.cut B) = (rowWritten q T r).take (r.cut B)) ∧
        ∀ sp y a, sp ≤ 2 → (∀ r ∈ q.memRows, ¬(sp = B.space ∧ within r a)) → t.readLocal d q.gid y sp a 1 = s.readLocal d q.gid y sp a 1) ∧
    (q.kind = .trowrd → ∃ t G', exec i s = .next t ∧ leaves t ∧ t.group d q.gid = some G' ∧ G'.tile = G.tile ∧ local_ t ∧
      ∀ l ∈ (G.lanes.map (·.x)), l = q.base + G.laneNo l → q.lanes.getLsbD (G.laneNo l) = true → q.gd < 64 →
        let b := vget q.gbL (G.laneNo l) 0
        let r := 2 * G.laneNo l + if b.getLsbD 8 then 1 else 0
        let c := b.toNat % 256
        G'.g none l q.gd = if r < D.rows ∧ c < D.cols then BitVec.ofNat 32 (D.elem T r c) else 0) ∧
    (q.kind = .trowwr → scalarFmt D.fmt = true → ∃ t, exec i s = .next t ∧ leaves t ∧ becomes (fun r c =>
      let b := vget q.gbL (r / 2) 0
      if q.lanes.getLsbD (r / 2) = true ∧ r % 2 = (if b.getLsbD 8 then 1 else 0) ∧ c = b.toNat % 256
      then (vget q.gaL (r / 2) 0).toNat % 2 ^ (8 * unitBytes D.fmt) else D.elem T r c) t) ∧
    (q.kind = .tdred → ∃ t, exec i s = .next t ∧ leaves t ∧ local_ t ∧ ∀ h, (s.die d).handleOf q.gid q.core q.handle = some h → h.h = q.handle.toNat % 16 →
      -- a row goes in pieces of 128 columns, numbered twice the row and the one after, each with the word's PC
      let piece := fun r p => (2 * r + p, ((range (128 * p) (min (128 * p + 128) D.cols)).map fun c => BitVec.ofNat 32 (D.elem T r c)))
      let pieces := named.flatMap fun r => piece r 0 :: if D.cols ≤ 128 then [] else [piece r 1]
      { h with staged := h.staged ++ pieces, pcs := h.pcs ++ pieces.map fun p => (p.1 / 2, q.pc) } ∈ (t.die d).handlesOf q.gid))

/-! ## The sync engine: atomics, queues (R235 to R249, R282 to R290) -/

namespace Sys2Proof.Claims

/-- An atomic word: operation, access, bytes, address pair, source and destination (R238, R241 to R244). -/
def atomicOf : Instr → Option (SyncOp × Access × Nat × Reg × Option Reg × Option Reg)
  | .atom o d a b _ => some (.red o, .both, 4, a, some b, some d)
  | .atomXchg d a b _ => some (.xchg, .both, 4, a, some b, some d)
  | .acas d a b _ => some (.cas, .both, 4, a, some b, some d)
  | .acasX64 d a b _ => some (.cas, .both, 8, a, some b, some d)
  | .acas128 d a b _ => some (.cas, .both, 16, a, some b, some d)
  | .ared o a b => some (.red o, .both, 4, a, some b, none)
  | .sld d a _ => some (.load, .read, 4, a, none, some d)
  | .sldX64 d a _ => some (.load, .read, 8, a, none, some d)
  | .sst a b => some (.store, .write, 4, a, some b, none)
  | .sstX64 a b => some (.store, .write, 8, a, some b, none)
  | _ => none
/-- The atomic words that a hood sends as one request, and the operand of its one request for `n` indices (R240). -/
def oneRequest (n : Nat) (v : Word) : Instr → Option Word
  | .sld .. | .sldX64 .. | .sst .. | .sstX64 .. => some v
  | .ared .add _ _ => some (BitVec.ofNat 32 (n * v.toNat))
  | .ared .xor _ _ => some (if n % 2 = 1 then v else 0)
  | .ared _ _ _ => some v
  | _ => none
/-- Is the order of the word's HINT.ORD an acquire (R247)? -/
def acquires (hs : List Hint) : Bool := (ordOf hs).2 == .acq || (ordOf hs).2 == .ar
/-- The value of a pair of registers as a virtual address. -/
def pairAt (s : State) (w : Who) (x : Nat) (a : Reg) : DWord := s.g w x (a.toNat + 1) ++ s.g w x a.toNat

/-- The result of an operation on a 32-bit value (R241). -/
def reduced (o : RedOp) (old v : Word) : Word :=
  match o with
  | .add => BitVec.ofNat 32 (old.toNat + v.toNat)
  | .minI => BitVec.ofInt 32 (min old.toInt v.toInt)
  | .maxI => BitVec.ofInt 32 (max old.toInt v.toInt)
  | .minN => BitVec.ofNat 32 (min old.toNat v.toNat)
  | .maxN => BitVec.ofNat 32 (max old.toNat v.toNat)
  | .and => old &&& v
  | .or => old ||| v
  | .xor => old ^^^ v
/-- What an operation leaves in its variable (R241 to R244, R111). -/
def afterOp (r : SyncReq) (old : Nat) : Nat :=
  match r.op with
  | .red o => (reduced o (BitVec.ofNat 32 old) (r.arg.setWidth 32)).toNat
  | .xchg | .store | .put => r.arg.toNat % 256 ^ r.width
  | .cas => if old = r.cmp.toNat % 256 ^ r.width then r.arg.toNat % 256 ^ r.width else old
  | _ => old
/-- An operation that finds `v` writes its variable (R241 to R244). -/
def writesOn (r : SyncReq) (v : Nat) : Prop :=
  match r.op with
  | .red _ | .xchg | .store | .put => True
  | .cas => v = r.cmp.toNat % 256 ^ r.width
  | _ => False
/-- Word `i` of a value. -/
def wordOf (v : BitVec 256) (i : Nat) : Word := BitVec.ofNat 32 (v.toNat / 2 ^ (32 * i))

/-- The fault of an atomic's address, checked in the order of R237: bits 63:57, alignment, translation with the permissions, POOL 1. -/
def addressFault (s : State) (w : Who) (acc : Access) (n : Nat) (va : DWord) (c : Cause) : Prop :=
  (2 ^ 57 ≤ va.toNat ∧ c = Cause.page) ∨
  (va.toNat < 2 ^ 57 ∧ va.toNat % n ≠ 0 ∧ c = Cause.align) ∨
  (va.toNat < 2 ^ 57 ∧ va.toNat % n = 0 ∧ ∃ fa, s.translate w.d w.core (w.gid = 0) va acc = .fault c fa) ∨
  (va.toNat < 2 ^ 57 ∧ va.toNat % n = 0 ∧ ∃ da, s.translate w.d w.core (w.gid = 0) va acc = .ok da ∧ poolOf da = 1 ∧ c = Cause.prot)
/-- A fault of a user thread's word stands in its core's record, at the word (R310). -/
def recorded (t : State) (r : SyncReq) (c : Cause) : Prop :=
  ∃ f ∈ (t.part (t.partOf r.die)).faults, f.die = r.die ∧ f.slot = r.core ∧ f.stop.cause = c ∧ f.stop.pc = r.pc
/-- A queue word: operation, handle register, record, destination register and octet; PUSH and NEMIT are releases (R290). -/
def queueOp : Instr → Option (SyncOp × KReg × Option KReg × Nat × Nat)
  | .qpush k b => some (.push, k, some b, 0, 0)
  | .qpop d k b => some (.pop, k, none, d.toNat, b.toNat)
  | .qlen d k => some (.len, k, none, d.toNat, 0)
  | .nemit k b => some (.emit, k, some b, 0, 0)
  | _ => none
/-- The record that an octet of uniform registers holds. -/
def octet (s : State) (w : Who) (b : KReg) : Nat := ((List.range 8).map fun j => (s.k w (b.toNat + j)).toNat * 2 ^ (32 * j)).sum

end Sys2Proof.Claims

/-- R237 to R240, R245, R247: an atomic word whose participants' addresses all pass sends one request for each of them, in ascending order, with the
operands they hold; ARED, SLD and SST of a hood whose registers are UNIFORM send one. The threads go on. (Addresses on a moving frame's tables, and bytes
that an acquired write has still to reach, hold the word: R54, R120, log 41.) -/
def Sys2Proof.Claims.AtomicWordsSend : Prop :=
  ∀ (s : State) (i : Instr) (w : Who) (G : Group) (op : SyncOp) (acc : Access) (n : Nat) (a : Reg) (src dst : Option Reg) (da : Nat → Nat),
    Ready s i w G → atomicOf i = some (op, acc, n, a, src, dst) →
    let P := s.selected w
    (∀ x ∈ P, (pairAt s w x a).toNat < 2 ^ 57 ∧ (pairAt s w x a).toNat % n = 0 ∧
      s.translate w.d w.core (w.gid = 0) (pairAt s w x a) acc = .ok (da x) ∧ poolOf (da x) ≠ 1 ∧
      s.walkStalled w.d w.core (w.gid = 0) (pairAt s w x a) = false ∧ s.lateMain w.d w.gid (pairAt s w x a) n = false) →
    (releases w.hints → s.fullReady w.d w.gid P = true) →
    let value := fun x (r : Option Reg) => match r with
      | some r => s.regsVal w x r.toNat (n / 4)
      | none => 0
    let req := fun (x : Nat) (xs : List Nat) (arg : Nat) =>
      ({ id := 0, home := s.homeOf (da x), op := op, part := s.partOf w.d, ctx := s.ctxOf w.d w.gid, die := w.d, core := w.core, gid := w.gid, xs := xs,
         hood := w.hood.isSome, pc := w.pc, addr := da x, va := pairAt s w x a, width := n, arg := BitVec.ofNat 256 arg,
         cmp := BitVec.ofNat 128 (if op = .cas then value x dst else 0), dst := (dst.map (·.toNat)).getD 0, dstk := 0, acq := acquires w.hints,
         reply := none, flag := 0, word := s.nextId, wb := dst.isSome } : SyncReq)
    let sends := fun (t : State) (x : Nat) (q : SyncReq) => (t.fillTlb w.d w.core (w.gid = 0) (pairAt s w x a)).send q
    (w.hood = none → Completes i s (P.foldl (fun t x => sends t x (req x [x] (value x src))) s) w noReg) ∧
    (w.hood ≠ none → ∀ v, oneRequest w.all.length (BitVec.ofNat 32 (value (w.all.headD 0) src)) i = some v →
      uniformIn s w a → (s.form w (a.toNat + 1)).stride = 0 → (∀ r, src = some r → ∀ j < n / 4, (s.form w (r.toNat + j)).stride = 0) →
      let x := w.all.headD 0
      Completes i s (sends s x (req x w.all (if n = 4 then v.toNat else value x src))) w noReg)

/-- R237, R239, R316: where a participant's address faults no request leaves and no register changes; the fault has the cause of the lowest faulting
index, its MAP every index that faults with that cause, and FADDR the lowest of their addresses, taken over a hood or a logical wave. -/
def Sys2Proof.Claims.AtomicFaultsFirst : Prop :=
  ∀ (s : State) (i : Instr) (w : Who) (G : Group) (op : SyncOp) (acc : Access) (n : Nat) (a : Reg) (src dst : Option Reg) (x : Nat) (c : Cause)
      (ys : List Nat) (low : Nat),
    Ready s i w G → atomicOf i = some (op, acc, n, a, src, dst) → (releases w.hints → s.fullReady w.d w.gid (s.selected w) = true) →
    (∀ y ∈ s.selected w, s.walkStalled w.d w.core (w.gid = 0) (pairAt s w y a) = false ∧ s.lateMain w.d w.gid (pairAt s w y a) n = false) →
    (w.hood ≠ none → (oneRequest 1 0 i).isSome = true ∧ uniformIn s w a ∧ (s.form w (a.toNat + 1)).stride = 0 ∧
      ∀ r, src = some r → ∀ j < n / 4, (s.form w (r.toNat + j)).stride = 0) →
    let fault := addressFault s w acc n
    x ∈ s.selected w → fault (pairAt s w x a) c → (∀ y ∈ (s.selected w).takeWhile (· != x), ∀ c', ¬fault (pairAt s w y a) c') →
    (∀ y, y ∈ ys ↔ y ∈ s.selected w ∧ fault (pairAt s w y a) c) → ys.Sublist (s.selected w) →
    lowestOf w G (fun y => (pairAt s w y a).toNat) x ys low →
    exec i s = .next (s.trap (s.taking w) { cause := c, faddr := BitVec.ofNat 64 low, xs := ys, freg := some a.toNat })

/-- The atomic words: their requests, and the faults of their addresses. -/
def Obligations.AtomicWords : Prop := Claims.AtomicWordsSend ∧ Claims.AtomicFaultsFirst

/-- R235, R241 to R244, R246, R249, R111: the home engine performs a request once: the variable takes its new value, its old one is the reply, and no
other byte changes; a request behind an earlier one of its thread or word on its line, or on a moving frame, waits. One that reads a line in error halts its
partition with ECC, which names the line (R310, R317); it is performed all the same, on a value that the spec leaves open, and the line stays in error
(the model's choice, log 14). A reply that lands is written into the indices' registers, and the request is gone. -/
def Obligations.SyncEnginePerforms : Prop :=
  ∀ (s : State) (k : Nat) (r : SyncReq), s.reqs[k]? = some r → r.op.queue = false →
    (r.reply = none → (s.stalled r.addr || s.blocked r) = false → (s.badAt r.addr = true → r.op = .store ∨ r.op = .put) → s.memWf → ((∃ o, r.op = .red o) → r.width = 4) →
      let old := s.mem.get r.addr r.width
      ∃ t, exec (.atomicPerform k) s = .next t ∧ t.mem.get r.addr r.width = afterOp r old ∧
        (∀ a, a < r.addr ∨ r.addr + r.width ≤ a → t.mem.read a = s.mem.read a) ∧
        (r.op ≠ .put → ∃ q ∈ t.reqs, q.id = r.id ∧ q.reply = some (BitVec.ofNat 256 old)) ∧ (r.op = .put → ∀ q ∈ t.reqs, q.id ≠ r.id)) ∧
    (r.reply = none → (s.stalled r.addr || s.blocked r) = true → exec (.atomicPerform k) s = .next s) ∧
    (r.reply = none → (s.stalled r.addr || s.blocked r) = false → s.badAt r.addr = true → r.op ≠ .store → r.op ≠ .put → s.memWf →
      ((∃ o, r.op = .red o) → r.width = 4) → s.partOf (s.homeOf r.addr) = r.part →
      ∃ t v, exec (.atomicPerform k) s = .next t ∧ v < 256 ^ r.width ∧ t.badAt r.addr = true ∧
        (writesOn r v → t.mem.get r.addr r.width = afterOp r v) ∧ (¬writesOn r v → t.mem = s.mem) ∧
        (∀ a, a < r.addr ∨ r.addr + r.width ≤ a → t.mem.read a = s.mem.read a) ∧
        (∃ q ∈ t.reqs, q.id = r.id ∧ q.reply = some (BitVec.ofNat 256 v)) ∧
        ∃ f ∈ (t.part r.part).faults, f.die = s.homeOf r.addr ∧ f.slot = 248 ∧ f.stop.cause = Cause.ecc ∧ f.stop.pc = r.pc ∧ f.stop.ctx = r.ctx ∧
          f.stop.faddr = BitVec.ofNat 64 (r.addr / 64 * 64)) ∧
    ∀ (v : BitVec 256) (G : Group), r.reply = some v → s.group r.die r.gid = some G → ∃ t G', exec (.syncReplyLanding k) s = .next t ∧
      t.mem = s.mem ∧ (∀ q ∈ t.reqs, q.id ≠ r.id) ∧ t.group r.die r.gid = some G' ∧
      ∀ x n, n < 64 → (∀ l, G.lane x = some l → G'.g none x n = if r.wb = true ∧ x ∈ r.xs ∧ r.dst ≤ n ∧ n < r.dst + r.width / 4 then wordOf v (n - r.dst)
          else G.g none x n) ∧
        ∀ h, G.hood h.lo = some h → h.lo ≤ x → x < h.hi → G'.g (some h.lo) x n = if r.wb = true ∧ h.lo ∈ r.xs ∧ r.dst ≤ n ∧ n < r.dst + r.width / 4 then
          wordOf v (n - r.dst) else G.g (some h.lo) x n

/-- R289, R290: a queue word sends its request and stays at its word until the reply comes; QPUSH and NEMIT first wait as releases. The reply writes gd, and
QPOP's octet if there was a record, and the thread goes on. -/
def Sys2Proof.Claims.QueueWordsAndReplies : Prop :=
  (∀ (s : State) (i : Instr) (w : Who) (G : Group) (op : SyncOp) (k : KReg) (b : Option KReg) (d o : Nat), Ready s i w G → Solo G w →
    queueOp i = some (op, k, b, d, o) → (op = .push ∨ op = .emit → s.fullReady w.d w.gid (s.selected w) = true) →
    let q : SyncReq :=
      { id := 0, home := w.d, op := op, part := s.partOf w.d, ctx := s.ctxOf w.d w.gid, die := w.d, core := w.core, gid := w.gid, xs := s.selected w,
        hood := w.hood.isSome, pc := w.pc, addr := (s.k w k.toNat).toNat, width := 0,
        arg := BitVec.ofNat 256 (match b with | some b => octet s w b | none => 0), cmp := 0, dst := d, dstk := o, acq := false, reply := none, flag := 0 }
    ∃ t, exec i s = .next t ∧ t.still w = (s.send q).still w ∧ standsWaiting s t w .reply) ∧
  ∀ (s : State) (k : Nat) (r : SyncReq) (v : BitVec 256) (G : Group), s.reqs[k]? = some r → r.op.queue = true → r.reply = some v →
    s.group r.die r.gid = some G → r.xs ≠ [] → r.dst < 64 → (∀ x ∈ r.xs, (G.ctlOf r.who.hood x).wait = .reply) →
    (r.hood = false → ∀ x ∈ r.xs, (G.lane x).isSome = true) → (r.hood = true → ∃ h, G.hood (r.xs.headD 0) = some h ∧ r.xs = range h.lo h.hi) →
    let w := r.who
    let u := s.dropReq r.id
    let popped := r.op = .pop ∧ r.flag = 1
    let gd := if r.op = .pop then some (if r.flag = 1 then (1 : Word) else 0) else if r.op = .len then some (wordOf v 0) else none
    ∃ t, exec (.syncReplyLanding k) s = .next t ∧
      Goes s t (if popped then (List.range 8).foldl (fun u i => u.setK w (r.dstk + i) (wordOf v i)) u else u) w
        (fun _ n => if n = r.dst then gd else none) w.next

/-- R283, R284, R289, R290: the home engine's queue: QPUSH appends on chip while the ring is empty and the chip has room, else to the ring, and a full
queue raises QFULL at the word; QPOP takes the oldest record; QLEN counts both. A queue of a kind that the word does not take raises FMT at the
word. A queue that is not resident becomes so first, which counts at its descriptor's home; a fault there is the word's, and a line in error there halts
the partition with the engine's record (R310, R317); the request is given up, to be issued again (the model's choice, log 14). -/
def Sys2Proof.Claims.QueueEnginePerforms : Prop :=
  ∀ (s : State) (k : Nat) (r : SyncReq), s.reqs[k]? = some r → r.reply = none →
    (∀ q : RQueue, (r.op = .push ∨ r.op = .pop ∨ r.op = .len) → s.queueOf r.part r.ctx r.addr = some q →
      (∀ d, ∀ p ∈ (s.die d).queues, p.die = d) → s.ringStalled q = false →
      let holds := fun (t : State) (q' : RQueue) => t.queueOf r.part r.ctx r.addr = some { q' with used := s.seq }
      let replies := fun (t : State) (v : BitVec 256) (flag : Nat) => ∃ x ∈ t.reqs, x.id = r.id ∧ x.reply = some v ∧ x.flag = flag
      let runs := fun (p : State → Prop) => ∃ t, exec (.atomicPerform k) s = .next t ∧ p t
      let fails := fun (c : Cause) => r.gid ≠ 0 → (s.part (s.partOf r.die)).complete = false →
        runs fun t => t.mem = s.mem ∧ holds t q ∧ (∀ x ∈ t.reqs, x.id ≠ r.id) ∧ recorded t r c
      (r.op = .push → q.kind ≠ 2 → q.rcount = 0 → q.chip.length < 32 →
        runs fun t => t.mem = s.mem ∧ replies t 0 r.flag ∧ holds t { q with chip := q.chip ++ [r.arg] }) ∧
      (r.op = .push → q.kind ≠ 2 → ¬(q.rcount = 0 ∧ q.chip.length < 32) → q.rcount < q.rcap →
        runs fun t => replies t 0 r.flag ∧ holds t { q with rcount := q.rcount + 1 } ∧
          t.mem = ((q.das (q.ring.toNat + 32 * ((q.rhead + q.rcount) % q.rcap)) 32).zip (bytesOf 32 r.arg.toNat)).foldl (fun m c => m.write c.1 c.2) s.mem) ∧
      (r.op = .push → q.kind ≠ 2 → ¬(q.rcount = 0 ∧ q.chip.length < 32) → q.rcap ≤ q.rcount → fails Cause.qfull) ∧
      (r.op = .push → q.kind = 2 → fails Cause.fmt) ∧ (r.op = .pop → q.kind ≠ 0 → fails Cause.fmt) ∧
      (r.op = .pop → q.kind = 0 → q.chip = [] → runs fun t => t.mem = s.mem ∧ replies t 0 0 ∧ holds t q) ∧
      (r.op = .pop → q.kind = 0 → ∀ v rest, q.chip = v :: rest → q.rcount = 0 →
        runs fun t => t.mem = s.mem ∧ replies t v 1 ∧ holds t { q with chip := rest }) ∧
      (r.op = .pop → q.kind = 0 → ∀ v rest, q.chip = v :: rest → rest.length = 31 → 0 < q.rcount →
        let oldest := BitVec.ofNat 256 (ofBytes ((q.das (q.ring.toNat + 32 * q.rhead) 32).map s.mem.read))
        (∀ a ∈ q.das (q.ring.toNat + 32 * q.rhead) 32, s.badAt a = false) → runs fun t => t.mem = s.mem ∧ replies t v 1 ∧
          holds t { q with chip := rest ++ [oldest], rhead := (q.rhead + 1) % q.rcap, rcount := q.rcount - 1 }) ∧
      (r.op = .len → runs fun t => t.mem = s.mem ∧ replies t (BitVec.ofNat 256 (q.chip.length + q.rcount)) r.flag ∧ holds t q)) ∧
    (r.op = .push ∨ r.op = .pop ∨ r.op = .len → s.queueOf r.part r.ctx r.addr = none → s.missStalled r.die (r.gid = 0) r.addr = false →
      let u := s.countMiss r.die (r.gid = 0) r.addr
      exec (.atomicPerform k) s = .next s ∧
      (∀ t, u.queueMiss r.die (r.gid = 0) r.part r.ctx r.addr = .ok t → exec (.queueMiss k) s = .next t ∧
        ∃ q, t.queueOf r.part r.ctx r.addr = some q ∧ (t.die q.die).qmiss = (s.die q.die).qmiss + 1) ∧
      (∀ c fa, u.queueMiss r.die (r.gid = 0) r.part r.ctx r.addr = .fault c fa → c ≠ Cause.ecc → exec (.queueMiss k) s = .next (u.queueFault r c fa)) ∧
      ∀ fa, u.queueMiss r.die (r.gid = 0) r.part r.ctx r.addr = .fault Cause.ecc fa → s.partOf r.die = r.part → ∃ t, exec (.queueMiss k) s = .next t ∧
        t.mem = s.mem ∧ (∀ x ∈ t.reqs, x.id ≠ r.id) ∧ ∃ f ∈ (t.part r.part).faults, f.die = r.die ∧ f.slot = 248 ∧ f.stop.cause = Cause.ecc ∧
          f.stop.pc = r.pc ∧ f.stop.ctx = r.ctx ∧ f.stop.faddr = fa)

/-- R287, R289, R290: NEMIT pushes its record into the bin of the node that it names: an empty bin's timer starts, and when the bin holds COAL records they
are taken in queue order and start one group of the node on the bin's home die, numbered by the takes there. A full bin raises QFULL at the word, and
a node that the launch does not have FMT. -/
def Sys2Proof.Claims.NodeEmits : Prop :=
  ∀ (s : State) (k : Nat) (r : SyncReq) (G : Group), s.reqs[k]? = some r → r.reply = none → r.op = .emit → s.group r.die r.gid = some G →
    (∀ (L : Launch) (N : Node) (q : RQueue), s.launchOf r.die G = some L → L.nodes[r.addr]? = some N → s.queueOf r.part r.ctx N.qh = some q →
      L.part = r.part → L.ctx = r.ctx → (∀ L' ∈ s.launches, L'.id = L.id → L' = L) → (∀ d, ∀ p ∈ (s.die d).queues, p.die = d) → q.rcount = 0 →
      let adds := fun (t : State) => ∃ x ∈ t.reqs, x.id = r.id ∧ x.reply = some 0
      let bin := fun (t : State) (l : List (BitVec 256)) => t.queueOf r.part r.ctx N.qh = some { q with chip := l, used := s.seq }
      let launched := fun (t : State) (due : Option Nat) => ∃ L' ∈ t.launches, L'.id = L.id ∧ L'.unplaced = L.unplaced ∧
        L'.nodes[r.addr]? = some { N with due := due }
      let home := if s.partOf q.die = L.part then q.die else (s.diesOf L.part).headD q.die
      let before := ((N.takes.find? (·.1 == home)).map (·.2)).getD 0
      (q.chip.length < 32 → q.chip.length + 1 < N.coal → ∃ t, exec (.atomicPerform k) s = .next t ∧ adds t ∧ bin t (q.chip ++ [r.arg]) ∧ t.mem = s.mem ∧
        launched t (if q.chip = [] ∧ N.timer ≠ 0 then some (s.clock + 1600 * N.timer) else N.due)) ∧
      (q.chip.length < 32 → q.chip.length + 1 = N.coal → ∃ t, exec (.atomicPerform k) s = .next t ∧ adds t ∧ bin t [] ∧ t.mem = s.mem ∧
        ∃ L' ∈ t.launches, L'.id = L.id ∧
          L'.unplaced = L.unplaced ++ [{ die := home, number := before, node := some r.addr, records := q.chip ++ [r.arg] }] ∧
          ∃ N', L'.nodes[r.addr]? = some N' ∧ N'.due = none ∧ (home, before + 1) ∈ N'.takes) ∧
      (q.chip.length = 32 → q.rcap = 0 → s.ringStalled q = false → r.gid ≠ 0 → (s.part (s.partOf r.die)).complete = false →
        ∃ t, exec (.atomicPerform k) s = .next t ∧ t.mem = s.mem ∧ bin t q.chip ∧ (∀ x ∈ t.reqs, x.id ≠ r.id) ∧ recorded t r Cause.qfull)) ∧
    ((∀ L, s.launchOf r.die G = some L → L.nodes[r.addr]? = none) → exec (.queueMiss k) s = .next (s.queueFault r Cause.fmt 0))

/-- The queue words, their replies, and the engine's queues. -/
def Obligations.QueueWords : Prop := Claims.QueueWordsAndReplies ∧ Claims.QueueEnginePerforms ∧ Claims.NodeEmits

/-! ## Ordering words, sessions, tiles by name (R107 to R112, R226 to R229, R298 to R303) -/

namespace Sys2Proof.Claims

/-- An object that BIND, ACQ and REL name: a live slot or ring. -/
def liveObj (s : State) (w : Who) (o : Word) : Prop :=
  ∃ a, s.slotAddr w.d w.gid o 16 = .ok a ∧ ((s.bslot w.d w.gid a).isSome = true ∨ (s.ring w.d w.gid a).isSome = true)
/-- An object whose record has a line in error. -/
def lostObj (s : State) (w : Who) (o : Word) : Prop := ∃ a, s.slotAddr w.d w.gid o 16 = .ok a ∧ s.badObject w.d w.gid a = true
/-- The scope covers a core of a die (R52). -/
def coversCore (s : State) (w : Who) (sc : Scope) (d : DieId) (core : Nat) : Prop :=
  match sc with
  | .lane | .core => d = w.d ∧ core = w.core
  | .quad => d = w.d ∧ core / 4 = w.core / 4
  | .die => d = w.d
  | .pkg | .pod => s.partOf d = s.partOf w.d
/-- The scope covers carder `i` of a die (R303). -/
def coversCarder (s : State) (w : Who) (sc : Scope) (d : DieId) (i : Nat) : Prop :=
  match sc with
  | .lane | .core => False
  | .quad => d = w.d ∧ (i = (s.coreCarders w.d w.core).1 ∨ i = (s.coreCarders w.d w.core).2)
  | .die => d = w.d
  | .pkg | .pod => s.partOf d = s.partOf w.d
/-- The trap BARUSE of a word on object `o`. -/
def refusesObject (s : State) (w : Who) (i : Instr) (o : Word) : Prop :=
  exec i s = .next (s.trap (s.taking w) { cause := Cause.baruse, faddr := BitVec.ofNat 64 o.toNat, xs := s.selected w })
/-- The trap of a word at an address. -/
def trapsAt (s : State) (w : Who) (i : Instr) (c : Cause) (fa : DWord) : Prop :=
  exec i s = .next (s.trap (s.taking w) { cause := c, faddr := fa, xs := s.selected w })
/-- The words wait in the state `held`. -/
def isHeld (s : State) (w : Who) (i : Instr) : Prop :=
  ∃ t, exec i s = .next t ∧ t.still w = s.still w ∧ standsWaiting s t w .held

end Sys2Proof.Claims

/-- R299, R310: BIND puts a region on a live object's list, takes an object's or all bindings off, and refuses a ninth binding, a bad address and a
dead object; an object whose record is in error raises ECC. -/
def Sys2Proof.Claims.BindKeepsBindings : Prop :=
  ∀ (s : State) (w : Who) (G : Group) (k b : KReg), Ready s (.bind k b) w G → Solo G w →
    let o := s.k w k.toNat
    let A := s.kpair w b.toNat
    let L := (s.k w (b.toNat + 2)).toNat
    let binds := fun (l : List Binding) => Completes (.bind k b) s (s.modGroup w.d w.gid fun G => { G with binds := l }) w noReg
    (s.k w (b.toNat + 3) = 0 → CAddr.of A ≠ none → o = 0 ∨ (liveObj s w o ∧ ¬lostObj s w o) →
      (L = 0 → o = 0 → binds []) ∧ (L = 0 → o ≠ 0 → binds (G.binds.filter fun x => x.obj != o)) ∧
      (L ≠ 0 → o ≠ 0 → G.binds.length < 8 → binds (⟨o, A, L⟩ :: G.binds)) ∧
      (L ≠ 0 → o = 0 ∨ 8 ≤ G.binds.length → refusesObject s w (.bind k b) o)) ∧
    (s.k w (b.toNat + 3) ≠ 0 ∨ CAddr.of A = none ∨ (o ≠ 0 ∧ ¬liveObj s w o ∧ ¬lostObj s w o) → refusesObject s w (.bind k b) o) ∧
    (s.k w (b.toNat + 3) = 0 → CAddr.of A ≠ none → o ≠ 0 → lostObj s w o → trapsAt s w (.bind k b) Cause.ecc (BitVec.ofNat 64 o.toNat))

/-- R120, R295, R298, R300, R310: ACQ reads its object, or, with object 0, is held until its thread's earlier reads have been made; REL is held until the
writes it covers are performed: all of them for object 0, else those to the object's bindings and every tile write. Which writes and reads those are
`WhatReleasesAwait` says; what becomes of a write that the release passes, `AcquiredWritesHold` (log 41: the regions and the free bit are the model's
choice). Both refuse a dead object, and raise ECC where its record is in error. -/
def Sys2Proof.Claims.AcquireAndRelease : Prop :=
  ∀ (s : State) (w : Who) (G : Group) (sc : Scope) (k : KReg), Solo G w →
    let o := s.k w k.toNat
    let P := s.selected w
    let lost := fun (i : Instr) => trapsAt s w i Cause.ecc (BitVec.ofNat 64 o.toNat)
    (Ready s (.acq sc k) w G →
      (o ≠ 0 → liveObj s w o → ¬lostObj s w o → Completes (.acq sc k) s (s.noteAcquire w.d w.gid o) w noReg) ∧
      (o = 0 → s.readsDone w.d w.gid P = true → Completes (.acq sc k) s s w noReg) ∧ (o = 0 → s.readsDone w.d w.gid P = false → isHeld s w (.acq sc k)) ∧
      (o ≠ 0 → lostObj s w o → lost (.acq sc k)) ∧ (o ≠ 0 → ¬liveObj s w o → ¬lostObj s w o → refusesObject s w (.acq sc k) o)) ∧
    (Ready s (.rel sc k) w G →
      (o = 0 → s.fullReady w.d w.gid P = true → Completes (.rel sc k) s s w noReg) ∧
      (o = 0 → s.fullReady w.d w.gid P = false → isHeld s w (.rel sc k)) ∧
      (o ≠ 0 → liveObj s w o → ¬lostObj s w o → s.boundReady w.d w.gid P o = true →
        Completes (.rel sc k) s (s.noteRelease w.d w.gid o (s.unwritten w.d w.gid P o)) w noReg) ∧
      (o ≠ 0 → liveObj s w o → ¬lostObj s w o → s.boundReady w.d w.gid P o = false → isHeld s w (.rel sc k)) ∧
      (o ≠ 0 → lostObj s w o → lost (.rel sc k)) ∧ (o ≠ 0 → ¬liveObj s w o → ¬lostObj s w o → refusesObject s w (.rel sc k) o))

/-- R120, R247, R298, R300: what a release and an acquire fence of a thread's indices wait for. A release on a slot or ring: the thread's tile words on local
memory, its GLDs, and its commands, SST and atomics that write a region bound to the object, but for a command that credits the object itself; bound are
the regions used with it and the bindings, of the thread's group, or, for an object of the scratchpad, of every group of the context (the model's choice,
log 41; so is the free bit by which a carder program may be about to credit the object). A release of all: every atomic and SST is performed, every
command has landed, every OFFER is read out, every tile word that touches memory or sends a result, and every GLD, is done. An acquire fence: the thread's reads on
every path have been made. -/
def Sys2Proof.Claims.WhatReleasesAwait : Prop :=
  ∀ (s : State) (d : DieId) (gid : Nat) (xs : List Nat) (obj : Word),
    let mine := fun (ys : List Nat) => ∃ x ∈ ys, x ∈ xs
    let tiles := ∀ q ∈ (s.die d).active.tileq, q.gid = gid → mine q.xs → q.kind ≠ .tld ∧ q.kind ≠ .tst ∧ q.kind ≠ .tdrain
    let glds := ∀ G, s.group d gid = some G → ∀ q ∈ G.glds, ¬mine q.xs
    let command := fun (q : Cmd) => q ∈ s.cmds d ∧ q.gid = gid ∧ mine q.xs
    let request := fun (r : SyncReq) => r ∈ s.reqs ∧ r.die = d ∧ r.gid = gid ∧ mine r.xs ∧ r.reply = none
    let offers := ∀ o ∈ (s.die d).active.offers, o.gid = gid → ¬mine o.xs
    let writes := fun (r : SyncReq) => r.op = .store ∨ r.op = .xchg ∨ r.op = .cas ∨ r.op = .put ∨ ∃ o, r.op = .red o
    let bound := fun (f : Region) => ∃ G, (if obj.getLsbD 31 = true then G ∈ (s.die d).active.groups else s.group d gid = some G) ∧
      ((∃ u ∈ G.used, u.obj = obj ∧ f = ⟨false, u.space, u.base, u.base + u.extent⟩) ∨
       ∃ b ∈ ((s.snapGroup d G.gid).getD G).binds, b.obj = obj ∧
        ((∃ va, CAddr.of b.addr = some (.main va) ∧ f = ⟨false, none, va.toNat, va.toNat + b.len⟩) ∨
         ∃ sp a, CAddr.of b.addr = some (.loc sp a) ∧ f = ⟨false, some sp, a, a + b.len⟩))
    let into := fun (space : Option Nat) (lo hi : Int) => ∃ f, bound f ∧ f.space = space ∧ lo < f.hi ∧ f.lo < hi
    (s.boundReady d gid xs obj = true ↔ tiles ∧ glds ∧
      (∀ q, command q → q.object = obj ∨ (q.kind = .crun ∧ s.hit q.id = true) ∨ ∀ f ∈ q.footprint, f.wr = true → ¬into f.space f.lo f.hi) ∧
      ∀ r, request r → writes r → ¬into none r.va.toNat (r.va.toNat + r.width)) ∧
    (s.fullReady d gid xs = true ↔ tiles ∧ (∀ q ∈ (s.die d).active.tileq, q.gid = gid → mine q.xs → q.kind ≠ .tdred) ∧ glds ∧
      (∀ q, ¬command q) ∧ (∀ r, ¬request r) ∧ offers) ∧
    (s.readsDone d gid xs = true ↔ tiles ∧ glds ∧ (∀ q, ¬command q) ∧ (∀ r, ¬request r) ∧ offers)

/-- R120, R295: a release notes the writes that it passes; a group that acquires the object has seen them; its access to bytes that such a write has
still to reach, through a record of the object, through a region bound to it, or by a tile word, is held, and no other. (That accesses are held is how
the model keeps the order, log 41.) -/
def Sys2Proof.Claims.AcquiredWritesHold : Prop :=
  ∀ (s : State) (d : DieId) (gid : Nat) (obj : Word),
    let late := fun (t : State) => (t.die d).active.late
    (∀ ids, (∀ i ∈ ids, { obj := obj, gid := gid, id := i } ∈ late (s.noteRelease d gid obj ids)) ∧
      (∀ e ∈ late (s.noteRelease d gid obj ids), e ∈ late s ∨ e.obj = obj ∧ e.gid = gid ∧ e.id ∈ ids ∧ e.seen = []) ∧
      ∀ e ∈ late s, s.stillLate d e = true → e ∈ late (s.noteRelease d gid obj ids)) ∧
    (∀ e ∈ late s, e.obj = obj → obj.getLsbD 31 = true ∨ e.gid = gid → ∃ e' ∈ late (s.noteAcquire d gid obj), e'.obj = obj ∧ e'.gid = e.gid ∧ e'.id = e.id ∧
      gid ∈ e'.seen ∧ ∀ g ∈ e.seen, g ∈ e'.seen) ∧
    (∀ e ∈ late s, ¬(e.obj = obj ∧ (obj.getLsbD 31 = true ∨ e.gid = gid)) → e ∈ late (s.noteAcquire d gid obj)) ∧
    ∀ (tile : Bool) (before : Nat) (f : Region),
      let toWrite := fun (id : Nat) (t : Region) =>
        (∃ q ∈ s.cmds d, q.id = id ∧ t ∈ q.footprint ∧ t.wr = true ∧ ¬(t.space ≠ none ∧ q.ring = true ∧ q.slot = none) ∧ (t.space = some 0 → q.gid = gid)) ∨
        ∃ r ∈ s.reqs, r.id = id ∧ r.reply = none ∧ t = ⟨true, none, r.va.toNat, r.va.toNat + r.width⟩
      s.lateClash d gid obj tile before f = true ↔ ∃ e ∈ late s, gid ∈ e.seen ∧ e.id < before ∧ ∃ t, toWrite e.id t ∧ t.overlaps f = true ∧
        (tile = true ∨ (obj ≠ 0 ∧ e.obj = obj) ∨ ∃ b ∈ s.boundRegions d gid e.obj, t.overlaps b = true)

/-- BIND, ACQ and REL; the ranges that a release waits for, and what a late write leaves, are the model's (log 41). -/
def Obligations.BindAcqRel : Prop := Claims.BindKeepsBindings ∧ Claims.AcquireAndRelease ∧ Claims.WhatReleasesAwait ∧ Claims.AcquiredWritesHold

/-- R51, R52, R301 to R303: fences. TFENCE drops the cached translations of the cores in its scope, the issuing context's or, for the supervisor wave,
all; it waits for requests and GLDs whose address such a translation gave and, at .pkg and .pod, for the migrations of its partition; IFENCE drops the issuing core's instruction buffers and every kept line that memory no longer agrees
with; DINV waits for the thread's earlier writes and GLDs and drops its context's descriptor copies in the cores and carders of its scope. -/
def Obligations.FencesDropCopies : Prop :=
  ∀ (s : State) (w : Who) (G : Group) (sc : Scope), Solo G w → w.core < 96 →
    let c := s.ctxOf w.d w.gid
    (Ready s (.tfence sc) w G →
      (∀ r ∈ s.reqs, r.core < 100) →
      let waits :=
        ((sc = .pkg ∨ sc = .pod) ∧ ∃ m ∈ s.moving, s.partOf (s.homeOf (m.frame * 2 ^ 21)) = s.partOf w.d ∨ s.partOf m.dst = s.partOf w.d) ∨
        (∃ r ∈ s.reqs, r.reply = none ∧ r.op.queue = false ∧ coversCore s w sc r.die r.core ∧ (w.gid = 0 ∨ r.ctx = c)) ∨
        (∃ d, ∃ H ∈ (s.die d).sv :: (s.die d).active.groups, (w.gid = 0 ∨ s.ctxOf d H.gid = c) ∧ ∃ q ∈ H.glds, q.step < 3 ∧ coversCarder s w sc d q.inst) ∨
        ∃ d, ∃ q ∈ (s.die d).queues, (sc = .die ∧ q.die = w.d ∨ (sc = .pkg ∨ sc = .pod) ∧ s.partOf q.die = s.partOf w.d) ∧ (w.gid = 0 ∨ q.ctx = c) ∧
          q.part = s.partOf w.d ∧ s.ringStalled q = true
      (waits → isHeld s w (.tfence sc)) ∧
      (¬waits → ∃ u, Completes (.tfence sc) s u w noReg ∧
        (∀ d, ∀ e ∈ (u.die d).tlb, e ∈ (s.die d).tlb) ∧
        (∀ d, ∀ e ∈ (s.die d).tlb, e.agent < 100 → (e ∈ (u.die d).tlb ↔ ¬(coversCore s w sc d e.agent ∧ (w.gid = 0 ∨ e.ctx = c)))) ∧
        ((∀ d, (s.die d).queues = []) → u.mem = s.mem))) ∧
    (Ready s .ifence w G → ∃ u, Completes .ifence s u w noReg ∧ (∀ d, d ≠ w.d → u.die d = s.die d) ∧
      ∀ e, e ∈ (u.die w.d).icache ↔ e ∈ (s.die w.d).icache ∧ e.agent ≠ some w.core ∧ e.bytes = s.mem.readN (e.line * 128) 128) ∧
    (Ready s (.dinv sc) w G →
      let still := s.cmdsOf w.d w.gid (s.selected w) = [] ∧ s.gldsOf w.d w.gid (s.selected w) = [] ∧ ∀ r ∈ s.reqsOf w.d w.gid (s.selected w), r.reply.isSome = true
      (¬still → isHeld s w (.dinv sc)) ∧
      (still → ∃ u, Completes (.dinv sc) s u w noReg ∧ u.mem = s.mem ∧ (∀ d, ∀ e ∈ (u.die d).desc, e ∈ (s.die d).desc) ∧
        ∀ d, ∀ e ∈ (s.die d).desc, (e.agent < 100 → (e ∈ (u.die d).desc ↔ ¬(coversCore s w sc d e.agent ∧ e.ctx = c))) ∧
          ∀ i < 48, e.agent = carderAgent i → (e ∈ (u.die d).desc ↔ ¬(coversCarder s w sc d i ∧ e.ctx = c))))

/-- R226, R227: CRED.canon and CRED.exact read the session descriptor, take a free handle of the core, the lowest (the model's choice, log 50), send the
join, and name the handle in their destination; they are held while the core has sixteen handles open, the crown no room, or an earlier tile word of the
thread writes the descriptor. At .pod this states the rank that is the home's; without a process-group table .pod raises PART. -/
def Sys2Proof.Claims.CredJoinsSession : Prop :=
  ∀ (s : State) (i : Instr) (w : Who) (G : Group) (sc : Scope) (k a : KReg) (A : Slot) (h : Nat), Ready s i w G → Solo G w →
    i = .credCanon sc k a ∨ i = .credExact sc k a → s.slotAddr w.d w.gid (s.k w a.toNat) 64 = .ok A →
    (s.tileClash (s.taking w) A.space A.addr 64 false = true → isHeld s w i) ∧
    (s.tileClash (s.taking w) A.space A.addr 64 false = false → A.addr % 64 = 0 → s.touchesLive w.d w.gid A.space A.addr 64 = false →
    s.badLocalAt w.d w.gid 0 A.space A.addr 64 = false →
    let D := SessDesc.of (s.readLocal w.d w.gid 0 A.space A.addr 64)
    D.ok = true → s.destFault (s.taking w) D = none →
    let mine := ((s.die w.d).handlesOf w.gid).filter (·.core == w.core)
    let crown := vget (s.die w.d).crowns (D.sid.toNat % 4) 0
    let room := s.crownUsed w.d crown + (4 * D.rows * D.cols + 511) / 512 ≤ 4096
    (sc = .pod → (∀ L, s.launchOf w.d G = some L → L.ranks = []) → trapsAt s w i Cause.part 0) ∧
    ((sc = .pod → ∃ L, s.launchOf w.d G = some L ∧ L.ranks ≠ [] ∧ L.rank = 0) →
    (h < 16 → (∀ x ∈ mine, x.h ≠ h) → (∀ j < h, ∃ x ∈ mine, x.h = j) → room →
      ∃ (u t : State) (hd : Handle) (m : Session) (j : SJoin), exec i s = .next t ∧
        Goes s t (u.setK w k.toNat (BitVec.ofNat 32 (16 * hd.gen + h))) w noReg w.next ∧ u.mem = s.mem ∧
        (u.die w.d).handlesOf w.gid = (s.die w.d).handlesOf w.gid ++ [hd] ∧ u.smsgs = s.smsgs ++ [.join m] ∧
        hd.gen = ((((s.die w.d).gensOf w.gid).find? fun g => g.1 == w.core && g.2.1 == h).map (·.2.2)).getD 0 ∧
        hd.core = w.core ∧ hd.h = h ∧ hd.gid = w.gid ∧ hd.ctx = s.ctxOf w.d w.gid ∧ hd.sid = D.sid ∧ hd.scope = sc ∧ hd.rows = D.rows ∧ hd.cols = D.cols ∧
        hd.sent = 0 ∧ hd.staged = [] ∧
        m.sid = D.sid ∧ m.scope = sc ∧ m.count = D.count ∧ m.rows = D.rows ∧ m.cols = D.cols ∧ m.ctx = s.ctxOf w.d w.gid ∧
        (m.exactMode = true ↔ i = .credExact sc k a) ∧ m.joins = [j] ∧ j.pno = D.pno ∧ j.h = hd.uid ∧ j.dest = D.dest ∧ j.dstride = D.dstride ∧
        j.notify = D.notify) ∧
    ((∀ j < 16, ∃ x ∈ mine, x.h = j) ∨ ¬room → isHeld s w i)))

/-- R226, R227, R117: what CRED refuses: a descriptor that is out of bounds, not 64-byte aligned, in a live line or in error, one with a reserved or
inconsistent field (FMT), and a DEST whose rows do not lie in their space or are not aligned. -/
def Sys2Proof.Claims.CredRefuses : Prop :=
  ∀ (s : State) (i : Instr) (w : Who) (G : Group) (sc : Scope) (k a : KReg), Ready s i w G → Solo G w → i = .credCanon sc k a ∨ i = .credExact sc k a →
    let v := BitVec.ofNat 64 (s.k w a.toNat).toNat
    (∀ c fa, s.slotAddr w.d w.gid (s.k w a.toNat) 64 = .fault c fa → trapsAt s w i c v) ∧
    ∀ A, s.slotAddr w.d w.gid (s.k w a.toNat) 64 = .ok A → s.tileClash (s.taking w) A.space A.addr 64 false = false →
      (A.addr % 64 ≠ 0 → trapsAt s w i Cause.align v) ∧
      (A.addr % 64 = 0 → s.touchesLive w.d w.gid A.space A.addr 64 = true → trapsAt s w i Cause.baruse v) ∧
      (A.addr % 64 = 0 → s.touchesLive w.d w.gid A.space A.addr 64 = false →
        (s.badLocalAt w.d w.gid 0 A.space A.addr 64 = true → trapsAt s w i Cause.ecc v) ∧
        (s.badLocalAt w.d w.gid 0 A.space A.addr 64 = false →
          let D := SessDesc.of (s.readLocal w.d w.gid 0 A.space A.addr 64)
          (D.ok = false → trapsAt s w i Cause.fmt v) ∧ ∀ c fa, D.ok = true → s.destFault (s.taking w) D = some (c, fa) → trapsAt s w i c fa))

/-- R229, R230: CCLOSE closes the open handle of its context that its register names, and sends the close with the rows sent; the number of its next
generation names it no more; it is held while a TDRED on the handle is in the tile engine. A value that names no open handle raises BARUSE. -/
def Sys2Proof.Claims.CcloseEndsHandle : Prop :=
  ∀ (s : State) (w : Who) (G : Group) (k : KReg), Ready s (.cclose k) w G → Solo G w →
    let v := s.k w k.toNat
    (∀ h, (s.die w.d).handleOf w.gid w.core v = some h → h.remote = false → h.ended = false →
      let queued := ∃ q ∈ (s.die w.d).active.tileq, q.core = w.core ∧ q.kind = .tdred ∧ q.handle.toNat % 16 = h.h
      (queued → isHeld s w (.cclose k)) ∧
      (¬queued → ∃ u j, Completes (.cclose k) s u w noReg ∧ u.mem = s.mem ∧
        (∀ x, x ∈ (u.die w.d).handlesOf w.gid ↔ x ∈ (s.die w.d).handlesOf w.gid ∧ ¬(x.core = w.core ∧ x.h = h.h)) ∧
        (w.core, h.h, h.gen + 1) ∈ (u.die w.d).gensOf w.gid ∧
        ((∀ x ∈ (s.die w.d).handlesOf w.gid, x.core = w.core → x.gen * 16 + x.h = v.toNat → x.h = h.h) → (u.die w.d).handleOf w.gid w.core v = none) ∧
        u.smsgs = s.smsgs ++ [.close h.sid h.scope (s.scopeHome w.d h.scope) j] ∧ j.closed = true ∧ j.staged = h.staged ∧ j.pno = h.pno ∧ j.h = h.uid ∧
        ∀ r < 64, j.mask.getLsbD r = true ↔ ∃ p ∈ h.staged, p.1 / 2 = r)) ∧
    ((s.die w.d).handleOf w.gid w.core v = none → refusesObject s w (.cclose k) v)

/-- CRED and CCLOSE; that CRED takes the lowest free handle is the model's choice (log 50), R227 says a free one. -/
def Obligations.SessionWords : Prop := Claims.CredJoinsSession ∧ Claims.CredRefuses ∧ Claims.CcloseEndsHandle

/-! ## Tiles by name (R94 to R112) -/

namespace Sys2Proof.Claims

/-- Where the name table holds the entry of a name. -/
def entryVa (s : State) (w : Who) (name : DWord) : DWord := (s.die w.d).active.ntbase + BitVec.ofNat 64 (16 * field name 63 44)
/-- The word captures the entry `raw` of the name in `k` (R96), which leaves `u`. -/
def captures (s : State) (w : Who) (name : DWord) (raw : BitVec 128) (u : State) : Prop :=
  s.vaStalled w.d w.core (w.gid = 0) (entryVa s w name) 16 = false ∧
  ∃ bs, s.capture (s.taking w) (entryVa s w name) 16 = .ok (bs, u) ∧ raw = BitVec.ofNat 128 (ofBytes bs)
/-- The buffer suits the tile (R107). -/
def suits (u : State) (w : Who) (b : Buf) (E : NameEntry) : Prop :=
  let B := u.buf w b
  B.bad = false ∧ B.space ≤ 1 ∧ B.fmt = E.fmt ∧ E.bytes ≤ B.extent ∧ u.inSpace w.d w.gid B.space B.base E.bytes = true
/-- The trap of a word on a name: it names its lowest participating index alone, in a wave too (R106). -/
def refuses (s : State) (w : Who) (i : Instr) (c : Cause) (fa : DWord) : Prop :=
  exec i s = .next (s.trap (s.taking w) { cause := c, faddr := fa, xs := if w.hood = none then (s.selected w).take 1 else s.selected w })

end Sys2Proof.Claims

/-- R94, R96: a word on a name whose entry is invalid raises NAMEMISS, and one whose entry is malformed raises FMT, precisely. -/
def Sys2Proof.Claims.NamesAreChecked : Prop :=
  ∀ (s : State) (i : Instr) (w : Who) (G : Group) (b : Buf) (k : KReg) (raw : BitVec 128) (u : State), Ready s i w G → Solo G w →
    i = .want b k ∨ i = .offer b k ∨ i = .nevict k → captures s w (s.kpair w k.toNat) raw u →
    ((NameEntry.of raw).valid = false → refuses s w i Cause.namemiss (s.kpair w k.toNat)) ∧
    ((NameEntry.of raw).valid = true → (NameEntry.of raw).ok = false → refuses s w i Cause.fmt (entryVa s w (s.kpair w k.toNat))) ∧
    ((NameEntry.of raw).valid = true → (NameEntry.of raw).ok = true → i ≠ .nevict k → (u.buf w b).bad = false → (u.buf w b).space ≤ 1 →
      (u.buf w b).fmt = (NameEntry.of raw).fmt → (u.buf w b).extent < (NameEntry.of raw).bytes → refuses s w i Cause.size 0)

/-- R92, R97, R107: WANT enters its interest with the lifetime of its HINT.LIFE or of the entry, or lets the one of the same context, slot and buffer,
in group shared memory the group's own, live longer, and sends it; it is held while all 64 entries of the core are in use. -/
def Sys2Proof.Claims.WantEntersInterest : Prop :=
  ∀ (s : State) (w : Who) (G : Group) (b : Buf) (k : KReg) (raw : BitVec 128) (u : State) (h : Router × Option Nat), Ready s (.want b k) w G → Solo G w →
    let name := s.kpair w k.toNat
    let E := NameEntry.of raw
    captures s w name raw u → E.valid = true → E.ok = true → suits u w b E → u.homeOfName w.d (u.launchOf w.d G) name E = .ok h →
    let B := u.buf w b
    let is := (s.die w.d).active.interests
    let life := s.clock + 1600 * (match lifeOf w.hints with | some v => v.toNat | none => E.life)
    let same := fun (i : Interest) => i.core = w.core ∧ i.name = name ∧ (BufRec.of i.buf).bound = B.bound ∧ (BufRec.of i.buf).base = B.base ∧
      (BufRec.of i.buf).space = B.space ∧ s.ctxOf w.d i.gid = s.ctxOf w.d w.gid ∧
      (i.gid = w.gid ∨ B.space = 1 ∧ (B.bound = 0 ∨ B.bound.getLsbD 31 = true))
    let sends := fun (v : State) => ∃ p, v.packets = s.packets ++ [p] ∧ p.kind = .interest ∧ p.name = name ∧ p.at_ = .router (s.leafOf w.d w.core) ∧
      p.src = .core w.d w.core ∧ p.ctx = s.ctxOf w.d w.gid
    ((∃ i ∈ is, same i) → ∃ v, Completes (.want b k) s v w noReg ∧ sends v ∧ v.mem = s.mem ∧
      (v.die w.d).active.interests = is.map fun i => if same i then { i with life := max i.life life } else i) ∧
    ((∀ i ∈ is, ¬same i) → (is.filter fun i => i.core = w.core).length < 64 → ∃ v i, Completes (.want b k) s v w noReg ∧ sends v ∧ v.mem = s.mem ∧
      (v.die w.d).active.interests = is ++ [i] ∧ i.core = w.core ∧ i.name = name ∧ i.entry = raw ∧ i.life = life ∧ i.home = h.1 ∧ i.rank = h.2 ∧
      i.gid = w.gid ∧ i.xs = s.selected w ∧ i.state = .pending) ∧
    ((∀ i ∈ is, ¬same i) → 64 ≤ (is.filter fun i => i.core = w.core).length → ∃ t, exec (.want b k) s = .next t ∧ standsWaiting s t w .held ∧
      (t.die w.d).active.interests = is)

/-- R108, R112: OFFER queues the read-out of its tile and sends its header from its core's leaf toward the home (R90); it is held while the
thread's tile words may still write the tile, or a write that its group has acquired has still to land there (R120). -/
def Sys2Proof.Claims.OfferQueuesReadOut : Prop :=
  ∀ (s : State) (w : Who) (G : Group) (b : Buf) (k : KReg) (raw : BitVec 128) (u : State) (h : Router), Ready s (.offer b k) w G → Solo G w →
    let name := s.kpair w k.toNat
    let E := NameEntry.of raw
    captures s w name raw u → E.valid = true → E.ok = true → suits u w b E → u.homeOfName w.d (u.launchOf w.d G) name E = .ok (h, none) →
    let B := u.buf w b
    let awaits := u.tileWrites w.d w.gid (s.selected w) ≠ [] ∨
      u.lateClash w.d w.gid B.bound false u.nextId ⟨false, some B.space, B.base, B.base + B.extent⟩ = true
    (¬awaits → ∃ v o p, Completes (.offer b k) s v w noReg ∧ v.mem = s.mem ∧
      (v.die w.d).active.offers = (s.die w.d).active.offers ++ [o] ∧ o.name = name ∧ o.entry = raw ∧ o.next = 0 ∧ o.gid = w.gid ∧
      o.xs = s.selected w ∧ o.home = h ∧ v.packets = s.packets ++ [p] ∧ p.kind = .offer o.id ∧ p.at_ = .router (s.leafOf w.d w.core) ∧
      p.home = h ∧ p.name = name ∧ p.src = .core w.d w.core) ∧
    (awaits → ∃ t, exec (.offer b k) s = .next t ∧ standsWaiting s t w .held ∧
      (t.die w.d).active.offers = (s.die w.d).active.offers)

/-- WANT and OFFER, and the checks of names. -/
def Obligations.WantAndOffer : Prop := Claims.NamesAreChecked ∧ Claims.WantEntersInterest ∧ Claims.OfferQueuesReadOut

/-- R109 to R111: UNWANT takes the core's pending entries of a name out of its table and sends a withdrawal, unless there are none; those whose tile is past
the leaf will land and raise NEVER no more; NEVICT ends a stored tile at a home of this package; NTWR sends the write of an entry, or raises FMT for an index beyond the table. -/
def Obligations.UnwantNevictNtwr : Prop :=
  ∀ (s : State) (w : Who) (G : Group) (k b : KReg), Solo G w →
    let name := s.kpair w k.toNat
    let c := s.ctxOf w.d w.gid
    let mine := fun (i : Interest) => i.core = w.core ∧ i.name = name ∧ s.ctxOf w.d i.gid = c ∧ i.state = .pending
    (Ready s (.unwant k) w G →
      ((∀ i ∈ (s.die w.d).active.interests, ¬mine i) → Completes (.unwant k) s s w noReg) ∧
      ((∃ i ∈ (s.die w.d).active.interests, mine i) → ∃ v p, Completes (.unwant k) s v w noReg ∧ v.mem = s.mem ∧
        (v.die w.d).active.interests = (s.die w.d).active.interests.filterMap (fun i => if mine i then
          (if s.pastLeaf w.d w.core c name = some (NameEntry.of i.entry).bytes then some { i with state := .landing } else none) else some i) ∧
        v.packets = s.packets ++ [p] ∧ p.kind = .withdrawal ∧ p.name = name ∧ p.at_ = .router (s.leafOf w.d w.core) ∧ p.src = .core w.d w.core)) ∧
    (∀ (raw : BitVec 128) (u : State) (r : Router), Ready s (.nevict k) w G → captures s w name raw u → (NameEntry.of raw).valid = true →
      (NameEntry.of raw).ok = true → u.homeOfName w.d (u.launchOf w.d G) name (NameEntry.of raw) = .ok (r, none) →
      Completes (.nevict k) s (u.evictAt r c name) w noReg) ∧
    (∀ da, Ready s (.ntwr k b) w G →
      let va := (s.die w.d).active.ntbase + BitVec.ofNat 64 (16 * (s.k w k.toNat).toNat)
      (1048575 < (s.k w k.toNat).toNat → refuses s w (.ntwr k b) Cause.fmt 0) ∧
      ((s.k w k.toNat).toNat ≤ 1048575 → s.walkStalled w.d w.core (w.gid = 0) va = false → s.translate w.d w.core (w.gid = 0) va .write = .ok da → poolOf da ≠ 1 → ∃ v q, Completes (.ntwr k b) s v w noReg ∧
        v.mem = s.mem ∧ v.reqs = s.reqs ++ [q] ∧ q.op = .put ∧ q.addr = da ∧ q.width = 16 ∧ q.home = s.homeOf da ∧ q.reply = none ∧
        q.arg = (s.k w (b.toNat + 3) ++ s.k w (b.toNat + 2) ++ s.k w (b.toNat + 1) ++ s.k w b.toNat).setWidth 256))

/-! ## The supervisor: faults, system registers, engine images, TRAPRET, HALTP, ICINV (R310 to R334, R351) -/

namespace Sys2Proof.Claims

/-- The bit of sys.tpend that a cause sets (R320). -/
def pendIndex (c : Cause) : Nat :=
  if c = Cause.ecc then 1 else if c = Cause.dbghalt then 2 else if c = Cause.step then 3 else if c = Cause.tslice then 4 else 0
/-- The source of a supervisor word that has a hood is UNIFORM (R325). -/
def sourceUniform (s : State) (w : Who) (a : Reg) (n : Nat) : Prop := w.hood ≠ none → ∀ j < n, (s.form w (a.toNat + j)).stride = 0
/-- The source of a supervisor word: of the lowest participant (R325). -/
def source (s : State) (w : Who) (a : Reg) : DWord := (s.g w ((s.selected w).headD 0) a.toNat).setWidth 64
def source64 (s : State) (w : Who) (a : Reg) : DWord := let x := (s.selected w).headD 0; s.g w x (a.toNat + 1) ++ s.g w x a.toNat
/-- The partition of a die is halted, and the halt is complete. -/
def halted (s : State) (d : DieId) : Prop := (s.part (s.partOf d)).halt = true ∧ (s.part (s.partOf d)).complete = true

end Sys2Proof.Claims

/-- R310, R311, R313, R316, R329: taking a precise fault. A tenant thread's halts its partition: the line rises now unless it is up, its bit of sys.tpend
is set, and the fault is kept with its cause, PC and address; the thread stays at its word and issues no more, and nothing else of its group, no other
group, no other partition and no main memory changes. The supervisor wave's halts
nothing: sys.svepc keeps its PC, its frame is written, and it goes on 64 bytes past its handler. -/
def Obligations.FaultsAreTaken : Prop :=
  ∀ (s : State) (w : Who) (t : Trap),
    let f := s.faultRec w t
    let u := s.trap w t
    let p := s.partOf w.d
    f.die = w.d ∧ f.slot = w.core ∧ f.stop.cause = t.cause ∧ f.stop.pc = t.pc.getD w.pc ∧ f.stop.faddr = t.faddr ∧ u.mem = s.mem ∧
    (w.gid ≠ 0 → (u.part p).halt = true ∧ (u.part p).tpend.getLsbD (pendIndex t.cause) = true ∧
      (∀ i, i ≠ pendIndex t.cause → (u.part p).tpend.getLsbD i = (s.part p).tpend.getLsbD i) ∧
      ((s.part p).halt = false → (u.part p).rose = s.clock ∧ (u.part p).complete = false ∧ (u.part p).pending = some f ∧ (u.part p).faults = [f]) ∧
      ((s.part p).halt = true → (u.part p).rose = (s.part p).rose ∧ (u.part p).complete = (s.part p).complete ∧
        ((s.part p).complete = false → (u.part p).faults = (s.part p).faults ++ [f])) ∧
      (∀ q, q ≠ p → u.part q = s.part q) ∧
      u.group w.d w.gid = (s.group w.d w.gid).map (fun G => G.modCtl w.hood w.all fun _ c => { c with wait := .fault }) ∧
      ∀ d gid, gid ≠ 0 → ¬(d = w.d ∧ gid = w.gid) → u.group d gid = s.group d gid) ∧
    (w.gid = 0 → let D := s.die w.d
      u.parts = s.parts ∧ (u.die w.d).svepc = D.sv.svPc.lo ∧ (u.die w.d).svOwn = true ∧
      (∀ l ∈ (u.die w.d).sv.lanes, l.ctl.pc = pair (D.trapvec + 64) D.sv.svPc.hi ∧ l.ctl.chain = []) ∧
      (∀ d, d ≠ w.d → u.die d = s.die d) ∧
      (D.sv.shared.wf = true → (u.die w.d).sv.shared.readN svTrapFrameAt 64 = ({ f.stop with cls := 5 } : StopRec).bytes ∧
        (u.die w.d).sv.shared.read (svTrapFrameAt + 64) = t.cause))

/-- R325, R326: SYSRD and SYSRD.x64 read a system register into the participants; SYSWR and SYSWR.x64 write one from the lowest participant: a reserved
bit traps ILL, and a register that cannot be reached raises BARUSE. -/
def Sys2Proof.Claims.SystemRegisterWords : Prop :=
  ∀ (s : State) (w : Who) (G : Group) (r : Reg) (n : BitVec 12), Solo G w →
    let P := s.selected w
    let writes := fun (i : Instr) (v : DWord) =>
      (v &&& sysReserved n.toNat ≠ 0 → trapsAt s w i Cause.ill 0) ∧
      (v &&& sysReserved n.toNat = 0 → (∀ t, s.sysWrite w.d n.toNat v = some t → Completes i s t w noReg) ∧
        (s.sysWrite w.d n.toNat v = none → trapsAt s w i Cause.baruse 0))
    (Ready s (.sysrd r n) w G → (s.sysRead w.d n.toNat = none → trapsAt s w (.sysrd r n) Cause.baruse 0) ∧
      ∀ v, s.sysRead w.d n.toNat = some v → Completes (.sysrd r n) s s w (oneReg P r.toNat fun _ => v.setWidth 32)) ∧
    (Ready s (.sysrdX64 r n) w G → (s.sysRead w.d n.toNat = none → trapsAt s w (.sysrdX64 r n) Cause.baruse 0) ∧
      ∀ v, s.sysRead w.d n.toNat = some v →
        Completes (.sysrdX64 r n) s s w (someRegs P r.toNat 2 fun _ j => if j = 0 then v.setWidth 32 else v.extractLsb' 32 32)) ∧
    (Ready s (.syswr n r) w G → sourceUniform s w r 1 → writes (.syswr n r) (source s w r)) ∧
    (Ready s (.syswrX64 n r) w G → sourceUniform s w r 2 → writes (.syswrX64 n r) (source64 s w r))

/-- R4, R114, R322, R323: what the registers that software writes read afterwards; sys.tpend clears where ones are written; per-context registers follow
sys.ctxsel, and cannot be reached in a shadow bank that holds no context; reserved bits read zero. A scratchpad range that a context is given reads zero outside
the one it had (the model's reading of R114, log 46). -/
def Sys2Proof.Claims.SystemRegistersHold : Prop :=
  ∀ (s : State) (d : DieId) (v : DWord),
    let low := (v.setWidth 32).setWidth 64
    let leaves := fun (n : Nat) (r : DWord) => ∃ t, s.sysWrite d n v = some t ∧ t.sysRead d n = some r ∧ t.mem = s.mem ∧
      ∀ e, s.partOf e ≠ s.partOf d → t.die e = s.die e ∧ t.part (s.partOf e) = s.part (s.partOf e)
    let bit := fun (b : Bool) => if b then (1 : DWord) else 0
    leaves 0x100 (low &&& ~~~3) ∧ leaves 0x101 low ∧ leaves 0x103 low ∧ leaves 0x107 low ∧ leaves 0x108 (bit (v.getLsbD 0)) ∧ leaves 0x122 (bit (v.getLsbD 0)) ∧
    leaves 0x102 (((s.part (s.partOf d)).tpend &&& ~~~(v.setWidth 5)).setWidth 64) ∧
    (v.getLsbD 0 = false → leaves 0x104 (if v.getLsbD 1 then 2 else 0)) ∧
    let reached := (s.die d).ctxsel = false ∨ (s.die d).shState = 1
    (reached → leaves 0x120 v ∧ leaves 0x121 v ∧ leaves 0x124 v ∧ leaves 0x127 v ∧ leaves 0x125 (low &&& ~~~0xFFFF8080) ∧
      leaves 0x126 (low &&& ~~~0xE0000000)) ∧
    (∀ B t, (s.die d).selected = some B → s.sysWrite d 0x125 v = some t →
      let inside := fun (r : Word) (a : Nat) => r.toNat % 2 ^ 7 * 2 ^ 20 ≤ a ∧ a < r.toNat / 2 ^ 8 % 2 ^ 7 * 2 ^ 20
      ∀ a, (t.die d).scratch.read a = if inside (v.setWidth 32) a ∧ ¬inside B.sprange a then 0 else (s.die d).scratch.read a) ∧
    (¬reached → ∀ n ∈ [0x120, 0x121, 0x124, 0x125, 0x126, 0x127], s.sysWrite d n v = none ∧ s.sysRead d n = none)

/-- The words on system registers, and what the registers hold. -/
def Obligations.SystemRegisters : Prop := Claims.SystemRegisterWords ∧ Claims.SystemRegistersHold

/-- R331, R333, R334: EQRD of a stopped engine writes its image into the image buffer and its number of entries into gd, and empties it, while the threads' .copy and .tile stand as they were; while the
partition is not stopped it answers all ones. EQWR installs a carder's or a tile engine's entries, of which a carder takes sixteen at most, and raises
BARUSE while the partition is not stopped or where the image does not fit; of the sync engine it writes back a resident queue, unless frames of it move, and raises BARUSE for
a command that R332 does not list. The images' open fields are the
model's choice (log 19). -/
def Obligations.EngineImagesMove : Prop :=
  ∀ (s : State) (w : Who) (G : Group) (r : Reg) (cls : BitVec 4) (inst : BitVec 8), Solo G w →
    let P := s.selected w
    let i := inst.toNat
    let gives := fun (n : Nat) => oneReg P r.toNat fun _ => BitVec.ofNat 32 n
    (Ready s (.eqrd r cls inst) w G →
      (¬halted s w.d → Completes (.eqrd r cls inst) s s w (gives 0xFFFFFFFF)) ∧
      (halted s w.d → cls = 0 → let c := (s.die w.d).carder i
        ∃ u, Completes (.eqrd r cls inst) s u w (gives c.queue.length) ∧ (u.die w.d).carder i = {} ∧
          (∀ j, j ≠ i → (u.die w.d).carder j = (s.die w.d).carder j) ∧ (∀ gid xs, u.counter w.d gid xs .copy = s.counter w.d gid xs .copy) ∧
          ((s.die w.d).sv.shared.wf = true → (u.die w.d).sv.shared.readN imageAt (512 + 384 * c.queue.length) = c.image (s.die w.d).active.ctx)) ∧
      (halted s w.d → cls = 1 → i ∈ (s.die w.d).cores → ∃ u, Completes (.eqrd r cls inst) s u w (gives (s.tileQueue w.d i).length) ∧
        (u.die w.d).active.tileq = (s.die w.d).active.tileq.filter (fun q => q.core ≠ i) ∧
        ∀ gid xs, u.counter w.d gid xs .tile = s.counter w.d gid xs .tile) ∧
      (halted s w.d → cls = 1 → i ∉ (s.die w.d).cores → Completes (.eqrd r cls inst) s s w (gives 0)) ∧
      (halted s w.d → cls = 2 → ∃ u, Completes (.eqrd r cls inst) s u w (gives 1) ∧ u.mem = s.mem)) ∧
    (Ready s (.eqwr cls inst r) w G → sourceUniform s w r 1 →
      let n := (source s w r).toNat
      (¬halted s w.d → trapsAt s w (.eqwr cls inst r) Cause.baruse 0) ∧
      (halted s w.d → cls = 0 → (∀ t, s.installCarder w.d i n = some t → n ≤ 16 ∧ ((s.die w.d).carder i).queue = [] ∧
          (i < 48 → ((t.die w.d).carder i).queue.length = n) ∧ Completes (.eqwr cls inst r) s t w noReg) ∧
        (s.installCarder w.d i n = none → trapsAt s w (.eqwr cls inst r) Cause.baruse 0)) ∧
      (halted s w.d → cls = 1 → i ∈ (s.die w.d).cores → (∀ t, s.installTile w.d i n = some t → Completes (.eqwr cls inst r) s t w noReg) ∧
        (s.installTile w.d i n = none → trapsAt s w (.eqwr cls inst r) Cause.baruse 0)) ∧
      (halted s w.d → cls = 2 → n = 0 → Completes (.eqwr cls inst r) s s w noReg) ∧
      (halted s w.d → cls = 2 → 2 ≤ n → ¬(2 ^ 31 ≤ n ∧ n < 2 ^ 31 + 4096) → trapsAt s w (.eqwr cls inst r) Cause.baruse 0) ∧
      ∀ q, halted s w.d → cls = 2 → 2 ^ 31 ≤ n → n < 2 ^ 31 + 4096 →
        (s.die w.d).queues.find? (fun q => q.is (s.partOf w.d) (s.die w.d).active.ctx (n % 4096)) = some q →
        (s.ringStalled q = false → Completes (.eqwr cls inst r) s (s.queueBack q) w noReg) ∧
        (s.ringStalled q = true → isHeld s w (.eqwr cls inst r)))

/-- R320, R328: TRAPRET outside a handler raises BARUSE; with an event pending it is delivered again; else the die is released, its supervisor wave goes on
at sys.svepc, once the wave's writes are performed (R309), and with the last die the partition runs again. That a second delivery keeps sys.svepc, and that a
misaligned one is kept, are the model's readings (logs 17 and 34). -/
def Sys2Proof.Claims.TrapretReleases : Prop :=
  ∀ (s : State) (w : Who) (G : Group), Ready s .trapret w G → Solo G w →
    let p := s.partOf w.d
    let D := s.die w.d
    let others := fun (e : DieId) => s.partOf e = p ∧ e ≠ w.d
    let may := halted s w.d ∧ D.handler = true
    (¬may → trapsAt s w .trapret Cause.baruse 0) ∧
    (may → (s.part p).tpend ≠ 0 → exec .trapret s = .next (s.deliverAgain w.d)) ∧
    (may → (s.part p).tpend = 0 → D.swapBusy = true → isHeld s w .trapret) ∧
    (may → (s.part p).tpend = 0 → D.swapBusy = false → (∃ r ∈ (s.part p).released, r.2 ≠ D.active.ctx) → trapsAt s w .trapret Cause.baruse 0) ∧
    let goes := may ∧ (s.part p).tpend = 0 ∧ D.swapBusy = false ∧ ∀ r ∈ (s.part p).released, r.2 = D.active.ctx
    (goes → s.fullReady w.d w.gid w.all = false → isHeld s w .trapret) ∧
    (goes → s.fullReady w.d w.gid w.all = true →
      ∃ t, exec .trapret s = .next t ∧ t.mem = s.mem ∧ (t.die w.d).handler = false ∧
        (∀ l ∈ (t.die w.d).sv.lanes, l.ctl.pc = pair D.svepc w.pc.hi ∧ l.ctl.chain = []) ∧
        ((∀ e, others e → ∃ r ∈ (s.part p).released, r.1 = e) → (t.part p).halt = false ∧ (t.part p).complete = false ∧
          (t.part p).elapsed = if ∃ f ∈ (s.part p).frames, f.1 = Cause.tslice then 0 else (s.part p).elapsed) ∧
        ((∃ e, others e ∧ ∀ r ∈ (s.part p).released, r.1 ≠ e) → (t.part p).halt = true ∧ (w.d, D.active.ctx) ∈ (t.part p).released))

/-- R327, R351: HALTP halts the partition it names with TSLICE pending, and does nothing where no die is of it; ICINV discards every instruction buffer and
the second-level lines of its 4 KiB block on every die, once the wave's earlier writes are performed. -/
def Sys2Proof.Claims.HaltpAndIcinv : Prop :=
  ∀ (s : State) (w : Who) (G : Group), Solo G w →
    (∀ n : BitVec 3, Ready s (.haltp n) w G →
      ((∀ d, s.partOf d ≠ n.toFin) → Completes (.haltp n) s s w noReg) ∧
      ((∃ d, s.partOf d = n.toFin) → ∃ u, Completes (.haltp n) s u w noReg ∧ (u.part n.toFin).halt = true ∧
        (u.part n.toFin).tpend = (s.part n.toFin).tpend ||| 0b10000 ∧ ((s.part n.toFin).halt = false → (u.part n.toFin).rose = s.clock) ∧
        ((s.part n.toFin).halt = true → u.part n.toFin = { s.part n.toFin with tpend := (s.part n.toFin).tpend ||| 0b10000 }) ∧
        u.dies = s.dies ∧ u.mem = s.mem ∧ ∀ q, q ≠ n.toFin → u.part q = s.part q)) ∧
    ∀ a : Reg, Ready s (.icinv a) w G → sourceUniform s w a 2 →
      let v := source64 s w a
      let written := s.fullReady w.d w.gid (s.selected w) = true ∧ ∀ r ∈ s.reqs, r.die = w.d → r.gid = w.gid → r.reply ≠ none
      (2 ^ 44 ≤ v.toNat → trapsAt s w (.icinv a) Cause.prot 0) ∧
      (v.toNat < 2 ^ 44 → ¬written → isHeld s w (.icinv a)) ∧
      (v.toNat < 2 ^ 44 → written → ∃ u, Completes (.icinv a) s u w noReg ∧ u.mem = s.mem ∧
        ∀ d e, e ∈ (u.die d).icache ↔ e ∈ (s.die d).icache ∧ e.agent = none ∧ e.line / 32 ≠ v.toNat / 4096)

/-- TRAPRET, HALTP and ICINV. -/
def Obligations.SupervisorWords : Prop := Claims.TrapretReleases ∧ Claims.HaltpAndIcinv

/-! ## Events (R88 to R105, R226 to R232, R254, R272 to R287, R310 to R364, R380) -/

namespace Sys2Proof.Claims

/-- Packet `k` may move: it is there, and the oldest of its flow. -/
def arrives (s : State) (k : Nat) (p : Packet) : Prop := s.packets[k]? = some p ∧ s.oldest k p = true
/-- A port inside the package. -/
def inPackage : Port → Prop
  | .core _ _ | .router _ => True
  | _ => False
/-- Router `r` has sent a packet of a name through a port. -/
def sentThrough (t : State) (r : Router) (port : Port) (kind : PacketKind) (p : Packet) : Prop :=
  ∃ q ∈ t.packets, q.at_ = port ∧ q.src = .router r ∧ q.kind = kind ∧ q.name = p.name ∧ q.ctx = p.ctx
/-- An event leaves the state as it is. -/
def idle (s : State) (i : Instr) : Prop := exec i s = .next s
/-- An event leaves a state with a property. -/
def yields (s : State) (i : Instr) (P : State → Prop) : Prop := ∃ t, exec i s = .next t ∧ P t
/-- The partition of die `d` halts now with a first fault of this cause. -/
def haltsWith (s t : State) (d : DieId) (c : Cause) : Prop :=
  (t.part (s.partOf d)).halt = true ∧ ((s.part (s.partOf d)).halt = false → ∃ f, (t.part (s.partOf d)).pending = some f ∧ f.stop.cause = c)
/-- A hidden interest of a core for a packet's name. -/
abbrev wants (s : State) (d : DieId) (n : Nat) (p : Packet) (st : InterestState) (i : Interest) : Prop :=
  i.core = n ∧ i.name = p.name ∧ s.ctxOf d i.gid = p.ctx ∧ i.state = st

end Sys2Proof.Claims

/-- R98, R99: an interest at a router joins the entry in WAIT of its name, refreshes it, or makes one and goes up; a full table or no live way up holds it.
A withdrawal takes its port out, and the entry with its last port. An entry past its deadline frees. The way down of a request is the model's choice (log 16). -/
def Sys2Proof.Claims.InterestsAtRouters : Prop :=
  ∀ (s : State) (k : Nat),
    (∀ (p : Packet) (r : Router), arrives s k p → p.at_ = .router r →
      (p.kind = .interest →
        (∀ e, s.pendAt r p.ctx p.name .wait = some e →
          (p.src ∈ e.ports → yields s (.interestArrival k) fun t =>
            t.pendAt r p.ctx p.name .wait = some { e with deadline := max e.deadline p.life } ∧
            ∀ q, e.up = some (.router q) → sentThrough t r (.router q) .interest p) ∧
          (p.src ∉ e.ports → yields s (.interestArrival k) fun t => t.packets = s.packets.eraseIdx k ∧
            t.pendAt r p.ctx p.name .wait = some { e with deadline := max e.deadline p.life, ports := e.ports ++ [p.src] })) ∧
        (s.pendAt r p.ctx p.name .wait = none →
          let made := fun (up : Option Port) =>
            ({ at_ := r, ctx := p.ctx, part := p.part, name := p.name, ports := [p.src], up := up, deadline := p.life, size := (NameEntry.of p.entry).bytes,
               state := .wait } : PendEntry)
          let used := (s.pend.filter fun e => e.at_ = r).length
          (4096 ≤ used → idle s (.interestArrival k)) ∧
          (used < 4096 → r ≠ p.home → s.nextHop p r = none → idle s (.interestArrival k)) ∧
          (∀ q, used < 4096 → r ≠ p.home → s.nextHop p r = some q → yields s (.interestArrival k) fun t =>
            t.pendAt r p.ctx p.name .wait = some (made (some (.router q))) ∧ sentThrough t r (.router q) .interest p) ∧
          (used < 4096 → r = p.home → p.rank = none →
            (∀ x ∈ s.stores, x.at_ = r → x.ctx = p.ctx → x.name = p.name → x.serves s.clock = false) →
            yields s (.interestArrival k) fun t => t.pendAt r p.ctx p.name .wait = some (made none) ∧ t.packets = s.packets.eraseIdx k) ∧
          (∀ x, used < 4096 → r = p.home → p.rank = none → s.stores.find? (fun x => x.at_ == r && x.ctx == p.ctx && x.name == p.name) = some x →
            x.serves s.clock = true → (x.size ≠ (NameEntry.of p.entry).bytes → inPackage p.src → yields s (.interestArrival k) fun t =>
              t.pendAt r p.ctx p.name .wait = none ∧ sentThrough t r p.src .sizeNotice p) ∧
            (x.size = (NameEntry.of p.entry).bytes → x.bad ≠ [] → yields s (.interestArrival k) fun t =>
              (∃ d, s.partOf d = x.part) → ∃ d, s.partOf d = x.part ∧ haltsWith s t d Cause.ecc) ∧
            (x.size = (NameEntry.of p.entry).bytes → x.bad = [] → yields s (.interestArrival k) fun t =>
              (∃ e ∈ t.pend, e = { made none with state := .deliv }) ∧
              (∃ q ∈ t.packets, q.kind = .header ∧ q.at_ = .router r ∧ q.src = .store ∧ q.name = p.name ∧ q.ctx = p.ctx) ∧
              ∀ c < chunks x.size, ∃ q ∈ t.packets, q.kind = .chunk c ∧ q.at_ = .router r ∧ q.name = p.name ∧
                q.bytes = (x.bytes.drop (512 * c)).take 512)))) ∧
      (p.kind = .withdrawal →
        (s.pendAt r p.ctx p.name .wait = none → yields s (.withdrawalArrival k) fun t => t.pend = s.pend ∧ t.packets = s.packets.eraseIdx k) ∧
        ∀ e, s.pendAt r p.ctx p.name .wait = some e →
          (e.ports.filter (· ≠ p.src) ≠ [] → yields s (.withdrawalArrival k) fun t =>
            t.pendAt r p.ctx p.name .wait = some { e with ports := e.ports.filter (· ≠ p.src) }) ∧
          (e.ports.filter (· ≠ p.src) = [] → yields s (.withdrawalArrival k) fun t => t.pend = s.pend.erase e ∧
            ∀ q, e.up = some (.router q) → sentThrough t r (.router q) .withdrawal p))) ∧
    (∀ e, s.pend[k]? = some e → e.state = .wait → e.deadline < s.clock → exec (.pendingDeadline k) s = .next { s with pend := s.pend.eraseIdx k }) ∧
    (∀ e, s.pend[k]? = some e → (e.state ≠ .wait ∨ s.clock ≤ e.deadline) → idle s (.pendingDeadline k)) ∧
    (s.pend[k]? = none → idle s (.pendingDeadline k))

/-- R99, R102 to R104: a header passes a router's entry on to every port that waits and makes it DELIV, as the home's entry already is when its store sends; a size that differs ends it with SIZE notices, and a
second delivery waits for the first. At a core the pending entries of the name are LANDING, or end with SIZE. A chunk follows: it is written
at its place in the buffer, and with the last one the entries free. An interest that outlives its lifetime and grace raises NEVER. -/
def Sys2Proof.Claims.DeliveriesDescend : Prop :=
  ∀ (s : State) (k : Nat),
    (∀ (p : Packet) (r : Router), arrives s k p → p.at_ = .router r →
      (p.kind = .header ∨ p.kind = .sizeNotice → ∀ e, s.pend.find? (fun e => e.is r p.ctx p.name .wait && e.up == some p.src) = some e →
        (p.kind = .header → e.size = (NameEntry.of p.entry).bytes → s.pendAt r p.ctx p.name .deliv = none →
          yields s (.tileHeaderArrival k) fun t => t.pendAt r p.ctx p.name .deliv = some { e with state := .deliv } ∧
            ∀ port ∈ e.ports, inPackage port → sentThrough t r port .header p) ∧
        (p.kind = .header → e.size = (NameEntry.of p.entry).bytes → s.pendAt r p.ctx p.name .deliv ≠ none → idle s (.tileHeaderArrival k)) ∧
        (p.kind = .sizeNotice ∨ e.size ≠ (NameEntry.of p.entry).bytes → yields s (.tileHeaderArrival k) fun t => t.pend = s.pend.erase e ∧
          ∀ port ∈ e.ports, inPackage port → sentThrough t r port .sizeNotice p)) ∧
      (∀ e, p.kind = .header → p.src = .store → s.pend.find? (fun e => e.is r p.ctx p.name .wait && e.up == some .store) = none →
        s.pend.find? (fun e => e.is r p.ctx p.name .deliv && e.up.isNone) = some e →
        yields s (.tileHeaderArrival k) fun t => t.pend = s.pend ∧ ∀ port ∈ e.ports, inPackage port → sentThrough t r port .header p) ∧
      (∀ c e, p.kind = .chunk c → s.pend.find? (fun e => e.is r p.ctx p.name .deliv && (e.up == some p.src || (e.up.isNone && p.src == .store))) = some e →
        yields s (.chunkLanding k) fun t => t.pend = (if c + 1 = chunks e.size then s.pend.erase e else s.pend) ∧
          ∀ port ∈ e.ports, inPackage port → ∃ q ∈ t.packets, q.at_ = port ∧ q.src = .router r ∧ q.kind = p.kind ∧ q.name = p.name ∧ q.bytes = p.bytes)) ∧
    (∀ (p : Packet) (d : DieId) (n : Nat), arrives s k p → p.at_ = .core d n →
      let is := (s.die d).active.interests
      let fits := fun (i : Interest) => p.kind = .header ∧ (NameEntry.of i.entry).bytes = (NameEntry.of p.entry).bytes
      (p.kind = .header ∨ p.kind = .sizeNotice →
        ((∀ i ∈ is, wants s d n p .pending i → fits i) → yields s (.tileHeaderArrival k) fun t => t.packets = s.packets.eraseIdx k ∧
          (t.die d).active.interests = is.map fun i => if wants s d n p .pending i then { i with state := .landing } else i) ∧
        ((∃ i ∈ is, wants s d n p .pending i ∧ ¬fits i ∧ i.gid ≠ 0) → yields s (.tileHeaderArrival k) fun t =>
          haltsWith s t d Cause.size ∧ ∀ i ∈ (t.die d).active.interests, ¬(wants s d n p .pending i ∧ ¬fits i))) ∧
      (∀ c, p.kind = .chunk c → yields s (.chunkLanding k) fun t => t.packets = s.packets.eraseIdx k ∧
        (t.die d).active.interests = (if c + 1 = chunks (NameEntry.of p.entry).bytes then is.filter (fun i => ¬wants s d n p .landing i) else is) ∧
        ∀ i G, is.filter (fun i => decide (wants s d n p .landing i)) = [i] → s.group d i.gid = some G →
          let B := BufRec.of i.buf
          B.space ≤ 1 → B.bound = 0 → s.touchesLive d i.gid B.space (B.base + 512 * c) p.bytes.length = false → G.shared.wf = true →
          (s.die d).scratch.wf = true → t.readLocal d i.gid 0 B.space (B.base + 512 * c) p.bytes.length = p.bytes ∧
            ∀ sp y a, sp ≤ 2 → ¬(sp = B.space ∧ B.base + 512 * c ≤ a ∧ a < B.base + 512 * c + p.bytes.length) →
              t.readLocal d i.gid y sp a 1 = s.readLocal d i.gid y sp a 1)) ∧
    ∀ (d : DieId) (i : Interest), (s.die d).active.interests[k]? = some i →
      let late := i.state = .pending ∧ s.running d = true ∧ i.life + 1600 * (if (NameEntry.of i.entry).scope = 2 then 20 else 2) ≤ s.clock
      (¬late → idle s (.interestLifetimeExpiry d k)) ∧
      (late → i.gid ≠ 0 → yields s (.interestLifetimeExpiry d k) fun t => (t.die d).active.interests = (s.die d).active.interests.eraseIdx k ∧
        haltsWith s t d Cause.never)

/-- R89, R90, R100, R101, R105, R110: an offer goes router by router toward its home and its chunks along the path of its header. At its home it takes
room and its producer may read out, waits without room, and is discarded where the name is stored; its chunks fill the tile, which is STORED with the
last one until its retention ends or NEVICT ends it. -/
def Sys2Proof.Claims.HomesStoreTiles : Prop :=
  ∀ (s : State) (k : Nat),
    (∀ (p : Packet) (r : Router), arrives s k p → p.at_ = .router r →
      let stored := s.stores.find? (·.is r p.ctx p.name)
      let opened := fun (t : State) (id : Nat) => ∀ d, ∀ o ∈ (t.die d).active.offers, o.id = id → s.ctxOf d o.gid = p.ctx → o.open_ = true
      (∀ id, p.kind = .offer id → r ≠ p.home →
        (s.nextHop p r = none → idle s (.offerHeaderArrival k)) ∧
        ∀ q, s.nextHop p r = some q → yields s (.offerHeaderArrival k) fun t => sentThrough t r (.router q) (.offer id) p ∧
          (t.die p.die).active.offers = (s.die p.die).active.offers.map fun o => if o.id = id then { o with path := o.path ++ [.router q] } else o) ∧
      (∀ id, p.kind = .offer id → r = p.home → p.rank = none → p.origin = none →
        let E := NameEntry.of p.entry
        (stored = none → s.roomFor r E.bytes = true → yields s (.offerHeaderArrival k) fun t => opened t id ∧ ∃ x, t.stores = s.stores ++ [x] ∧
          x.state = .filling ∧ x.offer = id ∧ x.at_ = r ∧ x.ctx = p.ctx ∧ x.name = p.name ∧ x.size = E.bytes ∧ x.bytes = [] ∧ x.part = p.part) ∧
        (stored = none → s.roomFor r E.bytes = false → idle s (.offerHeaderArrival k)) ∧
        (∀ x, stored = some x → x.offer ≠ id → x.state = .filling ∨ x.serves s.clock = true →
          yields s (.offerHeaderArrival k) fun t => opened t id ∧ t.stores = s.stores)) ∧
      (∀ id c port rest, p.kind = .offerChunk id c → p.path = port :: rest → inPackage port → yields s (.offerChunkArrival k) fun t => t.stores = s.stores ∧
        ∃ q ∈ t.packets, q.at_ = port ∧ q.src = .router r ∧ q.kind = p.kind ∧ q.name = p.name ∧ q.bytes = p.bytes ∧ q.path = rest) ∧
      (∀ id c x, p.kind = .offerChunk id c → p.path = [] → stored = some x → x.state = .filling → x.offer = id → x.origin = p.origin →
        x.bytes.length = 512 * c →
        let y : StoreEntry := { x with bytes := x.bytes ++ p.bytes, bad := x.bad.filter (· ≠ c) }
        (x.bytes.length + p.bytes.length < x.size → yields s (.offerChunkArrival k) fun t => t.stores.find? (·.is r p.ctx p.name) = some y) ∧
        (x.size ≤ x.bytes.length + p.bytes.length → s.pendAt r p.ctx p.name .wait = none → yields s (.offerChunkArrival k) fun t =>
          t.stores.find? (·.is r p.ctx p.name) = some { y with state := .stored, expiry := s.clock + 1600 * x.ret })) ∧
      (∀ x, p.kind = .evict → stored = some x → x.state = .stored → (s.takePacket k).sending x = false →
        yields s (.retentionExpiry k) fun t => t.stores = s.stores.erase x)) ∧
    (∀ x, s.stores[k]? = some x → s.stores.find? (·.is x.at_ x.ctx x.name) = some x →
      let ends := x.state = .stored ∧ (x.evict = true ∨ x.expiry ≤ s.clock)
      (¬ends → idle s (.retentionExpiry (s.packets.length + k))) ∧
      (ends → s.sending x = false → exec (.retentionExpiry (s.packets.length + k)) s = .next { s with stores := s.stores.erase x }) ∧
      (ends → s.sending x = true → yields s (.retentionExpiry (s.packets.length + k)) fun t =>
        t.stores.find? (·.is x.at_ x.ctx x.name) = some { x with evict := true })) ∧
    ∀ (d : DieId) (o : Offer), (allDies.flatMap fun d => (s.die d).active.offers.map fun o => (d, o))[k]? = some (d, o) →
      let n := (NameEntry.of o.entry).bytes
      let B := BufRec.of o.buf
      let len := min 512 (n - 512 * o.next)
      let sent := fun (t : State) => ∃ p, t.packets = s.packets ++ [p] ∧ p.kind = .offerChunk o.id o.next ∧ p.at_ = .router (s.leafOf d o.core) ∧
        p.bytes = s.readLocal d o.gid 0 B.space (B.base + 512 * o.next) len ∧ p.path = o.path ∧ p.name = o.name
      (o.open_ = false ∨ (s.running d = false ∧ o.gid ≠ 0) → idle s (.offerChunkArrival (s.packets.length + k))) ∧
      (o.open_ = true → (s.running d = true ∨ o.gid = 0) → s.touchesLive d o.gid B.space (B.base + 512 * o.next) len = false →
        s.badLocalAt d o.gid 0 B.space (B.base + 512 * o.next) len = false →
        (512 * (o.next + 1) < n → yields s (.offerChunkArrival (s.packets.length + k)) fun t => sent t ∧ (t.die d).active.offers =
          (s.die d).active.offers.map fun q => if q.id = o.id then { q with next := o.next + 1 } else q) ∧
        (n ≤ 512 * (o.next + 1) → B.bound = 0 → yields s (.offerChunkArrival (s.packets.length + k)) fun t => sent t ∧
          (t.die d).active.offers = (s.die d).active.offers.filter fun q => q.id ≠ o.id))

/-- The events of the fabric: interests, deliveries and home stores; one whose condition does not hold leaves the state as it is (log 40). -/
def Obligations.FabricEvents : Prop := Claims.InterestsAtRouters ∧ Claims.DeliveriesDescend ∧ Claims.HomesStoreTiles

namespace Sys2Proof.Claims

/-- The input at the head of the inbox; `rest` are those after it. -/
def headed (s : State) (x : Input) (rest : List Input) : Prop := s.inbox = x :: rest
/-- The launch that a packet's header and number name (R10, R14), its home engine on this package and its .pod counter set there. -/
def podSet (s : State) (h : Header) (launch : Nat) (L : Launch) (c : CSet) : Prop :=
  s.podLaunch h launch = some L ∧ s.launchById launch = some L ∧ L.id = launch ∧ s.cset (s.podHome L) launch .pod 0 = some c

/-- The partition of a join has been reset before the join came (R232). -/
def ended (s : State) (j : SJoin) : Prop := ∃ i, SMsg.gone i ∈ s.smsgs ∧ Session.isJoin j i = true
/-- Row `r` of participant `j`, on another package, is sent and not here whole; a row of more than 128 columns comes in two pieces. -/
def missing (x : Session) (j : SJoin) (r : Nat) : Prop :=
  j ∈ x.joins ∧ SJoin.here x j = false ∧ j.mask.getLsbD r = true ∧ ¬((∃ p ∈ j.staged, p.1 = 2 * r) ∧ (128 < x.cols → ∃ p ∈ j.staged, p.1 = 2 * r + 1))

end Sys2Proof.Claims

/-- R227 to R232, R310: a join enters a session of its identity, opens one while its home has fewer than 48, and makes it fail where it differs or its
participant number is taken, with FMT at the joining thread; one whose partition has been reset meanwhile ends the session. With the last close the home
reads the rows that participants on other packages have sent, row by row and each row in participant order, and the result is computed; a failed session
ends. A row of the result goes to the first participant that asks for it and can take it; one that faults is written again later; a result that all have
ends the session. A participant on another package writes the rows in the order in which they come. Where a row waits and in what packets it travels is
the model's reading (log 43). -/
def Sys2Proof.Claims.SessionsAtHome : Prop :=
  ∀ (s : State) (k : Nat), (∀ x ∈ s.sessions, ∀ y ∈ s.sessions, y.id = x.id → y = x) →
    let without := fun (x : Session) => s.sessions.filter fun y => y.id ≠ x.id
    (∀ (m : Session) (j : SJoin), s.smsgs[k]? = some (.join m) → m.joins = [j] →
      (ended s j → yields s (.sessionJoin k) fun t => ∀ x ∈ t.sessions, x.same m = false) ∧
      (¬ended s j → s.sessions.find? (·.same m) = none →
        ((s.sessions.filter fun x => x.home = m.home).length < 48 → exec (.sessionJoin k) s =
          .next { s with smsgs := s.smsgs.eraseIdx k, sessions := s.sessions ++ [{ m with id := s.nextId }], nextId := s.nextId + 1 }) ∧
        (48 ≤ (s.sessions.filter fun x => x.home = m.home).length → idle s (.sessionJoin k))) ∧
      (¬ended s j → ∀ x, s.sessions.find? (·.same m) = some x →
        let sound := x.agrees m = true ∧ ∀ i ∈ x.joins, i.pno ≠ j.pno
        (sound → yields s (.sessionJoin k) fun t =>
          t.sessions = s.sessions.map fun y => if y.id = x.id then { y with joins := y.joins ++ [j] } else y) ∧
        (¬sound → SJoin.here m j = true → j.gid ≠ 0 → yields s (.sessionJoin k) fun t => haltsWith s t j.die Cause.fmt ∧
          { x with joins := x.joins ++ [j], abandoned := true } ∈ t.sessions) ∧
        (∀ n, ¬sound → SJoin.here m j = false → j.link = some n → (s.link n).retired = false → yields s (.sessionJoin k) fun t =>
          t.out = s.out ++ [.link n ⟨x.ctx, .session, j.rank, 0⟩ (.session (.refused j))] ∧
          { x with joins := x.joins ++ [j], abandoned := true } ∈ t.sessions))) ∧
    (∀ (sid : Word) (sc : Scope) (home : DieId) (j : SJoin) (x : Session), s.smsgs[k]? = some (.close sid sc home j) →
      s.sessions.find? (fun x => x.result.isNone && x.sid == sid && x.scope == sc && x.home == home && x.joins.any (Session.isJoin j)) = some x →
      let x' := { x with
        joins := x.joins.map (fun i => if Session.isJoin j i then { i with closed := true, mask := j.mask, staged := i.staged ++ j.staged } else i)
        pc := j.pc }
      let closed := (x'.joins.filter fun i => i.closed).length
      yields s (.sessionClose k) fun t => t.smsgs = s.smsgs.eraseIdx k ∧
        (closed < x.count → x' ∈ t.sessions) ∧
        (x.count ≤ closed → x.abandoned = false → (∀ i r, r < x.rows → ¬missing x' i r) → { x' with result := some x'.resultRows } ∈ t.sessions) ∧
        (∀ i r, x.count ≤ closed → x.abandoned = false → r < x.rows → missing x' i r → (∀ i' q, q < r → ¬missing x' i' q) →
          (∀ i', missing x' i' r → i' ≠ i → i.pno < i'.pno) → x.asked ≠ some (i.pno, r) → { x' with asked := some (i.pno, r) } ∈ t.sessions ∧
          ∀ n, i.link = some n → (s.link n).retired = false → t.out = s.out ++ [.link n ⟨x.ctx, .session, i.rank, 0⟩ (.session (.read { i with staged := [] } r))]) ∧
        (x.count ≤ closed → x.abandoned = true → t.sessions = without x)) ∧
    (∀ (x : Session) (rows : List (List Byte)), s.sessions[k]? = some x → x.result = some rows →
      let asks := x.joins.filter fun j => j.dest ≠ 0 ∧ j.written < x.rows
      let row := fun (j : SJoin) => s.resultRow x (rows.getD j.written []) j
      (asks = [] → exec (.sessionResultWrite k) s = .next { s with sessions := without x }) ∧
      (asks ≠ [] → (∀ j ∈ asks, row j = none) → idle s (.sessionResultWrite k)) ∧
      (∀ j u, j ∈ asks → (∀ i ∈ asks.takeWhile (· != j), row i = none) → row j = some (false, u) → exec (.sessionResultWrite k) s = .next u) ∧
      (∀ j u, j ∈ asks → (∀ i ∈ asks.takeWhile (· != j), row i = none) → row j = some (true, u) → exec (.sessionResultWrite k) s =
        .next { u with sessions := u.sessions.map fun y => if y.id = x.id then
          { y with joins := y.joins.map fun i => if Session.isJoin j i then { i with written := i.written + 1 } else i } else y })) ∧
    (∀ x, s.sessions[k]? = some x → x.result = none → idle s (.sessionResultWrite k)) ∧
    (∀ (i : Nat) (j : SJoin) (off : Nat) (bytes : List Byte) (credit : Nat), k = s.sessions.length + i → s.smsgs[i]? = some (.result j off bytes credit) →
      let behind := ∃ m ∈ s.smsgs.take i, ∃ j' o b c, m = .result j' o b c ∧ Session.isJoin j j' = true
      (behind ∨ s.writeResult j off bytes credit = none → idle s (.sessionResultWrite k)) ∧
      (∀ u, ¬behind → s.writeResult j off bytes credit = some (true, u) →
        exec (.sessionResultWrite k) s = .next { u with smsgs := u.smsgs.eraseIdx i }) ∧
      ∀ u, ¬behind → s.writeResult j off bytes credit = some (false, u) → exec (.sessionResultWrite k) s = .next u) ∧
    (∀ (i : Nat) (j : SJoin), k = s.sessions.length + i → j.gid ≠ 0 →
      (s.smsgs[i]? = some (.lost j) → yields s (.sessionResultWrite k) fun t => haltsWith s t j.die Cause.link) ∧
      (s.smsgs[i]? = some (.refused j) → yields s (.sessionResultWrite k) fun t => haltsWith s t j.die Cause.fmt)) ∧
    (s.smsgs[k]? = none → idle s (.sessionJoin k) ∧ idle s (.sessionClose k))

/-- R231, R54, R120: where a row of a result lands: row `m` at DEST plus `m` times the stride, in local memory or, translated as the thread's own store, in
main memory; its bytes are bound to NOTIFY, and with the last row NOTIFY is credited with the bytes of all rows. It waits while the participant's
partition is halted, its context is away, or its frame is on the move. -/
def Sys2Proof.Claims.ResultRowsLand : Prop :=
  ∀ (s : State) (x : Session) (j : SJoin) (bytes : List Byte), SJoin.here x j = true → j.gid ≠ 0 →
    let packed := rowBytes x.dfmt.toNat x.cols
    let at_ := j.dest + BitVec.ofNat 64 (j.written * if j.dstride = 0 then packed else j.dstride)
    let away := s.ready = false ∨ (s.part (s.partOf j.die)).halt = true ∨ (s.die j.die).active.ctx ≠ j.ctx ∨
      ∃ va, CAddr.of at_ = some (.main va) ∧ s.vaStalled j.die j.core false va bytes.length = true
    let landed := fun (u : State) =>
      (∃ sp a, CAddr.of at_ = some (.loc sp a) ∧ s.inSpace j.die j.gid sp a bytes.length = true ∧ s.touchesLive j.die j.gid sp a bytes.length = false ∧
        u = (s.writeLocal j.die j.gid 0 sp a bytes).useBytes j.die j.gid j.notify (some sp) a bytes.length) ∨
      ∃ va t, CAddr.of at_ = some (.main va) ∧ s.writeVa j.die j.core false va bytes = .ok t ∧
        u = t.useBytes j.die j.gid j.notify none va.toNat bytes.length
    (away → s.resultRow x bytes j = none) ∧
    (¬away → ∀ u, landed u →
      (j.written + 1 ≠ x.rows ∨ x.rows * packed = 0 → s.resultRow x bytes j = some (true, u)) ∧
      ∀ v, j.written + 1 = x.rows → x.rows * packed ≠ 0 → u.credit j.die j.gid j.notify none (x.rows * packed) = .ok v →
        s.resultRow x bytes j = some (true, v))

/-- R10, R14, R252, R254, R380: what comes from other packages in .pod generations, named by launch and context. Rank 0's opening opens the generation here,
with the groups resident now and those that came early arrived; a package that runs none of the launch has arrived at once. At the home another package's
first arrival opens one, its combined arrival is noted; each packet carries the PC of the word that causes it (R222); a count lowers its counter or raises BARUSE; a release ends the generation here. -/
def Sys2Proof.Claims.PodGenerations : Prop :=
  (∀ (s : State) (rest : List Input) (n : Fin 36) (h : Header) (launch gen : Nat) (pc : DWord), headed s (.link n h (.podOpen launch gen pc)) rest →
    s.podLaunch h launch = none → (s.link n.val).retired = false → yields s .podGenerationOpen fun t => t.inbox = rest ∧
      t.out = s.out ++ [.link n.val { h with dst := h.src, src := h.dst } (.podArrival launch gen true pc)]) ∧
  ∀ (s : State) (rest : List Input) (n : Fin 36) (h : Header) (launch : Nat) (L : Launch) (c : CSet), podSet s h launch L c →
    let home := s.podHome L
    let leaves := fun (i : Instr) (P : CSet → Prop) => yields s i fun t => t.inbox = rest ∧ ∃ c', t.cset home launch .pod 0 = some c' ∧ P c'
    (∀ gen pc, headed s (.link n h (.podOpen launch gen pc)) rest → L.rank ≠ 0 →
      (c.open_ = true → leaves .podGenerationOpen fun c' => c' = c) ∧
      (c.open_ = false → leaves .podGenerationOpen fun c' => c'.num = gen ∧ c'.pc = pc ∧ c'.open_ = true ∧ c'.members = s.residents home launch .pod 0 ∧
        c'.arrived = c.next ∧ c'.next = [])) ∧
    (∀ gen combined pc, headed s (.link n h (.podArrival launch gen combined pc)) rest → L.rank = 0 →
      (combined = false → c.open_ = false → leaves .podCombinedArrival fun c' =>
        (c'.gen = c.gen ∧ c'.open_ = true ∧ c'.pc = pc ∧ c'.members = s.residents home launch .pod 0) ∨ c.gen < c'.gen) ∧
      (combined = true → c.gen = gen → c.open_ = true → leaves .podCombinedArrival fun c' =>
        (c'.gen = gen ∧ c'.open_ = true ∧ c'.pc = pc ∧ h.src ∈ c'.ranks) ∨ gen < c'.gen) ∧
      (combined = true → c.gen ≠ gen ∨ c.open_ = false → leaves .podCombinedArrival fun c' => c' = c)) ∧
    (∀ dest m pc, headed s (.link n h (.podCount launch dest m pc)) rest →
      (m ≤ c.counters.getD dest 0 → leaves .podPhaseCount fun c' =>
        (c'.gen = c.gen ∧ c'.pc = pc ∧ c'.counters.getD dest 0 = c.counters.getD dest 0 - m) ∨ c.gen < c'.gen) ∧
      (c.counters.getD dest 0 < m → yields s .podPhaseCount fun t => haltsWith s t home Cause.baruse ∧ t.sets = s.sets)) ∧
    (∀ gen, headed s (.link n h (.podRelease launch gen)) rest →
      (c.open_ = true → c.num = gen → leaves .podRelease fun c' =>
        c' = { c with gen := c.gen + 1, open_ := false, members := [], arrived := [], sentUp := false }) ∧
      (c.open_ = false ∨ c.num ≠ gen → leaves .podRelease fun c' => c' = c))

/-- The events of sessions and of .pod generations; one whose condition does not hold leaves the state as it is (log 40). -/
def Obligations.CollectiveEvents : Prop := Claims.SessionsAtHome ∧ Claims.ResultRowsLand ∧ Claims.PodGenerations

/-- R67, R96, R124, R273 to R280, R285: the scheduler begins the oldest record of a launch queue, with its groups not yet placed spread over the partition's dies, or
refuses it with its code in the status variable; a launch that starts has acquired: no copy of a descriptor of its context is left. It places the next
group, with the wave positions of its kernel's GSIZE, on the core with the most free ones; a die with none left takes the upper half, in whole clusters,
of the die that holds the most. A record that lies in a line in error halts the partition, with the line's address in the sync engine's record (log 14). -/
def Sys2Proof.Claims.LaunchesStartAndSpread : Prop :=
  (∀ (s : State) (p : PartId) (handle : Word), (∀ d, s.partOf d ≠ p) → idle s (.launchStart p handle)) ∧
  (∀ (s : State) (p : PartId) (handle : Word) (d : DieId) (ds : List DieId), s.diesOf p = d :: ds →
    let c := (s.die d).active.ctx
    (s.running d = false ∨ c = 0 → idle s (.launchStart p handle)) ∧
    ∀ (q : RQueue) (r : BitVec 256) (l : List (BitVec 256)), s.running d = true → c ≠ 0 → s.queueOf p c handle.toNat = some q → q.chip = r :: l → q.kind = 1 →
      (s.mayLaunch p c handle.toNat (r.getLsbD 128) = false → idle s (.launchStart p handle)) ∧
      (s.mayLaunch p c handle.toNat (r.getLsbD 128) = true → s.ringStalled q = false → s.launchStalled d (field r 63 0) = false →
        ∀ line, s.launchLost d (field r 63 0) = some line → yields s (.launchStart p handle) fun t => haltsWith s t d Cause.ecc ∧ t.launches = s.launches ∧
          ∃ f ∈ (t.part p).faults, f.die = d ∧ f.slot = 248 ∧ f.stop.cause = Cause.ecc ∧ f.stop.pc = 0 ∧ f.stop.faddr = line) ∧
      ∀ u, s.ringStalled q = false → s.launchStalled d (field r 63 0) = false → s.launchLost d (field r 63 0) = none → s.mayLaunch p c handle.toNat (r.getLsbD 128) = true → s.qPop q = some (r, u) → field r 159 129 = 0 → field r 255 160 = 0 → field r 127 64 = 0 →
        (∀ code, u.launchRec d (field r 63 0) = .inl code → exec (.launchStart p handle) s = .next u) ∧
        (∀ L, u.launchRec d (field r 63 0) = .inr L → yields s (.launchStart p handle) fun t => t.mem = u.mem ∧ ∃ L', t.launches = u.launches ++ [L'] ∧
          (∀ e, s.partOf e = p → ∀ x ∈ (t.die e).desc, x.ctx ≠ c) ∧ L'.id = u.nextId ∧ L'.kernel = L.kernel ∧ L'.lo = L.lo ∧ L'.hi = L.hi ∧ L'.started = 0 ∧ L'.unplaced = L.spread (d :: ds))) ∧
  (∀ (s : State) (p : PartId) (handle : Word) (d : DieId) (ds : List DieId) (q : RQueue) (r : BitVec 256) (l : List (BitVec 256)) (u : State) (code da : Nat),
    s.diesOf p = d :: ds → s.running d = true → (s.die d).active.ctx ≠ 0 → s.queueOf p (s.die d).active.ctx handle.toNat = some q → q.chip = r :: l →
    q.kind = 1 → s.ringStalled q = false → s.launchStalled d (field r 63 0) = false → s.launchLost d (field r 63 0) = none →
    s.mayLaunch p (s.die d).active.ctx handle.toNat (r.getLsbD 128) = true → s.qPop q = some (r, u) → field r 159 129 = 0 → field r 255 160 = 0 →
    field r 127 64 ≠ 0 → field r 127 64 % 8 = 0 → u.translate d syncAgent false (BitVec.ofNat 64 (field r 127 64)) .write = .ok da → poolOf da = 0 →
    u.launchRec d (field r 63 0) = .inl code → yields s (.launchStart p handle) fun t => ∃ x ∈ t.reqs, x.op = .put ∧ x.addr = da ∧ x.width = 8 ∧
      x.arg = BitVec.ofNat 256 (0x80000000 + code)) ∧
  ∀ (s : State) (d : DieId),
    (s.running d = false ∨ s.nextGroup d = none → idle s (.groupPlacement d)) ∧
    (∀ L x k first count csize, s.running d = true → s.nextGroup d = some (L, x) → L.unit x = (k, first, count, csize) →
      (s.coreFor d k ((k.gsize + 31) / 32) = none → idle s (.groupPlacement d)) ∧
      ∀ core, s.coreFor d k ((k.gsize + 31) / 32) = some core → yields s (.groupPlacement d) fun t => t.mem = s.mem ∧
        (∃ H ∈ (t.die d).active.groups, H.gid = s.nextId ∧ H.number = BitVec.ofNat 32 x.number ∧ H.launch = L.id ∧ H.core = core ∧ H.first = first ∧
          H.count = count ∧ H.size = roundUp k.shared 256 ∧ H.tiles = hdrTiles k.hdr ∧ H.fmts = k.fmts ∧ H.alloc = List.replicate H.slots.length (hdrRegs k.hdr) ∧
          H.node = x.node.isSome) ∧
        ∀ M ∈ s.launches, M.id = L.id → { M with unplaced := M.unplaced.filter (· != x), started := M.started + 1 } ∈ t.launches) ∧
    (let mine := s.launches.filter fun L => L.part == s.partOf d && L.ctx == (s.die d).active.ctx
     let most := fun (held : DieId → Nat) => bestOf (fun (a b : DieId) => decide (held b < held a) || (held a == held b && decide (a.val ≤ b.val))) (s.partDies d)
     let moves := fun (t : State) (taken : List (Nat × Unplaced)) => ∀ M ∈ s.launches,
       { M with unplaced := M.unplaced.map fun x => if (M.id, x) ∈ taken then { x with die := d } else x } ∈ t.launches
     (s.running d = false ∨ (∃ L ∈ mine, ∃ x ∈ L.unplaced, x.die = d) → idle s (.workSteal d)) ∧
     (s.running d = true → (∀ L ∈ mine, ∀ x ∈ L.unplaced, x.die ≠ d) →
       -- groups that are no members of clusters
       (let us := fun (v : DieId) => mine.flatMap fun L => (L.unplaced.filter fun x => x.node.isNone && x.die == v).map fun x => (L.id, x)
        (∀ L ∈ mine, L.kernel.csize ≤ 1) → ∀ v, most (fun v => (us v).length) = some v →
        yields s (.workSteal d) fun t => moves t ((us v).drop ((us v).length - max 1 ((us v).length / 2)))) ∧
       -- clusters stay together
       ∀ v, most (s.waiting d) = some v → yields s (.workSteal d) fun t => moves t (s.steal d v) ∧
         ((s.loose d v).flatten ≠ [] → s.steal d v ≠ []) ∧
         ((∀ L ∈ s.launches, ∀ M ∈ s.launches, M.id = L.id → M = L) → ∀ L ∈ mine, ∀ x y, (L.id, x) ∈ s.steal d v → (L.id, y) ∈ (s.loose d v).flatten →
           1 < L.kernel.csize → x.number / L.kernel.csize = y.number / L.kernel.csize → (L.id, y) ∈ s.steal d v)))

/-- R265, R285, R287: a group ends when its indices have exited and nothing of it is under way; a launch ends, and its status is written, when it has no
group, none to place, and every bin is empty; a bin's timer and its drain take records for a new group (its die: log 20), and wait while the bin's ring is on the move (R54). -/
def Sys2Proof.Claims.GroupsAndLaunchesEnd : Prop :=
  ∀ (s : State),
    (∀ (d : DieId) (gid : Nat) (G : Group), s.group d gid = some G →
      let B := (s.die d).active
      let ended := G.liveIdx = [] ∧ (∀ q ∈ s.cmds d, q.gid ≠ gid) ∧ (∀ x ∈ B.interests, x.gid ≠ gid) ∧ (∀ x ∈ B.offers, x.gid ≠ gid) ∧
        (∀ x ∈ B.tileq, x.gid ≠ gid) ∧ ∀ r ∈ s.reqs, r.die = d → r.gid = gid → r.op.counted = false
      (¬ended ∨ gid = 0 ∨ s.running d = false → idle s (.groupEnd d gid)) ∧
      (ended → gid ≠ 0 → s.running d = true → (∀ h ∈ B.handles, h.gid ≠ gid) → yields s (.groupEnd d gid) fun t => t.group d gid = none ∧ t.mem = s.mem ∧
        ∀ H ∈ B.groups, H.gid ≠ gid → ∃ K ∈ (t.die d).active.groups, K.gid = H.gid ∧ K.number = H.number ∧ K.k = H.k ∧ K.shared = H.shared)) ∧
    (∀ (d : DieId) (gid : Nat), s.group d gid = none → idle s (.groupEnd d gid)) ∧
    (∀ (id : Nat) (L : Launch), s.launchById id = some L →
      (s.launchDie L = none → idle s (.launchEnd id)) ∧
      ∀ d, s.launchDie L = some d →
        let ended := s.hasGroups L = false ∧ L.unplaced = [] ∧ ∀ N ∈ L.nodes, s.queueSize d L.part L.ctx N.qh = some 0
        (¬ended → idle s (.launchEnd id)) ∧
        (ended → yields s (.launchEnd id) fun t => t.launches = s.launches.filter (·.id != id) ∧ t.sets = s.sets.filter (·.launch != id) ∧
          ∀ da, L.status ≠ 0 → L.status % 8 = 0 → s.translate d syncAgent false (BitVec.ofNat 64 L.status) .write = .ok da → poolOf da = 0 →
            ∃ r ∈ t.reqs, r.op = .put ∧ r.addr = da ∧ r.width = 8 ∧ r.arg = BitVec.ofNat 256 (1 + L.started * 2 ^ 32))) ∧
    ∀ (id n : Nat) (L : Launch) (N : Node) (d : DieId), s.launchById id = some L → L.nodes[n]? = some N → s.launchDie L = some d →
      let held := fun (i : Instr) => ∀ q, s.queueOf L.part L.ctx N.qh = some q → q.rcount ≠ 0 → s.ringStalled q = true → idle s i
      let takes := fun (i : Instr) (N' : Node) => ∀ q rs u, s.queueOf L.part L.ctx N.qh = some q → (q.rcount = 0 ∨ s.ringStalled q = false) → s.popN L.part L.ctx N.qh N'.coal = (rs, u) → rs ≠ [] →
        yields s i fun t => t.mem = u.mem ∧ ∀ M ∈ u.launches, M.id = L.id → ∃ M' ∈ t.launches, M'.id = L.id ∧ ∃ x, M'.unplaced = M.unplaced ++ [x] ∧
          x.node = some n ∧ x.records = rs
      (∀ t, N.due = some t → s.clock < t → idle s (.binTimerExpiry id n)) ∧ (N.due = none → idle s (.binTimerExpiry id n)) ∧
      (∀ t, N.due = some t → t ≤ s.clock → held (.binTimerExpiry id n) ∧ takes (.binTimerExpiry id n) { N with due := none }) ∧
      (s.hasGroups L = true ∨ L.unplaced ≠ [] → idle s (.binDrain id n)) ∧
      (s.hasGroups L = false → L.unplaced = [] → held (.binDrain id n) ∧ takes (.binDrain id n) N)

/-- The events of the grid scheduler; one whose condition does not hold leaves the state as it is (log 40). -/
def Obligations.SchedulerEvents : Prop := Claims.LaunchesStartAndSpread ∧ Claims.GroupsAndLaunchesEnd

/-- R271, R312 to R314, R318, R324, R329, R360: a halt is complete once the line has reached every engine and every reply and delivery has landed; every engine's record is then
in the stop area, that of its own fault if it had one, a core's else with the PC of its thread (R365). A GLD on its way is abandoned at the micro-step that it
has reached (R355). Then each die's supervisor wave enters its handler at sys.trapvec with its PC in sys.svepc, unless it is in the handler of its own fault
or short of a word boundary; every die's frame is the same, with the first fault that is pending. -/
def Sys2Proof.Claims.HaltsCompleteAndDeliver : Prop :=
  (∀ (s : State) (p : PartId),
    let P := s.part p
    let complete := s.powered = true ∧ P.halt = true ∧ P.complete = false ∧ s.lineThrough p = true ∧ s.awaited p = [] ∧ s.deliveriesDone p = true
    (¬complete → idle s (.haltComplete p)) ∧
    (complete → yields s (.haltComplete p) fun t => (t.part p).complete = true ∧ (t.part p).halt = true ∧
      (∀ d, s.partOf d = p → (s.die d).sv.shared.wf = true → ∀ f ∈ P.faults, f.die = d → (∀ g ∈ P.faults, g.die = d → g.slot = f.slot → g = f) →
        (∀ e, s.partOf e = p → ∀ c ∈ (s.die e).cores, s.tileQueue e c = []) → f.slot ∈ (s.die d).cores →
        (t.die d).sv.shared.readN (stopArea + 64 * f.slot) 64 = f.stop.bytes) ∧
      (∀ d c G l, s.partOf d = p → (s.die d).sv.shared.wf = true → c ∈ (s.die d).cores → c < 96 → (∀ f ∈ P.faults, f.die = d → f.slot ≠ c) →
        (∀ e, s.partOf e = p → ∀ c ∈ (s.die e).cores, s.tileQueue e c = []) → (s.die d).active.groups.filter (·.core == c) = [G] → G.hoods = [] →
        G.lanes = [l] → G.glds = [] →
        (t.die d).sv.shared.get (stopArea + 64 * c + 8) 8 = (if l.ctl.chain = [] then l.ctl.pc else l.ctl.chainPc).toNat) ∧
      -- threads are recorded at their next word, the first of its chain, and wait for nothing
      ∀ d gid G, s.partOf d = p → gid ≠ 0 → s.group d gid = some G → (∀ e, s.partOf e = p → ∀ c ∈ (s.die e).cores, s.tileQueue e c = []) →
        ∃ G', t.group d gid = some G' ∧ G'.glds = [] ∧
          (G.glds = [] → G'.lanes.map (fun l => (l.x, l.g, l.ctl.pc, l.ctl.chain, l.ctl.wait)) =
            G.lanes.map (fun l => (l.x, l.g, if l.ctl.chain = [] then l.ctl.pc else l.ctl.chainPc, [], Wait.none))) ∧
          ∀ q, G.glds = [q] → ∀ l ∈ G.lanes, l.x ∈ q.xs → ∃ m ∈ G'.lanes, m.x = l.x ∧ m.g = l.g ∧
            m.ctl.pc = (if q.chain = [] then q.pc else q.chainPc) ∧ m.ctl.prog = q.step ∧ m.ctl.wait = .none)) ∧
  ∀ (s : State) (d : DieId),
    let p := s.partOf d
    let P := s.part p
    let D := s.die d
    let may := s.powered = true ∧ halted s d ∧ D.handler = false ∧ (∀ r ∈ P.released, r.1 ≠ d) ∧ D.ownOver = true ∧ 
      ∀ l ∈ D.sv.lanes, l.ctl.wait ≠ .reply ∧ (l.ctl.prog = 0 ∨ l.ctl.wait = .join)
    let enters := fun (t : State) => t.mem = s.mem ∧ (t.die d).handler = true ∧ (t.die d).svepc = D.sv.svPc.lo ∧ (t.die d).svOwn = false ∧
      ∀ l ∈ (t.die d).sv.lanes, l.ctl.pc = pair D.trapvec D.sv.svPc.hi ∧ l.ctl.chain = []
    (¬may → idle s (.eventDelivery d)) ∧
    -- the first die of the partition to deliver makes the frame
    (∀ c, may → P.frames[D.taken]? = none → deliverCause P = some c → yields s (.eventDelivery d) fun t => enters t ∧
      (∃ bs, (t.part p).frames = P.frames ++ [(c, bs)]) ∧
      (D.sv.shared.wf = true → let S := (t.die d).sv.shared
        S.readN trapFrameAt 64 = (match P.pending with | some f => f.stop.bytes | none => List.replicate 64 0) ∧ S.read (trapFrameAt + 64) = c ∧
        S.read (trapFrameAt + 65) = P.tpend.setWidth 8 ∧ S.get (trapFrameAt + 72) 8 = P.rose % 2 ^ 64)) ∧
    -- the others write the same one
    (∀ f, may → P.frames[D.taken]? = some f → yields s (.eventDelivery d) fun t => enters t ∧ (t.part p).frames = P.frames ∧
      (D.sv.shared.wf = true → (t.die d).sv.shared.readN trapFrameAt f.2.length = f.2))

/-- R152, R320, R322: requests for a halt, slices and steps. A slice that has run out raises TSLICE while the partition runs; a write of sys.tslice begins a new
count; ones clear sys.tpend; HALTREQ raises DBGHALT, and the debug port writes sys.dbgctl, STEP as well; with STEP set, a partition whose every thread has issued or waits, and whose GLDs are done (the model's reading, log 36), halts with STEP; a merge hold ends
after 64 cycles. -/
def Sys2Proof.Claims.SlicesAndSteps : Prop :=
  ∀ (s : State) (p : PartId) (d : DieId) (v : Word),
    let P := s.part p
    let raises := fun (i : Instr) (bit : BitVec 5) => yields s i fun t => (t.part p).halt = true ∧ (t.part p).tpend = P.tpend ||| bit ∧ t.mem = s.mem ∧
      ∀ q, q ≠ p → t.part q = s.part q
    let counts := s.ready = true ∧ (P.halt = false ∨ P.rose = s.clock)
    let spent := counts ∧ P.tslice ≠ 0 ∧ 1600 * P.tslice.toNat ≤ P.elapsed
    (¬spent → idle s (.tsliceExpiry p)) ∧ (spent → raises (.tsliceExpiry p) 0b10000) ∧
    (let Q := s.part (s.partOf d)
     yields s (.tsliceWrite d v) (fun t => t.part (s.partOf d) = { Q with tslice := v, elapsed := 0 } ∧ t.dies = s.dies) ∧
     yields s (.tpendClear d v) (fun t => t.part (s.partOf d) = { Q with tpend := Q.tpend &&& ~~~(v.setWidth 5) } ∧ t.dies = s.dies)) ∧
    ((∀ q v rest, s.inbox ≠ .debugPort q v :: rest) → raises (.haltreq p) 0b00100) ∧
    (∀ q v rest, s.inbox = .debugPort q v :: rest → yields s (.haltreq p) (fun t => t.inbox = rest ∧ (t.part p).step = v.getLsbD 1 ∧
      (v.getLsbD 0 = true → (t.part p).halt = true ∧ (t.part p).tpend = P.tpend ||| 0b00100) ∧
      (v.getLsbD 0 = false → t.part p = { P with step := v.getLsbD 1 }) ∧ ∀ q, q ≠ p → t.part q = s.part q)) ∧
    (let stepped := counts ∧ P.step = true ∧ (∃ c ∈ s.threads p, c.stepped = true) ∧ (∀ c ∈ s.threads p, c.stepped = true ∨ c.ready = false) ∧
       ∀ e, s.partOf e = p → ∀ G ∈ (s.die e).active.groups, G.glds = []
     (¬stepped → idle s (.stepHalt p)) ∧ (stepped → raises (.stepHalt p) 0b01000)) ∧
    ∀ (gid lo : Nat) (G : Group) (h : Hood), s.group d gid = some G → G.hood lo = some h →
      let held := h.ctl.wait = .merge ∧ 64 ≤ h.ctl.heldFor ∧ s.running d = true
      (¬held → idle s (.mergeHoldTimeout d gid lo)) ∧
      (held → yields s (.mergeHoldTimeout d gid lo) fun t => ∃ H, t.group d gid = some H ∧
        H.hood lo = some { h with ctl := { h.ctl with wait := .none, heldFor := 0, merged := true } } ∧ H.lanes = G.lanes)

/-- The events of halts, deliveries, slices and steps; one whose condition does not hold leaves the state as it is (log 40). -/
def Obligations.HaltEvents : Prop := Claims.HaltsCompleteAndDeliver ∧ Claims.SlicesAndSteps

/-- R323, R335, R336: swaps. sys.swap exchanges the banks of a stopped die with the context in the shadow bank, while no carder holds a command of the context
that leaves; SAVE, LOAD and CREATE work on the shadow bank; what they refuse raises BARUSE in the supervisor wave, and a save area outside the pools PROT (R42). That contexts are
kept whole, their area holding only a number, and what SAVE leaves, is the model's choice (logs 7, 18). A LOAD that meets a line in error raises ECC there
(R43), a SAVE rewrites its lines, and an area on the move stalls both (R54). -/
def Sys2Proof.Claims.ContextsSwap : Prop :=
  ∀ (s : State) (d : DieId) (c : Ctx),
    let D := s.die d
    let others := fun (t : State) => t.mem = s.mem ∧ t.parts = s.parts ∧ ∀ e, e ≠ d → t.die e = s.die e
    let refusesIn := fun (i : Instr) => yields s i fun t => others t ∧ (t.die d).active = D.active ∧ (t.die d).shadow = D.shadow ∧
      (t.die d).svepc = D.sv.svPc.lo ∧ ∀ l ∈ (t.die d).sv.lanes, l.ctl.pc = pair (D.trapvec + 64) D.sv.svPc.hi
    let may := halted s d ∧ D.shState = 1 ∧ D.shadow.ctx = c ∧ D.carderHolds D.active.ctx = false
    (¬may → refusesIn (.contextSwap d c)) ∧
    (may → yields s (.contextSwap d c) fun t => others t ∧ (t.die d).active = D.shadow ∧ (t.die d).shadow = D.active ∧ (t.die d).swapBusy = true ∧
      (t.die d).shState = (if D.active.ctx = 0 then 0 else 1) ∧ (t.die d).carders = D.carders) ∧
    (D.swapBusy = false → idle s (.swapComplete d)) ∧
    (D.swapBusy = true → yields s (.swapComplete d) fun t => others t ∧ (t.die d).swapBusy = false ∧ (t.die d).shadow = D.shadow) ∧
    (D.shState ≠ 1 → refusesIn (.shadowSave d)) ∧
    (D.shState = 1 → yields s (.shadowSave d) fun t => others t ∧ t.die d = { D with shState := 2, shOp := some .save }) ∧
    (D.shState = 2 → refusesIn (.shadowLoad d c)) ∧
    (D.shState ≠ 2 → yields s (.shadowLoad d c) fun t => others t ∧ t.die d = { D with shState := 2, shOp := some (.load c) }) ∧
    (D.shState ≠ 0 → refusesIn (.shadowCreate d c)) ∧
    (D.shState = 0 → yields s (.shadowCreate d c) fun t => others t ∧ t.die d = { D with shState := 1, shadow := { ctx := c } }) ∧
    (D.shOp = none → idle s (.shadowOpComplete d)) ∧
    (∀ op, D.shOp = some op → s.areaBad d = true → yields s (.shadowOpComplete d) fun t => others t ∧ (t.die d).shOp = none ∧
      (t.die d).shState = (if D.shadow.ctx = 0 then 0 else 1) ∧ (t.die d).active = D.active ∧ (t.die d).shadow = D.shadow ∧ t.saves = s.saves ∧
      (t.die d).svepc = D.sv.svPc.lo ∧ (D.sv.shared.wf = true → (t.die d).sv.shared.read (svTrapFrameAt + 64) = Cause.prot)) ∧
    (∀ op, D.shOp = some op → s.areaBad d = false → s.areaStalled d = true → idle s (.shadowOpComplete d)) ∧
    (∀ l, D.shOp = some (.load c) → s.areaBad d = false → s.areaStalled d = false → s.areaLine d = some l → yields s (.shadowOpComplete d) fun t =>
      others t ∧ (t.die d).shOp = none ∧ (t.die d).active = D.active ∧ (t.die d).shadow = D.shadow ∧ t.saves = s.saves ∧
      (D.sv.shared.wf = true → (t.die d).sv.shared.read (svTrapFrameAt + 64) = Cause.ecc)) ∧
    (D.shOp = some .save → s.areaBad d = false → s.areaStalled d = false → yields s (.shadowOpComplete d) fun t => t.parts = s.parts ∧ (∀ e, e ≠ d → t.die e = s.die e) ∧
      t.die d = { D with shState := 0, shOp := none, shadow := {} } ∧ t.mem = s.mem.writeN D.saveArea (bytesOf 8 s.nextId) ∧
      t.saves = ⟨s.nextId, D.shadow.ctx, d, D.shadow, true⟩ :: s.saves ∧ t.nextId = s.nextId + 1 ∧ t.areaLine d = none) ∧
    (D.shOp = some (.load c) → s.areaBad d = false → s.areaStalled d = false → s.areaLine d = none → yields s (.shadowOpComplete d) fun t => others t ∧ (t.die d).shState = 1 ∧ (t.die d).shOp = none ∧
      (t.die d).active = D.active ∧
      (∀ x, s.saves.find? (fun x => x.id == s.mem.get D.saveArea 8 && x.ctx == c) = some x →
        (t.die d).shadow = { x.bank with removed := [] } ∧ t.saves = s.saves.map fun e => if e.id = x.id then { e with away := false } else e) ∧
      -- an altered area brings contents that are undefined, but within the partition (R5)
      (s.saves.find? (fun x => x.id == s.mem.get D.saveArea 8 && x.ctx == c) = none → (t.die d).shadow.ctx = c ∧
        (∀ h ∈ (t.die d).shadow.handles, h.ctx = c) ∧ (∀ G ∈ (t.die d).shadow.groups, G.gid ≠ 0 ∧ G.launch = 0) ∧
        (∀ i ∈ (t.die d).shadow.interests, i.rank = none ∧ ∀ e, routerDie i.home = some e → s.partOf e = s.partOf d) ∧
        (∀ o ∈ (t.die d).shadow.offers, o.rank = none ∧ ∀ e, routerDie o.home = some e → s.partOf e = s.partOf d) ∧
        s.poolOk (t.die d).shadow.rtab.toNat = false ∧ s.poolOk (t.die d).shadow.ptroot.toNat = false))

/-- R54: migration. sys.migctl is the partition's; a frame that may migrate stalls; when the move is over it has its new home, and its bytes are what they were
where no queue of it was written back. -/
def Sys2Proof.Claims.FramesMigrate : Prop :=
  ∀ (s : State),
    (∀ (d : DieId) (v : Word), yields s (.migctlWrite d v) fun t => (t.part (s.partOf d)).migctl = v.getLsbD 0 ∧ t.dies = s.dies ∧ t.mem = s.mem) ∧
    (∀ f dst rest, headed s (.migrate f dst) rest →
      (s.ready = true → s.mayMigrate f dst = true → exec .migrationStart s = .next { s with inbox := rest, moving := s.moving ++ [⟨f, dst⟩] }) ∧
      (s.ready = false ∨ s.mayMigrate f dst = false → exec .migrationStart s = .next { s with inbox := rest })) ∧
    (∀ f, s.moving.find? (·.frame == f) = none → idle s (.migrationComplete f)) ∧
    -- a queue of the frame that must be written back into a frame whose migration began before waits for that
    (∀ f m, s.moving.find? (·.frame == f) = some m → ∀ q ∈ (s.die (s.homeOf (f * 2 ^ 21))).queues, poolOf q.desc = 0 → q.desc / 2 ^ 21 = f →
      ({ s with moving := s.moving.takeWhile fun x => x.frame != f } : State).ringStalled q = true → idle s (.migrationComplete f)) ∧
    ∀ f m, s.moving.find? (·.frame == f) = some m →
      (∀ q ∈ (s.die (s.homeOf (f * 2 ^ 21))).queues, poolOf q.desc = 0 → q.desc / 2 ^ 21 = f →
        ({ s with moving := s.moving.takeWhile fun x => x.frame != f } : State).ringStalled q = false) → yields s (.migrationComplete f) fun t => t.moving = s.moving.filter (·.frame != f) ∧
      t.home.find? (·.1 == f) = some (f, m.dst) ∧ ((∀ d, (s.die d).queues = []) → t.mem = s.mem)

/-- The events of context swaps and of migration; one whose condition does not hold leaves the state as it is (log 40). -/
def Obligations.ContextEvents : Prop := Claims.ContextsSwap ∧ Claims.FramesMigrate

/-- R9, R12, R324, R361 to R364, R381: power-on and layouts. A trusted image brings the module up step by step: the firmware is measured, HBM4E is filled with
zeros, the dies get their routes and each its supervisor wave at sys.svboot, its registers zero, in layout 0, and READY rises; an image that is not trusted,
or a step that fails or is out of time, leaves READY low and reports the step, and what step 1 measured stays. What has failed in service
stays failed (the model's reading, log 44), and so does what the CXL devices hold (log 25). A layout is accepted only as aligned runs of dies that are idle; what a
new partition holds is the model's choice (log 24). -/
def Sys2Proof.Claims.ModuleBringsUp : Prop :=
  ∀ (s : State) (rest : List Input),
    let fails := fun (n : Nat) (i : Instr) => yields s i fun t => t.ready = false ∧ t.boot = none ∧ t.bringup = n - 1 ∧ t.fwMeas = s.fwMeas ∧
      ∃ reason, t.out = s.out ++ [.bringupFailed n reason]
    (∀ b, headed s (.bringup b) rest → yields s .powerOnBringup fun t => t.inbox = rest ∧ t.ready = false ∧ t.boot = some b ∧ t.bringup = 0 ∧ t.clock = 0 ∧
      t.mem = s.mem ∧ t.badLines = s.badLines ∧ t.harvested = s.harvested ∧ t.out = s.out ∧ t.parts = State.reset.parts ∧ ∀ d, t.partOf d = 0) ∧
    (∀ b, s.boot = some b → (∀ c r, s.inbox ≠ .bringup c :: r) →
      let step := s.bringup + 1
      let bad := (step = 1 ∧ b.trusted = false) ∨ ∃ k, b.fails = some k ∧ step = k.val + 2
      let goes := fun (P : State → Prop) => yields s .powerOnBringup fun t => t.inbox = s.inbox ∧ t.bringup = step ∧ t.out = s.out ∧ P t
      (bad → step ≠ 5 → fails step .powerOnBringup) ∧
      (step = 1 → ¬bad → goes fun t => t.fwMeas = b.measurement ∧ t.ready = s.ready ∧ t.boot = some b ∧ t.mem = s.mem ∧ t.dies = s.dies) ∧
      (step = 2 → ¬bad → goes fun t => t = { s with bringup := 2 }) ∧
      (step = 3 → ¬bad → goes fun t => t.fwMeas = s.fwMeas ∧ t.ready = s.ready ∧ t.boot = some b ∧ t.dies = s.dies ∧
        (∀ a, s.mem.wf = true → t.mem.read a = if poolOf a = 0 then 0 else s.mem.read a) ∧
        ∀ l, l ∈ t.badLines ↔ l ∈ s.badLines ∧ poolOf (64 * l) ≠ 0) ∧
      (step = 4 → ¬bad → goes fun t => t.fwMeas = s.fwMeas ∧ t.ready = s.ready ∧ t.boot = some b ∧ t.mem = s.mem ∧
        (∀ r, r ∈ t.harvested ↔ r ∈ b.harvested ∨ r ∈ s.harvested) ∧ t.route = b.routes.map (fun r => (r.1, r.2.take 4)) ∧
        ∀ d b', b.dies[d.val]? = some b' → (t.die d).svboot = b'.svboot ∧ (t.die d).trapvec = b'.trapvec &&& ~~~3 ∧ (t.die d).handler = false ∧
          (∀ c, c ∈ (t.die d).failed ↔ c ∈ b'.failed ∨ c ∈ (s.die d).failed) ∧
          (t.die d).sv.shared = [] ∧ ∀ l ∈ (t.die d).sv.lanes, l.ctl.pc = b'.svboot ∧ ∀ n, vget l.g n 0 = 0) ∧
      (step = 5 → goes fun t => t = { s with bringup := 5, ready := true, boot := none })) ∧
    (∀ step reason, headed s (.timeout step reason) rest →
      let runs := s.boot ≠ none ∧ step = s.bringup + 1 ∧ step ≤ 4
      (¬runs → exec .bringupTimeout s = .next { s with inbox := rest }) ∧
      (runs → yields s .bringupTimeout fun t => t.ready = false ∧ t.boot = none ∧ t.bringup = step - 1 ∧ t.fwMeas = s.fwMeas ∧
        (∀ d, (t.die d).sv.lanes = (State.reset.die d).sv.lanes) ∧ t.out = s.out ++ [.bringupFailed step reason])) ∧
    ∀ v, headed s (.layout v) rest →
      let l := layoutOf v
      let may := s.ready = true ∧ v.toNat < 2 ^ 24 ∧ layoutOk l = true ∧ ∀ d, s.dieIdle d = true
      (¬may → exec .partitionLayoutWrite s = .next { s with inbox := rest }) ∧
      (may → yields s .partitionLayoutWrite fun t => t.layout = l ∧ t.inbox = rest ∧ t.dies = s.dies ∧
        ∀ p, (∃ d, (s.layout.get d = p) ≠ (l.get d = p)) → (t.part p).halt = true ∧ (t.part p).complete = true ∧ (t.part p).migctl = true ∧ (t.part p).attCount = 0)

/-- R91, R220 to R223, R360, R362, R364, R381: what the management block does. Flit errors replay; a lane is spared; a replayed header's failure retires the
link; routes are written, four ports to a rank; heat is noted, and a shutdown halts every partition with ECC and drops READY; a core's failure is marked;
a router that fails resets the partitions it served; soft errors are counted; keys are written; a report is sent, signed. The shutdown's record, what a
partition reset takes away and the report's form are the model's choices (logs 26 to 28). -/
def Sys2Proof.Claims.ManagementBlockActs : Prop :=
  ∀ (s : State) (rest : List Input),
    let after := fun (i : Instr) (x : Input) (t : State) => headed s x rest → exec i s = .next t
    let u : State := { s with inbox := rest }
    (∀ n : Fin 36, (s.link n.val).retired = true → after .linkFlitError (.flitError n) u) ∧
    (∀ n : Fin 36, headed s (.flitError n) rest → (s.link n.val).retired = false → yields s .linkFlitError fun t =>
      t.link n.val = { s.link n.val with replays := (s.link n.val).replays + 1 }) ∧
    (∀ n lane, headed s (.spare n lane) rest → (s.link n.val).retired = false → yields s .laneSparing fun t =>
      t.link n.val = { s.link n.val with spared := some lane } ∧ ∀ m, m ≠ n → t.link m.val = s.link m.val) ∧
    (∀ n : Fin 36, headed s (.headerCrc n false) rest → (s.link n.val).retired = false → yields s .headerCrcFailure fun t =>
      t.link n.val = { s.link n.val with replays := (s.link n.val).replays + 1 }) ∧
    (∀ n : Fin 36, headed s (.headerCrc n true) rest → (s.link n.val).retired = false → yields s .headerCrcFailure fun t => (t.link n.val).retired = true ∧
      ∀ e ∈ (s.link n.val).sent, ∀ d, e.die = some d → e.head.ctx ≠ 0 → (t.part (s.partOf d)).halt = true) ∧
    (∀ rank ports, after .podRouteTableWrite (.route rank ports) { u with route := (rank, ports.take 4) :: s.route.filter (·.1 != rank) }) ∧
    (∀ d, headed s (.throttle d) rest → yields s .thermalThrottle fun t => t.inbox = rest ∧ t.mem = s.mem ∧ t.parts = s.parts ∧
      t.die d = { s.die d with throttled := true }) ∧
    (headed s .shutdown rest → (∀ p, (s.part p).complete = false) → yields s .thermalShutdown fun t => t.ready = false ∧ t.dies = s.dies ∧ t.bringup = s.bringup ∧
      ∀ d, (t.part (s.partOf d)).halt = true ∧ (t.part (s.partOf d)).tpend.getLsbD 1 = true) ∧
    (∀ d core, headed s (.coreFails d core) rest → core < 100 → yields s .coreFailure fun t => core ∈ (t.die d).failed ∧ (t.die d).retired = (s.die d).retired ∧
      ∀ e, e ≠ d → t.die e = s.die e) ∧
    (∀ r, s.harvested.contains r = true → after .routerFailure (.routerFails r) u) ∧
    (∀ r d, headed s (.routerFails r) rest → s.harvested.contains r = false → routerDie r = some d → yields s .routerFailure fun t =>
      t.harvested = r :: s.harvested ∧ t.mem = s.mem ∧ (∀ e, s.partOf e = s.partOf d → (t.die e).active = {} ∧ (t.die e).shadow = {} ∧ (t.die e).scratch = []) ∧
      (∀ x ∈ t.stores, x.part ≠ s.partOf d) ∧ ∀ x ∈ t.launches, x.part ≠ s.partOf d) ∧
    (∀ d, headed s (.softError d) rest → yields s .softErrorCorrected fun t => t.die d = { s.die d with softErrs := (s.die d).softErrs + 1 } ∧ t.mem = s.mem) ∧
    (∀ i k, headed s (.keyWrite (.key i k)) rest → yields s .keySlotWrite fun t => t.keys.get i = { s.keys.get i with key := k }) ∧
    (∀ i on, headed s (.keyWrite (.enable i on)) rest → yields s .keySlotWrite fun t => t.keys.get i = { s.keys.get i with enabled := on }) ∧
    (∀ p m, headed s (.keyWrite (.mask p m)) rest → yields s .keySlotWrite fun t => t.part p = { s.part p with keymask := m }) ∧
    (headed s .measurements rest → yields s .spdmMeasurements fun t => t.mem = s.mem ∧ t.parts = s.parts ∧ ∃ sig, t.out = s.out ++
      [.measurements s.fwMeas (allDies.map fun p => ((s.part p).attValue, (s.part p).attCount)) sig])

/-- R43, R100, R117, R217, R234, R310, R317, R355: an uncorrectable error halts with ECC the partition of the engine that meets it, or, in a line of sync variables, the
partitions that own one there, and the line, tile or chunk is noted as in error. The record of the sync engine names the line; a division stops at its micro-step, with no register changed,
and begins again. Which lines a site names is the model's reading (log 14). -/
def Sys2Proof.Claims.MemoryErrorsHalt : Prop :=
  ∀ (s : State) (rest : List Input) (site : EccSite), headed s (.ecc site) rest →
    (s.ready = false → exec .eccUncorrectable s = .next { s with inbox := rest }) ∧
    (s.ready = true →
      let meets := fun (d : DieId) (P : State → Prop) => yields s .eccUncorrectable fun t => haltsWith s t d Cause.ecc ∧
        (t.part (s.partOf d)).tpend.getLsbD 1 = true ∧ t.mem = s.mem ∧ (∀ q, q ≠ s.partOf d → t.part q = s.part q) ∧ P t
      (∀ d da, site = .memory d da → meets d fun t => da / 64 ∈ t.badLines) ∧
      (∀ d core sp gid a, site = .localMem d core sp gid a → meets d fun t => t.badLines = s.badLines ∧
        (sp, if sp = 1 then 0 else gid, a / 16) ∈ (t.die d).badLocal) ∧
      (∀ d core gid n G, site = .tile d core gid n → s.group d gid = some G → meets d fun t => t.badLines = s.badLines ∧
        ∃ G', t.group d gid = some G' ∧ n ∈ G'.badTiles) ∧
      (∀ d da, site = .sync d da →
        let owns := fun (p : PartId) => (∃ e ∈ (s.die d).held, e.1 = da / 64 ∧ p ∈ e.2) ∨
          (∃ r ∈ s.reqs, r.part = p ∧ r.width ≠ 0 ∧ r.addr / 64 = da / 64 ∧ r.reply = none) ∨ ∃ q ∈ (s.die d).queues, q.part = p ∧ q.desc / 64 = da / 64
        (∀ p, owns p → ∃ e, s.partOf e = p) → yields s .eccUncorrectable fun t => da / 64 ∈ t.badLines ∧ t.mem = s.mem ∧
          ∀ p, (owns p → (t.part p).halt = true ∧ (t.part p).tpend.getLsbD 1 = true ∧ ((s.part p).halt = false →
              ∃ f, (t.part p).pending = some f ∧ f.slot = 248 ∧ f.stop.cause = Cause.ecc ∧ f.stop.faddr.toNat = da / 64 * 64 % 2 ^ 64)) ∧
            (¬owns p → t.part p = s.part p)) ∧
      (∀ d gid x k, site = .division d gid x k →
        let runs := fun (w : Who) (i : Instr) => s.standsAt d gid x = some (w, i) ∧ w.xs ≠ [] ∧ (s.running d = true ∨ gid = 0) ∧ 1 ≤ k ∧ k < divisionSteps i
        ((¬∃ w i, runs w i) → exec .eccUncorrectable s = .next { s with inbox := rest }) ∧
        ∀ w i, runs w i → gid ≠ 0 → meets d fun t =>
          t.group d gid = (s.group d gid).map (fun G => G.modCtl w.hood w.all fun _ c => { c with prog := k, wait := .fault }) ∧
          ((s.part (s.partOf d)).halt = false → ∃ f, (t.part (s.partOf d)).pending = some f ∧ f.stop.pc = w.pc ∧ f.stop.q18.toNat = k)) ∧
      (∀ d k q, site = .queue d k → (s.die d).queues[k]? = some q → s.partOf d = q.part → meets d fun _ => True) ∧
      (∀ k c, site = .counters k → s.sets[k]? = some c → s.partOf c.die = c.part → meets c.die fun _ => True) ∧
      (∀ d n k c x, site = .store (.crown d n) k c → (s.stores.filter (·.at_ == Router.crown d n))[k]? = some x → s.partOf d = x.part →
        meets d fun t => ∃ y ∈ t.stores, y.name = x.name ∧ y.at_ = x.at_ ∧ c ∈ y.bad))

/-- R310: a line in error stays so over the halt, its delivery and the return from it, and every read of it meets the error again, until it is rewritten: a
write of bytes of the line ends it, in main memory and in local memory. That any written byte of it does is the model's choice (log 14). -/
def Sys2Proof.Claims.ErrorsLastUntilRewritten : Prop :=
  (∀ (s t : State) (i : Instr), (∃ p, i = .haltComplete p) ∨ (∃ d, i = .eventDelivery d) ∨ i = .trapret → exec i s = .next t →
    t.badLines = s.badLines) ∧
  (∀ (s : State) (a n line : Nat) (bs : List Byte), bs.length = n →
    (line ∈ (s.writeDa a bs).badLines ↔ line ∈ s.badLines ∧ ∀ j < n, (a + j) / 64 ≠ line)) ∧
  (∀ (s : State) (d : DieId) (agent : Nat) (sup : Bool) (va : DWord) (da : Nat), s.translate d agent sup va .read = .ok da → da / 64 ∈ s.badLines →
    s.readVa d agent sup va 1 = .fault Cause.ecc va) ∧
  ∀ (s : State) (d : DieId) (gid x sp a line : Nat) (bs : List Byte), sp ≤ 1 →
    let key := (sp, if sp = 1 then 0 else gid, line)
    (key ∈ ((s.writeLocal d gid x sp a bs).die d).badLocal ↔ key ∈ (s.die d).badLocal ∧ ∀ j < bs.length, (a + j) / 16 ≠ line)

namespace Sys2Proof.Claims

/-- While the loader writes bytes at a virtual address, page by page, the translation of the pages stays as it was, and no two of them share a page of memory. -/
def steady (x : State) (p : PartId) (c : Ctx) (va : Nat) (bs : List Byte) : Prop :=
  let P := pagesOf va bs.length
  (∀ k, ∀ a ∈ P, (x.loaderPages p c va bs (P.take k)).2.loaderVa p c a = x.loaderVa p c a) ∧
  ∀ a ∈ P, ∀ b ∈ P, a ≠ b → ∀ das dbs, x.loaderVa p c a = .ok das → x.loaderVa p c b = .ok dbs → ∀ da ∈ das, ∀ db ∈ dbs, da / 4096 ≠ db / 4096
/-- The bytes stand at a virtual address of a context, in the pages that the tables of `x` give it on each die; every other byte is as in `x`. -/
def standAt (x : State) (p : PartId) (c : Ctx) (va : Nat) (bs : List Byte) (y : State) : Prop :=
  let part := fun (a : Nat) => min (4096 - a % 4096) (bs.length - (a - va))
  (∀ a ∈ pagesOf va bs.length, ∀ das, x.loaderVa p c a = .ok das → ∀ da ∈ das, ∀ j < part a, y.mem.read (da + j) = bs.getD (a - va + j) 0) ∧
  ∀ q, (∀ a ∈ pagesOf va bs.length, ∀ das, x.loaderVa p c a = .ok das → ∀ da ∈ das, q < da ∨ da + part a ≤ q) → y.mem.read q = x.mem.read q
/-- The segments' contents are written at their addresses, one after the other. -/
def placed (x : State) (p : PartId) (c : Ctx) (src : Nat) : List Segment → State → Prop
  | [], z => z = x
  | g :: gs, z => ∃ y, x.loaderWrite p c g.va (x.mem.readN (src + g.off) g.len) = (true, y) ∧ placed y p c src gs z
/-- No resident queue of a context is to be written back. -/
def noQueues (s : State) (p : PartId) (c : Ctx) : Prop := ∀ d, ∀ q ∈ (s.die d).queues, ¬(q.part = p ∧ q.ctx = c)
/-- Memory differs by X set, and W cleared, in entries at most. -/
def onlyX (x y : State) : Prop := ∀ a, y.mem.read a = x.mem.read a ∨ y.mem.read a = (x.mem.read a ||| 0x08) &&& ~~~0x04

end Sys2Proof.Claims

/-- R42, R54, R310, R337 to R346, R348, R349, R351: the loader's commands, read from the ring in memory slot by slot. They are dropped while READY is low and wait
while a frame moves, and a LOAD for what its context has translated; a reserved field answers 0xFF; a container that is not sound answers 1 and a segment
whose key, signature or measurement fails
answers its code, and neither changes anything but the status; one in a line in error halts the partition; a load that succeeds leaves the bytes of each segment at
its address, in order, then the descriptor's and the area's, and after them changes X and W of entries alone, and what queues of the context write back; ICINV discards the blocks from SRC to
SRC + LEN − 1 on the dies it names; READATT writes the attestation record; a publication, in the translation area of its context alone, leaves its words at
their addresses. A status outside the pools raises PROT.
Which codes answer what the spec leaves open, and how many slots the ring has, are the model's choice (log 22). -/
def Sys2Proof.Claims.LoaderCommands : Prop :=
  ∀ (s : State) (rest : List Input),
    let u : State := { s with inbox := rest }
    (∀ (p : PartId) (c : Ctx) (va : Nat) (bs : List Byte) (y : State), s.mem.wf = true → steady s p c va bs → s.loaderWrite p c va bs = (true, y) →
      standAt s p c va bs y) ∧
    (∀ (i : Instr), headed s .loader rest →
      i = .loaderLoad ∨ i = .loaderIcinv ∨ i = .loaderReadatt ∨ i = .loaderInvalidCommand →
      let a := s.ringBase.toNat + 64 * s.ringHead
      let q := LoaderCmd.of (s.mem.readN a 64)
      let p := commandPart q
      let u : State := { u with ringHead := if s.ringHead + 1 = Config.ringSlots then 0 else s.ringHead + 1 }
      let answers := fun (code : Nat) => exec i s = .next (u.loaderStatus q p code)
      let there := s.poolOk a = true ∧ s.badIn a 64 = none
      let waits := there ∧ q.opc = 1 ∧ commandBad q = false ∧ s.quiet p (q.ctx.setWidth 12) = false
      (s.ready = false → exec i s = .next { s with inbox := rest }) ∧
      (s.ready = true → s.moving ≠ [] ∨ waits → idle s i) ∧
      (s.ready = true → s.moving = [] → ¬there → exec i s = .next u) ∧
      (s.ready = true → s.moving = [] → there → ¬waits → (commandBad q = true ∨ i = .loaderInvalidCommand → answers 0xFF) ∧
        (commandBad q = false → i = .loaderLoad →
          (s.container q.src.toNat q.len.toNat = .bad → answers 1) ∧
          (∀ line, s.container q.src.toNat q.len.toNat = .lost line → (∃ d, s.partOf d = p) → yields s i fun t => (t.part p).halt = true ∧
            (t.part p).tpend.getLsbD 1 = true) ∧
          ∀ gs, s.container q.src.toNat q.len.toNat = .sound gs →
            (∀ code, gs.findSome? (s.segmentFails p q.src.toNat) = some code → answers code) ∧
            (∀ v, gs.findSome? (s.segmentFails p q.src.toNat) = none → u.loadContainer p q = (0, v) →
              (yields s i fun t => t = v.loaderStatus q p 0 ∧ (t.part p).attCount = (s.part p).attCount + BitVec.ofNat 32 gs.length) ∧
              ∃ x y z mode, placed u p (q.ctx.setWidth 12) q.src.toNat gs x ∧ (bodiesOf gs).mode = some mode ∧
                x.loaderWrite p (q.ctx.setWidth 12) q.desc.toNat ((bodiesOf gs).descriptor mode) = (true, y) ∧
                y.fillArea p (q.ctx.setWidth 12) q.src.toNat (bodiesOf gs) (x.areaOf q q.src.toNat mode (bodiesOf gs)) = (true, z) ∧
                (noQueues s p (q.ctx.setWidth 12) → onlyX z v))) ∧
        (commandBad q = false → i = .loaderIcinv → yields s i fun t => ∀ d e, e ∈ (t.die d).icache ↔ e ∈ (s.die d).icache ∧
          (q.dies.getLsbD d.val = true → e.agent = none ∧
            ¬(q.src.toNat / 4096 ≤ e.line / 32 ∧ e.line / 32 * 4096 < q.src.toNat + q.len.toNat))) ∧
        (commandBad q = false → i = .loaderReadatt → s.poolOk q.src.toNat = true → s.poolOk (q.src.toNat + 79) = true →
          exec i s = .next ((u.writeDa q.src.toNat (s.attRecord p)).loaderStatus q p 0)) ∧
        (commandBad q = false → i = .loaderReadatt → s.poolOk q.src.toNat = false ∨ s.poolOk (q.src.toNat + 79) = false → answers 5))) ∧
    (∀ (q : LoaderCmd) (p : PartId) (code : Nat), s.poolOk q.status.toNat = false ∨ poolOf q.status.toNat ≠ 0 → (∃ d, s.partOf d = p) →
      ((u.loaderStatus q p code).part p).halt = true ∧ (u.loaderStatus q p code).mem = s.mem ∧ ((s.part p).halt = false →
        ∃ f, ((u.loaderStatus q p code).part p).pending = some f ∧ f.stop.cause = Cause.prot ∧ f.stop.faddr = q.status)) ∧
    (∀ (q : LoaderCmd) (p : PartId) (code : Nat), u.memWf → q.status.toNat % 8 = 0 → poolOf q.status.toNat = 0 → s.poolOk q.status.toNat = true →
      (u.loaderStatus q p code).mem.get q.status.toNat 8 = code % 2 ^ 64 ∧
      ∀ a, a < q.status.toNat ∨ q.status.toNat + 8 ≤ a → (u.loaderStatus q p code).mem.read a = s.mem.read a) ∧
    ∀ (x : Publication), headed s (.publish x) rest →
      let bytes := x.words.flatMap fun w => bytesOf 4 w.toNat
      (s.ready = false → exec .translationPublish s = .next u) ∧
      (s.ready = true → s.moving ≠ [] ∨ s.quiet x.part x.ctx = false → idle s .translationPublish) ∧
      (s.ready = true → s.moving = [] → s.quiet x.part x.ctx = true →
        (u.areaAt x.part x.ctx x.addr.toNat bytes.length = none → exec .translationPublish s = .next u) ∧
        ∀ A v, u.areaAt x.part x.ctx x.addr.toNat bytes.length = some A →
          let inside := ∀ e ∈ x.pairs, (A.base.toNat ≤ e.1.toNat ∧ e.1.toNat < A.base.toNat + A.size) ∧ A.area.toNat ≤ e.2.toNat ∧
            e.2.toNat < A.area.toNat + A.bytes
          (¬inside → exec .translationPublish s = .next u) ∧
          (inside → u.loaderWrite x.part x.ctx x.addr.toNat bytes = (true, v) →
            yields s .translationPublish fun t => (t.part x.part).attCount = (s.part x.part).attCount + 1 ∧
              (noQueues s x.part x.ctx → onlyX v t) ∧ (s.mem.wf = true → steady u x.part x.ctx x.addr.toNat bytes → standAt u x.part x.ctx x.addr.toNat bytes v)))

/-- The events of the management block and of the loader; one whose condition does not hold leaves the state as it is (log 40). -/
def Obligations.ManagementEvents : Prop := Claims.ModuleBringsUp ∧ Claims.ManagementBlockActs ∧ Claims.MemoryErrorsHalt ∧ Claims.ErrorsLastUntilRewritten ∧ Claims.LoaderCommands
end

