-- ==== Sys2Proof/Laws/Decode.lean ====
section
/-! SUPPORT. Each format's fields read back from its word (R17, R18), and each modifier from its code (R13, R26, R28, R30, R31). -/
namespace Sys2Proof

theorem FR.of_word (f : FR) : FR.of f.word = f := by
  obtain ⟨x0, x1, x2, x3, x4, x5⟩ := f
  have h : ∀ i, BitVec.getLsbD (w := 32) (x0 ++ x1 ++ x2 ++ x3 ++ x4 ++ x5) i = BitVec.getLsbD (w := 7 + 6 + 6 + 6 + 4 + 3) (x0 ++ x1 ++ x2 ++ x3 ++ x4 ++ x5) i := fun _ => rfl
  simp only [FR.of, FR.word, FR.mk.injEq]
  refine ⟨?_, ?_, ?_, ?_, ?_, ?_⟩ <;> refine BitVec.eq_of_getLsbD_eq fun i hi => ?_ <;>
    simp (disch := omega) only [BitVec.getLsbD_extractLsb', h, BitVec.getLsbD_append, hi, decide_true, Bool.true_and, if_pos, if_neg] <;>
    (congr 1; omega)

theorem FR.opcode_word (f : FR) : opcode f.word = f.op.toNat := by
  have h := congrArg FR.op (FR.of_word f)
  exact congrArg BitVec.toNat h

theorem FI.of_word (f : FI) : FI.of f.word = f := by
  obtain ⟨x0, x1, x2, x3⟩ := f
  have h : ∀ i, BitVec.getLsbD (w := 32) (x0 ++ x1 ++ x2 ++ x3) i = BitVec.getLsbD (w := 7 + 6 + 6 + 13) (x0 ++ x1 ++ x2 ++ x3) i := fun _ => rfl
  simp only [FI.of, FI.word, FI.mk.injEq]
  refine ⟨?_, ?_, ?_, ?_⟩ <;> refine BitVec.eq_of_getLsbD_eq fun i hi => ?_ <;>
    simp (disch := omega) only [BitVec.getLsbD_extractLsb', h, BitVec.getLsbD_append, hi, decide_true, Bool.true_and, if_pos, if_neg] <;>
    (congr 1; omega)

theorem FI.opcode_word (f : FI) : opcode f.word = f.op.toNat := by
  have h := congrArg FI.op (FI.of_word f)
  exact congrArg BitVec.toNat h

theorem FK.of_word (f : FK) : FK.of f.word = f := by
  obtain ⟨x0, x1, x2, x3, x4⟩ := f
  have h : ∀ i, BitVec.getLsbD (w := 32) (x0 ++ x1 ++ x2 ++ x3 ++ x4) i = BitVec.getLsbD (w := 7 + 6 + 8 + 8 + 3) (x0 ++ x1 ++ x2 ++ x3 ++ x4) i := fun _ => rfl
  simp only [FK.of, FK.word, FK.mk.injEq]
  refine ⟨?_, ?_, ?_, ?_, ?_⟩ <;> refine BitVec.eq_of_getLsbD_eq fun i hi => ?_ <;>
    simp (disch := omega) only [BitVec.getLsbD_extractLsb', h, BitVec.getLsbD_append, hi, decide_true, Bool.true_and, if_pos, if_neg] <;>
    (congr 1; omega)

theorem FK.opcode_word (f : FK) : opcode f.word = f.op.toNat := by
  have h := congrArg FK.op (FK.of_word f)
  exact congrArg BitVec.toNat h

theorem FM.of_word (f : FM) : FM.of f.word = f := by
  obtain ⟨x0, x1, x2, x3, x4, x5⟩ := f
  have h : ∀ i, BitVec.getLsbD (w := 32) (x0 ++ x1 ++ x2 ++ x3 ++ x4 ++ x5) i = BitVec.getLsbD (w := 7 + 6 + 5 + 6 + 4 + 4) (x0 ++ x1 ++ x2 ++ x3 ++ x4 ++ x5) i := fun _ => rfl
  simp only [FM.of, FM.word, FM.mk.injEq]
  refine ⟨?_, ?_, ?_, ?_, ?_, ?_⟩ <;> refine BitVec.eq_of_getLsbD_eq fun i hi => ?_ <;>
    simp (disch := omega) only [BitVec.getLsbD_extractLsb', h, BitVec.getLsbD_append, hi, decide_true, Bool.true_and, if_pos, if_neg] <;>
    (congr 1; omega)

theorem FM.opcode_word (f : FM) : opcode f.word = f.op.toNat := by
  have h := congrArg FM.op (FM.of_word f)
  exact congrArg BitVec.toNat h

theorem FB.of_word (f : FB) : FB.of f.word = f := by
  obtain ⟨x0, x1, x2⟩ := f
  have h : ∀ i, BitVec.getLsbD (w := 32) (x0 ++ x1 ++ x2) i = BitVec.getLsbD (w := 7 + 6 + 19) (x0 ++ x1 ++ x2) i := fun _ => rfl
  simp only [FB.of, FB.word, FB.mk.injEq]
  refine ⟨?_, ?_, ?_⟩ <;> refine BitVec.eq_of_getLsbD_eq fun i hi => ?_ <;>
    simp (disch := omega) only [BitVec.getLsbD_extractLsb', h, BitVec.getLsbD_append, hi, decide_true, Bool.true_and, if_pos, if_neg] <;>
    (congr 1; omega)

theorem FB.opcode_word (f : FB) : opcode f.word = f.op.toNat := by
  have h := congrArg FB.op (FB.of_word f)
  exact congrArg BitVec.toNat h

theorem FT.of_word (f : FT) : FT.of f.word = f := by
  obtain ⟨x0, x1, x2, x3, x4, x5, x6, x7, x8, x9⟩ := f
  have h : ∀ i, BitVec.getLsbD (w := 32) (x0 ++ x1 ++ x2 ++ x3 ++ x4 ++ x5 ++ x6 ++ x7 ++ x8 ++ x9) i = BitVec.getLsbD (w := 7 + 4 + 4 + 4 + 3 + 3 + 4 + 1 + 1 + 1) (x0 ++ x1 ++ x2 ++ x3 ++ x4 ++ x5 ++ x6 ++ x7 ++ x8 ++ x9) i := fun _ => rfl
  simp only [FT.of, FT.word, FT.mk.injEq]
  refine ⟨?_, ?_, ?_, ?_, ?_, ?_, ?_, ?_, ?_, ?_⟩ <;> refine BitVec.eq_of_getLsbD_eq fun i hi => ?_ <;>
    simp (disch := omega) only [BitVec.getLsbD_extractLsb', h, BitVec.getLsbD_append, hi, decide_true, Bool.true_and, if_pos, if_neg] <;>
    (congr 1; omega)

theorem FT.opcode_word (f : FT) : opcode f.word = f.op.toNat := by
  have h := congrArg FT.op (FT.of_word f)
  exact congrArg BitVec.toNat h

theorem FS.of_word (f : FS) : FS.of f.word = f := by
  obtain ⟨x0, x1, x2, x3⟩ := f
  have h : ∀ i, BitVec.getLsbD (w := 32) (x0 ++ x1 ++ x2 ++ x3) i = BitVec.getLsbD (w := 7 + 6 + 12 + 7) (x0 ++ x1 ++ x2 ++ x3) i := fun _ => rfl
  simp only [FS.of, FS.word, FS.mk.injEq]
  refine ⟨?_, ?_, ?_, ?_⟩ <;> refine BitVec.eq_of_getLsbD_eq fun i hi => ?_ <;>
    simp (disch := omega) only [BitVec.getLsbD_extractLsb', h, BitVec.getLsbD_append, hi, decide_true, Bool.true_and, if_pos, if_neg] <;>
    (congr 1; omega)

theorem FS.opcode_word (f : FS) : opcode f.word = f.op.toNat := by
  have h := congrArg FS.op (FS.of_word f)
  exact congrArg BitVec.toNat h

theorem FH.of_word (f : FH) : FH.of f.word = f := by
  obtain ⟨x0, x1, x2⟩ := f
  have h : ∀ i, BitVec.getLsbD (w := 32) (x0 ++ x1 ++ x2) i = BitVec.getLsbD (w := 7 + 3 + 22) (x0 ++ x1 ++ x2) i := fun _ => rfl
  simp only [FH.of, FH.word, FH.mk.injEq]
  refine ⟨?_, ?_, ?_⟩ <;> refine BitVec.eq_of_getLsbD_eq fun i hi => ?_ <;>
    simp (disch := omega) only [BitVec.getLsbD_extractLsb', h, BitVec.getLsbD_append, hi, decide_true, Bool.true_and, if_pos, if_neg] <;>
    (congr 1; omega)

theorem FH.opcode_word (f : FH) : opcode f.word = f.op.toNat := by
  have h := congrArg FH.op (FH.of_word f)
  exact congrArg BitVec.toNat h

theorem Scope.ofCode_code (c : Scope) : Scope.ofCode c.code = some c := by cases c <;> rfl
theorem ICond.ofCode_code (c : ICond) : ICond.ofCode c.code = some c := by cases c <;> rfl
theorem FCond.ofCode_code (c : FCond) : FCond.ofCode c.code = some c := by cases c <;> rfl
theorem Width.ofCode_code (c : Width) : Width.ofCode c.code = some c := by cases c <;> rfl
theorem SpillWidth.ofCode_code (c : SpillWidth) : SpillWidth.ofCode c.code = some c := by cases c <;> rfl
theorem GldWidth.ofCode_code (c : GldWidth) : GldWidth.ofCode c.code = some c := by cases c <;> rfl
theorem CWidth.ofCode_code (c : CWidth) : CWidth.ofCode c.code = some c := by cases c <;> rfl
theorem SWidth.ofCode_code (c : SWidth) : SWidth.ofCode c.code = some c := by cases c <;> rfl
theorem NumFmt.ofCode_code (c : NumFmt) : NumFmt.ofCode c.code = some c := by cases c <;> rfl
theorem ShflMode.ofCode_code (c : ShflMode) : ShflMode.ofCode c.code = some c := by cases c <;> rfl
theorem GshflMode.ofCode_code (c : GshflMode) : GshflMode.ofCode c.code = some c := by cases c <;> rfl
theorem VoteMode.ofCode_code (c : VoteMode) : VoteMode.ofCode c.code = some c := by cases c <;> rfl
theorem FRedOp.ofCode_code (c : FRedOp) : FRedOp.ofCode c.code = some c := by cases c <;> rfl
theorem Counter.ofCode_code (c : Counter) : Counter.ofCode c.code = some c := by cases c <;> rfl
theorem CachePolicy.ofCode_code (c : CachePolicy) : CachePolicy.ofCode c.code = some c := by cases c <;> rfl
theorem HintRound.ofCode_code (c : HintRound) : HintRound.ofCode c.code = some c := by cases c <;> rfl
theorem RedOp.ofCode_code (c : RedOp) : RedOp.ofCode c.code = c := by cases c <;> rfl
theorem Order.ofCode_code (c : Order) : Order.ofCode c.code = c := by cases c <;> rfl

end Sys2Proof
end

