-- ==== Sys2Proof/Laws/Memory.lean ====
section
/-! SUPPORT. Laws of the memories: read after write, and that every operation keeps the canonical form. -/
namespace Sys2Proof.Machine

theorem Mem.wfFrom_mono : ∀ {m : Mem} {lo lo' : Nat}, lo' ≤ lo → Mem.wfFrom lo m = true → Mem.wfFrom lo' m = true
  | [], _, _, _, _ => rfl
  | (a, b) :: m, lo, lo', h, hw => by
    simp only [Mem.wfFrom, Bool.and_eq_true, decide_eq_true_eq] at hw ⊢
    exact ⟨⟨by omega, hw.1.2⟩, hw.2⟩

/-- A canonical memory reads 0 below its first entry. -/
theorem Mem.read_below : ∀ {m : Mem} {lo a : Nat}, Mem.wfFrom lo m = true → a < lo → m.read a = 0
  | [], _, _, _, _ => rfl
  | (a', b) :: m, lo, a, hw, h => by
    simp only [Mem.wfFrom, Bool.and_eq_true, decide_eq_true_eq] at hw
    simp only [Mem.read]
    rw [if_neg (by omega), if_pos (by omega)]

/-! ## Writing one byte -/

theorem Mem.write_wfFrom : ∀ {m : Mem} {lo : Nat} (a : Nat) (b : Byte), Mem.wfFrom lo m = true → lo ≤ a →
    Mem.wfFrom lo (m.write a b) = true
  | [], lo, a, b, _, h => by
    by_cases hb : b = 0#8 <;> simp [Mem.write, Mem.wfFrom, hb, h]
  | (a', b') :: m, lo, a, b, hw, h => by
    simp only [Mem.wfFrom, Bool.and_eq_true, decide_eq_true_eq] at hw
    obtain ⟨⟨h1, h2⟩, h3⟩ := hw
    have h2' : b' ≠ 0#8 := by simpa using h2
    simp only [Mem.write]
    by_cases hlt : a < a'
    · by_cases hb : b = 0#8
      · simp [hlt, hb, Mem.wfFrom, h1, h2', h3]
      · have : a + 1 ≤ a' := hlt
        simp [hlt, hb, Mem.wfFrom, h, h2', h3, this]
    · by_cases heq : a = a'
      · subst heq
        by_cases hb : b = 0#8
        · simpa [hb] using Mem.wfFrom_mono (by omega) h3
        · simp [hb, Mem.wfFrom, h, h3]
      · simp only [hlt, heq, if_false, Mem.wfFrom, Bool.and_eq_true, decide_eq_true_eq]
        exact ⟨⟨h1, h2⟩, Mem.write_wfFrom a b h3 (by omega)⟩

theorem Mem.write_wf {m : Mem} (a : Nat) (b : Byte) (h : m.wf = true) : (m.write a b).wf = true :=
  Mem.write_wfFrom a b h (Nat.zero_le a)

theorem Mem.read_write_from : ∀ {m : Mem} {lo : Nat} (a x : Nat) (b : Byte), Mem.wfFrom lo m = true →
    (m.write a b).read x = if x = a then b else m.read x
  | [], _, a, x, b, _ => by
    by_cases hb : b = 0#8 <;> by_cases hx : x = a <;> simp [Mem.write, Mem.read, hb, hx]
  | (a', b') :: m, lo, a, x, b, hw => by
    simp only [Mem.wfFrom, Bool.and_eq_true, decide_eq_true_eq] at hw
    obtain ⟨⟨h1, h2⟩, h3⟩ := hw
    have below : ∀ y, y ≤ a' → Mem.read m y = 0 := fun y hy => Mem.read_below h3 (by omega)
    have ih := Mem.read_write_from a x b h3
    simp only [Mem.write]
    by_cases hlt : a < a'
    · by_cases hb : b = 0
      · simp only [hlt, hb, if_true, Mem.read]
        by_cases hx : x = a
        · subst hx; simp [hlt, Nat.ne_of_lt hlt]
        · simp [hx]
      · simp only [hlt, hb, if_true, if_false, Mem.read]
        by_cases hx : x = a
        · simp [hx]
        · by_cases hx2 : x < a
          · have : x < a' := by omega
            simp [hx, hx2, this, Nat.ne_of_lt this]
          · simp [hx, hx2]
    · by_cases heq : a = a'
      · subst heq
        by_cases hb : b = 0
        · simp only [Nat.lt_irrefl, hb, if_true, if_false, Mem.read]
          by_cases hx : x = a
          · subst hx; simp [below x (Nat.le_refl _)]
          · by_cases hx2 : x < a
            · simp [hx, hx2, below x (by omega)]
            · simp [hx, hx2]
        · simp only [Nat.lt_irrefl, hb, if_true, if_false, Mem.read]
          by_cases hx : x = a <;> simp [hx]
      · simp only [hlt, heq, if_false, Mem.read, ih]
        by_cases hx : x = a
        · subst hx
          simp [heq, hlt]
        · simp [hx]

theorem Mem.read_write {m : Mem} (h : m.wf = true) (a x : Nat) (b : Byte) :
    (m.write a b).read x = if x = a then b else m.read x :=
  Mem.read_write_from a x b h

/-! ## Writing several bytes -/

theorem Mem.writeN_wf : ∀ (bs : List Byte) {m : Mem} (a : Nat), m.wf = true → (m.writeN a bs).wf = true
  | [], _, _, h => h
  | b :: bs, _, a, h => Mem.writeN_wf bs (a + 1) (Mem.write_wf a b h)

theorem Mem.read_writeN : ∀ (bs : List Byte) {m : Mem} (a x : Nat), m.wf = true →
    (m.writeN a bs).read x = if a ≤ x ∧ x < a + bs.length then bs.getD (x - a) 0 else m.read x
  | [], m, a, x, _ => by
    simp [Mem.writeN]
  | b :: bs, m, a, x, h => by
    rw [Mem.writeN, Mem.read_writeN bs (a + 1) x (Mem.write_wf a b h), Mem.read_write h]
    by_cases h1 : x = a
    · subst h1
      simp
    · by_cases h2 : a + 1 ≤ x ∧ x < a + 1 + bs.length
      · have h3 : a ≤ x ∧ x < a + (b :: bs).length := by simp; omega
        rw [if_pos h2, if_pos h3]
        have : x - a = (x - (a + 1)) + 1 := by omega
        rw [this]; simp
      · have h3 : ¬(a ≤ x ∧ x < a + (b :: bs).length) := by simp; omega
        rw [if_neg h2, if_neg h3, if_neg h1]

theorem Mem.writes_wf (l : List (Nat × Byte)) : ∀ {m : Mem}, m.wf = true → (l.foldl (fun m (c : Nat × Byte) => m.write c.1 c.2) m).wf = true := by
  induction l with
  | nil => intro m h; exact h
  | cons c l ih => intro m h; exact ih (Mem.write_wf c.1 c.2 h)

theorem Mem.put_wf {m : Mem} (a n v : Nat) (h : m.wf = true) : (m.put a n v).wf = true := Mem.writeN_wf _ a h

/-! ## Dropping cells, and blocks -/

theorem Mem.filter_wfFrom (p : Host.Cell → Bool) : ∀ {m : Mem} {lo : Nat}, Mem.wfFrom lo m = true → Mem.wfFrom lo (m.filter p) = true
  | [], _, _ => rfl
  | (a, b) :: m, lo, h => by
    simp only [Mem.wfFrom, Bool.and_eq_true, decide_eq_true_eq] at h
    obtain ⟨⟨h1, h2⟩, h3⟩ := h
    have ih := Mem.filter_wfFrom p h3
    by_cases hp : p (a, b) = true
    · have h2' : b ≠ 0#8 := by simpa using h2
      simp [List.filter, hp, Mem.wfFrom, h1, h2', ih]
    · simp only [List.filter, Bool.not_eq_true] at hp ⊢
      rw [hp]
      exact Mem.wfFrom_mono (by omega) ih

theorem Mem.clear_wf {m : Mem} (a n : Nat) (h : m.wf = true) : (m.clear a n).wf = true := Mem.filter_wfFrom _ h

/-- Two canonical parts, one below the other. -/
theorem Mem.append_wfFrom : ∀ {m : Mem} {lo hi : Nat} {m' : Mem}, Mem.wfFrom lo m = true → (∀ c ∈ m, c.1 < hi) → lo ≤ hi →
    Mem.wfFrom hi m' = true → Mem.wfFrom lo (m ++ m') = true
  | [], _, _, _, _, _, hl, h => Mem.wfFrom_mono hl h
  | (a, b) :: m, lo, hi, m', h, hm, hl, h' => by
    simp only [Mem.wfFrom, Bool.and_eq_true, decide_eq_true_eq] at h
    obtain ⟨⟨h1, h2⟩, h3⟩ := h
    have ha : a < hi := hm (a, b) (by simp)
    have ih := Mem.append_wfFrom h3 (fun c hc => hm c (by simp [hc])) (by omega) h'
    have h2' : b ≠ 0#8 := by simpa using h2
    simp [Mem.wfFrom, h1, h2', ih]

theorem Mem.cells_cons (b : Byte) (bs : List Byte) (i : Nat) :
    Mem.block.cells i (b :: bs) = if b = 0 then Mem.block.cells (i + 1) bs else (i, b) :: Mem.block.cells (i + 1) bs := rfl

theorem Mem.cells_wfFrom : ∀ (bs : List Byte) (i lo : Nat), lo ≤ i → Mem.wfFrom lo (Mem.block.cells i bs) = true
  | [], _, _, _ => rfl
  | b :: bs, i, lo, h => by
    rw [Mem.cells_cons]
    split
    · exact Mem.cells_wfFrom bs (i + 1) lo (by omega)
    · rename_i hb
      have hb' : (b != 0) = true := by simpa using hb
      simp only [Mem.wfFrom, hb', Mem.cells_wfFrom bs (i + 1) (i + 1) (Nat.le_refl _), Bool.and_true, decide_eq_true_eq]
      exact h

theorem Mem.cells_below : ∀ (bs : List Byte) (i : Nat), ∀ c ∈ Mem.block.cells i bs, c.1 < i + bs.length
  | [], _, _, hc => by simp [Mem.block.cells] at hc
  | b :: bs, i, c, hc => by
    rw [Mem.cells_cons] at hc
    split at hc
    · have := Mem.cells_below bs (i + 1) c hc
      simp only [List.length_cons]; omega
    · rcases List.mem_cons.mp hc with rfl | hc
      · simp
      · have := Mem.cells_below bs (i + 1) c hc
        simp only [List.length_cons]; omega

theorem Mem.block_wf {m : Mem} (a : Nat) (bs : List Byte) (h : m.wf = true) : (m.block a bs).wf = true := by
  have low : Mem.wfFrom 0 (m.filter fun c => decide (c.1 < a)) = true := Mem.filter_wfFrom _ h
  have high : Mem.wfFrom (a + bs.length) (m.filter fun c => decide (a + bs.length ≤ c.1)) = true := by
    have key : ∀ {m : Mem} {lo : Nat}, Mem.wfFrom lo m = true →
        Mem.wfFrom (a + bs.length) (m.filter fun c => decide (a + bs.length ≤ c.1)) = true := by
      intro m
      induction m with
      | nil => intros; rfl
      | cons c m ih =>
        intro lo h
        obtain ⟨x, b⟩ := c
        simp only [Mem.wfFrom, Bool.and_eq_true, decide_eq_true_eq] at h
        obtain ⟨⟨_, h2⟩, h3⟩ := h
        by_cases hx : a + bs.length ≤ x
        · simp only [List.filter, hx, decide_true, Mem.wfFrom, h2, Bool.and_self, Bool.true_and]
          exact Mem.filter_wfFrom _ h3
        · simp only [List.filter, hx, decide_false]
          exact ih h3
    exact key h
  have mid := Mem.cells_wfFrom bs a a (Nat.le_refl _)
  refine Mem.append_wfFrom (hi := a + bs.length) ?_ ?_ (Nat.zero_le _) high
  · exact Mem.append_wfFrom (hi := a) low (fun c hc => by simpa using (List.mem_filter.mp hc).2) (Nat.zero_le _) mid
  · intro c hc
    rcases List.mem_append.mp hc with hc | hc
    · have : c.1 < a := by simpa using (List.mem_filter.mp hc).2
      omega
    · exact Mem.cells_below bs a c hc

/-! ## Reading several bytes -/

theorem Mem.readN_length (m : Mem) : ∀ (n a : Nat), (m.readN a n).length = n
  | 0, _ => rfl
  | n + 1, a => by simp [Mem.readN, Mem.readN_length m n (a + 1)]

theorem Mem.readN_getD (m : Mem) : ∀ (n a i : Nat), i < n → (m.readN a n).getD i 0 = m.read (a + i)
  | 0, _, _, h => absurd h (by omega)
  | n + 1, a, 0, _ => by simp [Mem.readN]
  | n + 1, a, i + 1, h => by
    have := Mem.readN_getD m n (a + 1) i (by omega)
    simp only [Mem.readN, List.getD_cons_succ, this]
    congr 1; omega

/-- What has been written reads back. -/
theorem Mem.readN_writeN {m : Mem} (h : m.wf = true) (a : Nat) (bs : List Byte) : (m.writeN a bs).readN a bs.length = bs := by
  apply List.ext_getElem (Mem.readN_length _ _ _)
  intro i h1 h2
  have e1 := Mem.readN_getD (m.writeN a bs) bs.length a i h2
  rw [Mem.read_writeN bs a (a + i) h, if_pos (by omega)] at e1
  simpa [List.getD_eq_getElem?_getD, h1, h2] using e1

theorem bytesOf_length : ∀ n v, (bytesOf n v).length = n
  | 0, _ => rfl
  | n + 1, v => by simp [bytesOf, bytesOf_length n]

/-- The bytes of a number give it back, as far as they reach (R1). -/
theorem ofBytes_bytesOf : ∀ n v, ofBytes (bytesOf n v) = v % 256 ^ n
  | 0, v => by simp [bytesOf, ofBytes, Nat.mod_one]
  | n + 1, v => by
    simp only [bytesOf, ofBytes, ofBytes_bytesOf n, BitVec.toNat_ofNat]
    rw [show (2 : Nat) ^ 8 = 256 from rfl, pow_succ, Nat.mul_comm (256 ^ n) 256, Nat.mod_mul]

end Sys2Proof.Machine
end

