-- ==== Sys2Proof/Laws/State.lean ====
section
/-! SUPPORT. Laws of the state: what each named update leaves alone, one lemma a field, and what it changes. -/
namespace Sys2Proof.Machine

/-! ## Register files -/

theorem vget_vput {α : Type} {n : Nat} (v : Vector α n) (i j : Nat) (x z : α) :
    vget (vput v i x) j z = if i = j ∧ j < n then x else vget v j z := by
  unfold vget vput
  by_cases hi : i < n <;> by_cases hj : j < n <;> simp [hi, hj, Vector.getElem_set]
  intro h; omega
@[simp] theorem vget_vput_self {α : Type} {n : Nat} (v : Vector α n) (i : Nat) (x z : α) (h : i < n) :
    vget (vput v i x) i z = x := by simp [vget_vput, h]
@[simp] theorem vget_vput_ne {α : Type} {n : Nat} (v : Vector α n) (i j : Nat) (x z : α) (h : i ≠ j) :
    vget (vput v i x) j z = vget v j z := by simp [vget_vput, h]
theorem vget_vmap {α β : Type} {n : Nat} (f : α → β) (v : Vector α n) (i : Nat) (x : α) :
    vget (vmap f v) i (f x) = f (vget v i x) := by
  unfold vget vmap
  split <;> simp
@[simp] theorem vset_get {α : Type} {n : Nat} (v : Vector α n) (i : Fin n) (x : α) : (vset v i x).get i = x := by
  show (v.set i.val x i.isLt)[i.val] = x
  simp
theorem vset_get_ne {α : Type} {n : Nat} (v : Vector α n) (i j : Fin n) (x : α) (h : i ≠ j) : (vset v i x).get j = v.get j := by
  have : (i : Nat) ≠ j := fun e => h (Fin.ext e)
  show (v.set i.val x i.isLt)[j.val] = v[j.val]
  rw [Vector.getElem_set_ne _ _ this]

/-- Looking up by a key in a list whose entries an update changes, keys kept. -/
theorem find?_map_if {α : Type} (key : α → Nat) (p : α → Bool) (f : α → α) (hf : ∀ a, key (f a) = key a) (k : Nat) (l : List α) :
    (l.map fun a => if p a then f a else a).find? (fun a => key a == k) =
      (l.find? fun a => key a == k).map fun a => if p a then f a else a := by
  induction l with
  | nil => rfl
  | cons a l ih =>
    have hk : key (if p a then f a else a) = key a := by split <;> simp [hf]
    simp only [List.map_cons, List.find?_cons, hk]
    cases key a == k <;> simp [ih]
/-- Looking up the element that an update of the first one changes. -/
theorem find?_modFirst {α : Type} (p : α → Bool) (f : α → α) (l : List α) (hf : ∀ a, p (f a) = p a) :
    (modFirst p f l).find? p = (l.find? p).map f := by
  induction l with
  | nil => rfl
  | cons a l ih => cases h : p a <;> simp [modFirst, h, hf, ih]
theorem modFirst_modFirst {α : Type} (p : α → Bool) (f g : α → α) (l : List α) (hf : ∀ a, p (f a) = p a) :
    modFirst p g (modFirst p f l) = modFirst p (fun a => g (f a)) l := by
  induction l with
  | nil => rfl
  | cons a l ih => cases h : p a <;> simp [modFirst, h, hf, ih]
theorem find?_map_key {α : Type} (key : α → Nat) (f : α → α) (hf : ∀ a, key (f a) = key a) (k : Nat) (l : List α) :
    (l.map f).find? (fun a => key a == k) = (l.find? fun a => key a == k).map f := by
  simpa using find?_map_if key (fun _ => true) f hf k l
theorem find?_key {α : Type} {key : α → Nat} {k : Nat} {l : List α} {a : α} (h : l.find? (fun a => key a == k) = some a) : key a = k := by
  simpa using List.find?_some h

/-! ## The dies and partitions after an update -/

@[simp] theorem State.die_modDie (s : State) (d : DieId) (f : Die → Die) : (s.modDie d f).die d = f (s.die d) := by
  simp [State.modDie, State.die]
theorem State.die_modDie_ne (s : State) (d e : DieId) (f : Die → Die) (h : d ≠ e) : (s.modDie d f).die e = s.die e := by
  simp [State.modDie, State.die, vset_get_ne, h]
@[simp] theorem State.part_modPart (s : State) (p : PartId) (f : Part → Part) : (s.modPart p f).part p = f (s.part p) := by
  simp [State.modPart, State.part]
/-- An update of the handles of a context is seen there. -/
@[simp] theorem State.handlesOf_modHandles (s : State) (d : DieId) (gid : Nat) (f : List Handle → List Handle) :
    ((s.modHandles d gid f).die d).handlesOf gid = f ((s.die d).handlesOf gid) := by
  unfold State.modHandles Die.handlesOf
  rw [State.die_modDie]
  by_cases h : gid = 0 <;> simp [h]
theorem State.part_modPart_ne (s : State) (p q : PartId) (f : Part → Part) (h : p ≠ q) : (s.modPart p f).part q = s.part q := by
  simp [State.modPart, State.part, vset_get_ne, h]


/-! ## modDie leaves alone -/

@[simp] theorem State.modDie_ready (s : State) (d : DieId) (f : Die → Die) : (s.modDie d f).ready = s.ready := rfl
@[simp] theorem State.modDie_clock (s : State) (d : DieId) (f : Die → Die) : (s.modDie d f).clock = s.clock := rfl
@[simp] theorem State.modDie_podid (s : State) (d : DieId) (f : Die → Die) : (s.modDie d f).podid = s.podid := rfl
@[simp] theorem State.modDie_layout (s : State) (d : DieId) (f : Die → Die) : (s.modDie d f).layout = s.layout := rfl
@[simp] theorem State.modDie_parts (s : State) (d : DieId) (f : Die → Die) : (s.modDie d f).parts = s.parts := rfl
@[simp] theorem State.modDie_mem (s : State) (d : DieId) (f : Die → Die) : (s.modDie d f).mem = s.mem := rfl
@[simp] theorem State.modDie_home (s : State) (d : DieId) (f : Die → Die) : (s.modDie d f).home = s.home := rfl
@[simp] theorem State.modDie_hbmFrames (s : State) (d : DieId) (f : Die → Die) : (s.modDie d f).hbmFrames = s.hbmFrames := rfl
@[simp] theorem State.modDie_cxlFrames (s : State) (d : DieId) (f : Die → Die) : (s.modDie d f).cxlFrames = s.cxlFrames := rfl
@[simp] theorem State.modDie_moving (s : State) (d : DieId) (f : Die → Die) : (s.modDie d f).moving = s.moving := rfl
@[simp] theorem State.modDie_route (s : State) (d : DieId) (f : Die → Die) : (s.modDie d f).route = s.route := rfl
@[simp] theorem State.modDie_links (s : State) (d : DieId) (f : Die → Die) : (s.modDie d f).links = s.links := rfl
@[simp] theorem State.modDie_keys (s : State) (d : DieId) (f : Die → Die) : (s.modDie d f).keys = s.keys := rfl
@[simp] theorem State.modDie_fwMeas (s : State) (d : DieId) (f : Die → Die) : (s.modDie d f).fwMeas = s.fwMeas := rfl
@[simp] theorem State.modDie_bringup (s : State) (d : DieId) (f : Die → Die) : (s.modDie d f).bringup = s.bringup := rfl
@[simp] theorem State.modDie_boot (s : State) (d : DieId) (f : Die → Die) : (s.modDie d f).boot = s.boot := rfl
@[simp] theorem State.modDie_ringBase (s : State) (d : DieId) (f : Die → Die) : (s.modDie d f).ringBase = s.ringBase := rfl
@[simp] theorem State.modDie_ringHead (s : State) (d : DieId) (f : Die → Die) : (s.modDie d f).ringHead = s.ringHead := rfl
@[simp] theorem State.modDie_harvested (s : State) (d : DieId) (f : Die → Die) : (s.modDie d f).harvested = s.harvested := rfl
@[simp] theorem State.modDie_launches (s : State) (d : DieId) (f : Die → Die) : (s.modDie d f).launches = s.launches := rfl
@[simp] theorem State.modDie_launchQueues (s : State) (d : DieId) (f : Die → Die) : (s.modDie d f).launchQueues = s.launchQueues := rfl
@[simp] theorem State.modDie_sets (s : State) (d : DieId) (f : Die → Die) : (s.modDie d f).sets = s.sets := rfl
@[simp] theorem State.modDie_sessions (s : State) (d : DieId) (f : Die → Die) : (s.modDie d f).sessions = s.sessions := rfl
@[simp] theorem State.modDie_reqs (s : State) (d : DieId) (f : Die → Die) : (s.modDie d f).reqs = s.reqs := rfl
@[simp] theorem State.modDie_pend (s : State) (d : DieId) (f : Die → Die) : (s.modDie d f).pend = s.pend := rfl
@[simp] theorem State.modDie_stores (s : State) (d : DieId) (f : Die → Die) : (s.modDie d f).stores = s.stores := rfl
@[simp] theorem State.modDie_packets (s : State) (d : DieId) (f : Die → Die) : (s.modDie d f).packets = s.packets := rfl
@[simp] theorem State.modDie_smsgs (s : State) (d : DieId) (f : Die → Die) : (s.modDie d f).smsgs = s.smsgs := rfl
@[simp] theorem State.modDie_kept (s : State) (d : DieId) (f : Die → Die) : (s.modDie d f).kept = s.kept := rfl
@[simp] theorem State.modDie_saves (s : State) (d : DieId) (f : Die → Die) : (s.modDie d f).saves = s.saves := rfl
@[simp] theorem State.modDie_badLines (s : State) (d : DieId) (f : Die → Die) : (s.modDie d f).badLines = s.badLines := rfl
@[simp] theorem State.modDie_inbox (s : State) (d : DieId) (f : Die → Die) : (s.modDie d f).inbox = s.inbox := rfl
@[simp] theorem State.modDie_out (s : State) (d : DieId) (f : Die → Die) : (s.modDie d f).out = s.out := rfl
@[simp] theorem State.modDie_seq (s : State) (d : DieId) (f : Die → Die) : (s.modDie d f).seq = s.seq := rfl
@[simp] theorem State.modDie_nextId (s : State) (d : DieId) (f : Die → Die) : (s.modDie d f).nextId = s.nextId := rfl
@[simp] theorem State.modDie_cur (s : State) (d : DieId) (f : Die → Die) : (s.modDie d f).cur = s.cur := rfl
@[simp] theorem State.modDie_issue (s : State) (d : DieId) (f : Die → Die) : (s.modDie d f).issue = s.issue := rfl
@[simp] theorem State.modDie_snap (s : State) (d : DieId) (f : Die → Die) : (s.modDie d f).snap = s.snap := rfl
@[simp] theorem State.modDie_kwr (s : State) (d : DieId) (f : Die → Die) : (s.modDie d f).kwr = s.kwr := rfl
@[simp] theorem State.modDie_partOf (s : State) (d : DieId) (f : Die → Die) (e : DieId) : (s.modDie d f).partOf e = s.partOf e := rfl
@[simp] theorem State.modDie_diesOf (s : State) (d : DieId) (f : Die → Die) (q : PartId) : (s.modDie d f).diesOf q = s.diesOf q := rfl
@[simp] theorem State.modDie_part (s : State) (d : DieId) (f : Die → Die) (q : PartId) : (s.modDie d f).part q = s.part q := rfl

/-! ## modPart leaves alone -/

@[simp] theorem State.modPart_ready (s : State) (p : PartId) (f : Part → Part) : (s.modPart p f).ready = s.ready := rfl
@[simp] theorem State.modPart_clock (s : State) (p : PartId) (f : Part → Part) : (s.modPart p f).clock = s.clock := rfl
@[simp] theorem State.modPart_podid (s : State) (p : PartId) (f : Part → Part) : (s.modPart p f).podid = s.podid := rfl
@[simp] theorem State.modPart_layout (s : State) (p : PartId) (f : Part → Part) : (s.modPart p f).layout = s.layout := rfl
@[simp] theorem State.modPart_dies (s : State) (p : PartId) (f : Part → Part) : (s.modPart p f).dies = s.dies := rfl
@[simp] theorem State.modPart_mem (s : State) (p : PartId) (f : Part → Part) : (s.modPart p f).mem = s.mem := rfl
@[simp] theorem State.modPart_home (s : State) (p : PartId) (f : Part → Part) : (s.modPart p f).home = s.home := rfl
@[simp] theorem State.modPart_hbmFrames (s : State) (p : PartId) (f : Part → Part) : (s.modPart p f).hbmFrames = s.hbmFrames := rfl
@[simp] theorem State.modPart_cxlFrames (s : State) (p : PartId) (f : Part → Part) : (s.modPart p f).cxlFrames = s.cxlFrames := rfl
@[simp] theorem State.modPart_moving (s : State) (p : PartId) (f : Part → Part) : (s.modPart p f).moving = s.moving := rfl
@[simp] theorem State.modPart_route (s : State) (p : PartId) (f : Part → Part) : (s.modPart p f).route = s.route := rfl
@[simp] theorem State.modPart_links (s : State) (p : PartId) (f : Part → Part) : (s.modPart p f).links = s.links := rfl
@[simp] theorem State.modPart_keys (s : State) (p : PartId) (f : Part → Part) : (s.modPart p f).keys = s.keys := rfl
@[simp] theorem State.modPart_fwMeas (s : State) (p : PartId) (f : Part → Part) : (s.modPart p f).fwMeas = s.fwMeas := rfl
@[simp] theorem State.modPart_bringup (s : State) (p : PartId) (f : Part → Part) : (s.modPart p f).bringup = s.bringup := rfl
@[simp] theorem State.modPart_boot (s : State) (p : PartId) (f : Part → Part) : (s.modPart p f).boot = s.boot := rfl
@[simp] theorem State.modPart_ringBase (s : State) (p : PartId) (f : Part → Part) : (s.modPart p f).ringBase = s.ringBase := rfl
@[simp] theorem State.modPart_ringHead (s : State) (p : PartId) (f : Part → Part) : (s.modPart p f).ringHead = s.ringHead := rfl
@[simp] theorem State.modPart_harvested (s : State) (p : PartId) (f : Part → Part) : (s.modPart p f).harvested = s.harvested := rfl
@[simp] theorem State.modPart_launches (s : State) (p : PartId) (f : Part → Part) : (s.modPart p f).launches = s.launches := rfl
@[simp] theorem State.modPart_launchQueues (s : State) (p : PartId) (f : Part → Part) : (s.modPart p f).launchQueues = s.launchQueues := rfl
@[simp] theorem State.modPart_sets (s : State) (p : PartId) (f : Part → Part) : (s.modPart p f).sets = s.sets := rfl
@[simp] theorem State.modPart_sessions (s : State) (p : PartId) (f : Part → Part) : (s.modPart p f).sessions = s.sessions := rfl
@[simp] theorem State.modPart_reqs (s : State) (p : PartId) (f : Part → Part) : (s.modPart p f).reqs = s.reqs := rfl
@[simp] theorem State.modPart_pend (s : State) (p : PartId) (f : Part → Part) : (s.modPart p f).pend = s.pend := rfl
@[simp] theorem State.modPart_stores (s : State) (p : PartId) (f : Part → Part) : (s.modPart p f).stores = s.stores := rfl
@[simp] theorem State.modPart_packets (s : State) (p : PartId) (f : Part → Part) : (s.modPart p f).packets = s.packets := rfl
@[simp] theorem State.modPart_smsgs (s : State) (p : PartId) (f : Part → Part) : (s.modPart p f).smsgs = s.smsgs := rfl
@[simp] theorem State.modPart_kept (s : State) (p : PartId) (f : Part → Part) : (s.modPart p f).kept = s.kept := rfl
@[simp] theorem State.modPart_saves (s : State) (p : PartId) (f : Part → Part) : (s.modPart p f).saves = s.saves := rfl
@[simp] theorem State.modPart_badLines (s : State) (p : PartId) (f : Part → Part) : (s.modPart p f).badLines = s.badLines := rfl
@[simp] theorem State.modPart_inbox (s : State) (p : PartId) (f : Part → Part) : (s.modPart p f).inbox = s.inbox := rfl
@[simp] theorem State.modPart_out (s : State) (p : PartId) (f : Part → Part) : (s.modPart p f).out = s.out := rfl
@[simp] theorem State.modPart_seq (s : State) (p : PartId) (f : Part → Part) : (s.modPart p f).seq = s.seq := rfl
@[simp] theorem State.modPart_nextId (s : State) (p : PartId) (f : Part → Part) : (s.modPart p f).nextId = s.nextId := rfl
@[simp] theorem State.modPart_cur (s : State) (p : PartId) (f : Part → Part) : (s.modPart p f).cur = s.cur := rfl
@[simp] theorem State.modPart_issue (s : State) (p : PartId) (f : Part → Part) : (s.modPart p f).issue = s.issue := rfl
@[simp] theorem State.modPart_snap (s : State) (p : PartId) (f : Part → Part) : (s.modPart p f).snap = s.snap := rfl
@[simp] theorem State.modPart_kwr (s : State) (p : PartId) (f : Part → Part) : (s.modPart p f).kwr = s.kwr := rfl
@[simp] theorem State.modPart_partOf (s : State) (p : PartId) (f : Part → Part) (e : DieId) : (s.modPart p f).partOf e = s.partOf e := rfl
@[simp] theorem State.modPart_diesOf (s : State) (p : PartId) (f : Part → Part) (q : PartId) : (s.modPart p f).diesOf q = s.diesOf q := rfl
@[simp] theorem State.modPart_die (s : State) (p : PartId) (f : Part → Part) (e : DieId) : (s.modPart p f).die e = s.die e := rfl

/-! ## modBank leaves alone -/

@[simp] theorem State.modBank_ready (s : State) (d : DieId) (f : Bank → Bank) : (s.modBank d f).ready = s.ready := rfl
@[simp] theorem State.modBank_clock (s : State) (d : DieId) (f : Bank → Bank) : (s.modBank d f).clock = s.clock := rfl
@[simp] theorem State.modBank_podid (s : State) (d : DieId) (f : Bank → Bank) : (s.modBank d f).podid = s.podid := rfl
@[simp] theorem State.modBank_layout (s : State) (d : DieId) (f : Bank → Bank) : (s.modBank d f).layout = s.layout := rfl
@[simp] theorem State.modBank_parts (s : State) (d : DieId) (f : Bank → Bank) : (s.modBank d f).parts = s.parts := rfl
@[simp] theorem State.modBank_mem (s : State) (d : DieId) (f : Bank → Bank) : (s.modBank d f).mem = s.mem := rfl
@[simp] theorem State.modBank_home (s : State) (d : DieId) (f : Bank → Bank) : (s.modBank d f).home = s.home := rfl
@[simp] theorem State.modBank_hbmFrames (s : State) (d : DieId) (f : Bank → Bank) : (s.modBank d f).hbmFrames = s.hbmFrames := rfl
@[simp] theorem State.modBank_cxlFrames (s : State) (d : DieId) (f : Bank → Bank) : (s.modBank d f).cxlFrames = s.cxlFrames := rfl
@[simp] theorem State.modBank_moving (s : State) (d : DieId) (f : Bank → Bank) : (s.modBank d f).moving = s.moving := rfl
@[simp] theorem State.modBank_route (s : State) (d : DieId) (f : Bank → Bank) : (s.modBank d f).route = s.route := rfl
@[simp] theorem State.modBank_links (s : State) (d : DieId) (f : Bank → Bank) : (s.modBank d f).links = s.links := rfl
@[simp] theorem State.modBank_keys (s : State) (d : DieId) (f : Bank → Bank) : (s.modBank d f).keys = s.keys := rfl
@[simp] theorem State.modBank_fwMeas (s : State) (d : DieId) (f : Bank → Bank) : (s.modBank d f).fwMeas = s.fwMeas := rfl
@[simp] theorem State.modBank_bringup (s : State) (d : DieId) (f : Bank → Bank) : (s.modBank d f).bringup = s.bringup := rfl
@[simp] theorem State.modBank_boot (s : State) (d : DieId) (f : Bank → Bank) : (s.modBank d f).boot = s.boot := rfl
@[simp] theorem State.modBank_ringBase (s : State) (d : DieId) (f : Bank → Bank) : (s.modBank d f).ringBase = s.ringBase := rfl
@[simp] theorem State.modBank_ringHead (s : State) (d : DieId) (f : Bank → Bank) : (s.modBank d f).ringHead = s.ringHead := rfl
@[simp] theorem State.modBank_harvested (s : State) (d : DieId) (f : Bank → Bank) : (s.modBank d f).harvested = s.harvested := rfl
@[simp] theorem State.modBank_launches (s : State) (d : DieId) (f : Bank → Bank) : (s.modBank d f).launches = s.launches := rfl
@[simp] theorem State.modBank_launchQueues (s : State) (d : DieId) (f : Bank → Bank) : (s.modBank d f).launchQueues = s.launchQueues := rfl
@[simp] theorem State.modBank_sets (s : State) (d : DieId) (f : Bank → Bank) : (s.modBank d f).sets = s.sets := rfl
@[simp] theorem State.modBank_sessions (s : State) (d : DieId) (f : Bank → Bank) : (s.modBank d f).sessions = s.sessions := rfl
@[simp] theorem State.modBank_reqs (s : State) (d : DieId) (f : Bank → Bank) : (s.modBank d f).reqs = s.reqs := rfl
@[simp] theorem State.modBank_pend (s : State) (d : DieId) (f : Bank → Bank) : (s.modBank d f).pend = s.pend := rfl
@[simp] theorem State.modBank_stores (s : State) (d : DieId) (f : Bank → Bank) : (s.modBank d f).stores = s.stores := rfl
@[simp] theorem State.modBank_packets (s : State) (d : DieId) (f : Bank → Bank) : (s.modBank d f).packets = s.packets := rfl
@[simp] theorem State.modBank_smsgs (s : State) (d : DieId) (f : Bank → Bank) : (s.modBank d f).smsgs = s.smsgs := rfl
@[simp] theorem State.modBank_kept (s : State) (d : DieId) (f : Bank → Bank) : (s.modBank d f).kept = s.kept := rfl
@[simp] theorem State.modBank_saves (s : State) (d : DieId) (f : Bank → Bank) : (s.modBank d f).saves = s.saves := rfl
@[simp] theorem State.modBank_badLines (s : State) (d : DieId) (f : Bank → Bank) : (s.modBank d f).badLines = s.badLines := rfl
@[simp] theorem State.modBank_inbox (s : State) (d : DieId) (f : Bank → Bank) : (s.modBank d f).inbox = s.inbox := rfl
@[simp] theorem State.modBank_out (s : State) (d : DieId) (f : Bank → Bank) : (s.modBank d f).out = s.out := rfl
@[simp] theorem State.modBank_seq (s : State) (d : DieId) (f : Bank → Bank) : (s.modBank d f).seq = s.seq := rfl
@[simp] theorem State.modBank_nextId (s : State) (d : DieId) (f : Bank → Bank) : (s.modBank d f).nextId = s.nextId := rfl
@[simp] theorem State.modBank_cur (s : State) (d : DieId) (f : Bank → Bank) : (s.modBank d f).cur = s.cur := rfl
@[simp] theorem State.modBank_issue (s : State) (d : DieId) (f : Bank → Bank) : (s.modBank d f).issue = s.issue := rfl
@[simp] theorem State.modBank_snap (s : State) (d : DieId) (f : Bank → Bank) : (s.modBank d f).snap = s.snap := rfl
@[simp] theorem State.modBank_kwr (s : State) (d : DieId) (f : Bank → Bank) : (s.modBank d f).kwr = s.kwr := rfl
@[simp] theorem State.modBank_partOf (s : State) (d : DieId) (f : Bank → Bank) (e : DieId) : (s.modBank d f).partOf e = s.partOf e := rfl
@[simp] theorem State.modBank_diesOf (s : State) (d : DieId) (f : Bank → Bank) (q : PartId) : (s.modBank d f).diesOf q = s.diesOf q := rfl
@[simp] theorem State.modBank_part (s : State) (d : DieId) (f : Bank → Bank) (q : PartId) : (s.modBank d f).part q = s.part q := rfl

/-! ## modGroup leaves alone -/

@[simp] theorem State.modGroup_ready (s : State) (d : DieId) (gid : Nat) (f : Group → Group) : (s.modGroup d gid f).ready = s.ready := rfl
@[simp] theorem State.modGroup_clock (s : State) (d : DieId) (gid : Nat) (f : Group → Group) : (s.modGroup d gid f).clock = s.clock := rfl
@[simp] theorem State.modGroup_podid (s : State) (d : DieId) (gid : Nat) (f : Group → Group) : (s.modGroup d gid f).podid = s.podid := rfl
@[simp] theorem State.modGroup_layout (s : State) (d : DieId) (gid : Nat) (f : Group → Group) : (s.modGroup d gid f).layout = s.layout := rfl
@[simp] theorem State.modGroup_parts (s : State) (d : DieId) (gid : Nat) (f : Group → Group) : (s.modGroup d gid f).parts = s.parts := rfl
@[simp] theorem State.modGroup_mem (s : State) (d : DieId) (gid : Nat) (f : Group → Group) : (s.modGroup d gid f).mem = s.mem := rfl
@[simp] theorem State.modGroup_home (s : State) (d : DieId) (gid : Nat) (f : Group → Group) : (s.modGroup d gid f).home = s.home := rfl
@[simp] theorem State.modGroup_hbmFrames (s : State) (d : DieId) (gid : Nat) (f : Group → Group) : (s.modGroup d gid f).hbmFrames = s.hbmFrames := rfl
@[simp] theorem State.modGroup_cxlFrames (s : State) (d : DieId) (gid : Nat) (f : Group → Group) : (s.modGroup d gid f).cxlFrames = s.cxlFrames := rfl
@[simp] theorem State.modGroup_moving (s : State) (d : DieId) (gid : Nat) (f : Group → Group) : (s.modGroup d gid f).moving = s.moving := rfl
@[simp] theorem State.modGroup_route (s : State) (d : DieId) (gid : Nat) (f : Group → Group) : (s.modGroup d gid f).route = s.route := rfl
@[simp] theorem State.modGroup_links (s : State) (d : DieId) (gid : Nat) (f : Group → Group) : (s.modGroup d gid f).links = s.links := rfl
@[simp] theorem State.modGroup_keys (s : State) (d : DieId) (gid : Nat) (f : Group → Group) : (s.modGroup d gid f).keys = s.keys := rfl
@[simp] theorem State.modGroup_fwMeas (s : State) (d : DieId) (gid : Nat) (f : Group → Group) : (s.modGroup d gid f).fwMeas = s.fwMeas := rfl
@[simp] theorem State.modGroup_bringup (s : State) (d : DieId) (gid : Nat) (f : Group → Group) : (s.modGroup d gid f).bringup = s.bringup := rfl
@[simp] theorem State.modGroup_boot (s : State) (d : DieId) (gid : Nat) (f : Group → Group) : (s.modGroup d gid f).boot = s.boot := rfl
@[simp] theorem State.modGroup_ringBase (s : State) (d : DieId) (gid : Nat) (f : Group → Group) : (s.modGroup d gid f).ringBase = s.ringBase := rfl
@[simp] theorem State.modGroup_ringHead (s : State) (d : DieId) (gid : Nat) (f : Group → Group) : (s.modGroup d gid f).ringHead = s.ringHead := rfl
@[simp] theorem State.modGroup_harvested (s : State) (d : DieId) (gid : Nat) (f : Group → Group) : (s.modGroup d gid f).harvested = s.harvested := rfl
@[simp] theorem State.modGroup_launches (s : State) (d : DieId) (gid : Nat) (f : Group → Group) : (s.modGroup d gid f).launches = s.launches := rfl
@[simp] theorem State.modGroup_launchQueues (s : State) (d : DieId) (gid : Nat) (f : Group → Group) : (s.modGroup d gid f).launchQueues = s.launchQueues := rfl
@[simp] theorem State.modGroup_sets (s : State) (d : DieId) (gid : Nat) (f : Group → Group) : (s.modGroup d gid f).sets = s.sets := rfl
@[simp] theorem State.modGroup_sessions (s : State) (d : DieId) (gid : Nat) (f : Group → Group) : (s.modGroup d gid f).sessions = s.sessions := rfl
@[simp] theorem State.modGroup_reqs (s : State) (d : DieId) (gid : Nat) (f : Group → Group) : (s.modGroup d gid f).reqs = s.reqs := rfl
@[simp] theorem State.modGroup_pend (s : State) (d : DieId) (gid : Nat) (f : Group → Group) : (s.modGroup d gid f).pend = s.pend := rfl
@[simp] theorem State.modGroup_stores (s : State) (d : DieId) (gid : Nat) (f : Group → Group) : (s.modGroup d gid f).stores = s.stores := rfl
@[simp] theorem State.modGroup_packets (s : State) (d : DieId) (gid : Nat) (f : Group → Group) : (s.modGroup d gid f).packets = s.packets := rfl
@[simp] theorem State.modGroup_smsgs (s : State) (d : DieId) (gid : Nat) (f : Group → Group) : (s.modGroup d gid f).smsgs = s.smsgs := rfl
@[simp] theorem State.modGroup_kept (s : State) (d : DieId) (gid : Nat) (f : Group → Group) : (s.modGroup d gid f).kept = s.kept := rfl
@[simp] theorem State.modGroup_saves (s : State) (d : DieId) (gid : Nat) (f : Group → Group) : (s.modGroup d gid f).saves = s.saves := rfl
@[simp] theorem State.modGroup_badLines (s : State) (d : DieId) (gid : Nat) (f : Group → Group) : (s.modGroup d gid f).badLines = s.badLines := rfl
@[simp] theorem State.modGroup_inbox (s : State) (d : DieId) (gid : Nat) (f : Group → Group) : (s.modGroup d gid f).inbox = s.inbox := rfl
@[simp] theorem State.modGroup_out (s : State) (d : DieId) (gid : Nat) (f : Group → Group) : (s.modGroup d gid f).out = s.out := rfl
@[simp] theorem State.modGroup_seq (s : State) (d : DieId) (gid : Nat) (f : Group → Group) : (s.modGroup d gid f).seq = s.seq := rfl
@[simp] theorem State.modGroup_nextId (s : State) (d : DieId) (gid : Nat) (f : Group → Group) : (s.modGroup d gid f).nextId = s.nextId := rfl
@[simp] theorem State.modGroup_cur (s : State) (d : DieId) (gid : Nat) (f : Group → Group) : (s.modGroup d gid f).cur = s.cur := rfl
@[simp] theorem State.modGroup_issue (s : State) (d : DieId) (gid : Nat) (f : Group → Group) : (s.modGroup d gid f).issue = s.issue := rfl
@[simp] theorem State.modGroup_snap (s : State) (d : DieId) (gid : Nat) (f : Group → Group) : (s.modGroup d gid f).snap = s.snap := rfl
@[simp] theorem State.modGroup_kwr (s : State) (d : DieId) (gid : Nat) (f : Group → Group) : (s.modGroup d gid f).kwr = s.kwr := rfl
@[simp] theorem State.modGroup_partOf (s : State) (d : DieId) (gid : Nat) (f : Group → Group) (e : DieId) : (s.modGroup d gid f).partOf e = s.partOf e := rfl
@[simp] theorem State.modGroup_diesOf (s : State) (d : DieId) (gid : Nat) (f : Group → Group) (q : PartId) : (s.modGroup d gid f).diesOf q = s.diesOf q := rfl
@[simp] theorem State.modGroup_part (s : State) (d : DieId) (gid : Nat) (f : Group → Group) (q : PartId) : (s.modGroup d gid f).part q = s.part q := rfl

/-! ## modHandles leaves alone -/

@[simp] theorem State.modHandles_ready (s : State) (d : DieId) (gid : Nat) (f : List Handle → List Handle) : (s.modHandles d gid f).ready = s.ready := rfl
@[simp] theorem State.modHandles_clock (s : State) (d : DieId) (gid : Nat) (f : List Handle → List Handle) : (s.modHandles d gid f).clock = s.clock := rfl
@[simp] theorem State.modHandles_podid (s : State) (d : DieId) (gid : Nat) (f : List Handle → List Handle) : (s.modHandles d gid f).podid = s.podid := rfl
@[simp] theorem State.modHandles_layout (s : State) (d : DieId) (gid : Nat) (f : List Handle → List Handle) : (s.modHandles d gid f).layout = s.layout := rfl
@[simp] theorem State.modHandles_parts (s : State) (d : DieId) (gid : Nat) (f : List Handle → List Handle) : (s.modHandles d gid f).parts = s.parts := rfl
@[simp] theorem State.modHandles_mem (s : State) (d : DieId) (gid : Nat) (f : List Handle → List Handle) : (s.modHandles d gid f).mem = s.mem := rfl
@[simp] theorem State.modHandles_home (s : State) (d : DieId) (gid : Nat) (f : List Handle → List Handle) : (s.modHandles d gid f).home = s.home := rfl
@[simp] theorem State.modHandles_hbmFrames (s : State) (d : DieId) (gid : Nat) (f : List Handle → List Handle) : (s.modHandles d gid f).hbmFrames = s.hbmFrames := rfl
@[simp] theorem State.modHandles_cxlFrames (s : State) (d : DieId) (gid : Nat) (f : List Handle → List Handle) : (s.modHandles d gid f).cxlFrames = s.cxlFrames := rfl
@[simp] theorem State.modHandles_moving (s : State) (d : DieId) (gid : Nat) (f : List Handle → List Handle) : (s.modHandles d gid f).moving = s.moving := rfl
@[simp] theorem State.modHandles_route (s : State) (d : DieId) (gid : Nat) (f : List Handle → List Handle) : (s.modHandles d gid f).route = s.route := rfl
@[simp] theorem State.modHandles_links (s : State) (d : DieId) (gid : Nat) (f : List Handle → List Handle) : (s.modHandles d gid f).links = s.links := rfl
@[simp] theorem State.modHandles_keys (s : State) (d : DieId) (gid : Nat) (f : List Handle → List Handle) : (s.modHandles d gid f).keys = s.keys := rfl
@[simp] theorem State.modHandles_fwMeas (s : State) (d : DieId) (gid : Nat) (f : List Handle → List Handle) : (s.modHandles d gid f).fwMeas = s.fwMeas := rfl
@[simp] theorem State.modHandles_bringup (s : State) (d : DieId) (gid : Nat) (f : List Handle → List Handle) : (s.modHandles d gid f).bringup = s.bringup := rfl
@[simp] theorem State.modHandles_boot (s : State) (d : DieId) (gid : Nat) (f : List Handle → List Handle) : (s.modHandles d gid f).boot = s.boot := rfl
@[simp] theorem State.modHandles_ringBase (s : State) (d : DieId) (gid : Nat) (f : List Handle → List Handle) : (s.modHandles d gid f).ringBase = s.ringBase := rfl
@[simp] theorem State.modHandles_ringHead (s : State) (d : DieId) (gid : Nat) (f : List Handle → List Handle) : (s.modHandles d gid f).ringHead = s.ringHead := rfl
@[simp] theorem State.modHandles_harvested (s : State) (d : DieId) (gid : Nat) (f : List Handle → List Handle) : (s.modHandles d gid f).harvested = s.harvested := rfl
@[simp] theorem State.modHandles_launches (s : State) (d : DieId) (gid : Nat) (f : List Handle → List Handle) : (s.modHandles d gid f).launches = s.launches := rfl
@[simp] theorem State.modHandles_launchQueues (s : State) (d : DieId) (gid : Nat) (f : List Handle → List Handle) : (s.modHandles d gid f).launchQueues = s.launchQueues := rfl
@[simp] theorem State.modHandles_sets (s : State) (d : DieId) (gid : Nat) (f : List Handle → List Handle) : (s.modHandles d gid f).sets = s.sets := rfl
@[simp] theorem State.modHandles_sessions (s : State) (d : DieId) (gid : Nat) (f : List Handle → List Handle) : (s.modHandles d gid f).sessions = s.sessions := rfl
@[simp] theorem State.modHandles_reqs (s : State) (d : DieId) (gid : Nat) (f : List Handle → List Handle) : (s.modHandles d gid f).reqs = s.reqs := rfl
@[simp] theorem State.modHandles_pend (s : State) (d : DieId) (gid : Nat) (f : List Handle → List Handle) : (s.modHandles d gid f).pend = s.pend := rfl
@[simp] theorem State.modHandles_stores (s : State) (d : DieId) (gid : Nat) (f : List Handle → List Handle) : (s.modHandles d gid f).stores = s.stores := rfl
@[simp] theorem State.modHandles_packets (s : State) (d : DieId) (gid : Nat) (f : List Handle → List Handle) : (s.modHandles d gid f).packets = s.packets := rfl
@[simp] theorem State.modHandles_smsgs (s : State) (d : DieId) (gid : Nat) (f : List Handle → List Handle) : (s.modHandles d gid f).smsgs = s.smsgs := rfl
@[simp] theorem State.modHandles_kept (s : State) (d : DieId) (gid : Nat) (f : List Handle → List Handle) : (s.modHandles d gid f).kept = s.kept := rfl
@[simp] theorem State.modHandles_saves (s : State) (d : DieId) (gid : Nat) (f : List Handle → List Handle) : (s.modHandles d gid f).saves = s.saves := rfl
@[simp] theorem State.modHandles_badLines (s : State) (d : DieId) (gid : Nat) (f : List Handle → List Handle) : (s.modHandles d gid f).badLines = s.badLines := rfl
@[simp] theorem State.modHandles_inbox (s : State) (d : DieId) (gid : Nat) (f : List Handle → List Handle) : (s.modHandles d gid f).inbox = s.inbox := rfl
@[simp] theorem State.modHandles_out (s : State) (d : DieId) (gid : Nat) (f : List Handle → List Handle) : (s.modHandles d gid f).out = s.out := rfl
@[simp] theorem State.modHandles_seq (s : State) (d : DieId) (gid : Nat) (f : List Handle → List Handle) : (s.modHandles d gid f).seq = s.seq := rfl
@[simp] theorem State.modHandles_nextId (s : State) (d : DieId) (gid : Nat) (f : List Handle → List Handle) : (s.modHandles d gid f).nextId = s.nextId := rfl
@[simp] theorem State.modHandles_cur (s : State) (d : DieId) (gid : Nat) (f : List Handle → List Handle) : (s.modHandles d gid f).cur = s.cur := rfl
@[simp] theorem State.modHandles_issue (s : State) (d : DieId) (gid : Nat) (f : List Handle → List Handle) : (s.modHandles d gid f).issue = s.issue := rfl
@[simp] theorem State.modHandles_snap (s : State) (d : DieId) (gid : Nat) (f : List Handle → List Handle) : (s.modHandles d gid f).snap = s.snap := rfl
@[simp] theorem State.modHandles_kwr (s : State) (d : DieId) (gid : Nat) (f : List Handle → List Handle) : (s.modHandles d gid f).kwr = s.kwr := rfl
@[simp] theorem State.modHandles_partOf (s : State) (d : DieId) (gid : Nat) (f : List Handle → List Handle) (e : DieId) : (s.modHandles d gid f).partOf e = s.partOf e := rfl
@[simp] theorem State.modHandles_diesOf (s : State) (d : DieId) (gid : Nat) (f : List Handle → List Handle) (q : PartId) : (s.modHandles d gid f).diesOf q = s.diesOf q := rfl
@[simp] theorem State.modHandles_part (s : State) (d : DieId) (gid : Nat) (f : List Handle → List Handle) (q : PartId) : (s.modHandles d gid f).part q = s.part q := rfl

/-! ## modGens leaves alone -/

@[simp] theorem State.modGens_ready (s : State) (d : DieId) (gid : Nat) (f : List (Nat × Nat × Nat) → List (Nat × Nat × Nat)) : (s.modGens d gid f).ready = s.ready := rfl
@[simp] theorem State.modGens_clock (s : State) (d : DieId) (gid : Nat) (f : List (Nat × Nat × Nat) → List (Nat × Nat × Nat)) : (s.modGens d gid f).clock = s.clock := rfl
@[simp] theorem State.modGens_podid (s : State) (d : DieId) (gid : Nat) (f : List (Nat × Nat × Nat) → List (Nat × Nat × Nat)) : (s.modGens d gid f).podid = s.podid := rfl
@[simp] theorem State.modGens_layout (s : State) (d : DieId) (gid : Nat) (f : List (Nat × Nat × Nat) → List (Nat × Nat × Nat)) : (s.modGens d gid f).layout = s.layout := rfl
@[simp] theorem State.modGens_parts (s : State) (d : DieId) (gid : Nat) (f : List (Nat × Nat × Nat) → List (Nat × Nat × Nat)) : (s.modGens d gid f).parts = s.parts := rfl
@[simp] theorem State.modGens_mem (s : State) (d : DieId) (gid : Nat) (f : List (Nat × Nat × Nat) → List (Nat × Nat × Nat)) : (s.modGens d gid f).mem = s.mem := rfl
@[simp] theorem State.modGens_home (s : State) (d : DieId) (gid : Nat) (f : List (Nat × Nat × Nat) → List (Nat × Nat × Nat)) : (s.modGens d gid f).home = s.home := rfl
@[simp] theorem State.modGens_hbmFrames (s : State) (d : DieId) (gid : Nat) (f : List (Nat × Nat × Nat) → List (Nat × Nat × Nat)) : (s.modGens d gid f).hbmFrames = s.hbmFrames := rfl
@[simp] theorem State.modGens_cxlFrames (s : State) (d : DieId) (gid : Nat) (f : List (Nat × Nat × Nat) → List (Nat × Nat × Nat)) : (s.modGens d gid f).cxlFrames = s.cxlFrames := rfl
@[simp] theorem State.modGens_moving (s : State) (d : DieId) (gid : Nat) (f : List (Nat × Nat × Nat) → List (Nat × Nat × Nat)) : (s.modGens d gid f).moving = s.moving := rfl
@[simp] theorem State.modGens_route (s : State) (d : DieId) (gid : Nat) (f : List (Nat × Nat × Nat) → List (Nat × Nat × Nat)) : (s.modGens d gid f).route = s.route := rfl
@[simp] theorem State.modGens_links (s : State) (d : DieId) (gid : Nat) (f : List (Nat × Nat × Nat) → List (Nat × Nat × Nat)) : (s.modGens d gid f).links = s.links := rfl
@[simp] theorem State.modGens_keys (s : State) (d : DieId) (gid : Nat) (f : List (Nat × Nat × Nat) → List (Nat × Nat × Nat)) : (s.modGens d gid f).keys = s.keys := rfl
@[simp] theorem State.modGens_fwMeas (s : State) (d : DieId) (gid : Nat) (f : List (Nat × Nat × Nat) → List (Nat × Nat × Nat)) : (s.modGens d gid f).fwMeas = s.fwMeas := rfl
@[simp] theorem State.modGens_bringup (s : State) (d : DieId) (gid : Nat) (f : List (Nat × Nat × Nat) → List (Nat × Nat × Nat)) : (s.modGens d gid f).bringup = s.bringup := rfl
@[simp] theorem State.modGens_boot (s : State) (d : DieId) (gid : Nat) (f : List (Nat × Nat × Nat) → List (Nat × Nat × Nat)) : (s.modGens d gid f).boot = s.boot := rfl
@[simp] theorem State.modGens_ringBase (s : State) (d : DieId) (gid : Nat) (f : List (Nat × Nat × Nat) → List (Nat × Nat × Nat)) : (s.modGens d gid f).ringBase = s.ringBase := rfl
@[simp] theorem State.modGens_ringHead (s : State) (d : DieId) (gid : Nat) (f : List (Nat × Nat × Nat) → List (Nat × Nat × Nat)) : (s.modGens d gid f).ringHead = s.ringHead := rfl
@[simp] theorem State.modGens_harvested (s : State) (d : DieId) (gid : Nat) (f : List (Nat × Nat × Nat) → List (Nat × Nat × Nat)) : (s.modGens d gid f).harvested = s.harvested := rfl
@[simp] theorem State.modGens_launches (s : State) (d : DieId) (gid : Nat) (f : List (Nat × Nat × Nat) → List (Nat × Nat × Nat)) : (s.modGens d gid f).launches = s.launches := rfl
@[simp] theorem State.modGens_launchQueues (s : State) (d : DieId) (gid : Nat) (f : List (Nat × Nat × Nat) → List (Nat × Nat × Nat)) : (s.modGens d gid f).launchQueues = s.launchQueues := rfl
@[simp] theorem State.modGens_sets (s : State) (d : DieId) (gid : Nat) (f : List (Nat × Nat × Nat) → List (Nat × Nat × Nat)) : (s.modGens d gid f).sets = s.sets := rfl
@[simp] theorem State.modGens_sessions (s : State) (d : DieId) (gid : Nat) (f : List (Nat × Nat × Nat) → List (Nat × Nat × Nat)) : (s.modGens d gid f).sessions = s.sessions := rfl
@[simp] theorem State.modGens_reqs (s : State) (d : DieId) (gid : Nat) (f : List (Nat × Nat × Nat) → List (Nat × Nat × Nat)) : (s.modGens d gid f).reqs = s.reqs := rfl
@[simp] theorem State.modGens_pend (s : State) (d : DieId) (gid : Nat) (f : List (Nat × Nat × Nat) → List (Nat × Nat × Nat)) : (s.modGens d gid f).pend = s.pend := rfl
@[simp] theorem State.modGens_stores (s : State) (d : DieId) (gid : Nat) (f : List (Nat × Nat × Nat) → List (Nat × Nat × Nat)) : (s.modGens d gid f).stores = s.stores := rfl
@[simp] theorem State.modGens_packets (s : State) (d : DieId) (gid : Nat) (f : List (Nat × Nat × Nat) → List (Nat × Nat × Nat)) : (s.modGens d gid f).packets = s.packets := rfl
@[simp] theorem State.modGens_smsgs (s : State) (d : DieId) (gid : Nat) (f : List (Nat × Nat × Nat) → List (Nat × Nat × Nat)) : (s.modGens d gid f).smsgs = s.smsgs := rfl
@[simp] theorem State.modGens_kept (s : State) (d : DieId) (gid : Nat) (f : List (Nat × Nat × Nat) → List (Nat × Nat × Nat)) : (s.modGens d gid f).kept = s.kept := rfl
@[simp] theorem State.modGens_saves (s : State) (d : DieId) (gid : Nat) (f : List (Nat × Nat × Nat) → List (Nat × Nat × Nat)) : (s.modGens d gid f).saves = s.saves := rfl
@[simp] theorem State.modGens_badLines (s : State) (d : DieId) (gid : Nat) (f : List (Nat × Nat × Nat) → List (Nat × Nat × Nat)) : (s.modGens d gid f).badLines = s.badLines := rfl
@[simp] theorem State.modGens_inbox (s : State) (d : DieId) (gid : Nat) (f : List (Nat × Nat × Nat) → List (Nat × Nat × Nat)) : (s.modGens d gid f).inbox = s.inbox := rfl
@[simp] theorem State.modGens_out (s : State) (d : DieId) (gid : Nat) (f : List (Nat × Nat × Nat) → List (Nat × Nat × Nat)) : (s.modGens d gid f).out = s.out := rfl
@[simp] theorem State.modGens_seq (s : State) (d : DieId) (gid : Nat) (f : List (Nat × Nat × Nat) → List (Nat × Nat × Nat)) : (s.modGens d gid f).seq = s.seq := rfl
@[simp] theorem State.modGens_nextId (s : State) (d : DieId) (gid : Nat) (f : List (Nat × Nat × Nat) → List (Nat × Nat × Nat)) : (s.modGens d gid f).nextId = s.nextId := rfl
@[simp] theorem State.modGens_cur (s : State) (d : DieId) (gid : Nat) (f : List (Nat × Nat × Nat) → List (Nat × Nat × Nat)) : (s.modGens d gid f).cur = s.cur := rfl
@[simp] theorem State.modGens_issue (s : State) (d : DieId) (gid : Nat) (f : List (Nat × Nat × Nat) → List (Nat × Nat × Nat)) : (s.modGens d gid f).issue = s.issue := rfl
@[simp] theorem State.modGens_snap (s : State) (d : DieId) (gid : Nat) (f : List (Nat × Nat × Nat) → List (Nat × Nat × Nat)) : (s.modGens d gid f).snap = s.snap := rfl
@[simp] theorem State.modGens_kwr (s : State) (d : DieId) (gid : Nat) (f : List (Nat × Nat × Nat) → List (Nat × Nat × Nat)) : (s.modGens d gid f).kwr = s.kwr := rfl
@[simp] theorem State.modGens_partOf (s : State) (d : DieId) (gid : Nat) (f : List (Nat × Nat × Nat) → List (Nat × Nat × Nat)) (e : DieId) : (s.modGens d gid f).partOf e = s.partOf e := rfl
@[simp] theorem State.modGens_diesOf (s : State) (d : DieId) (gid : Nat) (f : List (Nat × Nat × Nat) → List (Nat × Nat × Nat)) (q : PartId) : (s.modGens d gid f).diesOf q = s.diesOf q := rfl
@[simp] theorem State.modGens_part (s : State) (d : DieId) (gid : Nat) (f : List (Nat × Nat × Nat) → List (Nat × Nat × Nat)) (q : PartId) : (s.modGens d gid f).part q = s.part q := rfl

/-! ## Groups -/

/-- Looking up a group after an update that keeps group numbers. -/
theorem State.group_modGroup (s : State) (d : DieId) (gid : Nat) (f : Group → Group) (hf : ∀ G, (f G).gid = G.gid) :
    (s.modGroup d gid f).group d gid = (s.group d gid).map f := by
  unfold State.group State.modGroup
  rw [State.die_modDie]
  unfold Die.group Die.modGroup
  by_cases h : gid = 0
  · simp [h]
  · simp only [h, if_false]
    exact find?_modFirst _ f _ (by simp [hf])

/-- Two updates of one group are one. -/
theorem State.modGroup_modGroup (s : State) (d : DieId) (gid : Nat) (f h : Group → Group) (hf : ∀ G, (f G).gid = G.gid) :
    (s.modGroup d gid f).modGroup d gid h = s.modGroup d gid fun G => h (f G) := by
  have e : (s.dies.set d.val ((s.dies.get d).modGroup gid f)).set d.val (((s.dies.get d).modGroup gid f).modGroup gid h)
      = s.dies.set d.val ((s.dies.get d).modGroup gid fun G => h (f G)) := by
    rw [Vector.set_set]
    congr 1
    unfold Die.modGroup
    by_cases hz : gid = 0
    · simp [hz]
    · simp only [hz, if_false]
      congr 2
      exact modFirst_modFirst _ f h _ (by simp [hf])
  unfold State.modGroup State.modDie vset
  simp only
  have g : (s.dies.set d.val ((s.dies.get d).modGroup gid f)).get d = (s.dies.get d).modGroup gid f := vset_get s.dies d _
  rw [g, e]

theorem Group.lane_modLanes (G : Group) (xs : List Nat) (f : Lane → Lane) (hf : ∀ l, (f l).x = l.x) (x : Nat) :
    (G.modLanes xs f).lane x = (G.lane x).map fun l => if xs.contains x then f l else l := by
  unfold Group.lane Group.modLanes
  simp only
  rw [find?_map_if Lane.x (fun l => xs.contains l.x) f hf]
  cases e : G.lanes.find? fun l => l.x == x with
  | none => rfl
  | some l => simp [find?_key e]
@[simp] theorem Group.modLanes_hoods (G : Group) (xs : List Nat) (f : Lane → Lane) : (G.modLanes xs f).hoods = G.hoods := rfl
@[simp] theorem Group.modLanes_gid (G : Group) (xs : List Nat) (f : Lane → Lane) : (G.modLanes xs f).gid = G.gid := rfl
@[simp] theorem Group.modHood_lanes (G : Group) (lo : Nat) (f : Hood → Hood) : (G.modHood lo f).lanes = G.lanes := rfl
@[simp] theorem Group.modHood_gid (G : Group) (lo : Nat) (f : Hood → Hood) : (G.modHood lo f).gid = G.gid := rfl

end Sys2Proof.Machine
end

