-- ==== Sys2Proof/Laws/Thread.lean ====
section
/-! SUPPORT. Laws of threads: what performing a word comes to for threads that stand ready, and what completing it leaves. -/
namespace Sys2Proof.Machine

/-! ## Threads of a group -/

theorem Group.hood_modHood (G : Group) (lo : Nat) (f : Hood → Hood) (hf : ∀ h, (f h).lo = h.lo) (l : Nat) :
    (G.modHood lo f).hood l = (G.hood l).map fun h => if h.lo = lo then f h else h := by
  have := find?_map_if Hood.lo (fun h => decide (h.lo = lo)) f hf l G.hoods
  simpa [Group.hood, Group.modHood] using this

@[simp] theorem Group.modCtl_bare (G : Group) (h : Option Nat) (xs : List Nat) (f : Nat → Ctl → Ctl) : (G.modCtl h xs f).bare = G.bare := by
  cases h <;> rfl
@[simp] theorem Group.modCtl_gid (G : Group) (h : Option Nat) (xs : List Nat) (f : Nat → Ctl → Ctl) : (G.modCtl h xs f).gid = G.gid := by
  cases h <;> rfl
theorem Group.lane_modCtl_hood (G : Group) (lo : Nat) (xs : List Nat) (f : Nat → Ctl → Ctl) (x : Nat) :
    (G.modCtl (some lo) xs f).lane x = G.lane x := rfl
theorem Group.hood_modCtl_lanes (G : Group) (xs : List Nat) (f : Nat → Ctl → Ctl) (lo : Nat) :
    (G.modCtl none xs f).hood lo = G.hood lo := rfl
theorem Group.lane_modCtl (G : Group) (xs : List Nat) (f : Nat → Ctl → Ctl) (x : Nat) :
    (G.modCtl none xs f).lane x = (G.lane x).map fun l => if xs.contains x then { l with ctl := f l.x l.ctl } else l := by
  unfold Group.modCtl
  rw [Group.lane_modLanes]
  intro _; rfl
theorem Group.hood_modCtl (G : Group) (lo : Nat) (xs : List Nat) (f : Nat → Ctl → Ctl) (l : Nat) :
    (G.modCtl (some lo) xs f).hood l = (G.hood l).map fun h => if h.lo = lo then { h with ctl := f h.lo h.ctl } else h := by
  unfold Group.modCtl
  rw [Group.hood_modHood]
  intro _; rfl

/-- Control states alone change no register. -/
theorem Group.g_modCtl (G : Group) (h : Option Nat) (xs : List Nat) (f : Nat → Ctl → Ctl) (k : Option Nat) (x r : Nat) :
    (G.modCtl h xs f).g k x r = G.g k x r := by
  unfold Group.g
  cases h with
  | none =>
    cases k with
    | none =>
      simp only [Group.lane_modCtl]
      cases G.lane x with
      | none => rfl
      | some l => simp only [Option.map_some]; split <;> rfl
    | some lo => rfl
  | some lo =>
    cases k with
    | none => rfl
    | some l =>
      simp only [Group.hood_modCtl]
      cases G.hood l with
      | none => rfl
      | some h => simp only [Option.map_some]; split <;> rfl

/-! ## Settling -/

@[simp] theorem Group.settleJoins_bare (G : Group) : G.settleJoins.bare = G.bare := by unfold Group.settleJoins; split <;> rfl
@[simp] theorem Group.settleJoins_hoods (G : Group) : G.settleJoins.hoods = G.hoods := by unfold Group.settleJoins; split <;> rfl
@[simp] theorem Group.settleJoins_gid (G : Group) : G.settleJoins.gid = G.gid := by unfold Group.settleJoins; split <;> rfl
@[simp] theorem Group.settleSplits_bare (G : Group) : G.settleSplits.bare = G.bare := by unfold Group.settleSplits; split <;> rfl
@[simp] theorem Group.settleSplits_gid (G : Group) : G.settleSplits.gid = G.gid := by unfold Group.settleSplits; split <;> rfl
@[simp] theorem Group.settle_gid (G : Group) : G.settle.gid = G.gid := by simp [Group.settle]
@[simp] theorem Group.settle_bare (G : Group) : G.settle.bare = G.bare := by simp [Group.settle]

/-- Settling waits for siblings changes only what the threads of a group wait for so. -/
theorem Group.lane_settleSplits (G : Group) (x : Nat) : ∃ a : Lane → List (Nat × Nat),
    G.settleSplits.lane x = (G.lane x).map fun l => { l with ctl := { l.ctl with after := a l } } := by
  unfold Group.lane Group.settleSplits
  split
  · exact ⟨_, find?_map_key Lane.x (fun l => { l with ctl := { l.ctl with after := l.ctl.after.filter fun r => G.owing r.1 r.2 } }) (fun _ => rfl) x G.lanes⟩
  · refine ⟨fun l => l.ctl.after, ?_⟩
    cases G.lanes.find? fun l => l.x == x <;> rfl
theorem Group.hood_settleSplits (G : Group) (lo : Nat) : ∃ a : Hood → List (Nat × Nat),
    G.settleSplits.hood lo = (G.hood lo).map fun h => { h with ctl := { h.ctl with after := a h } } := by
  unfold Group.hood Group.settleSplits
  split
  · exact ⟨_, find?_map_key Hood.lo (fun h => { h with ctl := { h.ctl with after := h.ctl.after.filter fun r => G.owing r.1 r.2 } }) (fun _ => rfl) lo G.hoods⟩
  · refine ⟨fun h => h.ctl.after, ?_⟩
    cases G.hoods.find? fun h => h.lo == lo <;> rfl

/-- A lane after settling: its registers stay, and one that waits in no JOIN keeps its control state, but for the siblings it waits for. -/
theorem Group.lane_settle (G : Group) (x : Nat) : ∃ c : Lane → Ctl, G.settle.lane x = (G.lane x).map (fun l => { l with ctl := c l }) ∧
    ∀ l, l.ctl.wait ≠ .join → ∃ a, c l = { l.ctl with after := a } := by
  obtain ⟨a, ha⟩ := Group.lane_settleSplits G.settleJoins x
  unfold Group.settle
  rw [ha]
  unfold Group.lane Group.settleJoins
  split
  · refine ⟨fun l => { (if l.ctl.wait == .join && G.joinFree l then { l.ctl with wait := .none, prog := 0, pc := l.ctl.pc + 4, chain := [], chainPc := 0, windows := [], owes := false } else l.ctl) with
      after := a (if l.ctl.wait == .join && G.joinFree l then { l with ctl := { l.ctl with wait := .none, prog := 0, pc := l.ctl.pc + 4, chain := [], chainPc := 0, windows := [], owes := false } } else l) }, ?_, ?_⟩
    · simp only
      rw [find?_map_if Lane.x (fun l => l.ctl.wait == .join && G.joinFree l)]
      rotate_left
      · intro _; rfl
      cases G.lanes.find? fun l => l.x == x with
      | none => rfl
      | some l => simp only [Option.map_some]; split <;> simp [*]
    · intro l h
      have : (l.ctl.wait == .join) = false := by simpa using h
      exact ⟨a l, by simp only [this, Bool.false_and, Bool.false_eq_true, if_false]⟩
  · refine ⟨fun l => { l.ctl with after := a l }, ?_, fun _ _ => ⟨_, rfl⟩⟩
    cases G.lanes.find? fun l => l.x == x <;> rfl
/-- A hood after settling keeps its registers and its control state, but for the siblings it waits for. -/
theorem Group.hood_settle (G : Group) (lo : Nat) : ∃ a : Hood → List (Nat × Nat),
    G.settle.hood lo = (G.hood lo).map fun h => { h with ctl := { h.ctl with after := a h } } := by
  obtain ⟨a, ha⟩ := Group.hood_settleSplits G.settleJoins lo
  refine ⟨a, ?_⟩
  unfold Group.settle
  rw [ha]
  unfold Group.hood
  rw [Group.settleJoins_hoods]

theorem Group.g_settle (G : Group) (k : Option Nat) (x r : Nat) : G.settle.g k x r = G.g k x r := by
  unfold Group.g
  cases k with
  | none => obtain ⟨c, h, _⟩ := Group.lane_settle G x; simp only [h]; cases G.lane x <;> rfl
  | some lo => obtain ⟨a, h⟩ := Group.hood_settle G lo; simp only [h]; cases G.hood lo <;> rfl

/-- A thread that waits in no JOIN keeps its control state, but for the siblings it waits for. -/
theorem Group.ctlOf_settle (G : Group) (k : Option Nat) (x : Nat) (h1 : (G.ctlOf k x).wait ≠ .join) :
    ∃ a, G.settle.ctlOf k x = { G.ctlOf k x with after := a } := by
  unfold Group.ctlOf at *
  cases k with
  | none =>
    obtain ⟨c, h, hc⟩ := Group.lane_settle G x
    simp only [h] at *
    cases e : G.lane x with
    | none => exact ⟨_, rfl⟩
    | some l => simp only [e, Option.map_some, Option.getD_some] at *; exact hc l h1
  | some lo =>
    obtain ⟨a, h⟩ := Group.hood_settle G lo
    simp only [h] at *
    cases e : G.hood lo with
    | none => exact ⟨_, rfl⟩
    | some l => simp only [Option.map_some, Option.getD_some]; exact ⟨_, rfl⟩

/-! ## The state but for a group's threads -/

/-- An update of the issuing threads' group that changes only threads is none, apart from them. -/
theorem State.still_modGroup (s : State) (w : Who) (f : Group → Group) (hf : ∀ G, (f G).bare = G.bare) :
    (s.modGroup w.d w.gid f).still w = s.still w := by
  unfold State.still
  rw [State.modGroup_modGroup _ _ _ _ _ (fun G => by have := congrArg Group.gid (hf G); exact this)]
  simp only [hf]
theorem State.g_modGroup (s : State) (w : Who) (f : Group → Group) (hf : ∀ G, (f G).gid = G.gid) (h : Option Nat) (x r : Nat) :
    (s.modGroup w.d w.gid f).g { w with hood := h } x r =
      match s.group w.d w.gid with | some G => (f G).g h x r | none => 0 := by
  unfold State.g
  rw [State.group_modGroup _ _ _ _ hf]
  cases s.group w.d w.gid <;> rfl
theorem State.ctlAt_modGroup (s : State) (w : Who) (f : Group → Group) (hf : ∀ G, (f G).gid = G.gid) (x : Nat) :
    (s.modGroup w.d w.gid f).ctlAt w x = match s.group w.d w.gid with | some G => (f G).ctlOf w.hood x | none => {} := by
  unfold State.ctlAt
  rw [State.group_modGroup _ _ _ _ hf]
  cases s.group w.d w.gid <;> rfl

/-! ## Completing a word -/

/-- Where a word's end takes index `x`. -/
def State.destOf (s : State) (w : Who) (safe : Nat → Bool) (tgt : Nat → DWord) (x : Nat) : DWord :=
  let G := (s.group w.d w.gid).getD { gid := w.gid }
  if safe x && w.gid ≠ 0 && w.xs.contains x && G.wholeWave w safe x then s.safeTarget w.d (tgt x) else tgt x
@[simp] theorem State.destOf_unsafe (s : State) (w : Who) (tgt : Nat → DWord) : s.destOf w unsafePoint tgt = tgt := by
  funext x; simp [State.destOf, unsafePoint]

theorem State.finish_eq (s : State) (w : Who) (u : Use) (tok : Option Nat) (safe : Nat → Bool) (tgt : Nat → DWord) :
    s.finish w u tok safe tgt = s.modGroup w.d w.gid fun G =>
      (G.modCtl w.hood w.all fun x c => c.advance u (w.xs.contains x) tok (s.destOf w safe tgt x)).settle := by
  unfold State.finish State.settle State.modCtl
  simp only
  rw [State.modGroup_modGroup _ _ _ _ _ (by intro G; simp)]
  rfl

theorem State.finish_still (s : State) (w : Who) (u : Use) (tok : Option Nat) (safe : Nat → Bool) (tgt : Nat → DWord) :
    (s.finish w u tok safe tgt).still w = s.still w := by
  rw [State.finish_eq, State.still_modGroup]
  intro G; simp
theorem State.finish_g (s : State) (w : Who) (u : Use) (tok : Option Nat) (safe : Nat → Bool) (tgt : Nat → DWord) (h : Option Nat) (x r : Nat) :
    (s.finish w u tok safe tgt).g { w with hood := h } x r = s.g { w with hood := h } x r := by
  rw [State.finish_eq, State.g_modGroup _ _ _ (by intro G; simp)]
  unfold State.g
  cases s.group w.d w.gid with
  | none => rfl
  | some G => simp only [Group.g_settle, Group.g_modCtl]

/-- The issuing threads, as their group holds them. -/
def Group.holds (G : Group) (w : Who) : Prop := match w.hood with
  | some lo => (G.hood lo).isSome
  | none => ∀ x ∈ w.all, (G.lane x).isSome

theorem Group.ctlOf_modCtl (G : Group) (w : Who) (f : Nat → Ctl → Ctl) (hG : G.holds w) (x : Nat) (hx : x ∈ w.all) :
    ∃ y, (G.modCtl w.hood w.all f).ctlOf w.hood x = f y (G.ctlOf w.hood x) ∧ (w.hood = none → y = x) ∧ (∀ lo, w.hood = some lo → y = lo) := by
  obtain ⟨d, gid, core, hood, all, xs, pc, cp, hints, prog, cap, mixed⟩ := w
  unfold Group.holds at hG
  unfold Group.ctlOf
  cases hood with
  | none =>
    simp only at hG hx ⊢
    obtain ⟨l, hl⟩ := Option.isSome_iff_exists.mp (hG x hx)
    refine ⟨x, ?_, by simp, by simp⟩
    rw [Group.lane_modCtl, hl]
    have hk : l.x = x := find?_key (key := Lane.x) hl
    simp [hx, hk]
  | some lo =>
    simp only at hG ⊢
    obtain ⟨h, hh⟩ := Option.isSome_iff_exists.mp hG
    refine ⟨lo, ?_, by simp, by simp⟩
    rw [Group.hood_modCtl, hh]
    have hk : h.lo = lo := find?_key (key := Hood.lo) hh
    simp [hk]

/-- The issuing threads after a word: the control state of each has advanced. -/
theorem State.finish_ctlAt (s : State) (w : Who) (u : Use) (tok : Option Nat) (safe : Nat → Bool) (tgt : Nat → DWord) (G : Group)
    (hg : s.group w.d w.gid = some G) (hG : G.holds w) (x : Nat) (hx : x ∈ w.all) :
    ∃ y a, (s.finish w u tok safe tgt).ctlAt w x =
        { (G.ctlOf w.hood x).advance u (w.xs.contains y) tok (s.destOf w safe tgt y) with after := a } ∧
      (w.hood = none → y = x) ∧ (∀ lo, w.hood = some lo → y = lo) := by
  rw [State.finish_eq, State.ctlAt_modGroup _ _ _ (by intro G; simp), hg]
  simp only
  obtain ⟨y, h1, h2⟩ := Group.ctlOf_modCtl G w (fun x c => c.advance u (w.xs.contains x) tok (s.destOf w safe tgt x)) hG x hx
  obtain ⟨a, ha⟩ := Group.ctlOf_settle (G.modCtl w.hood w.all fun x c => c.advance u (w.xs.contains x) tok (s.destOf w safe tgt x)) w.hood x
    (by rw [h1]; simp [Ctl.advance])
  exact ⟨y, a, by rw [ha, h1], h2⟩

/-- `Goes`, from what stands before the word's end: `s'` differs from `u` in threads only, and holds the new registers. -/
theorem Goes.finish {s s' u : State} {w : Who} {v : Nat → Nat → Option Word} {G : Group} (us : Use) (tok : Option Nat) (safe : Nat → Bool)
    (tgt dst : Nat → DWord) (hg : s'.group w.d w.gid = some G) (hG : G.holds w) (still : s'.still w = u.still w)
    (regs : ∀ x ∈ w.all, ∀ r, s'.g w x r = (v x r).getD (s.g w x r))
    (others : ∀ h x r, h ≠ w.hood ∨ (h = none ∧ x ∉ w.all) → s'.g { w with hood := h } x r = s.g { w with hood := h } x r)
    (hd : ∀ x ∈ w.all, ∀ y, (w.hood = none → y = x) → (∀ lo, w.hood = some lo → y = lo) → s'.destOf w safe tgt y = dst x) :
    Goes s (s'.finish w us tok safe tgt) u w v dst := by
  refine ⟨by rw [State.finish_still, still], ?_, ?_, ?_, ?_⟩
  · intro x hx r
    rw [← regs x hx r]
    exact State.finish_g s' w us tok safe tgt w.hood x r
  · intro h x r hh
    rw [State.finish_g, others h x r hh]
  · intro x hx
    obtain ⟨y, a, h1, h2, h3⟩ := State.finish_ctlAt s' w us tok safe tgt G hg hG x hx
    rw [h1]; exact hd x hx y h2 h3
  · intro x hx
    obtain ⟨y, a, h1, _⟩ := State.finish_ctlAt s' w us tok safe tgt G hg hG x hx
    rw [h1]; rfl

/-! ## Threads that stand ready -/

/-- Lanes of a group that issue together are held by it. -/
theorem Who.ofLanes_holds {d : DieId} {gid : Nat} {G : Group} {ls : List Lane} {w : Who} (h : Who.ofLanes d gid G ls = some w)
    (hl : ∀ l ∈ ls, l ∈ G.lanes) : w.d = d ∧ w.gid = gid ∧ w.hood = none ∧ w.xs = w.all ∧ w.all ≠ [] ∧ G.holds w := by
  cases ls with
  | nil => cases h
  | cons l ls =>
    cases h
    refine ⟨rfl, rfl, rfl, rfl, by simp, ?_⟩
    intro x hx
    obtain ⟨m, hm, rfl⟩ := List.mem_map.mp hx
    unfold Group.lane
    rw [List.find?_isSome]
    exact ⟨m, hl m hm, by simp⟩

/-- Threads that issue are held by their group; a hood issues for its range. -/
theorem State.who_holds {s : State} {a : Agent} {w : Who} {G : Group} (h : s.who a = some w) (hg : s.group w.d w.gid = some G) :
    G.holds w ∧ w.xs = w.all ∧ (∀ d i, a ≠ .carder d i) ∧ a ≠ .none ∧
      (∀ lo, w.hood = some lo → ∃ hd, G.hood lo = some hd ∧ hd.lo = lo ∧ w.all = range lo hd.hi ∧ hd.ctl.pc = w.pc) ∧
      (w.hood = none → w.all ≠ []) := by
  have lanes : ∀ (d : DieId) (gid : Nat) (G' : Group) (ls : List Lane), s.group d gid = some G' → Who.ofLanes d gid G' ls = some w →
      (∀ l ∈ ls, l ∈ G'.lanes) → (∀ d i, a ≠ .carder d i) → a ≠ .none → G.holds w ∧ w.xs = w.all ∧ (∀ d i, a ≠ .carder d i) ∧ a ≠ .none ∧
      (∀ lo, w.hood = some lo → ∃ hd, G.hood lo = some hd ∧ hd.lo = lo ∧ w.all = range lo hd.hi ∧ hd.ctl.pc = w.pc) ∧
      (w.hood = none → w.all ≠ []) := by
    intro d gid G' ls hG' ho hl h1 h2
    obtain ⟨rfl, rfl, hh, hxs, hne, hold⟩ := Who.ofLanes_holds ho hl
    rw [hG'] at hg; cases hg
    exact ⟨hold, hxs, h1, h2, by simp [hh], fun _ => hne⟩
  cases a with
  | none => cases h
  | carder d i => cases h
  | gld d gid id => cases h
  | hood d gid lo =>
    unfold State.who at h
    simp only at h
    split at h
    · cases h
    · rename_i G' hG'
      split at h
      · cases h
      · rename_i hd hh
        cases h
        simp only at hg
        rw [hG'] at hg; cases hg
        have hk : hd.lo = lo := find?_key (key := Hood.lo) hh
        refine ⟨by simp [Group.holds, hh], rfl, by simp, by simp, ?_, by simp⟩
        intro lo' e
        simp only [Option.some.injEq] at e
        subst e
        exact ⟨hd, hh, hk, by rw [hk], rfl⟩
  | lanes d gid slot pc =>
    unfold State.who at h
    simp only at h
    split at h
    · cases h
    · rename_i G' hG'
      refine lanes d gid G' _ hG' h (fun l hm => ?_) (by simp) (by simp)
      exact (List.mem_filter.mp (List.mem_filter.mp hm).1).1
  | waiting d gid x =>
    unfold State.who at h
    simp only at h
    split at h
    · cases h
    · rename_i G' hG'
      refine lanes d gid G' _ hG' h (fun l hm => ?_) (by simp) (by simp)
      unfold Group.waitingWith at hm
      split at hm
      · cases hm
      · exact (List.mem_filter.mp hm).1

theorem Ready.holds {s : State} {i : Instr} {w : Who} {G : Group} (h : Ready s i w G) : G.holds w := (State.who_holds h.who h.group).1
theorem Ready.hd {s : State} {i : Instr} {w : Who} {G : Group} (h : Ready s i w G) {lo : Nat} (e : w.hood = some lo) :
    ∃ k, G.hood lo = some k ∧ k.lo = lo ∧ w.all = range lo k.hi ∧ k.ctl.pc = w.pc := (State.who_holds h.who h.group).2.2.2.2.1 lo e
/-- The participants are among the indices that issue. -/
theorem State.selected_sub (s : State) (w : Who) {x : Nat} (h : x ∈ s.selected w) : x ∈ w.all := by
  unfold State.selected at h
  split at h
  · split at h
    · exact h
    · exact (List.mem_filter.mp h).1
  · exact (List.mem_filter.mp h).1
theorem Ready.ne {s : State} {i : Instr} {w : Who} {G : Group} (h : Ready s i w G) : w.all ≠ [] := by
  intro e
  obtain ⟨x, hx⟩ := List.exists_mem_of_ne_nil _ h.sel
  have := State.selected_sub s w hx
  simp [e] at this

/-- No result holds a control-flow word of threads that stand ready. -/
theorem Ready.free' {s : State} {i : Instr} {w : Who} {G : Group} (h : Ready s i w G) (xs : List Nat) (hx : ∀ x ∈ xs, x ∈ w.all) :
    s.holdBusy { w with xs := xs } i.use = (s, { w with xs := xs }) := by
  unfold State.holdBusy
  rw [h.group]
  simp only
  rw [if_pos]
  simp only [List.isEmpty_iff, List.filter_eq_nil_iff, Bool.not_eq_true]
  intro x hm
  cases e : i.use.ctl with
  | false => rfl
  | true => simp [h.free e x (hx x hm)]

/-- PERFORMING A WORD comes down to its body, for threads that stand ready. -/
theorem issued_ready {s : State} {i : Instr} {w : Who} {G : Group} (h : Ready s i w G) (body : Who → State → Eff)
    (cbody : DieId → Nat → Carder → List Hint → State → CEff) (hc : ∀ t, body (s.taking w) s ≠ .cond t) :
    issued i body cbody s = .next (match body (s.taking w) s with
      | .expand => s.expandThread w
      | e => s.apply (s.taking w) i e) := by
  have hw := h.who
  obtain ⟨_, hxs, hnc, hnn, _, _⟩ := State.who_holds h.who h.group
  have hrun : issued i body cbody s = .next (runThread i body w s) := by
    unfold issued
    cases hcur : s.cur with
    | none => exact absurd hcur hnn
    | carder d inst => exact absurd hcur (hnc d inst)
    | hood d gid lo => rw [hcur] at hw; simp only; rw [hw]
    | lanes d gid slot pc => rw [hcur] at hw; simp only; rw [hw]
    | waiting d gid x => rw [hcur] at hw; simp only; rw [hw]
    | gld d gid id => rw [hcur] at hw; cases hw
  rw [hrun]
  congr 1
  unfold runThread
  rw [h.check]
  simp only
  have hne : w.all.isEmpty = false := by simpa using h.ne
  have hs := h.sel
  rw [ne_eq, ← List.isEmpty_iff, Bool.not_eq_true] at hs
  cases hh : w.hood with
  | none =>
    simp only
    unfold runLanes
    rw [h.free' _ fun x => State.selected_sub s w]
    simp only [hne, hs, Bool.false_and, Bool.false_eq_true, if_false]
    show (match body (s.taking w) s with | .expand | .cond _ => s | e => s.apply (s.taking w) i e) = _
    have : s.expandThread w = s := by unfold State.expandThread; rw [hh]
    cases hb : body (s.taking w) s with
    | cond t => exact absurd hb (hc t)
    | expand => simp [this]
    | _ => rfl
  | some lo =>
    simp only
    have hwhole : s.selected w = w.all := h.whole (by rw [hh]; simp)
    rw [h.group]
    simp only
    have hm : (if (i.mergePoint || w.hints.any (· == .merge)) = true then G.mergeCheck lo else .proceed) = .proceed := by
      by_cases hp : (i.mergePoint || w.hints.any (· == .merge)) = true
      · rw [if_pos hp, h.point lo hh hp]
      · rw [if_neg hp]
    rw [hm]
    simp only
    have htake : s.taking w = w := by
      unfold State.taking
      rw [hwhole]
      cases w
      simp only at hxs
      subst hxs
      rfl
    rw [htake] at hc ⊢
    have hself : s.holdBusy w i.use = (s, w) := by
      have := h.free' w.xs (by rw [hxs]; simp)
      exact this
    unfold runHood
    simp only [hself, hne, Bool.false_eq_true, if_false]
    cases hpred : predOf w.hints with
    | none =>
      simp only
      cases hb : body w s with
      | cond t => exact absurd hb (hc t)
      | _ => rfl
    | some g =>
      simp only [hwhole]
      have hcc : condCase (w.all.headD 0) (w.all.headD 0 + w.all.length) w.all = .once true := by
        unfold condCase
        simp [hne]
      rw [hcc]
      simp only [if_true]
      cases hb : body w s with
      | cond t => exact absurd hb (hc t)
      | _ => rfl

/-- Threads that came to a word by one chain perform it as one. -/
theorem Ready.perClass {s : State} {i : Instr} {w : Who} {G : Group} (h : Ready s i w G) (body : Who → State → Eff) :
    perClass i body (s.taking w) s = body (s.taking w) s := by
  unfold Sys2Proof.Machine.perClass State.taking
  simp [h.one]
theorem threadWord_ready {s : State} {i : Instr} {w : Who} {G : Group} (h : Ready s i w G) (body : Who → State → Eff)
    (hc : ∀ t, body (s.taking w) s ≠ .cond t) :
    threadWord i body s = .next (match body (s.taking w) s with
      | .expand => s.expandThread w
      | e => s.apply (s.taking w) i e) := by
  unfold threadWord
  rw [issued_ready h _ _ (by rw [h.perClass]; exact hc), h.perClass]
theorem jointWord_ready {s : State} {i : Instr} {w : Who} {G : Group} (h : Ready s i w G) (body : Who → State → Eff)
    (hc : ∀ t, body (s.taking w) s ≠ .cond t) :
    jointWord i body s = .next (match body (s.taking w) s with
      | .expand => s.expandThread w
      | e => s.apply (s.taking w) i e) := issued_ready h body _ hc

/-- A word that carders have too is a thread's word for a thread. -/
theorem sharedWord_ready {s : State} {i : Instr} {w : Who} {G : Group} (h : Ready s i w G) (body : Who → State → Eff)
    (cbody : DieId → Nat → Carder → List Hint → State → CEff) : sharedWord i body cbody s = threadWord i body s := by
  obtain ⟨_, _, hnc, hnn, _, _⟩ := State.who_holds h.who h.group
  unfold sharedWord threadWord issued
  cases hcur : s.cur with
  | none => exact absurd hcur hnn
  | carder d inst => exact absurd hcur (hnc d inst)
  | hood d gid lo => rfl
  | lanes d gid slot pc => rfl
  | waiting d gid x => rfl
  | gld d gid id => rfl

/-- A word whose body completes at PC + 4. -/
theorem threadWord_ok {s s' : State} {i : Instr} {w : Who} {G : Group} (h : Ready s i w G) (body : Who → State → Eff) (tok : Option Nat)
    (hb : body (s.taking w) s = .ok s' tok) :
    threadWord i body s = .next (s'.finish (s.taking w) i.use tok unsafePoint fun _ => w.pc + 4) := by
  rw [threadWord_ready h body (by rw [hb]; simp), hb]
  rfl

/-- The same, with what it leaves. -/
theorem threadWord_goes {s s' u : State} {i : Instr} {w : Who} {G G' : Group} {v : Nat → Nat → Option Word} (h : Ready s i w G)
    (body : Who → State → Eff) (tok : Option Nat) (hb : body (s.taking w) s = .ok s' tok) (hg : s'.group w.d w.gid = some G')
    (hG : G'.holds w) (still : s'.still w = u.still w)
    (regs : ∀ x ∈ w.all, ∀ r, s'.g w x r = (v x r).getD (s.g w x r))
    (others : ∀ h x r, h ≠ w.hood ∨ (h = none ∧ x ∉ w.all) → s'.g { w with hood := h } x r = s.g { w with hood := h } x r) :
    ∃ t, threadWord i body s = .next t ∧ Goes s t u w v w.next := by
  refine ⟨_, threadWord_ok h body tok hb, ?_⟩
  have := Goes.finish (s := s) (s' := s') (u := u) (w := s.taking w) (v := v) (G := G') i.use tok unsafePoint w.next w.next hg hG still regs others (by simp [Who.next])
  exact ⟨this.still, this.regs, this.others, this.pc, this.chain⟩

/-! ## Waves of a pair -/

theorem positionsOf_solo {G : Group} {w : Who} (h : Solo G w) (hh : w.hood = none) (hne : w.all ≠ []) :
    ∃ p, positionsOf G w.all = [p] ∧ ∀ x ∈ w.all, G.pos x = p := by
  obtain h | ⟨p, hp, hx⟩ := h
  · exact absurd hh h
  · refine ⟨p, ?_, hx⟩
    unfold positionsOf
    have he : (fun q => w.all.any fun x => G.pos x == q) = fun q => q == p := by
      funext q
      rw [Bool.eq_iff_iff]
      simp only [List.any_eq_true, beq_iff_eq]
      constructor
      · rintro ⟨x, hm, rfl⟩; exact hx x hm
      · rintro rfl
        obtain ⟨x, hm⟩ := List.exists_mem_of_ne_nil _ hne
        exact ⟨x, hm, hx x hm⟩
    rw [he]
    clear he hx
    generalize G.positions = n at hp
    induction n with
    | zero => omega
    | succ n ih =>
      rw [List.range_succ, List.filter_append]
      by_cases h : p < n
      · rw [ih h]
        simp only [List.filter_cons, List.filter_nil, beq_iff_eq]
        rw [if_neg (by omega)]
        simp
      · have : p = n := by omega
        subst this
        have hnil : (List.range p).filter (fun q => q == p) = [] := by
          rw [List.filter_eq_nil_iff]
          intro a ha
          simp only [beq_iff_eq]
          have := List.mem_range.mp ha
          omega
        rw [hnil]
        simp

/-- A word that each wave performs by itself is performed once by a single one. -/
theorem waveWord_ready {s : State} {i : Instr} {w : Who} {G : Group} (h : Ready s i w G) (hs : Solo G w) (body : Who → State → Eff)
    (hc : ∀ t, body (s.taking w) s ≠ .cond t) :
    waveWord i body s = .next (match body (s.taking w) s with
      | .expand => s.expandThread w
      | e => s.apply (s.taking w) i e) := by
  unfold waveWord
  cases hh : w.hood with
  | some lo =>
    have hp : perWave i body (s.taking w) s = body (s.taking w) s := by
      unfold perWave State.taking
      simp only [hh]
    rw [issued_ready h, hp]
    rw [hp]; exact hc
  | none =>
    obtain ⟨p, hpos, hx⟩ := positionsOf_solo hs hh h.ne
    have hsel := h.sel
    rw [ne_eq, ← List.isEmpty_iff, Bool.not_eq_true] at hsel
    have hall : w.all.filter (fun x => G.pos x == p) = w.all := by
      rw [List.filter_eq_self]; intro x hm; simp [hx x hm]
    have hxs : (s.selected w).filter (fun x => G.pos x == p) = s.selected w := by
      rw [List.filter_eq_self]; intro x hm; simp [hx x (State.selected_sub s w hm)]
    have hp : perWave i body (s.taking w) s = .done (match body (s.taking w) s with
        | .expand | .cond _ => s | e => s.apply (s.taking w) i e) := by
      have hg := h.group
      have hmix := h.one
      clear hc h hs
      obtain ⟨d, gid, core, hood, all, xs, pc, cp, hints, prog, cap, mixed⟩ := w
      simp only at hh hg hpos hall hmix
      subst hh hmix
      unfold perWave inParts Who.part
      simp only [List.map_cons, List.map_nil, State.taking, hg, hpos, List.foldl_cons, List.foldl_nil, hall, hxs, hsel, Bool.false_and, Bool.false_eq_true, if_false]
      rfl
    rw [issued_ready h _ _ (by rw [hp]; simp), hp]
    have : s.expandThread w = s := by unfold State.expandThread; rw [hh]
    cases hb : body (s.taking w) s with
    | cond t => exact absurd hb (hc t)
    | expand => simp [State.apply, this]
    | _ => rfl

theorem waveWord_ok {s s' : State} {i : Instr} {w : Who} {G : Group} (h : Ready s i w G) (hs : Solo G w) (body : Who → State → Eff) (tok : Option Nat)
    (hb : body (s.taking w) s = .ok s' tok) :
    waveWord i body s = .next (s'.finish (s.taking w) i.use tok unsafePoint fun _ => w.pc + 4) := by
  rw [waveWord_ready h hs body (by rw [hb]; simp), hb]
  rfl
theorem waveWord_goes {s s' u : State} {i : Instr} {w : Who} {G G' : Group} {v : Nat → Nat → Option Word} (h : Ready s i w G) (hs : Solo G w)
    (body : Who → State → Eff) (tok : Option Nat) (hb : body (s.taking w) s = .ok s' tok) (hg : s'.group w.d w.gid = some G')
    (hG : G'.holds w) (still : s'.still w = u.still w)
    (regs : ∀ x ∈ w.all, ∀ r, s'.g w x r = (v x r).getD (s.g w x r))
    (others : ∀ h x r, h ≠ w.hood ∨ (h = none ∧ x ∉ w.all) → s'.g { w with hood := h } x r = s.g { w with hood := h } x r) :
    ∃ t, waveWord i body s = .next t ∧ Goes s t u w v w.next := by
  refine ⟨_, waveWord_ok h hs body tok hb, ?_⟩
  have := Goes.finish (s := s) (s' := s') (u := u) (w := s.taking w) (v := v) (G := G') i.use tok unsafePoint w.next w.next hg hG still regs others (by simp [Who.next])
  exact ⟨this.still, this.regs, this.others, this.pc, this.chain⟩

/-! ## Carders -/

/-- A carder that stands ready performs the body of its word. -/
theorem sharedWord_carder {s : State} {i : Instr} {d : DieId} {inst : Nat} (h : CarderReady s i d inst) (body : Who → State → Eff)
    (cbody : DieId → Nat → Carder → List Hint → State → CEff) :
    let c := (s.die d).carder inst
    let fin := fun (u : State) (k : Carder) (tgt : DWord) => u.modCarder d inst fun o =>
      { o with c := k.c, p0 := 0, p1 := 0, p2 := 0, ctl := { o.ctl with pc := tgt, chain := [], wait := .none, stepped := true } }
    sharedWord i body cbody s = .next (match cbody d inst c c.ctl.chain s with
      | .ok k u => fin u k (c.ctl.pc + 4)
      | .jump u k tgt => fin u k tgt
      | .hold u => u.modCarder d inst fun o => { o with ctl := { o.ctl with wait := .wait, stepped := true } }
      | .done u => u
      | .trap inner fa => s.card d inst inner c.ctl.pc fa) := by
  intro c fin
  unfold sharedWord issued
  rw [h.issue]
  simp only
  congr 1
  unfold runCarder
  simp only [h.hints, h.word, Bool.not_true, Bool.false_and, Bool.false_eq_true, if_false]
  cases e : predOf ((s.die d).carder inst).ctl.chain with
  | none => rfl
  | some g =>
    have hb : (vget ((s.die d).carder inst).c g.toNat 0).getLsbD 0 = true := h.pred g e
    simp only [hb, Bool.not_true, Bool.false_eq_true, if_false]
    rfl

end Sys2Proof.Machine
end

