-- ==== Sys2Proof/Laws/Order.lean ====
section
/-! SUPPORT. Laws of the order of writes (R120, R295): what a use of bytes, a release and an acquire change, and that a GLD's end changes no register. -/
namespace Sys2Proof.Machine

/-- The group after bytes have come to be bound to an object for it. -/
def Group.using (G : Group) (u : UsedRegion) : Group := if u.obj = 0 ∨ G.used.contains u = true then G else { G with used := u :: G.used }
theorem State.useBytes_group (s : State) (d : DieId) (gid : Nat) (obj : Word) (sp : Option Nat) (a n : Nat) :
    (s.useBytes d gid obj sp a n).group d gid = (s.group d gid).map (·.using ⟨obj, sp, a, n⟩) := by
  unfold State.useBytes Group.using
  by_cases h : obj = 0
  · simp [h]
  · simp only [h, if_false, false_or]
    exact State.group_modGroup _ _ _ _ fun G => by split <;> rfl
theorem State.useBytes_mem (s : State) (d : DieId) (gid : Nat) (obj : Word) (sp : Option Nat) (a n : Nat) : (s.useBytes d gid obj sp a n).mem = s.mem := by
  unfold State.useBytes; split <;> rfl
theorem State.useBytes_reqs (s : State) (d : DieId) (gid : Nat) (obj : Word) (sp : Option Nat) (a n : Nat) : (s.useBytes d gid obj sp a n).reqs = s.reqs := by
  unfold State.useBytes; split <;> rfl

/-- A release notes the writes that it passes and forgets those that are complete; nothing else changes. -/
theorem State.noteRelease_late (s : State) (d : DieId) (gid : Nat) (obj : Word) (ids : List Nat) (h : ids ≠ []) :
    ((s.noteRelease d gid obj ids).die d).active.late = (s.die d).active.late.filter (s.stillLate d) ++ ids.map fun i => { obj := obj, gid := gid, id := i } := by
  simp [State.noteRelease, h, State.modBank]
theorem State.noteRelease_nil (s : State) (d : DieId) (gid : Nat) (obj : Word) : s.noteRelease d gid obj [] = s := rfl
theorem State.noteRelease_mem (s : State) (d : DieId) (gid : Nat) (obj : Word) (ids : List Nat) : (s.noteRelease d gid obj ids).mem = s.mem := by
  unfold State.noteRelease; split <;> rfl
/-- An acquire notes the group as one that has seen the writes of the object's releases. -/
theorem State.noteAcquire_late (s : State) (d : DieId) (gid : Nat) (obj : Word) :
    ((s.noteAcquire d gid obj).die d).active.late = (s.die d).active.late.map fun e =>
      if e.obj == obj && (obj.getLsbD 31 || e.gid == gid) && !e.seen.contains gid then { e with seen := gid :: e.seen } else e := by
  unfold State.noteAcquire
  split
  · next h => simp [List.isEmpty_iff.1 h]
  · simp [State.modBank]
theorem State.noteAcquire_mem (s : State) (d : DieId) (gid : Nat) (obj : Word) : (s.noteAcquire d gid obj).mem = s.mem := by
  unfold State.noteAcquire; split <;> rfl

/-- A result that has come in closes windows and changes no register. -/
theorem Group.g_resolve (G : Group) (id : Nat) (h : Option Nat) (x r : Nat) :
    (G.resolve id).g h x r = G.g h x r := by
  unfold Group.resolve
  cases h with
  | none =>
    simp only [Group.g, Group.lane, List.find?_map, Function.comp_def]
    cases G.lanes.find? fun l => l.x == x <;> rfl
  | some lo =>
    simp only [Group.g, Group.hood, List.find?_map, Function.comp_def]
    cases G.hoods.find? fun h => h.lo == lo <;> rfl
theorem State.resolve_g (s : State) (w : Who) (id : Nat) (h : Option Nat) (x r : Nat) :
    (s.resolve w.d w.gid id).g { w with hood := h } x r = s.g { w with hood := h } x r := by
  refine (State.g_modGroup s w (·.resolve id) (fun _ => rfl) h x r).trans ?_
  simp only [Group.g_resolve]; rfl
theorem State.resolve_mem (s : State) (d : DieId) (gid id : Nat) : (s.resolve d gid id).mem = s.mem := rfl

end Sys2Proof.Machine
end

