-- ==== Sys2Proof/Laws/PerInstr.lean ====
section
/-! SUPPORT. One lemma per constructor: the class of each row (an event is no word, a carder word and a supervisor word are
words and no word is both, a hint is neither). -/
namespace Sys2Proof.Laws.Classes
open Sys2Proof

/-- What the classes of a row exclude (R25, R36, R325; the events of the table of operations are no words). -/
def Statement (i : Instr) : Prop :=
  (i.encoded = false → i.wellFormed = false) ∧
  (i.supervisor = true → i.encoded = true ∧ i.carderOnly = false ∧ i.isHint = false) ∧
  (i.carderOnly = true → i.encoded = true ∧ i.isHint = false) ∧
  (i.isHint = true → i.encoded = true)

/-- The same as one computation. -/
def check (i : Instr) : Bool :=
  (i.encoded || !(i.supervisor || i.carderOnly || i.isHint)) && !(i.supervisor && (i.carderOnly || i.isHint)) &&
    !(i.carderOnly && i.isHint)

theorem of_check {i : Instr} (h : check i = true) : Statement i := by
  unfold check at h
  refine ⟨fun he => by simp [Instr.wellFormed, he], ?_⟩
  generalize i.encoded = e at *
  generalize i.supervisor = s at *
  generalize i.carderOnly = c at *
  generalize i.isHint = b at *
  revert e s c b
  decide

theorem of_word {i : Instr} (he : i.encoded = true) (hc : i.carderOnly = false) (hh : i.isHint = false) : Statement i := by
  simp [Statement, he, hc, hh]

theorem iadd (d a b : Reg) : Statement (.iadd d a b) := of_check rfl
theorem isub (d a b : Reg) : Statement (.isub d a b) := of_check rfl
theorem iaddSatI32 (d a b : Reg) : Statement (.iaddSatI32 d a b) := of_check rfl
theorem isubSatI32 (d a b : Reg) : Statement (.isubSatI32 d a b) := of_check rfl
theorem iaddSatN32 (d a b : Reg) : Statement (.iaddSatN32 d a b) := of_check rfl
theorem isubSatN32 (d a b : Reg) : Statement (.isubSatN32 d a b) := of_check rfl
theorem iabs (d a : Reg) : Statement (.iabs d a) := of_check rfl
theorem ineg (d a : Reg) : Statement (.ineg d a) := of_check rfl
theorem imul (d a b : Reg) (la : La) : Statement (.imul d a b la) := of_check rfl
theorem imulhI32 (d a b : Reg) (la : La) : Statement (.imulhI32 d a b la) := of_check rfl
theorem imulhN32 (d a b : Reg) (la : La) : Statement (.imulhN32 d a b la) := of_check rfl
theorem imad (d a b : Reg) (la : La) : Statement (.imad d a b la) := of_check rfl
theorem iminI32 (d a b : Reg) : Statement (.iminI32 d a b) := of_check rfl
theorem iminN32 (d a b : Reg) : Statement (.iminN32 d a b) := of_check rfl
theorem imaxI32 (d a b : Reg) : Statement (.imaxI32 d a b) := of_check rfl
theorem imaxN32 (d a b : Reg) : Statement (.imaxN32 d a b) := of_check rfl
theorem and (d a b : Reg) : Statement (.and d a b) := of_check rfl
theorem or (d a b : Reg) : Statement (.or d a b) := of_check rfl
theorem xor (d a b : Reg) : Statement (.xor d a b) := of_check rfl
theorem andn (d a b : Reg) : Statement (.andn d a b) := of_check rfl
theorem not (d a : Reg) : Statement (.not d a) := of_check rfl
theorem shl (d a b : Reg) : Statement (.shl d a b) := of_check rfl
theorem shr (d a b : Reg) : Statement (.shr d a b) := of_check rfl
theorem sar (d a b : Reg) : Statement (.sar d a b) := of_check rfl
theorem rol (d a b : Reg) : Statement (.rol d a b) := of_check rfl
theorem bfxI32 (d a b : Reg) : Statement (.bfxI32 d a b) := of_check rfl
theorem bfxN32 (d a b : Reg) : Statement (.bfxN32 d a b) := of_check rfl
theorem bfi (d a b : Reg) : Statement (.bfi d a b) := of_check rfl
theorem popc (d a : Reg) : Statement (.popc d a) := of_check rfl
theorem clz (d a : Reg) : Statement (.clz d a) := of_check rfl
theorem ctz (d a : Reg) : Statement (.ctz d a) := of_check rfl
theorem brev (d a : Reg) : Statement (.brev d a) := of_check rfl
theorem icmp (c : ICond) (d a b : Reg) : Statement (.icmp c d a b) := of_check rfl
theorem sel (d a b : Reg) : Statement (.sel d a b) := of_check rfl
theorem mov (d a : Reg) : Statement (.mov d a) := of_check rfl
theorem movk (d : Reg) (k : KReg) : Statement (.movk d k) := of_check rfl
theorem idivI32 (d a b : Reg) (la : La) : Statement (.idivI32 d a b la) := of_check rfl
theorem idivN32 (d a b : Reg) (la : La) : Statement (.idivN32 d a b la) := of_check rfl
theorem iremI32 (d a b : Reg) (la : La) : Statement (.iremI32 d a b la) := of_check rfl
theorem iremN32 (d a b : Reg) (la : La) : Statement (.iremN32 d a b la) := of_check rfl
theorem movi (d : Reg) (imm : BitVec 13) : Statement (.movi d imm) := of_check rfl
theorem addi (d a : Reg) (imm : BitVec 13) : Statement (.addi d a imm) := of_check rfl
theorem andi (d a : Reg) (imm : BitVec 13) : Statement (.andi d a imm) := of_check rfl
theorem ori (d a : Reg) (imm : BitVec 13) : Statement (.ori d a imm) := of_check rfl
theorem xori (d a : Reg) (imm : BitVec 13) : Statement (.xori d a imm) := of_check rfl
theorem shli (d a : Reg) (imm : BitVec 5) : Statement (.shli d a imm) := of_check rfl
theorem kadd (k b : KReg) : Statement (.kadd k b) := of_check rfl
theorem ksub (k b : KReg) : Statement (.ksub k b) := of_check rfl
theorem kmul (k b : KReg) : Statement (.kmul k b) := of_check rfl
theorem kand (k b : KReg) : Statement (.kand k b) := of_check rfl
theorem kor (k b : KReg) : Statement (.kor k b) := of_check rfl
theorem kxor (k b : KReg) : Statement (.kxor k b) := of_check rfl
theorem kshl (k b : KReg) : Statement (.kshl k b) := of_check rfl
theorem kshr (k b : KReg) : Statement (.kshr k b) := of_check rfl
theorem kcmp (c : ICond) (k b : KReg) : Statement (.kcmp c k b) := of_check rfl
theorem kmov (k b : KReg) : Statement (.kmov k b) := of_check rfl
theorem kmovi (k : KReg) (imm : BitVec 17) : Statement (.kmovi k imm) := of_check rfl
theorem kld (k : KReg) (n : Buf) (o : KReg) : Statement (.kld k n o) := of_check rfl
theorem kst (k : KReg) (n : Buf) (o : KReg) : Statement (.kst k n o) := of_check rfl
theorem rds (d : Reg) (s : BitVec 8) (hi : Bool) : Statement (.rds d s hi) := of_check rfl
theorem movts (n : Tile) (k : KReg) : Statement (.movts n k) := of_check rfl
theorem fadd (d a b : Reg) (la : La) : Statement (.fadd d a b la) := of_check rfl
theorem fsub (d a b : Reg) (la : La) : Statement (.fsub d a b la) := of_check rfl
theorem fmul (d a b : Reg) (la : La) : Statement (.fmul d a b la) := of_check rfl
theorem ffma (d a b : Reg) (la : La) : Statement (.ffma d a b la) := of_check rfl
theorem fmin (d a b : Reg) (la : La) : Statement (.fmin d a b la) := of_check rfl
theorem fmax (d a b : Reg) (la : La) : Statement (.fmax d a b la) := of_check rfl
theorem fneg (d a : Reg) (la : La) : Statement (.fneg d a la) := of_check rfl
theorem fabs (d a : Reg) (la : La) : Statement (.fabs d a la) := of_check rfl
theorem fcmp (c : FCond) (d a b : Reg) (la : La) : Statement (.fcmp c d a b la) := of_check rfl
theorem frcp (d a : Reg) (la : La) : Statement (.frcp d a la) := of_check rfl
theorem frsq (d a : Reg) (la : La) : Statement (.frsq d a la) := of_check rfl
theorem fsqrt (d a : Reg) (la : La) : Statement (.fsqrt d a la) := of_check rfl
theorem fexp2 (d a : Reg) (la : La) : Statement (.fexp2 d a la) := of_check rfl
theorem flog2 (d a : Reg) (la : La) : Statement (.flog2 d a la) := of_check rfl
theorem ftanh (d a : Reg) (la : La) : Statement (.ftanh d a la) := of_check rfl
theorem fclass (d a : Reg) (la : La) : Statement (.fclass d a la) := of_check rfl
theorem cvtifI32 (d a : Reg) (la : La) : Statement (.cvtifI32 d a la) := of_check rfl
theorem cvtifN32 (d a : Reg) (la : La) : Statement (.cvtifN32 d a la) := of_check rfl
theorem cvtfiI32 (d a : Reg) (la : La) : Statement (.cvtfiI32 d a la) := of_check rfl
theorem cvtfiN32 (d a : Reg) (la : La) : Statement (.cvtfiN32 d a la) := of_check rfl
theorem fcvt (dst src : NumFmt) (d a : Reg) (la : La) : Statement (.fcvt dst src d a la) := of_check rfl
theorem hadd2H16 (d a b : Reg) (la : La) : Statement (.hadd2H16 d a b la) := of_check rfl
theorem hmul2H16 (d a b : Reg) (la : La) : Statement (.hmul2H16 d a b la) := of_check rfl
theorem hfma2H16 (d a b : Reg) (la : La) : Statement (.hfma2H16 d a b la) := of_check rfl
theorem hadd2B16 (d a b : Reg) (la : La) : Statement (.hadd2B16 d a b la) := of_check rfl
theorem hmul2B16 (d a b : Reg) (la : La) : Statement (.hmul2B16 d a b la) := of_check rfl
theorem hfma2B16 (d a b : Reg) (la : La) : Statement (.hfma2B16 d a b la) := of_check rfl
theorem bkpack (d a : Reg) (n : FmtSlot) (la : La) : Statement (.bkpack d a n la) := of_check rfl
theorem bkunpk (d a : Reg) (n : FmtSlot) (la : La) : Statement (.bkunpk d a n la) := of_check rfl
theorem fdiv (d a b : Reg) (la : La) : Statement (.fdiv d a b la) := of_check rfl
theorem shfl (m : ShflMode) (d a b : Reg) (la : La) : Statement (.shfl m d a b la) := of_check rfl
theorem vote (m : VoteMode) (d a : Reg) (la : La) : Statement (.vote m d a la) := of_check rfl
theorem lred (o : RedOp) (d a : Reg) (la : La) : Statement (.lred o d a la) := of_check rfl
theorem lscanIncl (o : RedOp) (d a : Reg) (la : La) : Statement (.lscanIncl o d a la) := of_check rfl
theorem lscanExcl (o : RedOp) (d a : Reg) (la : La) : Statement (.lscanExcl o d a la) := of_check rfl
theorem lredF32 (o : FRedOp) (d a : Reg) (la : La) : Statement (.lredF32 o d a la) := of_check rfl
theorem lscanInclF32 (o : FRedOp) (d a : Reg) (la : La) : Statement (.lscanInclF32 o d a la) := of_check rfl
theorem lscanExclF32 (o : FRedOp) (d a : Reg) (la : La) : Statement (.lscanExclF32 o d a la) := of_check rfl
theorem gshfl (m : GshflMode) (d a b : Reg) (la : La) : Statement (.gshfl m d a b la) := of_check rfl
theorem form (d a b : Reg) : Statement (.form d a b) := of_check rfl
theorem formTag (d a : Reg) : Statement (.formTag d a) := of_check rfl
theorem hcount (d : Reg) : Statement (.hcount d) := of_check rfl
theorem reform (d : Reg) (k : KReg) : Statement (.reform d k) := of_check rfl
theorem bra (off : BitVec 19) : Statement (.bra off) := of_check rfl
theorem brc (c : Reg) (off : BitVec 19) : Statement (.brc c off) := of_check rfl
theorem call (d : Reg) (off : BitVec 19) : Statement (.call d off) := of_check rfl
theorem ret (a : Reg) : Statement (.ret a) := of_check rfl
theorem brx (a : Reg) : Statement (.brx a) := of_check rfl
theorem join (k : KReg) : Statement (.join k) := of_check rfl
theorem regclaim (n : Reg) : Statement (.regclaim n) := of_check rfl
theorem reggive (n : Reg) : Statement (.reggive n) := of_check rfl
theorem trapi (code : BitVec 12) : Statement (.trapi code) := of_check rfl
theorem brk (code : BitVec 12) : Statement (.brk code) := of_check rfl
theorem ld (w : Width) (d : Reg) (n : Buf) (a : Reg) (la : La) : Statement (.ld w d n a la) := of_check rfl
theorem st (w : Width) (s : Reg) (n : Buf) (a : Reg) : Statement (.st w s n a) := of_check rfl
theorem fill (w : SpillWidth) (d a : Reg) (la : La) : Statement (.fill w d a la) := of_check rfl
theorem spill (w : SpillWidth) (s a : Reg) : Statement (.spill w s a) := of_check rfl
theorem brld (n m : Buf) (a : Reg) (la : La) : Statement (.brld n m a la) := of_check rfl
theorem gld (w : GldWidth) (d a : Reg) (la : La) : Statement (.gld w d a la) := of_check rfl
theorem binit (s : Scope) (k b : KReg) : Statement (.binit s k b) := of_check rfl
theorem bretire (k : KReg) : Statement (.bretire k) := of_check rfl
theorem barrive (k : KReg) : Statement (.barrive k) := of_check rfl
theorem bexpect (k b : KReg) : Statement (.bexpect k b) := of_check rfl
theorem wait (k b : KReg) : Statement (.wait k b) := of_check rfl
theorem btest (d : Reg) (k b : KReg) : Statement (.btest d k b) := of_check rfl
theorem ctest (d : Reg) (k b : KReg) : Statement (.ctest d k b) := of_check rfl
theorem rinit (k b : KReg) : Statement (.rinit k b) := of_check rfl
theorem rprodTake (k : KReg) : Statement (.rprodTake k) := of_check rfl
theorem rprodFill (k : KReg) : Statement (.rprodFill k) := of_check rfl
theorem rconsTake (d : Reg) (k : KReg) : Statement (.rconsTake d k) := of_check rfl
theorem rconsFree (k : KReg) : Statement (.rconsFree k) := of_check rfl
theorem waitCnt (c : Counter) (limit : BitVec 8) : Statement (.waitCnt c limit) := of_check rfl
theorem tcopy (n : Buf) (k c : KReg) : Statement (.tcopy n k c) := of_check rfl
theorem tcopyMc (n : Buf) (k c : KReg) : Statement (.tcopyMc n k c) := of_check rfl
theorem gath (n : Buf) (k : KReg) (a : Reg) : Statement (.gath n k a) := of_check rfl
theorem scat (n : Buf) (k : KReg) (a : Reg) : Statement (.scat n k a) := of_check rfl
theorem crun (c : BitVec 1) (k a : KReg) : Statement (.crun c k a) := of_check rfl
theorem cldx (m : CWidth) (d a b : Reg) : Statement (.cldx m d a b) := of_check rfl
theorem cstx (m : CWidth) (s a b : Reg) : Statement (.cstx m s a b) := of_check rfl
theorem caddr (d a b : Reg) : Statement (.caddr d a b) := of_check rfl
theorem cxfer (a b c : Reg) : Statement (.cxfer a b c) := of_check rfl
theorem csect (m : SWidth) (d a b : Reg) : Statement (.csect m d a b) := of_check rfl
theorem cmrg (m : SWidth) (d a b : Reg) : Statement (.cmrg m d a b) := of_check rfl
theorem carrive (a b : Reg) : Statement (.carrive a b) := of_check rfl
theorem want (n : Buf) (k : KReg) : Statement (.want n k) := of_check rfl
theorem offer (n : Buf) (k : KReg) : Statement (.offer n k) := of_check rfl
theorem unwant (k : KReg) : Statement (.unwant k) := of_check rfl
theorem nevict (k : KReg) : Statement (.nevict k) := of_check rfl
theorem ntwr (k b : KReg) : Statement (.ntwr k b) := of_check rfl
theorem credCanon (s : Scope) (k a : KReg) : Statement (.credCanon s k a) := of_check rfl
theorem credExact (s : Scope) (k a : KReg) : Statement (.credExact s k a) := of_check rfl
theorem cclose (k : KReg) : Statement (.cclose k) := of_check rfl
theorem phase (s : Scope) (k b : KReg) : Statement (.phase s k b) := of_check rfl
theorem bar (s : Scope) : Statement (.bar s) := of_check rfl
theorem tmma (td ta tb : Tile) (fa fb : FmtSlot) (sa sb acc : Bool) (la : La) : Statement (.tmma td ta tb fa fb sa sb acc la) := of_check rfl
theorem tmmai (td ta tb : Tile) (fa fb : FmtSlot) (sa sb acc : Bool) (la : La) : Statement (.tmmai td ta tb fa fb sa sb acc la) := of_check rfl
theorem tld (tr : Bool) (t : Tile) (n : Buf) (a : Reg) (la : La) : Statement (.tld tr t n a la) := of_check rfl
theorem tst (tr : Bool) (t : Tile) (n : Buf) (a : Reg) : Statement (.tst tr t n a) := of_check rfl
theorem tdrain (t : Tile) (n : Buf) (a : Reg) (la : La) : Statement (.tdrain t n a la) := of_check rfl
theorem tdrainFmt (f : FmtSlot) (t : Tile) (n : Buf) (a : Reg) (la : La) : Statement (.tdrainFmt f t n a la) := of_check rfl
theorem trowrd (d : Reg) (t : Tile) (b : Reg) (la : La) : Statement (.trowrd d t b la) := of_check rfl
theorem trowwr (t : Tile) (a b : Reg) : Statement (.trowwr t a b) := of_check rfl
theorem tscale (t : Tile) (a : Reg) : Statement (.tscale t a) := of_check rfl
theorem tzero (t : Tile) : Statement (.tzero t) := of_check rfl
theorem tdred (t : Tile) (k : KReg) : Statement (.tdred t k) := of_check rfl
theorem atom (o : RedOp) (d a b : Reg) (la : La) : Statement (.atom o d a b la) := of_check rfl
theorem atomXchg (d a b : Reg) (la : La) : Statement (.atomXchg d a b la) := of_check rfl
theorem acas (d a b : Reg) (la : La) : Statement (.acas d a b la) := of_check rfl
theorem acasX64 (d a b : Reg) (la : La) : Statement (.acasX64 d a b la) := of_check rfl
theorem acas128 (d a b : Reg) (la : La) : Statement (.acas128 d a b la) := of_check rfl
theorem sld (d a : Reg) (la : La) : Statement (.sld d a la) := of_check rfl
theorem sst (a b : Reg) : Statement (.sst a b) := of_check rfl
theorem sldX64 (d a : Reg) (la : La) : Statement (.sldX64 d a la) := of_check rfl
theorem sstX64 (a b : Reg) : Statement (.sstX64 a b) := of_check rfl
theorem ared (o : RedOp) (a b : Reg) : Statement (.ared o a b) := of_check rfl
theorem qpush (k b : KReg) : Statement (.qpush k b) := of_check rfl
theorem qpop (d : Reg) (k b : KReg) : Statement (.qpop d k b) := of_check rfl
theorem qlen (d : Reg) (k : KReg) : Statement (.qlen d k) := of_check rfl
theorem nemit (k b : KReg) : Statement (.nemit k b) := of_check rfl
theorem bind (k b : KReg) : Statement (.bind k b) := of_check rfl
theorem acq (s : Scope) (k : KReg) : Statement (.acq s k) := of_check rfl
theorem rel (s : Scope) (k : KReg) : Statement (.rel s k) := of_check rfl
theorem tfence (s : Scope) : Statement (.tfence s) := of_check rfl
theorem dinv (s : Scope) : Statement (.dinv s) := of_check rfl
theorem sysrd (d : Reg) (n : BitVec 12) : Statement (.sysrd d n) := of_word rfl rfl rfl
theorem syswr (n : BitVec 12) (a : Reg) : Statement (.syswr n a) := of_check rfl
theorem eqrd (d : Reg) (cls : BitVec 4) (inst : BitVec 8) : Statement (.eqrd d cls inst) := of_check rfl
theorem eqwr (cls : BitVec 4) (inst : BitVec 8) (a : Reg) : Statement (.eqwr cls inst a) := of_check rfl
theorem haltp (p : BitVec 3) : Statement (.haltp p) := of_check rfl
theorem icinv (a : Reg) : Statement (.icinv a) := of_check rfl
theorem sysrdX64 (d : Reg) (n : BitVec 12) : Statement (.sysrdX64 d n) := of_word rfl rfl rfl
theorem syswrX64 (n : BitVec 12) (a : Reg) : Statement (.syswrX64 n a) := of_check rfl
theorem hintImmhi (v : BitVec 19) : Statement (.hintImmhi v) := of_check rfl
theorem hintOrd (s : Scope) (o : Order) (c : CachePolicy) : Statement (.hintOrd s o c) := of_check rfl
theorem hintFmtx (r : HintRound) (sat sr : Bool) (seed : BitVec 16) : Statement (.hintFmtx r sat sr seed) := of_check rfl
theorem hintLife (us : BitVec 22) : Statement (.hintLife us) := of_check rfl
theorem hintPred (g : Reg) : Statement (.hintPred g) := of_check rfl
theorem carderCommandStart (d : DieId) (inst : Nat) : Statement (.carderCommandStart d inst) := of_check rfl
theorem unitLanding (d : DieId) (inst : Nat) : Statement (.unitLanding d inst) := of_check rfl
theorem mergeHoldTimeout (d : DieId) (gid lo : Nat) : Statement (.mergeHoldTimeout d gid lo) := of_check rfl
theorem launchStart (p : PartId) (handle : Word) : Statement (.launchStart p handle) := of_check rfl
theorem groupPlacement (d : DieId) : Statement (.groupPlacement d) := of_check rfl
theorem workSteal (d : DieId) : Statement (.workSteal d) := of_check rfl
theorem groupEnd (d : DieId) (gid : Nat) : Statement (.groupEnd d gid) := of_check rfl
theorem launchEnd (launch : Nat) : Statement (.launchEnd launch) := of_check rfl
theorem binTimerExpiry (launch node : Nat) : Statement (.binTimerExpiry launch node) := of_check rfl
theorem binDrain (launch node : Nat) : Statement (.binDrain launch node) := of_check rfl
theorem queueMiss (k : Nat) : Statement (.queueMiss k) := of_check rfl
theorem atomicPerform (k : Nat) : Statement (.atomicPerform k) := of_check rfl
theorem syncReplyLanding (k : Nat) : Statement (.syncReplyLanding k) := of_check rfl
theorem interestArrival (k : Nat) : Statement (.interestArrival k) := of_check rfl
theorem tileHeaderArrival (k : Nat) : Statement (.tileHeaderArrival k) := of_check rfl
theorem withdrawalArrival (k : Nat) : Statement (.withdrawalArrival k) := of_check rfl
theorem pendingDeadline (k : Nat) : Statement (.pendingDeadline k) := of_check rfl
theorem offerHeaderArrival (k : Nat) : Statement (.offerHeaderArrival k) := of_check rfl
theorem offerChunkArrival (k : Nat) : Statement (.offerChunkArrival k) := of_check rfl
theorem retentionExpiry (k : Nat) : Statement (.retentionExpiry k) := of_check rfl
theorem chunkLanding (k : Nat) : Statement (.chunkLanding k) := of_check rfl
theorem interestLifetimeExpiry (d : DieId) (k : Nat) : Statement (.interestLifetimeExpiry d k) := of_check rfl
theorem sessionJoin (k : Nat) : Statement (.sessionJoin k) := of_check rfl
theorem sessionClose (k : Nat) : Statement (.sessionClose k) := of_check rfl
theorem sessionResultWrite (k : Nat) : Statement (.sessionResultWrite k) := of_check rfl
theorem migrationComplete (frame : Nat) : Statement (.migrationComplete frame) := of_check rfl
theorem migctlWrite (d : DieId) (v : Word) : Statement (.migctlWrite d v) := of_check rfl
theorem tileWordPerform (d : DieId) (core : Nat) : Statement (.tileWordPerform d core) := of_check rfl
theorem haltComplete (p : PartId) : Statement (.haltComplete p) := of_check rfl
theorem eventDelivery (d : DieId) : Statement (.eventDelivery d) := of_check rfl
theorem tsliceExpiry (p : PartId) : Statement (.tsliceExpiry p) := of_check rfl
theorem tsliceWrite (d : DieId) (v : Word) : Statement (.tsliceWrite d v) := of_check rfl
theorem tpendClear (d : DieId) (v : Word) : Statement (.tpendClear d v) := of_check rfl
theorem haltreq (p : PartId) : Statement (.haltreq p) := of_check rfl
theorem stepHalt (p : PartId) : Statement (.stepHalt p) := of_check rfl
theorem contextSwap (d : DieId) (ctx : Ctx) : Statement (.contextSwap d ctx) := of_check rfl
theorem swapComplete (d : DieId) : Statement (.swapComplete d) := of_check rfl
theorem shadowSave (d : DieId) : Statement (.shadowSave d) := of_check rfl
theorem shadowLoad (d : DieId) (ctx : Ctx) : Statement (.shadowLoad d ctx) := of_check rfl
theorem shadowCreate (d : DieId) (ctx : Ctx) : Statement (.shadowCreate d ctx) := of_check rfl
theorem shadowOpComplete (d : DieId) : Statement (.shadowOpComplete d) := of_check rfl
theorem expand : Statement .expand := of_check rfl
theorem exit : Statement .exit := of_check rfl
theorem yield : Statement .yield := of_check rfl
theorem nop : Statement .nop := of_check rfl
theorem chalt : Statement .chalt := of_check rfl
theorem ifence : Statement .ifence := of_check rfl
theorem trapret : Statement .trapret := of_check rfl
theorem hintMerge : Statement .hintMerge := of_check rfl
theorem malformedWord : Statement .malformedWord := of_check rfl
theorem podGenerationOpen : Statement .podGenerationOpen := of_check rfl
theorem podCombinedArrival : Statement .podCombinedArrival := of_check rfl
theorem podPhaseCount : Statement .podPhaseCount := of_check rfl
theorem podRelease : Statement .podRelease := of_check rfl
theorem linkFlitError : Statement .linkFlitError := of_check rfl
theorem laneSparing : Statement .laneSparing := of_check rfl
theorem headerCrcFailure : Statement .headerCrcFailure := of_check rfl
theorem migrationStart : Statement .migrationStart := of_check rfl
theorem partitionLayoutWrite : Statement .partitionLayoutWrite := of_check rfl
theorem powerOnBringup : Statement .powerOnBringup := of_check rfl
theorem bringupTimeout : Statement .bringupTimeout := of_check rfl
theorem thermalThrottle : Statement .thermalThrottle := of_check rfl
theorem thermalShutdown : Statement .thermalShutdown := of_check rfl
theorem routerFailure : Statement .routerFailure := of_check rfl
theorem eccUncorrectable : Statement .eccUncorrectable := of_check rfl
theorem softErrorCorrected : Statement .softErrorCorrected := of_check rfl
theorem loaderLoad : Statement .loaderLoad := of_check rfl
theorem loaderIcinv : Statement .loaderIcinv := of_check rfl
theorem loaderReadatt : Statement .loaderReadatt := of_check rfl
theorem loaderInvalidCommand : Statement .loaderInvalidCommand := of_check rfl
theorem translationPublish : Statement .translationPublish := of_check rfl
theorem spdmMeasurements : Statement .spdmMeasurements := of_check rfl
theorem keySlotWrite : Statement .keySlotWrite := of_check rfl
theorem podRouteTableWrite : Statement .podRouteTableWrite := of_check rfl
theorem coreFailure : Statement .coreFailure := of_check rfl

end Sys2Proof.Laws.Classes
end

