-- ==== Sys2Proof/Laws/Registers.lean ====
section
/-! SUPPORT. Laws of the register files: what writing general and uniform registers changes, and words that do only that. -/
namespace Sys2Proof.Machine

theorem mem_span (a n x : Nat) : x ∈ span a n ↔ a ≤ x ∧ x < a + n := by
  induction n generalizing a with
  | zero => simp [span]; try omega
  | succ n ih => simp only [span, List.mem_cons, ih]; omega
theorem mem_range (lo hi x : Nat) : x ∈ range lo hi ↔ lo ≤ x ∧ x < hi := by
  unfold range; rw [mem_span]; omega

/-! ## Writing lanes -/

theorem Group.setLanes_bare (G : Group) (xs : List Nat) (f : Lane → Lane) : (G.modLanes xs f).bare = G.bare := rfl
theorem State.setLanes_still (s : State) (w : Who) (xs : List Nat) (r : Nat) (v : Nat → Word) : (s.setLanes w xs r v).still w = s.still w := by
  unfold State.setLanes
  exact State.still_modGroup s w _ fun _ => rfl
theorem State.setLanes_group (s : State) (w : Who) (xs : List Nat) (r : Nat) (v : Nat → Word) : (s.setLanes w xs r v).group w.d w.gid =
    (s.group w.d w.gid).map fun G => G.modLanes xs fun l => { l with g := vput l.g r (v l.x) } := by
  unfold State.setLanes
  rw [State.group_modGroup]
  intro _; rfl

theorem Group.lane_setLanes (G : Group) (xs : List Nat) (r : Nat) (v : Nat → Word) (x : Nat) :
    (G.modLanes xs fun l => { l with g := vput l.g r (v l.x) }).lane x =
      (G.lane x).map fun l => if xs.contains x then { l with g := vput l.g r (v x) } else l := by
  rw [Group.lane_modLanes]
  rotate_left
  · intro _; rfl
  cases e : G.lane x with
  | none => rfl
  | some l =>
    have hk : l.x = x := find?_key (key := Lane.x) e
    simp [hk]
theorem State.setLanes_g (s : State) (w : Who) (xs : List Nat) (r : Nat) (v : Nat → Word) (x q : Nat) :
    (s.setLanes w xs r v).g { w with hood := none } x q =
      if xs.contains x ∧ q = r ∧ r < 64 ∧ (∃ G, s.group w.d w.gid = some G ∧ (G.lane x).isSome) then v x else s.g { w with hood := none } x q := by
  unfold State.g
  simp only
  rw [State.setLanes_group]
  cases e : s.group w.d w.gid with
  | none => simp
  | some G =>
    simp only [Option.map_some, Group.g, Group.lane_setLanes]
    cases e2 : G.lane x with
    | none => simp [e2]
    | some l =>
      simp only [Option.map_some]
      by_cases hx : xs.contains x = true
      · simp only [hx, if_true, vget_vput]
        by_cases hq : q = r
        · subst hq
          by_cases hr : q < 64
          · simp [hr, e2]
          · simp [hr]
        · simp [hq, Ne.symm hq]
      · have hx' : x ∉ xs := by simpa using hx
        simp [hx']
theorem State.setLanes_g_hood (s : State) (w : Who) (xs : List Nat) (r : Nat) (v : Nat → Word) (lo x q : Nat) :
    (s.setLanes w xs r v).g { w with hood := some lo } x q = s.g { w with hood := some lo } x q := by
  unfold State.g
  simp only
  rw [State.setLanes_group]
  cases s.group w.d w.gid <;> rfl
theorem Group.holds_setLanes (G : Group) (w : Who) (xs : List Nat) (f : Lane → Lane) (hf : ∀ l, (f l).x = l.x) (h : G.holds w) :
    (G.modLanes xs f).holds w := by
  unfold Group.holds at *
  cases e : w.hood with
  | none =>
    simp only [e] at h ⊢
    intro x hx
    rw [Group.lane_modLanes _ _ _ hf]
    simpa using h x hx
  | some lo => simp only [e] at h ⊢; exact h

theorem oneReg_at (P : List Nat) (d : Nat) (f : Nat → Word) (x r : Nat) (z : Word) :
    (oneReg P d f x r).getD z = if P.contains x ∧ r = d then f x else z := by
  unfold oneReg; split <;> rfl

/-- A word that writes one register in lanes. -/
theorem threadWord_setLanes {s : State} {i : Instr} {w : Who} {G : Group} (h : Ready s i w G) (hh : w.hood = none) (body : Who → State → Eff)
    (tok : Option Nat) (d : Nat) (hd : d < 64) (v : Nat → Word) (hb : body (s.taking w) s = .ok (s.setLanes (s.taking w) (s.selected w) d v) tok) :
    ∃ t, threadWord i body s = .next t ∧ Goes s t s w (oneReg (s.selected w) d v) w.next := by
  have hgr := State.setLanes_group s w (s.selected w) d v
  rw [h.group] at hgr
  refine threadWord_goes (u := s) h body tok hb hgr (Group.holds_setLanes G w (s.selected w) _ (fun _ => rfl) h.holds) ?_ ?_ ?_
  · exact State.setLanes_still s w (s.selected w) d v
  · intro x hx r
    have hl : (∃ G, s.group w.d w.gid = some G ∧ (G.lane x).isSome) := by
      refine ⟨G, h.group, ?_⟩
      have := h.holds
      unfold Group.holds at this
      rw [hh] at this
      exact this x hx
    have e := State.setLanes_g s w (s.selected w) d v x r
    have ew : ({ w with hood := none } : Who) = w := by cases w; simp only at hh; subst hh; rfl
    rw [ew] at e
    show (s.setLanes w (s.selected w) d v).g w x r = _
    rw [e, oneReg_at]
    by_cases hc : (s.selected w).contains x = true ∧ r = d
    · rw [if_pos ⟨hc.1, hc.2, hd, hl⟩, if_pos hc]
    · rw [if_neg (fun k => hc ⟨k.1, k.2.1⟩), if_neg hc]
  · intro k x r hk
    show (s.setLanes w (s.selected w) d v).g { w with hood := k } x r = _
    cases k with
    | some lo => exact State.setLanes_g_hood s w (s.selected w) d v lo x r
    | none =>
      rw [State.setLanes_g, if_neg]
      rintro ⟨h1, _⟩
      obtain hk | hk := hk
      · exact hk hh.symm
      · exact hk.2 (State.selected_sub s w (by simpa using h1))

/-! ## Writing a hood's register -/

theorem Form.at_norm (f : Form) (lo hi x : Nat) (hx : lo ≤ x) (hx' : x < hi) : (f.norm lo hi).at lo x = f.at lo x := by
  unfold Form.norm
  split
  · have : x = lo := by omega
    subst this
    simp [Form.at, uni]
  · rfl

theorem State.setForm_group (s : State) (w : Who) (lo r : Nat) (f : Form) (hh : w.hood = some lo) : (s.setForm w r f).group w.d w.gid =
    (s.group w.d w.gid).map fun G => G.modHood lo fun h => { h with g := vput h.g r (f.norm h.lo h.hi) } := by
  unfold State.setForm
  rw [hh]
  simp only
  rw [State.group_modGroup]
  intro _; rfl
theorem State.setForm_still (s : State) (w : Who) (r : Nat) (f : Form) : (s.setForm w r f).still w = s.still w := by
  unfold State.setForm
  cases w.hood with
  | none => rfl
  | some lo => exact State.still_modGroup s w _ fun _ => rfl
theorem Group.hood_setForm (G : Group) (lo r : Nat) (f : Form) (l : Nat) :
    (G.modHood lo fun h => { h with g := vput h.g r (f.norm h.lo h.hi) }).hood l =
      (G.hood l).map fun h => if l = lo then { h with g := vput h.g r (f.norm h.lo h.hi) } else h := by
  rw [Group.hood_modHood]
  rotate_left
  · intro _; rfl
  cases e : G.hood l with
  | none => rfl
  | some h =>
    have hk : h.lo = l := find?_key (key := Hood.lo) e
    simp [hk]

/-- A word that writes one register of a hood by a form. -/
theorem threadWord_setForm {s : State} {i : Instr} {w : Who} {G : Group} (h : Ready s i w G) (lo : Nat) (hh : w.hood = some lo) (body : Who → State → Eff)
    (tok : Option Nat) (d : Nat) (hd : d < 64) (f : Form) (v : Nat → Word) (hv : ∀ x ∈ w.all, f.at lo x = v x)
    (hb : body w s = .ok (s.setForm w d f) tok) :
    ∃ t, threadWord i body s = .next t ∧ Goes s t s w (oneReg w.all d v) w.next := by
  have htake : s.taking w = w := by
    have hx := (State.who_holds h.who h.group).2.1
    unfold State.taking
    rw [h.whole (by rw [hh]; simp)]
    cases w; simp only at hx; subst hx; rfl
  obtain ⟨k, hk, hklo, hall, _⟩ := h.hd hh
  have hgr := State.setForm_group s w lo d f hh
  rw [h.group] at hgr
  refine threadWord_goes (u := s) h body tok (by rw [htake]; exact hb) hgr ?_ (State.setForm_still s w d f) ?_ ?_
  · unfold Group.holds
    rw [hh]
    simp only
    rw [Group.hood_setForm]
    simp [hk]
  · intro x hx r
    rw [oneReg_at]
    have hc : w.all.contains x = true := by simpa using hx
    have hr : lo ≤ x ∧ x < k.hi := by
      rw [hall] at hx
      exact (mem_range lo k.hi x).mp hx
    unfold State.g
    rw [hgr, h.group]
    simp only [hh, Group.g, Option.map_some, Group.hood_setForm, hk, if_true, vget_vput, hc, true_and]
    by_cases hq : r = d
    · subst hq
      simp only [hd, and_self, if_true]
      rw [hklo, Form.at_norm f lo k.hi x hr.1 hr.2, hv x hx]
    · simp [hq, Ne.symm hq]
  · intro kk x r hkk
    unfold State.g
    simp only
    rw [hgr, h.group]
    simp only [Option.map_some, Group.g]
    cases kk with
    | none => rfl
    | some l =>
      simp only [Group.hood_setForm]
      have hne : l ≠ lo := by
        obtain h1 | h1 := hkk
        · intro e; exact h1 (by rw [hh, e])
        · exact absurd h1.1 (by simp)
      cases G.hood l <;> simp [hne]

end Sys2Proof.Machine
end

