-- ==== Sys2Proof/Tests/Slice0.lean ====
section
/-! SUPPORT. The model's own tests: words decoded and refused, results worked out by hand, and for every statement a state and operands that meet the
hypotheses of each of its clauses (`witness_<statement>`). -/

namespace Sys2Proof.Tests
open Sys2Proof Sys2Proof.Machine Sys2Proof.Claims

def pc0 : DWord := 0x1000
def regsOfList (l : List (Nat × Word)) : Vector Word 64 := l.foldl (fun v p => vput v p.1 p.2) (Vector.replicate 64 0)
def formsOfList (l : List (Nat × Form)) : Vector Form 64 := l.foldl (fun v p => vput v p.1 p.2) (Vector.replicate 64 {})
def grp (n : Nat) : Group := { gid := 1, count := n, tiles := 15, slots := [0], alloc := [64], size := 0x8000 }
def lanesG (n : Nat) (hints : List Hint) (g : Nat → List (Nat × Word)) : Group :=
  { grp n with lanes := (span 0 n).map fun x => { x := x, ctl := { pc := pc0, chain := hints, chainPc := 0xFFC }, g := regsOfList (g x) } }
def hoodG (n : Nat) (hints : List Hint) (g : List (Nat × Form)) : Group :=
  { grp n with hoods := [{ lo := 0, hi := n, ctl := { pc := pc0, chain := hints, chainPc := 0xFFC }, g := formsOfList g }] }
def inGroup (G : Group) (a : Agent) : State :=
  ({ State.reset with ready := true, inbox := [], cur := a } : State).modDie 0 fun D =>
    { D with active := { D.active with ctx := 1, groups := [G] } }
def onLanes (G : Group) : State := inGroup G (.lanes 0 1 0 pc0)
def onHood (G : Group) : State := inGroup G (.hood 0 1 0)
def who (s : State) : Who := (s.who s.cur).getD ⟨0, 0, 0, none, [], [], 0, 0, [], 0, [], []⟩
def theG (s : State) : Group := (s.group (who s).d (who s).gid).getD (grp 0)

def pointOk (i : Instr) (w : Who) (G : Group) : Bool :=
  match w.hood with
  | none => true
  | some lo => !(i.mergePoint || w.hints.any (· == .merge)) || match G.mergeCheck lo with | .proceed => true | _ => false
def readyB (s : State) (i : Instr) : Bool :=
  (s.who s.cur).isSome && (s.group (who s).d (who s).gid).isSome && (who s).mixed.isEmpty && (s.precheck (who s) i).isNone && !(s.selected (who s)).isEmpty &&
  ((who s).hood.isNone || decide (s.selected (who s) = (who s).all)) &&
  (!i.use.ctl || (who s).all.all fun x => !((theG s).ctlOf (who s).hood x).outstanding) && pointOk i (who s) (theG s)

theorem ready_of {s : State} {i : Instr} (h : readyB s i = true) : Ready s i (who s) (theG s) := by
  simp only [readyB, Bool.and_eq_true, Bool.or_eq_true, Bool.not_eq_true', decide_eq_true_eq, List.all_eq_true, Option.isSome_iff_exists,
    Option.isNone_iff_eq_none] at h
  obtain ⟨⟨⟨⟨⟨⟨⟨⟨w, hw⟩, ⟨G, hG⟩⟩, hm⟩, hc⟩, hs⟩, hh⟩, hf⟩, hp⟩ := h
  refine ⟨by simp [who, hw], by simp [theG, hG], List.isEmpty_iff.1 hm, hc, ?_, ?_, ?_, ?_⟩
  · intro e; simp [e] at hs
  · intro hn; exact hh.resolve_left hn
  · intro hu x hx; exact (hf.resolve_left (by simp [hu])) x hx
  · intro lo hl hm
    unfold pointOk at hp; rw [hl] at hp; simp only [hm, Bool.not_true, Bool.false_or] at hp; split at hp <;> simp_all


/-- The group and the thread under test, from checks that cost no comparison of whole groups. -/
theorem group_of {s : State} {d : DieId} {gid : Nat} (h : (decide ((who s).d = d) && decide ((who s).gid = gid) && (s.group d gid).isSome) = true) :
    s.group d gid = some (theG s) := by
  simp only [Bool.and_eq_true, decide_eq_true_eq, Option.isSome_iff_exists] at h
  obtain ⟨⟨rfl, rfl⟩, G, hG⟩ := h
  simp [theG, hG]
theorem snap_of {s : State} {d : DieId} {gid : Nat} (e : s.snap = []) (h : (decide ((who s).d = d) && decide ((who s).gid = gid) && (s.group d gid).isSome) = true) :
    s.snapGroup d gid = some (theG s) := by
  unfold State.snapGroup; rw [e]; exact group_of h
theorem who_of {s : State} (h : (s.who s.cur).isSome = true) : s.who s.cur = some (who s) := by
  obtain ⟨w, e⟩ := Option.isSome_iff_exists.1 h
  simp [who, e]

set_option maxRecDepth 100000

/-! ### Integer, floating-point, cross-lane, uniform and form words -/

/-- Two lanes, a hood of four indices; general and uniform registers as the tests need them. -/
def kregs (l : List (Nat × Word)) : Vector Word 192 := l.foldl (fun v p => vput v p.1 p.2) (Vector.replicate 192 0)
def k1 : Vector Word 192 := kregs [(10, 7), (11, 0xFFFFFFFF), (12, 0x80000000), (20, 0x60), (22, 0xFFFFFFFF), (23, 0xFFFFFFFF)]
def lanesA : State := onLanes { lanesG 2 [] (fun x => [(5, 1), (6, 0xFFFFFFFF), (7, BitVec.ofNat 32 (x * x)), (8, 0x3F800000)]) with k := k1 }
def hoodA : State := onHood { hoodG 4 [] [(5, uni 1), (6, ⟨5, 3⟩), (7, uni 9), (8, uni 0x3F800000)] with k := k1 }

theorem witness_IntegerWordsOnLanes : Ready lanesA (.iadd 5 6 7) (who lanesA) (theG lanesA) ∧ (who lanesA).hood = none ∧
    laneResult (immOf (who lanesA).hints) (fun k => lanesA.k (who lanesA) k.toNat) (.iadd 5 6 7) = some (5, fun r => r 6 + r 7) :=
  ⟨ready_of (by decide), by decide, rfl⟩
theorem witness_IntegerWordsInHoods : Ready hoodA (.imul 5 6 7 0) (who hoodA) (theG hoodA) ∧ (who hoodA).hood ≠ none ∧
    once hoodA (who hoodA) (.imul 5 6 7 0) ∧ ∃ f, laneResult (immOf (who hoodA).hints) (fun k => hoodA.k (who hoodA) k.toNat) (.imul 5 6 7 0) = some (5, f) :=
  ⟨ready_of (by decide), by decide, .inr (by unfold uniformIn; decide), _, rfl⟩
theorem witness_ImmediateFromHint : immhiOf [] = none ∧ immhiOf [.immhi 0x7FFFF] = some 0x7FFFF := by decide
theorem witness_FloatWordsOnLanes : Ready lanesA (.fadd 5 8 8 0) (who lanesA) (theG lanesA) ∧ (who lanesA).hood = none ∧
    ∃ f : Nat → (Reg → Word) → Word, ∀ x, floatResult (who lanesA).hints (BitVec.ofNat 32 x) (.fadd 5 8 8 0) = some (5, f x) :=
  ⟨ready_of (by decide), by decide, _, fun _ => rfl⟩
/-- A hood on UNIFORM sources, and one whose source is AFFINE. -/
theorem witness_FloatWordsInHoods : Ready hoodA (.fadd 5 8 8 0) (who hoodA) (theG hoodA) ∧ (who hoodA).hood ≠ none ∧
    (∃ f, floatResult (who hoodA).hints 0 (.fadd 5 8 8 0) = some (5, f)) ∧ (∀ r ∈ (Instr.fadd 5 8 8 0).use.gr, (hoodA.form (who hoodA) r).stride = 0) ∧
    Ready hoodA (.fadd 5 6 8 0) (who hoodA) (theG hoodA) ∧ (hoodA.form (who hoodA) 6).stride ≠ 0 ∧
    ∀ x ∈ (who hoodA).all, ((theG hoodA).ctlOf (who hoodA).hood x).outstanding = false :=
  ⟨ready_of (by decide), by decide, ⟨_, rfl⟩, by decide, ready_of (by decide), by decide, by decide⟩
theorem witness_CrossLaneWords : Ready lanesA (.shfl .idx 5 6 7 0) (who lanesA) (theG lanesA) ∧ (who lanesA).hood = none ∧
    lanesA.snapGroup 0 1 = some (theG lanesA) ∧
    ∃ v : Nat → Word, ∀ x, crossResult (who lanesA).hints (theG lanesA) (lanesA.selected (who lanesA)) x (.shfl .idx 5 6 7 0) = some (5, v x) :=
  ⟨ready_of (by decide), by decide, snap_of rfl (by decide), _, fun _ => rfl⟩
theorem witness_BlockWordsCheckFormat : Ready lanesA (.bkpack 5 8 2 0) (who lanesA) (theG lanesA) ∧
    lanesA.snapGroup 0 1 = some (theG lanesA) ∧ blockSlot (.bkpack 5 8 2 0) = some 2 ∧ blockP ((theG lanesA).fmtSlot 2).fmt = none :=
  ⟨ready_of (by decide), snap_of rfl (by decide), rfl, by decide⟩
/-- The first write of a core cycle, and a second one to the same register. -/
theorem witness_UniformWordsInThreads : Ready lanesA (.kadd 10 11) (who lanesA) (theG lanesA) ∧
    (∃ f, kResult (n := 32) (.kadd 10 11) = some (10, f)) ∧ lanesA.kwr.contains (1, 10) = false ∧
    Ready { lanesA with kwr := [(1, 10)] } (.kadd 10 11) (who lanesA) (theG lanesA) :=
  ⟨ready_of (by decide), ⟨_, rfl⟩, by decide, ready_of (s := { lanesA with kwr := [(1, 10)] }) (by decide)⟩
theorem witness_MovtsWritesShape : Ready lanesA (.movts 14 10) (who lanesA) (theG lanesA) := ready_of (by decide)
/-- In lanes; in a hood of one position; and a hood of two positions, for which POS has no form. -/
def hoodTwo : State := onHood { hoodG 64 [] [] with slots := [0, 1], alloc := [64, 64] }
theorem witness_SpecialRegisterReads : Ready lanesA (.rds 9 12 true) (who lanesA) (theG lanesA) ∧ (who lanesA).hood = none ∧
    Ready hoodA (.rds 9 4 false) (who hoodA) (theG hoodA) ∧ specialFits (who hoodA) (theG hoodA) 4 false ∧
    Ready hoodTwo (.rds 9 4 false) (who hoodTwo) (theG hoodTwo) ∧ ¬specialFits (who hoodTwo) (theG hoodTwo) 4 false :=
  ⟨ready_of (by decide), by decide, ready_of (by decide), by unfold specialFits specialFits.agrees'; decide, ready_of (by decide),
    by unfold specialFits specialFits.agrees'; decide⟩
theorem witness_FormWords : Ready hoodA (.form 9 6 7) (who hoodA) (theG hoodA) ∧ uniformIn hoodA (who hoodA) 7 ∧
    Ready hoodA (.formTag 9 6) (who hoodA) (theG hoodA) ∧ Ready hoodA (.hcount 9) (who hoodA) (theG hoodA) ∧
    Ready lanesA .expand (who lanesA) (theG lanesA) ∧ (who lanesA).hood = none :=
  ⟨ready_of (by decide), by unfold uniformIn; decide, ready_of (by decide), ready_of (by decide), ready_of (by decide), by decide⟩
/-- A test that makes a hood (registers 5 and 6), and one that fails: register 7 is not affine. -/
def lanesR : State := onLanes { lanesG 4 [] (fun x => [(5, 1), (6, BitVec.ofNat 32 (3 * x)), (7, BitVec.ofNat 32 (x * x))]) with k := k1 }
theorem witness_ReformTest : lanesR.group 0 1 = some (theG lanesR) ∧ (who lanesR).xs ≠ [] ∧
    (lanesR.reformed (who lanesR) 9 20 (theG lanesR)).isSome = true ∧ lanesR.reformed (who lanesR) 9 22 (theG lanesR) = none := ⟨group_of (by decide), by decide⟩
theorem witness_ReformMakesHood : Ready hoodA (.reform 9 20) (who hoodA) (theG hoodA) ∧ (who hoodA).hood ≠ none ∧
    Ready lanesR (.reform 9 20) (who lanesR) (theG lanesR) ∧ (who lanesR).hood = none ∧
    (∀ x ∈ lanesR.selected (who lanesR), ((theG lanesR).ctlOf none x).outstanding = false) ∧
    (lanesR.reformed (lanesR.taking (who lanesR)) 9 20 (theG lanesR)).isSome = true ∧
    lanesR.reformed (lanesR.taking (who lanesR)) 9 22 (theG lanesR) = none :=
  ⟨ready_of (by decide), by decide, ready_of (by decide), by decide, by decide, by decide, by decide⟩

/-! ### Values -/

/-- Two lanes at one word, one of which has come by a HINT.IMMHI. -/
def lanesTwo : State := onLanes { lanesG 2 [] (fun _ => []) with
  lanes := [{ x := 0, ctl := { pc := pc0, chainPc := 0xFFC }, g := regsOfList [] }, { x := 1, ctl := { pc := pc0, chain := [.immhi 1], chainPc := 0xFFC }, g := regsOfList [] }] }
theorem witness_IntegerWordsByChain : lanesTwo.who lanesTwo.cur = some (who lanesTwo) ∧ lanesTwo.group 0 1 = some (theG lanesTwo) ∧
    (who lanesTwo).hood = none ∧ (who lanesTwo).hintsAt 0 = [] ∧ (who lanesTwo).hintsAt 1 = [.immhi 1] ∧
    lanesTwo.precheck (who lanesTwo) (.movi 5 7) = none ∧ lanesTwo.selected (who lanesTwo) = [0, 1] ∧
    ∀ x, laneResult (immOf ((who lanesTwo).hintsAt x)) (fun k => lanesTwo.k (who lanesTwo) k.toNat) (.movi 5 7) =
      some (5, fun _ => immOf ((who lanesTwo).hintsAt x) 7) :=
  ⟨who_of (by decide), group_of (by decide), by decide, by decide, by decide, by decide, by decide, fun _ => rfl⟩
theorem test_immhi_by_chain : ((match exec (.movi 5 7) lanesTwo with | .next t => some t | _ => none).map fun (t : State) =>
    (t.g (who lanesTwo) 0 5, t.g (who lanesTwo) 1 5)) = some (7, 0x2007) := by decide

theorem reads_of {v : Val} {neg : Bool} {m : Nat} {e : Int} {t : ℝ} (h : v = .fin neg m e) (ht : t = (signed neg m : ℝ) * (2 : ℝ) ^ e) :
    Reads v t := ⟨neg, m, e, h, ht⟩
/-- 1.0 in binary32, and 2^200, past its largest finite value. -/
theorem witness_RoundingValues : f32 ∈ [f32, b16, h16, e43, e52] ∧
    IsStep (f32.emin - f32.mbits) f32.mbits 1 (-23) ∧ IsRounded .rne 0 ((1 : ℝ) / (2 : ℝ) ^ (-23 : ℤ)) (2 ^ 23) ∧
    IsStep (f32.emin - f32.mbits) f32.mbits ((2 : ℝ) ^ (200 : ℤ)) 177 ∧
    IsRounded .rz 0 ((2 : ℝ) ^ (200 : ℤ) / (2 : ℝ) ^ (177 : ℤ)) (2 ^ 23) ∧
    Reads (f32.val f32.maxBits) (((2 : ℝ) ^ 24 - 1) * (2 : ℝ) ^ (104 : ℤ)) ∧
    |((2 ^ 23 : ℤ) : ℝ) * (2 : ℝ) ^ (-23 : ℤ)| ≤ ((2 : ℝ) ^ 24 - 1) * (2 : ℝ) ^ (104 : ℤ) ∧
    ((2 : ℝ) ^ 24 - 1) * (2 : ℝ) ^ (104 : ℤ) < |((2 ^ 23 : ℤ) : ℝ) * (2 : ℝ) ^ (177 : ℤ)| := by
  refine ⟨by simp, ?_, ?_, ?_, ?_, reads_of (neg := false) (m := 2 ^ 24 - 1) (e := 104) (by decide) ?_, ?_, ?_⟩ <;>
    simp [IsStep, IsRounded, FloatFmt.emin, f32, signed, zpow_neg] <;> norm_num [abs_of_pos]
theorem witness_MinMaxValues : NanBits 0x7FC00000 ∧ ¬NanBits 0x80000000 ∧ ¬NanBits 0 ∧ bitOrder 0x80000000 < bitOrder 0 := by
  unfold NanBits; decide
theorem witness_CompareValues : NanBits 0xFF800001 ∧ ¬NanBits 0x80000000 ∧ ¬NanBits 0 ∧ valueOrder 0x80000000 = valueOrder 0 := by
  unfold NanBits; decide
theorem witness_ClassTable : InClass 0xFF800000 0 ∧ InClass 0x80000001 2 ∧ InClass 0x7F800001 8 ∧ InClass 0x7FC00000 9 := by
  simp only [InClass, NanBits]; decide
/-- 2.5 rounds to 2 toward even. -/
theorem witness_CvtfiValues : NanBits 0x7FC00000 ∧ Reads (f32.val (0x40200000 : Word).toNat) (5 / 2) ∧ IsRounded .rne 0 (5 / 2) 2 := by
  refine ⟨by unfold NanBits; decide, reads_of (neg := false) (m := 0xA00000) (e := -22) (by decide) ?_, ?_⟩ <;>
    simp [IsRounded, signed, zpow_neg] <;> norm_num [abs_of_pos]
theorem witness_FunctionSpecials : NanBits 0x7FC00000 ∧ InClass 0xBF800000 1 ∧ InClass 0x80000001 2 ∧ magBits 0x80200000 ≤ 0x00200000 ∧
    ¬NanBits 0x43000000 ∧ 0x43000000 ≤ magBits 0x43000000 ∧ ¬NanBits 0xC2FC0001 ∧ 0x42FC0000 < magBits 0xC2FC0001 := by
  simp only [InClass, NanBits]; decide
theorem reads_four : Reads (f32.val (0x40800000 : Word).toNat) 4 :=
  reads_of (neg := false) (m := 0x800000) (e := -21) (by decide) (by simp [signed, zpow_neg]; norm_num)
theorem sqrt_four : √(4 : ℝ) = 2 := by rw [show (4 : ℝ) = 2 ^ 2 by norm_num]; exact Real.sqrt_sq (by norm_num)
/-- 4 and its root, its reciprocal and the reciprocal of its root; two operands in order. -/
theorem witness_RootsAndReciprocals : Reads (f32.val (0x40800000 : Word).toNat) 4 ∧ 0x00200000 < magBits 0x40800000 ∧
    IsUlp (4 : ℝ)⁻¹ (-25) ∧ |(4 : ℝ)| = (2 : ℝ) ^ (2 : ℤ) ∧ ¬NanBits 0x40800000 ∧ ¬NanBits 0x40900000 ∧
    bitOrder 0x40800000 ≤ bitOrder 0x40900000 ∧ IsUlp (√(4 : ℝ))⁻¹ (-24) ∧ (4 : ℝ) = (4 : ℝ) ^ (1 : ℤ) ∧ IsUlp √(4 : ℝ) (-22) ∧
    IsRounded .rne 0 (√(4 : ℝ) / (2 : ℝ) ^ (-22 : ℤ)) (2 ^ 23) := by
  rw [sqrt_four]
  refine ⟨reads_four, by decide, ?_, ?_, by unfold NanBits; decide, by unfold NanBits; decide, by decide, ?_, ?_, ?_, ?_⟩ <;>
    simp [IsUlp, IsStep, IsRounded, zpow_neg] <;> norm_num [abs_of_pos]
/-- 2 to the 4, and the logarithms of 4 and of 1. -/
theorem witness_ExponentialAndLogarithm : Reads (f32.val (0x40800000 : Word).toNat) 4 ∧ (4 : ℝ) < 128 ∧ IsUlp ((2 : ℝ) ^ (4 : ℝ)) (-19) ∧
    (4 : ℝ) = ((4 : ℤ) : ℝ) ∧ IsUlp (Real.logb 2 4) (-22) ∧ ¬(1 / 2 ≤ (4 : ℝ) ∧ (4 : ℝ) ≤ 2) ∧ (4 : ℝ) = (2 : ℝ) ^ (2 : ℤ) ∧
    Reads (f32.val (0x3F800000 : Word).toNat) 1 ∧ (1 / 2 ≤ (1 : ℝ) ∧ (1 : ℝ) ≤ 2) ∧ IsUlp (Real.logb 2 1) (-149) ∧ (1 : ℝ) = (2 : ℝ) ^ (0 : ℤ) := by
  have e : Real.logb 2 4 = 2 := by
    rw [show (4 : ℝ) = 2 ^ (2 : ℝ) by norm_num]; exact Real.logb_rpow (by norm_num) (by norm_num)
  have p : (2 : ℝ) ^ (4 : ℝ) = 16 := by norm_num
  rw [e, p, Real.logb_one]
  refine ⟨reads_four, ?_, ?_, ?_, ?_, ?_, ?_, reads_of (neg := false) (m := 0x800000) (e := -23) (by decide) ?_, ?_, ?_, ?_⟩ <;>
    (try simp [IsUlp, IsStep, signed, zpow_neg]) <;> norm_num [abs_of_pos]
/-- 1, a zero, 16 and −16. -/
theorem witness_TanhValues : Reads (f32.val (0x3F800000 : Word).toNat) 1 ∧ ((2 : ℝ) ^ (-12 : ℤ) ≤ |(1 : ℝ)| ∧ |(1 : ℝ)| < 9) ∧
    Reads (f32.val (0x00000000 : Word).toNat) 0 ∧ |(0 : ℝ)| < (2 : ℝ) ^ (-12 : ℤ) ∧ Reads (f32.val (0x41800000 : Word).toNat) 16 ∧ (9 : ℝ) ≤ 16 ∧
    Reads (f32.val (0xC1800000 : Word).toNat) (-16) ∧ (-16 : ℝ) ≤ -9 := by
  refine ⟨reads_of (neg := false) (m := 0x800000) (e := -23) (by decide) ?_, ?_, reads_of (neg := false) (m := 0) (e := -149) (by decide) ?_, ?_,
    reads_of (neg := false) (m := 0x800000) (e := -19) (by decide) ?_, ?_, reads_of (neg := true) (m := 0x800000) (e := -19) (by decide) ?_, ?_⟩ <;>
    (try simp [signed, zpow_neg]) <;> norm_num
/-- Sixteen values: a NaN among them; all zero; all 1. -/
def ones : List (Val × Word) := List.replicate 16 (.fin false 1 0, 0)
theorem witness_BlockValues : (ones.length = 16 ∧ Val.nan ∉ ones.map (·.1) ∧ MaxMag (ones.map (·.1)) 1 ∧ (2 : ℝ) ^ (0 : ℤ) ≤ 1 ∧ (1 : ℝ) < (2 : ℝ) ^ ((0 : ℤ) + 1)) ∧
    MaxMag (((ones.map (·.1)).drop 4).take 4) 1 ∧ Val.nan ∈ ((.nan, 0) :: ones.take 15).map (fun (q : Val × Word) => q.1) ∧
    MaxMag (List.replicate 16 (.fin false 0 0)) 0 ∧ Reads (.fin false 1 0) 1 ∧ IsRounded .rz 0 ((1 : ℝ) / (2 : ℝ) ^ (-1 : ℤ)) 2 ∧
    blockE 255 = 255 ∧ blockE 0 ≠ 255 := by
  have one : ∀ l : List Val, l ≠ [] → (∀ v ∈ l, v = .fin false 1 0) → MaxMag l 1 := by
    intro l hl h
    obtain ⟨v, hv⟩ := List.exists_mem_of_ne_nil l hl
    refine ⟨⟨v, hv, ?_⟩, fun v hv x hx => ?_⟩
    · rw [h v hv]; simp [MagOf]
    · rw [h v hv] at hx; simp [MagOf] at hx; exact hx.le
  refine ⟨⟨by decide, by decide, one _ (by decide) (by decide), by norm_num, by norm_num⟩, one _ (by decide) (by decide), by decide, ?_,
    reads_of (neg := false) (m := 1) (e := 0) rfl (by simp [signed]), ?_, by decide, by decide⟩
  · refine ⟨⟨.fin false 0 0, by simp, by simp [MagOf]⟩, fun v hv x hx => ?_⟩
    rw [List.eq_of_mem_replicate hv] at hx; simp [MagOf] at hx; exact hx.le
  · simp only [IsRounded]; norm_num
/-- Of f32 a NaN, an infinity, the least value and 1; a format without infinities. -/
theorem witness_FormatPatterns : ∃ R ∈ fmtTable, R.fmt = f32 ∧ R.inf = true ∧ (∃ R' ∈ fmtTable, R'.inf = false) ∧
    let parts := fun (v : Nat) => (v / 2 ^ R.w % 2 ^ R.x, v % 2 ^ R.w)
    parts 0x7FC00001 = (2 ^ R.x - 1, 0x400001) ∧ parts 0x7F800000 = (2 ^ R.x - 1, 0) ∧ parts 1 = (0, 1) ∧ parts 0x3F800000 = (127, 0) := by decide
theorem reads_one : Reads (.fin false 1 0) 1 := reads_of (neg := false) (m := 1) (e := 0) rfl (by simp [signed])
theorem reads_minus : Reads (.fin true 1 0) (-1) := reads_of (neg := true) (m := 1) (e := 0) rfl (by simp [signed])
theorem reads_zero : Reads (.fin false 0 0) 0 := reads_of (neg := false) (m := 0) (e := 0) rfl (by simp [signed])
/-- 1 with −1, with 1 and with 0; 1 as a pattern of f32. -/
theorem witness_ExactArithmetic : Reads (.fin false 1 0) 1 ∧ Reads (.fin true 1 0) (-1) ∧ (1 : ℝ) + -1 = 0 ∧ Reads (.fin false 0 0) 0 ∧
    Reads (f32.val 0x3F800000) 1 ∧ f32.val 0x3F800000 = .fin false 0x800000 (-23) ∧ (1 : ℝ) ≠ 0 :=
  ⟨reads_one, reads_minus, by norm_num, reads_zero, reads_of (neg := false) (m := 0x800000) (e := -23) (by decide) (by simp [signed, zpow_neg]; norm_num), by decide, one_ne_zero⟩
theorem witness_BlockSums : Val.nan ∈ [Val.nan] ∧ (Val.inf true ∈ [Val.inf true, .inf false] ∧ Val.inf false ∈ [Val.inf true, .inf false]) ∧
    (Val.nan ∉ [Val.inf true, .fin false 1 0] ∧ Val.inf true ∈ [Val.inf true, .fin false 1 0] ∧ Val.inf (!true) ∉ [Val.inf true, .fin false 1 0]) ∧
    List.Forall₂ Reads [.fin false 1 0, .fin true 1 0] [1, -1] ∧ Reads (.fin false 1 0) 1 ∧ Reads (.fin true 1 0) (-1) ∧ (1 : ℝ) + -1 = 0 ∧ (1 : ℝ) + 1 ≠ 0 :=
  ⟨by decide, by decide, by decide, .cons reads_one (.cons reads_minus .nil), reads_one, reads_minus, by norm_num, by norm_num⟩

/-! ### Lane, uniform and spill accesses -/

/-- A buffer record: bound object, space, mode, extent, base; strides 0. -/
def bufRec (bound : Word) (space mode fmt extent base : Nat) : BitVec 256 :=
  BitVec.ofNat 256 (base + extent * 2 ^ 48 + fmt * 2 ^ 144 + mode * 2 ^ 152 + space * 2 ^ 156) ||| (bound.setWidth 256 <<< 160)
def withBuf (n : Nat) (b : BitVec 256) (k : Vector Word 192) : Vector Word 192 :=
  (List.range 8).foldl (fun v i => vput v (8 * n + i) (b.extractLsb' (32 * i) 32)) k
/-- Buffers b4 to b7 in group shared memory, modes 0 to 3, 16 bytes from 0x100 on; b8 in the spill space, b9 with a bound object. -/
def k2 : Vector Word 192 :=
  withBuf 4 (bufRec 0 0 0 1 16 0x100) <| withBuf 5 (bufRec 0 0 1 1 16 0x100) <| withBuf 6 (bufRec 0 0 2 1 16 0x100) <|
  withBuf 7 (bufRec 0 0 3 1 16 0x100) <| withBuf 8 (bufRec 0 2 0 1 32 0) <| withBuf 9 (bufRec 0x40 0 0 1 64 0x100) <|
  kregs [(10, 4), (11, 12), (12, 16), (13, 13), (14, 0x12345678)]
def shared2 : Mem := Mem.writeN [] 0x100 [1, 2, 0x83, 4, 5, 6, 7, 8, 9, 10, 11, 12, 13, 14, 15, 16, 17, 18, 19, 20, 21, 22, 23, 24, 25, 26, 27, 28, 29, 30, 31, 32]
def memLanes : State := onLanes { lanesG 2 [] (fun x => [(2, BitVec.ofNat 32 (4 * x)), (4, 0xAABBCCDD), (7, 12), (8, 16), (9, 2)]) with
  k := k2, shared := shared2, spill := Mem.writeN [] 32 [7, 6, 5, 4] }
def memHood : State := onHood { hoodG 2 [] [(2, uni 4), (3, uni 32), (4, ⟨7, 1⟩), (6, ⟨0, 4⟩)] with
  k := k2, shared := shared2, spill := Mem.writeN (Mem.writeN [] 4 [7, 6, 5, 4]) 36 [8, 6, 5, 4], tags := [⟨4, 1⟩, ⟨36, 1⟩] }

/-- A record of 16 bytes in each mode; accesses of 4 bytes that end at its last byte, and past it; a line in error. -/
theorem witness_EffectiveOffset :
    let B := fun m => BufRec.of (bufRec 0 0 m 1 16 0x100)
    (B 3).mode < 4 ∧ 12 + 4 ≤ (B 0).extent ∧ ((B 0).mode = 0 ∧ (B 0).extent < 13 + 4) ∧ ((B 1).mode = 1 ∧ 4 ≤ (B 1).extent) ∧
      (BufRec.of (bufRec 0 0 1 1 3 0)).extent < 4 ∧ (B 2).mode = 2 ∧ ((B 3).mode = 3 ∧ 17 % (B 3).extent + 4 ≤ (B 3).extent) ∧
      (B 3).extent < 15 % (B 3).extent + 4 ∧ (BufRec.of (bufRec 0 0 3 1 0 0)).extent = 0 := by decide
theorem test_line_in_error : (memLanes.modDie 0 fun D => { D with badLocal := [(0, 1, 0x104 / 16)] }).place 0 1 0 (BufRec.of (bufRec 0 0 0 1 16 0x100)) 4 4 false =
    .fault Cause.ecc := by decide
theorem witness_LoadWritesRegisters :
    let pl := fun x => memLanes.lanePlace (who memLanes) x (memLanes.buf (who memLanes) 4) (offsetOf .i8 (regsOf memLanes (who memLanes) x 2)) (bytesIn .i8) false
    Ready memLanes (.ld .i8 5 4 2 0) (who memLanes) (theG memLanes) ∧ (∀ x ∈ memLanes.selected (who memLanes), pl x = .at (0x100 + 4 * x)) ∧
    memLanes.accessHeld (memLanes.taking (who memLanes)) (memLanes.buf (who memLanes) 4) (bytesIn .i8) false pl = false ∧
    Ready memHood (.ld .w32 5 4 2 0) (who memHood) (theG memHood) ∧ uniformIn memHood (who memHood) 2 :=
  ⟨ready_of (by decide), by decide, by decide, ready_of (by decide), by unfold uniformIn; decide⟩
theorem witness_StoreWritesBytes :
    let pl := fun x => memLanes.lanePlace (who memLanes) x (memLanes.buf (who memLanes) 4) (offsetOf .w32 (regsOf memLanes (who memLanes) x 2)) (bytesIn .w32) true
    Ready memLanes (.st .w32 4 4 2) (who memLanes) (theG memLanes) ∧ (∀ x ∈ memLanes.selected (who memLanes), pl x = .at (0x100 + 4 * x)) ∧
    memLanes.accessHeld (memLanes.taking (who memLanes)) (memLanes.buf (who memLanes) 4) (bytesIn .w32) true pl = false ∧
    (theG memLanes).shared.wf = true ∧ (theG memLanes).spill.wf = true ∧ (memLanes.die 0).scratch.wf = true ∧
    ¬covers (theG memLanes) 0 1 0x104 4 0 0 0x103 ∧ ¬covers (theG memLanes) 0 1 0x104 4 0 0 0x108 :=
  ⟨ready_of (by decide), by decide, by decide, by decide, by decide, by decide, by unfold covers; decide, by unfold covers; decide⟩
/-- A nibble beside its neighbour, and the two bytes of a half word, low byte first. -/
theorem test_stored_bytes : storedBytes .i4 7 0x5A (fun _ => 0x12345673) = [0x3A] ∧ storedBytes .n4 6 0x5A (fun _ => 0x12345673) = [0x53] ∧
    storedBytes .h16 6 0 (fun _ => 0x12345673) = [0x73, 0x56] := by decide
theorem witness_StoreThenReadLocal : memLanes.group 0 1 = some (theG memLanes) ∧ (theG memLanes).shared.wf = true ∧ (theG memLanes).spill.wf = true ∧
    (memLanes.die 0).scratch.wf = true := ⟨group_of (by decide), by decide⟩
/-- Register 8 gives lane 0 and lane 1 the offset 16, past the record's end. -/
theorem witness_AccessFaultsFirst :
    let pl := fun w x => memLanes.lanePlace (who memLanes) x (memLanes.buf (who memLanes) 4) (offsetOf .w32 (regsOf memLanes (who memLanes) x 8)) 4 w
    let addr := fun x => (memLanes.buf (who memLanes) 4).base + offsetOf .w32 (regsOf memLanes (who memLanes) x 8)
    Ready memLanes (.ld .w32 5 4 8 0) (who memLanes) (theG memLanes) ∧ Ready memLanes (.st .w32 5 4 8) (who memLanes) (theG memLanes) ∧
    memLanes.selected (who memLanes) = [0, 1] ∧ pl true 0 = .fault Cause.bounds ∧ pl false 0 = .fault Cause.bounds ∧ pl false 1 = .fault Cause.bounds ∧
    lowestOf (who memLanes) (theG memLanes) addr 0 [0, 1] 0x110 :=
  ⟨ready_of (by decide), ready_of (by decide), by decide, by decide, by decide, by decide, by unfold lowestOf; decide⟩
theorem witness_FillReadsSpillView : Ready memLanes (.fill .w32 5 2 0) (who memLanes) (theG memLanes) ∧
    (∀ x ∈ memLanes.selected (who memLanes), (regsOf memLanes (who memLanes) x 2).toNat + 4 ≤ 32 ∧ (regsOf memLanes (who memLanes) x 2).toNat % 4 = 0 ∧
      memLanes.badLocalAt 0 1 x 2 (regsOf memLanes (who memLanes) x 2).toNat 4 = false) ∧
    Ready memHood (.fill .w32 5 2 0) (who memHood) (theG memHood) ∧ uniformIn memHood (who memHood) 2 ∧
    ∀ x ∈ (who memHood).all, (theG memHood).tagOf x 4 = some 1 ∧
      BitVec.ofNat 32 (ofBytes (memHood.readLocal 0 1 x 2 4 4)) = (⟨0x04050607, 1⟩ : Form).at 0 x :=
  ⟨ready_of (by decide), by decide, ready_of (by decide), by unfold uniformIn; decide, by decide⟩
theorem witness_SpillWritesView : Ready memLanes (.spill .w32 4 2) (who memLanes) (theG memLanes) ∧
    Ready memHood (.spill .w32 4 2) (who memHood) (theG memHood) ∧ uniformIn memHood (who memHood) 2 ∧
    (∀ x ∈ memHood.selected (who memHood), (regsOf memHood (who memHood) x 2).toNat + 4 ≤ 32 ∧ (regsOf memHood (who memHood) x 2).toNat % 4 = 0) :=
  ⟨ready_of (by decide), ready_of (by decide), by unfold uniformIn; decide, by decide⟩
/-- An access inside the record, one past it in mode 2, and a record in the spill space. -/
theorem witness_UniformLoadStore :
    let s := memLanes
    let w := who memLanes
    Ready s (.kld 30 4 11) w (theG s) ∧ Ready s (.kst 14 4 11) w (theG s) ∧ (s.buf w 4).bad = false ∧ (s.buf w 4).space ≠ 2 ∧
    s.place 0 1 0 (s.buf w 4) (s.k w 11).toNat 4 false = .at 0x10C ∧ (∀ wr, s.byteHeld (s.taking w) (s.buf w 4) 0x10C 4 wr = false) ∧
    s.place 0 1 0 (s.buf w 6) (s.k w 12).toNat 4 false = .nowhere ∧ s.place 0 1 0 (s.buf w 6) (s.k w 12).toNat 4 true = .nowhere ∧
    (s.buf w 8).space = 2 ∧ (s.buf w 8).bad = false :=
  ⟨ready_of (by decide), ready_of (by decide), by decide, by decide, by decide, by decide, by decide, by decide, by decide, by decide⟩
theorem witness_BufferRecordLoad : Ready memHood (.brld 3 9 3 0) (who memHood) (theG memHood) ∧ Solo (theG memHood) (who memHood) ∧
    uniformIn memHood (who memHood) 3 ∧ (memHood.buf (who memHood) 9).bad = false ∧ (memHood.buf (who memHood) 9).space ≠ 2 ∧
    memHood.place 0 1 0 { memHood.buf (who memHood) 9 with mode := 0 } (regsOf memHood (who memHood) 0 3).toNat 32 false = .at 0x120 :=
  ⟨ready_of (by decide), .inl (by decide), by unfold uniformIn; decide, by decide, by decide, by decide⟩
/-- Main memory mapped to itself by a range entry for all accesses but fetches. -/
def mapped (s : State) : State :=
  { s.modDie 0 fun D => { D with svRtab := 0x8000, active := { D.active with rtab := 0x8000 } } with
    mem := Mem.writeN s.mem 0x8000 (bytesOf 8 0 ++ bytesOf 8 0x10000000 ++ bytesOf 8 0 ++ bytesOf 8 0b10111) }
def gldLanes : State := mapped (onLanes (lanesG 2 [] fun x => [(6, BitVec.ofNat 32 (0x4000 + 4 * x))]))
/-- The same GLD at its micro-steps. -/
def gldQ (step : Nat) : Gld :=
  { id := 5, hood := false, xs := [0, 1], pc := pc0, chainPc := pc0, chain := [], ga := 6, gd := 5, regs := 1, bytes := 4, step := step, inst := 0,
    vas := [(0, 0x4000), (1, 0x4004)], das := [(0, 0x4000), (1, 0x4004)], data := if step = 3 then [(0, [1, 0, 0, 0]), (1, [2, 0, 0, 0])] else [] }
def gldAt (step : Nat) : State := { gldLanes.modGroup 0 1 fun G => { G with glds := [gldQ step] } with issue := [.gld 0 1 5] }
theorem witness_MainMemoryLoad : Ready gldLanes (.gld .w32 5 6 0) (who gldLanes) (theG gldLanes) ∧ Solo (theG gldLanes) (who gldLanes) ∧
    (∀ x ∈ gldLanes.selected (who gldLanes), let va := gldLanes.g (who gldLanes) x 7 ++ gldLanes.g (who gldLanes) x 6
      gldLanes.translate 0 (carderAgent 0) false va .read = .ok (0x4000 + 4 * x) ∧ gldLanes.walkStalled 0 (carderAgent 0) false va = false ∧
      va.toNat % 4 = 0 ∧ gldLanes.lateMain 0 1 va 4 = false) ∧
    gldLanes.bulkCarder (gldLanes.taking (who gldLanes)) = some 0 ∧ (ordOf (who gldLanes).hints).2 ≠ .rel ∧ (ordOf (who gldLanes).hints).2 ≠ .ar ∧
    (∀ n ∈ [1, 2, 3], (gldAt n).issue = [.gld 0 1 5] ∧ ((gldAt n).group 0 1).any (fun G => G.glds.find? (·.id == 5) == some (gldQ n)) = true) ∧
    (∀ p ∈ (gldQ 2).das, (gldAt 2).stalled p.2 = false ∧ (gldAt 2).badAt p.2 = false) ∧
    ({ gldAt 2 with badLines := [0x4000 / 64] } : State).badAt 0x4000 = true :=
  ⟨ready_of (by decide), .inr ⟨0, by decide⟩, by decide, by decide, by decide, by decide, by decide, by decide, by decide⟩

/-! ### Control flow, traps, hints -/

def ctlLanes : State := onLanes { lanesG 2 [] (fun x => [(3, BitVec.ofNat 32 (1 - x)), (4, 0x2000), (5, BitVec.ofNat 32 (0x2000 + 2 * x))]) with
  k := kregs [(10, 3), (11, 7), (12, 5)] }
def ctlHood : State := onHood { hoodG 2 [] [(3, uni 1), (4, uni 0x2000), (5, ⟨0x2000, 4⟩)] with k := kregs [(10, 3)] }

theorem witness_BranchesGoToTarget : Ready ctlLanes (.bra (-1)) (who ctlLanes) (theG ctlLanes) ∧ Ready ctlLanes (.brc 3 1) (who ctlLanes) (theG ctlLanes) ∧
    Ready ctlHood (.brc 3 0) (who ctlHood) (theG ctlHood) ∧ agrees (who ctlHood) (taken ctlHood (who ctlHood) 3) :=
  ⟨ready_of (by decide), ready_of (by decide), ready_of (by decide), by unfold agrees; decide⟩
theorem witness_CallWritesLink : Ready ctlLanes (.call 6 (-1)) (who ctlLanes) (theG ctlLanes) := ready_of (by decide)
/-- A hood whose register is AFFINE, one whose register is UNIFORM, and lanes of which the second has an unaligned target. -/
theorem witness_ReturnsGoToRegister : Ready ctlHood (.ret 5) (who ctlHood) (theG ctlHood) ∧ ¬uniformIn ctlHood (who ctlHood) 5 ∧
    Ready ctlHood (.brx 4) (who ctlHood) (theG ctlHood) ∧ uniformIn ctlHood (who ctlHood) 4 ∧
    Ready ctlLanes (.ret 4) (who ctlLanes) (theG ctlLanes) ∧ (∀ x ∈ ctlLanes.selected (who ctlLanes), (regsOf ctlLanes (who ctlLanes) x 4).toNat % 4 = 0) ∧
    Ready ctlLanes (.brx 5) (who ctlLanes) (theG ctlLanes) ∧ (regsOf ctlLanes (who ctlLanes) 0 5).toNat % 4 = 0 ∧
    (regsOf ctlLanes (who ctlLanes) 1 5).toNat % 4 ≠ 0 ∧
    lowestOf (who ctlLanes) (theG ctlLanes) (fun y => (returnTarget ctlLanes (who ctlLanes) 5 y).toNat) 1 [1] 0x2002 :=
  ⟨ready_of (by decide), by unfold uniformIn; decide, ready_of (by decide), by unfold uniformIn; decide, ready_of (by decide), by decide,
    ready_of (by decide), by decide, by decide, by unfold lowestOf; decide⟩
theorem witness_NopAndYield : Ready ctlLanes .nop (who ctlLanes) (theG ctlLanes) ∧ Ready ctlHood .yield (who ctlHood) (theG ctlHood) :=
  ⟨ready_of (by decide), ready_of (by decide)⟩
/-- Both lanes of the mask 3 are at the word; of mask 7 the third does not live; with only lane 0 issuing, lane 1 stands elsewhere. -/
def joinApart : State := onLanes { lanesG 1 [] (fun _ => []) with
  count := 2, k := kregs [(10, 3)],
  lanes := (lanesG 1 [] fun _ => []).lanes ++ [{ x := 1, ctl := { pc := 0x2000 }, g := Vector.replicate 64 0 }] }
/-- Lane 1 waits at a JOIN of the mask 3 to which lane 0 comes now. -/
def joinLast : State := onLanes { lanesG 1 [] (fun _ => []) with
  count := 2, k := kregs [(10, 3)],
  lanes := (lanesG 1 [] fun _ => []).lanes ++ [{ x := 1, ctl := { pc := pc0, wait := .join, prog := 3 }, g := Vector.replicate 64 0 }] }
theorem witness_JoinReleases : Ready joinLast (.join 10) (who joinLast) (theG joinLast) ∧ (who joinLast).hood = none ∧ 1 ∉ (who joinLast).all ∧
    0 ∈ joinLast.selected (who joinLast) ∧
    (∀ l ∈ (theG joinLast).lanes, l.ctl.wait = .join → (theG joinLast).joinFree l = false) ∧
    (((theG joinLast).lane 1).map fun l => (l.ctl.wait, l.ctl.prog, l.ctl.pc)) = some (.join, 3, pc0) ∧
    (((theG joinLast).lane 0).map fun l => l.ctl.pc) = some pc0 :=
  ⟨ready_of (by decide), by decide, by decide, by decide, by decide, by decide, by decide⟩
theorem witness_JoinWaitsForMask : Ready ctlHood (.join 10) (who ctlHood) (theG ctlHood) ∧ (who ctlHood).hood ≠ none ∧
    Ready ctlLanes (.join 11) (who ctlLanes) (theG ctlLanes) ∧ (who ctlLanes).hood = none ∧
    (∀ x ∈ ctlLanes.selected (who ctlLanes), ∀ n, n < 32 ∧ (ctlLanes.k (who ctlLanes) 11).getLsbD n = true → (theG ctlLanes).lane n = none ∨ n ∈ ctlLanes.selected (who ctlLanes)) ∧
    Ready joinApart (.join 10) (who joinApart) (theG joinApart) ∧ 1 ∉ joinApart.selected (who joinApart) ∧
    ((theG joinApart).lane 1).map (fun l => l.ctl.pc) = some 0x2000 := by
  refine ⟨ready_of (by decide), by decide, ready_of (by decide), by decide, ?_, ready_of (by decide), by decide, by decide⟩
  have h : ∀ n < 32, (ctlLanes.k (who ctlLanes) 11).getLsbD n = true → (theG ctlLanes).lane n = none ∨ n ∈ ctlLanes.selected (who ctlLanes) := by decide
  exact fun _ _ n hn => h n hn.1 hn.2
theorem witness_ExitEndsIndices : Ready ctlLanes .exit (who ctlLanes) (theG ctlLanes) ∧ (theG ctlLanes).gathers = [] ∧
    Ready ctlHood .exit (who ctlHood) (theG ctlHood) := ⟨ready_of (by decide), by decide, ready_of (by decide)⟩
/-- A tenant's trap, and the supervisor wave's. -/
def inSv (G : Group) : State :=
  ({ State.reset with ready := true, inbox := [], cur := .lanes 0 0 0 pc0 } : State).modDie 0 fun D => { D with trapvec := 0x9000, sv := { G with gid := 0 } }
def svLanes : State := inSv { lanesG 2 [] (fun x => [(3, 1), (4, 0x2000 * BitVec.ofNat 32 x)]) with k := kregs [(10, 3)] }
theorem witness_TrapWordsRaise : Ready ctlLanes (.trapi 0xFFF) (who ctlLanes) (theG ctlLanes) ∧ (who ctlLanes).gid ≠ 0 ∧
    Ready ctlLanes (.brk 0) (who ctlLanes) (theG ctlLanes) ∧ Ready svLanes (.trapi 1) (who svLanes) (theG svLanes) ∧ (who svLanes).gid = 0 :=
  ⟨ready_of (by decide), by decide, ready_of (by decide), ready_of (by decide), by decide⟩
theorem hint_ready_of {s : State} {i : Instr} {h : Hint}
    (c : ((s.who s.cur).isSome && (s.group (who s).d (who s).gid).isSome && i.use.ok &&
      (who s).all.all fun x => !((who s).hintsAt x).any (fun g => g.kind == h.kind)) = true)
    (r : ∀ g, h = .pred g → ∀ x ∈ (who s).all, g.toNat < (theG s).allocOf x) : HintReady s i h (who s) (theG s) := by
  simp only [Bool.and_eq_true, Option.isSome_iff_exists, Bool.not_eq_true', List.all_eq_true] at c
  obtain ⟨⟨⟨⟨w, hw⟩, G, hG⟩, ho⟩, hf⟩ := c
  exact ⟨by simp [who, hw], by simp [theG, hG], ho, hf, r⟩
theorem witness_HintsJoinChain : hintOf (.hintPred 63) = some (.pred 63) ∧ HintReady ctlLanes (.hintPred 63) (.pred 63) (who ctlLanes) (theG ctlLanes) :=
  ⟨rfl, hint_ready_of (by decide) (by rintro g ⟨⟩; decide)⟩
/-- A second HINT.LIFE in a chain, and HINT.PRED of a register beyond the allocation. -/
def chained : State := onLanes { lanesG 1 [.life 5] (fun _ => []) with alloc := [8] }
theorem witness_BadChainsTrapIll : hintOf (.hintLife 9) = some (.life 9) ∧ (Instr.hintLife 9).use.ok = true ∧ chained.who chained.cur = some (who chained) ∧
    chained.group 0 1 = some (theG chained) ∧ (who chained).all ≠ [] ∧ (who chained).hints.any (fun g => g.kind == (Hint.life 9).kind) = true ∧
    hintOf (.hintPred 8) = some (.pred 8) ∧ (Instr.hintPred 8).use.ok = true ∧ ∀ x ∈ (who chained).all, (theG chained).allocOf x ≤ 8 :=
  ⟨rfl, by decide, who_of (by decide), group_of (by decide), by decide⟩

/-! ### Barrier slots, rings, gathers, allocations, collectives -/

/-- A busy slot with a bitmap at 0x40, an idle one at 0x60, a full one at 0x70, a ring at 0x80 whose slot 0 is FULL, an empty ring of one slot at
0x100 with none free. -/
def busySlot : BSlot := { scope := 3, phase := 3, bm := true, bmd := 0, pending := 64, arrived := 1, expected := 2 }
def idleSlot : BSlot := { scope := 3, phase := 0, bm := false, bmd := 0, pending := 0, arrived := 0, expected := 1 }
def fullSlot : BSlot := { scope := 3, phase := 0, bm := false, bmd := 0, pending := 5, arrived := 1, expected := 1 }
def ring2 : Ring where
  word0 := 3 + 4 * 16 + 1 * 2 ^ 18 + 3 * 2 ^ 24
  fulln := 1
  free := 3
  pi := 1
  slots := ⟨0, true, 256⟩ :: List.replicate 15 ⟨0, false, 0⟩
  cursors := List.replicate 24 ⟨0, 0, 0⟩
def ring1 : Ring := { ring2 with word0 := 0 + 4 * 16 + 1 * 2 ^ 18 + 3 * 2 ^ 24, fulln := 0, free := 0, pi := 0, slots := List.replicate 16 ⟨0, false, 0⟩ }
/-- The ring at 0x80 with its taken slot out. -/
def ringOut : Ring := { ring2 with cursors := ⟨1, 0, 1⟩ :: List.replicate 23 ⟨0, 0, 0⟩ }
def sharedObj (r : Ring) : Mem :=
  ((((Mem.writeN [] 0x40 busySlot.bytes).writeN 0x50 [1, 0, 3]).writeN 0x60 idleSlot.bytes).writeN 0x70 fullSlot.bytes).writeN 0x80 (r.bytes ++ ring1.bytes)
def kObj : Vector Word 192 := kregs [(10, 0x40), (11, 0x60), (12, 0x70), (13, 0x80), (14, 0x200), (15, 64), (16, 0x80001), (17, 0x30C0043), (18, 2), (19, 3), (20, 0x100), (21, 1), (23, 0x10000000), (24, 0x0FFFFFFF), (26, 0x7FF0), (27, 0x7F80), (28, 0x210)]
def withObj (r : Ring) (G : Group) : Group := { G with k := kObj, shared := sharedObj r, live := List.range 28 |>.filter (4 ≤ ·) |>.filter (· < 24) }
def objLanes : State := onLanes (withObj ring2 { lanesG 2 [] (fun x => [(5, BitVec.ofNat 32 x)]) with pool := 1, alloc := [32], resv := [⟨0, 0x80, 1⟩, ⟨1, 0x80, 2⟩] })
def objOut : State := onLanes (withObj ringOut (lanesG 2 [] fun _ => []))
def objHood : State := onHood (withObj ring2 (hoodG 2 [] []))
/-- The same lanes with only lane 0 at the word; no reservation. -/
def objOne : State := onLanes { withObj ring2 (lanesG 1 [] fun _ => []) with
  count := 2, lanes := (lanesG 1 [] fun _ => []).lanes ++ [{ x := 1, ctl := { pc := 0x2000 }, g := Vector.replicate 64 0 }] }
/-- The slots' addresses, and what stands there. -/
theorem objects_stand : objLanes.slotAddr 0 1 0x40 16 = .ok ⟨0, 0x40⟩ ∧ objLanes.bslot 0 1 ⟨0, 0x40⟩ = some busySlot ∧
    objLanes.bslot 0 1 ⟨0, 0x60⟩ = some idleSlot ∧ objLanes.bslot 0 1 ⟨0, 0x70⟩ = some fullSlot ∧ objLanes.ring 0 1 ⟨0, 0x80⟩ = some ring2 ∧
    objLanes.bslot 0 1 ⟨0, 0x200⟩ = none ∧ objLanes.ring 0 1 ⟨0, 0x200⟩ = none ∧ objLanes.slotAddr 0 1 0x200 128 = .ok ⟨0, 0x200⟩ ∧
    ∀ a ∈ [0x40, 0x60, 0x70, 0x80, 0x100, 0x200], objLanes.badObject 0 1 ⟨0, a⟩ = false := by decide
theorem objLanes_solo : Solo (theG objLanes) (who objLanes) := .inr ⟨0, by decide, by decide⟩
theorem objOut_solo : Solo (theG objOut) (who objOut) := .inr ⟨0, by decide, by decide⟩
theorem objLanes_alone : Alone (theG objLanes) (who objLanes) 0 := ⟨by decide, by decide, by decide, by decide, by decide⟩
theorem objOut_alone : Alone (theG objOut) (who objOut) 0 := ⟨by decide, by decide, by decide, by decide, by decide⟩
theorem objLanes_quiet : quiet (theG objLanes) (who objLanes) := by unfold quiet; decide

/-- Line 0x200 bears no slot; the slot at 0x40 has an arrival left, the one at 0x70 none; 64 bytes are pending there, of 2^28 - 1. -/
theorem witness_SlotUpdates : objLanes.group 0 1 = some (theG objLanes) ∧ localWf objLanes (who objLanes) (theG objLanes) ∧
    objLanes.bslot 0 1 ⟨0, 0x200⟩ = none ∧ busySlot.arrived < busySlot.expected ∧ fullSlot.arrived = fullSlot.expected ∧
    busySlot.pending + (2 ^ 28 - 65) < 2 ^ 28 ∧ 2 ^ 28 ≤ busySlot.pending + (2 ^ 28 - 64) ∧ busySlot.pending < 65 ∧ 64 ≤ busySlot.pending ∧
    phaseDone busySlot 2 ∧ phaseDone busySlot (3 - 0x7FFFFFFF) ∧ ¬phaseDone busySlot 3 :=
  ⟨group_of (by decide), by unfold localWf; decide, by decide, by decide, by decide, by decide, by decide, by decide, by decide, by unfold phaseDone; decide,
    by unfold phaseDone; decide, by unfold phaseDone; decide⟩
theorem witness_BinitMakesSlot : Ready objLanes (.binit .core 14 16) (who objLanes) (theG objLanes) ∧ Solo (theG objLanes) (who objLanes) ∧
    objLanes.slotAddr 0 1 (objLanes.k (who objLanes) 14) 16 = .ok ⟨0, 0x200⟩ ∧ (objLanes.k (who objLanes) 16).toNat = 2 ^ 19 + 1 ∧
    objLanes.inSpace 0 1 0 0x210 16 = true ∧ objLanes.touchesLive 0 1 0 0x210 16 = false ∧ objLanes.touchesLive 0 1 0 0x200 16 = false ∧
    localWf objLanes (who objLanes) (theG objLanes) :=
  ⟨ready_of (by decide), objLanes_solo, by decide, by decide, by decide, by decide, by decide, by unfold localWf; decide⟩
/-- An idle slot of the scratchpad, on which a thread of another core waits; and a slot in use. -/
def waiter : Group := { grp 1 with
  gid := 2, core := 1, lanes := [{ x := 0, ctl := { pc := pc0, wait := .wait, word := some (.wait 22 18), cap := [(22, 0x80000040)] }, g := regsOfList [] }] }
def scrLanes : State := (onLanes { lanesG 2 [] (fun _ => []) with k := kregs [(22, 0x80000040), (23, 1)] }).modDie 0 fun D =>
  { D with scratch := Mem.writeN [] 0x40 idleSlot.bytes, scratchLive := [4], active := { D.active with sprange := 1 * 2 ^ 8, groups := D.active.groups ++ [waiter] } }
/-- A slot address of 0, an image without arrivals, a scope that the scratchpad does not have, a live line, and a bitmap block past the end of the space. -/
theorem witness_BinitRefuses : Ready objLanes (.binit .core 25 16) (who objLanes) (theG objLanes) ∧
    (∃ fa, objLanes.slotAddr 0 1 (objLanes.k (who objLanes) 25) 16 = .fault Cause.baruse fa) ∧
    Ready objLanes (.binit .core 14 25) (who objLanes) (theG objLanes) ∧ (objLanes.k (who objLanes) 25).toNat % 2 ^ 16 = 0 ∧
    Ready scrLanes (.binit .core 22 23) (who scrLanes) (theG scrLanes) ∧ scrLanes.slotAddr 0 1 (scrLanes.k (who scrLanes) 22) 16 = .ok ⟨1, 0x40⟩ ∧
    Ready objLanes (.binit .core 10 21) (who objLanes) (theG objLanes) ∧
    objLanes.touchesLive 0 1 0 0x40 16 = true ∧ Ready objLanes (.binit .core 26 16) (who objLanes) (theG objLanes) ∧
    objLanes.slotAddr 0 1 (objLanes.k (who objLanes) 26) 16 = .ok ⟨0, 0x7FF0⟩ ∧ objLanes.inSpace 0 1 0 0x8000 16 = false :=
  ⟨ready_of (by decide), ⟨_, rfl⟩, ready_of (by decide), by decide, ready_of (by decide), by decide, ready_of (by decide), by decide, ready_of (by decide),
    by decide, by decide⟩
theorem witness_BretireStrandsWaiters : Ready scrLanes (.bretire 22) (who scrLanes) (theG scrLanes) ∧ Solo (theG scrLanes) (who scrLanes) ∧
    scrLanes.slotAddr 0 1 (scrLanes.k (who scrLanes) 22) 16 = .ok ⟨1, 0x40⟩ ∧ scrLanes.bslot 0 1 ⟨1, 0x40⟩ = some idleSlot ∧
    (scrLanes.k (who scrLanes) 22).getLsbD 31 = true ∧ scrLanes.group 0 2 = some waiter ∧ waiter.core ≠ (who scrLanes).core ∧
    (waiter.lanes.all fun l => l.ctl.waitsOn (scrLanes.k (who scrLanes) 22)) = true ∧
    Ready objLanes (.bretire 10) (who objLanes) (theG objLanes) ∧ objLanes.slotAddr 0 1 (objLanes.k (who objLanes) 10) 16 = .ok ⟨0, 0x40⟩ ∧
    objLanes.bslot 0 1 ⟨0, 0x40⟩ = some busySlot ∧ busySlot.pending ≠ 0 ∧ scrLanes.badObject 0 1 ⟨1, 0x40⟩ = false :=
  ⟨ready_of (by decide), .inr ⟨0, by decide, by decide⟩, by decide, by decide, by decide, by decide, by decide, by decide, ready_of (by decide), by decide,
    by decide, by decide, by decide⟩
theorem witness_BretireClearsSlot : Ready objLanes (.bretire 11) (who objLanes) (theG objLanes) ∧ Solo (theG objLanes) (who objLanes) ∧
    objLanes.slotAddr 0 1 (objLanes.k (who objLanes) 11) 16 = .ok ⟨0, 0x60⟩ ∧ objLanes.bslot 0 1 ⟨0, 0x60⟩ = some idleSlot ∧
    objLanes.slotNamed (objLanes.taking (who objLanes)) (objLanes.k (who objLanes) 11) = false :=
  ⟨ready_of (by decide), objLanes_solo, by decide, by decide, by decide⟩
theorem witness_SlotWordsOnLiveSlot : Solo (theG objLanes) (who objLanes) ∧ objLanes.slotAddr 0 1 (objLanes.k (who objLanes) 10) 16 = .ok ⟨0, 0x40⟩ ∧
    objLanes.bslot 0 1 ⟨0, 0x40⟩ = some busySlot ∧ Ready objLanes (.bexpect 10 15) (who objLanes) (theG objLanes) ∧
    (objLanes.expect 0 1 ⟨0, 0x40⟩ (objLanes.k (who objLanes) 15).toNat).isSome = true ∧
    Ready objLanes (.btest 5 10 18) (who objLanes) (theG objLanes) ∧ phaseDone busySlot (objLanes.k (who objLanes) 18) ∧
    Ready objLanes (.btest 5 10 19) (who objLanes) (theG objLanes) ∧ ¬phaseDone busySlot (objLanes.k (who objLanes) 19) ∧
    Ready objLanes (.ctest 5 10 18) (who objLanes) (theG objLanes) ∧ busySlot.bm = true ∧ (objLanes.k (who objLanes) 18).toNat < 2 ^ 19 ∧
    Ready objLanes (.wait 10 18) (who objLanes) (theG objLanes) ∧ Ready objLanes (.wait 10 19) (who objLanes) (theG objLanes) :=
  ⟨objLanes_solo, by decide, by decide, ready_of (by decide), by decide, ready_of (by decide), by unfold phaseDone; decide, ready_of (by decide),
    by unfold phaseDone; decide, ready_of (by decide), rfl, by decide, ready_of (by decide), ready_of (by decide)⟩
/-- BEXPECT with a reserved bit and beyond 2^28 - 1; CTEST of a slot without a bitmap, and with a reserved bit. -/
theorem witness_SlotWordsRefuse : Ready objLanes (.bexpect 10 23) (who objLanes) (theG objLanes) ∧ 2 ^ 28 ≤ (objLanes.k (who objLanes) 23).toNat ∧
    Ready objLanes (.bexpect 10 24) (who objLanes) (theG objLanes) ∧ objLanes.expect 0 1 ⟨0, 0x40⟩ (objLanes.k (who objLanes) 24).toNat = none ∧
    Ready objLanes (.ctest 5 11 18) (who objLanes) (theG objLanes) ∧ objLanes.slotAddr 0 1 (objLanes.k (who objLanes) 11) 16 = .ok ⟨0, 0x60⟩ ∧
    idleSlot.bm = false ∧ Ready objLanes (.ctest 5 10 23) (who objLanes) (theG objLanes) ∧ 2 ^ 19 ≤ (objLanes.k (who objLanes) 23).toNat :=
  ⟨ready_of (by decide), by decide, ready_of (by decide), by decide, ready_of (by decide), by decide, rfl, ready_of (by decide), by decide⟩
/-- The line of the slot at 0x40 is in error. -/
def objLost : State := objLanes.modDie 0 fun D => { D with badLocal := [(0, 1, 0x40 / 16)] }
theorem witness_DeadObjectRaisesBaruse : Ready objLanes (.barrive 14) (who objLanes) (theG objLanes) ∧ Solo (theG objLanes) (who objLanes) ∧
    slotKey (.barrive 14) = some 14 ∧ objLanes.slotAddr 0 1 (objLanes.k (who objLanes) 14) 16 = .ok ⟨0, 0x200⟩ ∧ objLanes.bslot 0 1 ⟨0, 0x200⟩ = none ∧
    Ready objLanes (.rprodTake 14) (who objLanes) (theG objLanes) ∧ ringKey (.rprodTake 14) = some 14 ∧
    objLanes.slotAddr 0 1 (objLanes.k (who objLanes) 14) 16 = .ok ⟨0, 0x200⟩ ∧ objLanes.ring 0 1 ⟨0, 0x200⟩ = none ∧
    objLanes.badObject 0 1 ⟨0, 0x200⟩ = false ∧ (who objLanes).cap = [] ∧
    Ready objLost (.barrive 10) (who objLost) (theG objLost) ∧ Solo (theG objLost) (who objLost) ∧ objLost.badObject 0 1 ⟨0, 0x40⟩ = true ∧ (who objLost).cap = [] :=
  ⟨ready_of (by decide), objLanes_solo, rfl, by decide, by decide, ready_of (by decide), rfl, by decide, by decide, by decide, rfl, ready_of (by decide),
    .inr ⟨0, by decide, by decide⟩, by decide, rfl⟩
theorem witness_BarriveIsGathered : Ready objLanes (.barrive 10) (who objLanes) (theG objLanes) ∧ quiet (theG objLanes) (who objLanes) ∧
    objLanes.boundReady 0 1 (objLanes.selected (who objLanes)) 0x40 = true ∧ Alone (theG objLanes) (who objLanes) 0 ∧
    (objLanes.arrive 0 1 ⟨0, 0x40⟩).isSome = true ∧ (who objLanes).cap = [] ∧ (who objOne).cap = [] ∧
    Ready objOne (.barrive 10) (who objOne) (theG objOne) ∧ quiet (theG objOne) (who objOne) ∧ (∃ x ∈ (theG objOne).liveAt 0, x ∉ (who objOne).all) ∧
    ∀ x ∈ (who objOne).all, (theG objOne).pos x = 0 :=
  ⟨ready_of (by decide), objLanes_quiet, by decide, objLanes_alone, by decide, rfl, rfl, ready_of (by decide), by unfold quiet; decide, by decide, by decide⟩
def redReq : SyncReq :=
  { id := 9, home := 0, op := .red .add, part := 0, ctx := 1, die := 0, core := 0, gid := 1, xs := [0, 1], hood := false, pc := pc0, addr := 0x4000,
    width := 4, arg := 5, cmp := 0, dst := 6, dstk := 0, acq := false, reply := none, flag := 0 }
/-- A full slot; and an SST of the thread into a region bound to the slot, for which BARRIVE is held. -/
def objHeld : State := { onLanes { theG objLanes with binds := [⟨0x40, 0x4000, 64⟩] } with
  reqs := [{ redReq with op := .store, va := 0x4000 }] }
theorem witness_BarriveRefusedAndHeld : Ready objLanes (.barrive 12) (who objLanes) (theG objLanes) ∧
    objLanes.slotAddr 0 1 (objLanes.k (who objLanes) 12) 16 = .ok ⟨0, 0x70⟩ ∧ objLanes.bslot 0 1 ⟨0, 0x70⟩ = some fullSlot ∧
    fullSlot.arrived = fullSlot.expected ∧ (who objLanes).cap = [] ∧ objLanes.boundReady 0 1 (objLanes.selected (who objLanes)) 0x70 = true ∧
    Ready objHeld (.barrive 10) (who objHeld) (theG objHeld) ∧ Solo (theG objHeld) (who objHeld) ∧ quiet (theG objHeld) (who objHeld) ∧ (who objHeld).cap = [] ∧
    objHeld.boundReady 0 1 (objHeld.selected (who objHeld)) 0x40 = false ∧ 0 < (theG objHeld).positions ∧ ∀ x ∈ (who objHeld).all, (theG objHeld).pos x = 0 :=
  ⟨ready_of (by decide), by decide, by decide, rfl, rfl, by decide, ready_of (by decide), .inr ⟨0, by decide, by decide⟩, by unfold quiet; decide, rfl,
    by decide, by decide, by decide⟩
/-- The group with 0x7FC0 bytes of shared memory. -/
def objShort : State := onLanes { theG objLanes with size := 0x7FC0 }
theorem witness_RinitMakesRing : Ready objLanes (.rinit 14 17) (who objLanes) (theG objLanes) ∧ objLanes.slotAddr 0 1 (objLanes.k (who objLanes) 14) 16 = .ok ⟨0, 0x200⟩ ∧
    (let v := (objLanes.k (who objLanes) 17).toNat; v < 2 ^ 27 ∧ 1 ≤ v / 2 ^ 18 % 64 ∧ v / 2 ^ 18 % 64 ≤ 24 ∧ v / 16 % 2 ^ 14 ≠ 0 ∧ 1 ≤ v / 2 ^ 24 ∧ v / 2 ^ 24 ≤ 3) ∧
    0x200 % 128 = 0 ∧ objLanes.inSpace 0 1 0 0x200 128 = true ∧ objLanes.touchesLive 0 1 0 0x200 128 = false ∧ localWf objLanes (who objLanes) (theG objLanes) :=
  ⟨ready_of (by decide), by decide, by decide, by decide, by decide, by decide, by unfold localWf; decide⟩
/-- A slot address of 0, an image without consumers, an unaligned record, one at the end of the space, and one on live lines. -/
theorem witness_RinitRefuses : Ready objLanes (.rinit 25 17) (who objLanes) (theG objLanes) ∧
    (∃ fa, objLanes.slotAddr 0 1 (objLanes.k (who objLanes) 25) 16 = .fault Cause.baruse fa) ∧
    Ready objLanes (.rinit 14 15) (who objLanes) (theG objLanes) ∧ (objLanes.k (who objLanes) 15).toNat / 2 ^ 18 % 64 = 0 ∧
    Ready objLanes (.rinit 28 17) (who objLanes) (theG objLanes) ∧ objLanes.slotAddr 0 1 (objLanes.k (who objLanes) 28) 16 = .ok ⟨0, 0x210⟩ ∧ 0x210 % 128 ≠ 0 ∧
    Ready objShort (.rinit 27 17) (who objShort) (theG objShort) ∧ objShort.slotAddr 0 1 (objShort.k (who objShort) 27) 16 = .ok ⟨0, 0x7F80⟩ ∧
    objShort.inSpace 0 1 0 0x7F80 128 = false ∧ Ready objLanes (.rinit 13 17) (who objLanes) (theG objLanes) ∧ objLanes.touchesLive 0 1 0 0x80 128 = true :=
  ⟨ready_of (by decide), ⟨_, rfl⟩, ready_of (by decide), by decide, ready_of (by decide), by decide, by decide, ready_of (by decide), by decide, by decide,
    ready_of (by decide), by decide⟩
/-- A ring with three slots free, one with none; reservations held, and not. -/
theorem witness_ProducerRingWords : objLanes.slotAddr 0 1 (objLanes.k (who objLanes) 13) 16 = .ok ⟨0, 0x80⟩ ∧ objLanes.ring 0 1 ⟨0, 0x80⟩ = some ring2 ∧
    Ready objLanes (.rprodTake 13) (who objLanes) (theG objLanes) ∧ ring2.pi < ring2.n ∧ (objLanes.selected (who objLanes)).length ≤ ring2.free ∧
    objLanes.slotAddr 0 1 (objLanes.k (who objLanes) 20) 16 = .ok ⟨0, 0x100⟩ ∧ objLanes.ring 0 1 ⟨0, 0x100⟩ = some ring1 ∧
    Ready objLanes (.rprodTake 20) (who objLanes) (theG objLanes) ∧ ring1.free = 0 ∧
    Ready objLanes (.rprodFill 13) (who objLanes) (theG objLanes) ∧ (∀ x ∈ objLanes.selected (who objLanes), ((theG objLanes).reserved x 0x80).isSome = true) ∧
    objLanes.boundReady 0 1 (objLanes.selected (who objLanes)) 0x80 = true ∧
    Ready objLanes (.rprodFill 20) (who objLanes) (theG objLanes) ∧ ∃ x ∈ objLanes.selected (who objLanes), (theG objLanes).reserved x 0x100 = none :=
  ⟨by decide, by decide, ready_of (by decide), by decide, by decide, by decide, by decide, ready_of (by decide), rfl, ready_of (by decide), by decide,
    by decide, ready_of (by decide), by decide⟩
theorem witness_ConsumerRingWords : Solo (theG objLanes) (who objLanes) ∧ quiet (theG objLanes) (who objLanes) ∧ Alone (theG objLanes) (who objLanes) 0 ∧
    0 < ring2.cons ∧ Ready objLanes (.rconsTake 5 13) (who objLanes) (theG objLanes) ∧ (ring2.cursor 0).out ≠ ring2.n ∧ (ring2.slot (ring2.cursor 0).tc).full = true ∧
    Ready objLanes (.rconsTake 5 20) (who objLanes) (theG objLanes) ∧ (ring1.cursor 0).out ≠ ring1.n ∧ (ring1.slot (ring1.cursor 0).tc).full = false ∧
    Ready objOut (.rconsFree 13) (who objOut) (theG objOut) ∧ objOut.ring 0 1 ⟨0, 0x80⟩ = some ringOut ∧ (ringOut.cursor 0).out ≠ 0 ∧
    Alone (theG objOut) (who objOut) 0 ∧ objOut.boundReady 0 1 (objOut.selected (who objOut)) (objOut.k (who objOut) 13) = true :=
  ⟨objLanes_solo, objLanes_quiet, objLanes_alone, by decide, ready_of (by decide), by decide, by decide, ready_of (by decide), by decide, by decide,
    ready_of (by decide), by decide, by decide, objOut_alone, by decide⟩
/-- A position with no slot taken; one that holds the ring's only slot; and position 1 of a ring with one consumer. -/
def ringFull : State := onLanes (withObj { ring1 with cursors := ⟨1, 0, 0⟩ :: List.replicate 23 ⟨0, 0, 0⟩ } (lanesG 2 [] fun _ => []))
def objPos1 : State := inGroup { withObj ring2 (lanesG 2 [] fun _ => []) with
  count := 64, slots := [0, 1], alloc := [64, 64], lanes := [{ x := 32, ctl := { pc := pc0 }, g := regsOfList [] }] } (.lanes 0 1 0 pc0)
theorem witness_ConsumerRefused : Ready objLanes (.rconsFree 13) (who objLanes) (theG objLanes) ∧ (ring2.cursor 0).out = 0 ∧ (who objLanes).cap = [] ∧
    objLanes.boundReady 0 1 (objLanes.selected (who objLanes)) 0x80 = true ∧
    Ready ringFull (.rconsTake 5 13) (who ringFull) (theG ringFull) ∧ Solo (theG ringFull) (who ringFull) ∧ quiet (theG ringFull) (who ringFull) ∧
    Alone (theG ringFull) (who ringFull) 0 ∧
    (ringFull.ring 0 1 ⟨0, 0x80⟩).map (fun r => decide ((r.cursor 0).out = r.n)) = some true ∧
    Ready objPos1 (.rconsTake 5 13) (who objPos1) (theG objPos1) ∧ Solo (theG objPos1) (who objPos1) ∧ Alone (theG objPos1) (who objPos1) 1 ∧
    objPos1.ring 0 1 ⟨0, 0x80⟩ = some ring2 ∧ ring2.cons ≤ 1 :=
  ⟨ready_of (by decide), by decide, rfl, by decide, ready_of (by decide), .inr ⟨0, by decide, by decide⟩, by unfold quiet; decide,
    ⟨by decide, by decide, by decide, by decide, by decide⟩, by decide, ready_of (by decide), .inr ⟨1, by decide, by decide⟩,
    ⟨by decide, by decide, by decide, by decide, by decide⟩, by decide, by decide⟩
/-- Slot 0 is FULL; slot 1 takes 255 bytes, 256 and no more. -/
theorem witness_RingCredit : 1 < ring2.slots.length ∧ (ring2.slot 0).full = true ∧ (ring2.slot 1).full = false ∧ 64 * ring2.slot64 = 256 ∧
    (ring2.slot 1).landed + 255 < 64 * ring2.slot64 ∧ (ring2.slot 1).landed + 256 = 64 * ring2.slot64 ∧ 64 * ring2.slot64 < (ring2.slot 1).landed + 257 := by decide
/-- An allocation of 32 with 8 in the pool: give 24, claim 8, claim 16. -/
theorem witness_AllocationsMove : Solo (theG objLanes) (who objLanes) ∧ quiet (theG objLanes) (who objLanes) ∧ Alone (theG objLanes) (who objLanes) 0 ∧
    (theG objLanes).alloc.getD 0 0 = 32 ∧ Ready objLanes (.reggive 3) (who objLanes) (theG objLanes) ∧ Ready objLanes (.regclaim 1) (who objLanes) (theG objLanes) ∧
    (theG objLanes).pool = 1 ∧ (theG objLanes).claims = [] ∧ Ready objLanes (.regclaim 2) (who objLanes) (theG objLanes) :=
  ⟨objLanes_solo, objLanes_quiet, objLanes_alone, by decide, ready_of (by decide), ready_of (by decide), by decide, by decide, ready_of (by decide)⟩
/-- One atomic outstanding: .atom at 1 goes on, .atom at 0 waits. -/
def objWaits : State := { objLanes with reqs := [redReq] }
theorem witness_WaitCounter : Ready objWaits (.waitCnt .atom 1) (who objWaits) (theG objWaits) ∧ (∀ x ∈ objWaits.selected (who objWaits), objWaits.counter 0 1 [x] .atom ≤ 1) ∧
    Ready objWaits (.waitCnt .atom 0) (who objWaits) (theG objWaits) ∧ ∀ x ∈ objWaits.selected (who objWaits), 0 < objWaits.counter 0 1 [x] .atom :=
  ⟨ready_of (by decide), by decide, ready_of (by decide), by decide⟩
/-- A launch with two destinations at .die and its counter set on die 0; one group, and one that is at its second generation. -/
def launchOf (ph : Option PhaseHdr) : Launch :=
  { id := 5, part := 0, ctx := 1, kernel := ⟨0, 0x1000, 2, 1, 0, [], Vector.replicate 8 0⟩, n := 2, lo := 0, hi := 1, ranks := [], rank := 0, phase := ph,
    nodes := [], unplaced := [], started := 1, status := 0, queue := 0, serial := false }
def setOf (gen : Nat) : CSet :=
  { die := 0, part := 0, ctx := 1, launch := 5, scope := .die, inst := 0, words := 3, overflow := false, counters := [2, 0], gen := gen, open_ := true,
    members := [(0, 1)], arrived := [], ranks := [], sentUp := false, pc := 0 }
def phG (g : List Gather) : Group := { lanesG 2 [] (fun _ => []) with launch := 5, gathers := g, k := kregs [(10, 0), (11, 2), (12, 3), (13, 2)] }
def phLanes : State := { onLanes (phG []) with launches := [launchOf (some ⟨.die, [2, 0]⟩)], sets := [setOf 0] }
def phBusy : State := { phLanes with reqs := [redReq] }
def barBack : State := { onLanes (phG [{ kind := .bar .die, addr := 0, pos := 0, issued := [0, 1], selected := [0, 1], full := true, done := true, result := 0 }]) with
  launches := [launchOf none], sets := [setOf 1] }
theorem phLanes_solo : Solo (theG phLanes) (who phLanes) := .inr ⟨0, by decide, by decide⟩
/-- A .pod phase of a launch without a process-group table. -/
def phPod : State := { phLanes with launches := [launchOf (some ⟨.pod, [2, 0]⟩)] }
/-- No phase header, another scope, destination 2 of 2; a count of 2 and of 3 where 2 remain; a release that may be performed, and one that may not. -/
theorem witness_PhaseLowersCounter : Ready phLanes (.phase .die 10 11) (who phLanes) (theG phLanes) ∧ Solo (theG phLanes) (who phLanes) ∧
    phLanes.launchOf 0 (theG phLanes) = some (launchOf (some ⟨.die, [2, 0]⟩)) ∧
    phLanes.cset (phLanes.scopeHome 0 .die) 5 .die (phLanes.instOf 0 0 .die) = some (setOf 0) ∧ (phLanes.k (who phLanes) 10).toNat = 0 ∧
    (phLanes.k (who phLanes) 11).toNat = 2 ∧ (setOf 0).counters.getD 0 0 = 2 ∧ phLanes.fullReady 0 1 (phLanes.selected (who phLanes)) = true ∧
    Ready phBusy (.phase .die 10 11) (who phBusy) (theG phBusy) ∧ phBusy.fullReady 0 1 (phBusy.selected (who phBusy)) = false ∧
    Ready phLanes (.phase .die 10 12) (who phLanes) (theG phLanes) ∧ (phLanes.k (who phLanes) 12).toNat = 3 ∧
    Ready phLanes (.phase .quad 10 11) (who phLanes) (theG phLanes) ∧ Ready phLanes (.phase .die 13 11) (who phLanes) (theG phLanes) ∧
    (phLanes.k (who phLanes) 13).toNat = [2, 0].length ∧ Ready objLanes (.phase .die 10 11) (who objLanes) (theG objLanes) ∧
    objLanes.launchOf 0 (theG objLanes) = none ∧ Ready phPod (.phase .pod 10 11) (who phPod) (theG phPod) ∧ Solo (theG phPod) (who phPod) ∧
    phPod.launchOf 0 (theG phPod) = some (launchOf (some ⟨.pod, [2, 0]⟩)) ∧ (launchOf (some ⟨.pod, [2, 0]⟩)).ranks = [] :=
  ⟨ready_of (by decide), phLanes_solo, by decide, by decide, by decide, by decide, by decide, by decide, ready_of (by decide), by decide,
    ready_of (by decide), by decide, ready_of (by decide), ready_of (by decide), by decide, ready_of (by decide), by decide, ready_of (by decide),
    .inr ⟨0, by decide, by decide⟩, by decide, rfl⟩
/-- A generation opened before the group started; and none is open. -/
def barLate : State := { onLanes (phG []) with launches := [launchOf none], sets := [{ setOf 0 with members := [] }] }
def barShut : State := { onLanes (phG []) with launches := [launchOf none], sets := [{ setOf 0 with open_ := false, members := [] }] }
theorem witness_BarOfNextGeneration : Ready barLate (.bar .die) (who barLate) (theG barLate) ∧ Solo (theG barLate) (who barLate) ∧
    (0, 1) ∉ ({ setOf 0 with members := [] } : CSet).members ∧
    Ready barShut (.bar .die) (who barShut) (theG barShut) ∧ quiet (theG barShut) (who barShut) ∧ Alone (theG barShut) (who barShut) 0 ∧
    (∀ x ∈ (theG barShut).liveIdx, (theG barShut).pos x = 0) ∧ barShut.fullReady 0 1 (barShut.selected (who barShut)) = true :=
  ⟨ready_of (by decide), .inr ⟨0, by decide, by decide⟩, by decide, ready_of (by decide), by unfold quiet; decide,
    ⟨by decide, by decide, by decide, by decide, by decide⟩, by decide, by decide⟩
theorem witness_BarArrivesAndReturns : Ready objLanes (.bar .die) (who objLanes) (theG objLanes) ∧ objLanes.launchOf 0 (theG objLanes) = none ∧
    Ready phLanes (.bar .die) (who phLanes) (theG phLanes) ∧ quiet (theG phLanes) (who phLanes) ∧ Alone (theG phLanes) (who phLanes) 0 ∧
    (∀ x ∈ (theG phLanes).liveIdx, (theG phLanes).pos x = 0) ∧ phLanes.fullReady 0 1 (phLanes.selected (who phLanes)) = true ∧ (who phLanes).core = (theG phLanes).core ∧
    Ready barBack (.bar .die) (who barBack) (theG barBack) ∧ barBack.cset (barBack.scopeHome 0 .die) 5 .die (barBack.instOf 0 0 .die) = some (setOf 1) ∧
    ∀ x ∈ (who barBack).all, ((theG barBack).doneAt (.bar .die) 0 x).map (·.result) = some 0 :=
  ⟨ready_of (by decide), by decide, ready_of (by decide), by unfold quiet; decide, ⟨by decide, by decide, by decide, by decide, by decide⟩, by decide, by decide,
    by decide, ready_of (by decide), by decide, by decide⟩

/-! ### Bulk commands and carder programs -/

/-- A layout record of 4 by 4 words at 0x5000, its box two words; a footprint record that names no region, and one with a reserved bit set. -/
def layoutBytes (dir : Byte) : List Byte :=
  bytesOf 8 0x5000 ++ bytesOf 4 4 ++ bytesOf 4 4 ++ (List.replicate 6 (bytesOf 4 1)).flatten ++ bytesOf 8 4 ++ bytesOf 8 16 ++ List.replicate 48 0 ++
    [1, 0, 2, dir] ++ bytesOf 2 2 ++ (List.replicate 7 (bytesOf 2 1)).flatten ++ bytesOf 2 0xA7C5 ++ [0, 0]
/-- The bytes of a list from an address on, but for the zeros. -/
def cells (a : Nat) (bs : List Byte) : Mem := (bs.zipIdx a).filterMap fun p => if p.1 = 0 then none else some ⟨p.2, p.1⟩
def bulkMem : Mem := cells 0x4000 (layoutBytes 0) ++ cells 0x4080 (layoutBytes 1) ++ cells 0x414F [0x40] ++ cells 0x5000 [1, 2, 3, 4, 5, 6, 7, 8] ++
  cells 0x8000 (bytesOf 8 0 ++ bytesOf 8 0x10000000 ++ bytesOf 8 0 ++ bytesOf 8 0b10111)
def kBulk : Vector Word 192 := withBuf 2 (bufRec 0 0 0 1 64 0x100) <|
  kregs [(40, 0x4000), (42, 0x4080), (44, 0x4100), (46, 0x4140), (48, 0), (49, 0), (56, 3)]
def bulkLanes : State := { mapped (onLanes { lanesG 2 [] (fun x => [(5, BitVec.ofNat 32 x)]) with k := kBulk }) with
  mem := bulkMem }
theorem bulkLanes_solo : Solo (theG bulkLanes) (who bulkLanes) := .inr ⟨0, by decide, by decide⟩
theorem witness_TcopyQueuesCommands : Ready bulkLanes (.tcopy 2 40 48) (who bulkLanes) (theG bulkLanes) ∧ Ready bulkLanes (.tcopyMc 2 40 48) (who bulkLanes) (theG bulkLanes) ∧
    nothingQueued bulkLanes (who bulkLanes) (theG bulkLanes) ∧ bulkLanes.vaStalled 0 0 false 0x4000 128 = false ∧
    (match bulkLanes.capture (bulkLanes.taking (who bulkLanes)) 0x4000 128 with | .ok (image, _) => image.length == 128 | .fault _ _ => false) = true ∧
    roomFor bulkLanes (who bulkLanes) 2 :=
  ⟨ready_of (by decide), ready_of (by decide), by unfold nothingQueued; decide, by decide, by decide, by unfold roomFor; decide⟩
theorem witness_RowsQueueCommand : Ready bulkLanes (.gath 2 40 5) (who bulkLanes) (theG bulkLanes) ∧ Ready bulkLanes (.scat 2 42 5) (who bulkLanes) (theG bulkLanes) ∧
    Solo (theG bulkLanes) (who bulkLanes) ∧ bulkLanes.vaStalled 0 0 false 0x4080 128 = false ∧
    (match bulkLanes.capture (bulkLanes.taking (who bulkLanes)) 0x4080 128 with
      | .ok (image, t) => image.length == 128 && t.bulkCarder (who bulkLanes) == some 0 | .fault _ _ => false) = true :=
  ⟨ready_of (by decide), ready_of (by decide), bulkLanes_solo, by decide, by decide⟩
theorem witness_CrunQueuesProgram : Ready bulkLanes (.crun 1 44 48) (who bulkLanes) (theG bulkLanes) ∧ Ready bulkLanes (.crun 0 46 48) (who bulkLanes) (theG bulkLanes) ∧
    nothingQueued bulkLanes (who bulkLanes) (theG bulkLanes) ∧ bulkLanes.vaStalled 0 0 false 0x4100 64 = false ∧
    (match bulkLanes.capture (bulkLanes.taking (who bulkLanes)) 0x4100 64 with | .ok (image, _) => !footBad image | .fault _ _ => false) = true ∧
    (match bulkLanes.capture (bulkLanes.taking (who bulkLanes)) 0x4140 64 with | .ok (image, _) => footBad image | .fault _ _ => false) = true ∧
    (bulkLanes.coreCarders 0 0).2 < 48 ∧ bulkLanes.queueLen 0 (bulkLanes.coreCarders 0 0).2 + 2 ≤ 16 :=
  ⟨ready_of (by decide), ready_of (by decide), by unfold nothingQueued; decide, by decide, by decide, by decide, by decide, by decide⟩

/-- A command of the group's two lanes. -/
def cmd (kind : CmdKind) (started : Bool) (p0 p1 : Nat) : Cmd :=
  { id := 3, kind := kind, started := started, ctx := 1, sup := false, core := 0, gid := 1, xs := [0, 1], npart := 2, pc := pc0, base := 0, number := 0,
    map := 3, hood := false, ftag := 2, pgm := 0x6000, buf := bufRec 0 0 0 1 64 0x400, image := layoutBytes 0, p0 := p0, p1 := p1 }
/-- Carder 0 of die 0 with these c registers and commands; group 1 as in the tests of slots and rings. -/
def onCarder (q : Cmd) (p0 : Nat) (l : List (Nat × DWord)) : State :=
  let s := { objLanes with cur := .carder 0 0 }
  let s := { mapped s with mem := bulkLanes.mem }
  s.modCarder 0 0 fun _ => { c := l.foldl (fun v p => vput v p.1 p.2) (Vector.replicate 32 0), ctl := { pc := 0x6040 }, queue := [q], p0 := p0 }
theorem carder_ready_of {s : State} {i : Instr} (h : (decide (s.cur = .carder 0 0) && ((s.die 0).carder 0).ctl.chain.isEmpty && i.carderOk) = true) :
    CarderReady s i 0 0 := by
  simp only [Bool.and_eq_true, decide_eq_true_eq, List.isEmpty_iff] at h
  obtain ⟨⟨hc, he⟩, hi⟩ := h
  exact ⟨hc, by decide, by rw [he]; rfl, hi, by rw [he]; rintro g ⟨⟩⟩
def localAt (a : Nat) : DWord := BitVec.ofNat 64 (2 ^ 63 + a)
/-- Registers: 1 the word at 0x5004 (aligned), 2 an index, 3 unaligned, 4 the layout, 8 to 15 its coordinates 0. -/
def prog : State := onCarder (cmd .crun true 0 0) 0 [(1, 0x5000), (2, 1), (3, 0x5002), (4, 0x4000), (5, 0xFFFFFFFF80000001), (6, localAt 0x300), (7, 8)]
theorem witness_IntegerWordsOnCarders : CarderReady prog (.imulhI32 9 5 5 0) 0 0 ∧
    ∃ f, result (fun v => (immOf ((prog.die 0).carder 0).ctl.chain v).signExtend 64) (.imulhI32 9 5 5 0) = some (9, f) := ⟨carder_ready_of (by decide), _, rfl⟩
theorem witness_UniformWordsOnCarders : CarderReady prog (.kadd 5 2) 0 0 ∧ ∃ f, kResult (n := 64) (.kadd 5 2) = some (5, f) := ⟨carder_ready_of (by decide), _, rfl⟩
theorem witness_ControlWordsOnCarders : CarderReady prog (.bra (-1)) 0 0 ∧ CarderReady prog (.brc 2 1) 0 0 ∧ CarderReady prog (.call 9 1) 0 0 ∧
    CarderReady prog (.ret 1) 0 0 ∧ (vget ((prog.die 0).carder 0).c 1 0).toNat % 4 = 0 ∧ CarderReady prog (.brx 3) 0 0 ∧
    (vget ((prog.die 0).carder 0).c 3 0).toNat % 4 ≠ 0 ∧ CarderReady prog .nop 0 0 :=
  ⟨carder_ready_of (by decide), carder_ready_of (by decide), carder_ready_of (by decide), carder_ready_of (by decide), by decide, carder_ready_of (by decide),
    by decide, carder_ready_of (by decide)⟩
theorem witness_CarderHintsJoinChain : hintOf (.hintPred 31) = some (.pred 31) ∧ prog.cur = .carder 0 0 ∧ ((prog.die 0).carder 0).ctl.chain = [] := by decide
/-- A queued TCOPY, and a queued CRUN, that may start. -/
def queuedAs (k : CmdKind) : State := onCarder (cmd k false 0 0) 0 []
/-- Of the tenant's, where its partition runs; and of the supervisor wave's beside a tenant's that a halt stopped. -/
def startsAt (s : State) (p : Cmd) : Bool :=
  !p.started && s.serves 0 0 p && (match ((s.die 0).carder 0).current with
    | none => true
    | some o => p.sup && !o.sup && (s.part (s.partOf 0)).halt && !(o.kind == .crun && p.kind == .crun)) && s.mayStart 0 0 p
def svBeside : State :=
  { (onCarder (cmd .crun true 0 0) 0 []).modCarder 0 0 fun c => { c with queue := c.queue ++ [{ cmd .tcopy false 0 0 with id := 4, sup := true, ctx := 0, gid := 0 }] } with
    parts := vset (onCarder (cmd .crun true 0 0) 0 []).parts 0 { halt := true } }
theorem witness_CommandStarts : (((queuedAs .tcopy).die 0).carder 0).queue.find? (startsAt (queuedAs .tcopy)) = some (cmd .tcopy false 0 0) ∧
    (((queuedAs .crun).die 0).carder 0).queue.find? (startsAt (queuedAs .crun)) = some (cmd .crun false 0 0) ∧
    (((svBeside.die 0).carder 0).queue.find? (startsAt svBeside)).map (·.id) = some 4 :=
  ⟨by decide, by decide, by decide⟩
/-- The last unit of a TCOPY, its completion; the last unit of a gathered row, and the end of a GATH. -/
theorem witness_UnitLands :
    let s := fun (q : Cmd) => onCarder q 0 []
    let moves := fun (q : Cmd) (j v : Nat) => match (s q).moveUnit 0 0 q 1 (q.place j v) with | .ok _ => true | .fault _ _ => false
    let q0 := cmd .tcopy true 1 0
    let q1 := cmd .tcopy true 2 0
    let q2 := cmd .gath true 1 1
    let q3 := cmd .gath true 2 0
    (s q0).serves 0 0 q0 = true ∧ ((s q0).die 0 |>.carder 0).current = some q0 ∧ (s q0).ringAt 0 q0.gid q0.object = none ∧ (s q0).bulkFault 0 (cmd .tcopy true 0 0) = none ∧
    (s q0).boxFault 0 (cmd .tcopy true 0 0) = none ∧
    q0.p0 < q0.boxUnits ∧ (s q0).unitStalled 0 0 q0 (q0.place 0 1) = false ∧ moves q0 0 1 = true ∧ q1.boxUnits ≤ q1.p0 ∧
    q2.nextPos = some 1 ∧ q2.boxUnits ≤ q2.p1 + 1 ∧ moves q2 1 1 = true ∧ (cmd .gath true 1 0).p1 + 1 < q2.boxUnits ∧ q3.nextPos = none :=
  ⟨by decide, rfl, by decide⟩
theorem witness_CarderLoadsAndStores : ((prog.die 0).carder 0).current = some (cmd .crun true 0 0) ∧ CarderReady prog (.cldx .i32 9 1 2) 0 0 ∧
    indexedAt ((prog.die 0).carder 0) 1 2 4 = 0x5004 ∧ prog.cstalled 0 0 false 0x5004 4 = false ∧ prog.cread 0 0 1 false 0x5004 4 = .ok [5, 6, 7, 8] ∧
    CarderReady prog (.cstx .n32 5 1 2) 0 0 ∧ (match prog.cwrite 0 0 1 false 0x5004 [1, 0, 0, 128] with | .ok _ => true | .fault _ _ => false) = true ∧
    CarderReady prog (.cldx .n32 9 3 2) 0 0 ∧ (indexedAt ((prog.die 0).carder 0) 3 2 4).toNat % 4 ≠ 0 ∧ CarderReady prog .chalt 0 0 ∧
    CarderReady prog (.caddr 9 4 8) 0 0 ∧ (match prog.cread 0 0 1 false 0x4000 128 with | .ok bs => bs.length == 128 | .fault _ _ => false) = true ∧ (Layout.of (layoutBytes 0)).ok = true ∧
    (Layout.of (layoutBytes 0)).outside (List.replicate 8 0) = false :=
  ⟨rfl, carder_ready_of (by decide), by decide, by decide, by decide, carder_ready_of (by decide), by decide, carder_ready_of (by decide), by decide,
    carder_ready_of (by decide), carder_ready_of (by decide), by decide, by decide, by decide⟩
/-- Nothing left to move; the last piece; a piece before the last. -/
def moving (p0 len : Nat) : State := onCarder (cmd .crun true 0 0) p0 [(1, 0x5000), (2, localAt 0x300), (3, BitVec.ofNat 64 len)]
theorem witness_CxferMovesPieces : CarderReady (moving 8 8) (.cxfer 1 2 3) 0 0 ∧ CarderReady (moving 64 72) (.cxfer 1 2 3) 0 0 ∧
    (moving 64 72).cread 0 0 1 false 0x5040 8 = .ok (List.replicate 8 0) ∧
    (match (moving 64 72).cwrite 0 0 1 false (localAt 0x340) (List.replicate 8 0) with | .ok _ => true | .fault _ _ => false) = true ∧
    CarderReady (moving 0 65) (.cxfer 1 2 3) 0 0 ∧ min 64 (65 - 0) = 64 ∧
    (match (moving 0 65).cread 0 0 1 false 0x5000 64 with | .ok bs => bs.length == 64 | .fault _ _ => false) = true :=
  ⟨carder_ready_of (by decide), carder_ready_of (by decide), by decide, by decide, carder_ready_of (by decide), by decide, by decide⟩
/-- Sequences of one word each: [0x04030201] and [0x08070605] at 0x5000, counted only; and at their end. -/
def sorted (p0 : Nat) : State := onCarder (cmd .crun true 0 0) p0 [(4, 0x5000), (5, 1), (6, 0x5004), (7, 1), (12, 0), (13, 0)]
theorem stalls_none (s : State) (h : s.moving = []) (v : DWord) (n : Nat) : s.cstalled 0 0 false v n = false := by
  unfold State.cstalled State.vaStalled
  split <;> simp [h]
theorem witness_SortedWordsStep : CarderReady (sorted 0) (.csect .n32 9 4 12) 0 0 ∧ CarderReady (sorted 0) (.cmrg .n32 9 4 12) 0 0 ∧
    (((sorted 0).die 0).carder 0).current = some (cmd .crun true 0 0) ∧ (∀ v n, (sorted 0).cstalled 0 0 false v n = false) ∧
    (0x5000 : DWord).toNat % 4 = 0 ∧ (0x5004 : DWord).toNat % 4 = 0 ∧ 1 ≤ (((sorted 1).die 0).carder 0).p0 := by
  refine ⟨carder_ready_of (by decide), carder_ready_of (by decide), by decide, ?_, by decide, by decide, by decide⟩
  exact fun v n => stalls_none _ (by decide) v n
/-- A slot that takes an arrival and a credit of 64, a ring with a free slot, one with none. -/
def carrives (a : Nat) (b : DWord) : State := onCarder (cmd .crun true 0 0) 0 [(1, localAt a), (2, b)]
theorem witness_CarriveSignals : CarderReady (carrives 0x40 64) (.carrive 1 2) 0 0 ∧ CAddr.of (localAt 0x40) = some (.loc 0 0x40) ∧
    (carrives 0x40 64).ring 0 1 ⟨0, 0x40⟩ = none ∧ ((carrives 0x40 64).arriveCredit 0 1 ⟨0, 0x40⟩ 64).isSome = true ∧
    (carrives 0x80 0).ring 0 1 ⟨0, 0x80⟩ = some ring2 ∧ ring2.free ≠ 0 ∧ (carrives 0x100 0).ring 0 1 ⟨0, 0x100⟩ = some ring1 ∧ ring1.free = 0 :=
  ⟨carder_ready_of (by decide), by decide, by decide, by decide, by decide, by decide, by decide, by decide⟩
/-- The fault of a carder word's access, if it faults. -/
def faultOf {α : Type} : Acc α → Option (Cause × DWord)
  | .ok _ => none
  | .fault c fa => some (c, fa)
/-- The copies of one unit: DIR, FILL, the buffer's MODE and base, the unit's offset and its coordinate. -/
def unitOf (dir fill : Byte) (mode base off x : Nat) : Cmd × Place1 :=
  ({ cmd .tcopy true 0 0 with buf := bufRec 0 0 mode 1 64 base, image := (layoutBytes dir).set 105 fill }, { off := off, coord := x :: List.replicate 7 0 })
def outOf (p : Cmd × Place1) : Bool := (List.range 8).any fun i => p.1.layout.ext.getD i 1 ≤ p.2.coord.getD i 0
def freeAt (s : State) (a : Nat) : Bool := s.inSpace 0 1 0 a 4 && !s.touchesLive 0 1 0 a 4
/-- Inside the buffer and the tensor, a fill, BOUNDS, a wrapped and two dropped units, an address outside the space and one on a live slot. -/
theorem witness_UnitsMoveAndCredit :
    let s := onCarder (cmd .tcopy true 0 0) 0 []
    let lands := fun (p : Cmd × Place1) => decide (p.2.off + p.1.unit ≤ p.1.bufRec.extent)
    let dir := fun (p : Cmd × Place1) => p.1.layout.dir
    (unitOf 0 0 1 0x400 0 0).1.shift = 0 ∧
    (outOf (unitOf 0 2 1 0x400 0 5) = true ∧ (unitOf 0 2 1 0x400 0 5).1.layout.fill = 2) ∧
    (lands (unitOf 0 0 1 0x7FFC 60 0) = true ∧ s.inSpace 0 1 0 (0x7FFC + 60) 4 = false) ∧
    (s.inSpace 0 1 0 0x40 4 = true ∧ s.touchesLive 0 1 0 0x40 4 = true) ∧
    (outOf (unitOf 0 1 1 0x400 0 5) = true ∧ dir (unitOf 0 1 1 0x400 0 5) = false ∧ lands (unitOf 0 1 1 0x400 0 5) = true ∧ freeAt s 0x400 = true) ∧
    (outOf (unitOf 0 0 1 0x400 0 1) = false ∧ (s.readVa 0 (carderAgent 0) false 0x5004 4 |> faultOf) = none) ∧
    (dir (unitOf 1 0 1 0x400 0 1) = true ∧ (s.writeVa 0 (carderAgent 0) false 0x5004 (s.readLocal 0 1 0 0 0x400 4) |> faultOf) = none ∧
      s.badLocalAt 0 1 0 0 0x400 4 = false) ∧
    (unitOf 0 0 1 0x400 64 0).1.bufRec.extent < 64 + 4 ∧ (unitOf 1 0 2 0x400 64 0).1.bufRec.mode = 2 ∧
    ((s.writeVa 0 (carderAgent 0) false 0x5000 (List.replicate 4 0)) |> faultOf) = none ∧
    ((unitOf 0 0 3 0x400 64 0).1.bufRec.mode = 3 ∧ 64 % 64 + 4 ≤ 64) ∧ s.memWf := by
  intro s lands dir; exact ⟨by decide, by decide, by decide, by decide, by decide, by decide, by decide, by decide, by decide, by decide, by decide, by unfold State.memWf; decide⟩
/-- An access outside the program's footprint, and a coordinate outside the tensor, a layout address that is unaligned, and one whose record is none. -/
def progBad : State := onCarder (cmd .crun true 0 0) 0 [(1, 0x5000), (2, 1), (3, 0x5002), (4, 0x4000), (5, 0x5000), (6, localAt 0x8000), (16, 5)]
theorem witness_CarderLoadsAndStores_faults : CarderReady progBad (.cldx .n32 9 6 2) 0 0 ∧
    (faultOf (progBad.cread 0 0 1 false (indexedAt ((progBad.die 0).carder 0) 6 2 4) 4)).isSome = true ∧
    (faultOf (progBad.cwrite 0 0 1 false (indexedAt ((progBad.die 0).carder 0) 6 2 4) (bytesOf 4 0))).isSome = true ∧
    (0x5002 : DWord).toNat % 128 ≠ 0 ∧ (Layout.of (layoutBytes 0)).outside [5, 0, 0, 0, 0, 0, 0, 0] = true ∧
    (match progBad.cread 0 0 1 false 0x5000 128 with | .ok bs => !(Layout.of bs).ok | .fault .. => false) = true ∧
    (faultOf (progBad.cread 0 0 1 false 0x20000000 128)).isSome = true :=
  ⟨carder_ready_of (by decide), by decide, by decide, by decide, by decide, by decide, by decide⟩
/-- An unaligned sequence; an output of no capacity, which is full at once, before one more common element and before one more of either. -/
def sortedTo (la : DWord) (y out : DWord) : State := onCarder (cmd .crun true 0 0) 0 [(4, la), (5, 1), (6, y), (7, 1), (12, out), (13, 0)]
theorem witness_SortedWordsStep_faults : CarderReady (sortedTo 0x5002 0x5000 0) (.csect .n32 9 4 12) 0 0 ∧
    [(0x5002 : DWord), 0x5000, 0].find? (fun v => v.toNat % 4 ≠ 0) = some 0x5002 ∧
    CarderReady (sortedTo 0x5000 0x5000 (localAt 0x400)) (.cmrg .n32 9 4 12) 0 0 ∧ localAt 0x400 ≠ 0 ∧ (localAt 0x400).toNat % 4 = 0 ∧
    (∀ v n, (sortedTo 0x5000 0x5000 (localAt 0x400)).cstalled 0 0 false v n = false) ∧
    (sortedTo 0x5000 0x5000 (localAt 0x400)).cread 0 0 1 false 0x5000 4 = .ok [1, 2, 3, 4] := by
  refine ⟨carder_ready_of (by decide), by decide, carder_ready_of (by decide), by decide, by decide, ?_, by decide⟩
  exact fun v n => stalls_none _ (by decide) v n
theorem witness_CarriveSignals_faults : CAddr.of 0xC000000000000000 = none ∧ CAddr.of 0x5000 = some (.main 0x5000) ∧ CAddr.of (localAt 0x44) = some (.loc 0 0x44) ∧
    (objLanes.inSpace 0 1 0 0x8000 16 = false) ∧ CAddr.of (localAt 0x8000) = some (.loc 0 0x8000) ∧
    CarderReady (carrives 0x40 (BitVec.ofNat 64 (2 ^ 40))) (.carrive 1 2) 0 0 ∧ (carrives 0x40 (BitVec.ofNat 64 (2 ^ 40))).ring 0 1 ⟨0, 0x40⟩ = none ∧
    (carrives 0x40 (BitVec.ofNat 64 (2 ^ 40))).arriveCredit 0 1 ⟨0, 0x40⟩ (2 ^ 40) = none ∧
    (carrives 0x40 64).badObject 0 1 ⟨0, 0x40⟩ = false ∧
    ((carrives 0x40 64).modDie 0 fun D => { D with badLocal := [(0, 1, 4)] }).badObject 0 1 ⟨0, 0x40⟩ = true :=
  ⟨by decide, by decide, by decide, by decide, by decide, carder_ready_of (by decide), by decide, by decide, by decide, by decide⟩

/-! ### The machine as a whole -/

/-- A word placed for the first step: NOP for a tenant's lane, CHALT for carder 0. -/
def placed (w : Nat) : State := State.reset.withFetchWord 32 w
/-- The placed word's thread is about to perform it. -/
def placedAt (w : Nat) : State := { placed w with issue := [], cur := .lanes 0 1 0 placedVa }
theorem witness_StepRunsDecodedInstruction :
    let s := placed 0x76000004
    let s1 : State := { s with issue := [] }
    let a := Agent.lanes 0 1 0 placedVa
    s.issue = [a] ∧ (s1.who a).map (fun w => (w.d, w.core, w.gid, w.pc, (w.waitsAt s1).isNone)) = some (0, 0, 1, placedVa, true) ∧
    s1.translate 0 0 false placedVa .fetch = .ok placedDa ∧ s1.stalled placedDa = false ∧ s1.walkStalled 0 0 false placedVa = false ∧
    ((s1.fetchLine 0 0 (placedDa / 128)).map fun l => (l.drop (placedDa % 128)).take 4) = some [4, 0, 0, 0x76] ∧
    s1.isSilol 0 1 placedVa = false ∧ s.mem.get placedDa 4 = 0x76000004 ∧ (s.die 0).icache = [] ∧ placedDa % 4 = 0 := by decide
/-- The line of the placed word is in error; a lane and a hood that wait at a NOP. -/
def waitingLane : State := { onLanes { lanesG 1 [] (fun _ => []) with lanes := [{ x := 0, ctl := { pc := pc0, wait := .wait, word := some .nop }, g := Vector.replicate 64 0 }] } with
  issue := [.waiting 0 1 0] }
def waitingHood : State := { onLanes { grp 2 with hoods := [{ lo := 0, hi := 2, ctl := { pc := pc0, wait := .wait, word := some .nop }, g := Vector.replicate 64 {} }] } with
  issue := [.hood 0 1 0] }
theorem witness_StepRunsWaitingAgents :
    (({ placed 0x76000004 with badLines := [placedDa / 64], issue := [] } : State).fetchLine 0 0 (placedDa / 128)).isNone = true ∧
    (waitingLane.group 0 1).bind (fun G => (G.lane 0).bind fun l => l.ctl.word) = some .nop ∧
    (waitingHood.group 0 1).bind (fun G => (G.hood 0).bind fun h => if h.ctl.wait.waits then h.ctl.word else none) = some .nop := by decide
theorem witness_StepRunsCarderWord :
    let s := placed 0xAC000001
    let s1 : State := { s with issue := [] }
    s.issue = [.carder 0 0] ∧ ((s1.die 0).carder 0).ctl.pc = placedVa ∧ s1.translate 0 (carderAgent 0) false placedVa .fetch = .ok placedDa ∧
    s1.stalled placedDa = false ∧ s1.walkStalled 0 (carderAgent 0) false placedVa = false ∧
    ((s1.fetchLine 0 (carderAgent 0) (placedDa / 128)).map fun l => (l.drop (placedDa % 128)).take 4) = some [1, 0, 0, 0xAC] ∧
    decodeTableWord 32 0xAC000001 = some .chalt ∧ (s1.die 0).active.areas = [] := by decide
/-- A carder at a portable body's word, of whose words the area holds a copy. -/
theorem witness_StepRunsCarderCopy :
    let A : TransArea := { base := 0x6000, size := 0x100, meas := 0, area := 0x9000, bytes := 0x1000, copies := [(0x40, 0x10)] }
    carderFetches (prog.modDie 0 fun D => { D with active := { D.active with areas := [A] } }) 0 false 0x6040 0x9010 :=
  .inr ⟨_, (0x40, 0x10), rfl, by decide, by decide, by decide, by decide⟩
theorem witness_DecodeEncode : (Instr.ld .i4 63 23 63 15).wellFormed = true := by decide
theorem witness_MemoryCanonicalKept : (placed 0x76000004).memWf ∧ (match step (placed 0x76000004) with | .next _ => true | _ => false) = true :=
  ⟨by unfold State.memWf; decide, by decide⟩

/-- HINT.LIFE before NOP; registers 8 and up beyond the allocation; carder and supervisor words in a tenant's lanes; words that are none. -/
def small : State := onLanes { lanesG 2 [] (fun _ => []) with alloc := [8] }
def badWord : State := placedAt 0xFA000000
def badHint : State := placedAt 0xFF0FFFFF
def strays (w : Who) (i : Instr) (x : Nat) : Bool := (w.hintsAt x).any fun h => !h.accepts i
def oddAt (s : State) (w : Who) (x : Nat) : Bool :=
  let op := s.opAt w.d w.core (w.gid = 0) w.pc
  op == some 0x7F || !(w.hintsAt x).all (acceptsOp op)
/-- HINT.FMTX in front of a malformed word of major opcode 0x22. -/
def badFcvt : State := ({ placedAt 0x447E0000 with } : State).modGroup 0 1 fun G => { G with lanes := G.lanes.map fun l =>
  { l with ctl := { l.ctl with chain := [.fmtx .rne false false 0], chainPc := placedVa - 4 } } }
theorem witness_WordsTrapIllAndPriv :
    chained.who chained.cur = some (who chained) ∧ chained.group 0 1 = some (theG chained) ∧ Instr.nop.encoded = true ∧ hintOf .nop = none ∧
    (who chained).all.any (strays (who chained) .nop) = true ∧
    small.who small.cur = some (who small) ∧ small.group 0 1 = some (theG small) ∧ (∀ i ∈ [Instr.chalt, .iadd 5 6 8, .trapret], (who small).all.any (strays (who small) i) = false) ∧
    small.selected (who small) = [0, 1] ∧
    Instr.chalt.carderOnly = true ∧ (Instr.iadd 5 6 8).wellFormed = true ∧ (Instr.iadd 5 6 8).carderOnly = false ∧
    (small.selected (who small)).filter (refusedAt (theG small) (who small) (Instr.iadd 5 6 8).use) = [0, 1] ∧
    Instr.trapret.supervisor = true ∧ Instr.trapret.wellFormed = true ∧
    (small.selected (who small)).filter (refusedAt (theG small) (who small) Instr.trapret.use) = [] ∧ (who small).gid ≠ 0 :=
  ⟨who_of (by decide), group_of (by decide), rfl, rfl, by decide, who_of (by decide), group_of (by decide), by decide⟩
theorem witness_MalformedWords :
    badWord.who badWord.cur = some (who badWord) ∧ badWord.group 0 1 = some (theG badWord) ∧
    (who badWord).all.any (oddAt badWord (who badWord)) = false ∧ badWord.selected (who badWord) = [0] ∧
    badHint.who badHint.cur = some (who badHint) ∧ badHint.group 0 1 = some (theG badHint) ∧ (who badHint).all.any (oddAt badHint (who badHint)) = true ∧
    badFcvt.who badFcvt.cur = some (who badFcvt) ∧ badFcvt.group 0 1 = some (theG badFcvt) ∧ (who badFcvt).all.any (oddAt badFcvt (who badFcvt)) = false ∧
    (who badFcvt).hints.length = 1 ∧ badFcvt.selected (who badFcvt) = [0] :=
  ⟨who_of (by decide), group_of (by decide), by decide, by decide, who_of (by decide), group_of (by decide), by decide, who_of (by decide), group_of (by decide),
    by decide, by decide, by decide⟩
/-- A carder with a chain: its hints accept a word or not, its predicate excludes it; the malformed word, alone and where a hint is. -/
def chainedCarder (hs : List Hint) : State := prog.modCarder 0 0 fun c => { c with ctl := { c.ctl with chain := hs, chainPc := 0x603C } }
theorem witness_CarderProfileHolds :
    let at_ := fun (s : State) => (s.die 0).carder 0
    (chainedCarder [.life 5]).cur = .carder 0 0 ∧ (Hint.life 5).accepts (.kadd 5 2) = false ∧ (Instr.kadd 5 2).encoded = true ∧ hintOf (.kadd 5 2) = none ∧
    (∀ h ∈ (at_ prog).ctl.chain, h.accepts .exit = true) ∧ Instr.exit.carderOk = false ∧ predOf (at_ prog).ctl.chain = none ∧
    predOf (at_ (chainedCarder [.pred 9])).ctl.chain = some 9 ∧ (vget (at_ (chainedCarder [.pred 9])).c 9 0).getLsbD 0 = false ∧
    (∀ h ∈ (at_ (chainedCarder [.pred 9])).ctl.chain, h.accepts .exit = true) ∧
    hintOf (.hintLife 5) = some (.life 5) ∧ prog.opAt 0 (carderAgent 0) false 0x6040 ≠ some 0x7F ∧ (at_ prog).ctl.pc = 0x6040 ∧
    ({ prog with mem := (prog.mem.writeN 0x6040 [0, 0, 0, 0xFF]).writeN 0x8018 [0x1B] } : State).opAt 0 (carderAgent 0) false 0x6040 = some 0x7F ∧
    acceptsOp (some 0) (.life 5) = false ∧ (at_ prog).current = some (cmd .crun true 0 0) := by
  intro at_; exact ⟨by decide, by decide, rfl, rfl, by decide, by decide, by decide, by decide, by decide, by decide, rfl, by decide, by decide, by decide, by decide, rfl⟩
/-- Lanes whose predicate register is 0; a malformed word that the predicate excludes too. -/
def excluded : State := onLanes (lanesG 2 [.pred 3] fun _ => [(6, 1)])
theorem witness_ExcludedThreadsPass : (Instr.iadd 5 6 6).encoded = true ∧ hintOf (.iadd 5 6 6) = none ∧ (Instr.iadd 5 6 6).gathered = false ∧
    excluded.who excluded.cur = some (who excluded) ∧ excluded.group 0 1 = some (theG excluded) ∧ (who excluded).all = [0, 1] ∧
    excluded.selected (who excluded) = [] ∧ (∀ x ∈ (who excluded).all, ∀ h ∈ (who excluded).hintsAt x, h.accepts (.iadd 5 6 6) = true) ∧
    (who excluded).hood = none ∧ (who excluded).all.any (oddAt excluded (who excluded)) = false :=
  ⟨rfl, rfl, rfl, who_of (by decide), group_of (by decide), by decide⟩
/-- A hood of four that splits at 1, expands, and two hoods that make one form. -/
def hoodLow : Hood := { lo := 0, hi := 1, ctl := {}, g := formsOfList [(6, uni 5)] }
def hoodHigh : Hood := { lo := 1, hi := 3, ctl := {}, g := formsOfList [(6, ⟨8, 3⟩)] }
theorem witness_HoodsKeepValues : (∃ h, (theG hoodA).hood h.lo = some h ∧ h.lo < 1 ∧ 1 < h.hi) ∧ (theG hoodA).hood 1 = none ∧
    hoodLow.lo < hoodLow.hi ∧ hoodLow.hi = hoodHigh.lo ∧ hoodHigh.lo < hoodHigh.hi ∧
    (∃ f : Form, ∀ y < 3, (hoodLow.lo ≤ y → y < hoodLow.hi → f.at hoodLow.lo y = (vget hoodLow.g 6 {}).at hoodLow.lo y) ∧
      (hoodHigh.lo ≤ y → y < hoodHigh.hi → f.at hoodLow.lo y = (vget hoodHigh.g 6 {}).at hoodHigh.lo y)) :=
  ⟨⟨{ lo := 0, hi := 4, ctl := { pc := pc0, chainPc := 0xFFC }, g := formsOfList [(5, uni 1), (6, ⟨5, 3⟩), (7, uni 9), (8, uni 0x3F800000)] }, by decide, by decide,
    by decide⟩, by decide, by decide, by decide, by decide, ⟨⟨5, 3⟩, by decide⟩⟩
/-- A word on an AFFINE register, EXPAND, and a BRC whose condition is 0 at index 0 only. -/
def hoodCond : State := onHood (hoodG 2 [] [(3, ⟨0, 1⟩)])
/-- The same registers behind HINT.PRED. -/
def hoodPred : State := onHood (hoodG 2 [.pred 3] [(3, ⟨0, 1⟩)])
theorem witness_HoodsExpandAndSplit : Ready hoodA (.and 5 6 7) (who hoodA) (theG hoodA) ∧ (who hoodA).hood ≠ none ∧ ¬releases (who hoodA).hints ∧
    hoodNeeds (.and 5 6 7) = some [6, 7] ∧ (hoodA.form (who hoodA) 6).stride ≠ 0 ∧ (theG hoodA).glds = [] ∧ (∀ x ∈ (who hoodA).all, ((theG hoodA).ctlOf (who hoodA).hood x).outstanding = false) ∧
    Ready hoodA .expand (who hoodA) (theG hoodA) ∧ hoodNever .expand = true ∧
    Ready hoodCond (.brc 3 4) (who hoodCond) (theG hoodCond) ∧ (who hoodCond).hood = some 0 ∧ (who hoodCond).hints = [] ∧ (who hoodCond).all = range 0 2 ∧
    hoodCond.hoodsFree 0 0 ≠ 0 ∧ (theG hoodCond).hood 1 = none ∧ (∀ x ∈ (who hoodCond).all, taken hoodCond (who hoodCond) 3 x = if x < 1 then false else !false) ∧
    (∀ i ∈ [Instr.icmp .eq 5 3 6, .sel 3 5 6], (condOf hoodCond (who hoodCond) i).any (fun p => [0, 1].all fun x => p x == if x < 1 then p 0 else !p 0) = true) ∧
    Ready hoodCond (.icmp .eq 5 3 6) (who hoodCond) (theG hoodCond) ∧ Ready hoodCond (.sel 3 5 6) (who hoodCond) (theG hoodCond) ∧
    hoodPred.who hoodPred.cur = some (who hoodPred) ∧ hoodPred.group 0 1 = some (theG hoodPred) ∧ hoodPred.precheck (who hoodPred) (.iadd 5 6 6) = none ∧
    (who hoodPred).hood = some 0 ∧ (who hoodPred).hints = [.pred 3] ∧ (who hoodPred).all = range 0 2 ∧ hoodPred.hoodsFree 0 0 ≠ 0 ∧ (theG hoodPred).hood 1 = none ∧
    (∀ x ∈ (who hoodPred).all, (regsOf hoodPred (who hoodPred) x 3).getLsbD 0 = if x < 1 then false else !false) ∧ once hoodPred (who hoodPred) (.iadd 5 6 6) ∧
    ∃ f, laneResult (immOf [.pred 3]) (fun k => hoodPred.k (who hoodPred) k.toNat) (.iadd 5 6 6) = some (5, f) :=
  ⟨ready_of (by decide), by decide, by unfold releases; decide, rfl, by decide, by decide, by decide, ready_of (by decide), rfl, ready_of (by decide), by decide, by decide,
    by decide, by decide, by decide, by decide, by decide, ready_of (by decide), ready_of (by decide), who_of (by decide), group_of (by decide), by decide,
    by decide, by decide, by decide, by decide, by decide, by decide, by unfold once; decide, ⟨_, rfl⟩⟩

/-! ### The tile engine -/

def shapeW (fmt rows cols : Nat) : Word := BitVec.ofNat 32 (fmt + (rows - 1) * 2 ^ 8 + (cols - 1) * 2 ^ 14)
/-- Tiles 0 and 1: format 2, 2 by 17; 2 and 3: i8, 2 by 17; 8: f32, 2 by 2; 9: i32, 2 by 2. -/
def tileShapes : Vector Word 16 := [(0, shapeW 2 2 17), (1, shapeW 2 2 17), (2, shapeW 9 2 17), (3, shapeW 9 2 17), (8, shapeW 1 2 2), (9, shapeW 0x0B 2 2)].foldl
  (fun v p => vput v p.1 p.2) (Vector.replicate 16 0)
def kTile : Vector Word 192 := withBuf 4 (bufRec 0 0 0 1 64 0x400) <| withBuf 5 (bufRec 0 0 0 2 64 0x400) <| kregs [(10, 0)]
def tileFmts : Vector DWord 8 := vput (vput (Vector.replicate 8 0) 2 2) 3 9
def tileMem2 : Vector Mem 16 := (List.range 10).foldl (fun v i => vput v i (Mem.writeN [] 0 ((List.range 68).map fun j => BitVec.ofNat 8 (5 * i + j + 1)))) (Vector.replicate 16 [])
def tiled (G : Group) : Group := { G with k := kTile, shape := tileShapes, fmts := tileFmts, tile := tileMem2, shared := Mem.writeN [] 0x400 [1, 2, 3, 4, 5, 6, 7, 8, 9, 10, 11, 12, 13, 14, 15, 16] }
def openHandle : Handle :=
  { core := 0, h := 0, gid := 1, sid := 7, scope := .die, inst := 0, part := 0, rows := 2, cols := 2, crown := 0, sent := 0, pc := pc0 }
def withHandle (s : State) : State := s.modBank 0 fun B => { B with handles := [openHandle] }
def tileLanes : State := withHandle (onLanes (tiled (lanesG 2 [] fun x => [(4, BitVec.ofNat 32 x), (5, 0), (6, 1)])))
def tileHood : State := withHandle (onHood (tiled (hoodG 2 [] [(4, ⟨0, 1⟩), (5, uni 0), (6, uni 1)])))
theorem tileLanes_solo : Solo (theG tileLanes) (who tileLanes) := .inr ⟨0, by decide, by decide⟩
/-- A queued word of the two lanes, which name rows 0 to 3. -/
def tword (kind : TileKind) (prog td : Nat) : TileCmd :=
  { id := 40, core := 0, kind := kind, acc := true, sa := true, sb := true, td := td, ta := if td = 9 then 2 else 0, tb := if td = 9 then 3 else 1, ctx := 1, pc := pc0,
    prog := prog, lanes := 3, gid := 1, number := 0, base := 0, xs := [0, 1], sd := if td = 9 then shapeW 0x0B 2 2 else shapeW 1 2 2,
    sha := if td = 9 then shapeW 9 2 17 else shapeW 2 2 17, shb := if td = 9 then shapeW 9 2 17 else shapeW 2 2 17, buf := bufRec 0 0 0 1 64 0x400, ofmt := 1, gd := 7 }
def tileQ (l : List TileCmd) (s : State) : State := s.modBank 0 fun B => { B with tileq := l }
/-- Eight words wait. -/
def tileFull : State := tileQ (List.replicate 8 (tword .tzero 0 8)) tileLanes

/-- A word of each kind passes its checks, in lanes and in a hood; the queue has room, or is full. -/
theorem witness_TileWordsQueue :
    let fits := fun (s : State) (i : Instr) => ∀ q F, tileEntry s (s.taking (who s)) (theG s) i = some (q, F) → F
    tileLanes.snapGroup 0 1 = some (theG tileLanes) ∧ Solo (theG tileLanes) (who tileLanes) ∧ (tileLanes.tileQueue 0 0).length < 8 ∧ (tileFull.tileQueue 0 0).length = 8 ∧
    Ready tileLanes (.tmma 8 0 1 2 2 true true false 0) (who tileLanes) (theG tileLanes) ∧ fits tileLanes (.tmma 8 0 1 2 2 true true false 0) ∧
    Ready tileLanes (.tmmai 9 2 3 3 3 false true true 0) (who tileLanes) (theG tileLanes) ∧ fits tileLanes (.tmmai 9 2 3 3 3 false true true 0) ∧
    Ready tileLanes (.tld false 8 4 5 0) (who tileLanes) (theG tileLanes) ∧ fits tileLanes (.tld false 8 4 5 0) ∧
    Ready tileLanes (.tdrainFmt 2 8 5 5 0) (who tileLanes) (theG tileLanes) ∧ fits tileLanes (.tdrainFmt 2 8 5 5 0) ∧
    Ready tileHood (.tscale 8 6) (who tileHood) (theG tileHood) ∧ fits tileHood (.tscale 8 6) ∧ uniformIn tileHood (who tileHood) 6 ∧
    Ready tileFull (.tzero 8) (who tileFull) (theG tileFull) ∧ fits tileFull (.tzero 8) ∧
    Ready tileLanes (.tdred 8 10) (who tileLanes) (theG tileLanes) ∧ validShape ((theG tileLanes).shapeOf 8) ∧
    (tileLanes.die 0).handleOf 1 0 (tileLanes.k (who tileLanes) 10) = some openHandle ∧ openHandle.sent = 0 ∧
    rowsSettled tileLanes (who tileLanes) (tword .tld 0 8) := by
  refine ⟨snap_of rfl (by decide), tileLanes_solo, by decide, by decide, ready_of (by decide), ?_, ready_of (by decide), ?_, ready_of (by decide), ?_, ready_of (by decide), ?_,
    ready_of (by decide), ?_, by unfold uniformIn; decide, ready_of (by decide), ?_, ready_of (by decide), by unfold validShape; decide, by decide, rfl,
    by unfold rowsSettled; decide⟩ <;>
    (rintro q F h; simp only [tileEntry, Option.some.injEq, Prod.mk.injEq] at h; obtain ⟨-, rfl⟩ := h)
  · unfold mmaFits validShape multiplies; decide
  · unfold mmaFits validShape multiplies; decide
  · unfold validShape rowsFit; decide
  · unfold validShape rowsFit multiplies; decide
  · unfold validShape; decide
  · unfold validShape; decide
theorem witness_TileEnginePerforms :
    let s := fun (q : TileCmd) => tileQ [q] tileLanes
    (s (tword .tmma 0 8)).ready = true ∧ (s (tword .tmma 0 8)).stopped 0 100 = false ∧ (s (tword .tmma 0 8)).tileQueue 0 0 = [tword .tmma 0 8] ∧
    (s (tword .tmma 0 8)).group 0 1 = some (theG tileLanes) ∧ validShape (Shape.of (tword .tmma 0 8).sd) ∧ ((theG tileLanes).tileMem 8).wf = true ∧
    (Shape.of (tword .tmma 0 8).sd).fmt = 1 ∧ (tword .tmma 0 8).prog + 1 < ((Shape.of (tword .tmma 0 8).sha).cols + 15) / 16 ∧
    ((Shape.of (tword .tmma 1 8).sha).cols + 15) / 16 ≤ (tword .tmma 1 8).prog + 1 ∧
    (Shape.of (tword .tmmai 0 9).sd).fmt = 0x0B ∧ (tword .tmmai 0 9).prog + 1 < ((Shape.of (tword .tmmai 0 9).sha).cols + 15) / 16 ∧
    validShape (Shape.of (tword .tmmai 0 9).sd) ∧ ((theG tileLanes).tileMem 9).wf = true ∧ scalarFmt (Shape.of (tword .tzero 0 8).sd).fmt = true ∧
    (∀ r ∈ (tword .tld 0 8).memRows, r.len = 8) ∧ (tword .tld 0 8).memRows.length = 2 ∧
    (∀ l ∈ (theG tileLanes).lanes.map (·.x), l = (tword .trowrd 0 8).base + (theG tileLanes).laneNo l ∧ (tword .trowrd 0 8).lanes.getLsbD ((theG tileLanes).laneNo l) = true) ∧
    ((s (tword .tdred 0 8)).die 0).handleOf 1 0 0 = some openHandle ∧ openHandle.h = 0 :=
  ⟨by decide, by decide, by decide, show tileLanes.group 0 1 = _ from group_of (by decide), by unfold validShape; decide, by decide, by decide, by decide, by decide, by decide, by decide,
    by unfold validShape; decide, by decide, by decide, by decide, by decide, by decide, by decide, rfl⟩
/-- Words whose first failing check is: the shape's format, its size, the format of the tile, the alignment of a row, a handle that is not open. -/
theorem witness_TileWordsCheckFirst :
    let W := fun (s : State) => s.taking (who s)
    let bad := tileLanes.modGroup 0 1 fun G => { G with shape := vput G.shape 8 (shapeW 0x10 2 2) }
    let wide := tileLanes.modGroup 0 1 fun G => { G with shape := vput G.shape 8 (shapeW 6 2 3) }
    Ready bad (.tzero 8) (who bad) (theG bad) ∧ bad.snapGroup 0 1 = some (theG bad) ∧ Solo (theG bad) (who bad) ∧ (W bad).xs ≠ [] ∧
    (∃ q F, tileEntry bad (W bad) (theG bad) (.tzero 8) = some (q, F) ∧ failsFirst (tileChecks bad (W bad) (theG bad) q (.tzero 8)) Cause.fmt 0) ∧
    Ready wide (.tzero 8) (who wide) (theG wide) ∧ failsFirst (shapeChecks ((theG wide).shapeOf 8)) Cause.size 0 ∧
    Ready tileLanes (.tld false 8 4 6 0) (who tileLanes) (theG tileLanes) ∧ uniformIn tileHood (who tileHood) 6 ∧
    (tileLanes.rowFault 0 1 (BufRec.of (bufRec 0 0 0 1 64 0x400)) 4 ⟨0, 1, 8⟩) = some Cause.align ∧
    (tileLanes.die 0).handleOf 1 0 5 = none := by
  refine ⟨ready_of (by decide), snap_of rfl (by decide), .inr ⟨0, by decide, by decide⟩, by decide, ⟨_, _, rfl, .inl ⟨?_, rfl, rfl⟩⟩, ready_of (by decide),
    ?_, ready_of (by decide), by unfold uniformIn; decide, by decide, by decide⟩
  · decide
  · exact .inr ⟨by decide, .inr ⟨by decide, .inl ⟨by decide, rfl, rfl⟩⟩⟩
/-- A transposed load and store, a drain, a write of one element, an engine whose operand tile is in error. -/
theorem witness_TileEngineMoves :
    let st := { tword .tst 0 8 with tr := true }
    let dr := { tword .tdrain 0 8 with ofmt := 2, buf := bufRec 0 0 0 2 64 0x400 }
    scalarFmt (Shape.of st.sd).fmt = true ∧ (BufRec.of st.buf).space ≤ 1 ∧ (theG tileLanes).shared.wf = true ∧ (tileLanes.die 0).scratch.wf = true ∧
    (theG tileLanes).spill.wf = true ∧ (st.memRows.map fun r => (r.off, r.len)) = [(0, 8), (8, 8)] ∧ (floatFmt dr.ofmt).isSome = true ∧
    (dr.memRows.map fun r => (r.off, r.cut (BufRec.of dr.buf))) = [(0, 4), (4, 4)] ∧ tileLanes.tileBad 0 (theG tileLanes) st = false ∧
    (tileLanes.tileBad 0 { theG tileLanes with badTiles := [8] } st) = true := by decide

/-! ### The sync engine -/

def atomLanes : State := mapped (onLanes (lanesG 2 [] fun x => [(4, 5), (5, 0), (6, BitVec.ofNat 32 (0x4000 + 4 * x)), (8, 7)]))
def atomHood : State := mapped (onHood (hoodG 3 [] [(5, uni 1), (6, uni 0x4000), (8, uni 7)]))
theorem witness_AtomicWordsSend :
    let pass := fun (s : State) (x : Nat) (acc : Access) => (pairAt s (who s) x 6).toNat < 2 ^ 57 ∧ (pairAt s (who s) x 6).toNat % 4 = 0 ∧
      s.translate 0 0 false (pairAt s (who s) x 6) acc = .ok (pairAt s (who s) x 6).toNat ∧ poolOf (pairAt s (who s) x 6).toNat ≠ 1 ∧
      s.walkStalled 0 0 false (pairAt s (who s) x 6) = false ∧ s.lateMain 0 1 (pairAt s (who s) x 6) 4 = false
    Ready atomLanes (.atom .add 4 6 8 0) (who atomLanes) (theG atomLanes) ∧ atomicOf (.atom .add 4 6 8 0) = some (.red .add, .both, 4, 6, some 8, some 4) ∧
    (∀ x ∈ atomLanes.selected (who atomLanes), pass atomLanes x .both) ∧ ¬releases (who atomLanes).hints ∧ (who atomLanes).hood = none ∧
    Ready atomHood (.ared .xor 6 8) (who atomHood) (theG atomHood) ∧ (∀ x ∈ atomHood.selected (who atomHood), pass atomHood x .both) ∧
    (who atomHood).all.length = 3 ∧ oneRequest 3 7 (.ared .xor 6 8) = some 7 ∧ uniformIn atomHood (who atomHood) 6 ∧ (atomHood.form (who atomHood) 7).stride = 0 ∧
    (atomHood.form (who atomHood) 8).stride = 0 :=
  ⟨ready_of (by decide), rfl, by decide, by unfold releases; decide, by decide, ready_of (by decide), by decide, by decide, by decide,
    by unfold uniformIn; decide, by decide, by decide⟩
/-- Three lanes, of which the first and the third have unaligned addresses; a hood beyond the table. -/
def badAtoms : State := mapped (onLanes (lanesG 3 [] fun x => [(6, vget (#v[0x4003, 0x4004, 0x4001]) x 0), (8, 7)]))
def badHoodAtom : State := mapped (onHood (hoodG 3 [] [(6, uni 0), (7, uni 2), (8, uni 7)]))
theorem witness_AtomicFaultsFirst :
    let fault := fun x => addressFault badAtoms (who badAtoms) .both 4 (pairAt badAtoms (who badAtoms) x 6) Cause.align
    Ready badAtoms (.atom .add 4 6 8 0) (who badAtoms) (theG badAtoms) ∧ ¬releases (who badAtoms).hints ∧ badAtoms.selected (who badAtoms) = [0, 1, 2] ∧
    (∀ y ∈ badAtoms.selected (who badAtoms), badAtoms.walkStalled 0 0 false (pairAt badAtoms (who badAtoms) y 6) = false ∧
      badAtoms.lateMain 0 1 (pairAt badAtoms (who badAtoms) y 6) 4 = false) ∧ fault 0 ∧ fault 2 ∧
    lowestOf (who badAtoms) (theG badAtoms) (fun y => (pairAt badAtoms (who badAtoms) y 6).toNat) 0 [0, 2] 0x4001 ∧
    Ready badHoodAtom (.ared .add 6 8) (who badHoodAtom) (theG badHoodAtom) ∧ (oneRequest 1 0 (.ared .add 6 8)).isSome = true ∧ uniformIn badHoodAtom (who badHoodAtom) 6 ∧
    badHoodAtom.translate 0 0 false 0x200000000 .both = .fault Cause.page 0x200000000 :=
  ⟨ready_of (by decide), by unfold releases; decide, by decide, by decide, .inr (.inl (by decide)), .inr (.inl (by decide)), by unfold lowestOf; decide,
    ready_of (by decide), by decide, by unfold uniformIn; decide, by decide⟩
/-- A request, a second one of the same lane on the line behind it, and a reply for both lanes. -/
def reqState : State := { mapped (onLanes (lanesG 2 [] fun _ => [(6, 1)])) with
  mem := Mem.writeN [] 0x4000 [9], reqs := [redReq, { redReq with id := 10, op := .cas, cmp := 9, arg := 3 }, { redReq with id := 11, reply := some 9 }] }
theorem witness_SyncEnginePerforms : reqState.reqs[0]? = some redReq ∧ redReq.op.queue = false ∧ redReq.reply = none ∧
    (reqState.stalled redReq.addr || reqState.blocked redReq) = false ∧ reqState.badAt redReq.addr = false ∧ reqState.memWf ∧ redReq.width = 4 ∧
    (reqState.reqs[1]?).map (fun r => reqState.blocked r) = some true ∧ (reqState.reqs[2]?).map (·.reply) = some (some 9) ∧ (reqState.group 0 1).isSome = true :=
  ⟨by decide, rfl, rfl, by decide, by decide, by unfold State.memWf; decide, rfl, by decide, by decide, by decide⟩
/-- The first request's line is in error. -/
def reqBad : State := { reqState with badLines := [0x4000 / 64] }
theorem witness_SyncEnginePerforms_ecc : reqBad.reqs[0]? = some redReq ∧ (reqBad.stalled redReq.addr || reqBad.blocked redReq) = false ∧ reqBad.badAt redReq.addr = true ∧
    redReq.op ≠ .store ∧ redReq.op ≠ .put ∧ reqBad.memWf ∧ redReq.width = 4 ∧ reqBad.partOf (reqBad.homeOf redReq.addr) = redReq.part ∧
    writesOn redReq 0 ∧ ¬writesOn { redReq with op := .cas, cmp := 1 } 0 :=
  ⟨by decide, by decide, by decide, by decide, by decide, by unfold State.memWf; decide, rfl, by decide, trivial, by simp [writesOn]; decide⟩
def queueLanes : State := onLanes { lanesG 2 [] (fun _ => []) with k := kregs [(10, 3), (16, 1), (23, 0x80000000)] }
theorem queueLanes_solo : Solo (theG queueLanes) (who queueLanes) := .inr ⟨0, by decide, by decide⟩
def queueReq (op : SyncOp) : SyncReq := { redReq with op := op, addr := 3, width := 0, arg := 77, dst := 5, dstk := 24 }
def popReply (hood : Bool) : SyncReq := { queueReq .pop with reply := some 1234, flag := 1, hood := hood }
/-- The threads wait for a reply. -/
def replied (s : State) : State := s.modGroup 0 1 fun G => { G with
  lanes := G.lanes.map (fun l => { l with ctl := { l.ctl with wait := .reply } }), hoods := G.hoods.map fun h => { h with ctl := { h.ctl with wait := .reply } } }
def repliedHood : State := replied (onHood (hoodG 2 [] [(3, ⟨0, 1⟩)]))
theorem witness_QueueWordsAndReplies : Ready queueLanes (.qpush 10 16) (who queueLanes) (theG queueLanes) ∧ Solo (theG queueLanes) (who queueLanes) ∧
    queueOp (.qpush 10 16) = some (.push, 10, some 16, 0, 0) ∧ queueLanes.fullReady 0 1 (queueLanes.selected (who queueLanes)) = true ∧
    Ready queueLanes (.qlen 5 10) (who queueLanes) (theG queueLanes) ∧
    (popReply false).op.queue = true ∧ (popReply false).reply = some 1234 ∧ (popReply false).xs ≠ [] ∧ (popReply false).dst < 64 ∧
    (∀ G, (replied queueLanes).group 0 1 = some G → ∀ x ∈ (popReply false).xs, (G.lane x).isSome = true ∧ (G.ctlOf none x).wait = .reply) ∧
    (∀ G, repliedHood.group 0 1 = some G → (G.ctlOf (some 0) 0).wait = .reply ∧ ∃ h, G.hood 0 = some h ∧ (popReply true).xs = range h.lo h.hi) := by
  refine ⟨ready_of (by decide), queueLanes_solo, rfl, by decide, ready_of (by decide), rfl, rfl, by decide, by decide, ?_, ?_⟩ <;> rintro G ⟨⟩
  · decide
  · exact ⟨by decide, _, rfl, by decide⟩
/-- Queue 3 with these records on chip and `n` of 4 in its ring. -/
def rqueue (kind : Nat) (chip : List (BitVec 256)) (n : Nat) : RQueue :=
  { die := 0, part := 0, ctx := 1, handle := 3, desc := 0x3000, kind := kind, pin := false, rcap := 4, chip := chip, rhead := 1, rcount := n, ring := 0x9000,
    hsave := 0xA000, pages := [(9, 9), (10, 10)], used := 0 }
def withQueue (q : RQueue) (op : SyncOp) : State := { queueLanes.modDie 0 fun D => { D with queues := [q] } with reqs := [queueReq op] }
/-- A descriptor in the queue table at 0x3000 for handle 3, not resident; handle 4096 is beyond the table. -/
def missState (h : Nat) : State :=
  { (mapped queueLanes).modBank 0 fun B => { B with qtbase := 0x3000 } with
    mem := ((mapped queueLanes).mem.writeN 0x30C0 (bytesOf 8 0x9000 ++ bytesOf 3 4 ++ [0] ++ bytesOf 4 4 ++ bytesOf 8 0 ++ bytesOf 8 0xA000)), reqs := [{ queueReq .pop with addr := h }] }
theorem witness_QueueEnginePerforms :
    let full := List.replicate 32 (5 : BitVec 256)
    (∀ d, ∀ p ∈ ((withQueue (rqueue 0 [] 0) .push).die d).queues, p.die = d) ∧
    (withQueue (rqueue 0 (List.replicate 31 5) 0) .push).queueOf 0 1 3 = some (rqueue 0 (List.replicate 31 5) 0) ∧ (List.replicate 31 (5 : BitVec 256)).length < 32 ∧
    ¬((rqueue 0 full 0).rcount = 0 ∧ (rqueue 0 full 0).chip.length < 32) ∧ (rqueue 0 full 3).rcount < (rqueue 0 full 3).rcap ∧
    (rqueue 0 [] 0).chip = [] ∧ (rqueue 0 [7] 0).chip = 7 :: [] ∧ (rqueue 0 full 1).chip = 5 :: List.replicate 31 5 ∧ 0 < (rqueue 0 full 1).rcount ∧
    (withQueue (rqueue 0 full 3) .push).ringStalled (rqueue 0 full 3) = false ∧
    (∀ a ∈ (rqueue 0 full 1).das ((rqueue 0 full 1).ring.toNat + 32 * 1) 32, (withQueue (rqueue 0 full 1) .pop).badAt a = false) ∧
    (missState 3).queueOf 0 1 3 = none ∧ (missState 3).missStalled 0 false 3 = false ∧ (match (missState 3).queueMiss 0 false 0 1 3 with | .ok _ => true | .fault _ _ => false) = true ∧
    (match (missState 4096).queueMiss 0 false 0 1 4096 with | .ok _ => false | .fault c _ => c == Cause.fmt) = true := by decide
/-- The line of the descriptor of handle 3 is in error. -/
def missBad : State := { missState 3 with badLines := [0x30C0 / 64] }
theorem witness_QueueEnginePerforms_ecc : missBad.queueOf 0 1 3 = none ∧ missBad.missStalled 0 false 3 = false ∧
    (match (missBad.countMiss 0 false 3).queueMiss 0 false 0 1 3 with | .ok _ => false | .fault c _ => c == Cause.ecc) = true ∧
    missBad.partOf redReq.die = redReq.part := by decide
/-- A NEMIT to node 0 or another, whose bin is queue 3 with `n` records; its launch has the one node, or is gone. -/
def nodeReq (node : Nat) : SyncReq := { queueReq .emit with addr := node, arg := 99 }
def binQueue (n : Nat) : RQueue := { rqueue 2 (List.replicate n 5) 0 with rcap := 0 }
def nodeState (n : Nat) (astray : Bool) : State :=
  let L : Launch := { launchOf none with nodes := [⟨⟨0x10, 0x1000, 2, 1, 0, [], Vector.replicate 8 0⟩, 3, 2, 4, none, []⟩] }
  { (queueLanes.modGroup 0 1 fun G => { G with launch := L.id }).modDie 0 (fun D => { D with queues := [binQueue n] }) with
    launches := [L], reqs := [nodeReq (if astray then 1 else 0)] }
theorem witness_NodeEmits :
    (nodeReq 0).op = .emit ∧ (nodeReq 0).reply = none ∧
    (((nodeState 0 false).group 0 1).bind ((nodeState 0 false).launchOf 0)).map (fun L => (L.id, L.part, L.ctx, L.nodes.map fun N => (N.qh, N.coal))) =
      some ((launchOf none).id, 0, 1, [(3, 2)]) ∧
    (∀ n ∈ [0, 1, 32], (nodeState n false).queueOf 0 1 3 = some (binQueue n)) ∧ (∀ d, ∀ p ∈ ((nodeState 0 false).die d).queues, p.die = d) ∧
    (binQueue 32).chip.length = 32 ∧ (nodeState 32 false).ringStalled (binQueue 32) = false ∧ ((nodeState 32 false).part 0).complete = false ∧
    (((nodeState 0 true).group 0 1).bind ((nodeState 0 true).launchOf 0)).bind (fun L => (L.nodes[1]?).map (·.qh)) = none := by decide

/-! ### Ordering words and session words -/

/-- Objects as above; bindings; a region at 0x5000 of 64 bytes. -/
def kOrd : Vector Word 192 := kregs [(10, 0x40), (11, 0), (14, 0x200), (16, 0x5000), (18, 64), (20, 0x5000), (24, 0x5000), (27, 1), (28, 0x400), (32, 0)]
def ordLanes : State := onLanes { withObj ring2 (lanesG 2 [] fun _ => []) with k := kOrd }
/-- With eight bindings; with a TST and an atomic under way. -/
def ordFull : State := onLanes { withObj ring2 (lanesG 2 [] fun _ => []) with k := kOrd, binds := List.replicate 8 ⟨0x40, 0x5000, 64⟩ }
def ordBusy : State := { tileQ [{ tword .tst 0 8 with buf := bufRec 0 0 0 1 64 0x400 }] ordLanes with reqs := [redReq] }
theorem ordLanes_solo : Solo (theG ordLanes) (who ordLanes) := .inr ⟨0, by decide, by decide⟩
theorem witness_BindKeepsBindings :
    let binds := fun (s : State) (k b : KReg) => s.k (who s) (b.toNat + 3) = 0 ∧ CAddr.of (s.kpair (who s) b.toNat) ≠ none ∧ (s.k (who s) k.toNat = 0 ∨ liveObj s (who s) (s.k (who s) k.toNat))
    Ready ordLanes (.bind 10 16) (who ordLanes) (theG ordLanes) ∧ Solo (theG ordLanes) (who ordLanes) ∧ binds ordLanes 10 16 ∧ (ordLanes.k (who ordLanes) 18).toNat = 64 ∧
    (theG ordLanes).binds.length < 8 ∧ Ready ordLanes (.bind 10 20) (who ordLanes) (theG ordLanes) ∧ binds ordLanes 10 20 ∧ (ordLanes.k (who ordLanes) 22).toNat = 0 ∧
    Ready ordLanes (.bind 11 20) (who ordLanes) (theG ordLanes) ∧ binds ordLanes 11 20 ∧
    Ready ordFull (.bind 10 16) (who ordFull) (theG ordFull) ∧ 8 ≤ (theG ordFull).binds.length ∧
    Ready ordLanes (.bind 10 24) (who ordLanes) (theG ordLanes) ∧ ordLanes.k (who ordLanes) 27 ≠ 0 ∧
    Ready ordLanes (.bind 14 16) (who ordLanes) (theG ordLanes) ∧ ordLanes.slotAddr 0 1 0x200 16 = .ok ⟨0, 0x200⟩ ∧ ordLanes.bslot 0 1 ⟨0, 0x200⟩ = none := by
  have live : liveObj ordLanes (who ordLanes) 0x40 := ⟨⟨0, 0x40⟩, by decide, .inl (by decide)⟩
  exact ⟨ready_of (by decide), ordLanes_solo, ⟨by decide, by decide, .inr live⟩, by decide, by decide, ready_of (by decide), ⟨by decide, by decide, .inr live⟩, by decide,
    ready_of (by decide), ⟨by decide, by decide, .inl (by decide)⟩, ready_of (by decide), by decide, ready_of (by decide), by decide, ready_of (by decide), by decide, by decide⟩
/-- The object's record is in error. -/
def ordLost : State := ordLanes.modDie 0 fun D => { D with badLocal := [(0, 1, 0x40 / 16)] }
theorem witness_BindKeepsBindings_ecc : lostObj ordLost (who ordLost) 0x40 ∧ Ready ordLost (.bind 10 16) (who ordLost) (theG ordLost) ∧ ordLost.k (who ordLost) 10 = 0x40 ∧
    ordLost.k (who ordLost) 19 = 0 ∧ CAddr.of (ordLost.kpair (who ordLost) 16) ≠ none ∧
    Ready ordLost (.acq .die 10) (who ordLost) (theG ordLost) ∧ Ready ordLost (.rel .die 10) (who ordLost) (theG ordLost) ∧
    (∀ a, ordLanes.slotAddr 0 1 0x40 16 = .ok a → ordLanes.badObject 0 1 a = false) :=
  ⟨⟨⟨0, 0x40⟩, by decide, by decide⟩, ready_of (by decide), by decide, by decide, by decide, ready_of (by decide), ready_of (by decide), by rintro a ⟨⟩; decide⟩
/-- Object 0, a live and a dead one; nothing under way, and writes under way. -/
theorem witness_AcquireAndRelease : Ready ordLanes (.acq .die 10) (who ordLanes) (theG ordLanes) ∧ liveObj ordLanes (who ordLanes) 0x40 ∧
    Ready ordLanes (.acq .die 11) (who ordLanes) (theG ordLanes) ∧ ordLanes.readsDone 0 1 (ordLanes.selected (who ordLanes)) = true ∧
    Ready ordBusy (.acq .die 11) (who ordBusy) (theG ordBusy) ∧ ordBusy.readsDone 0 1 (ordBusy.selected (who ordBusy)) = false ∧
    Ready ordLanes (.acq .die 14) (who ordLanes) (theG ordLanes) ∧
    Ready ordLanes (.rel .die 11) (who ordLanes) (theG ordLanes) ∧ ordLanes.k (who ordLanes) 11 = 0 ∧ ordLanes.fullReady 0 1 (ordLanes.selected (who ordLanes)) = true ∧
    Ready ordBusy (.rel .die 11) (who ordBusy) (theG ordBusy) ∧ ordBusy.fullReady 0 1 (ordBusy.selected (who ordBusy)) = false ∧
    Ready ordLanes (.rel .die 10) (who ordLanes) (theG ordLanes) ∧ ordLanes.boundReady 0 1 (ordLanes.selected (who ordLanes)) 0x40 = true ∧
    ordBusy.boundReady 0 1 (ordBusy.selected (who ordBusy)) 0x40 = false ∧
    Ready ordBusy (.rel .die 10) (who ordBusy) (theG ordBusy) ∧ Ready ordLanes (.rel .die 14) (who ordLanes) (theG ordLanes) :=
  ⟨ready_of (by decide), ⟨⟨0, 0x40⟩, by decide, .inl (by decide)⟩, ready_of (by decide), by decide, ready_of (by decide), by decide, ready_of (by decide),
    ready_of (by decide), by decide, by decide, ready_of (by decide), by decide, ready_of (by decide),
    by decide, by decide, ready_of (by decide), ready_of (by decide)⟩
/-- The atomic has been passed by a release of the slot at 0x40, and by one of an object of another group; group 1 has acquired neither. -/
def ordLate : State := ordBusy.modBank 0 fun B => { B with late := [⟨0x40, 1, 9, []⟩, ⟨0x200, 7, 9, []⟩] }
theorem witness_AcquiredWritesHold : ∃ e f, (ordLate.die 0).active.late = [e, f] ∧ ordLate.stillLate 0 e = true ∧ e.obj = 0x40 ∧ e.gid = 1 ∧
    ¬(f.obj = 0x40 ∧ ((0x40 : Word).getLsbD 31 = true ∨ f.gid = 1)) := ⟨_, _, rfl, by decide, rfl, rfl, by decide⟩
/-- Cached translations of two contexts, instruction lines, descriptor copies; a migration, and a request under way. -/
def fenced : State := (ordLanes.modDie 0 fun D => { D with
  tlb := [⟨0, 1, 0, 5, 1, 5, 31⟩, ⟨0, 2, 0, 5, 1, 5, 31⟩, ⟨99, 1, 0, 6, 1, 6, 31⟩], icache := [⟨some 0, 8, List.replicate 128 0⟩, ⟨none, 9, List.replicate 128 1⟩],
  desc := [⟨0, 1, 0, 0, 0x4000, []⟩, ⟨100, 1, 0, 0, 0x4000, []⟩] })
def fencedMoving : State := { fenced with moving := [⟨3, 1⟩], reqs := [redReq] }
/-- A GLD of lane 0 has its addresses and has not read. -/
def gld1 : Gld := { id := 5, hood := false, xs := [0], pc := pc0, chainPc := pc0, chain := [], ga := 6, gd := 4, regs := 1, bytes := 4, step := 2, inst := 3, vas := [(0, 0x4000)], das := [(0, 0x4000)] }
def withGld (s : State) : State := s.modGroup 0 1 fun G => { G with glds := [gld1] }
def fencedGld : State := withGld fenced
theorem witness_FencesDropCopies_gld : Ready fencedGld (.tfence .die) (who fencedGld) (theG fencedGld) ∧
    (∃ H ∈ (fencedGld.die 0).sv :: (fencedGld.die 0).active.groups, fencedGld.ctxOf 0 H.gid = fencedGld.ctxOf 0 1 ∧
      ∃ q ∈ H.glds, q.step < 3 ∧ coversCarder fencedGld (who fencedGld) .die 0 q.inst) ∧
    Ready fencedGld (.dinv .die) (who fencedGld) (theG fencedGld) ∧ fencedGld.gldsOf 0 1 (fencedGld.selected (who fencedGld)) ≠ [] :=
  ⟨ready_of (by decide), ⟨theG fencedGld, by decide, by decide, by simp only [coversCarder]; decide⟩, ready_of (by decide), by decide⟩
theorem witness_FencesDropCopies : Ready fenced (.tfence .core) (who fenced) (theG fenced) ∧ Ready fenced (.tfence .pod) (who fenced) (theG fenced) ∧ fenced.moving = [] ∧ fenced.reqs = [] ∧
    (∀ d, (fenced.die d).queues = []) ∧ (∀ r ∈ fencedMoving.reqs, r.core < 100) ∧
    Ready fencedMoving (.tfence .pkg) (who fencedMoving) (theG fencedMoving) ∧ fencedMoving.moving ≠ [] ∧ Ready fenced .ifence (who fenced) (theG fenced) ∧
    Ready fenced (.dinv .quad) (who fenced) (theG fenced) ∧ fenced.cmdsOf 0 1 (fenced.selected (who fenced)) = [] ∧
    (∀ r ∈ fenced.reqsOf 0 1 (fenced.selected (who fenced)), r.reply.isSome = true) ∧ Ready fencedMoving (.dinv .quad) (who fencedMoving) (theG fencedMoving) ∧
    ¬∀ r ∈ fencedMoving.reqsOf 0 1 (fencedMoving.selected (who fencedMoving)), r.reply.isSome = true :=
  ⟨ready_of (by decide), ready_of (by decide), by decide, by decide, by decide, by decide, ready_of (by decide), by decide, ready_of (by decide), ready_of (by decide), by decide,
    by decide, ready_of (by decide), by decide⟩

/-- A session descriptor at 0x600 of 2 rows of 2 in f32, two participants, DEST in main memory; handle 0 open; all sixteen open; staging that
fills the crown. -/
def sessBytes : List Byte := bytesOf 4 7 ++ bytesOf 2 2 ++ bytesOf 2 0 ++ [1, 1, 1, 0] ++ bytesOf 4 0 ++ bytesOf 8 0x6000 ++ List.replicate 40 0
def credG : Group := { lanesG 2 [] (fun _ => []) with k := kregs [(10, 0x600), (12, 0), (13, 16)], shared := Mem.writeN [] 0x600 sessBytes }
def withHandles (l : List Handle) (s : State) : State := s.modBank 0 fun B => { B with handles := l }
def credLanes : State := withHandles [openHandle] (onLanes credG)
def credFull : State := withHandles ((List.range 16).map fun n => { openHandle with h := n }) (onLanes credG)
def credTight : State := withHandles [{ openHandle with core := 1, rows := 2048, cols := 256, crown := 3 }] (onLanes credG)
theorem witness_CredJoinsSession :
    let D := SessDesc.of sessBytes
    let free := fun (s : State) (h : Nat) => h < 16 ∧ (∀ x ∈ (((s.die 0).handlesOf 1).filter (·.core == 0)), x.h ≠ h) ∧
      ∀ j < h, ∃ x ∈ (((s.die 0).handlesOf 1).filter (·.core == 0)), x.h = j
    Ready credLanes (.credExact .die 20 10) (who credLanes) (theG credLanes) ∧ Solo (theG credLanes) (who credLanes) ∧
    credLanes.slotAddr 0 1 0x600 64 = .ok ⟨0, 0x600⟩ ∧ credLanes.touchesLive 0 1 0 0x600 64 = false ∧ credLanes.badLocalAt 0 1 0 0 0x600 64 = false ∧
    credLanes.tileClash (credLanes.taking (who credLanes)) 0 0x600 64 false = false ∧ credLanes.readLocal 0 1 0 0 0x600 64 = sessBytes ∧
    D.ok = true ∧ credLanes.destFault (credLanes.taking (who credLanes)) D = none ∧ free credLanes 1 ∧
    credLanes.crownUsed 0 3 + (4 * D.rows * D.cols + 511) / 512 ≤ 4096 ∧
    Ready credFull (.credCanon .quad 20 10) (who credFull) (theG credFull) ∧ (∀ j < 16, ∃ x ∈ (((credFull.die 0).handlesOf 1).filter (·.core == 0)), x.h = j) ∧
    Ready credTight (.credCanon .die 20 10) (who credTight) (theG credTight) ∧ 4096 < credTight.crownUsed 0 3 + (4 * D.rows * D.cols + 511) / 512 :=
  ⟨ready_of (by decide), .inr ⟨0, by decide, by decide⟩, by decide, by decide, by decide, by decide, by decide, by decide, by decide, by decide, by decide, ready_of (by decide),
    by decide, ready_of (by decide), by decide⟩
/-- A TDRAIN may still write the descriptor; at .pod a launch without a process-group table; descriptors out of bounds, unaligned, in a live line,
malformed, with a DEST whose rows are unaligned, and in error. -/
def credClash : State := tileQ [{ tword .tdrain 0 8 with buf := bufRec 0 0 0 1 64 0x600 }] credLanes
def credPod (ranks : List Rank) : State :=
  { credLanes.modGroup 0 1 fun G => { G with launch := 5 } with launches := [{ launchOf none with ranks := ranks, rank := 0 }] }
def credBad : State := objLanes.modGroup 0 1 fun G => { G with
  k := kregs [(10, 0x8000), (11, 0x610), (12, 0x40), (13, 0x640), (14, 0x680)], shared := G.shared.writeN 0x640 (bytesOf 4 7 ++ [3]) |>.writeN 0x680 ((sessBytes.set 16 2)) }
theorem witness_CredJoinsSession_held :
    Ready credClash (.credExact .die 20 10) (who credClash) (theG credClash) ∧ credClash.tileClash (credClash.taking (who credClash)) 0 0x600 64 false = true ∧
    Ready (credPod []) (.credCanon .pod 20 10) (who (credPod [])) (theG (credPod [])) ∧ ((credPod []).launchOf 0 (theG (credPod []))).map (·.ranks) = some [] ∧
    Ready (credPod [⟨0, 0, 0, 0⟩]) (.credCanon .pod 20 10) (who (credPod [⟨0, 0, 0, 0⟩])) (theG (credPod [⟨0, 0, 0, 0⟩])) ∧
    ((credPod [⟨0, 0, 0, 0⟩]).launchOf 0 (theG (credPod [⟨0, 0, 0, 0⟩]))).map (fun L => (L.ranks.length, L.rank)) = some (1, 0) :=
  ⟨ready_of (by decide), by decide, ready_of (by decide), by decide, ready_of (by decide), by decide⟩
theorem witness_CredRefuses :
    let desc := fun a => SessDesc.of (credBad.readLocal 0 1 0 0 a 64)
    Ready credBad (.credExact .die 20 10) (who credBad) (theG credBad) ∧ Solo (theG credBad) (who credBad) ∧
    (match credBad.slotAddr 0 1 0x8000 64 with | .ok _ => none | .fault c _ => some c) = some Cause.bounds ∧
    credBad.slotAddr 0 1 0x610 64 = .ok ⟨0, 0x610⟩ ∧ credBad.tileClash (credBad.taking (who credBad)) 0 0x610 64 false = false ∧
    (credBad.slotAddr 0 1 0x40 64 = .ok ⟨0, 0x40⟩ ∧ credBad.touchesLive 0 1 0 0x40 64 = true) ∧
    (credBad.touchesLive 0 1 0 0x640 64 = false ∧ (credBad.modDie 0 fun D => { D with badLocal := [(0, 1, 0x640 / 16)] }).badLocalAt 0 1 0 0 0x640 64 = true) ∧
    (desc 0x640).ok = false ∧ (desc 0x680).ok = true ∧ (credBad.destFault (credBad.taking (who credBad)) (desc 0x680)).map (·.1) = some Cause.align :=
  ⟨ready_of (by decide), .inr ⟨0, by decide, by decide⟩, by decide, by decide, by decide, by decide, by decide, by decide, by decide, by decide⟩
/-- The open handle, one that a TDRED holds, and a value that names no open handle. -/
def credDred : State := tileQ [{ tword .tdred 0 8 with handle := 0 }] credLanes
theorem witness_CcloseEndsHandle : Ready credLanes (.cclose 12) (who credLanes) (theG credLanes) ∧ Solo (theG credLanes) (who credLanes) ∧
    (credLanes.die 0).handleOf 1 0 0 = some openHandle ∧ openHandle.remote = false ∧ openHandle.ended = false ∧ (credLanes.die 0).active.tileq = [] ∧ Ready credDred (.cclose 12) (who credDred) (theG credDred) ∧
    (∃ q ∈ (credDred.die 0).active.tileq, q.core = 0 ∧ q.kind = .tdred ∧ q.handle.toNat % 16 = 0) ∧
    (credLanes.die 0).handleOf 1 0 (credLanes.k (who credLanes) 13) = none :=
  ⟨ready_of (by decide), .inr ⟨0, by decide, by decide⟩, by decide, by decide, by decide, by decide, ready_of (by decide), by decide, by decide⟩

/-! ### Names -/

/-- A name-table entry: size in lines, format, retention, lifetime; valid, scope die. -/
def nameRec (size fmt life : Nat) (valid : Bool) : Nat := size * 2 ^ 104 + fmt * 2 ^ 96 + 3 * 2 ^ 64 + life * 2 ^ 32 + (if valid then 2 ^ 31 else 0)
/-- Names 0 to 3 at 0x5000: a tile of 64 bytes, an invalid entry, a malformed one, a tile of 128 bytes; buffer 2 holds 64 bytes at 0x100. -/
def kName : Vector Word 192 := withBuf 2 (bufRec 0 0 0 1 64 0x100) <| kregs [(41, 0), (43, 0x1000), (45, 0x2000), (47, 0x3000), (48, 7), (49, 0x100000)]
def named (G : Group) : State :=
  let s := mapped (onLanes { G with k := kName })
  let bs := bytesOf 16 (nameRec 1 1 5 true) ++ bytesOf 16 (nameRec 1 1 5 false) ++ bytesOf 16 (nameRec 0 1 5 true) ++ bytesOf 16 (nameRec 2 1 5 true)
  { s.modBank 0 (fun B => { B with ntbase := 0x5000 }) with mem := s.mem.writeN 0x5000 bs }
def nameLanes : State := named (lanesG 2 [] fun _ => [])
def interestOf (n : Nat) : Interest :=
  { core := 0, name := 0, buf := bufRec 0 0 0 1 64 (0x100 + n), entry := BitVec.ofNat 128 (nameRec 1 1 5 true), life := 20000, slot := none, home := .crown 0 0,
    rank := none, own := 0, gid := 1, xs := [0, 1], pc := pc0, hood := false, state := .pending }
def withInterests (l : List Interest) (s : State) : State := s.modBank 0 fun B => { B with interests := l }
def nameOne : State := withInterests [interestOf 0] nameLanes
def nameFull : State := withInterests ((List.range 64).map fun n => interestOf (64 + n)) nameLanes
def nameBusy : State := tileQ [tword .tdrain 0 8] nameLanes
/-- The entry that a word on a name captures, and the state after it. -/
def captured (s : State) (k : KReg) : BitVec 128 × State :=
  match s.capture (s.taking (who s)) (entryVa s (who s) (s.kpair (who s) k.toNat)) 16 with
  | .ok (bs, u) => (BitVec.ofNat 128 (ofBytes bs), u)
  | .fault _ _ => (0, s)
/-- The word captures it. -/
def caps (s : State) (k : KReg) : Prop := captures s (who s) (s.kpair (who s) k.toNat) (captured s k).1 (captured s k).2
theorem captures_of {s : State} {k : KReg} (h : (!s.vaStalled (who s).d (who s).core ((who s).gid = 0) (entryVa s (who s) (s.kpair (who s) k.toNat)) 16 &&
    (match s.capture (s.taking (who s)) (entryVa s (who s) (s.kpair (who s) k.toNat)) 16 with | .ok _ => true | .fault _ _ => false)) = true) :
    caps s k := by
  simp only [Bool.and_eq_true, Bool.not_eq_true'] at h
  refine ⟨h.1, ?_⟩
  unfold captured
  split at h
  · rename_i v e; exact ⟨v.1, by rw [e], by rw [e]⟩
  · simp at h
theorem nameLanes_solo : Solo (theG nameLanes) (who nameLanes) := .inr ⟨0, by decide +kernel, by decide +kernel⟩
/-- The entry of a name. -/
def entryAt (s : State) (k : KReg) : NameEntry := NameEntry.of (captured s k).1
theorem witness_NamesAreChecked : Solo (theG nameLanes) (who nameLanes) ∧
    Ready nameLanes (.want 2 42) (who nameLanes) (theG nameLanes) ∧ caps nameLanes 42 ∧
    (entryAt nameLanes 42).valid = false ∧
    Ready nameLanes (.nevict 44) (who nameLanes) (theG nameLanes) ∧ caps nameLanes 44 ∧
    (entryAt nameLanes 44).valid = true ∧ (entryAt nameLanes 44).ok = false ∧
    Ready nameLanes (.offer 2 46) (who nameLanes) (theG nameLanes) ∧ caps nameLanes 46 ∧
    (entryAt nameLanes 46).valid = true ∧ (entryAt nameLanes 46).ok = true ∧ (captured nameLanes 46).2.buf (who nameLanes) 2 = nameLanes.buf (who nameLanes) 2 ∧
    (nameLanes.buf (who nameLanes) 2).bad = false ∧ (nameLanes.buf (who nameLanes) 2).space ≤ 1 ∧ (nameLanes.buf (who nameLanes) 2).fmt = (entryAt nameLanes 46).fmt ∧
    (nameLanes.buf (who nameLanes) 2).extent < (entryAt nameLanes 46).bytes :=
  ⟨nameLanes_solo, ready_of (by decide +kernel), captures_of (by decide +kernel), by decide +kernel, ready_of (by decide +kernel), captures_of (by decide +kernel), by decide +kernel, by decide +kernel,
    ready_of (by decide +kernel), captures_of (by decide +kernel), by decide +kernel, by decide +kernel, by decide +kernel, by decide +kernel, by decide +kernel, by decide +kernel, by decide +kernel⟩
theorem witness_WantEntersInterest :
    let sound := fun (s : State) => Ready s (.want 2 40) (who s) (theG s) ∧ caps s 40 ∧
      (entryAt s 40).valid = true ∧ (entryAt s 40).ok = true ∧ suits (captured s 40).2 (who s) 2 (entryAt s 40) ∧
      (captured s 40).2.homeOfName 0 ((captured s 40).2.launchOf 0 (theG s)) (s.kpair (who s) 40) (entryAt s 40) = .ok (.crown 0 0, none)
    sound nameOne ∧ ((nameOne.die 0).active.interests.map fun (i : Interest) => ((BufRec.of i.buf).bound, (BufRec.of i.buf).base)) = [(0, 0x100)] ∧
    sound nameLanes ∧ (nameLanes.die 0).active.interests = [] ∧
    sound nameFull ∧ 64 ≤ ((nameFull.die 0).active.interests.filter fun (i : Interest) => i.core = 0).length ∧
    ∀ i ∈ (nameFull.die 0).active.interests, (BufRec.of i.buf).base ≠ 0x100 :=
  ⟨⟨ready_of (by decide +kernel), captures_of (by decide +kernel), by decide +kernel, by decide +kernel, by unfold suits; decide +kernel, by decide +kernel⟩, by decide +kernel,
    ⟨ready_of (by decide +kernel), captures_of (by decide +kernel), by decide +kernel, by decide +kernel, by unfold suits; decide +kernel, by decide +kernel⟩, by decide +kernel,
    ⟨ready_of (by decide +kernel), captures_of (by decide +kernel), by decide +kernel, by decide +kernel, by unfold suits; decide +kernel, by decide +kernel⟩, by decide +kernel, by decide +kernel⟩
theorem witness_OfferQueuesReadOut : Ready nameLanes (.offer 2 40) (who nameLanes) (theG nameLanes) ∧ (captured nameLanes 40).2.tileWrites 0 1 [0, 1] = [] ∧
    (let u := (captured nameLanes 40).2
     let B := u.buf (who nameLanes) 2
     u.lateClash 0 1 B.bound false u.nextId ⟨false, some B.space, B.base, B.base + B.extent⟩ = false) ∧
    suits (captured nameLanes 40).2 (who nameLanes) 2 (entryAt nameLanes 40) ∧
    Ready nameBusy (.offer 2 40) (who nameBusy) (theG nameBusy) ∧ caps nameBusy 40 ∧
    suits (captured nameBusy 40).2 (who nameBusy) 2 (entryAt nameBusy 40) ∧ (captured nameBusy 40).2.tileWrites 0 1 (nameBusy.selected (who nameBusy)) ≠ [] :=
  ⟨ready_of (by decide +kernel), by decide +kernel, by decide +kernel, by unfold suits; decide +kernel, ready_of (by decide +kernel), captures_of (by decide +kernel), by unfold suits; decide +kernel, by decide +kernel⟩
/-- No interest, one that is pending, one whose delivery has passed the leaf; a table index in range and one beyond it. -/
def packetOf (kind : PacketKind) (at_ src : Port) : Packet :=
  { kind := kind, at_ := at_, src := src, ctx := 1, part := 0, name := 0, home := .crown 0 0, rank := none, own := 0, entry := BitVec.ofNat 128 (nameRec 1 1 5 true), life := 20000,
    bytes := [], die := 0, pc := 0, via := [] }
def namePast : State := { nameOne with packets := [packetOf .header (.core 0 0) (.router (nameOne.leafOf 0 0))] }
/-- The supervisor wave over the same table. -/
def nameSv : State := (mapped (inSv { lanesG 2 [] (fun _ => []) with k := kName })).modBank 0 fun B => { B with ntbase := 0x5000 }
theorem witness_UnwantNevictNtwr : Ready nameLanes (.unwant 40) (who nameLanes) (theG nameLanes) ∧ (nameLanes.die 0).active.interests = [] ∧
    Ready namePast (.unwant 40) (who namePast) (theG namePast) ∧ namePast.pastLeaf 0 0 1 0 = some 64 ∧ (NameEntry.of (interestOf 0).entry).bytes = 64 ∧
    Ready nameOne (.unwant 40) (who nameOne) (theG nameOne) ∧ nameOne.pastLeaf 0 0 1 0 = none ∧
    (∃ i ∈ (nameOne.die 0).active.interests, i.core = 0 ∧ i.name = 0 ∧ nameOne.ctxOf 0 i.gid = 1 ∧ i.state = .pending) ∧
    Ready nameLanes (.nevict 40) (who nameLanes) (theG nameLanes) ∧ caps nameLanes 40 ∧ (entryAt nameLanes 40).valid = true ∧ (entryAt nameLanes 40).ok = true ∧
    (captured nameLanes 40).2.homeOfName 0 ((captured nameLanes 40).2.launchOf 0 (theG nameLanes)) 0 (entryAt nameLanes 40) = .ok (.crown 0 0, none) ∧
    Ready nameSv (.ntwr 48 52) (who nameSv) (theG nameSv) ∧ (nameSv.k (who nameSv) 48).toNat ≤ 1048575 ∧
    nameSv.walkStalled 0 0 true ((nameSv.die 0).active.ntbase + 0x70) = false ∧ Solo (theG nameSv) (who nameSv) ∧
    nameSv.translate 0 0 true ((nameSv.die 0).active.ntbase + 0x70) .write = .ok 0x5070 ∧ poolOf 0x5070 ≠ 1 ∧
    Ready nameSv (.ntwr 49 52) (who nameSv) (theG nameSv) ∧ (nameSv.k (who nameSv) 49).toNat = 1048576 :=
  ⟨ready_of (by decide +kernel), by decide +kernel, ready_of (by decide +kernel), by decide +kernel, by decide +kernel, ready_of (by decide +kernel), by decide +kernel,
    by decide +kernel, ready_of (by decide +kernel), captures_of (by decide +kernel), by decide +kernel, by decide +kernel, by decide +kernel, ready_of (by decide +kernel),
    by decide +kernel, by decide +kernel, .inr ⟨0, by decide +kernel, by decide +kernel⟩, by decide +kernel, by decide +kernel, ready_of (by decide +kernel), by decide +kernel⟩

/-! ### The supervisor -/

/-- The supervisor wave in its handler; its partition is halted, and the halt is complete. -/
def halting (P : Part → Part) (s : State) : State := s.modPart 0 fun Q => P { Q with halt := true, complete := true }
def supG : Group := lanesG 2 [] fun x => [(6, 0x10), (8, BitVec.ofNat 32 (4 * x)), (9, 0), (10, 0), (11, 0x1000), (12, 0x2000), (13, 0), (14, 1)]
def sup : State := (inSv supG).modDie 0 fun D => { D with trapvec := 0x9000, icache := [⟨none, 64, []⟩, ⟨some 3, 1, []⟩, ⟨none, 1000, []⟩] }
def supHalted : State := halting id sup
theorem sup_solo : Solo (theG sup) (who sup) ∧ Solo (theG supHalted) (who supHalted) := ⟨.inr ⟨0, by decide +kernel, by decide +kernel⟩, .inr ⟨0, by decide +kernel, by decide +kernel⟩⟩
/-- A register that reads, one in a shadow bank that is empty; a value with a reserved bit, one without. -/
def supShadow : State := sup.modDie 0 fun D => { D with ctxsel := true }
theorem witness_SystemRegisterWords : Ready sup (.sysrd 5 0x109) (who sup) (theG sup) ∧ (sup.sysRead 0 0x109).isSome = true ∧
    Ready sup (.sysrdX64 4 0x109) (who sup) (theG sup) ∧
    Ready supShadow (.sysrd 5 0x120) (who supShadow) (theG supShadow) ∧ supShadow.sysRead 0 0x120 = none ∧
    Ready supShadow (.sysrdX64 4 0x120) (who supShadow) (theG supShadow) ∧
    Ready sup (.syswr 0x100 6) (who sup) (theG sup) ∧ sourceUniform sup (who sup) 6 1 ∧ source sup (who sup) 6 &&& sysReserved 0x100 = 0 ∧
    (sup.sysWrite 0 0x100 (source sup (who sup) 6)).isSome = true ∧
    Ready sup (.syswr 0x100 14) (who sup) (theG sup) ∧ source sup (who sup) 14 &&& sysReserved 0x100 ≠ 0 ∧
    Ready supShadow (.syswrX64 0x120 6) (who supShadow) (theG supShadow) ∧ supShadow.sysWrite 0 0x120 (source64 supShadow (who supShadow) 6) = none :=
  ⟨ready_of (by decide +kernel), by decide +kernel, ready_of (by decide +kernel), ready_of (by decide +kernel), by decide +kernel, ready_of (by decide +kernel), ready_of (by decide +kernel), by unfold sourceUniform; decide +kernel,
    by decide +kernel, by decide +kernel, ready_of (by decide +kernel), by decide +kernel, ready_of (by decide +kernel), by decide +kernel⟩
/-- The shadow bank is reached, or not; bit 0 of a write of sys.dbgctl is 0. -/
theorem witness_SystemRegistersHold : (2 : DWord).getLsbD 0 = false ∧ (sup.die 0).ctxsel = false ∧ (supShadow.die 0).ctxsel = true ∧ (supShadow.die 0).shState = 0 ∧
    ((sup.die 0).selected.map (·.sprange)) = some 0 ∧ (sup.sysWrite 0 0x125 0x200).isSome = true := by decide +kernel
/-- Engine images move while the partition is stopped. -/
def cmd0 : Cmd := { id := 3, kind := .tcopy, ctx := 1, sup := false, core := 0, gid := 1, xs := [0], npart := 1, pc := pc0, base := 0, number := 0, map := 1, hood := false }
def supImages : State := tileQ [tword .tzero 0 8] (supHalted.modCarder 0 5 fun c => { c with queue := [cmd0] })
theorem witness_EngineImagesMove :
    Ready sup (.eqrd 7 0 5) (who sup) (theG sup) ∧ ¬halted sup 0 ∧ Ready supImages (.eqrd 7 0 5) (who supImages) (theG supImages) ∧ halted supImages 0 ∧
    ((supImages.die 0).carder 5).queue.length = 1 ∧ Ready supImages (.eqrd 7 1 0) (who supImages) (theG supImages) ∧ 0 ∈ (supImages.die 0).cores ∧
    Ready supImages (.eqrd 7 1 97) (who supImages) (theG supImages) ∧ 97 ∉ (supImages.die 0).cores ∧ Ready supImages (.eqrd 7 2 0) (who supImages) (theG supImages) ∧
    Ready sup (.eqwr 0 5 9) (who sup) (theG sup) ∧ sourceUniform sup (who sup) 9 1 ∧
    Ready supHalted (.eqwr 0 5 14) (who supHalted) (theG supHalted) ∧ (source supHalted (who supHalted) 14).toNat = 1 ∧ (supHalted.installCarder 0 5 1).isSome = true ∧
    Ready supImages (.eqwr 0 5 9) (who supImages) (theG supImages) ∧ supImages.installCarder 0 5 0 = none ∧
    Ready supHalted (.eqwr 1 0 14) (who supHalted) (theG supHalted) ∧ (supHalted.installTile 0 0 1).isSome = true ∧ 0 ∈ (supHalted.die 0).cores ∧
    Ready supImages (.eqwr 1 0 14) (who supImages) (theG supImages) ∧ supImages.installTile 0 0 1 = none ∧
    Ready supHalted (.eqwr 2 0 9) (who supHalted) (theG supHalted) ∧ (source supHalted (who supHalted) 9).toNat = 0 :=
  ⟨ready_of (by decide +kernel), by unfold halted; decide +kernel, ready_of (by decide +kernel), by unfold halted; decide +kernel, by decide +kernel, ready_of (by decide +kernel), by decide +kernel, ready_of (by decide +kernel), by decide +kernel,
    ready_of (by decide +kernel), ready_of (by decide +kernel), by unfold sourceUniform; decide +kernel, ready_of (by decide +kernel), by decide +kernel, by decide +kernel, ready_of (by decide +kernel), by decide +kernel,
    ready_of (by decide +kernel), by decide +kernel, by decide +kernel, ready_of (by decide +kernel), by decide +kernel, ready_of (by decide +kernel), by decide +kernel⟩
/-- A resident queue, which EQWR writes back, and the commands that it takes. -/
def supQueue : State := (supHalted.modDie 0 fun D => { D with queues := [rqueue 0 [7] 0], active := { D.active with ctx := 1 }, sv := { D.sv with
  lanes := D.sv.lanes.map fun l => { l with g := vput l.g 6 0x80000003 } } })
/-- The frame of its ring moves. -/
def supQueueMoving : State := { supQueue with moving := [⟨0, 1⟩] }
theorem witness_EngineImagesMove_queue :
    Ready supQueue (.eqwr 2 0 6) (who supQueue) (theG supQueue) ∧ halted supQueue 0 ∧ (source supQueue (who supQueue) 6).toNat = 2 ^ 31 + 3 ∧
    (supQueue.die 0).queues.find? (fun q => q.is 0 1 3) = some (rqueue 0 [7] 0) ∧
    supQueue.ringStalled (rqueue 0 [7] 0) = false ∧
    Ready supQueueMoving (.eqwr 2 0 6) (who supQueueMoving) (theG supQueueMoving) ∧ supQueueMoving.ringStalled (rqueue 0 [7] 0) = true ∧
    Ready supHalted (.eqwr 2 0 6) (who supHalted) (theG supHalted) ∧ (source supHalted (who supHalted) 6).toNat = 0x10 :=
  ⟨ready_of (by decide +kernel), by unfold halted; decide +kernel, by decide +kernel, by decide +kernel, by decide +kernel, ready_of (by decide +kernel), by decide +kernel, ready_of (by decide +kernel),
    by decide +kernel⟩
/-- In no handler; an event pending; a swap under way; released under another context; the last die, and not the last. -/
def handling (P : Part → Part) : State := (halting P sup).modDie 0 fun D => { D with handler := true, svepc := 0x4000, active := { D.active with ctx := 1 } }
def supPend : State := handling fun P => { P with tpend := 0b00010 }
def supSwap : State := (handling id).modDie 0 fun D => { D with swapBusy := true }
def supOther : State := handling fun P => { P with released := [(1, 2)] }
def two (s : State) : State := { s with layout := vput (vput (Vector.replicate 8 1) 0 0) 1 0 }
def supLast : State := two (handling fun P => { P with released := [(1, 1)] })
def supFirst : State := two (handling id)
/-- An atomic of the wave is under way. -/
def supStill : State := { supLast with reqs := [{ redReq with gid := 0, xs := [0] }] }
/-- TRAPRET may issue here, and its partition may be released. -/
def atTrapret (s : State) : Prop := Ready s .trapret (who s) (theG s) ∧ Solo (theG s) (who s)
theorem atTrapret_of {s : State} (h : (readyB s .trapret && decide (0 < (theG s).positions ∧ ∀ x ∈ (who s).all, (theG s).pos x = 0)) = true) : atTrapret s := by
  simp only [Bool.and_eq_true, decide_eq_true_eq] at h
  exact ⟨ready_of h.1, .inr ⟨0, h.2⟩⟩
theorem witness_TrapretReleases :
    (atTrapret sup ∧ ¬halted sup 0) ∧ (atTrapret supPend ∧ halted supPend 0 ∧ (supPend.part 0).tpend ≠ 0) ∧
    (atTrapret supSwap ∧ halted supSwap 0 ∧ (supSwap.part 0).tpend = 0 ∧ (supSwap.die 0).swapBusy = true) ∧
    (atTrapret supOther ∧ halted supOther 0 ∧ ∃ r ∈ (supOther.part 0).released, r.2 ≠ (supOther.die 0).active.ctx) ∧
    (atTrapret supLast ∧ halted supLast 0 ∧ ((supLast.part 0).released = [(1, 1)] ∧ (supLast.die 0).active.ctx = 1) ∧ (supLast.die 0).swapBusy = false ∧
      supLast.fullReady 0 0 (who supLast).all = true ∧ (∀ e, supLast.partOf e = 0 ∧ e ≠ 0 → ∃ r ∈ (supLast.part 0).released, r.1 = e)) ∧
    (atTrapret supFirst ∧ halted supFirst 0 ∧ supFirst.partOf 1 = 0 ∧ (supFirst.part 0).released = []) ∧
    (atTrapret supStill ∧ supStill.fullReady 0 0 (who supStill).all = false ∧ supStill.parts = supLast.parts ∧ supStill.dies = supLast.dies) ∧
    (supPend.die 0).handler = true ∧ (supSwap.die 0).handler = true ∧ (supOther.die 0).handler = true ∧ (supLast.die 0).handler = true ∧ (supFirst.die 0).handler = true :=
  ⟨⟨atTrapret_of (by decide +kernel), by unfold halted; decide +kernel⟩, ⟨atTrapret_of (by decide +kernel), by unfold halted; decide +kernel, by decide +kernel⟩,
    ⟨atTrapret_of (by decide +kernel), by unfold halted; decide +kernel, by decide +kernel, by decide +kernel⟩,
    ⟨atTrapret_of (by decide +kernel), by unfold halted; decide +kernel, by decide +kernel⟩,
    ⟨atTrapret_of (by decide +kernel), by unfold halted; decide +kernel, ⟨rfl, rfl⟩, by decide +kernel, by decide +kernel, by decide +kernel⟩,
    ⟨atTrapret_of (by decide +kernel), by unfold halted; decide +kernel, by decide +kernel, by decide +kernel⟩,
    ⟨atTrapret_of (by decide +kernel), by decide +kernel, rfl, rfl⟩, by decide +kernel, by decide +kernel, by decide +kernel, by decide +kernel, by decide +kernel⟩
/-- Partition 0 has dies and partition 1 none; an address of 2^44 and one below; a write under way, and none. -/
def supBusy : State := { sup with reqs := [{ redReq with gid := 0, xs := [0] }] }
theorem witness_HaltpAndIcinv : Solo (theG sup) (who sup) ∧ Ready sup (.haltp 0) (who sup) (theG sup) ∧ (∃ d, sup.partOf d = (0 : BitVec 3).toFin) ∧
    Ready sup (.haltp 1) (who sup) (theG sup) ∧ (∀ d, sup.partOf d ≠ (1 : BitVec 3).toFin) ∧ (sup.part 0).halt = false ∧ (supHalted.part 0).halt = true ∧
    Ready supHalted (.haltp 0) (who supHalted) (theG supHalted) ∧
    Ready sup (.icinv 10) (who sup) (theG sup) ∧ sourceUniform sup (who sup) 10 2 ∧ 2 ^ 44 ≤ (source64 sup (who sup) 10).toNat ∧
    Ready sup (.icinv 12) (who sup) (theG sup) ∧ (source64 sup (who sup) 12).toNat < 2 ^ 44 ∧ sup.fullReady 0 0 (sup.selected (who sup)) = true ∧ sup.reqs = [] ∧
    Ready supBusy (.icinv 12) (who supBusy) (theG supBusy) ∧ ¬∀ r ∈ supBusy.reqs, r.die = 0 → r.gid = 0 → r.reply ≠ none :=
  ⟨sup_solo.1, ready_of (by decide +kernel), by decide +kernel, ready_of (by decide +kernel), by decide +kernel, by decide +kernel, by decide +kernel, ready_of (by decide +kernel), ready_of (by decide +kernel),
    by unfold sourceUniform; decide +kernel, by decide +kernel, ready_of (by decide +kernel), by decide +kernel, by decide +kernel, by decide +kernel, ready_of (by decide +kernel), by decide +kernel⟩

/-! ### The fabric -/

def upState : State := { State.reset with ready := true, inbox := [], clock := 30000 }
def fab (ps : List Packet) (pe : List PendEntry) (st : List StoreEntry) : State :=
  { upState.modDie 0 (fun D => { D with active := { D.active with ctx := 1, groups := [lanesG 2 [] fun _ => []] } }) with packets := ps, pend := pe, stores := st }
def lf : Router := .leaf 0 0
def hm : Router := .crown 0 0
def pendOf (r : Router) (ports : List Port) (up : Option Port) (st : PendState) (size : Nat) : PendEntry :=
  { at_ := r, ctx := 1, part := 0, name := 0, ports := ports, up := up, deadline := 100, size := size, state := st }
def core0 : Port := .core 0 0
def midUp : Option Port := some (.router (.middle 0 1))
/-- A tile of 64 bytes in a home store. -/
def tileOf (st : StoreState) (expiry : Nat) : StoreEntry :=
  { at_ := hm, ctx := 1, part := 0, name := 0, size := 64, fmt := 1, ret := 3, bytes := if st = .stored then List.replicate 64 7 else [], state := st, expiry := expiry,
    evict := false, offer := 4, origin := none, own := 0, die := 0, pc := 0 }
/-- Interests at a leaf: its port waits there, another does, no entry; the table full; no live way up. -/
def int0 : Packet := packetOf .interest (.router lf) core0
def inSame : State := fab [int0] [pendOf lf [core0] midUp .wait 64] []
def inOther : State := fab [int0] [pendOf lf [.core 0 1] midUp .wait 64] []
def inNew : State := { fab [int0] [] [] with harvested := (middles 0).tail }
def inDead : State := { inNew with harvested := middles 0 }
/-- Interests at their home: nothing there, and a stored tile. -/
def intH : Packet := packetOf .interest (.router hm) (.router (.middle 0 1))
def inHome : State := fab [intH] [] []
def inStored : State := fab [intH] [] [tileOf .stored 90000]
/-- Withdrawals: of a name not there, of one port of two, of the last one. -/
def wd0 : Packet := { packetOf .withdrawal (.router lf) core0 with life := 0 }
def wdNone : State := fab [wd0] [] []
def wdTwo : State := fab [wd0] [pendOf lf [core0, .core 0 1] midUp .wait 64] []
def wdLast : State := fab [wd0] [pendOf lf [core0] midUp .wait 64] []
theorem witness_InterestsAtRouters :
    (arrives inSame 0 int0 ∧ int0.at_ = .router lf ∧ inSame.pendAt lf 1 0 .wait = some (pendOf lf [core0] midUp .wait 64)) ∧
    (arrives inOther 0 int0 ∧ inOther.pendAt lf 1 0 .wait = some (pendOf lf [.core 0 1] midUp .wait 64)) ∧
    (arrives inNew 0 int0 ∧ inNew.pend = [] ∧ lf ≠ int0.home ∧ inNew.nextHop int0 lf = some (.middle 0 0)) ∧
    (arrives inDead 0 int0 ∧ inDead.nextHop int0 lf = none) ∧
    (arrives inHome 0 intH ∧ intH.at_ = .router intH.home ∧ intH.rank = none ∧ inHome.stores = []) ∧
    (arrives inStored 0 intH ∧ inStored.stores = [tileOf .stored 90000] ∧ (tileOf .stored 90000).serves inStored.clock = true ∧ (tileOf .stored 90000).size = (NameEntry.of intH.entry).bytes) ∧
    (arrives wdNone 0 wd0 ∧ wdNone.pend = []) ∧ (arrives wdTwo 0 wd0 ∧ [core0, .core 0 1].filter (· ≠ wd0.src) ≠ []) ∧ (arrives wdLast 0 wd0 ∧ [core0].filter (· ≠ wd0.src) = []) ∧
    (inSame.pend[0]?.map fun (e : PendEntry) => (e.state, decide (e.deadline < inSame.clock))) = some (.wait, true) :=
  ⟨⟨⟨rfl, by decide⟩, rfl, by decide⟩, ⟨⟨rfl, by decide⟩, by decide⟩, ⟨⟨rfl, by decide⟩, rfl, by decide, by decide⟩, ⟨⟨rfl, by decide⟩, by decide⟩, ⟨⟨rfl, by decide⟩, rfl, rfl, rfl⟩,
    ⟨⟨rfl, by decide⟩, rfl, by decide, by decide⟩, ⟨⟨rfl, by decide⟩, rfl⟩, ⟨⟨rfl, by decide⟩, by decide⟩, ⟨⟨rfl, by decide⟩, by decide⟩, by decide⟩
/-- Headers: one that fits, one behind a delivery, one of another size; a chunk before the last, and the last. -/
def hd (at_ : Port) : Packet := packetOf .header at_ (.router (.middle 0 1))
def ck (c : Nat) (at_ : Port) : Packet := { packetOf (.chunk c) at_ (.router (.middle 0 1)) with bytes := [1, 2] }
def hdFits : State := fab [hd (.router lf)] [pendOf lf [core0] midUp .wait 64] []
def hdBehind : State := fab [hd (.router lf)] [pendOf lf [core0] midUp .wait 64, pendOf lf [core0] midUp .deliv 64] []
def hdSize : State := fab [hd (.router lf)] [pendOf lf [core0] midUp .wait 128] []
def ckMore : State := fab [ck 0 (.router lf)] [pendOf lf [core0] midUp .deliv 1024] []
def hdStore : State := fab [packetOf .header (.router hm) .store] [pendOf hm [.router (.middle 0 1)] none .deliv 64] []
def ckLast : State := fab [ck 0 (.router lf)] [pendOf lf [core0] midUp .deliv 64] []
/-- At the core: an interest of the size, one of another size, one that is LANDING, one that is late, and one in time. -/
def atCore (p : Packet) (i : Interest) : State := withInterests [i] (fab [p] [] [])
def wide : Interest := { interestOf 0 with entry := BitVec.ofNat 128 (nameRec 2 1 5 true) }
def cFits : State := atCore (hd core0) (interestOf 0)
def cWide : State := atCore (hd core0) wide
def cLand : State := atCore (ck 0 core0) { interestOf 0 with state := .landing }
def cTime : State := atCore (hd core0) { interestOf 0 with life := 29000 }
theorem witness_DeliveriesDescend :
    (arrives hdFits 0 (hd (.router lf)) ∧ hdFits.pend = [pendOf lf [core0] midUp .wait 64] ∧ (NameEntry.of (hd core0).entry).bytes = 64 ∧ hdFits.pendAt lf 1 0 .deliv = none) ∧
    (arrives hdBehind 0 (hd (.router lf)) ∧ hdBehind.pendAt lf 1 0 .deliv ≠ none) ∧ (arrives hdSize 0 (hd (.router lf)) ∧ hdSize.pend = [pendOf lf [core0] midUp .wait 128]) ∧
    (arrives hdStore 0 (packetOf .header (.router hm) .store) ∧
      hdStore.pend.find? (fun e => e.is hm 1 0 .deliv && e.up.isNone) = some (pendOf hm [.router (.middle 0 1)] none .deliv 64)) ∧
    (arrives ckMore 0 (ck 0 (.router lf)) ∧ 0 + 1 ≠ chunks 1024) ∧ (arrives ckLast 0 (ck 0 (.router lf)) ∧ 0 + 1 = chunks 64) ∧
    (arrives cFits 0 (hd core0) ∧ wants cFits 0 0 (hd core0) .pending (interestOf 0) ∧ (NameEntry.of (interestOf 0).entry).bytes = 64) ∧
    (arrives cWide 0 (hd core0) ∧ wants cWide 0 0 (hd core0) .pending wide ∧ (NameEntry.of wide.entry).bytes = 128 ∧ wide.gid ≠ 0) ∧
    (arrives cLand 0 (ck 0 core0) ∧ (NameEntry.of (ck 0 core0).entry).bytes = 64) ∧
    (cFits.running 0 = true ∧ 20000 + 1600 * 2 ≤ cFits.clock) ∧ ¬29000 + 1600 * 2 ≤ cTime.clock :=
  by unfold arrives; decide
/-- Offers at the home: with room, without, of a name that is stored; a chunk before the last, and the last; evictions; retention. -/
def off0 : Packet := packetOf (.offer 9) (.router hm) core0
def off1 (n : Nat) : Packet := { packetOf (.offerChunk 4 0) (.router hm) core0 with bytes := List.replicate n 1 }
def ev0 : Packet := packetOf .evict (.router hm) core0
def offer0 (e : Nat) : Offer :=
  { id := 9, core := 0, gid := 1, xs := [0], pc := pc0, name := 0, buf := bufRec 0 0 0 1 4096 0x100, entry := BitVec.ofNat 128 (nameRec e 1 5 true), next := 0, open_ := false,
    slot := none, home := hm, rank := none, own := 0, hood := false }
def withOffer (o : Offer) (s : State) : State := s.modBank 0 fun B => { B with offers := [o] }
def ofRoom : State := withOffer (offer0 1) (fab [off0] [] [])
def ofFull : State := fab [off0] [] [{ tileOf .stored 90000 with name := 5, size := 4096 * 512 }]
def ofStored : State := withOffer (offer0 1) (fab [off0] [] [tileOf .stored 90000])
def ofChunk (n : Nat) : State := fab [off1 n] [] [tileOf .filling 0]
def ofEvict : State := fab [ev0] [] [tileOf .stored 90000]
def ofEnds : State := fab [] [] [tileOf .stored 20000]
def ofSends : State := fab [{ packetOf (.chunk 0) (.router hm) .store with bytes := [1] }] [] [tileOf .stored 20000]
def ofClosed : State := withOffer (offer0 16) (fab [] [] [])
def ofOpen : State := withOffer { offer0 16 with open_ := true } (fab [] [] [])
theorem witness_HomesStoreTiles :
    (arrives ofRoom 0 off0 ∧ ofRoom.stores = [] ∧ ofRoom.roomFor hm 64 = true) ∧ (arrives ofFull 0 off0 ∧ ofFull.stores.find? (·.is hm 1 0) = none ∧ ofFull.roomFor hm 64 = false) ∧
    (arrives ofStored 0 off0 ∧ ofStored.stores = [tileOf .stored 90000] ∧ (tileOf .stored 90000).offer ≠ 9 ∧ (tileOf .stored 90000).serves ofStored.clock = true) ∧
    (arrives (ofChunk 32) 0 (off1 32) ∧ (tileOf .filling 0).bytes.length + 32 < 64 ∧ (tileOf .filling 0).origin = (off1 32).origin ∧ (off1 32).path = []) ∧ (arrives (ofChunk 64) 0 (off1 64) ∧ (ofChunk 64).pend = []) ∧
    (arrives ofEvict 0 ev0 ∧ (ofEvict.takePacket 0).sending (tileOf .stored 90000) = false) ∧
    (ofEnds.stores = [tileOf .stored 20000] ∧ (tileOf .stored 20000).expiry ≤ ofEnds.clock ∧ ofEnds.sending (tileOf .stored 20000) = false) ∧
    ofSends.sending (tileOf .stored 20000) = true ∧ ¬(tileOf .stored 90000).expiry ≤ ofStored.clock ∧
    ((ofClosed.die 0).active.offers = [offer0 16] ∧ (offer0 16).open_ = false) ∧
    ((ofOpen.die 0).active.offers = [{ offer0 16 with open_ := true }] ∧ ofOpen.running 0 = true ∧ 512 * (0 + 1) < (NameEntry.of (offer0 16).entry).bytes ∧
      ofOpen.touchesLive 0 1 (BufRec.of (offer0 16).buf).space ((BufRec.of (offer0 16).buf).base + 512 * 0) 512 = false ∧
      ofOpen.badLocalAt 0 1 0 (BufRec.of (offer0 16).buf).space ((BufRec.of (offer0 16).buf).base + 512 * 0) 512 = false) :=
  ⟨⟨⟨rfl, by decide⟩, rfl, by decide⟩, ⟨⟨rfl, by decide⟩, by decide, by decide⟩, ⟨⟨rfl, by decide⟩, rfl, by decide, by decide⟩, ⟨⟨rfl, by decide⟩, by decide, rfl, rfl⟩,
    ⟨⟨rfl, by decide⟩, rfl⟩, ⟨⟨rfl, by decide⟩, by decide⟩, ⟨rfl, by decide, by decide⟩, by decide, by decide, ⟨rfl, rfl⟩, ⟨rfl, by decide, by decide, by decide, by decide⟩⟩
/-- All 4096 entries of the leaf are in use. -/
def inFull : State := { inNew with pend := List.replicate 4096 (pendOf lf [] none .deliv 64) }
theorem witness_InterestsAtRouters_full : inFull.pendAt lf 1 0 .wait = none ∧ 4096 ≤ (inFull.pend.filter fun e => e.at_ = lf).length := by
  constructor
  · exact List.find?_eq_none.2 fun x hx => by rw [List.eq_of_mem_replicate hx]; decide
  · show 4096 ≤ ((List.replicate 4096 (pendOf lf [] none .deliv 64)).filter fun e => e.at_ = lf).length
    rw [List.filter_eq_self.2 fun x hx => by rw [List.eq_of_mem_replicate hx]; rfl, List.length_replicate]
/-- A stored tile with a chunk in error; an offer and a chunk on their way at a leaf, and an offer that has no live way up. -/
def inBad : State := fab [intH] [] [{ tileOf .stored 90000 with bad := [0] }]
def offUp : Packet := packetOf (.offer 9) (.router lf) core0
def ofUp : State := withOffer (offer0 1) { fab [offUp] [] [] with harvested := (middles 0).tail }
def ofDead : State := { ofUp with harvested := middles 0 }
def chUp : Packet := { packetOf (.offerChunk 4 0) (.router lf) core0 with bytes := [1], path := [.router hm] }
/-- An offer of the supervisor, whose partition stands, and an opened one that is read out to its end. -/
def ofSv : State := halting id (withOffer { offer0 16 with gid := 0, open_ := true } (fab [] [] []))
def ofEnd : State := withOffer { offer0 1 with open_ := true } (fab [] [] [])
theorem witness_HomesStoreTiles_readout :
    (ofSv.running 0 = false ∧ (ofSv.die 0).active.offers = [{ offer0 16 with gid := 0, open_ := true }] ∧ ofSv.touchesLive 0 0 0 0x100 512 = false ∧
      ofSv.badLocalAt 0 0 0 0 0x100 512 = false) ∧
    ((allDies.flatMap fun d => (ofEnd.die d).active.offers.map fun o => (d, o))[0]? = some (0, { offer0 1 with open_ := true }) ∧
      (NameEntry.of (offer0 1).entry).bytes ≤ 512 * (0 + 1) ∧ (BufRec.of (offer0 1).buf).bound = 0 ∧ ofEnd.touchesLive 0 1 0 0x100 64 = false ∧
      ofEnd.badLocalAt 0 1 0 0 0x100 64 = false) := by decide
theorem witness_HomesStoreTiles_path :
    (arrives inBad 0 intH ∧ inBad.stores.find? (fun x => x.at_ == hm && x.ctx == 1 && x.name == 0) = some { tileOf .stored 90000 with bad := [0] } ∧
      ({ tileOf .stored 90000 with bad := [0] } : StoreEntry).bad ≠ [] ∧ ∃ d, inBad.partOf d = (tileOf .stored 90000).part) ∧
    (arrives ofUp 0 offUp ∧ lf ≠ offUp.home ∧ ofUp.nextHop offUp lf = some (.middle 0 0)) ∧ (arrives ofDead 0 offUp ∧ ofDead.nextHop offUp lf = none) ∧
    (arrives (fab [chUp] [] []) 0 chUp ∧ chUp.path = [.router hm] ∧ inPackage (.router hm)) :=
  ⟨⟨⟨rfl, by decide⟩, rfl, by decide, ⟨0, by decide⟩⟩, ⟨⟨rfl, by decide⟩, by decide, by decide⟩, ⟨⟨rfl, by decide⟩, by decide⟩, ⟨⟨rfl, by decide⟩, rfl, trivial⟩⟩

/-! ### Sessions at their home, generations of several packages -/

def joinOf (pno : Nat) (dest : DWord) : SJoin :=
  { rank := 0, part := 0, die := 0, ctx := 1, gid := 1, core := 0, h := pno, pno := pno, crown := 0, pc := pc0, dest := dest, dstride := 0, notify := 0, closed := false,
    written := 0, staged := [] }
def sessOf (js : List SJoin) : Session :=
  { home := 0, part := 0, ctx := 1, sid := 7, scope := .die, inst := 0, exactMode := true, count := 2, rows := 1, cols := 2, dfmt := 1, flags := 0, joins := js, abandoned := false,
    result := none }
def ses (ms : List SMsg) (ss : List Session) : State := { fab [] [] [] with smsgs := ms, sessions := ss }
def joinMsg (pno : Nat) : SMsg := .join (sessOf [joinOf pno 0])
/-- A join of a new session, with its home full, of an open one, and with a number that is taken. -/
def sNew : State := ses [joinMsg 0] []
/-- The same from another package, by link 3, into a session that it disagrees with. -/
def farJoin : SJoin := { joinOf 0 0 with rank := 2, link := some 3 }
def podSess (js : List SJoin) : Session := { sessOf js with scope := .pod }
def sFar : State := ses [.join (podSess [farJoin])] [podSess [joinOf 0 0]]
def sFull : State := ses [joinMsg 0] ((List.range 48).map fun n => { sessOf [joinOf 0 0] with sid := BitVec.ofNat 32 (100 + n) })
def sOpen : State := ses [joinMsg 1] [sessOf [joinOf 0 0]]
def sTaken : State := ses [joinMsg 0] [sessOf [joinOf 0 0]]
/-- The first close, the last one, and the last one of a session that has failed. -/
def closeMsg (pno : Nat) : SMsg := .close 7 .die 0 { joinOf pno 0 with closed := true, staged := [(0, [0x3F800000, 0x40000000])] }
def bothIn (closed : Bool) : Session := sessOf [{ joinOf 0 0 with closed := closed }, joinOf 1 0]
def sFirst : State := ses [closeMsg 1] [bothIn false]
def sLast : State := ses [closeMsg 1] [bothIn true]
def sFailed : State := ses [closeMsg 1] [{ bothIn true with abandoned := true }]
/-- A result that every participant has, and one that the first, at 0x40 of its scratchpad, awaits; its partition halted. -/
def resulting (js : List SJoin) : Session := { sessOf js with result := some [bytesOf 8 0x4000000040000000] }
def sDone : State := ses [] [resulting [joinOf 0 0, { joinOf 1 0x8000 with written := 1 }]]
def locDest : DWord := 0x8000000000000040
def sWaits : State := ses [] [resulting [joinOf 0 locDest]]
def sHeld : State := halting id sWaits
/-- DEST is in main memory, and no page is there. -/
def sPage : State := ses [] [resulting [joinOf 0 0x8000]]
/-- The partition of the joining thread has been reset. -/
def sEnded : State := ses [joinMsg 0, .gone (joinOf 0 0)] [sessOf [joinOf 1 0]]
theorem witness_SessionsAtHome :
    (sNew.smsgs[0]? = some (joinMsg 0) ∧ sNew.sessions = []) ∧ 48 ≤ (sFull.sessions.filter fun x => x.home = 0).length ∧ sFull.sessions.find? (·.same (sessOf [joinOf 0 0])) = none ∧
    (sOpen.sessions = [sessOf [joinOf 0 0]] ∧ (sessOf [joinOf 0 0]).same (sessOf [joinOf 1 0]) = true ∧ (sessOf [joinOf 0 0]).agrees (sessOf [joinOf 1 0]) = true) ∧
    (∃ i ∈ (sessOf [joinOf 0 0]).joins, i.pno = (joinOf 0 0).pno) ∧ SJoin.here (sessOf [joinOf 0 0]) (joinOf 0 0) = true ∧
    ((sFirst.sessions.find? fun x => x.sid == 7 && x.scope == .die && x.home == 0 && x.joins.any (Session.isJoin (joinOf 1 0))) = some (bothIn false)) ∧
    sFar.sessions.find? (·.same (podSess [farJoin])) = some (podSess [joinOf 0 0]) ∧ SJoin.here (podSess [farJoin]) farJoin = false ∧
    (∃ i ∈ (podSess [joinOf 0 0]).joins, i.pno = farJoin.pno) ∧ (sFar.link 3).retired = false ∧
    (∀ y ∈ sFirst.sessions, y.id = (bothIn false).id → y = bothIn false) ∧
    (bothIn true).count = 2 ∧ ended sEnded (joinOf 0 0) ∧ sFailed.sessions = [{ bothIn true with abandoned := true }] ∧
    (∃ x ∈ sDone.sessions, x.result.isSome = true ∧ ∀ j ∈ x.joins, j.dest = 0 ∨ x.rows ≤ j.written) ∧
    sWaits.sessions = [resulting [joinOf 0 locDest]] ∧ (sWaits.resultRow (resulting [joinOf 0 locDest]) (bytesOf 8 0x4000000040000000) (joinOf 0 locDest)).map (·.1) = some true ∧
    (sHeld.resultRow (resulting [joinOf 0 locDest]) (bytesOf 8 0x4000000040000000) (joinOf 0 locDest)).isNone = true ∧
    (sPage.resultRow (resulting [joinOf 0 0x8000]) (bytesOf 8 0x4000000040000000) (joinOf 0 0x8000)).map (·.1) = some false ∧ sOpen.sessions[0]?.map (·.result) = some none ∧ sNew.smsgs[1]? = none :=
  ⟨⟨rfl, rfl⟩, by decide, by decide, ⟨rfl, by decide, by decide⟩, by decide, by decide, by decide, by decide, by decide, by decide, by decide, by decide, rfl, ⟨joinOf 0 0, by decide, by decide⟩, rfl, by decide, rfl,
    by decide, by decide, by decide, rfl, rfl⟩
/-- The last close of a session of which a participant on another package has sent row 0 and it is not here, or is; rows of a result for this package,
the second behind the first, and its participant on the move. -/
def farRow (rows : List (Nat × List Word)) : Session := podSess [{ farJoin with closed := true, mask := 1, staged := rows }, joinOf 1 0]
def podClose : SMsg := .close 7 .pod 0 { joinOf 1 0 with closed := true }
def sAsks : State := ses [podClose] [farRow []]
def sHas : State := ses [podClose] [farRow [(0, [0x3F800000, 0x40000000])]]
def rowMsg (j : SJoin) : SMsg := .result j 0 (bytesOf 8 0x4000000040000000) 0
def sRows : State := ses [rowMsg (joinOf 0 locDest), rowMsg (joinOf 0 locDest), rowMsg (joinOf 1 0x8000), .lost (joinOf 2 0), .refused (joinOf 2 0)] []
theorem witness_SessionsAtHome_far :
    (∀ rows, SJoin.here (farRow rows) { farJoin with closed := true, mask := 1, staged := rows } = false) ∧
    (sAsks.sessions.find? fun x => x.sid == 7 && x.scope == .pod && x.home == 0 && x.joins.any (Session.isJoin (joinOf 1 0))) = some (farRow []) ∧
    missing (farRow []) { farJoin with closed := true, mask := 1 } 0 ∧ (farRow []).asked ≠ some (0, 0) ∧ (sAsks.link 3).retired = false ∧
    (∀ i r, ¬missing (farRow [(0, [0x3F800000, 0x40000000])]) i r) ∧ sHas.sessions = [farRow [(0, [0x3F800000, 0x40000000])]] ∧
    (∀ i j off bytes credit, i = 0 → sRows.smsgs[i]? = some (.result j off bytes credit) → ¬∃ m ∈ sRows.smsgs.take i, ∃ j' o b c, m = .result j' o b c ∧ Session.isJoin j j' = true) ∧
    (sRows.writeResult (joinOf 0 locDest) 0 (bytesOf 8 0x4000000040000000) 0).map (·.1) = some true ∧
    (sRows.writeResult (joinOf 1 0x8000) 0 (bytesOf 8 0x4000000040000000) 0).map (·.1) = some false ∧ Session.isJoin (joinOf 0 locDest) (joinOf 0 locDest) = true ∧
    sRows.smsgs[3]? = some (.lost (joinOf 2 0)) ∧ sRows.smsgs[4]? = some (.refused (joinOf 2 0)) ∧ (joinOf 2 0).gid ≠ 0 := by
  refine ⟨fun _ => rfl, by decide, ⟨by decide, by decide, by decide, by decide⟩, by decide, by decide, ?_, rfl, ?_, by decide, by decide, by decide, rfl, rfl, by decide⟩
  · rintro i r ⟨h, h1, h2, h3⟩
    simp only [farRow, podSess, sessOf, List.mem_cons, List.not_mem_nil, or_false] at h
    rcases h with rfl | rfl
    · cases r with
      | zero => exact h3 ⟨⟨_, List.mem_singleton_self _, rfl⟩, by decide⟩
      | succ n => exact absurd h2 (by simp [BitVec.getLsbD_one])
    · simp [joinOf] at h2
  · rintro _ _ _ _ _ rfl _; simp
/-- A row into local memory that is there, and one into main memory; the last row, and one before the last; NOTIFY on nothing. -/
theorem witness_ResultRowsLand :
    let two : Session := { resulting [] with rows := 2 }
    let row := bytesOf 8 0x4000000040000000
    SJoin.here (resulting []) (joinOf 0 locDest) = true ∧ (joinOf 0 locDest).gid ≠ 0 ∧ sHeld.ready = true ∧ (sHeld.part 0).halt = true ∧
    (sWaits.ready = true ∧ (sWaits.part 0).halt = false ∧ (sWaits.die 0).active.ctx = 1) ∧
    CAddr.of locDest = some (.loc 0 0x40) ∧ sWaits.inSpace 0 1 0 0x40 8 = true ∧ sWaits.touchesLive 0 1 0 0x40 8 = false ∧
    CAddr.of 0x8000 = some (.main 0x8000) ∧ (match (mapped sWaits).writeVa 0 0 false 0x8000 row with | .ok _ => true | .fault .. => false) = true ∧
    (joinOf 0 locDest).written + 1 ≠ two.rows ∧ (joinOf 0 locDest).written + 1 = (resulting []).rows ∧ (resulting []).rows * rowBytes 1 2 ≠ 0 ∧
    (match sWaits.credit 0 1 0 none 8 with | .ok _ => true | .fault .. => false) = true := by decide
/-- A package of rank 0 and one of rank 1 in a launch of two ranks, whose .pod counters are 2 and 0; its generation, closed or open, has number 3. -/
def podLaunch (rank : Nat) : Launch := { launchOf (some ⟨.pod, [2, 0]⟩) with ranks := [⟨1, 0, 0, 1⟩, ⟨2, 0, 2, 3⟩], rank := rank }
def podCounters (open_ : Bool) : CSet := { setOf 3 with scope := .pod, open_ := open_, members := [], num := 3 }
def podHeader : Header := ⟨1, .session, 0, 2⟩
def podState (rank : Nat) (open_ : Bool) (m : Payload) : State :=
  { fab [] [] [] with launches := [podLaunch rank], sets := [podCounters open_], inbox := [.link 0 podHeader m] }
theorem witness_PodGenerations :
    (∀ rank o m, podSet (podState rank o m) podHeader 5 (podLaunch rank) (podCounters o) ∧ headed (podState rank o m) (.link 0 podHeader m) []) ∧
    (podState 1 false (.podOpen 9 3 pc0)).podLaunch podHeader 9 = none ∧ ((podState 1 false (.podOpen 9 3 pc0)).link 0).retired = false ∧
    (podLaunch 1).rank ≠ 0 ∧ (podLaunch 0).rank = 0 ∧ (podCounters true).open_ = true ∧ (podCounters false).open_ = false ∧ (podCounters true).gen = 3 ∧
    (podCounters true).num = 3 ∧ 2 ≤ (podCounters true).counters.getD 0 0 ∧ (podCounters true).counters.getD 0 0 < 3 :=
  ⟨fun _ _ _ => ⟨⟨rfl, rfl, rfl, rfl⟩, rfl⟩, rfl, by decide, by decide, rfl, rfl, rfl, rfl, rfl, by decide, by decide⟩

/-! ### Launches -/

/-- A launch record at 0xA000: 5 indices in groups of 2, 32 registers a lane; its code object descriptor at 0xB000; records of its queue: one with no
status variable, one with the status variable 0xC000, one whose record cannot be. -/
def lrec : List Byte := bytesOf 4 0x10 ++ bytesOf 4 0 ++ bytesOf 8 0xB000 ++ bytesOf 8 5 ++ bytesOf 8 2 ++ List.replicate 224 0
def cod : List Byte := bytesOf 8 0x10000 ++ bytesOf 8 0x100 ++ List.replicate 48 0
def qrec (va status : Nat) : BitVec 256 := BitVec.ofNat 256 (va + status * 2 ^ 64)
def lq (r : BitVec 256) (kind : Nat) : RQueue := rqueue kind [r] 0
def sched0 (q : RQueue) : State :=
  let s := mapped (fab [] [] [])
  { s.modDie 0 (fun D => { D with queues := [q] }) with mem := (s.mem.writeN 0xA000 lrec).writeN 0xB000 cod }
def lStart : State := sched0 (lq (qrec 0xA000 0) 1)
def lBad : State := sched0 (lq (qrec 0xA040 0) 1)
def lCode : State := sched0 (lq (qrec 0xA040 0xC000) 1)
def lWait : State := { lStart with launches := [{ launchOf none with queue := 3, unplaced := [⟨0, 1, none, []⟩] }] }
def popped (s : State) : State := match s.queueOf 0 1 3 with | some q => (match s.qPop q with | some (_, u) => u | none => s) | none => s
/-- A launch of two groups of 2, not yet placed, that starts with 8 registers a lane; the same on a core that is full; its groups on die 1. -/
def kern : Kernel := ⟨0x10, 0x1000, 2, 1, 0, [], Vector.replicate 8 0⟩
def lnch (us : List Unplaced) : Launch := { launchOf none with kernel := kern, hi := 4, n := 4, unplaced := us, started := 0 }
def uPl (d : DieId) (n : Nat) : Unplaced := ⟨d, n, none, []⟩
def lPlace : State := { fab [] [] [] with launches := [lnch [uPl 0 0, uPl 0 1]] }
def lNoCore : State := { lPlace with dies := vput lPlace.dies 0 { lPlace.die 0 with retired := (List.range 25) } }
def lSteal : State := { fab [] [] [] with launches := [lnch [uPl 1 0, uPl 1 1]] }
theorem witness_LaunchesStartAndSpread :
    (∀ d, lStart.partOf d ≠ 1) ∧ lStart.diesOf 0 = [0, 1, 2, 3, 4, 5, 6, 7] ∧ lStart.running 0 = true ∧ (lStart.die 0).active.ctx = 1 ∧
    lStart.queueOf 0 1 3 = some (lq (qrec 0xA000 0) 1) ∧ lWait.mayLaunch 0 1 3 false = false ∧ lStart.mayLaunch 0 1 3 false = true ∧
    (lStart.qPop (lq (qrec 0xA000 0) 1)).map (·.1) = some (qrec 0xA000 0) ∧ (match (popped lStart).launchRec 0 0xA000 with | .inl _ => none | .inr L => some (L.hi, L.kernel.gsize)) = some (5, 2) ∧
    (match (popped lBad).launchRec 0 0xA040 with | .inl c => some c | .inr _ => none) = some 1 ∧
    (popped lCode).translate 0 syncAgent false 0xC000 .write = .ok 0xC000 ∧ poolOf 0xC000 = 0 :=
  by and_intros <;> decide +kernel
theorem witness_LaunchesStartAndSpread_place :
    (lStart.nextGroup 0 = none) ∧ lPlace.nextGroup 0 = some (lnch [uPl 0 0, uPl 0 1], uPl 0 0) ∧ (lnch []).unit (uPl 0 0) = (kern, 0, 2, 1) ∧
    lPlace.coreFor 0 kern 1 = some 1 ∧ lNoCore.coreFor 0 kern 1 = none ∧ lSteal.running 0 = true ∧
    (∀ x ∈ (lnch [uPl 1 0, uPl 1 1]).unplaced, x.die ≠ 0 ∧ x.node = none) ∧
    bestOf (fun (a b : DieId) => decide (lSteal.waiting 0 b < lSteal.waiting 0 a) || (lSteal.waiting 0 a == lSteal.waiting 0 b && decide (a.val ≤ b.val))) (lSteal.partDies 0) = some 1 ∧ kern.csize ≤ 1 :=
  by and_intros <;> decide +kernel
/-- A launch whose record's line is in error; a launch of clusters of two, four of whose groups another die holds, one of them of a cluster that is open. -/
def lLost : State := { lStart with badLines := [0xA000 / 64] }
def lPairs : State := { fab [] [] [] with launches := [{ lnch ((List.range 4).map fun n => uPl 1 n) with kernel := { kern with csize := 2 }, hi := 8, n := 8 }] }
theorem witness_LaunchesStartAndSpread_more :
    (lStart.ringStalled (lq (qrec 0xA000 0) 1) = false ∧ lStart.launchStalled 0 0xA000 = false ∧ lStart.launchLost 0 0xA000 = none) ∧
    (lCode.ringStalled (lq (qrec 0xA040 0xC000) 1) = false ∧ lCode.launchStalled 0 0xA040 = false ∧ lCode.launchLost 0 0xA040 = none) ∧
    (lLost.queueOf 0 1 3 = some (lq (qrec 0xA000 0) 1) ∧ lLost.mayLaunch 0 1 3 false = true ∧ lLost.ringStalled (lq (qrec 0xA000 0) 1) = false ∧
      lLost.launchStalled 0 0xA000 = false ∧ lLost.launchLost 0 0xA000 = some 0xA000) ∧
    (∀ L ∈ lPairs.launches, ∀ x ∈ L.unplaced, x.die ≠ 0) ∧
    bestOf (fun (a b : DieId) => decide (lPairs.waiting 0 b < lPairs.waiting 0 a) || (lPairs.waiting 0 a == lPairs.waiting 0 b && decide (a.val ≤ b.val))) (lPairs.partDies 0) = some 1 ∧
    (lPairs.loose 0 1).flatten ≠ [] ∧ (lPairs.steal 0 1).map (·.2.number) = [2, 3] := by decide +kernel
/-- A group that has ended, and one with live indices; a launch that has ended, whose status variable is 0xC000; a bin with records, its timer due, not due, off. -/
def gEnd : State := (fab [] [] []).modBank 0 fun B => { B with groups := [{ lanesG 0 [] (fun _ => []) with launch := 5 }] }
def lEnd : State := { (fab [] [] []).modBank 0 (fun B => { B with groups := [] }) with launches := [{ lnch [] with status := 0xC000, started := 3 }] }
def nodeOf (due : Option Nat) : Node := { kernel := kern, qh := 3, coal := 2, timer := 4, due := due, takes := [] }
def lBin (due : Option Nat) : State := { (sched0 (rqueue 2 [7, 8, 9] 0)).modBank 0 (fun B => { B with groups := [] }) with launches := [{ lnch [] with nodes := [nodeOf due] }] }
/-- A bin with records in its ring, whose frame moves. -/
def lRing : RQueue := rqueue 2 [7] 1
def lBinMoves : State := { lBin none with moving := [⟨0, 1⟩], dies := vput (lBin none).dies 0 { (lBin none).die 0 with queues := [lRing] } }
theorem witness_GroupsAndLaunchesEnd :
    (gEnd.group 0 1 = some { lanesG 0 [] (fun _ => []) with launch := 5 } ∧ (lanesG 0 [] fun _ => []).liveIdx = [] ∧ gEnd.running 0 = true ∧ (gEnd.die 0).active.handles = [] ∧ gEnd.cmds 0 = [] ∧ gEnd.reqs = [] ∧
      (gEnd.die 0).active.interests = [] ∧ (gEnd.die 0).active.offers = [] ∧ (gEnd.die 0).active.tileq = []) ∧
    (∃ G, lPlace.group 0 1 = some G ∧ G.liveIdx ≠ []) ∧ gEnd.group 0 2 = none ∧
    (lEnd.launchById 5 = some { lnch [] with status := 0xC000, started := 3 } ∧ lEnd.launchDie (lnch []) = some 0 ∧ lEnd.hasGroups { lnch [] with status := 0xC000, started := 3 } = false) ∧
    (lPlace.launchById 5).map (·.unplaced) ≠ some [] ∧
    (∀ due ∈ [some 30000, some 30001, none], (lBin due).launchById 5 = some { lnch [] with nodes := [nodeOf due] }) ∧ (lBin none).launchDie (lnch []) = some 0 ∧
    (lBin none).clock = 30000 ∧ (lBin none).queueOf 0 1 3 = some (rqueue 2 [7, 8, 9] 0) ∧ ((lBin none).popN 0 1 3 2).1 = [7, 8] ∧ (lBin none).hasGroups (lnch []) = false ∧ (lEnd.queueSize 0 0 1 3) = none ∧
    (lPlace.hasGroups (lnch [uPl 0 0, uPl 0 1])) = false ∧ (lBinMoves.queueOf 0 1 3 = some lRing ∧ lRing.rcount ≠ 0 ∧ lBinMoves.ringStalled lRing = true) ∧
    (mapped lEnd).translate 0 syncAgent false 0xC000 .write = .ok 0xC000 :=
  by and_intros <;> decide +kernel

/-! ### Halts, swaps, migration -/

/-- A partition of one die whose line has been up for 17 cycles; one whose line rose now; one whose halt is complete. -/
def alone (s : State) : State := { s with layout := ⟨#[0, 1, 2, 3, 4, 5, 6, 7], rfl⟩ }
def fault0 : FaultRec := { die := 0, slot := 3, clock := 20000, stop := { cause := Cause.prot, pc := 0x1234 }, form := {} }
def rising (rose : Nat) : State :=
  (alone (fab [] [] [])).modPart 0 fun P => { P with halt := true, rose := rose, tpend := 1, faults := [fault0] }
def stopped0 : State := (rising 0).modPart 0 fun P => { P with complete := true }
/-- Another die of its partition has made the frame. -/
def framed : State := stopped0.modPart 0 fun P => { P with frames := [(Cause.prot, List.replicate 128 1)] }
def inHandler : State := stopped0.modDie 0 fun D => { D with handler := true }
theorem lineThrough_of (s : State) (p : PartId) (h : (s.part p).halt = true) (c : (s.part p).rose + 16 < s.clock) : s.lineThrough p = true := by
  have one : ∀ d ∈ s.diesOf p, ∀ n, s.stopped d n = true := by
    intro d hd n
    have e : s.partOf d = p := (show d ∈ allDies ∧ s.partOf d = p by simpa [State.diesOf] using hd).2
    unfold State.stopped
    simp only [e, h, Bool.true_and, Bool.or_eq_true, decide_eq_true_eq]
    left; right; have := Nat.min_le_left 16 (Config.lineDelay (s.part p).rose (d.val * 256 + n)); omega
  unfold State.lineThrough
  rw [List.all_eq_true]; intro d hd
  simp [one d hd]
theorem witness_HaltsCompleteAndDeliver :
    ((rising 0).powered = true ∧ ((rising 0).part 0).halt = true ∧ ((rising 0).part 0).complete = false ∧ (rising 0).lineThrough 0 = true ∧ (rising 0).awaited 0 = [] ∧
      (rising 0).deliveriesDone 0 = true) ∧
    ((rising 0).diesOf 0 = [0] ∧ ((rising 0).die 0).sv.shared.wf = true ∧ ((rising 0).part 0).faults = [fault0] ∧ fault0.die = 0 ∧ 3 ∈ ((rising 0).die 0).cores ∧
      ((rising 0).die 0).active.tileq = []) ∧
    ((lStart.part 0).halt = false) ∧
    (halted stopped0 0 ∧ (stopped0.die 0).handler = false ∧ (stopped0.part 0).released = [] ∧ deliverCause (stopped0.part 0) = some Cause.prot ∧ (stopped0.part 0).pending = some fault0 ∧ stopped0.powered = true ∧
      (stopped0.die 0).ownOver = true ∧ (∀ l ∈ (stopped0.die 0).sv.lanes, l.ctl.wait ≠ .reply) ∧ (stopped0.part 0).frames[(stopped0.die 0).taken]? = none) ∧
    (framed.part 0).frames[(framed.die 0).taken]? = some (Cause.prot, List.replicate 128 1) ∧
    (inHandler.die 0).handler = true :=
  ⟨⟨rfl, by decide, by decide, lineThrough_of _ _ (by decide) (by decide), by decide, by decide⟩, ⟨by decide, by decide, by decide, rfl, by decide, by decide⟩, by decide,
    ⟨by unfold halted; decide, by decide, by decide, by decide, by decide, by decide, by decide, by decide, by decide⟩, by decide, by decide⟩
/-- A core without a fault, whose one lane stands at its word; the same with a GLD on its way. -/
def haltLane : State := (rising 0).modDie 0 fun D => { D with active := { D.active with groups := [{ grp 1 with lanes := [{ x := 0, ctl := { pc := pc0 }, g := Vector.replicate 64 0 }] }] } }
def haltGld : State := withGld haltLane
theorem witness_HaltsCompleteAndDeliver_cores :
    ((haltLane.part 0).complete = false ∧ haltLane.lineThrough 0 = true ∧ haltLane.awaited 0 = [] ∧ haltLane.deliveriesDone 0 = true) ∧
    (0 ∈ (haltLane.die 0).cores ∧ (∀ f ∈ (haltLane.part 0).faults, f.die = 0 → f.slot ≠ 0) ∧
      (((haltLane.die 0).active.groups.filter (·.core == 0)).map fun G => (G.hoods, G.lanes.map (fun l => (l.x, l.ctl.pc)), G.glds)) = [([], [(0, pc0)], [])]) ∧
    (haltGld.lineThrough 0 = true ∧ haltGld.awaited 0 = [] ∧ haltGld.deliveriesDone 0 = true ∧ ((haltGld.group 0 1).map fun G => (G.glds.map (·.xs), G.lanes.map (·.x))) = some ([[0]], [0])) :=
  ⟨⟨by decide, lineThrough_of _ _ (by decide) (by decide), by decide, by decide⟩, by decide, lineThrough_of _ _ (by decide) (by decide), by decide, by decide, by decide⟩
/-- A slice of 2 that has run 3200 cycles, and 3199; a debug request at the head of the inbox; a step with every thread stepped; a merge hold of 64 cycles. -/
def slice (n : Nat) : State := (alone (fab [] [] [])).modPart 0 fun P => { P with tslice := 2, elapsed := n }
def dbg (v : Word) : State := { slice 0 with inbox := [.debugPort 0 v] }
def stepping (b : Bool) : State :=
  (slice 0).modPart 0 (fun P => { P with step := true }) |>.modDie 0 fun D =>
    { D with active := { D.active with groups := [{ grp 1 with lanes := [{ x := 0, ctl := { pc := pc0, stepped := b }, g := Vector.replicate 64 0 }] }] } }
/-- A GLD of the thread is on its way. -/
def stepGld : State := withGld (stepping true)
def mergeHood (n : Nat) : Hood := { lo := 0, hi := 2, ctl := { pc := pc0, wait := .merge, heldFor := n }, g := Vector.replicate 64 {} }
def merging (n : Nat) : State := (slice 0).modDie 0 fun D => { D with active := { D.active with groups := [{ grp 2 with hoods := [mergeHood n] }] } }
theorem witness_SlicesAndSteps :
    ((slice 3200).ready = true ∧ ((slice 3200).part 0).halt = false ∧ ((slice 3200).part 0).tslice ≠ 0 ∧ 1600 * ((slice 3200).part 0).tslice.toNat ≤ ((slice 3200).part 0).elapsed) ∧
    ¬1600 * ((slice 3199).part 0).tslice.toNat ≤ ((slice 3199).part 0).elapsed ∧ (∀ q v rest, (slice 0).inbox ≠ .debugPort q v :: rest) ∧ (dbg 3).inbox = .debugPort 0 3 :: [] ∧ (3 : Word).getLsbD 0 = true ∧ (2 : Word).getLsbD 0 = false ∧
    ((((stepping true).part 0).step = true ∧ (∃ c ∈ (stepping true).threads 0, c.stepped = true)) ∧ ∀ c ∈ (stepping true).threads 0, c.stepped = true ∨ c.ready = false) ∧
    (∀ e, (stepping true).partOf e = 0 → ∀ G ∈ ((stepping true).die e).active.groups, G.glds = []) ∧ (stepGld.die 0).active.groups.all (·.glds.isEmpty) = false ∧
    (¬∃ c ∈ (stepping false).threads 0, c.stepped = true) ∧
    (∃ G, (merging 64).group 0 1 = some G ∧ G.hood 0 = some (mergeHood 64)) ∧ (merging 64).running 0 = true ∧ ∃ G, (merging 63).group 0 1 = some G ∧ G.hood 0 = some (mergeHood 63) :=
  ⟨⟨rfl, by decide, by decide, by decide⟩, by decide, (fun _ _ _ h => nomatch h), rfl, by decide, by decide, ⟨⟨by decide, by decide⟩, by decide⟩, by decide, by decide, by decide, ⟨_, rfl, by decide⟩, by decide, ⟨_, rfl, by decide⟩⟩
/-- A stopped die whose shadow bank holds context 2, is empty, is busy with a SAVE, with a LOAD; a swap under way; a carder that holds a command of context 1. -/
def shadowed (f : Die → Die) : State := stopped0.modDie 0 f
def swHeld : State := shadowed fun D => { D with shState := 1, shadow := { ctx := 2 } }
def swBusy : State := shadowed fun D => { D with swapBusy := true }
def swSave : State := shadowed fun D => { D with shState := 2, shadow := { ctx := 2 }, shOp := some .save }
def swLoad : State := { shadowed fun D => { D with shState := 2, shOp := some (.load 7) } with saves := [⟨3, 7, 0, { ctx := 7 }, true⟩], mem := [⟨0, 3⟩] }
def swCarder : State := swHeld.modCarder 0 5 fun c => { c with queue := [cmd0] }
/-- A save area in no pool; one that nothing was saved to. -/
def swPools : State := swSave.modDie 0 fun D => { D with ctxsave := 0xFFFFFFFF }
def swAltered : State := { swLoad with mem := [] }
/-- The area's line is in error, or on the move. -/
def swLost : State := { swLoad with badLines := [0] }
def swMoves : State := { swLoad with moving := [⟨0, 1⟩] }
theorem witness_ContextsSwap_area :
    (swLoad.areaLine 0 = none ∧ swLoad.areaStalled 0 = false) ∧ ((swLost.die 0).shOp = some (.load 7) ∧ swLost.areaBad 0 = false ∧ swLost.areaStalled 0 = false ∧ swLost.areaLine 0 = some 0) ∧
    ((swMoves.die 0).shOp = some (.load 7) ∧ swMoves.areaBad 0 = false ∧ swMoves.areaStalled 0 = true) ∧ swSave.areaStalled 0 = false := by decide
theorem witness_ContextsSwap :
    (halted swHeld 0 ∧ (swHeld.die 0).shState = 1 ∧ (swHeld.die 0).shadow.ctx = 2 ∧ (swHeld.die 0).carderHolds (swHeld.die 0).active.ctx = false) ∧
    (swCarder.die 0).carderHolds (swCarder.die 0).active.ctx = true ∧ (stopped0.die 0).shState = 0 ∧ (stopped0.die 0).swapBusy = false ∧ (stopped0.die 0).shOp = none ∧
    (swBusy.die 0).swapBusy = true ∧ ((swSave.die 0).shState = 2 ∧ (swSave.die 0).shOp = some .save) ∧ (swLoad.die 0).shOp = some (.load 7) ∧
    swSave.areaBad 0 = false ∧ swLoad.areaBad 0 = false ∧ swPools.areaBad 0 = true ∧ (swPools.die 0).sv.shared.wf = true ∧ swAltered.areaBad 0 = false ∧
    (swAltered.saves.find? fun x => x.id == swAltered.mem.get (swAltered.die 0).saveArea 8 && x.ctx == 7) = none ∧
    (swLoad.saves.find? fun x => x.id == swLoad.mem.get (swLoad.die 0).saveArea 8 && x.ctx == 7) = some ⟨3, 7, 0, { ctx := 7 }, true⟩ :=
  ⟨⟨by unfold halted; decide, by decide, by decide, by decide⟩, by decide, by decide, by decide, by decide, by decide, ⟨by decide, by decide⟩, by decide, by decide, by decide, by decide, by decide, by decide, by decide, by decide⟩
def moveIn (f : Nat) : State := { alone (fab [] [] []) with inbox := [.migrate f 1] }
def moveOn : State := { alone (fab [] [] []) with moving := [⟨3, 1⟩] }
/-- A queue whose descriptor lies in the frame, and whose ring in one that began to move before, or in none. -/
def moveQueue (ms : List Migration) : State := { (alone (fab [] [] [])).modDie 3 (fun D => { D with queues := [{ rqueue 0 [7] 0 with desc := 3 * 2 ^ 21 }] }) with moving := ms ++ [⟨3, 1⟩] }
theorem witness_FramesMigrate_queue : ∀ b ∈ [true, false], let s := moveQueue (if b then [⟨0, 1⟩] else [])
    let q := { rqueue 0 [7] 0 with desc := 3 * 2 ^ 21 }
    s.moving.find? (·.frame == 3) = some ⟨3, 1⟩ ∧ (s.die (s.homeOf (3 * 2 ^ 21))).queues = [q] ∧ poolOf q.desc = 0 ∧ q.desc / 2 ^ 21 = 3 ∧
    ({ s with moving := s.moving.takeWhile fun x => x.frame != 3 } : State).ringStalled q = b := by decide
theorem witness_FramesMigrate : headed (moveIn 3) (.migrate 3 1) [] ∧ (moveIn 3).ready = true ∧ (moveIn 3).mayMigrate 3 1 = true ∧ (moveIn 244136).mayMigrate 244136 1 = false ∧
    moveOn.moving.find? (·.frame == 4) = none ∧ moveOn.moving.find? (·.frame == 3) = some ⟨3, 1⟩ ∧ ∀ d : DieId, (moveOn.die d).queues = [] :=
  ⟨rfl, rfl, by decide, by decide, rfl, rfl, by decide⟩
/-! ### Management and loader -/

def dboot : DieBoot := { svboot := 0x8000, trapvec := 0x9000, rtab := 0, ptroot := 0, svCore := 0, crowns := [0, 1, 2, 3], failed := [] }
def img (t : Bool) (fails : Option (Fin 3)) : BootImage :=
  { trusted := t, measurement := 5, fails := fails, harvested := [], routes := [(2, [0, 1, 2, 3, 4])], dies := List.replicate 8 dboot }
def inp (i : Input) : State := { fab [] [] [] with inbox := [i] }
/-- The bring-up has come to a step. -/
def bootAt (n : Nat) (b : BootImage) : State := { fab [] [] [] with inbox := [.timeout (n + 1) 9], boot := some b, bringup := n, ready := false, badLines := [7, 2 ^ 40] }
def idleDies : State := allDies.foldl (fun (s : State) p => s.modPart p fun P => { P with halt := true, complete := true }) { upState with layout := layoutOf 0o77665544 }
theorem witness_ModuleBringsUp : headed (inp (.bringup (img false none))) (.bringup (img false none)) [] ∧ (img false none).trusted = false ∧
    (img true none).trusted = true ∧ (img true (some 2)).fails = some 2 ∧ (img true none).dies[7]? = some dboot ∧
    (∀ n, (bootAt n (img true none)).boot = some (img true none) ∧ (bootAt n (img true none)).bringup + 1 = n + 1 ∧
      headed (bootAt n (img true none)) (.timeout (n + 1) 9) [] ∧ (bootAt n (img true none)).mem.wf = true) ∧ (∀ n b c r, (bootAt n b).inbox ≠ .bringup c :: r) ∧
    (bootAt 3 (img true (some 2))).bringup + 1 = (2 : Fin 3).val + 2 ∧ poolOf (64 * 2 ^ 40) ≠ 0 ∧ poolOf (64 * 7) = 0 ∧ (inp (.timeout 3 9)).boot = none ∧
    ((0 : Word).toNat < 2 ^ 24 ∧ layoutOk (layoutOf 0) = true ∧ ∀ d, idleDies.dieIdle d = true) ∧ (inp (.layout 0)).dieIdle 0 = false ∧ (∃ p d, (idleDies.layout.get d = p) ≠ ((layoutOf 0).get d = p)) :=
  ⟨rfl, rfl, rfl, rfl, rfl, fun _ => ⟨rfl, rfl, rfl, rfl⟩, (fun _ _ _ _ h => nomatch h), by decide, by decide, by decide, rfl, ⟨by decide, by decide, by decide⟩, by decide, ⟨4, 0, by decide⟩⟩
/-- A link that is retired, and one that has sent a packet of context 1. -/
def linked (r : Bool) (i : Input) : State := { inp i with links := vput (Vector.replicate 36 {}) 2 { sent := [⟨some 0, pc0, 1, ⟨1, .session, 2, 0⟩⟩], retired := r } }
theorem witness_ManagementBlockActs : ((linked true (.flitError 2)).link 2).retired = true ∧ ((linked false (.flitError 2)).link 2).retired = false ∧
    headed (linked false (.headerCrc 2 true)) (.headerCrc 2 true) [] ∧ (∃ e ∈ ((linked false (.headerCrc 2 true)).link 2).sent, e.die = some 0 ∧ e.head.ctx ≠ 0) ∧
    headed (inp .shutdown) .shutdown [] ∧ (∀ p, ((inp .shutdown).part p).complete = false) ∧ (99 < 100) ∧
    ({ inp (.routerFails lf) with harvested := [lf] } : State).harvested.contains lf = true ∧
    (inp (.routerFails lf)).harvested.contains lf = false ∧ routerDie lf = some 0 ∧ headed (inp .measurements) .measurements [] :=
  ⟨by decide, by decide, rfl, by decide, rfl, by decide, by decide, by decide, by decide, rfl, rfl⟩
/-- Sites of errors: memory, a tile, a line that partition 0 holds, a resident queue, a counter set, a stored tile. -/
def eccAt (site : EccSite) : State :=
  { (fab [] [] [tileOf .stored 0]).modDie 0 (fun D => { D with queues := [rqueue 0 [] 0], held := [(64, [0])] }) with inbox := [.ecc site], sets := [setOf 3] }
theorem witness_MemoryErrorsHalt : (∀ site, headed (eccAt site) (.ecc site) [] ∧ (eccAt site).ready = true) ∧ State.reset.ready = false ∧
    ((eccAt (.tile 0 0 1 3)).group 0 1).isSome = true ∧ ((64, [0]) ∈ ((eccAt (.sync 0 4096)).die 0).held ∧ 4096 / 64 = 64 ∧ ∃ e, (eccAt (.sync 0 4096)).partOf e = 0) ∧
    ((eccAt (.queue 0 0)).die 0).queues[0]? = some (rqueue 0 [] 0) ∧ (eccAt (.counters 0)).sets[0]? = some (setOf 3) ∧
    (eccAt (.counters 0)).partOf (setOf 3).die = (setOf 3).part ∧
    ((eccAt (.store (.crown 0 0) 0 0)).stores.filter (·.at_ == Router.crown 0 0))[0]? = some (tileOf .stored 0) ∧
    (eccAt (.store (.crown 0 0) 0 0)).partOf 0 = (tileOf .stored 0).part :=
  ⟨fun _ => ⟨rfl, rfl⟩, rfl, rfl, ⟨by decide, rfl, ⟨0, rfl⟩⟩, rfl, rfl, rfl, by decide, by decide⟩
/-- A division of the placed word's lane, at its fourth micro-step; a word that divides nothing. -/
def dividing (w k : Nat) : State := { placedAt w with inbox := [.ecc (.division 0 1 0 k)] }
theorem witness_MemoryErrorsHalt_division :
    (((dividing 0x1428C380 4).standsAt 0 1 0).map fun a => (a.1.xs.isEmpty, a.2)) = some (false, .idivI32 5 6 7 0) ∧ (dividing 0x1428C380 4).running 0 = true ∧ (dividing 0x1428C380 4).ready = true ∧
    4 < divisionSteps (.idivI32 5 6 7 0) ∧ (((dividing 0x0028C380 4).standsAt 0 1 0).map fun a => (a.1.xs.isEmpty, divisionSteps a.2)) = some (false, 0) := by decide +kernel
/-- A halt completes, is delivered and returns; a page with a line in error. -/
theorem witness_ErrorsLastUntilRewritten :
    let bad := { mapped (fab [] [] []) with badLines := [0x4000 / 64] }
    (match exec (.haltComplete 0) stopped0 with | .next _ => true | _ => false) = true ∧ (match exec (.eventDelivery 0) inHandler with | .next _ => true | _ => false) = true ∧
    (match exec .trapret supLast with | .next _ => true | _ => false) = true ∧
    bad.translate 0 0 false 0x4010 .read = .ok 0x4010 ∧ 0x4010 / 64 ∈ bad.badLines := by decide +kernel
/-- The command of a slot as its 64 bytes; the ring at 0x1000 holds one in slot 1, the next. -/
def lcmd (opc resv src len : Nat) : List Byte :=
  [BitVec.ofNat 8 opc, 0] ++ bytesOf 2 1 ++ bytesOf 4 resv ++ bytesOf 8 src ++ bytesOf 8 len ++ List.replicate 24 0 ++ bytesOf 8 0x100 ++
    [if opc = 2 then 1 else 0] ++ List.replicate 7 0
def ringed (c : List Byte) : State := { inp .loader with ringBase := 0x1000, ringHead := 1, mem := Mem.writeN [] 0x1040 c }
/-- A publication of one word, into the area of context 1 or where none is. -/
def pub (addr : DWord) (e : DWord) : Publication := { part := 0, ctx := 1, addr := addr, words := [0x76000004], pairs := [(e, 0x4000)] }
def area : TransArea := { base := 0x9000, size := 0x100, area := 0x4000, bytes := 0x100, meas := 0 }
def pubState (x : Publication) : State := { (mapped (fab [] [] [])).modBank 0 (fun B => { B with areas := [area] }) with inbox := [.publish x] }
/-- A container whose first bytes are none; one of a segment whose key slot is not enabled, and the same with a line in error. -/
def contState : State :=
  let s := ringed (lcmd 1 0 0x2000 0x1000)
  { s with mem := (s.mem.writeN 0x2000 (bytesOf 4 0x4C534147 ++ bytesOf 2 1 ++ bytesOf 2 1 ++ bytesOf 8 0x1000)) }
/-- A container of one Silol segment of one word, whose key and signature are of small order, at 0x5000 in an entry of its own. -/
def edOne : List Byte := 1 :: List.replicate 113 0
def segHead : List Byte := [1, 0, 1, 0, 0, 0, 0, 0] ++ bytesOf 8 0 ++ bytesOf 8 0x1000 ++ bytesOf 8 4 ++ bytesOf 8 0x5000
def segBody : List Byte := bytesOf 4 0x76000004
def segBytes : List Byte := segHead ++ shake256 (segHead ++ segBody ++ edOne.take 57) 64 ++ edOne ++ List.replicate 38 0
def loadState : State :=
  let s := mapped (ringed (lcmd 1 0 0x2000 0x2000))
  let head := bytesOf 4 0x4C534147 ++ bytesOf 2 1 ++ bytesOf 2 1 ++ bytesOf 8 0x2000
  let table := bytesOf 8 0x5000 ++ bytesOf 8 0x6000 ++ bytesOf 8 0 ++ bytesOf 8 0b10111 ++ bytesOf 8 0 ++ bytesOf 8 0x10000000 ++ bytesOf 8 0 ++ bytesOf 8 0b10111
  { s.modPart 0 (fun P => { P with keymask := 1 }) with
    keys := vput s.keys 0 { key := 1, enabled := true }
    mem := (((s.mem.writeN 0x2000 head).writeN 0x2080 segBytes).writeN 0x3000 segBody).writeN 0x8000 table }
def loadCmd : LoaderCmd := LoaderCmd.of (lcmd 1 0 0x2000 0x2000)
/-- An access of the context has been translated and is not performed. -/
def loadWaits : State := { loadState with reqs := [redReq] }
theorem witness_LoaderCommands_load :
    let u : State := { loadState with inbox := [], ringHead := if 1 + 1 = Config.ringSlots then 0 else 1 + 1 }
    (headed loadState .loader [] ∧ loadState.ready = true ∧ loadState.moving = [] ∧ loadState.poolOk 0x1040 = true ∧ loadState.badIn 0x1040 64 = none ∧
      LoaderCmd.of (loadState.mem.readN 0x1040 64) = loadCmd ∧ commandBad loadCmd = false ∧ loadState.quiet 0 1 = true ∧ loadWaits.quiet 0 1 = false) ∧
    (match loadState.container 0x2000 0x2000 with | .sound gs => (gs.findSome? (loadState.segmentFails 0 0x2000)).isNone | _ => false) = true ∧
    (u.loadContainer 0 loadCmd).1 = 0 ∧ noQueues loadState 0 1 := by
  refine ⟨⟨rfl, by decide +kernel, by decide +kernel, by decide +kernel, by decide +kernel, by decide +kernel, by decide +kernel, by decide +kernel, by decide +kernel⟩, by decide +kernel,
    by decide +kernel, ?_⟩
  unfold noQueues; decide
/-- Nothing but the word itself changes while the publication is written. -/
theorem witness_LoaderCommands_publish : (pubState (pub 0x4000 0x9000)).mem.wf = true ∧ steady (pubState (pub 0x4000 0x9000)) 0 1 0x4000 [4, 0, 0, 0x76] ∧
    (pubState (pub 0x4000 0x9000)).quiet 0 1 = true ∧ noQueues (pubState (pub 0x4000 0x9000)) 0 1 := by
  refine ⟨by decide +kernel, ⟨?_, ?_⟩, by decide +kernel, by unfold noQueues; decide⟩
  · rintro (_ | k) a h
    · rfl
    · simp only [show pagesOf 0x4000 ([4, 0, 0, 0x76] : List Byte).length = [0x4000] by decide, List.mem_singleton, List.take_succ_cons, List.take_nil] at h ⊢
      subst h; decide +kernel
  · intro a ha b hb hab
    simp only [show pagesOf 0x4000 ([4, 0, 0, 0x76] : List Byte).length = [0x4000] by decide, List.mem_singleton] at ha hb
    exact absurd (ha.trans hb.symm) hab
theorem witness_LoaderCommands :
    let q := fun (c : List Byte) => LoaderCmd.of ((ringed c).mem.readN (0x1000 + 64 * 1) 64)
    headed (ringed (lcmd 1 0 0x2000 0x1000)) .loader [] ∧ (ringed (lcmd 1 0 0x2000 0x1000)).ready = true ∧ (ringed (lcmd 1 0 0x2000 0x1000)).moving = [] ∧ moveOn.moving ≠ [] ∧
    ((ringed (lcmd 1 0 0x2000 0x1000)).poolOk 0x1040 = true ∧ (ringed (lcmd 1 0 0x2000 0x1000)).badIn 0x1040 64 = none) ∧ (ringed []).poolOk (2 ^ 43 + 64) = false ∧
    commandBad (q (lcmd 1 0 0x2000 0x1000)) = false ∧ commandBad (q (lcmd 1 1 0x2000 0x1000)) = true ∧ commandBad (q (lcmd 2 0 0x4000 0x2000)) = false ∧
    (match (ringed (lcmd 1 0 0x2000 0x1000)).container 0x2000 0x1000 with | .bad => true | _ => false) = true ∧
    (match contState.container 0x2000 0x1000 with | .sound gs => gs.findSome? (contState.segmentFails 0 0x2000) | _ => none) = some 2 ∧
    (match ({ contState with badLines := [0x2000 / 64] } : State).container 0x2000 0x1000 with | .lost l => some l | _ => none) = some (0x2000 / 64) ∧
    ((q (lcmd 3 0 (2 ^ 43) 0)).src.toNat = 2 ^ 43 ∧ contState.poolOk (2 ^ 43) = false ∧ ∃ d, contState.partOf d = 0) ∧
    ((q (lcmd 3 0 0x2000 0)).src.toNat = 0x2000 ∧ contState.poolOk 0x2000 = true ∧ contState.poolOk (0x2000 + 79) = true) ∧
    (contState.memWf ∧ (q (lcmd 1 0 0x2000 0x1000)).status.toNat = 0x100 ∧ poolOf 0x100 = 0 ∧ contState.poolOk 0x100 = true) ∧
    ((pubState (pub 0x4000 0x9000)).areaAt 0 1 0x4000 4 = some area ∧ ((pubState (pub 0x4000 0x9000)).loaderWrite 0 1 0x4000 [4, 0, 0, 0x76]).1 = true ∧
      ∀ e ∈ (pub 0x4000 0x9000).pairs, (area.base.toNat ≤ e.1.toNat ∧ e.1.toNat < area.base.toNat + area.size) ∧ area.area.toNat ≤ e.2.toNat ∧ e.2.toNat < area.area.toNat + area.bytes) ∧
    (pubState (pub 0x5000 0x9000)).areaAt 0 1 0x5000 4 = none ∧ ¬0x9100 < area.base.toNat + area.size := by
  refine ⟨rfl, rfl, rfl, by decide, by decide, by decide +kernel, by decide, by decide, by decide, by decide +kernel, by decide +kernel, by decide +kernel, by decide +kernel, by decide +kernel, ⟨?_, by decide⟩, ⟨rfl, by decide +kernel, by simp [pub, area]⟩, by decide +kernel, by simp [area]⟩
  unfold State.memWf; decide
theorem witness_FaultsAreTaken : (who ctlLanes).gid ≠ 0 ∧ (who svLanes).gid = 0 ∧ (ctlLanes.part (ctlLanes.partOf 0)).halt = false ∧ (stopped0.part 0).halt = true ∧
    (svLanes.die 0).sv.shared.wf = true := by decide

/-! ### Well-formed words -/

/-- Each check of `wellFormed` refuses a term: an event is no word; a pair that is not aligned, a system register that does not exist, a queue record
that is not aligned, a zero lifetime (the word's own limits); k192; c32 in a carder-only word. A neighbour of each passes. -/
theorem test_wellFormed_refuses : Instr.powerOnBringup.wellFormed = false ∧ (Instr.ld .x64 5 2 6 0).wellFormed = false ∧ (Instr.sysrd 5 0x0FF).wellFormed = false ∧
    (Instr.qpush 10 17).wellFormed = false ∧ (Instr.hintLife 0).wellFormed = false ∧ (Instr.kadd 192 0).wellFormed = false ∧ (Instr.cldx .n32 32 1 2).wellFormed = false := by decide
theorem test_wellFormed_accepts : Instr.nop.wellFormed = true ∧ (Instr.ld .x64 6 2 6 0).wellFormed = true ∧ (Instr.sysrd 5 0x101).wellFormed = true ∧
    (Instr.qpush 10 16).wellFormed = true ∧ (Instr.hintLife 1).wellFormed = true ∧ (Instr.kadd 191 0).wellFormed = true ∧ (Instr.cldx .n32 31 1 2).wellFormed = true := by decide

/-! ### Decoding: the words that the spec prints (its chapters' "Example" and "Word value" columns), by family -/

theorem test_decode_integer : decodeTableWord 32 0x0028C380 = some (.iadd 5 6 7) ∧ decodeTableWord 32 0x1428C380 = some (.idivI32 5 6 7 0) ∧
    decodeTableWord 32 0x1428C383 = some (.iremN32 5 6 7 0) := by decide
theorem test_decode_uniform : decodeTableWord 32 0x3001F1F8 = some (.kadd 62 63) ∧ decodeTableWord 32 0x3400A00E = some (.kmovi 20 0x0E) ∧
    decodeTableWord 32 0x3A006000 = some (.movts 0 12) := by decide
theorem test_decode_float : decodeTableWord 32 0x40408303 = some (.ffma 8 4 6 0) ∧ decodeTableWord 32 0x42182102 = some (.fcmp .lt 3 1 2 0) ∧
    decodeTableWord 32 0x44288001 = some (.frsq 5 4 0) ∧ decodeTableWord 32 0x4A494586 = some (.hfma2B16 9 10 11 0) ∧ decodeTableWord 32 0x50408300 = some (.fdiv 8 4 6 0) := by decide
theorem test_decode_cross : decodeTableWord 32 0x60102183 = some (.shfl .xor 2 1 3 0) ∧ decodeTableWord 32 0x62206002 = some (.vote .ballot 4 3 0) ∧
    decodeTableWord 32 0x64388180 = some (.lredF32 .add 7 4 0) ∧ decodeTableWord 32 0x64408200 = some (.lscanInclF32 .add 8 4 0) ∧
    decodeTableWord 32 0x66102181 = some (.gshfl .rot 2 1 3 0) := by decide
theorem test_decode_form : decodeTableWord 32 0x6828C380 = some (.form 5 6 7) ∧ decodeTableWord 32 0x6A000000 = some .expand ∧ decodeTableWord 32 0x6A280001 = some (.hcount 5) ∧
    decodeTableWord 32 0x6C48A000 = some (.reform 9 20) := by decide
theorem test_decode_control : decodeTableWord 32 0x72280003 = some (.brc 5 3) ∧ decodeTableWord 32 0x76000002 = some .exit ∧ decodeTableWord 32 0x76000003 = some .yield ∧
    decodeTableWord 32 0x76000004 = some .nop ∧ decodeTableWord 32 0x7A000007 = some (.trapi 7) ∧ decodeTableWord 32 0x7C000000 = some (.brk 0) := by decide
theorem test_decode_memory : decodeTableWord 32 0x80204220 = some (.ld .w32 4 1 2 2) ∧ decodeTableWord 32 0x82218200 = some (.st .w32 4 6 2) ∧
    decodeTableWord 32 0x84400309 = some (.fill .x64 8 3 0) ∧ decodeTableWord 32 0x86400309 = some (.spill .x64 8 3) ∧ decodeTableWord 32 0x88184500 = some (.brld 3 1 5 0) ∧
    decodeTableWord 32 0x8A300209 = some (.gld .x64 6 2 0) := by decide
theorem test_decode_barriers : decodeTableWord 32 0x92000005 = some (.waitCnt .copy 0) ∧ decodeTableWord 32 0x923A3003 = some (.rconsTake 7 70) ∧
    decodeTableWord 32 0x902A0216 = some (.ctest 5 64 66) := by decide
theorem test_decode_bulk : decodeTableWord 32 0xA0114180 = some (.tcopy 2 40 48) ∧ decodeTableWord 32 0xA0094183 = some (.crun 1 40 48) ∧
    decodeTableWord 32 0xAA408601 = some (.csect .n32 8 4 12) ∧ decodeTableWord 32 0xAC000001 = some .chalt := by decide
theorem test_decode_names : decodeTableWord 32 0xB020F000 = some (.want 4 30) ∧ decodeTableWord 32 0xB818A0AA = some (.phase .die 20 21) ∧ decodeTableWord 32 0xB8180003 = some (.bar .die) := by decide
theorem test_decode_tile : decodeTableWord 32 0xC1002983 = some (.tmma 8 0 1 2 3 false true true 0) ∧ decodeTableWord 32 0xC4008000 = some (.tld false 0 2 0 0) ∧
    decodeTableWord 32 0xC6118000 = some (.tst false 2 6 0) ∧ decodeTableWord 32 0xC840C000 = some (.tdrain 8 3 0 0) ∧ decodeTableWord 32 0xC840C00A = some (.tdrainFmt 2 8 3 0 0) ∧
    decodeTableWord 32 0xCA290300 = some (.trowrd 5 8 6 0) ∧ decodeTableWord 32 0xCA408301 = some (.trowwr 8 4 6) ∧ decodeTableWord 32 0xCA408002 = some (.tscale 8 4) ∧
    decodeTableWord 32 0xCA400003 = some (.tzero 8) ∧ decodeTableWord 32 0xCC428000 = some (.tdred 8 80) := by decide
theorem test_decode_sync : decodeTableWord 32 0xD0204308 = some (.atom .add 4 2 6 1) ∧ decodeTableWord 32 0xD2404603 = some (.acas128 8 2 12 0) ∧ decodeTableWord 32 0xD2294004 = some (.sld 5 10 0) ∧
    decodeTableWord 32 0xD2004305 = some (.sst 2 6) ∧ decodeTableWord 32 0xD4004300 = some (.ared .add 2 6) ∧ decodeTableWord 32 0xD8005080 = some (.qpush 10 16) ∧
    decodeTableWord 32 0xD82850C1 = some (.qpop 5 10 24) ∧ decodeTableWord 32 0xD8305002 = some (.qlen 6 10) ∧ decodeTableWord 32 0xD8005883 = some (.nemit 11 16) := by decide
theorem test_decode_order : decodeTableWord 32 0xE000A0C0 = some (.bind 20 24) ∧ decodeTableWord 32 0xE019E001 = some (.acq .die 60) ∧ decodeTableWord 32 0xE019E002 = some (.rel .die 60) ∧
    decodeTableWord 32 0xE0200003 = some (.tfence .pkg) ∧ decodeTableWord 32 0xE0000004 = some .ifence ∧ decodeTableWord 32 0xE0080005 = some (.dinv .core) := by decide
theorem test_decode_system : decodeTableWord 32 0xF0288100 = some (.sysrd 5 0x102) ∧ decodeTableWord 32 0xF0308101 = some (.syswr 0x102 6) ∧ decodeTableWord 32 0xF0000002 = some .trapret ∧
    decodeTableWord 32 0xF0380283 = some (.eqrd 7 0 5) ∧ decodeTableWord 32 0xF0388604 = some (.eqwr 1 12 7) ∧ decodeTableWord 32 0xF0000185 = some (.haltp 3) ∧
    decodeTableWord 32 0xF0209187 = some (.sysrdX64 4 0x123) ∧ decodeTableWord 32 0xF0309088 = some (.syswrX64 0x121 6) ∧ decodeTableWord 32 0xF0400006 = some (.icinv 8) := by decide
theorem test_decode_hints : decodeTableWord 32 0xFF400003 = some (.hintPred 3) ∧ decodeTableWord 32 0xFF000032 = some (.hintLife 50) ∧
    (match decodeTableWord 32 0xFE400013 with | some (.hintOrd .die .rel _) => true | _ => false) = true := by decide
/-- Reserved opcodes and fields are no words. -/
theorem test_decode_reserved : decodeTableWord 32 0xFA000000 = none ∧ decodeTableWord 32 0x0028C38F = none ∧ decodeTableWord 32 0xFFFFFFFF = none ∧ decodeTableWord 16 0 = none := by decide

/-! ### Results worked out by hand from the rules -/

/-- Two lanes with g6 = 7, 0x7FFFFFFF and g7 = 0xFFFFFFFF, 1. -/
def two7 : State := onLanes (lanesG 2 [] fun x => [(6, if x = 0 then 7 else 0x7FFFFFFF), (7, if x = 0 then 0xFFFFFFFF else 1)])
/-- Register 5 of the lanes after a word. -/
def g5 (i : Instr) : List Word := match exec i two7 with | .next t => [t.g (who two7) 0 5, t.g (who two7) 1 5] | _ => []
/-- Sums wrap modulo 2^32; saturated ones clamp (R154). -/
theorem test_iadd : g5 (.iadd 5 6 7) = [6, 0x80000000] ∧ g5 (.iaddSatI32 5 6 7) = [6, 0x7FFFFFFF] ∧ g5 (.iaddSatN32 5 6 7) = [0xFFFFFFFF, 0x80000000] := by decide
/-- Signed against unsigned: −1 < 7 < 2^32 − 1 (R156). -/
theorem test_minmax : g5 (.iminI32 5 6 7) = [0xFFFFFFFF, 1] ∧ g5 (.iminN32 5 6 7) = [7, 1] ∧ g5 (.icmp .ltI 5 6 7) = [0, 0] := by decide
/-- 7 / −1 = −7, and the remainder has the dividend's sign (R157). -/
theorem test_div : g5 (.idivI32 5 6 7 0) = [0xFFFFFFF9, 0x7FFFFFFF] ∧ g5 (.iremI32 5 6 7 0) = [0, 0] ∧ g5 (.idivN32 5 6 7 0) = [0, 0x7FFFFFFF] := by decide
/-- A source that is the destination too; an immediate that is sign-extended (R154). -/
theorem test_same_register : (match exec (.isub 6 7 6) two7 with | .next t => [t.g (who two7) 0 6, t.g (who two7) 1 6] | _ => []) = [0xFFFFFFF8, 0x80000002] ∧
    g5 (.addi 5 6 0x1FFF) = [6, 0x7FFFFFFE] := by decide

end Sys2Proof.Tests
end

section
/-! PROOFS. A step fetches, decodes and performs the word of the thread or carder that issues (R17, R263, R348, R351): O34. -/
namespace Sys2Proof.Machine
open Sys2Proof.Claims

/-! ## What a step does with the thread that issues -/

theorem step_issue {s : State} {a : Agent} {rest : List Agent} (h : s.issue = a :: rest) :
    step s = after ({ s with issue := rest }.issueWord a) := by
  unfold step; rw [h]

theorem Who.ofLanes_home {d : DieId} {gid : Nat} {G : Group} {ls : List Lane} {w : Who} (h : Who.ofLanes d gid G ls = some w) :
    w.d = d ∧ w.gid = gid ∧ w.hood = none := by
  cases ls with
  | nil => cases h
  | cons l ls => cases h; exact ⟨rfl, rfl, rfl⟩
/-- The die and the group of the threads that a hood or a wave stands for are the agent's own. -/
theorem State.who_lanes {s : State} {d : DieId} {gid slot : Nat} {pc : DWord} {w : Who} (h : s.who (.lanes d gid slot pc) = some w) :
    w.d = d ∧ w.gid = gid := by
  simp only [State.who] at h
  split at h
  · cases h
  · exact ⟨(Who.ofLanes_home h).1, (Who.ofLanes_home h).2.1⟩
theorem State.who_hood {s : State} {d : DieId} {gid lo : Nat} {w : Who} (h : s.who (.hood d gid lo) = some w) :
    w.d = d ∧ w.gid = gid ∧ w.hood = some lo := by
  simp only [State.who] at h
  split at h
  · cases h
  · split at h
    · cases h
    · cases h; exact ⟨rfl, rfl, rfl⟩

/-- A thread that does not wait fetches and performs the word at its PC (R17, R263). -/
theorem State.issueWord_thread {s : State} {a : Agent} {w : Who} (hw : s.who a = some w) (ha : ∀ d gid x, a ≠ .waiting d gid x)
    (hwait : w.waitsAt s = none) :
    s.issueWord a = match s.fetch w.d w.core (w.gid = 0) w.pc with
      | .stall => .next s
      | .fault cause va => .next (s.trap w { cause := cause, faddr := va, xs := w.all })
      | .word v t => exec (decoded (t.isSilol w.d w.gid w.pc) v) { t with cur := a } := by
  cases a with
  | none => cases hw
  | carder d inst => cases hw
  | gld d gid id => cases hw
  | waiting d gid x => exact absurd rfl (ha d gid x)
  | hood d gid lo =>
    obtain ⟨rfl, rfl, -⟩ := State.who_hood hw
    simp only [State.issueWord, hw, hwait] <;> rfl
  | lanes d gid slot pc =>
    obtain ⟨rfl, rfl⟩ := State.who_lanes hw
    simp only [State.issueWord, hw, hwait] <;> rfl

/-! ## Fetching -/

section
variable {s : State} {d : DieId} {agent : Nat} {sup : Bool} {pc : DWord} {da : Nat} (ht : s.translate d agent sup pc .fetch = .ok da)
  (hs : s.stalled da = false) (hws : s.walkStalled d agent sup pc = false)
include ht hs hws

theorem State.fetch_of_line {line : List Byte} (hl : s.fetchLine d agent (da / 128) = some line) :
    s.fetch d agent sup pc = .word (BitVec.ofNat 32 (ofBytes ((line.drop (da % 128)).take 4)))
      ((s.fillLine d agent (da / 128) line).fillTlb d agent sup pc) := by
  simp [State.fetch, ht, hs, hws, hl]
/-- A line in error gives no word (R310). -/
theorem State.fetch_of_bad_line (hl : s.fetchLine d agent (da / 128) = none) : s.fetch d agent sup pc = .fault Cause.ecc pc := by
  simp [State.fetch, ht, hs, hws, hl]
end

theorem State.active_fillLine (s : State) (d e : DieId) (agent line : Nat) (bs : List Byte) :
    ((s.fillLine d agent line bs).die e).active = (s.die e).active := by
  unfold State.fillLine
  by_cases h : d = e
  · subst h; rw [State.die_modDie]
  · rw [State.die_modDie_ne _ _ _ _ h]
theorem State.active_fillTlb (s : State) (d e : DieId) (agent : Nat) (sup : Bool) (va : DWord) :
    ((s.fillTlb d agent sup va).die e).active = (s.die e).active := by
  unfold State.fillTlb
  simp only
  split
  · by_cases h : d = e
    · subst h; rw [State.die_modDie]
    · rw [State.die_modDie_ne _ _ _ _ h]
  · rfl
/-- Filling the caches moves no portable range (R348). -/
theorem State.isSilol_filled (s : State) (d e : DieId) (agent line : Nat) (bs : List Byte) (sup : Bool) (va : DWord) (gid : Nat) (pc : DWord) :
    ((s.fillLine d agent line bs).fillTlb d agent sup va).isSilol e gid pc = s.isSilol e gid pc := by
  unfold State.isSilol
  rw [State.active_fillTlb, State.active_fillLine]

theorem decoded_ok {silol : Bool} {v : Word} {i : Instr} (h : (if silol then decodeSilol v else decode v) = .ok i) : decoded silol v = i := by
  unfold decoded; rw [h]
theorem decoded_error {silol : Bool} {v : Word} {e : DecodeError} (h : (if silol then decodeSilol v else decode v) = .error e) :
    decoded silol v = .malformedWord := by
  unfold decoded; rw [h]

/-! ## The word in main memory -/

theorem Mem.readN_drop (m : Mem) : ∀ (k a n : Nat), (m.readN a n).drop k = m.readN (a + k) (n - k)
  | 0, _, _ => rfl
  | k + 1, a, 0 => by simp [Mem.readN]
  | k + 1, a, n + 1 => by
    rw [Mem.readN, List.drop_succ_cons, Mem.readN_drop m k (a + 1) n, Nat.add_sub_add_right, Nat.add_right_comm, Nat.add_assoc]
theorem Mem.readN_take (m : Mem) : ∀ (k a n : Nat), k ≤ n → (m.readN a n).take k = m.readN a k
  | 0, _, _, _ => rfl
  | k + 1, a, n + 1, h => by
    rw [Mem.readN, List.take_succ_cons, Mem.readN_take m k (a + 1) n (Nat.le_of_succ_le_succ h), Mem.readN]

/-- Without a cached copy the line comes from main memory (R351). -/
theorem State.fetchLine_uncached {s : State} {d : DieId} {agent line : Nat} {bs : List Byte} (hc : ∀ e ∈ (s.die d).icache, e.line ≠ line)
    (h : s.fetchLine d agent line = some bs) : bs = s.mem.readN (line * 128) 128 := by
  have none_found (p : ILine → Bool) : (s.die d).icache.find? (fun e => p e && e.line == line) = none :=
    List.find?_eq_none.mpr fun e he => by simp [hc e he]
  simp only [State.fetchLine, none_found] at h
  split at h
  · cases h
  · exact (Option.some.inj h).symm
/-- The four bytes of an aligned word within its line are those that main memory holds there. -/
theorem Mem.word_in_line (m : Mem) (da : Nat) (h : da % 4 = 0) : ((m.readN (da / 128 * 128) 128).drop (da % 128)).take 4 = m.readN da 4 := by
  rw [Mem.readN_drop, Mem.readN_take _ _ _ _ (by omega), Nat.mul_comm, Nat.div_add_mod]

/-! ## Carders -/

/-- The model's `carderPc` finds the address that R348 gives. -/
theorem State.carderPc_of_fetches {s : State} {d : DieId} {sup : Bool} {pc pc' : DWord} (h : carderFetches s d sup pc pc') :
    s.carderPc d sup pc = pc' := by
  unfold carderFetches at h
  unfold State.carderPc
  cases sup with
  | true =>
    obtain ⟨-, rfl⟩ | ⟨a, e, hAs, -⟩ := h
    · rfl
    · cases hAs
  | false =>
    simp only [Bool.false_eq_true, if_false] at h ⊢
    obtain ⟨hno, rfl⟩ | ⟨a, e, hAs, hlo, hhi, hfind, rfl⟩ := h
    · rw [List.findSome?_eq_none_iff.mpr]
      intro a ha
      split
      · next hin =>
        rw [Option.map_eq_none_iff, List.find?_eq_none]
        intro e he
        have := hno a ha e he
        simp only [beq_iff_eq]
        omega
      · rfl
    · simp [hAs, hlo, hhi, hfind]

/-- A carder runs a program of the supervisor wave. -/
def Carder.forSup (c : Carder) : Bool := match c.current with
  | some q => q.sup
  | none => false
theorem State.issueWord_carder (s : State) (d : DieId) (inst : Nat) :
    s.issueWord (.carder d inst) =
      let c := (s.die d).carder inst
      match s.fetch d (carderAgent inst) c.forSup (s.carderPc d c.forSup c.ctl.pc) with
      | .stall => .next s
      | .fault cause va => .next (s.card d inst cause c.ctl.pc va)
      | .word w t => exec (decoded false w) { t with cur := .carder d inst } := rfl
/-- A carder performs the word that it fetches. -/
theorem State.issueWord_carder_of_word {s t : State} {d : DieId} {inst : Nat} {c : Carder} {v : Word} (hc : (s.die d).carder inst = c)
    (h : s.fetch d (carderAgent inst) c.forSup (s.carderPc d c.forSup c.ctl.pc) = .word v t) :
    s.issueWord (.carder d inst) = exec (decoded false v) { t with cur := .carder d inst } := by
  rw [State.issueWord_carder, hc]
  simp only [h]

/-! ## Around a step -/

theorem State.pass_seq (s : State) (n : Nat) : (s.pass n).seq = s.seq := by
  unfold State.pass; split <;> rfl
/-- When the words of a core cycle are through, its snapshot goes and time passes; every step moves the counter on. -/
theorem after_next (t : State) : after (.next t) =
    .next (if t.issue = [] then { t.pass (Config.cycles t.seq) with snap := [], kwr := [], seq := t.seq + 1, cur := .none }
      else { t with seq := t.seq + 1, cur := .none }) := by
  unfold after State.tick State.endCycle
  simp only [List.isEmpty_iff]
  split
  · simp only [State.pass_seq]
  · rfl

/-! ## The obligation, part by part -/

/-- A thread that waits, whose word has issued, performs that word again (R263). -/
theorem step_waiting {s : State} {d : DieId} {gid x : Nat} {rest : List Agent} {G : Group} {l : Lane} {i : Instr}
    (h : s.issue = .waiting d gid x :: rest) (hG : s.group d gid = some G) (hl : G.lane x = some l) (hi : l.ctl.word = some i) :
    step s = after (exec i { s with issue := rest, cur := .waiting d gid x }) := by
  have hG' : ({ s with issue := rest } : State).group d gid = some G := hG
  rw [step_issue h]
  simp only [State.issueWord, hG', Option.bind_some, hl, hi]
theorem step_waiting_hood {s : State} {d : DieId} {gid lo : Nat} {rest : List Agent} {G : Group} {k : Hood} {i : Instr}
    (h : s.issue = .hood d gid lo :: rest) (hG : s.group d gid = some G) (hk : G.hood lo = some k) (hw : k.ctl.wait.waits = true)
    (hi : k.ctl.word = some i) : step s = after (exec i { s with issue := rest, cur := .hood d gid lo }) := by
  have hG' : ({ s with issue := rest } : State).group d gid = some G := hG
  rw [step_issue h]
  simp only [State.issueWord, State.who, hG', hk, Who.waitsAt, Option.bind_some, hw, if_true, hi]

/-- Settles O34: `step` has the first agent of `issue` act, `issueWord_thread` and `issueWord_carder` say what it does with what it fetches, and filling the
caches changes nothing that decides how the word is decoded. -/
theorem stepRunsDecodedInstruction : Obligations.StepRunsDecodedInstruction := by
  unfold Obligations.StepRunsDecodedInstruction
  refine ⟨?thread, fun s d gid x rest G l i => step_waiting, fun s d gid lo rest G k i => step_waiting_hood, ?carder, after_next⟩
  case thread =>
    intro s a rest w da hissue s1 hw ha hwait ht hs hws
    have hstep : step s = after (s1.issueWord a) := step_issue hissue
    rw [State.issueWord_thread hw ha hwait] at hstep
    refine ⟨fun line hl => ?_, fun hl => ?_⟩
    · rw [State.fetch_of_line ht hs hws hl] at hstep
      simp only [State.isSilol_filled] at hstep
      refine ⟨fun i hi => ?_, fun e he => ?_, fun hda hc => ?_⟩
      · rwa [decoded_ok hi] at hstep
      · rwa [decoded_error he] at hstep
      · rw [State.fetchLine_uncached hc hl, Mem.word_in_line _ _ hda]; rfl
    · rwa [State.fetch_of_bad_line ht hs hws hl] at hstep
  case carder =>
    intro s d inst rest da i line pc hissue s1 c sup hpc ht hs hws hl hi
    have hat : s1.carderPc d c.forSup c.ctl.pc = pc := State.carderPc_of_fetches hpc
    have hword := State.fetch_of_line ht hs hws hl
    rw [← hat] at hword
    have hperf := State.issueWord_carder_of_word rfl hword
    rw [decoded_ok (silol := false) hi, hat] at hperf
    exact (step_issue hissue).trans (congrArg after hperf)

end Sys2Proof.Machine
end

section
/-! PROOFS. Words that set registers of their participants, and the words on system registers (R325, R326): the first half of O52. -/
namespace Sys2Proof.Machine
open Sys2Proof.Claims

/-! ## Register writes of threads -/

/-- Apart from the threads of the issuing group `t` is `s`; register `r` of index `x` holds `v x r`, or what it held where that is none. -/
structure WritesRegs (s t : State) (w : Who) (v : Nat → Nat → Option Word) : Prop where
  held   : ∃ G, t.group w.d w.gid = some G ∧ G.holds w
  still  : t.still w = s.still w
  regs   : ∀ x ∈ w.all, ∀ r, t.g w x r = (v x r).getD (s.g w x r)
  others : ∀ h x r, h ≠ w.hood ∨ (h = none ∧ x ∉ w.all) → t.g { w with hood := h } x r = s.g { w with hood := h } x r

theorem WritesRegs.trans {s t u : State} {w : Who} {v v' : Nat → Nat → Option Word} (h : WritesRegs s t w v) (h' : WritesRegs t u w v') :
    WritesRegs s u w fun x r => (v' x r).or (v x r) where
  held := h'.held
  still := h'.still.trans h.still
  regs x hx r := by
    rw [h'.regs x hx, h.regs x hx]
    cases v' x r <;> rfl
  others k x r hk := (h'.others k x r hk).trans (h.others k x r hk)

/-- A word that each wave performs by itself completes when its body has written registers. -/
theorem waveWord_writes {s t : State} {i : Instr} {w : Who} {G : Group} {v : Nat → Nat → Option Word} (h : Ready s i w G) (hs : Solo G w)
    (body : Who → State → Eff) (hb : body (s.taking w) s = .ok t none) (ht : WritesRegs s t w v) :
    ∃ u, waveWord i body s = .next u ∧ Goes s u s w v w.next := by
  obtain ⟨G', hG', hold⟩ := ht.held
  exact waveWord_goes h hs body none hb hG' hold ht.still ht.regs ht.others

theorem uni_at (v : Word) (lo x : Nat) : (uni v).at lo x = v := by simp [Form.at, uni]
theorem uni_norm (v : Word) (lo hi : Nat) : (uni v).norm lo hi = uni v := by simp [Form.norm, uni]

/-- Each lane of `P` gets its value. -/
theorem State.setLanes_writes {s : State} {w : Who} {G : Group} (hg : s.group w.d w.gid = some G) (hG : G.holds w) (hh : w.hood = none)
    {P : List Nat} (hP : ∀ x ∈ P, x ∈ w.all) {r : Nat} (hr : r < 64) (v : Nat → Word) :
    WritesRegs s (s.setLanes w P r v) w (oneReg P r v) := by
  have hgr := State.setLanes_group s w P r v
  rw [hg] at hgr
  have ew : ({ w with hood := none } : Who) = w := by cases w; cases hh; rfl
  have hlane : ∀ x ∈ w.all, (G.lane x).isSome := by simpa only [Group.holds, hh] using hG
  refine ⟨⟨_, hgr, Group.holds_setLanes G w P _ (fun _ => rfl) hG⟩, State.setLanes_still .., fun x hx q => ?_, fun k x q hk => ?_⟩
  · have e := State.setLanes_g s w P r v x q
    rw [ew] at e
    rw [e, oneReg_at]
    have hl : ∃ G, s.group w.d w.gid = some G ∧ (G.lane x).isSome := ⟨G, hg, hlane x hx⟩
    simp only [hr, hl, and_true]
  · cases k with
    | some lo => exact State.setLanes_g_hood ..
    | none =>
      have hx : x ∉ P := fun hx => (hk.resolve_left (by simp [hh])).2 (hP x hx)
      rw [State.setLanes_g, if_neg]
      simp [hx]

/-- A hood's register becomes UNIFORM. -/
theorem State.setForm_uni_writes {s : State} {w : Who} {G : Group} (hg : s.group w.d w.gid = some G) (hG : G.holds w) {lo : Nat}
    (hh : w.hood = some lo) {r : Nat} (hr : r < 64) (v : Word) : WritesRegs s (s.setForm w r (uni v)) w (oneReg w.all r fun _ => v) := by
  have hgr := State.setForm_group s w lo r (uni v) hh
  rw [hg] at hgr
  obtain ⟨k, hk⟩ : ∃ k, G.hood lo = some k := Option.isSome_iff_exists.mp (by simpa only [Group.holds, hh] using hG)
  refine ⟨⟨_, hgr, ?_⟩, State.setForm_still .., fun x hx q => ?_, fun l x q hl => ?_⟩
  · simp [Group.holds, hh, Group.hood_setForm, hk]
  · simp only [State.g, hgr, hg, hh, Group.g, Option.map_some, Group.hood_setForm, hk, if_true, vget_vput, oneReg_at]
    by_cases hq : q = r
    · subst hq; simp [hr, hx, uni_norm, uni_at]
    · simp [hq, Ne.symm hq]
  · simp only [State.g, hgr, hg, Option.map_some, Group.g]
    cases l with
    | none => rfl
    | some l =>
      have hne : l ≠ lo := fun e => (hl.resolve_right (by simp)) (by rw [hh, e])
      simp only [Group.hood_setForm, hne, if_false]
      cases G.hood l <;> rfl

/-- SETTING ONE REGISTER of the participants `P`, who in a hood are all of its indices. -/
theorem State.setUni_writes {s : State} {w : Who} {G : Group} (hg : s.group w.d w.gid = some G) (hG : G.holds w) {P : List Nat}
    (hP : ∀ x ∈ P, x ∈ w.all) (hhood : w.hood ≠ none → P = w.all) {r : Nat} (hr : r < 64) (v : Word) :
    WritesRegs s (s.setUni { w with xs := P } r v) w (oneReg P r fun _ => v) := by
  obtain hh | ⟨lo, hh⟩ := Option.eq_none_or_eq_some w.hood
  · have : s.setUni { w with xs := P } r v = s.setLanes w P r fun _ => v := by simp only [State.setUni, hh]; rfl
    rw [this]
    exact State.setLanes_writes hg hG hh hP hr _
  · have : s.setUni { w with xs := P } r v = s.setForm w r (uni v) := by simp only [State.setUni, State.setForm, hh]
    rw [this, hhood (by simp [hh])]
    exact State.setForm_uni_writes hg hG hh hr v

/-! ## Threads that perform a system word -/

/-- Setting a register of the participants, as `setUni_writes` says, for threads that stand ready. -/
theorem Ready.setUni_writes {s : State} {i : Instr} {w : Who} {G : Group} (h : Ready s i w G) {r : Nat} (hr : r < 64) (v : Word) :
    WritesRegs s (s.setUni (s.taking w) r v) w (oneReg (s.selected w) r fun _ => v) :=
  State.setUni_writes h.group h.holds (fun _ => State.selected_sub s w) h.whole hr v
/-- Setting a register pair. -/
theorem Ready.setUni_pair_writes {s : State} {i : Instr} {w : Who} {G : Group} (h : Ready s i w G) {r : Nat} (hr : r + 1 < 64) (lo hi : Word) :
    WritesRegs s ((s.setUni (s.taking w) r lo).setUni (s.taking w) (r + 1) hi) w
      (someRegs (s.selected w) r 2 fun _ j => if j = 0 then lo else hi) := by
  have first := h.setUni_writes (r := r) (by omega) lo
  obtain ⟨G', hG', hold⟩ := first.held
  have second := State.setUni_writes hG' hold (fun _ => State.selected_sub s w) h.whole hr hi
  refine Eq.subst (motive := WritesRegs s _ w) ?_ (first.trans second)
  funext x q
  unfold someRegs oneReg
  by_cases hx : x ∈ s.selected w
  · by_cases h0 : q = r
    · subst h0; simp [hx]
    · by_cases h1 : q = r + 1
      · subst h1; simp [hx]
      · have : ¬(r ≤ q ∧ q < r + 2) := by omega
        simp [hx, h0, h1, this]
  · simp [hx]

/-- The trap of a word that each wave performs by itself (R310, R325). -/
theorem waveWord_trap {s : State} {i : Instr} {w : Who} {G : Group} (h : Ready s i w G) (hs : Solo G w) (body : Who → State → Eff) {c : Cause} {fa : DWord}
    (hb : body (s.taking w) s = kfault (s.taking w) c fa) :
    waveWord i body s = .next (s.trap (s.taking w) { cause := c, faddr := fa, xs := s.selected w }) := by
  rw [waveWord_ready h hs body (by simp [hb, kfault]), hb]
  rfl

/-- A word that passes its checks is well-formed, and the supervisor wave's if it is a supervisor word (R35, R37). -/
theorem Ready.checked {s : State} {i : Instr} {w : Who} {G : Group} (h : Ready s i w G) :
    i.wellFormed = true ∧ (i.supervisor = true → w.gid = 0) := by
  have hcheck := h.check
  have hsel : (s.selected w).isEmpty = false := by simpa using h.sel
  simp only [State.precheck, h.group, hsel, Bool.false_eq_true, if_false] at hcheck
  split_ifs at hcheck with _ hword _ hsup
  simp only [Bool.or_eq_true, Bool.not_eq_true', not_or, Bool.not_eq_false] at hword
  simp only [Bool.and_eq_true, decide_eq_true_eq, not_and, not_not] at hsup
  exact ⟨hword.1, hsup⟩

/-! ## Reading system registers (R325) -/

theorem DWord.hi_eq (v : DWord) : v.hi = v.extractLsb' 32 32 := by
  unfold DWord.hi
  ext i hi
  simp
theorem sysrdBody_none {s : State} {w : Who} {n : BitVec 12} (wide : Bool) (r : Reg) (h : s.sysRead w.d n.toNat = none) :
    sysrdBody wide r n (s.taking w) s = kfault (s.taking w) Cause.baruse 0 := by
  have h' : s.sysRead (s.taking w).d n.toNat = none := h
  simp only [sysrdBody, h']
theorem sysrdBody_narrow {s : State} {w : Who} {n : BitVec 12} {v : DWord} (r : Reg) (h : s.sysRead w.d n.toNat = some v) :
    sysrdBody false r n (s.taking w) s = .ok (s.setUni (s.taking w) r.toNat (v.setWidth 32)) none := by
  have h' : s.sysRead (s.taking w).d n.toNat = some v := h
  simp only [sysrdBody, h', Bool.false_eq_true, if_false, DWord.lo]
theorem sysrdBody_wide {s : State} {w : Who} {n : BitVec 12} {v : DWord} (r : Reg) (h : s.sysRead w.d n.toNat = some v) :
    sysrdBody true r n (s.taking w) s =
      .ok ((s.setUni (s.taking w) r.toNat (v.setWidth 32)).setUni (s.taking w) (r.toNat + 1) (v.extractLsb' 32 32)) none := by
  have h' : s.sysRead (s.taking w).d n.toNat = some v := h
  simp only [sysrdBody, h', if_true, DWord.lo, DWord.hi_eq]

theorem exec_sysrd (r : Reg) (n : BitVec 12) (s : State) : exec (.sysrd r n) s = waveWord (.sysrd r n) (sysrdBody false r n) s := rfl
theorem exec_sysrdX64 (r : Reg) (n : BitVec 12) (s : State) : exec (.sysrdX64 r n) s = waveWord (.sysrdX64 r n) (sysrdBody true r n) s := rfl
theorem exec_syswr (n : BitVec 12) (a : Reg) (s : State) : exec (.syswr n a) s = waveWord (.syswr n a) (withSource 1 a (syswrBody n)) s := rfl
theorem exec_syswrX64 (n : BitVec 12) (a : Reg) (s : State) : exec (.syswrX64 n a) s = waveWord (.syswrX64 n a) (withSource 2 a (syswrBody n)) s := rfl

theorem sysrd_reads {s : State} {w : Who} {G : Group} {r : Reg} {n : BitVec 12} (hs : Solo G w) (h : Ready s (.sysrd r n) w G) :
    (s.sysRead w.d n.toNat = none → trapsAt s w (.sysrd r n) Cause.baruse 0) ∧
    ∀ v, s.sysRead w.d n.toNat = some v → Completes (.sysrd r n) s s w (oneReg (s.selected w) r.toNat fun _ => v.setWidth 32) := by
  unfold trapsAt Completes
  rw [exec_sysrd]
  exact ⟨fun hn => waveWord_trap h hs _ (sysrdBody_none false r hn),
    fun v hv => waveWord_writes h hs _ (sysrdBody_narrow r hv) (h.setUni_writes r.isLt _)⟩

theorem Instr.ok_of_wellFormed {i : Instr} (h : i.wellFormed = true) : i.use.ok = true := by
  simp only [Instr.wellFormed, Bool.and_eq_true] at h
  obtain ⟨⟨⟨-, hok⟩, -⟩, -⟩ := h
  exact hok
/-- A register pair begins at an even register (R20), so that it lies within the file. -/
theorem even_of_sysrdX64_ok {r : Reg} {n : BitVec 12} (h : (Instr.sysrdX64 r n).use.ok = true) : r.toNat % 2 = 0 := by
  have h' : (aligned r.toNat 2 && (match sysInfo n.toNat with | some i => i.wide | none => false)) = true := h
  simpa [aligned] using (Bool.and_eq_true_iff.mp h').1

theorem sysrdX64_reads {s : State} {w : Who} {G : Group} {r : Reg} {n : BitVec 12} (hs : Solo G w) (h : Ready s (.sysrdX64 r n) w G) :
    (s.sysRead w.d n.toNat = none → trapsAt s w (.sysrdX64 r n) Cause.baruse 0) ∧
    ∀ v, s.sysRead w.d n.toNat = some v →
      Completes (.sysrdX64 r n) s s w (someRegs (s.selected w) r.toNat 2 fun _ j => if j = 0 then v.setWidth 32 else v.extractLsb' 32 32) := by
  unfold trapsAt Completes
  rw [exec_sysrdX64]
  refine ⟨fun hn => waveWord_trap h hs _ (sysrdBody_none true r hn), fun v hv => ?_⟩
  have heven : r.toNat % 2 = 0 := even_of_sysrdX64_ok (Instr.ok_of_wellFormed h.checked.1)
  have hr : r.toNat < 64 := r.isLt
  exact waveWord_writes h hs _ (sysrdBody_wide r hv) (h.setUni_pair_writes (by omega) _ _)

/-! ## Writing them (R325, R326) -/

theorem State.modSelected_sv {s t : State} {d : DieId} {f : Bank → Bank} (h : s.modSelected d f = some t) : (t.die d).sv = (s.die d).sv := by
  unfold State.modSelected at h
  simp only at h
  split_ifs at h <;> cases h <;> simp
theorem State.dbgWrite_die (s : State) (p : PartId) (v : Word) (d : DieId) : (s.dbgWrite p v).die d = s.die d := by
  unfold State.dbgWrite State.haltRequest State.raiseEvent
  simp only
  split <;> rfl
theorem State.swap_sv {s t : State} {d : DieId} {c : Ctx} (h : s.swap d c = some t) : (t.die d).sv = (s.die d).sv := by
  unfold State.swap at h
  simp only at h
  split_ifs at h
  cases h; simp
theorem State.shadowWrite_sv {s t : State} {d : DieId} {v : Word} (h : s.shadowWrite d v = some t) : (t.die d).sv = (s.die d).sv := by
  unfold State.shadowWrite State.shadowSave State.shadowLoad State.shadowCreate at h
  simp only at h
  split at h
  · cases h; rfl
  all_goals
    split_ifs at h
    cases h; simp

/-- A write of a system register leaves the supervisor wave of its die as it was. -/
theorem State.sysWrite_sv {s t : State} {d : DieId} {n : Nat} {v : DWord} (h : s.sysWrite d n v = some t) : (t.die d).sv = (s.die d).sv := by
  unfold State.sysWrite at h
  simp only at h
  split at h
  case h_5 => cases h; rw [State.dbgWrite_die]
  case h_6 => exact State.swap_sv h
  case h_7 => exact State.shadowWrite_sv h
  case h_14 =>
    obtain ⟨B, -, hB⟩ := Option.bind_eq_some_iff.mp h
    rw [State.modSelected_sv hB, State.die_modDie]; rfl
  case h_10 | h_11 | h_13 | h_15 | h_16 => exact State.modSelected_sv h
  case h_3 | h_4 | h_12 | h_17 => cases h; rfl
  all_goals cases h; simp

/-! ### The words -/

theorem State.group_zero (s : State) (d : DieId) : s.group d 0 = some (s.die d).sv := rfl
/-- The participants' source is what the word's body works on; a hood does not expand at a UNIFORM one. -/
theorem withSource_eq {s : State} {w : Who} {a : Reg} {regs : Nat} (hu : sourceUniform s w a regs) (body : DWord → Who → State → Eff) :
    withSource regs a body (s.taking w) s = body (if regs = 2 then source64 s w a else source s w a) (s.taking w) s := by
  have hform : ((s.taking w).hood.isSome && !((List.range regs).all fun i => (s.form (s.taking w) (a.toNat + i)).uniform)) = false := by
    cases hh : w.hood with
    | none => simp [State.taking, hh]
    | some lo =>
      have huni : ∀ i < regs, (s.form (s.taking w) (a.toNat + i)).uniform = true := fun i hi =>
        beq_iff_eq.mpr (hu (by simp [hh]) i hi)
      simp only [Bool.and_eq_false_iff, Bool.not_eq_false', List.all_eq_true, List.mem_range]
      exact .inr huni
  unfold withSource
  rw [hform]
  rfl

/-- A WRITE OF A SYSTEM REGISTER by the threads of a supervisor word: a reserved bit, a register that takes the value, one that cannot be reached. -/
theorem syswr_outcomes {s : State} {i : Instr} {w : Who} {G : Group} {n : BitVec 12} {v : DWord} {body : Who → State → Eff} (hs : Solo G w)
    (h : Ready s i w G) (hsup : i.supervisor = true) (hexec : exec i s = waveWord i body s)
    (hbody : body (s.taking w) s = syswrBody n v (s.taking w) s) :
    (v &&& sysReserved n.toNat ≠ 0 → trapsAt s w i Cause.ill 0) ∧
    (v &&& sysReserved n.toNat = 0 → (∀ t, s.sysWrite w.d n.toNat v = some t → Completes i s t w noReg) ∧
      (s.sysWrite w.d n.toNat v = none → trapsAt s w i Cause.baruse 0)) := by
  unfold trapsAt Completes
  rw [hexec]
  unfold syswrBody at hbody
  refine ⟨fun hres => waveWord_trap h hs _ (by rw [hbody, if_pos hres]), fun hres => ⟨fun t ht => ?_, fun hnone => ?_⟩⟩
  · have hok : body (s.taking w) s = .ok t none := by
      have ht' : s.sysWrite (s.taking w).d n.toNat v = some t := ht
      simp only [hbody, hres, ht', ne_eq, not_true_eq_false, if_false]
    have hgroup : t.group w.d w.gid = some G := by
      rw [h.checked.2 hsup, State.group_zero, State.sysWrite_sv ht, ← State.group_zero, ← h.checked.2 hsup, h.group]
    have same : ∀ k x r, t.g { w with hood := k } x r = s.g { w with hood := k } x r := fun k x r => by
      simp only [State.g, hgroup, h.group]
    exact waveWord_goes h hs body none hok hgroup h.holds rfl (fun x _ r => same w.hood x r) fun k x r _ => same k x r
  · refine waveWord_trap h hs _ ?_
    have hnone' : s.sysWrite (s.taking w).d n.toNat v = none := hnone
    simp only [hbody, hres, hnone', ne_eq, not_true_eq_false, if_false]

/-- R325, R326: the words on system registers do what the first half of O52 says. -/
theorem systemRegisterWords : Claims.SystemRegisterWords := by
  intro s w G r n hs
  refine ⟨sysrd_reads hs, sysrdX64_reads hs, fun h hu => ?_, fun h hu => ?_⟩
  · exact syswr_outcomes hs h rfl (exec_syswr n r s) (withSource_eq hu _)
  · exact syswr_outcomes hs h rfl (exec_syswrX64 n r s) (withSource_eq hu _)

end Sys2Proof.Machine
end

section
/-! PROOFS. What the system registers hold (R114, R322, R323): the second half of O52, and what refutes it. -/
namespace Sys2Proof.Machine
open Sys2Proof.Claims

/-! ## What a register reads after it was written -/

/-- Memory, the dies of other partitions and those partitions are as they were. -/
def State.sparesOthers (s t : State) (d : DieId) : Prop :=
  t.mem = s.mem ∧ ∀ e, s.partOf e ≠ s.partOf d → t.die e = s.die e ∧ t.part (s.partOf e) = s.part (s.partOf e)
theorem State.sparesOthers_modDie (s : State) (d : DieId) (f : Die → Die) : s.sparesOthers (s.modDie d f) d :=
  ⟨rfl, fun _ he => ⟨State.die_modDie_ne _ _ _ _ fun h => he (h ▸ rfl), rfl⟩⟩
theorem State.sparesOthers_modPart (s : State) (d : DieId) (f : Part → Part) : s.sparesOthers (s.modPart (s.partOf d) f) d :=
  ⟨rfl, fun _ he => ⟨rfl, State.part_modPart_ne _ _ _ _ he.symm⟩⟩

/-- A write of register `n` on die `d` succeeds; the register then reads `r`. -/
def State.leavesReading (s : State) (d : DieId) (v : DWord) (n : Nat) (r : DWord) : Prop :=
  ∃ t, s.sysWrite d n v = some t ∧ t.sysRead d n = some r ∧ s.sparesOthers t d
theorem State.leavesReading_modDie {s : State} {d : DieId} {v r : DWord} {n : Nat} (f : Die → Die) (hw : s.sysWrite d n v = some (s.modDie d f))
    (hr : (s.modDie d f).sysRead d n = some r) : s.leavesReading d v n r := ⟨_, hw, hr, s.sparesOthers_modDie d f⟩
theorem State.leavesReading_modPart {s : State} {d : DieId} {v r : DWord} {n : Nat} (f : Part → Part)
    (hw : s.sysWrite d n v = some (s.modPart (s.partOf d) f)) (hr : (s.modPart (s.partOf d) f).sysRead d n = some r) : s.leavesReading d v n r :=
  ⟨_, hw, hr, s.sparesOthers_modPart d f⟩

theorem and_none_reserved (v : DWord) : v &&& ~~~0 = v := by
  rw [BitVec.ofNat_eq_ofNat, BitVec.not_zero, BitVec.and_allOnes]
/-- A flag of a register whose other bits are reserved. -/
theorem flag_and_reserved (b : Bool) : BitVec.ofNat 64 (if b then 1 else 0) &&& ~~~(0xFFFFFFFE : DWord) = if b then 1 else 0 := by
  cases b <;> decide
theorem step_and_reserved (b : Bool) : BitVec.ofNat 64 (if b then 2 else 0) &&& ~~~(0xFFFFFFFC : DWord) = if b then 2 else 0 := by
  cases b <;> decide
theorem tpend_and_reserved : ∀ p : BitVec 5, BitVec.ofNat 64 p.toNat &&& ~~~(0xFFFFFFE0 : DWord) = p.setWidth 64 := by decide
theorem DWord.lo_getLsbD (v : DWord) {i : Nat} (h : i < 32) : v.lo.getLsbD i = v.getLsbD i := by
  simp only [DWord.lo, BitVec.getLsbD_setWidth, h, decide_true, Bool.true_and]
theorem DWord.lo_pend (v : DWord) : v.lo.setWidth 5 = v.setWidth 5 := BitVec.setWidth_setWidth_of_le v (by decide)

/-! ### Registers of a die and of a partition -/

section
variable (s : State) (d : DieId) (v : DWord)

theorem State.sysRead_trapvec : s.sysRead d 0x100 = some ((s.die d).trapvec.setWidth 64 &&& ~~~3) := rfl
theorem State.sysRead_svepc : s.sysRead d 0x101 = some ((s.die d).svepc.setWidth 64 &&& ~~~0) := rfl
theorem State.sysRead_tpend : s.sysRead d 0x102 = some (BitVec.ofNat 64 (s.part (s.partOf d)).tpend.toNat &&& ~~~0xFFFFFFE0) := rfl
theorem State.sysRead_tslice : s.sysRead d 0x103 = some ((s.part (s.partOf d)).tslice.setWidth 64 &&& ~~~0) := rfl
theorem State.sysRead_dbgctl : s.sysRead d 0x104 = some (BitVec.ofNat 64 (if (s.part (s.partOf d)).step then 2 else 0) &&& ~~~0xFFFFFFFC) := rfl
theorem State.sysRead_ctxsave : s.sysRead d 0x107 = some ((s.die d).ctxsave.setWidth 64 &&& ~~~0) := rfl
theorem State.sysRead_ctxsel : s.sysRead d 0x108 = some (BitVec.ofNat 64 (if (s.die d).ctxsel then 1 else 0) &&& ~~~0xFFFFFFFE) := rfl
theorem State.sysRead_migctl : s.sysRead d 0x122 = some (BitVec.ofNat 64 (if (s.part (s.partOf d)).migctl then 1 else 0) &&& ~~~0xFFFFFFFE) := rfl

theorem State.leaves_trapvec : s.leavesReading d v 0x100 ((v.setWidth 32).setWidth 64 &&& ~~~3) :=
  State.leavesReading_modDie (fun D => { D with trapvec := v.lo }) rfl (by rw [State.sysRead_trapvec, State.die_modDie]; rfl)
theorem State.leaves_svepc : s.leavesReading d v 0x101 ((v.setWidth 32).setWidth 64) :=
  State.leavesReading_modDie (fun D => { D with svepc := v.lo }) rfl (by rw [State.sysRead_svepc, State.die_modDie, and_none_reserved]; rfl)
theorem State.leaves_tpend : s.leavesReading d v 0x102 (((s.part (s.partOf d)).tpend &&& ~~~(v.setWidth 5)).setWidth 64) :=
  State.leavesReading_modPart (fun P => { P with tpend := P.tpend &&& ~~~(v.lo.setWidth 5) }) rfl
    (by rw [State.sysRead_tpend, State.modPart_partOf, State.part_modPart, tpend_and_reserved, DWord.lo_pend])
theorem State.leaves_tslice : s.leavesReading d v 0x103 ((v.setWidth 32).setWidth 64) :=
  State.leavesReading_modPart (fun P => { P with tslice := v.lo, elapsed := 0 }) rfl
    (by rw [State.sysRead_tslice, State.modPart_partOf, State.part_modPart, and_none_reserved]; rfl)
theorem State.leaves_dbgctl (h : v.getLsbD 0 = false) : s.leavesReading d v 0x104 (if v.getLsbD 1 then 2 else 0) :=
  State.leavesReading_modPart (fun P => { P with step := v.lo.getLsbD 1 })
    (by simp only [State.sysWrite, State.dbgWrite, DWord.lo_getLsbD v (show 0 < 32 by decide), h, Bool.false_eq_true, if_false])
    (by rw [State.sysRead_dbgctl, State.modPart_partOf, State.part_modPart, step_and_reserved, DWord.lo_getLsbD v (by decide)])
theorem State.leaves_ctxsave : s.leavesReading d v 0x107 ((v.setWidth 32).setWidth 64) :=
  State.leavesReading_modDie (fun D => { D with ctxsave := v.lo }) rfl (by rw [State.sysRead_ctxsave, State.die_modDie, and_none_reserved]; rfl)
theorem State.leaves_ctxsel : s.leavesReading d v 0x108 (if v.getLsbD 0 then 1 else 0) :=
  State.leavesReading_modDie (fun D => { D with ctxsel := v.getLsbD 0 }) rfl (by rw [State.sysRead_ctxsel, State.die_modDie, flag_and_reserved])
theorem State.leaves_migctl : s.leavesReading d v 0x122 (if v.getLsbD 0 then 1 else 0) :=
  State.leavesReading_modPart (fun P => { P with migctl := v.lo.getLsbD 0 }) rfl
    (by rw [State.sysRead_migctl, State.modPart_partOf, State.part_modPart, flag_and_reserved, DWord.lo_getLsbD v (by decide)])
end

/-! ### Per-context registers (R323) -/

/-- sys.ctxsel names a bank that holds a context. -/
def Die.reached (D : Die) : Prop := D.ctxsel = false ∨ D.shState = 1

theorem Die.selected_unreached {D : Die} (h : ¬D.reached) : D.selected = none := by
  obtain ⟨hsel, hsh⟩ := not_or.mp h
  simp [Die.selected, hsel, hsh]
theorem State.modSelected_unreached {s : State} {d : DieId} (h : ¬(s.die d).reached) (f : Bank → Bank) : s.modSelected d f = none := by
  obtain ⟨hsel, hsh⟩ := not_or.mp h
  simp [State.modSelected, hsel, hsh]
/-- An update of the bank that sys.ctxsel names is seen there. -/
theorem State.modSelected_reached {s : State} {d : DieId} (h : (s.die d).reached) (f : Bank → Bank) :
    ∃ g B, s.modSelected d f = some (s.modDie d g) ∧ (s.die d).selected = some B ∧ (g (s.die d)).selected = some (f B) := by
  cases hsel : (s.die d).ctxsel with
  | false =>
    exact ⟨fun D => { D with active := f D.active }, (s.die d).active, by simp [State.modSelected, hsel], by simp [Die.selected, hsel],
      by simp [Die.selected, hsel]⟩
  | true =>
    have hsh : (s.die d).shState = 1 := h.resolve_left (by simp [hsel])
    exact ⟨fun D => { D with shadow := f D.shadow }, (s.die d).shadow, by simp [State.modSelected, hsel, hsh], by simp [Die.selected, hsel, hsh],
      by simp [Die.selected, hsel, hsh]⟩
theorem State.modSelected_scratch {s t : State} {d : DieId} {f : Bank → Bank} (h : s.modSelected d f = some t) :
    (t.die d).scratch = (s.die d).scratch := by
  unfold State.modSelected at h
  simp only at h
  split_ifs at h <;> cases h <;> simp

/-- What a write of a per-context register leaves, where the field `get` of the bank is what the register reads. -/
theorem State.leaves_context {s : State} {d : DieId} {v r : DWord} {n : Nat} (h : (s.die d).reached) (f : Bank → Bank) (get : Bank → DWord)
    (hw : s.sysWrite d n v = s.modSelected d f) (hr : ∀ t : State, t.sysRead d n = ((t.die d).selected.map get).map (· &&& ~~~sysReserved n))
    (hget : ∀ B, get (f B) &&& ~~~sysReserved n = r) : s.leavesReading d v n r := by
  obtain ⟨g, B, hmod, -, hsel⟩ := State.modSelected_reached h f
  refine State.leavesReading_modDie g (hw.trans hmod) ?_
  rw [hr, State.die_modDie, hsel]
  exact congrArg some (hget B)

section
variable {s : State} {d : DieId} (v : DWord) (h : (s.die d).reached)
include h

theorem State.leaves_rtab : s.leavesReading d v 0x120 v :=
  State.leaves_context h (fun B => { B with rtab := v }) (·.rtab) rfl (fun _ => rfl) fun _ => and_none_reserved v
theorem State.leaves_ptroot : s.leavesReading d v 0x121 v :=
  State.leaves_context h (fun B => { B with ptroot := v }) (·.ptroot) rfl (fun _ => rfl) fun _ => and_none_reserved v
theorem State.leaves_ntbase : s.leavesReading d v 0x124 v :=
  State.leaves_context h (fun B => { B with ntbase := v }) (·.ntbase) rfl (fun _ => rfl) fun _ => and_none_reserved v
theorem State.leaves_qtbase : s.leavesReading d v 0x127 v :=
  State.leaves_context h (fun B => { B with qtbase := v }) (·.qtbase) rfl (fun _ => rfl) fun _ => and_none_reserved v
theorem State.leaves_syncovf : s.leavesReading d v 0x126 ((v.setWidth 32).setWidth 64 &&& ~~~0xE0000000) :=
  State.leaves_context h (fun B => { B with syncovf := v.lo }) (·.syncovf.setWidth 64) rfl (fun _ => rfl) fun _ => rfl
/-- A write of sys.sprange clears the new bytes of the scratchpad first (R114). -/
theorem State.leaves_sprange : s.leavesReading d v 0x125 ((v.setWidth 32).setWidth 64 &&& ~~~0xFFFF8080) := by
  obtain ⟨_, B, -, hB, -⟩ := State.modSelected_reached h id
  have h' : ((s.modDie d (·.assignRange B.sprange v.lo)).die d).reached := by rw [State.die_modDie]; exact h
  obtain ⟨g, _, hmod, -, hsel⟩ := State.modSelected_reached h' fun B => { B with sprange := v.lo }
  refine ⟨(s.modDie d (·.assignRange B.sprange v.lo)).modDie d g, ?_, ?_, rfl, fun e he => ⟨?_, rfl⟩⟩
  · simp only [State.sysWrite, hB, Option.bind_some]; exact hmod
  · have hread (t : State) : t.sysRead d 0x125 = ((t.die d).selected.map (·.sprange.setWidth 64)).map (· &&& ~~~0xFFFF8080) := rfl
    rw [hread, State.die_modDie, hsel]; rfl
  · have hne : d ≠ e := fun h => he (h ▸ rfl)
    rw [State.die_modDie_ne _ _ _ _ hne, State.die_modDie_ne _ _ _ _ hne]
end

theorem State.unreached_registers {s : State} {d : DieId} (v : DWord) (h : ¬(s.die d).reached) :
    ∀ n ∈ [0x120, 0x121, 0x124, 0x125, 0x126, 0x127], s.sysWrite d n v = none ∧ s.sysRead d n = none := by
  have hmod := State.modSelected_unreached h
  simp [State.sysWrite, State.sysRead, State.sysValue, hmod, Die.selected_unreached h]

/-! ## The scratchpad of a context (R114) -/

/-- Dropping cells by their addresses makes these addresses read 0; only a canonical memory keeps its other bytes, as `Mem.read` stops at the first
address beyond the one that it looks for. -/
theorem Mem.read_filter (keep : Nat → Bool) (a : Nat) : ∀ {m : Mem} {lo : Nat}, Mem.wfFrom lo m = true →
    Mem.read (m.filter fun c => keep c.1) a = if keep a then m.read a else 0
  | [], _, _ => by simp [Mem.read]
  | (a', b) :: m, lo, h => by
    simp only [Mem.wfFrom, Bool.and_eq_true] at h
    obtain ⟨-, hm⟩ := h
    have ih := Mem.read_filter keep a hm
    have below : a < a' → Mem.read m a = 0 := fun hlt => Mem.read_below hm (by omega)
    cases hk : keep a' with
    | true =>
      simp only [List.filter_cons, hk, if_true, Mem.read, ih]
      by_cases ha : a = a'
      · simp [ha, hk]
      · by_cases hlt : a < a' <;> simp [ha, hlt]
    | false =>
      simp only [List.filter_cons, hk, Bool.false_eq_true, if_false, ih, Mem.read]
      by_cases ha : a = a'
      · simp [ha, hk]
      · by_cases hlt : a < a' <;> simp [ha, hlt, below]

/-- `a` lies in the range of the scratchpad that a value of sys.sprange names (R115). -/
def inSprange (r : Word) (a : Nat) : Bool := decide (field r 6 0 * 2 ^ 20 ≤ a ∧ a < field r 14 8 * 2 ^ 20)
theorem inSprange_iff (r : Word) (a : Nat) : inSprange r a = true ↔ r.toNat % 2 ^ 7 * 2 ^ 20 ≤ a ∧ a < r.toNat / 2 ^ 8 % 2 ^ 7 * 2 ^ 20 := by
  simp [inSprange, field, Nat.shiftRight_eq_div_pow]
theorem Die.assignRange_scratch (D : Die) (old new : Word) :
    (D.assignRange old new).scratch = D.scratch.filter fun c => !(inSprange new c.1 && !inSprange old c.1) := rfl

/-- The clause of O52 on the scratchpad range that a write of sys.sprange gives a context (R114, log 46). -/
def State.zeroesNewRange (s : State) (d : DieId) (v : DWord) : Prop :=
  ∀ B t, (s.die d).selected = some B → s.sysWrite d 0x125 v = some t →
    let inside := fun (r : Word) (a : Nat) => r.toNat % 2 ^ 7 * 2 ^ 20 ≤ a ∧ a < r.toNat / 2 ^ 8 % 2 ^ 7 * 2 ^ 20
    ∀ a, (t.die d).scratch.read a = if inside (v.setWidth 32) a ∧ ¬inside B.sprange a then 0 else (s.die d).scratch.read a

theorem State.zeroesNewRange_of_canonical {s : State} {d : DieId} (v : DWord) (hwf : (s.die d).scratch.wf = true) : s.zeroesNewRange d v := by
  intro B t hB hw inside a
  simp only [State.sysWrite, hB, Option.bind_some] at hw
  rw [State.modSelected_scratch hw, State.die_modDie, Die.assignRange_scratch,
    Mem.read_filter (fun a => !(inSprange v.lo a && !inSprange B.sprange a)) a hwf]
  have hnew : inSprange v.lo a = true ↔ inside (v.setWidth 32) a := inSprange_iff _ a
  have hold : inSprange B.sprange a = true ↔ inside B.sprange a := inSprange_iff _ a
  by_cases hn : inside (v.setWidth 32) a <;> by_cases ho : inside B.sprange a <;> simp [hn, ho, hnew, hold]

/-- The second half of O52 comes down to this one clause: the others hold of every state. -/
theorem systemRegistersHold_iff : Claims.SystemRegistersHold ↔ ∀ s d v, State.zeroesNewRange s d v := by
  refine ⟨fun h s d v => ?_, fun h s d v => ?_⟩
  · obtain ⟨-, -, -, -, -, -, -, -, -, hrange, -⟩ := h s d v
    exact hrange
  · exact ⟨s.leaves_trapvec d v, s.leaves_svepc d v, s.leaves_tslice d v, s.leaves_ctxsave d v, s.leaves_ctxsel d v, s.leaves_migctl d v,
      s.leaves_tpend d v, s.leaves_dbgctl d v,
      fun hr => ⟨State.leaves_rtab v hr, State.leaves_ptroot v hr, State.leaves_ntbase v hr, State.leaves_qtbase v hr, State.leaves_sprange v hr,
        State.leaves_syncovf v hr⟩,
      h s d v, State.unreached_registers v⟩

/-! ### A scratchpad that is not in canonical form -/

/-- The scratchpad of die 0 lists a byte at 1 MiB before one at address 3, which `Mem.read` therefore does not find. -/
def unsortedScratch : State := State.reset.modDie 0 fun _ => { scratch := [(2 ^ 20, 1), (3, 1)] }
theorem unsortedScratch_die : unsortedScratch.die 0 = { scratch := [(2 ^ 20, 1), (3, 1)] } := State.die_modDie ..
/-- The context is given 1 MiB to 2 MiB: the byte at 1 MiB goes, and the one at 3, outside the range, comes to be read. -/
theorem unsortedScratch_sprange : ∃ t, unsortedScratch.sysWrite 0 0x125 0x201 = some t ∧ (t.die 0).scratch.read 3 = 1 := by
  refine ⟨((unsortedScratch.modDie 0 (·.assignRange 0 0x201)).modDie 0 fun D => { D with active := { D.active with sprange := 0x201 } }), ?_, ?_⟩
  · simp [State.sysWrite, unsortedScratch_die, Die.selected, State.modSelected, Die.assignRange, DWord.lo]
  · rw [State.die_modDie, State.die_modDie, unsortedScratch_die]; decide

/-- Refutes O52: the clause on sys.sprange speaks of every state, also of one whose scratchpad is not in canonical form, and in `unsortedScratch` a byte outside
the new range reads 1 after the write and 0 before it. What is missing is the hypothesis `(s.die d).scratch.wf = true`, which the other statements on local
memory have: with it the clause holds (`State.zeroesNewRange_of_canonical`), and the rest holds without it (`systemRegisterWords`, `systemRegistersHold_iff`). -/
theorem not_systemRegisters : ¬ Obligations.SystemRegisters := by
  unfold Obligations.SystemRegisters
  rintro ⟨-, hold⟩
  obtain ⟨t, hwrite, hread⟩ := unsortedScratch_sprange
  have hkept := systemRegistersHold_iff.mp hold unsortedScratch 0 0x201 {} t (by rw [unsortedScratch_die]; rfl) hwrite 3
  rw [hread, unsortedScratch_die] at hkept
  exact absurd hkept (by decide)

end Sys2Proof.Machine
end
section
/-! PROOFS. What faults, and packets to other packages, change and what they leave alone (R222, R310 to R313). -/
namespace Sys2Proof.Machine
open Sys2Proof.Claims

/-! ## Packets and faults -/

/-- From `s` to `t` packets have been sent and faults raised, at most: everything else is as it was, halt lines that stood stand, pending events stay
pending, and of the dies only the supervisor waves have changed. -/
structure State.Signals (s t : State) : Prop where
  rest  : t = { s with parts := t.parts, dies := t.dies, out := t.out, links := t.links }
  die   : ∀ d, t.die d = { s.die d with sv := (t.die d).sv, svepc := (t.die d).svepc, svOwn := (t.die d).svOwn }
  halt  : ∀ p, (s.part p).halt = true → (t.part p).halt = true
  tpend : ∀ p i, (s.part p).tpend.getLsbD i = true → (t.part p).tpend.getLsbD i = true
  count : ∀ p, (t.part p).attCount = (s.part p).attCount

theorem State.Signals.refl (s : State) : s.Signals s := ⟨rfl, fun _ => rfl, fun _ h => h, fun _ _ h => h, fun _ => rfl⟩
theorem State.Signals.trans {s t u : State} (h : s.Signals t) (k : t.Signals u) : s.Signals u where
  rest := by rw [k.rest, h.rest]
  die d := by rw [k.die, h.die]
  halt p hp := k.halt p (h.halt p hp)
  tpend p i hp := k.tpend p i (h.tpend p i hp)
  count p := (k.count p).trans (h.count p)
theorem State.Signals.foldl {α : Type} {f : State → α → State} (hf : ∀ (s : State) a, s.Signals (f s a)) (l : List α) (s : State) :
    s.Signals (l.foldl f s) := by
  induction l generalizing s with
  | nil => exact .refl s
  | cons a l ih => exact (hf s a).trans (ih _)
/-- One of the steps of such a run, with what came before it and what comes after it. -/
theorem State.Signals.foldl_mem {α : Type} {f : State → α → State} (hf : ∀ (s : State) a, s.Signals (f s a)) {a : α} {l : List α} (s : State) (h : a ∈ l) :
    ∃ u, s.Signals u ∧ (f u a).Signals (l.foldl f s) := by
  induction l generalizing s with
  | nil => cases h
  | cons b l ih =>
    by_cases hb : a = b
    · exact ⟨s, .refl s, hb ▸ .foldl hf l _⟩
    · obtain ⟨u, hu, ht⟩ := ih (f s b) ((List.mem_cons.mp h).resolve_left hb)
      exact ⟨u, (hf s b).trans hu, ht⟩

section
variable {s t : State} (h : s.Signals t)
include h

theorem State.Signals.layout : t.layout = s.layout := by rw [h.rest]
theorem State.Signals.partOf (d : DieId) : t.partOf d = s.partOf d := by rw [h.rest]; rfl
theorem State.Signals.diesOf (p : PartId) : t.diesOf p = s.diesOf p := by rw [h.rest]; rfl
theorem State.Signals.mem : t.mem = s.mem := by rw [h.rest]
theorem State.Signals.inbox : t.inbox = s.inbox := by rw [h.rest]
theorem State.Signals.sets : t.sets = s.sets := by rw [h.rest]
theorem State.Signals.launches : t.launches = s.launches := by rw [h.rest]
theorem State.Signals.sessions : t.sessions = s.sessions := by rw [h.rest]
theorem State.Signals.smsgs : t.smsgs = s.smsgs := by rw [h.rest]
theorem State.Signals.stores : t.stores = s.stores := by rw [h.rest]
theorem State.Signals.badLines : t.badLines = s.badLines := by rw [h.rest]
theorem State.Signals.active (d : DieId) : (t.die d).active = (s.die d).active := by rw [h.die]
end

/-! ## The supervisor wave of a die -/

/-- An update of one die that changes its supervisor wave alone. -/
theorem State.Signals.modSv (s : State) (d : DieId) (f : Die → Die)
    (hf : ∀ D, f D = { D with sv := (f D).sv, svepc := (f D).svepc, svOwn := (f D).svOwn }) : s.Signals (s.modDie d f) where
  rest := rfl
  die e := by
    by_cases h : d = e
    · subst h; rw [State.die_modDie]; exact hf _
    · rw [State.die_modDie_ne _ _ _ _ h]
  halt _ h := h
  tpend _ _ h := h
  count _ := rfl
theorem State.Signals.svWrite (s : State) (d : DieId) (a : Nat) (bs : List Byte) : s.Signals (s.svWrite d a bs) :=
  .modSv s d _ fun _ => rfl
theorem State.Signals.raiseSv (s : State) (d : DieId) (f : FaultRec) : s.Signals (s.raiseSv d f) :=
  (State.Signals.svWrite s d _ _).trans (.modSv _ d (fun D => { D.enterHandler 64 with svOwn := true }) fun _ => rfl)
theorem State.svWrite_parts (s : State) (d : DieId) (a : Nat) (bs : List Byte) : (s.svWrite d a bs).parts = s.parts := rfl
theorem State.raiseSv_parts (s : State) (d : DieId) (f : FaultRec) : (s.raiseSv d f).parts = s.parts := rfl

/-! ## Raising a fault -/

/-- The partition once its halt line has risen with an event. -/
def Part.raised (P : Part) (now : Nat) (c : Cause) : Part :=
  if P.halt then { P with tpend := P.tpend ||| tpendBit c }
  else { P with halt := true, rose := now, complete := false, tpend := P.tpend ||| tpendBit c, faults := [], released := [], frames := [] }

theorem State.raiseEvent_eq (s : State) (p : PartId) (c : Cause) : s.raiseEvent p c = s.modPart p (·.raised s.clock c) := rfl

section
variable (P : Part) (now : Nat) (c : Cause)
theorem Part.raised_halt : (P.raised now c).halt = true := by unfold Part.raised; split <;> simp_all
theorem Part.raised_tpend : (P.raised now c).tpend = P.tpend ||| tpendBit c := by unfold Part.raised; split <;> rfl
theorem Part.raised_attCount : (P.raised now c).attCount = P.attCount := by unfold Part.raised; split <;> rfl
end

theorem State.Signals.modPart (s : State) (p : PartId) (f : Part → Part) (hh : ∀ P, P.halt = true → (f P).halt = true)
    (ht : ∀ P i, P.tpend.getLsbD i = true → (f P).tpend.getLsbD i = true) (hc : ∀ P, (f P).attCount = P.attCount) : s.Signals (s.modPart p f) where
  rest := rfl
  die _ := rfl
  halt q h := by
    by_cases e : p = q
    · subst e; rw [State.part_modPart]; exact hh _ h
    · rwa [State.part_modPart_ne _ _ _ _ e]
  tpend q i h := by
    by_cases e : p = q
    · subst e; rw [State.part_modPart]; exact ht _ i h
    · rwa [State.part_modPart_ne _ _ _ _ e]
  count q := by
    by_cases e : p = q
    · subst e; rw [State.part_modPart]; exact hc _
    · rw [State.part_modPart_ne _ _ _ _ e]

theorem State.Signals.raiseEvent (s : State) (p : PartId) (c : Cause) : s.Signals (s.raiseEvent p c) :=
  .modPart s p (·.raised s.clock c) (fun _ _ => Part.raised_halt ..) (fun P i h => by rw [Part.raised_tpend, BitVec.getLsbD_or, h, Bool.true_or])
    fun _ => Part.raised_attCount ..

/-- A raised fault is kept beside the partition's earlier ones: with its counts where the halt is complete. -/
def State.recorded (s : State) (f : FaultRec) : FaultRec :=
  if ((s.part (s.partOf f.die)).raised s.clock f.stop.cause).complete then (s.raiseEvent (s.partOf f.die) f.stop.cause).tallied f else f
theorem State.recorded_slot (s : State) (f : FaultRec) : (s.recorded f).slot = f.slot := by
  unfold State.recorded State.tallied
  split_ifs <;> rfl
def State.withFault (s : State) (f : FaultRec) : State :=
  s.modPart (s.partOf f.die) fun P => { P.raised s.clock f.stop.cause with faults := (P.raised s.clock f.stop.cause).faults ++ [s.recorded f] }

theorem vset_vset {α : Type} {n : Nat} (v : Vector α n) (i : Fin n) (x y : α) : vset (vset v i x) i y = vset v i y :=
  Vector.set_set ..
theorem State.modPart_modPart (s : State) (p : PartId) (f g : Part → Part) : (s.modPart p f).modPart p g = s.modPart p fun P => g (f P) := by
  unfold State.modPart
  simp only [vset_vset, vset_get]

/-- Raising a fault: the partition keeps it, and where the halt is complete it is written into the stop area. -/
theorem State.raiseFault_cases (s : State) (f : FaultRec) :
    s.raiseFault f = s.withFault f ∨ f.slot < stopSlots ∧ ∃ d a bs, s.raiseFault f = (s.withFault f).svWrite d a bs := by
  have hP : (s.raiseEvent (s.partOf f.die) f.stop.cause).part (s.partOf f.die) = (s.part (s.partOf f.die)).raised s.clock f.stop.cause := by
    rw [State.raiseEvent_eq, State.part_modPart]
  have hkept : (s.raiseEvent (s.partOf f.die) f.stop.cause).modPart (s.partOf f.die) (fun P => { P with faults := P.faults ++ [s.recorded f] }) =
      s.withFault f := by
    rw [State.raiseEvent_eq, State.modPart_modPart]; rfl
  have hrec : (if ((s.part (s.partOf f.die)).raised s.clock f.stop.cause).complete = true
      then (s.raiseEvent (s.partOf f.die) f.stop.cause).tallied f else f) = s.recorded f := rfl
  simp only [State.raiseFault, hP]
  rw [hrec, hkept]
  split
  · next h =>
    exact .inr ⟨by rw [← s.recorded_slot]; simpa using (Bool.and_eq_true_iff.mp h).2, _, _, _, rfl⟩
  · exact .inl rfl

theorem State.part_withFault (s : State) (f : FaultRec) : (s.withFault f).part (s.partOf f.die) =
    { (s.part (s.partOf f.die)).raised s.clock f.stop.cause with
      faults := ((s.part (s.partOf f.die)).raised s.clock f.stop.cause).faults ++ [s.recorded f] } := State.part_modPart ..
theorem State.raiseFault_parts (s : State) (f : FaultRec) : (s.raiseFault f).parts = (s.withFault f).parts := by
  obtain h | ⟨-, d, a, bs, h⟩ := s.raiseFault_cases f
  · rw [h]
  · rw [h]; rfl
theorem State.part_raiseFault (s : State) (f : FaultRec) (p : PartId) : (s.raiseFault f).part p = (s.withFault f).part p :=
  congrArg (·.get p) (s.raiseFault_parts f)
theorem State.part_raiseFault_ne (s : State) (f : FaultRec) {p : PartId} (h : s.partOf f.die ≠ p) : (s.raiseFault f).part p = s.part p :=
  (s.part_raiseFault f p).trans (State.part_modPart_ne _ _ _ _ h)

theorem State.Signals.raiseFault (s : State) (f : FaultRec) : s.Signals (s.raiseFault f) := by
  have h : s.Signals (s.withFault f) :=
    .modPart s _ (fun P => { P.raised s.clock f.stop.cause with faults := (P.raised s.clock f.stop.cause).faults ++ [s.recorded f] })
      (fun _ _ => Part.raised_halt ..) (fun P i h => by simp only [Part.raised_tpend, BitVec.getLsbD_or, h, Bool.true_or])
      fun _ => Part.raised_attCount ..
  obtain e | ⟨-, d, a, bs, e⟩ := s.raiseFault_cases f <;> rw [e]
  · exact h
  · exact h.trans (.svWrite _ d a bs)

section
variable (s : State) (f : FaultRec)
theorem State.raiseFault_halt : ((s.raiseFault f).part (s.partOf f.die)).halt = true := by
  rw [State.part_raiseFault, State.part_withFault]; exact Part.raised_halt ..
theorem State.raiseFault_tpend : ((s.raiseFault f).part (s.partOf f.die)).tpend = (s.part (s.partOf f.die)).tpend ||| tpendBit f.stop.cause := by
  rw [State.part_raiseFault, State.part_withFault]; exact Part.raised_tpend ..

theorem tpendBit_ne_zero (c : Cause) : tpendBit c ≠ 0#5 := by unfold tpendBit; split_ifs <;> decide
/-- In a partition that ran the fault is the first that is pending (R313). -/
theorem State.raiseFault_pending (h : (s.part (s.partOf f.die)).halt = false) : ((s.raiseFault f).part (s.partOf f.die)).pending = some f := by
  have hself : tpendBit f.stop.cause &&& ((s.part (s.partOf f.die)).tpend ||| tpendBit f.stop.cause) = tpendBit f.stop.cause := by
    ext i hi; simp only [BitVec.getElem_and, BitVec.getElem_or]; cases (tpendBit f.stop.cause)[i] <;> simp
  rw [State.part_raiseFault, State.part_withFault]
  simp [Part.pending, Part.raised, State.recorded, h, hself, tpendBit_ne_zero, firstOf]
end

/-- A fault raised in a state whose partitions are those of `s`: its partition halts with its cause. -/
theorem haltsWith_raiseFault {s u : State} {f : FaultRec} (hl : u.layout = s.layout) (hp : u.parts = s.parts) :
    haltsWith s (u.raiseFault f) f.die f.stop.cause := by
  have hpart : s.partOf f.die = u.partOf f.die := congrArg (·.get f.die) hl.symm
  have hP : s.part (u.partOf f.die) = u.part (u.partOf f.die) := congrArg (·.get (u.partOf f.die)) hp.symm
  unfold haltsWith
  rw [hpart, hP]
  exact ⟨u.raiseFault_halt f, fun h => ⟨f, u.raiseFault_pending f h, rfl⟩⟩

/-- A record that is no engine's is not written into the stop area. -/
theorem State.raiseFault_of_slot (s : State) {f : FaultRec} (h : stopSlots ≤ f.slot) : s.raiseFault f = s.withFault f :=
  (s.raiseFault_cases f).resolve_right fun ⟨hlt, _⟩ => absurd hlt (not_lt.mpr h)

/-! ## Packets to other packages (R220 to R223) -/

theorem State.Signals.linkFault (s : State) (d : DieId) (ctx : Ctx) (pc : DWord) (port : Nat) : s.Signals (s.linkFault d ctx pc port) := by
  unfold State.linkFault
  split
  · exact .raiseSv ..
  · exact .raiseFault ..
theorem State.Signals.sendFrom (s : State) (n : Nat) (d : Option DieId) (pc : DWord) (h : Header) (m : Payload) : s.Signals (s.sendFrom n d pc h m) := by
  unfold State.sendFrom
  split
  · cases d with
    | none => exact .refl s
    | some d => exact .linkFault ..
  · exact ⟨rfl, fun _ => rfl, fun _ h => h, fun _ _ h => h, fun _ => rfl⟩
/-- A live link takes the packet. -/
theorem State.sendFrom_out {s : State} {n : Nat} (h : (s.link n).retired = false) (d : Option DieId) (pc : DWord) (hd : Header) (m : Payload) :
    (s.sendFrom n d pc hd m).out = s.out ++ [.link n hd m] := by simp [State.sendFrom, h]
theorem State.Signals.transmit (s : State) (d : DieId) (pc : DWord) (h : Header) (m : Payload) : s.Signals (s.transmit d pc h m) := by
  unfold State.transmit
  split
  · exact .sendFrom ..
  · exact .linkFault ..

end Sys2Proof.Machine
end
section
/-! PROOFS. Events of sessions at their home (R227 to R232): the first third of O56. -/
namespace Sys2Proof.Machine
open Sys2Proof.Claims

/-! ## Messages and faults of participants -/

theorem State.Signals.joinFault (s : State) (j : SJoin) (c : Cause) (fa : DWord) : s.Signals (s.joinFault j c fa) := by
  unfold State.joinFault
  split
  · exact .raiseSv ..
  · exact .raiseFault ..
theorem State.Signals.toJoin (s : State) (x : Session) (pc : DWord) (j : SJoin) (m : SMsg) : s.Signals (s.toJoin x pc j m) := by
  unfold State.toJoin
  split
  · exact .sendFrom ..
  · exact .refl s
/-- A participant whose join came by a live link gets a message over it. -/
theorem State.toJoin_out {s : State} {j : SJoin} {n : Nat} (hn : j.link = some n) (hr : (s.link n).retired = false) (x : Session) (pc : DWord) (m : SMsg) :
    (s.toJoin x pc j m).out = s.out ++ [.link n ⟨x.ctx, .session, j.rank, 0⟩ (.session m)] := by
  rw [State.toJoin, hn]
  exact State.sendFrom_out hr ..
/-- A participant's fault halts its partition. -/
theorem haltsWith_joinFault {s u : State} {j : SJoin} (hl : u.layout = s.layout) (hp : u.parts = s.parts) (hg : j.gid ≠ 0) (c : Cause) (fa : DWord) :
    haltsWith s (u.joinFault j c fa) j.die c := by
  rw [State.joinFault, if_neg hg]
  exact haltsWith_raiseFault hl hp

/-! ## The table of sessions -/

theorem State.modSession_some (s : State) (id : Nat) (f : Session → Session) :
    s.modSession id (fun y => some (f y)) = { s with sessions := s.sessions.map fun y => if y.id = id then f y else y } := by
  unfold State.modSession
  congr 1
  rw [← List.filterMap_eq_map]
  refine List.filterMap_congr fun y _ => ?_
  by_cases h : y.id = id <;> simp [h]
theorem State.modSession_none (s : State) (id : Nat) :
    s.modSession id (fun _ => none) = { s with sessions := s.sessions.filter fun y => y.id ≠ id } := by
  unfold State.modSession
  congr 1
  rw [← List.filterMap_eq_filter]
  refine List.filterMap_congr fun y _ => ?_
  by_cases h : y.id = id <;> simp [h, Option.guard]
theorem State.mem_modSession {s : State} {x : Session} (h : x ∈ s.sessions) (f : Session → Session) :
    f x ∈ (s.modSession x.id fun y => some (f y)).sessions := by
  rw [State.modSession_some]
  exact List.mem_map.mpr ⟨x, h, if_pos rfl⟩

/-! ## Joins (R227, R228, R232) -/

theorem ended_iff {s : State} {j : SJoin} : ended s j ↔ s.smsgs.any (SMsg.endsJoin j) = true := by
  simp only [ended, List.any_eq_true]
  constructor
  · rintro ⟨i, hi, hj⟩; exact ⟨_, hi, hj⟩
  · rintro ⟨m, hm, hj⟩
    cases m with
    | gone i => exact ⟨i, hm, hj⟩
    | _ => cases hj

/-- An abandoned session leaves none of its identity. -/
theorem State.abandon_sessions (s : State) (m : Session) (gone : SJoin → Bool) : ∀ x ∈ (s.abandon m gone).sessions, x.same m = false := by
  intro x hx
  unfold State.abandon at hx
  rw [(State.Signals.foldl (fun s j => ?_) _ _).sessions] at hx
  · have hof := (List.mem_filter.mp hx).2
    simp only [Bool.not_eq_true', Bool.or_eq_false_iff] at hof
    exact hof.2
  · split
    · exact .joinFault ..
    · exact .toJoin ..

section
variable {s : State} {k : Nat} {m : Session} {j : SJoin} (hk : s.smsgs[k]? = some (.join m)) (hj : m.joins = [j])
include hk hj

theorem sessionJoin_ended (he : ended s j) : yields s (.sessionJoin k) fun t => ∀ x ∈ t.sessions, x.same m = false := by
  refine ⟨{ s with smsgs := s.smsgs.filter (!SMsg.endsJoin j ·) }.abandon m (Session.isJoin j), ?_, State.abandon_sessions _ _ _⟩
  simp [exec, execSessionJoin, hk, hj, ended_iff.mp he]

theorem sessionJoin_new (he : ¬ended s j) (hx : s.sessions.find? (·.same m) = none) : exec (.sessionJoin k) s =
    if (s.sessions.filter fun x => x.home = m.home).length < 48
    then .next { s with smsgs := s.smsgs.eraseIdx k, sessions := s.sessions ++ [{ m with id := s.nextId }], nextId := s.nextId + 1 } else .next s := by
  have hcount : (s.sessions.countP fun x => x.home == m.home) = (s.sessions.filter fun x => x.home = m.home).length := by
    rw [List.countP_eq_length_filter]; rfl
  rw [ended_iff, Bool.not_eq_true] at he
  simp only [exec, execSessionJoin, hk, hj, List.head?_cons, he, hx, hcount, maxSessions]
  rfl

/-- The participant of message `k` enters a session, which fails where it is `bad`. -/
def State.withJoin (s : State) (k : Nat) (x : Session) (j : SJoin) (bad : Bool) : State :=
  (s.dropMsg k).modSession x.id fun y => some { y with joins := y.joins ++ [j], abandoned := y.abandoned || bad }

/-- A join of an open session; one that does not agree, or whose participant number is taken, makes the session fail. -/
theorem sessionJoin_open (he : ¬ended s j) {x : Session} (hx : s.sessions.find? (·.same m) = some x) {bad : Bool}
    (hb : (!x.agrees m || x.joins.any (·.pno == j.pno)) = bad) : exec (.sessionJoin k) s = .next (if !bad then s.withJoin k x j bad
      else if SJoin.here m j then (s.withJoin k x j bad).joinFault j Cause.fmt 0 else (s.withJoin k x j bad).toJoin x j.pc j (.refused j)) := by
  subst hb
  rw [ended_iff, Bool.not_eq_true] at he
  simp only [exec, execSessionJoin, hk, hj, List.head?_cons, he, hx, ← State.withJoin.eq_1]
  split_ifs <;> simp_all
end

theorem State.withJoin_sessions (s : State) (k : Nat) (x : Session) (j : SJoin) : (s.withJoin k x j false).sessions =
    s.sessions.map fun y => if y.id = x.id then { y with joins := y.joins ++ [j] } else y := by
  simp only [State.withJoin, State.modSession_some, State.dropMsg, Bool.or_false]
theorem State.mem_withJoin {s : State} {x : Session} (hx : x ∈ s.sessions) (k : Nat) (j : SJoin) :
    { x with joins := x.joins ++ [j], abandoned := true } ∈ (s.withJoin k x j true).sessions := by
  have h := State.mem_modSession (s := s.dropMsg k) hx fun y => { y with joins := y.joins ++ [j], abandoned := y.abandoned || true }
  rwa [Bool.or_true] at h

/-! ## Closes (R229, R230) -/

/-- The best element of a list, where one is better than all others. -/
theorem mem_of_bestOf {α : Type} {better : α → α → Bool} {a : α} : ∀ {l : List α}, bestOf better l = some a → a ∈ l
  | x :: l, h => by
    simp only [bestOf] at h
    split at h
    · cases h; exact List.mem_cons_self
    · next y hy =>
      split at h <;> cases h
      · exact List.mem_cons_self
      · exact List.mem_cons_of_mem _ (mem_of_bestOf hy)
theorem bestOf_eq_some {α : Type} (key : α → Nat) {a : α} : ∀ {l : List α}, a ∈ l → (∀ b ∈ l, b ≠ a → key a < key b) →
    bestOf (fun x y => decide (key x ≤ key y)) l = some a
  | x :: l, ha, hl => by
    by_cases hx : x = a
    · subst hx
      simp only [bestOf]
      split
      · rfl
      · next y hy =>
        have hle : key x ≤ key y := by
          by_cases hyx : y = x
          · rw [hyx]
          · exact (hl y (List.mem_cons_of_mem _ (mem_of_bestOf hy)) hyx).le
        simp [hle]
    · have hal : a ∈ l := (List.mem_cons.mp ha).resolve_left (Ne.symm hx)
      have hlt : key a < key x := hl x List.mem_cons_self hx
      simp only [bestOf, bestOf_eq_some key hal fun b hb => hl b (List.mem_cons_of_mem _ hb)]
      simp [hlt]

theorem missing_iff {x : Session} {j : SJoin} {r : Nat} :
    missing x j r ↔ j ∈ x.joins.filter fun j => !SJoin.here x j && j.mask.getLsbD r && !x.hasRow j r := by
  have hrow : x.hasRow j r = true ↔ (∃ p ∈ j.staged, p.1 = 2 * r) ∧ (128 < x.cols → ∃ p ∈ j.staged, p.1 = 2 * r + 1) := by
    unfold Session.hasRow
    by_cases hc : x.cols ≤ 128
    · simp [hc, not_lt.mpr hc]
    · simp [hc, not_le.mp hc]
  rw [missing, ← hrow, List.mem_filter]
  simp only [Bool.and_eq_true, Bool.not_eq_true', ← Bool.not_eq_true, and_assoc]

theorem Session.unread_none {x : Session} (h : ∀ i r, r < x.rows → ¬missing x i r) : x.unread = none := by
  unfold Session.unread
  rw [List.findSome?_eq_none_iff]
  intro r hr
  have hnone : (x.joins.filter fun j => !SJoin.here x j && j.mask.getLsbD r && !x.hasRow j r) = [] :=
    List.eq_nil_iff_forall_not_mem.mpr fun i hi => h i r (List.mem_range.mp hr) (missing_iff.mpr hi)
  rw [hnone]; rfl
/-- The home asks for the lowest row that is missing, of the participant of the lowest number. -/
theorem Session.unread_some {x : Session} {i : SJoin} {r : Nat} (hr : r < x.rows) (hi : missing x i r)
    (hlow : ∀ i' q, q < r → ¬missing x i' q) (hfirst : ∀ i', missing x i' r → i' ≠ i → i.pno < i'.pno) : x.unread = some (i, r) := by
  unfold Session.unread
  have hbest := bestOf_eq_some SJoin.pno (missing_iff.mp hi) fun b hb hne => hfirst b (missing_iff.mpr hb) hne
  have hsplit : List.range x.rows = List.range r ++ r :: (List.range' (r + 1) (x.rows - r - 1)) := by
    rw [List.range_eq_range', List.range_eq_range', show x.rows = r + ((x.rows - r - 1) + 1) by omega, ← List.range'_append_1, List.range'_succ]
    simp
  have hbefore : ((List.range r).findSome? fun m => (bestOf (fun (a b : SJoin) => decide (a.pno ≤ b.pno))
      (x.joins.filter fun j => !SJoin.here x j && j.mask.getLsbD m && !x.hasRow j m)).map fun j => (j, m)) = none := by
    rw [List.findSome?_eq_none_iff]
    intro q hq
    have hnone : (x.joins.filter fun j => !SJoin.here x j && j.mask.getLsbD q && !x.hasRow j q) = [] :=
      List.eq_nil_iff_forall_not_mem.mpr fun b hb => hlow b q (List.mem_range.mp hq) (missing_iff.mpr hb)
    rw [hnone]; rfl
  rw [hsplit, List.findSome?_append, hbefore, Option.none_or, List.findSome?_cons, hbest]
  rfl

/-- A participant as the home knows it once its close has come. -/
def SJoin.closedBy (j i : SJoin) : SJoin := { i with closed := true, mask := j.mask, staged := i.staged ++ j.staged }

section
variable {s : State} {x : Session} (hx : ∃ y ∈ s.sessions, y.id = x.id)
include hx

/-- The session `x` takes the place of the one of its number. -/
theorem State.mem_putSession : x ∈ (s.modSession x.id fun _ => some x).sessions := by
  obtain ⟨y, hy, hid⟩ := hx
  rw [← hid]
  exact State.mem_modSession hy fun _ => x

theorem State.advance_waiting (h : (x.joins.filter (·.closed)).length < x.count) : x ∈ (s.advance x).sessions := by
  rw [State.advance, List.countP_eq_length_filter, if_pos h]
  exact State.mem_putSession hx

section
variable (h : x.count ≤ (x.joins.filter (·.closed)).length) (ha : x.abandoned = false)
include h ha

theorem State.advance_result (hu : x.unread = none) : { x with result := some x.resultRows } ∈ (s.advance x).sessions := by
  rw [State.advance, List.countP_eq_length_filter, if_neg (not_lt.mpr h), if_neg (by simp [ha]), hu]
  exact State.mem_putSession (x := { x with result := some x.resultRows }) hx

omit hx in
theorem State.advance_reads {i : SJoin} {r : Nat} (hu : x.unread = some (i, r)) (hq : x.asked ≠ some (i.pno, r)) : s.advance x =
    (s.modSession x.id fun _ => some { x with asked := some (i.pno, r) }).toJoin x x.pc i (.read { i with staged := [] } r) := by
  rw [State.advance, List.countP_eq_length_filter, if_neg (not_lt.mpr h), if_neg (by simp [ha]), hu]
  simp [hq]
end
end

theorem State.advance_failed {s : State} {x : Session} (h : x.count ≤ (x.joins.filter (·.closed)).length) (ha : x.abandoned = true) :
    (s.advance x).sessions = s.sessions.filter fun y => y.id ≠ x.id := by
  rw [State.advance, List.countP_eq_length_filter, if_neg (not_lt.mpr h), if_pos ha,
    (State.Signals.foldl (fun s j => State.Signals.toJoin ..) _ _).sessions, State.modSession_none]

/-- Whatever becomes of a session, only messages leave beside it. -/
theorem State.advance_signals (s : State) (x : Session) : ∃ f, (s.modSession x.id f).Signals (s.advance x) := by
  unfold State.advance
  simp only
  split
  · exact ⟨_, .refl _⟩
  · split
    · exact ⟨_, State.Signals.foldl (fun s j => State.Signals.toJoin ..) _ _⟩
    · split
      · exact ⟨_, .refl _⟩
      · split
        · exact ⟨_, .refl _⟩
        · exact ⟨_, .toJoin ..⟩
theorem State.advance_smsgs (s : State) (x : Session) : (s.advance x).smsgs = s.smsgs := by
  obtain ⟨f, h⟩ := s.advance_signals x
  exact h.smsgs

theorem sessionClose_finds {s : State} {k : Nat} {sid : Word} {sc : Scope} {home : DieId} {j : SJoin} {x : Session}
    (hk : s.smsgs[k]? = some (.close sid sc home j))
    (hx : s.sessions.find? (fun x => x.result.isNone && x.sid == sid && x.scope == sc && x.home == home && x.joins.any (Session.isJoin j)) = some x) :
    exec (.sessionClose k) s =
      .next ((s.dropMsg k).advance { x with joins := x.joins.map (fun i => if Session.isJoin j i then j.closedBy i else i), pc := j.pc }) := by
  simp only [exec, execSessionClose, hk, hx]
  rfl

/-! ## Results (R231) -/

theorem findSome?_eq_of_first {α β : Type} [DecidableEq α] {f : α → Option β} {a : α} {b : β} : ∀ {l : List α}, a ∈ l →
    (∀ x ∈ l.takeWhile (· != a), f x = none) → f a = some b → l.findSome? f = some b
  | x :: l, ha, hl, hb => by
    by_cases hx : x = a
    · rw [List.findSome?_cons, hx, hb]
    · have hne : (x != a) = true := by simpa using hx
      rw [List.takeWhile_cons, if_pos hne] at hl
      rw [List.findSome?_cons, hl x List.mem_cons_self]
      exact findSome?_eq_of_first ((List.mem_cons.mp ha).resolve_left (Ne.symm hx)) (fun y hy => hl y (List.mem_cons_of_mem _ hy)) hb

section
variable {s : State} {k : Nat} {x : Session} {rows : List (List Byte)} (hk : s.sessions[k]? = some x) (hr : x.result = some rows)
include hk hr

theorem sessionResultWrite_done (h : (x.joins.filter fun j => j.dest ≠ 0 ∧ j.written < x.rows) = []) :
    exec (.sessionResultWrite k) s = .next { s with sessions := s.sessions.filter fun y => y.id ≠ x.id } := by
  simp only [exec, execSessionResultWrite, hk, hr, h, List.isEmpty_nil, if_true, State.modSession_none]

theorem sessionResultWrite_waits (h : (x.joins.filter fun j => j.dest ≠ 0 ∧ j.written < x.rows) ≠ [])
    (hn : ∀ j ∈ x.joins.filter (fun j => j.dest ≠ 0 ∧ j.written < x.rows), s.resultRow x (rows.getD j.written []) j = none) :
    exec (.sessionResultWrite k) s = .next s := by
  have hnone : ((x.joins.filter fun j => j.dest ≠ 0 ∧ j.written < x.rows).findSome? fun j =>
      (s.resultRow x (rows.getD j.written []) j).map fun r => (j, r)) = none := by
    rw [List.findSome?_eq_none_iff]
    intro j hj
    rw [hn j hj]; rfl
  simp only [exec, execSessionResultWrite, hk, hr, List.isEmpty_iff, if_neg h, hnone]

/-- The first participant that can take a row gets it. -/
theorem sessionResultWrite_row {j : SJoin} {u : State} {ok : Bool} (hj : j ∈ x.joins.filter fun j => j.dest ≠ 0 ∧ j.written < x.rows)
    (hn : ∀ i ∈ (x.joins.filter fun j => j.dest ≠ 0 ∧ j.written < x.rows).takeWhile (· != j), s.resultRow x (rows.getD i.written []) i = none)
    (hu : s.resultRow x (rows.getD j.written []) j = some (ok, u)) : exec (.sessionResultWrite k) s = .next (if ok then
      { u with sessions := u.sessions.map fun y => if y.id = x.id then
        { y with joins := y.joins.map fun i => if Session.isJoin j i then { i with written := i.written + 1 } else i } else y } else u) := by
  have hfirst := findSome?_eq_of_first (f := fun j => (s.resultRow x (rows.getD j.written []) j).map fun r => (j, r)) hj
    (fun i hi => by rw [hn i hi]; rfl) (by rw [hu]; rfl)
  have hne : ¬(x.joins.filter fun j => j.dest ≠ 0 ∧ j.written < x.rows) = [] := List.ne_nil_of_mem hj
  simp only [exec, execSessionResultWrite, hk, hr, List.isEmpty_iff, if_neg hne, hfirst]
  cases ok
  · rfl
  · simp only [State.modSession_some, if_true]
end

theorem sessionResultWrite_open {s : State} {k : Nat} {x : Session} (hk : s.sessions[k]? = some x) (hr : x.result = none) :
    exec (.sessionResultWrite k) s = .next s := by
  simp only [exec, execSessionResultWrite, hk, hr]

/-! ## Messages from homes on other packages -/

/-- An earlier message brings a row for the same participant: rows are written in the order in which they come. -/
def State.rowBehind (s : State) (i : Nat) (j : SJoin) : Prop :=
  ∃ m ∈ s.smsgs.take i, ∃ j' o b c, m = .result j' o b c ∧ Session.isJoin j j' = true

section
variable {s : State} {k i : Nat} (hk : k = s.sessions.length + i) {j : SJoin}
include hk

theorem State.no_session_beyond : s.sessions[k]? = none ∧ k - s.sessions.length = i :=
  ⟨List.getElem?_eq_none (by omega), by omega⟩

section
variable {off credit : Nat} {bytes : List Byte} (hm : s.smsgs[i]? = some (.result j off bytes credit))
include hm

theorem sessionResultWrite_behind (hb : s.rowBehind i j) : exec (.sessionResultWrite k) s = .next s := by
  obtain ⟨hout, hi⟩ := State.no_session_beyond hk
  obtain ⟨m, hm', j', o, b, c, rfl, hj⟩ := hb
  simp only [exec, execSessionResultWrite, hout, hi, hm]
  rw [if_pos (List.any_eq_true.mpr ⟨_, hm', hj⟩)]

theorem sessionResultWrite_writes (hb : ¬s.rowBehind i j) : exec (.sessionResultWrite k) s =
    .next ((s.writeResult j off bytes credit).elim s fun r => if r.1 then { r.2 with smsgs := r.2.smsgs.eraseIdx i } else r.2) := by
  obtain ⟨hout, hi⟩ := State.no_session_beyond hk
  simp only [exec, execSessionResultWrite, hout, hi, hm]
  rw [if_neg]
  · cases s.writeResult j off bytes credit <;> rfl
  · rw [List.any_eq_true]
    rintro ⟨m, hm', hj⟩
    cases m with
    | result j' o b c => exact hb ⟨_, hm', j', o, b, c, rfl, hj⟩
    | _ => cases hj
end

theorem sessionResultWrite_lost (hm : s.smsgs[i]? = some (.lost j)) :
    exec (.sessionResultWrite k) s = .next ((s.dropMsg i).joinFault j Cause.link 0) := by
  obtain ⟨hout, hi⟩ := State.no_session_beyond hk
  simp only [exec, execSessionResultWrite, hout, hi, hm]
theorem sessionResultWrite_refused (hm : s.smsgs[i]? = some (.refused j)) :
    exec (.sessionResultWrite k) s = .next ((s.dropMsg i).joinFault j Cause.fmt 0) := by
  obtain ⟨hout, hi⟩ := State.no_session_beyond hk
  simp only [exec, execSessionResultWrite, hout, hi, hm]
end

/-! ## The clause of O56 on sessions -/

/-- R227 to R232: what the first third of O56 says of sessions at their home. -/
theorem sessionsAtHome : Claims.SessionsAtHome := by
  intro s k _ without
  refine ⟨fun m j hk hj => ⟨sessionJoin_ended hk hj, fun he hx => ?new, fun he x hx => ?opened⟩, ?close, fun x rows hk hr => ?result,
    fun x hk hr => sessionResultWrite_open hk hr, fun i j off bytes credit hk hm => ?message,
    fun i j hk hg => ⟨fun hm => ⟨_, sessionResultWrite_lost hk hm, haltsWith_joinFault rfl rfl hg ..⟩,
      fun hm => ⟨_, sessionResultWrite_refused hk hm, haltsWith_joinFault rfl rfl hg ..⟩⟩,
    fun hk => ⟨by simp only [idle, exec, execSessionJoin, hk], by simp only [idle, exec, execSessionClose, hk]⟩⟩
  case new =>
    have h := sessionJoin_new hk hj he hx
    exact ⟨fun hlt => by rw [h, if_pos hlt], fun hge => by rw [idle, h, if_neg (not_lt.mpr hge)]⟩
  case opened =>
    have h {bad : Bool} := sessionJoin_open hk hj he hx (bad := bad)
    have hmem : x ∈ s.sessions := List.mem_of_find?_eq_some hx
    have hbad : (!x.agrees m || x.joins.any (·.pno == j.pno)) = true ↔ ¬(x.agrees m = true ∧ ∀ i ∈ x.joins, i.pno ≠ j.pno) := by
      simp [imp_iff_not_or]
    refine ⟨fun hs => ⟨_, h (Bool.eq_false_iff.mpr fun hb => hbad.mp hb hs), s.withJoin_sessions ..⟩, fun hs hh hg => ?_, fun n hs hh hn hl => ?_⟩
    · refine ⟨(s.withJoin k x j true).joinFault j Cause.fmt 0, (h (hbad.mpr hs)).trans (by rw [if_neg (by decide), if_pos hh]),
        haltsWith_joinFault (u := s.withJoin k x j true) rfl rfl hg .., ?_⟩
      rw [(State.Signals.joinFault ..).sessions]
      exact State.mem_withJoin hmem k j
    · refine ⟨(s.withJoin k x j true).toJoin x j.pc j (.refused j), (h (hbad.mpr hs)).trans (by rw [if_neg (by decide), if_neg (by simp [hh])]),
        State.toJoin_out (s := s.withJoin k x j true) hn hl .., ?_⟩
      rw [(State.Signals.toJoin ..).sessions]
      exact State.mem_withJoin hmem k j
  case close =>
    intro sid sc home j x hk hx x' closed
    have hmem : ∃ y ∈ (s.dropMsg k).sessions, y.id = x'.id := ⟨x, List.mem_of_find?_eq_some hx, rfl⟩
    refine ⟨(s.dropMsg k).advance x', sessionClose_finds hk hx, State.advance_smsgs .., State.advance_waiting hmem, fun hc ha hu => ?_,
      fun i r hc ha hr hi hlow hfirst hq => ?_, fun hc ha => State.advance_failed hc ha⟩
    · exact State.advance_result hmem hc ha (Session.unread_none hu)
    · have h := State.advance_reads (s := s.dropMsg k) (x := x') hc ha (Session.unread_some hr hi hlow hfirst) hq
      refine ⟨?_, fun n hn hl => ?_⟩
      · rw [h, (State.Signals.toJoin ..).sessions]
        exact State.mem_putSession (x := { x' with asked := some (i.pno, r) }) hmem
      · rw [h, State.toJoin_out (s := (s.dropMsg k).modSession ..) hn hl]
        rfl
  case result =>
    intro asks row
    refine ⟨sessionResultWrite_done hk hr, sessionResultWrite_waits hk hr, fun j u hj hn hu => sessionResultWrite_row hk hr hj hn hu,
      fun j u hj hn hu => sessionResultWrite_row hk hr hj hn hu⟩
  case message =>
    refine ⟨?_, fun u hb hu => ?_, fun u hb hu => ?_⟩
    · rintro (hb | hn)
      · exact sessionResultWrite_behind hk hm hb
      · by_cases hb : s.rowBehind i j
        · exact sessionResultWrite_behind hk hm hb
        · rw [idle, sessionResultWrite_writes hk hm hb, hn]; rfl
    · rw [sessionResultWrite_writes hk hm hb, hu]; rfl
    · rw [sessionResultWrite_writes hk hm hb, hu]; rfl

end Sys2Proof.Machine
end
section
/-! PROOFS. Rows of results, and .pod generations (R231, R252 to R254, R380): the rest of O56. -/
namespace Sys2Proof.Machine
open Sys2Proof.Claims

/-! ## Where a row of a result lands (R231) -/

/-- The participant's context is not there to take the row, or the row's frame is on the move. -/
def State.rowAway (s : State) (j : SJoin) (at_ : DWord) (n : Nat) : Prop :=
  s.ready = false ∨ (s.part (s.partOf j.die)).halt = true ∨ (s.die j.die).active.ctx ≠ j.ctx ∨
    ∃ va, CAddr.of at_ = some (.main va) ∧ s.vaStalled j.die j.core false va n = true

/-- A row has landed at a carder address in `u`, in local memory or in main memory, its bytes bound to NOTIFY (R120). -/
def State.rowLanded (s u : State) (j : SJoin) (at_ : DWord) (bytes : List Byte) : Prop :=
  (∃ sp a, CAddr.of at_ = some (.loc sp a) ∧ s.inSpace j.die j.gid sp a bytes.length = true ∧ s.touchesLive j.die j.gid sp a bytes.length = false ∧
    u = (s.writeLocal j.die j.gid 0 sp a bytes).useBytes j.die j.gid j.notify (some sp) a bytes.length) ∨
  ∃ va t, CAddr.of at_ = some (.main va) ∧ s.writeVa j.die j.core false va bytes = .ok t ∧
    u = t.useBytes j.die j.gid j.notify none va.toNat bytes.length

section
variable {s : State} {j : SJoin} {off : Nat} {bytes : List Byte} {credit : Nat} (hg : j.gid ≠ 0)
include hg

theorem State.writeResult_away (h : s.rowAway j (j.dest + BitVec.ofNat 64 off) bytes.length) : s.writeResult j off bytes credit = none := by
  unfold State.writeResult
  simp only [if_neg hg, decide_eq_false hg]
  obtain hr | hh | hc | ⟨va, hva, hs⟩ := h
  · rw [if_pos (by simp [hr])]
  · rw [if_pos (by simp [hh])]
  · rw [if_pos (by simp [hc])]
  · rw [hva]
    simp [hs]

theorem State.writeResult_landed (h : ¬s.rowAway j (j.dest + BitVec.ofNat 64 off) bytes.length) {u v : State}
    (hu : s.rowLanded u j (j.dest + BitVec.ofNat 64 off) bytes) (hv : (if credit = 0 then .ok u else u.credit j.die j.gid j.notify none credit) = .ok v) :
    s.writeResult j off bytes credit = some (true, v) := by
  simp only [State.rowAway, not_or, not_exists, not_and, Bool.not_eq_false, Bool.not_eq_true, not_not] at h
  obtain ⟨hr, hh, hc, hs⟩ := h
  unfold State.writeResult
  simp only [if_neg hg, decide_eq_false hg, hr, hh, hc]
  obtain ⟨sp, a, hat, hin, hlive, rfl⟩ | ⟨va, t, hat, hw, rfl⟩ := hu
  · simp [hat, hin, hlive, Acc.bind, hv]
  · simp [hat, hw, hs va hat, Acc.bind, hv]
end

/-- R231, R54, R120: where rows of results land, the second third of O56. -/
theorem resultRowsLand : Claims.ResultRowsLand := by
  intro s x j bytes hh hg packed at_ away landed
  have hrow : s.resultRow x bytes j = s.writeResult j (j.written * rowStride x.dfmt.toNat x.cols j.dstride) bytes
      (if j.written + 1 = x.rows then x.rows * packed else 0) := by
    simp only [State.resultRow, hh, if_true]
    rfl
  refine ⟨fun ha => hrow.trans (State.writeResult_away hg ha), fun ha u hu => ⟨fun hn => ?_, fun v hlast hne hv => ?_⟩⟩
  · refine hrow.trans (State.writeResult_landed hg ha hu (if_pos ?_))
    obtain hn | hn := hn
    · exact if_neg hn
    · rw [hn, ite_self]
  · refine hrow.trans (State.writeResult_landed hg ha hu ?_)
    rw [if_pos hlast, if_neg hne]
    exact hv

/-! ## One counter set of a launch -/

/-- An update of a set that leaves its home, launch, scope and instance. -/
def CSet.KeepsKey (f : CSet → CSet) : Prop := ∀ c, (f c).die = c.die ∧ (f c).launch = c.launch ∧ (f c).scope = c.scope ∧ (f c).inst = c.inst

theorem CSet.is_of_keepsKey {f : CSet → CSet} (hf : CSet.KeepsKey f) (c : CSet) (home : DieId) (launch : Nat) (sc : Scope) (inst : Nat) :
    (f c).is home launch sc inst = c.is home launch sc inst := by
  obtain ⟨hd, hl, hs, hi⟩ := hf c
  simp only [CSet.is, hd, hl, hs, hi]
theorem State.is_of_cset {s : State} {home : DieId} {launch : Nat} {sc : Scope} {inst : Nat} {c : CSet} (h : s.cset home launch sc inst = some c) :
    c.is home launch sc inst = true := List.find?_some (p := (CSet.is · home launch sc inst)) h

theorem State.cset_modSet (s : State) {f : CSet → CSet} (hf : CSet.KeepsKey f) (home home' : DieId) (launch launch' : Nat)
    (sc sc' : Scope) (inst inst' : Nat) : (s.modSet home launch sc inst f).cset home' launch' sc' inst' =
      (s.cset home' launch' sc' inst').map fun c => if c.is home launch sc inst then f c else c := by
  unfold State.cset State.modSet
  rw [List.find?_map]
  congr 2
  funext c
  show CSet.is (if c.is home launch sc inst then f c else c) home' launch' sc' inst' = c.is home' launch' sc' inst'
  split
  · exact CSet.is_of_keepsKey hf ..
  · rfl
theorem State.cset_modSet_same {s : State} {home : DieId} {launch : Nat} {sc : Scope} {inst : Nat} {c : CSet} (h : s.cset home launch sc inst = some c)
    {f : CSet → CSet} (hf : CSet.KeepsKey f) : (s.modSet home launch sc inst f).cset home launch sc inst = some (f c) := by
  rw [State.cset_modSet _ hf, h, Option.map_some, if_pos (State.is_of_cset h)]
theorem State.Signals.cset {s t : State} (h : s.Signals t) (home : DieId) (launch : Nat) (sc : Scope) (inst : Nat) :
    t.cset home launch sc inst = s.cset home launch sc inst := congrArg (List.find? _) h.sets

/-! ## What a settled generation can have become (R254) -/

theorem State.Signals.tellRanks (s : State) (home : DieId) (L : Launch) (pc : DWord) (m : Payload) : s.Signals (s.tellRanks home L pc m) :=
  .foldl (fun _ _ => .transmit ..) _ s
theorem State.Signals.askOpen (s : State) (home : DieId) (L : Launch) (c : CSet) : s.Signals (s.askOpen home L c) := .transmit ..

/-- A set after its generation has opened: the groups resident now are its members, those that came early have arrived. -/
def State.opened (s : State) (home : DieId) (L : Launch) (sc : Scope) (inst : Nat) (c : CSet) : CSet :=
  { c with open_ := true, members := s.residents home L.id sc inst, arrived := c.next, next := [], ranks := [], sentUp := false }

/-- Opening a generation changes its set alone; one that is open stays. -/
theorem State.openGen_signals {s : State} {home : DieId} {L : Launch} {sc : Scope} {inst : Nat} {c : CSet}
    (h : s.cset home L.id sc inst = some c) (pc : DWord) : (c.open_ = true ∧ s.openGen home L sc inst pc = s) ∨ (c.open_ = false ∧
      State.Signals ((s.openSet home L.id sc inst).modSet home L.id sc inst fun c => { c with pc := pc }) (s.openGen home L sc inst pc)) := by
  unfold State.openGen
  rw [h]
  cases ho : c.open_
  · refine .inr ⟨rfl, ?_⟩
    simp only [ho, Bool.false_eq_true, if_false]
    split
    · exact .tellRanks ..
    · exact .refl _
  · exact .inl ⟨rfl, by simp [ho]⟩

theorem State.cset_openSet {s : State} {home : DieId} {L : Launch} {sc : Scope} {inst : Nat} {c : CSet} (h : s.cset home L.id sc inst = some c) :
    (s.openSet home L.id sc inst).cset home L.id sc inst = some (s.opened home L sc inst c) :=
  State.cset_modSet_same h (f := s.opened home L sc inst) fun _ => ⟨rfl, rfl, rfl, rfl⟩

/-- From `s` to `t` sets have settled, at most: launches and inbox are as they were, and each set has at most sent its combined arrival or ended
its generation. -/
structure State.Settles (s t : State) : Prop where
  launches : t.launches = s.launches
  inbox : t.inbox = s.inbox
  set : ∀ home launch sc inst c, s.cset home launch sc inst = some c →
    ∃ c', t.cset home launch sc inst = some c' ∧ (c' = { c with sentUp := c'.sentUp } ∨ c.gen < c'.gen)

theorem State.Signals.settles {s t : State} (h : s.Signals t) : s.Settles t :=
  ⟨h.launches, h.inbox, fun _ _ _ _ c hc => ⟨c, (h.cset ..).trans hc, .inl rfl⟩⟩
theorem State.Settles.trans {s t u : State} (h : s.Settles t) (k : t.Settles u) : s.Settles u where
  launches := k.launches.trans h.launches
  inbox := k.inbox.trans h.inbox
  set home launch sc inst c hc := by
    obtain ⟨c', hc', hs⟩ := h.set _ _ _ _ _ hc
    obtain ⟨c'', hc'', hs'⟩ := k.set _ _ _ _ _ hc'
    refine ⟨c'', hc'', ?_⟩
    have hgen : c.gen ≤ c'.gen := hs.elim (fun e => by rw [e]) le_of_lt
    obtain e' | hlt := hs'
    · obtain e | hlt := hs
      · exact .inl (by rw [e', e])
      · exact .inr (by rwa [e'])
    · exact .inr (by omega)
theorem State.Settles.foldl {α : Type} {f : State → α → State} (hf : ∀ (s : State) a, s.Settles (f s a)) (l : List α) (s : State) :
    s.Settles (l.foldl f s) := by
  induction l generalizing s with
  | nil => exact (State.Signals.refl s).settles
  | cons a l ih => exact (hf s a).trans (ih _)

theorem State.Settles.modSet (s : State) (home : DieId) (launch : Nat) (sc : Scope) (inst : Nat) {f : CSet → CSet} (hk : CSet.KeepsKey f)
    (hf : ∀ c, f c = { c with sentUp := (f c).sentUp } ∨ c.gen < (f c).gen) : s.Settles (s.modSet home launch sc inst f) where
  launches := rfl
  inbox := rfl
  set home' launch' sc' inst' c hc := by
    refine ⟨_, by rw [State.cset_modSet _ hk, hc, Option.map_some], ?_⟩
    split
    · exact hf c
    · exact .inl rfl

/-- The set of an ended generation: the number advances and the counters reload (R254). -/
def Launch.ended (L : Launch) (c : CSet) : CSet :=
  { c with gen := c.gen + 1, open_ := false, members := [], arrived := [], ranks := [],
           counters := match L.phaseAt c.scope with | some h => h.exps | none => [] }

theorem State.endGen_eq (s : State) (L : Launch) (c : CSet) : s.endGen L c =
    let t := s.modSet c.die L.id c.scope c.inst L.ended
    let u := if c.scope == .pod then t.tellRanks c.die L c.pc (.podRelease L.id c.gen) else t
    if c.next.isEmpty then u else u.openGen c.die L c.scope c.inst c.pc := rfl

/-- Opening a generation leaves launches, inbox, other sets and the numbers of all generations. -/
theorem State.openGen_keeps (s : State) (home : DieId) (L : Launch) (sc : Scope) (inst : Nat) (pc : DWord) :
    (s.openGen home L sc inst pc).launches = s.launches ∧ (s.openGen home L sc inst pc).inbox = s.inbox ∧
    ∀ home' launch' sc' inst' d, s.cset home' launch' sc' inst' = some d → ∃ d', (s.openGen home L sc inst pc).cset home' launch' sc' inst' = some d' ∧
      d'.gen = d.gen ∧ (d.is home L.id sc inst = false → d' = d) := by
  cases hc : s.cset home L.id sc inst with
  | none =>
    rw [show s.openGen home L sc inst pc = s by rw [State.openGen, hc]]
    exact ⟨rfl, rfl, fun _ _ _ _ d hd => ⟨d, hd, rfl, fun _ => rfl⟩⟩
  | some c =>
    obtain ⟨-, h⟩ | ⟨-, h⟩ := State.openGen_signals hc pc
    · rw [h]
      exact ⟨rfl, rfl, fun _ _ _ _ d hd => ⟨d, hd, rfl, fun _ => rfl⟩⟩
    · refine ⟨h.launches, h.inbox, fun _ _ _ _ d hd => ?_⟩
      rw [h.cset, State.cset_modSet, State.openSet, State.cset_modSet, hd]
      · refine ⟨_, rfl, ?_, fun hne => ?_⟩
        · simp only [apply_ite CSet.gen, ite_self]
        · simp only [hne, Bool.false_eq_true, if_false]
      · exact fun _ => ⟨rfl, rfl, rfl, rfl⟩
      · exact fun _ => ⟨rfl, rfl, rfl, rfl⟩

theorem State.Settles.endGen (s : State) (L : Launch) (c : CSet) : s.Settles (s.endGen L c) := by
  have hk : CSet.KeepsKey L.ended := fun _ => ⟨rfl, rfl, rfl, rfl⟩
  rw [State.endGen_eq]
  extract_lets t u
  have htu : t.Signals u := by
    unfold u
    split
    · exact .tellRanks ..
    · exact .refl t
  split
  · exact (State.Settles.modSet s _ _ _ _ hk fun d => .inr (Nat.lt_succ_self d.gen)).trans htu.settles
  · obtain ⟨hl, hi, hset⟩ := u.openGen_keeps c.die L c.scope c.inst c.pc
    refine ⟨hl.trans htu.launches, hi.trans htu.inbox, fun home launch sc inst d hd => ?_⟩
    have hu : u.cset home launch sc inst = some (if d.is c.die L.id c.scope c.inst then L.ended d else d) := by
      rw [htu.cset, State.cset_modSet _ hk, hd, Option.map_some]
    obtain ⟨d', hd', hgen, hother⟩ := hset _ _ _ _ _ hu
    refine ⟨d', hd', ?_⟩
    cases hb : d.is c.die L.id c.scope c.inst
    · rw [hb] at hother
      exact .inl (by rw [hother hb]; rfl)
    · rw [hb] at hgen
      exact .inr (by rw [hgen]; exact Nat.lt_succ_self d.gen)

/-- Settling a set once: nothing, the combined arrival of a package that is not the home, or the end of a generation (R254, R380). -/
theorem State.settleOnce_cases (s : State) (home : DieId) (launch : Nat) (sc : Scope) (inst : Nat) :
    s.settleOnce home launch sc inst = s ∨
    (State.Signals (s.modSet home launch sc inst fun c => { c with sentUp := true }) (s.settleOnce home launch sc inst)) ∨
    ∃ L c, s.launchById launch = some L ∧ L.holds sc = true ∧ s.settleOnce home launch sc inst = s.endGen L c := by
  unfold State.settleOnce
  split
  · next c L hc hL =>
    split_ifs with hopen hheld hsent hend
    · exact .inl rfl
    · exact .inl rfl
    · exact .inr (.inl (.transmit ..))
    · exact .inr (.inr ⟨L, c, hL, by simpa using hheld, rfl⟩)
    · exact .inl rfl
  · exact .inl rfl

theorem State.Settles.settleOnce (s : State) (home : DieId) (launch : Nat) (sc : Scope) (inst : Nat) : s.Settles (s.settleOnce home launch sc inst) := by
  obtain h | h | ⟨L, c, -, -, h⟩ := s.settleOnce_cases home launch sc inst
  · rw [h]; exact (State.Signals.refl s).settles
  · exact (State.Settles.modSet s _ _ _ _ (f := fun c => { c with sentUp := true }) (fun _ => ⟨rfl, rfl, rfl, rfl⟩) fun _ => .inl rfl).trans h.settles
  · rw [h]; exact .endGen s L c
theorem State.Settles.settleSet (s : State) (home : DieId) (launch : Nat) (sc : Scope) (inst : Nat) : s.Settles (s.settleSet home launch sc inst) :=
  (State.Settles.settleOnce ..).trans (.settleOnce ..)
theorem State.Settles.settleLaunch (s : State) (launch : Nat) : s.Settles (s.settleLaunch launch) := .foldl (fun _ _ => .settleSet ..) _ s

/-- Away from its home a .pod generation ends only with the home's release. -/
theorem State.settleSet_away {s : State} {L : Launch} (hL : s.launchById L.id = some L) (hr : L.rank ≠ 0) {home : DieId} {inst : Nat} {c : CSet}
    (hc : s.cset home L.id .pod inst = some c) :
    ∃ c', (s.settleSet home L.id .pod inst).cset home L.id .pod inst = some c' ∧ c' = { c with sentUp := c'.sentUp } := by
  have once {s : State} (hL : s.launchById L.id = some L) {c : CSet} (hc : s.cset home L.id .pod inst = some c) :
      ∃ c', (s.settleOnce home L.id .pod inst).cset home L.id .pod inst = some c' ∧ c' = { c with sentUp := c'.sentUp } := by
    obtain h | h | ⟨L', c', hL', hh, -⟩ := s.settleOnce_cases home L.id .pod inst
    · rw [h]; exact ⟨c, hc, rfl⟩
    · exact ⟨_, (h.cset ..).trans (State.cset_modSet_same hc fun _ => ⟨rfl, rfl, rfl, rfl⟩), rfl⟩
    · rw [hL] at hL'; cases hL'
      simp [Launch.holds, hr] at hh
  obtain ⟨c', hc', he⟩ := once hL hc
  have hL' : (s.settleOnce home L.id .pod inst).launchById L.id = some L :=
    (congrArg (List.find? _) (State.Settles.settleOnce ..).launches).trans hL
  obtain ⟨c'', hc'', he'⟩ := once hL' hc'
  exact ⟨c'', hc'', by rw [he', he]⟩

/-! ## Packets of .pod generations -/

/-- A release ends the generation that it names. -/
def CSet.released (gen : Nat) (c : CSet) : CSet :=
  if c.open_ ∧ c.num = gen then { c with gen := c.gen + 1, open_ := false, members := [], arrived := [], sentUp := false } else c

theorem CSet.keepsKey_released (gen : Nat) : CSet.KeepsKey (CSet.released gen) := fun c => by
  unfold CSet.released
  split <;> exact ⟨rfl, rfl, rfl, rfl⟩

/-- The package's set of the launch stands: a packet finds it. -/
theorem State.withPodSet_of_cset {s : State} {L : Launch} {c : CSet} (hc : s.cset (s.podHome L) L.id .pod 0 = some c) (f : DieId → CSet → State → State) :
    s.withPodSet L f = f (s.podHome L) c s := by
  have hneed : s.needSet (s.podHome L) L.ctx L .pod 0 = .ok s := by rw [State.needSet, hc]
  simp only [State.withPodSet, hneed, hc]

section
variable {s : State} {rest : List Input} {n : Fin 36} {h : Header} {launch : Nat} {pc : DWord}

/-- A package that runs none of the launch's groups has arrived at once. -/
theorem podGenerationOpen_foreign {gen : Nat} (hi : headed s (.link n h (.podOpen launch gen pc)) rest) (hL : s.podLaunch h launch = none) :
    exec .podGenerationOpen s = .next ({ s with inbox := rest }.sendFrom n.val ((s.partFor h).bind fun p => (s.diesOf p).head?) pc
      { h with dst := h.src, src := h.dst } (.podArrival launch gen true pc)) := by
  have hL' : ({ s with inbox := rest } : State).podLaunch h launch = none := hL
  simp only [exec, execPodGenerationOpen, withInput, show s.inbox = _ from hi, hL']
  rfl

variable {L : Launch} {c : CSet} (hp : podSet s h L.id L c)
include hp

theorem podGenerationOpen_here {gen : Nat} (hi : headed s (.link n h (.podOpen L.id gen pc)) rest) : exec .podGenerationOpen s =
    .next (if c.open_ then { s with inbox := rest } else
      (({ s with inbox := rest }.openSet (s.podHome L) L.id .pod 0).modSet (s.podHome L) L.id .pod 0 fun c =>
        { c with num := gen, pc := pc }).settleSet (s.podHome L) L.id .pod 0) := by
  obtain ⟨hL, -, -, hc⟩ := hp
  have hL' : ({ s with inbox := rest } : State).podLaunch h L.id = some L := hL
  simp only [exec, execPodGenerationOpen, withInput, show s.inbox = _ from hi, hL']
  rw [State.withPodSet_of_cset (s := { s with inbox := rest }) hc]
  rfl
theorem podCombinedArrival_here {gen : Nat} {combined : Bool} (hi : headed s (.link n h (.podArrival L.id gen combined pc)) rest) :
    exec .podCombinedArrival s = .next (
      if !combined then ({ s with inbox := rest }.openGen (s.podHome L) L .pod 0 pc).settleSet (s.podHome L) L.id .pod 0
      else if c.gen ≠ gen || !c.open_ then { s with inbox := rest }
      else ({ s with inbox := rest }.modSet (s.podHome L) L.id .pod 0 fun c =>
        { c with ranks := h.src :: c.ranks, pc := pc }).settleSet (s.podHome L) L.id .pod 0) := by
  obtain ⟨hL, -, -, hc⟩ := hp
  have hL' : ({ s with inbox := rest } : State).podLaunch h L.id = some L := hL
  simp only [exec, execPodCombinedArrival, withInput, show s.inbox = _ from hi, hL']
  rw [State.withPodSet_of_cset (s := { s with inbox := rest }) hc]
  rfl
/-- The fault of a count that no phase expects (R252). -/
def State.uncounted (s : State) (L : Launch) : FaultRec :=
  { die := s.podHome L, slot := 248, clock := s.clock, form := {}, stop := { cause := Cause.baruse, cls := 2, ctx := L.ctx } }
theorem podPhaseCount_here {dest m : Nat} (hi : headed s (.link n h (.podCount L.id dest m pc)) rest) : exec .podPhaseCount s = .next (
    if c.counters.getD dest 0 < m then { s with inbox := rest }.raiseFault (s.uncounted L)
    else ({ s with inbox := rest }.modSet (s.podHome L) L.id .pod 0 fun c' =>
      { c' with counters := c'.counters.set dest (c.counters.getD dest 0 - m), pc := pc }).settleLaunch L.id) := by
  obtain ⟨hL, -, -, hc⟩ := hp
  have hL' : ({ s with inbox := rest } : State).podLaunch h L.id = some L := hL
  simp only [exec, execPodPhaseCount, withInput, show s.inbox = _ from hi, hL']
  rw [State.withPodSet_of_cset (s := { s with inbox := rest }) hc]
  rfl

theorem podRelease_here {gen : Nat} (hi : headed s (.link n h (.podRelease L.id gen)) rest) :
    ∃ t, exec .podRelease s = .next t ∧ ({ s with inbox := rest }.modSet (s.podHome L) L.id .pod 0 (CSet.released gen)).Signals t := by
  obtain ⟨hL, -, -, hc⟩ := hp
  have hL' : ({ s with inbox := rest } : State).podLaunch h L.id = some L := hL
  have hset : ({ s with inbox := rest }.modSet (s.podHome L) L.id .pod 0 (CSet.released gen)).cset (s.podHome L) L.id .pod 0 = some (c.released gen) :=
    State.cset_modSet_same (s := { s with inbox := rest }) hc (CSet.keepsKey_released gen)
  have hexec : exec .podRelease s = .next (if (c.released gen).open_ || (c.released gen).next.isEmpty
      then { s with inbox := rest }.modSet (s.podHome L) L.id .pod 0 (CSet.released gen)
      else ({ s with inbox := rest }.modSet (s.podHome L) L.id .pod 0 (CSet.released gen)).askOpen (s.podHome L) L (c.released gen)) := by
    simp only [exec, execPodRelease, withInput, show s.inbox = _ from hi, hL']
    split
    · next c' hc' => obtain rfl : c.released gen = c' := Option.some.inj (hset.symm.trans hc'); rfl
    · next hc' => exact absurd (hset.symm.trans hc') nofun
  refine ⟨_, hexec, ?_⟩
  split
  · exact .refl _
  · exact .askOpen ..
end

/-! ## The clause of O56 on .pod generations -/

/-- A handled packet: the inbox is shorter by it, and the set of the launch is as `P` says. -/
theorem leaves_of_settles {s t u : State} {i : Instr} (he : exec i s = .next u) {home : DieId} {launch : Nat} {c : CSet}
    (ht : t.cset home launch .pod 0 = some c) (h : t.Settles u) {P : CSet → Prop}
    (hP : ∀ c', (c' = { c with sentUp := c'.sentUp } ∨ c.gen < c'.gen) → P c') :
    yields s i fun u => u.inbox = t.inbox ∧ ∃ c', u.cset home launch .pod 0 = some c' ∧ P c' := by
  obtain ⟨c', hc', hs⟩ := h.set _ _ _ _ _ ht
  exact ⟨u, he, h.inbox, c', hc', hP c' hs⟩
theorem leaves_of_signals {s t u : State} {i : Instr} (he : exec i s = .next u) {home : DieId} {launch : Nat} {c : CSet}
    (ht : t.cset home launch .pod 0 = some c) (h : t.Signals u) {P : CSet → Prop} (hP : P c) :
    yields s i fun u => u.inbox = t.inbox ∧ ∃ c', u.cset home launch .pod 0 = some c' ∧ P c' :=
  ⟨u, he, h.inbox, c, (h.cset ..).trans ht, hP⟩

/-- R252, R254, R380: what packets of .pod generations do, the last third of O56. -/
theorem podGenerations : Claims.PodGenerations := by
  refine ⟨fun s rest n h launch gen pc hi hL hlink => ⟨_, podGenerationOpen_foreign hi hL, (State.Signals.sendFrom ..).inbox,
    State.sendFrom_out (s := { s with inbox := rest }) hlink ..⟩, ?_⟩
  intro s rest n h launch L c hp home leaves
  obtain ⟨hL, hLid, rfl, hc⟩ := hp
  have hp : podSet s h L.id L c := ⟨hL, hLid, rfl, hc⟩
  have hc' : ({ s with inbox := rest } : State).cset home L.id .pod 0 = some c := hc
  refine ⟨fun gen pc hi hr => ⟨fun ho => ?isOpen, fun ho => ?opens⟩,
    fun gen combined pc hi hr => ⟨fun hb ho => ?first, fun hb hg ho => ?combines, fun hb hg => ?late⟩,
    fun dest m pc hi => ⟨fun hm => ?counts, fun hm => ?refuses⟩, fun gen hi => ⟨fun ho hg => ?ends, fun hn => ?stays⟩⟩
  case isOpen => exact leaves_of_signals ((podGenerationOpen_here hp hi).trans (by rw [if_pos ho])) hc' (.refl _) rfl
  case opens =>
    have hset := State.cset_modSet_same (State.cset_openSet hc') (f := fun c => { c with num := gen, pc := pc }) fun _ => ⟨rfl, rfl, rfl, rfl⟩
    obtain ⟨c', hc'', he⟩ := State.settleSet_away (s := ({ s with inbox := rest }.openSet home L.id .pod 0).modSet home L.id .pod 0 fun c =>
      { c with num := gen, pc := pc }) hLid hr hset
    refine ⟨_, (podGenerationOpen_here hp hi).trans (by rw [ho, if_neg (by decide)]), (State.Settles.settleSet ..).inbox, c', hc'', ?_⟩
    rw [he]
    exact ⟨rfl, rfl, rfl, rfl, rfl, rfl⟩
  case first =>
    subst hb
    obtain ⟨h', -⟩ | ⟨-, hs⟩ := State.openGen_signals hc' pc
    · rw [ho] at h'; cases h'
    · have hset := State.cset_modSet_same (State.cset_openSet hc') (f := fun c => { c with pc := pc }) fun _ => ⟨rfl, rfl, rfl, rfl⟩
      refine leaves_of_settles ((podCombinedArrival_here hp hi).trans (by rw [if_pos (by decide)])) hset (hs.settles.trans (.settleSet ..))
        fun c' hs => hs.imp (fun he => ?_) id
      rw [he]
      exact ⟨rfl, rfl, rfl, rfl⟩
  case combines =>
    subst hb
    refine leaves_of_settles ((podCombinedArrival_here hp hi).trans (by rw [if_neg (by decide), if_neg (by simp [hg, ho])]))
      (State.cset_modSet_same hc' (f := fun c => { c with ranks := h.src :: c.ranks, pc := pc }) fun _ => ⟨rfl, rfl, rfl, rfl⟩) (.settleSet ..)
      fun c' hs => hs.imp (fun he => ?_) fun hlt => hg ▸ hlt
    rw [he]
    exact ⟨hg, ho, rfl, List.mem_cons_self⟩
  case late =>
    subst hb
    have hstale : (c.gen ≠ gen || !c.open_) = true := by simpa using hg
    exact leaves_of_signals ((podCombinedArrival_here hp hi).trans (by rw [if_neg (by decide), if_pos hstale])) hc' (.refl _) rfl
  case counts =>
    refine leaves_of_settles ((podPhaseCount_here hp hi).trans (by rw [if_neg (not_lt.mpr hm)]))
      (State.cset_modSet_same hc' (f := fun c' => { c' with counters := c'.counters.set dest (c.counters.getD dest 0 - m), pc := pc })
        fun _ => ⟨rfl, rfl, rfl, rfl⟩) (.settleLaunch ..) fun c' hs => hs.imp (fun he => ?_) id
    rw [he]
    refine ⟨rfl, rfl, ?_⟩
    by_cases hlt : dest < c.counters.length
    · simp [List.getD_eq_getElem?_getD, hlt]
    · simp [List.getD_eq_getElem?_getD, hlt]
  case refuses =>
    exact ⟨{ s with inbox := rest }.raiseFault (s.uncounted L), (podPhaseCount_here hp hi).trans (by rw [if_pos hm]),
      haltsWith_raiseFault (s := s) (u := { s with inbox := rest }) (f := s.uncounted L) rfl rfl, (State.Signals.raiseFault ..).sets⟩
  case ends =>
    obtain ⟨t, ht, hs⟩ := podRelease_here hp hi
    exact leaves_of_signals ht (State.cset_modSet_same hc' (CSet.keepsKey_released gen)) hs (if_pos ⟨ho, hg⟩)
  case stays =>
    obtain ⟨t, ht, hs⟩ := podRelease_here hp hi
    exact leaves_of_signals ht (State.cset_modSet_same hc' (CSet.keepsKey_released gen)) hs (if_neg (by rw [not_and_or]; simpa using hn))

/-- Settles O56: the events of sessions and of .pod generations, one part after the other. -/
theorem collectiveEvents : Obligations.CollectiveEvents := ⟨sessionsAtHome, resultRowsLand, podGenerations⟩
end Sys2Proof.Machine
end
section
/-! PROOFS. Power-on and layouts (R9, R12, R324, R361 to R364, R381): the first part of O60. -/
namespace Sys2Proof.Machine
open Sys2Proof.Claims

/-! ## The image that bring-up runs -/

theorem vget_foldl_vput {α : Type} {n : Nat} (f : Nat → α) (z : α) (k : Nat) (hk : k < n) : ∀ (l : List Nat) (v : Vector α n),
    vget (l.foldl (fun v i => vput v i (f i)) v) k z = if k ∈ l then f k else vget v k z
  | [], v => by simp
  | i :: l, v => by
    rw [List.foldl_cons, vget_foldl_vput f z k hk l, vget_vput]
    by_cases hl : k ∈ l
    · simp [hl]
    · by_cases hi : i = k
      · simp [hl, hi, hk]
      · simp [hl, hi, Ne.symm hi]
theorem vget_val {α : Type} {n : Nat} (v : Vector α n) (i : Fin n) (z : α) : vget v i.val z = v.get i := dif_pos i.isLt

/-- Step 4 of bring-up writes each die anew. -/
theorem State.die_program (s : State) (b : BootImage) (d : DieId) : (s.program b).die d = bootDie (b.dies.getD d.val default) (s.die d).failed := by
  have h : (s.program b).die d = vget (s.program b).dies d.val {} := (vget_val ..).symm
  rw [h]
  simp only [State.program]
  rw [vget_foldl_vput (fun i => bootDie (b.dies.getD i default) (vget s.dies i {}).failed) _ _ d.isLt, if_pos (List.mem_range.mpr d.isLt), vget_val]
  rfl
theorem bootWave_lanes {core : Nat} {pc : DWord} {l : Lane} (h : l ∈ (bootWave core pc).lanes) : l.ctl.pc = pc ∧ ∀ n, vget l.g n 0 = 0 := by
  obtain ⟨x, -, rfl⟩ := List.mem_map.mp h
  refine ⟨rfl, fun n => ?_⟩
  unfold vget
  split
  · exact Vector.getElem_replicate ..
  · rfl

theorem vget_vmap_self {α β : Type} {n : Nat} (f : α → β) (v : Vector α n) (i : Fin n) : (vmap f v).get i = f (v.get i) := by
  have h := vget_vmap f v i.val (v.get i)
  rwa [vget_val, vget_val] at h
theorem State.partOf_moduleReset (s : State) (d : DieId) : s.moduleReset.partOf d = 0 := Vector.getElem_replicate ..
/-- A reset leaves a die no wave. -/
theorem State.svLanes_moduleReset (s : State) (d : DieId) : (s.moduleReset.die d).sv.lanes = (State.reset.die d).sv.lanes := by
  have hd : s.moduleReset.die d = { failed := (s.die d).failed } := vget_vmap_self ..
  have hr : State.reset.die d = {} := Vector.getElem_replicate ..
  rw [hd, hr]

/-- The step that follows fails. -/
def State.stepFails (s : State) (b : BootImage) : Prop := (s.bringup + 1 = 1 ∧ b.trusted = false) ∨ ∃ k, b.fails = some k ∧ s.bringup + 1 = k.val + 2

theorem State.stepFails_iff {s : State} {b : BootImage} :
    s.stepFails b ↔ ((s.bringup + 1 = 1 && !b.trusted) || (b.fails.any fun i => i.val + 2 == s.bringup + 1)) = true := by
  unfold State.stepFails
  cases hf : b.fails with
  | none => simp
  | some k => simp [eq_comm (b := s.bringup)]

section
variable {s : State} {b : BootImage}

theorem bringupStep_fails (hb : s.stepFails b) (h5 : s.bringup + 1 ≠ 5) : s.bringupStep b = s.bringupFails (s.bringup + 1) (Config.bringupReason s.seq) := by
  unfold State.bringupStep
  rw [if_neg h5, if_pos (State.stepFails_iff.mp hb)]
/-- A step that does not fail does its work, and is counted. -/
theorem bringupStep_goes (hb : ¬s.stepFails b) (h5 : s.bringup + 1 ≠ 5) : s.bringupStep b =
    if s.bringup + 1 = 1 then { s with bringup := s.bringup + 1, fwMeas := b.measurement }
    else if s.bringup + 1 = 3 then { s with bringup := s.bringup + 1, mem := s.mem.filter fun c => poolOf c.1 != 0,
                                            badLines := s.badLines.filter fun l => poolOf (64 * l) != 0 }
    else if s.bringup + 1 = 4 then { s with bringup := s.bringup + 1 }.program b else { s with bringup := s.bringup + 1 } := by
  unfold State.bringupStep
  rw [if_neg h5, if_neg (mt State.stepFails_iff.mpr hb)]
theorem bringupStep_last (h5 : s.bringup + 1 = 5) : s.bringupStep b = { s with bringup := 5, ready := true, boot := none } := by
  unfold State.bringupStep
  rw [if_pos h5, h5]
end

/-! ## Layouts -/

/-- The partitions whose dies a layout changes are new. -/
theorem State.part_foldl_modPart (same : PartId → Bool) (g : Part → Part) (p : PartId) (hp : same p = false) : ∀ (l : List PartId) (s : State),
    (p ∈ l ∨ ∃ P, s.part p = g P) → ∃ P, (l.foldl (fun t q => if same q then t else t.modPart q g) s).part p = g P
  | [], s, h => by simpa using h
  | q :: l, s, h => by
    rw [List.foldl_cons]
    refine State.part_foldl_modPart same g p hp l _ ?_
    by_cases hq : q = p
    · subst hq
      exact .inr ⟨s.part q, by rw [hp, if_neg Bool.false_ne_true, State.part_modPart]⟩
    · obtain h | ⟨P, hP⟩ := h
      · exact .inl ((List.mem_cons.mp h).resolve_left (Ne.symm hq))
      · refine .inr ⟨P, ?_⟩
        split
        · exact hP
        · rwa [State.part_modPart_ne _ _ _ _ hq]
theorem State.foldl_modPart_rest (same : PartId → Bool) (g : Part → Part) : ∀ (l : List PartId) (s : State),
    ∃ P, l.foldl (fun t q => if same q then t else t.modPart q g) s = { s with parts := P }
  | [], s => ⟨s.parts, rfl⟩
  | q :: l, s => by
    rw [List.foldl_cons]
    obtain ⟨P, h⟩ := State.foldl_modPart_rest same g l (if same q then s else s.modPart q g)
    refine ⟨P, h.trans ?_⟩
    split <;> rfl

theorem mem_allDies (d : DieId) : d ∈ allDies := by revert d; decide

theorem State.part_setLayout (s : State) (l : Vector PartId 8) {p : PartId} (hp : ∃ d, (s.layout.get d = p) ≠ (l.get d = p)) :
    ∃ P, (s.setLayout l).part p = { newPart with rose := P } := by
  have hsame : (allDies.all fun d => (s.layout.get d == p) == (l.get d == p)) = false := by
    obtain ⟨d, hd⟩ := hp
    rw [List.all_eq_false]
    refine ⟨d, mem_allDies d, fun h => hd (propext ?_)⟩
    simpa using h
  obtain ⟨P, h⟩ := State.part_foldl_modPart (fun p => allDies.all fun d => (s.layout.get d == p) == (l.get d == p))
    (fun P => { newPart with rose := P.rose }) p hsame allDies s (.inl (mem_allDies p))
  exact ⟨P.rose, h⟩
theorem State.setLayout_rest (s : State) (l : Vector PartId 8) : ∃ P, s.setLayout l = { s with parts := P, layout := l } := by
  obtain ⟨P, h⟩ := State.foldl_modPart_rest (fun p => allDies.all fun d => (s.layout.get d == p) == (l.get d == p))
    (fun P => { newPart with rose := P.rose }) allDies s
  exact ⟨P, congrArg (fun t : State => { t with layout := l }) h⟩

/-- What a layout must be to be accepted. -/
def State.mayLayOut (s : State) (v : Word) : Prop := s.ready = true ∧ v.toNat < 2 ^ 24 ∧ layoutOk (layoutOf v) = true ∧ ∀ d, s.dieIdle d = true

theorem partitionLayoutWrite_eq {s : State} {rest : List Input} {v : Word} (h : headed s (.layout v) rest) [Decidable (s.mayLayOut v)] :
    exec .partitionLayoutWrite s = .next (if s.mayLayOut v then { s with inbox := rest }.setLayout (layoutOf v) else { s with inbox := rest }) := by
  have hmay : (s.ready && field v 31 24 == 0 && layoutOk (layoutOf v) && allDies.all s.dieIdle) = true ↔ s.mayLayOut v := by
    have hhigh : (field v 31 24 == 0) = true ↔ v.toNat < 2 ^ 24 := by
      have := v.isLt
      rw [beq_iff_eq, field, Nat.shiftRight_eq_div_pow]
      omega
    have hidle : allDies.all s.dieIdle = true ↔ ∀ d, s.dieIdle d = true := by
      rw [List.all_eq_true]
      exact ⟨fun h d => h d (mem_allDies d), fun h d _ => h d⟩
    simp only [Bool.and_eq_true, hhigh, hidle, State.mayLayOut, and_assoc]
  simp only [exec, execPartitionLayoutWrite, withInput, show s.inbox = _ from h]
  exact congrArg _ (if_congr hmay rfl rfl)


/-! ## The clause of O60 -/

/-- R324, R361 to R364, R381: power-on, the steps of bring-up, and layouts. -/
theorem moduleBringsUp : Claims.ModuleBringsUp := by
  intro s rest fails
  refine ⟨fun b h => ?begins, fun b hb hi => ?steps, fun step reason h => ?timeout, fun v h => ?layout⟩
  case begins =>
    have h' : exec .powerOnBringup s = .next { { s with inbox := rest }.moduleReset with boot := some b } := by
      simp only [exec, execPowerOnBringup, show s.inbox = _ from h]
    refine ⟨_, h', rfl, rfl, rfl, rfl, rfl, rfl, rfl, rfl, rfl, rfl, State.partOf_moduleReset s⟩
  case steps =>
    have hexec : exec .powerOnBringup s = .next (s.bringupStep b) := by
      simp only [exec, execPowerOnBringup, hb]
    intro step bad goes
    refine ⟨fun hbad h5 => ?_, fun (hs : s.bringup + 1 = 1) hbad => ?_, fun (hs : s.bringup + 1 = 2) hbad => ?_, fun (hs : s.bringup + 1 = 3) hbad => ?_,
      fun (hs : s.bringup + 1 = 4) hbad => ?_, fun (hs : s.bringup + 1 = 5) => ?_⟩
    · rw [bringupStep_fails hbad h5] at hexec
      exact ⟨_, hexec, rfl, rfl, rfl, rfl, _, rfl⟩
    · rw [bringupStep_goes hbad (by omega), if_pos hs] at hexec
      exact ⟨_, hexec, rfl, rfl, rfl, rfl, rfl, hb, rfl, rfl⟩
    · rw [bringupStep_goes hbad (by omega), if_neg (by omega), if_neg (by omega), if_neg (by omega), hs] at hexec
      exact ⟨_, hexec, rfl, hs.symm, rfl, rfl⟩
    · rw [bringupStep_goes hbad (by omega), if_neg (by omega), if_pos hs] at hexec
      refine ⟨_, hexec, rfl, rfl, rfl, rfl, rfl, hb, rfl, fun a hw => ?_, fun l => ?_⟩
      · show Mem.read (s.mem.filter fun c => poolOf c.1 != 0) a = _
        rw [Mem.read_filter (fun a => poolOf a != 0) a hw]
        by_cases ha : poolOf a = 0 <;> simp [ha]
      · simp [List.mem_filter]
    · rw [bringupStep_goes hbad (by omega), if_neg (by omega), if_neg (by omega), if_pos hs] at hexec
      refine ⟨_, hexec, rfl, rfl, rfl, rfl, rfl, hb, rfl, fun r => by simp [State.program], rfl, fun d b' hd => ?_⟩
      have hdie := State.die_program { s with bringup := s.bringup + 1 } b d
      rw [List.getD_eq_getElem?_getD, hd, Option.getD_some] at hdie
      rw [hdie]
      exact ⟨rfl, rfl, rfl, fun c => by simp [bootDie, State.die], rfl, fun l hl => bootWave_lanes hl⟩
    · rw [bringupStep_last hs] at hexec
      exact ⟨_, hexec, rfl, hs.symm, rfl, rfl⟩
  case timeout =>
    intro runs
    have hexec : exec .bringupTimeout s = .next (if s.boot.isSome && step == s.bringup + 1 && decide (step ≤ 4)
        then State.bringupFails { { s with inbox := rest }.moduleReset with fwMeas := s.fwMeas } step reason else { s with inbox := rest }) := by
      simp only [exec, execBringupTimeout, withInput, show s.inbox = _ from h]
    have hruns : (s.boot.isSome && step == s.bringup + 1 && decide (step ≤ 4)) = true ↔ runs := by
      simp [runs, Option.isSome_iff_ne_none, and_assoc]
    refine ⟨fun hr => hexec.trans (by rw [if_neg (mt hruns.mp hr)]), fun hr => ?_⟩
    rw [if_pos (hruns.mpr hr)] at hexec
    exact ⟨_, hexec, rfl, rfl, rfl, rfl, State.svLanes_moduleReset s, rfl⟩
  case layout =>
    intro l may
    classical
    have hexec := partitionLayoutWrite_eq h
    refine ⟨fun (hn : ¬s.mayLayOut v) => hexec.trans (by rw [if_neg hn]), fun (hm : s.mayLayOut v) => ?_⟩
    rw [if_pos hm] at hexec
    obtain ⟨P, hP⟩ := ({ s with inbox := rest } : State).setLayout_rest (layoutOf v)
    refine ⟨_, hexec, by rw [hP], by rw [hP], by rw [hP], fun p hp => ?_⟩
    obtain ⟨r, hr⟩ := ({ s with inbox := rest } : State).part_setLayout (layoutOf v) hp
    rw [hr]
    exact ⟨rfl, rfl, rfl, rfl⟩

end Sys2Proof.Machine
end
section
/-! PROOFS. What the management block does (R91, R220 to R223, R360, R362, R364, R381): the second part of O60. -/
namespace Sys2Proof.Machine
open Sys2Proof.Claims

/-! ## Links -/

theorem vput_vget {α : Type} {n : Nat} (v : Vector α n) (i : Nat) (z : α) : vput v i (vget v i z) = v := by
  unfold vput vget
  split
  · exact Vector.set_getElem_self ..
  · rfl
theorem State.link_modLink (s : State) (n : Fin 36) (f : Link → Link) : (s.modLink n f).link n = f (s.link n) := vget_vput_self _ _ _ _ n.isLt
theorem State.link_modLink_ne (s : State) {n m : Nat} (h : n ≠ m) (f : Link → Link) : (s.modLink n f).link m = s.link m := vget_vput_ne _ _ _ _ _ h
theorem State.modLink_self {s : State} {n : Nat} {f : Link → Link} (h : f (s.link n) = s.link n) : s.modLink n f = s := by
  show { s with links := vput s.links n (f (s.link n)) } = s
  rw [h]
  exact congrArg (fun l => { s with links := l }) (vput_vget ..)

theorem State.raiseFault_links (s : State) (f : FaultRec) : (s.raiseFault f).links = s.links := by
  obtain h | ⟨-, d, a, bs, h⟩ := s.raiseFault_cases f <;> rw [h] <;> rfl
theorem State.linkFault_link (s : State) (d : DieId) (ctx : Ctx) (pc : DWord) (port n : Nat) : (s.linkFault d ctx pc port).link n = s.link n := by
  have h : (s.linkFault d ctx pc port).links = s.links := by
    unfold State.linkFault
    split
    · rfl
    · exact State.raiseFault_links ..
  exact congrArg (vget · n {}) h
/-- A lost packet of a tenant halts its partition. -/
theorem State.linkFault_halt (s : State) (d : DieId) {ctx : Ctx} (h : ctx ≠ 0) (pc : DWord) (port : Nat) :
    ((s.linkFault d ctx pc port).part (s.partOf d)).halt = true := by
  rw [State.linkFault, if_neg h]
  exact State.raiseFault_halt ..

/-- The fault of one packet of a retired link. -/
def State.loseSent (s : State) (n : Nat) (e : Sent) : State :=
  match e.die with
  | some d => s.linkFault d e.head.ctx e.pc n
  | none => s
theorem State.Signals.loseSent (s : State) (n : Nat) (e : Sent) : s.Signals (s.loseSent n e) := by
  unfold State.loseSent
  split
  · exact .linkFault ..
  · exact .refl s
theorem State.loseSent_link (s : State) (n : Nat) (e : Sent) (m : Nat) : (s.loseSent n e).link m = s.link m := by
  unfold State.loseSent
  split
  · exact State.linkFault_link ..
  · rfl
theorem State.retireLink_eq (s : State) (n : Nat) :
    s.retireLink n = (s.link n).sent.foldl (·.loseSent n) (s.modLink n fun l => { l with retired := true, sent := [] }) := rfl
theorem State.foldl_loseSent_link (n m : Nat) (l : List Sent) (s : State) : (l.foldl (·.loseSent n) s).link m = s.link m := by
  induction l generalizing s with
  | nil => rfl
  | cons e l ih => exact (ih _).trans (State.loseSent_link ..)

theorem State.retireLink_retired (s : State) (n : Fin 36) : ((s.retireLink n).link n).retired = true := by
  rw [State.retireLink_eq, State.foldl_loseSent_link, State.link_modLink]
/-- The partitions whose packets a retired link held halt (R221, R222). -/
theorem State.retireLink_halts {s : State} {n : Nat} {e : Sent} (he : e ∈ (s.link n).sent) {d : DieId} (hd : e.die = some d) (hc : e.head.ctx ≠ 0) :
    ((s.retireLink n).part (s.partOf d)).halt = true := by
  rw [State.retireLink_eq]
  obtain ⟨u, hu, ht⟩ := State.Signals.foldl_mem (fun s e => State.Signals.loseSent s n e) (s.modLink n fun l => { l with retired := true, sent := [] }) he
  refine ht.halt _ ?_
  rw [show u.loseSent n e = u.linkFault d e.head.ctx e.pc n by rw [State.loseSent, hd], show s.partOf d = u.partOf d from (hu.partOf d).symm]
  exact u.linkFault_halt d hc ..

/-! ## A shutdown (R360) -/

/-- The record of a shutdown. -/
def State.heatRecord (s : State) (d : DieId) : FaultRec := { die := d, slot := 255, clock := s.clock, form := {}, stop := { cause := Cause.ecc } }
/-- A shutdown halts partition `p`, if there is one. -/
def State.overheat (c s : State) (p : PartId) : State :=
  match s.diesOf p with
  | [] => s
  | d :: _ => s.raiseFault (c.heatRecord d)
def State.overheated (s : State) : State := allDies.foldl (State.overheat s) s
theorem State.shutdown_eq (s : State) : s.shutdown = { s.overheated with ready := false } := rfl

theorem State.Signals.overheat (c s : State) (p : PartId) : s.Signals (State.overheat c s p) := by
  unfold State.overheat
  split
  · exact .refl s
  · exact .raiseFault ..
theorem State.overheat_dies (c s : State) (p : PartId) : (State.overheat c s p).dies = s.dies := by
  unfold State.overheat
  split
  · rfl
  · rw [State.raiseFault_of_slot _ (by show (250 : Nat) ≤ 255; decide)]; rfl
theorem State.partOf_of_diesOf {s : State} {p : PartId} {d : DieId} {l : List DieId} (h : s.diesOf p = d :: l) : s.partOf d = p := by
  have hm : d ∈ s.diesOf p := h ▸ List.mem_cons_self
  simpa using (List.mem_filter.mp hm).2
theorem State.mem_diesOf (s : State) (d : DieId) : d ∈ s.diesOf (s.partOf d) := List.mem_filter.mpr ⟨mem_allDies d, by simp⟩
theorem State.mem_diesOf_iff {s : State} {d : DieId} {p : PartId} : d ∈ s.diesOf p ↔ s.partOf d = p := by
  rw [State.diesOf, List.mem_filter, beq_iff_eq, and_iff_right (mem_allDies d)]

theorem tpendBit_ecc : (tpendBit Cause.ecc).getLsbD 1 = true := by decide
/-- ECC becomes pending in the partition of the fault. -/
theorem State.raiseFault_ecc (s : State) {f : FaultRec} (h : f.stop.cause = Cause.ecc) :
    ((s.raiseFault f).part (s.partOf f.die)).tpend.getLsbD 1 = true := by
  rw [State.raiseFault_tpend, h, BitVec.getLsbD_or, tpendBit_ecc, Bool.or_true]
theorem State.overheat_halts (c s : State) (d : DieId) :
    ((State.overheat c s (s.partOf d)).part (s.partOf d)).halt = true ∧ ((State.overheat c s (s.partOf d)).part (s.partOf d)).tpend.getLsbD 1 = true := by
  unfold State.overheat
  split
  · next h => exact absurd (s.mem_diesOf d) (by rw [h]; exact List.not_mem_nil)
  · next e l h =>
    rw [← State.partOf_of_diesOf h]
    exact ⟨s.raiseFault_halt (c.heatRecord e), s.raiseFault_ecc (f := c.heatRecord e) rfl⟩

theorem State.Signals.overheated (s : State) : s.Signals s.overheated := .foldl (State.Signals.overheat s) allDies s
theorem State.overheated_dies (s : State) : s.overheated.dies = s.dies := by
  have hfold (l : List PartId) (t : State) : (l.foldl (State.overheat s) t).dies = t.dies := by
    induction l generalizing t with
    | nil => rfl
    | cons p l ih => exact (ih _).trans (State.overheat_dies ..)
  exact hfold allDies s
theorem State.overheated_halts (s : State) (d : DieId) :
    (s.overheated.part (s.partOf d)).halt = true ∧ (s.overheated.part (s.partOf d)).tpend.getLsbD 1 = true := by
  obtain ⟨v, hv, ht⟩ := State.Signals.foldl_mem (State.Signals.overheat s) s (mem_allDies (s.partOf d))
  rw [show s.partOf d = v.partOf d from (hv.partOf d).symm] at ht ⊢
  obtain ⟨hhalt, hpend⟩ := State.overheat_halts s v d
  exact ⟨ht.halt _ hhalt, ht.tpend _ _ hpend⟩

/-! ## What the reset of a partition takes away (R91, R362) -/

/-- A die with no context. -/
def Die.cleared (D : Die) : Prop := D.active = {} ∧ D.shadow = {} ∧ D.scratch = []

/-- From `s` to `t` partitions have been reset, at most: memory, layout and retired routers are as they were, stores and launches have at most gone, and a
die keeps its contexts or has none. -/
structure State.Discards (s t : State) : Prop where
  mem : t.mem = s.mem
  harvested : t.harvested = s.harvested
  layout : t.layout = s.layout
  stores : ∀ x ∈ t.stores, x ∈ s.stores
  launches : ∀ x ∈ t.launches, x ∈ s.launches
  die : ∀ d, ((t.die d).active = (s.die d).active ∧ (t.die d).shadow = (s.die d).shadow ∧ (t.die d).scratch = (s.die d).scratch) ∨ (t.die d).cleared

theorem State.Discards.refl (s : State) : s.Discards s := ⟨rfl, rfl, rfl, fun _ h => h, fun _ h => h, fun _ => .inl ⟨rfl, rfl, rfl⟩⟩
theorem State.Signals.discards {s t : State} (h : s.Signals t) : s.Discards t where
  mem := h.mem
  harvested := by rw [h.rest]
  layout := h.layout
  stores := by rw [h.stores]; exact fun _ h => h
  launches := by rw [h.launches]; exact fun _ h => h
  die d := by rw [h.die d]; exact .inl ⟨rfl, rfl, rfl⟩
theorem State.Discards.cleared {s t : State} (h : s.Discards t) {d : DieId} (hd : (s.die d).cleared) : (t.die d).cleared := by
  obtain ⟨ha, hs, hc⟩ | h := h.die d
  · obtain ⟨ha', hs', hc'⟩ := hd
    exact ⟨ha.trans ha', hs.trans hs', hc.trans hc'⟩
  · exact h
theorem State.Discards.trans {s t u : State} (h : s.Discards t) (k : t.Discards u) : s.Discards u where
  mem := k.mem.trans h.mem
  harvested := k.harvested.trans h.harvested
  layout := k.layout.trans h.layout
  stores x hx := h.stores x (k.stores x hx)
  launches x hx := h.launches x (k.launches x hx)
  die d := by
    obtain ⟨ha, hs, hc⟩ | hd := h.die d
    · exact (k.die d).imp (fun ⟨ha', hs', hc'⟩ => ⟨ha'.trans ha, hs'.trans hs, hc'.trans hc⟩) id
    · exact .inr (k.cleared hd)
theorem State.Discards.foldl {α : Type} {f : State → α → State} (hf : ∀ (s : State) a, s.Discards (f s a)) (l : List α) (s : State) :
    s.Discards (l.foldl f s) := by
  induction l generalizing s with
  | nil => exact .refl s
  | cons a l ih => exact (hf s a).trans (ih _)

theorem State.Discards.modDie (s : State) (d : DieId) (f : Die → Die)
    (hf : ∀ D, ((f D).active = D.active ∧ (f D).shadow = D.shadow ∧ (f D).scratch = D.scratch) ∨ (f D).cleared) : s.Discards (s.modDie d f) where
  mem := rfl
  harvested := rfl
  layout := rfl
  stores _ h := h
  launches _ h := h
  die e := by
    by_cases h : d = e
    · subst h; rw [State.die_modDie]; exact hf _
    · rw [State.die_modDie_ne _ _ _ _ h]; exact .inl ⟨rfl, rfl, rfl⟩

theorem State.Signals.tellHomes (s : State) (p : PartId) : s.Signals (s.tellHomes p) := by
  refine .foldl (fun s d => .foldl (fun s h => ?_) _ s) _ s
  split
  · exact .refl s
  · exact .transmit ..
theorem State.Discards.abandon (s : State) (x : Session) (gone : SJoin → Bool) : s.Discards (s.abandon x gone) := by
  unfold State.abandon
  have hdrop (l : List Session) (m : List SMsg) : s.Discards { s with sessions := l, smsgs := m } :=
    ⟨rfl, rfl, rfl, fun _ h => h, fun _ h => h, fun _ => .inl ⟨rfl, rfl, rfl⟩⟩
  refine (hdrop _ _).trans (.foldl (fun s j => ?_) _ _)
  split
  · exact (State.Signals.joinFault ..).discards
  · exact (State.Signals.toJoin ..).discards

/-- A partition that has been reset. -/
structure State.Emptied (s : State) (p : PartId) : Prop where
  die : ∀ d, s.partOf d = p → (s.die d).cleared
  stores : ∀ x ∈ s.stores, x.part ≠ p
  launches : ∀ x ∈ s.launches, x.part ≠ p
theorem State.Emptied.discards {s t : State} {p : PartId} (h : s.Emptied p) (k : s.Discards t) : t.Emptied p where
  die d hd := k.cleared (h.die d ((congrArg (·.get d) k.layout).symm.trans hd))
  stores x hx := h.stores x (k.stores x hx)
  launches x hx := h.launches x (k.launches x hx)

/-- The last part of a reset: the dies of the partition lose their contexts, all dies the partition's queues. -/
def State.clearDies (s : State) (p : PartId) : State :=
  allDies.foldl (fun (s : State) d => s.modDie d fun D => { D with queues := D.queues.filter (·.part != p) })
    ((s.diesOf p).foldl (fun (s : State) d => s.modDie d Die.partReset) s)

theorem Die.partReset_cleared (D : Die) : D.partReset.cleared := ⟨rfl, rfl, rfl⟩
theorem State.Discards.partReset (s : State) (d : DieId) : s.Discards (s.modDie d Die.partReset) := .modDie s d _ fun D => .inr D.partReset_cleared
theorem State.Discards.dropQueues (s : State) (p : PartId) :
    s.Discards (allDies.foldl (fun (s : State) d => s.modDie d fun D => { D with queues := D.queues.filter (·.part != p) }) s) :=
  .foldl (fun s d => .modDie s d (fun D => { D with queues := D.queues.filter (·.part != p) }) fun _ => .inl ⟨rfl, rfl, rfl⟩) _ s
theorem State.Discards.clearDies (s : State) (p : PartId) : s.Discards (s.clearDies p) :=
  (State.Discards.foldl (fun s d => .partReset s d) _ s).trans (.dropQueues _ p)
theorem State.foldl_partReset_cleared (l : List DieId) (s : State) {d : DieId} (h : d ∈ l) :
    ((l.foldl (fun (s : State) d => s.modDie d Die.partReset) s).die d).cleared := by
  induction l generalizing s with
  | nil => cases h
  | cons e l ih =>
    by_cases he : d = e
    · subst he
      refine (State.Discards.foldl (fun s d => .partReset s d) l _).cleared ?_
      rw [State.die_modDie]
      exact Die.partReset_cleared _
    · exact ih _ ((List.mem_cons.mp h).resolve_left he)
theorem State.clearDies_cleared (s : State) (p : PartId) {d : DieId} (h : s.partOf d = p) : ((s.clearDies p).die d).cleared :=
  (State.Discards.dropQueues _ p).cleared (State.foldl_partReset_cleared _ s (State.mem_diesOf_iff.mpr h))

/-- The reset of a partition empties it; others lose nothing but what it discards. -/
theorem State.resetPartition_steps (s : State) (p : PartId) : ∃ u v : State, s.Discards u ∧ v.stores = u.stores.filter (·.part != p) ∧
    v.launches = u.launches.filter (·.part != p) ∧ u.Discards v ∧ s.resetPartition p = v.clearDies p := by
  unfold State.resetPartition
  refine ⟨_, _, (State.Signals.tellHomes s p).discards.trans (.foldl (fun s x => .abandon s x _) _ _), rfl, rfl, ?_, rfl⟩
  exact ⟨rfl, rfl, rfl, fun _ h => (List.mem_filter.mp h).1, fun _ h => (List.mem_filter.mp h).1, fun _ => .inl ⟨rfl, rfl, rfl⟩⟩
theorem State.Discards.resetPartition (s : State) (p : PartId) : s.Discards (s.resetPartition p) := by
  obtain ⟨u, v, hu, -, -, hv, h⟩ := s.resetPartition_steps p
  rw [h]
  exact (hu.trans hv).trans (.clearDies v p)
theorem State.resetPartition_emptied (s : State) (p : PartId) : (s.resetPartition p).Emptied p := by
  obtain ⟨u, v, -, hs, hl, -, h⟩ := s.resetPartition_steps p
  have hk := State.Discards.clearDies v p
  rw [h]
  refine ⟨fun d hd => v.clearDies_cleared p ((congrArg (·.get d) hk.layout).symm.trans hd), fun x hx => ?_, fun x hx => ?_⟩
  · have := hk.stores x hx
    rw [hs] at this
    simpa using (List.mem_filter.mp this).2
  · have := hk.launches x hx
    rw [hl] at this
    simpa using (List.mem_filter.mp this).2
theorem State.foldl_resetPartition_emptied {p : PartId} (l : List PartId) (s : State) (h : p ∈ l) : (l.foldl State.resetPartition s).Emptied p := by
  induction l generalizing s with
  | nil => cases h
  | cons q l ih =>
    by_cases hq : p = q
    · subst hq
      exact (s.resetPartition_emptied p).discards (.foldl (fun s q => .resetPartition s q) l _)
    · exact ih _ ((List.mem_cons.mp h).resolve_left hq)

theorem State.mem_crossing {s : State} {r : Router} {d : DieId} (h : routerDie r = some d) : s.partOf d ∈ s.crossing r := by
  refine List.mem_filter.mpr ⟨mem_allDies _, ?_⟩
  simp [h]

/-! ## The events, one by one -/

section
variable {s : State} {rest : List Input}

theorem linkFlitError_eq {n : Fin 36} (h : headed s (.flitError n) rest) : exec .linkFlitError s =
    .next ({ s with inbox := rest }.modLink n fun l => if l.retired then l else { l with replays := l.replays + 1 }) := by
  simp only [exec, execLinkFlitError, withInput, show s.inbox = _ from h]
theorem laneSparing_eq {n : Fin 36} {lane : Fin 4} (h : headed s (.spare n lane) rest) : exec .laneSparing s =
    .next ({ s with inbox := rest }.modLink n fun l => if l.retired then l else { l with spared := some lane }) := by
  simp only [exec, execLaneSparing, withInput, show s.inbox = _ from h]
theorem headerCrcFailure_eq {n : Fin 36} {replayed : Bool} (h : headed s (.headerCrc n replayed) rest) (hr : (s.link n).retired = false) :
    exec .headerCrcFailure s = .next (if replayed then { s with inbox := rest }.retireLink n
      else { s with inbox := rest }.modLink n fun l => { l with replays := l.replays + 1 }) := by
  simp only [exec, execHeaderCrcFailure, withInput, show s.inbox = _ from h]
  exact congrArg _ (if_neg (Bool.eq_false_iff.mp hr))
theorem thermalShutdown_eq (h : headed s .shutdown rest) : exec .thermalShutdown s = .next ({ s with inbox := rest } : State).shutdown := by
  simp only [exec, execThermalShutdown, withInput, show s.inbox = _ from h]
theorem coreFailure_eq {d : DieId} {core : Nat} (h : headed s (.coreFails d core) rest) (hc : core < 100) : exec .coreFailure s =
    .next ({ s with inbox := rest }.modDie d fun D => { D with failed := if D.failed.contains core then D.failed else core :: D.failed }) := by
  simp only [exec, execCoreFailure, withInput, show s.inbox = _ from h]
  rw [if_neg (not_le.mpr hc)]
theorem keySlotWrite_eq {w : KeyWrite} (h : headed s (.keyWrite w) rest) : exec .keySlotWrite s = .next ({ s with inbox := rest }.writeKey w) := by
  simp only [exec, execKeySlotWrite, withInput, show s.inbox = _ from h]
theorem routerFailure_eq {r : Router} (h : headed s (.routerFails r) rest) : exec .routerFailure s = .next (if s.harvested.contains r
    then { s with inbox := rest }
    else (({ s with inbox := rest } : State).crossing r).foldl State.resetPartition { s with inbox := rest, harvested := r :: s.harvested }) := by
  simp only [exec, execRouterFailure, withInput, show s.inbox = _ from h]
end

/-! ## The clause of O60 -/

/-- R91, R220 to R223, R360, R362, R364, R381: what the management block does. -/
theorem managementBlockActs : Claims.ManagementBlockActs := by
  intro s rest after u
  refine ⟨fun n hr hx => ?flitRetired, fun n hx hr => ?flit, fun n lane hx hr => ?spare, fun n hx hr => ?replay, fun n hx hr => ?retire,
    fun rank ports hx => ?route, fun d hx => ?throttle, fun hx _ => ?shutdown, fun d core hx hcore => ?core, fun r hr hx => ?routerGone,
    fun r d hx hr hd => ?router, fun d hx => ?soft, fun i k hx => ?key, fun i on hx => ?enable, fun p m hx => ?mask, fun hx => ?report⟩
  case flitRetired => exact (linkFlitError_eq hx).trans (congrArg _ (State.modLink_self (if_pos hr)))
  case flit => exact ⟨_, linkFlitError_eq hx, (State.link_modLink ..).trans (if_neg (Bool.eq_false_iff.mp hr))⟩
  case spare =>
    exact ⟨_, laneSparing_eq hx, (State.link_modLink ..).trans (if_neg (Bool.eq_false_iff.mp hr)),
      fun m hm => State.link_modLink_ne _ (fun e => hm (Fin.ext e.symm)) _⟩
  case replay => exact ⟨u.modLink n fun l => { l with replays := l.replays + 1 }, headerCrcFailure_eq hx hr, State.link_modLink ..⟩
  case retire =>
    exact ⟨u.retireLink n, headerCrcFailure_eq hx hr, u.retireLink_retired n, fun e he d hd hc => State.retireLink_halts (s := u) he hd hc⟩
  case route => simp only [exec, execPodRouteTableWrite, withInput, show s.inbox = _ from hx]; rfl
  case throttle =>
    have hexec : exec .thermalThrottle s = .next (u.modDie d fun D => { D with throttled := true }) := by
      simp only [exec, execThermalThrottle, withInput, show s.inbox = _ from hx]; rfl
    exact ⟨_, hexec, rfl, rfl, rfl, State.die_modDie ..⟩
  case shutdown =>
    have hexec := thermalShutdown_eq hx
    rw [State.shutdown_eq] at hexec
    have hsignals := State.Signals.overheated u
    have hdies := u.overheated_dies
    have hhalts := u.overheated_halts
    generalize u.overheated = t at hexec hsignals hdies hhalts
    exact ⟨_, hexec, rfl, hdies, by rw [hsignals.rest], hhalts⟩
  case core =>
    refine ⟨_, coreFailure_eq hx hcore, ?_, ?_, fun e he => u.die_modDie_ne d e _ (Ne.symm he)⟩
    · rw [State.die_modDie]
      split
      · next hc => simpa using hc
      · exact List.mem_cons_self
    · rw [State.die_modDie]; rfl
  case routerGone => exact (routerFailure_eq hx).trans (by rw [if_pos hr])
  case router =>
    have hd' := State.Discards.foldl State.Discards.resetPartition (u.crossing r) { u with harvested := r :: s.harvested }
    obtain ⟨hdie, hstores, hlaunches⟩ := State.foldl_resetPartition_emptied _ { u with harvested := r :: s.harvested } (State.mem_crossing (s := u) hd)
    refine ⟨_, (routerFailure_eq hx).trans (by rw [if_neg (Bool.eq_false_iff.mp hr)]), hd'.harvested, hd'.mem, fun e he => ?_, hstores, hlaunches⟩
    exact hdie e ((congrArg (·.get e) hd'.layout).trans he)
  case soft =>
    have hexec : exec .softErrorCorrected s = .next (u.modDie d fun D => { D with softErrs := D.softErrs + 1 }) := by
      simp only [exec, execSoftErrorCorrected, withInput, show s.inbox = _ from hx]; rfl
    exact ⟨_, hexec, State.die_modDie .., rfl⟩
  case key => exact ⟨_, keySlotWrite_eq hx, vset_get ..⟩
  case enable => exact ⟨_, keySlotWrite_eq hx, vset_get ..⟩
  case mask => exact ⟨_, keySlotWrite_eq hx, State.part_modPart ..⟩
  case report =>
    have hexec : exec .spdmMeasurements s = .next u.report := by
      simp only [exec, execSpdmMeasurements, withInput, show s.inbox = _ from hx]; rfl
    exact ⟨_, hexec, rfl, rfl, _, rfl⟩

end Sys2Proof.Machine
end
section
/-! PROOFS. What an uncorrectable memory error halts (R43, R100, R117, R217, R234, R310, R355): the third part of O60. -/
namespace Sys2Proof.Machine
open Sys2Proof.Claims

/-! ## An engine meets an error -/

/-- What an error does that an engine of die `d` meets: its partition halts with ECC; memory and the other partitions are as they were. -/
def State.meetsEcc (s t : State) (d : DieId) : Prop :=
  haltsWith s t d Cause.ecc ∧ (t.part (s.partOf d)).tpend.getLsbD 1 = true ∧ t.mem = s.mem ∧ ∀ q, q ≠ s.partOf d → t.part q = s.part q

theorem meetsEcc_raiseFault {s u : State} {f : FaultRec} {d : DieId} (hl : u.layout = s.layout) (hp : u.parts = s.parts) (hm : u.mem = s.mem)
    (hd : s.partOf f.die = s.partOf d) (hc : f.stop.cause = Cause.ecc) : s.meetsEcc (u.raiseFault f) d := by
  have hpart : u.partOf f.die = s.partOf d := (congrArg (·.get f.die) hl).trans hd
  have hhalts := haltsWith_raiseFault (f := f) hl hp
  rw [haltsWith, hd, hc] at hhalts
  refine ⟨hhalts, ?_, (State.Signals.raiseFault ..).mem.trans hm, fun q hq => ?_⟩
  · rw [← hpart]
    exact u.raiseFault_ecc hc
  · exact (u.part_raiseFault_ne f (by rw [hpart]; exact Ne.symm hq)).trans (congrArg (·.get q) hp)

theorem State.Signals.group {s t : State} (h : s.Signals t) (d : DieId) {gid : Nat} (hg : gid ≠ 0) : t.group d gid = s.group d gid := by
  unfold State.group Die.group
  rw [if_neg hg, if_neg hg, h.active]
theorem State.Signals.badLocal {s t : State} (h : s.Signals t) (d : DieId) : (t.die d).badLocal = (s.die d).badLocal := by rw [h.die]

/-- A fault leaves the tiles that are in error. -/
theorem State.raiseFault_badTiles {s : State} {d : DieId} {gid : Nat} {G : Group} (h : s.group d gid = some G) (f : FaultRec) :
    ∃ G', (s.raiseFault f).group d gid = some G' ∧ G'.badTiles = G.badTiles := by
  by_cases hg : gid = 0
  · subst hg
    obtain rfl : (s.die d).sv = G := Option.some.inj h
    refine ⟨((s.raiseFault f).die d).sv, rfl, ?_⟩
    obtain e | ⟨-, d', a, bs, e⟩ := s.raiseFault_cases f <;> rw [e]
    · rfl
    · unfold State.svWrite
      by_cases hd : d' = d
      · subst hd; rw [State.die_modDie]; rfl
      · rw [State.die_modDie_ne _ _ _ _ hd]; rfl
  · exact ⟨G, ((State.Signals.raiseFault s f).group d hg).trans h, rfl⟩

/-! ## A sync engine meets an error -/

/-- The die whose engine a partition's record names: the one that met the error where it is the partition's. -/
def State.syncDie (s : State) (p : PartId) (d : DieId) : DieId := if s.partOf d == p then d else (s.diesOf p).headD d
theorem State.partOf_syncDie {s : State} {p : PartId} (h : ∃ e, s.partOf e = p) (d : DieId) : s.partOf (s.syncDie p d) = p := by
  unfold State.syncDie
  split
  · next hd => exact beq_iff_eq.mp hd
  · cases hl : s.diesOf p with
    | nil =>
      obtain ⟨e, rfl⟩ := h
      exact absurd (s.mem_diesOf e) (by rw [hl]; exact List.not_mem_nil)
    | cons e l => exact State.partOf_of_diesOf hl

/-- The record of a sync error. -/
def State.syncFault (s : State) (p : PartId) (d : DieId) (pc line : DWord) : FaultRec :=
  { die := s.syncDie p d, slot := 248, clock := s.clock, form := {},
    stop := { cause := Cause.ecc, cls := 2, ctx := (s.die (s.syncDie p d)).active.ctx, pc := pc, faddr := line } }
theorem State.syncError_eq (s : State) (p : PartId) (d : DieId) (pc line : DWord) : s.syncError p d pc line = s.raiseFault (s.syncFault p d pc line) := rfl

theorem State.Signals.syncError (s : State) (p : PartId) (d : DieId) (pc line : DWord) : s.Signals (s.syncError p d pc line) := .raiseFault ..
theorem State.syncError_other {s : State} {p q : PartId} (hp : ∃ e, s.partOf e = p) (hq : p ≠ q) (d : DieId) (pc line : DWord) :
    (s.syncError p d pc line).part q = s.part q :=
  s.part_raiseFault_ne _ (by show s.partOf (s.syncDie p d) ≠ q; rwa [State.partOf_syncDie hp])
theorem meetsEcc_syncError {s u : State} (hl : u.layout = s.layout) (hp : u.parts = s.parts) (hm : u.mem = s.mem) (d : DieId) (pc line : DWord) :
    s.meetsEcc (u.syncError (s.partOf d) d pc line) d := by
  refine meetsEcc_raiseFault hl hp hm ?_ rfl
  have h : u.partOf d = s.partOf d := congrArg (·.get d) hl
  show s.partOf (u.syncDie (s.partOf d) d) = s.partOf d
  rw [State.syncDie, h, if_pos (beq_self_eq_true _)]

/-- Owners of a line, one after the other, halt; the record of each names the line. -/
theorem State.foldl_syncError {d : DieId} {line : DWord} (pc : State → PartId → DWord) {l : List PartId} (hn : l.Nodup) {s : State}
    (he : ∀ q ∈ l, ∃ e, s.partOf e = q) (p : PartId) :
    let t := l.foldl (fun s p => s.syncError p d (pc s p) line) s
    (p ∈ l → (t.part p).halt = true ∧ (t.part p).tpend.getLsbD 1 = true ∧ ((s.part p).halt = false →
      ∃ f, (t.part p).pending = some f ∧ f.slot = 248 ∧ f.stop.cause = Cause.ecc ∧ f.stop.faddr = line)) ∧ (p ∉ l → t.part p = s.part p) := by
  induction l generalizing s with
  | nil => exact ⟨fun h => absurd h List.not_mem_nil, fun _ => rfl⟩
  | cons q l ih =>
    obtain ⟨hq, hn⟩ := List.nodup_cons.mp hn
    have hsig := State.Signals.syncError s q d (pc s q) line
    obtain ⟨hin, hout⟩ := ih hn (s := s.syncError q d (pc s q) line) fun r hr => by
      obtain ⟨e, h⟩ := he r (List.mem_cons_of_mem _ hr)
      exact ⟨e, (hsig.partOf e).trans h⟩
    have hex : ∃ e, s.partOf e = q := he q List.mem_cons_self
    refine ⟨fun hp => ?_, fun hp => ?_⟩
    · by_cases h : p = q
      · subst h
        have hdie : s.partOf (s.syncFault p d (pc s p) line).die = p := State.partOf_syncDie hex d
        have hhalt := s.raiseFault_halt (s.syncFault p d (pc s p) line)
        have hecc := s.raiseFault_ecc (f := s.syncFault p d (pc s p) line) rfl
        have hpend := s.raiseFault_pending (s.syncFault p d (pc s p) line)
        rw [hdie] at hhalt hecc hpend
        rw [List.foldl_cons, hout hq]
        exact ⟨hhalt, hecc, fun h => ⟨_, hpend h, rfl, rfl, rfl⟩⟩
      · obtain ⟨hhalt, hecc, hpend⟩ := hin ((List.mem_cons.mp hp).resolve_left h)
        exact ⟨hhalt, hecc, fun h' => hpend (by rwa [State.syncError_other hex (Ne.symm h)])⟩
    · rw [List.mem_cons, not_or] at hp
      exact (hout hp.2).trans (State.syncError_other hex (Ne.symm hp.1) ..)

/-- A partition owns state in a line of a die's variables. -/
def State.ownsLine (s : State) (d : DieId) (line : Nat) (p : PartId) : Prop :=
  (∃ e ∈ (s.die d).held, e.1 = line ∧ p ∈ e.2) ∨ (∃ r ∈ s.reqs, r.part = p ∧ r.width ≠ 0 ∧ r.addr / 64 = line ∧ r.reply = none) ∨
    ∃ q ∈ (s.die d).queues, q.part = p ∧ q.desc / 64 = line
theorem State.mem_lineOwners {s : State} {d : DieId} {da : Nat} {p : PartId} : p ∈ s.lineOwners d da ↔ s.ownsLine d (da / 64) p := by
  simp [State.lineOwners, State.ownsLine, mem_allDies, and_assoc, or_assoc]

/-! ## A division meets an error (R355) -/

theorem Group.modCtl_modCtl (G : Group) (h : Option Nat) (xs : List Nat) (f g : Nat → Ctl → Ctl) :
    (G.modCtl h xs f).modCtl h xs g = G.modCtl h xs fun x c => g x (f x c) := by
  cases h with
  | none =>
    simp only [Group.modCtl, Group.modLanes, List.map_map]
    congr 1
    refine List.map_congr_left fun l _ => ?_
    by_cases hl : l.x ∈ xs <;> simp [hl]
  | some lo =>
    simp only [Group.modCtl, Group.modHood, List.map_map]
    congr 1
    refine List.map_congr_left fun l _ => ?_
    by_cases hl : l.lo = lo <;> simp [hl]

/-- The threads that stand at a word are of the group that was asked for. -/
theorem State.standsAt_home {s : State} {d : DieId} {gid x : Nat} {w : Who} {i : Instr} (h : s.standsAt d gid x = some (w, i)) : w.d = d ∧ w.gid = gid := by
  unfold State.standsAt at h
  split at h
  · cases h
  · next G hG =>
    obtain ⟨v, hv, hi⟩ := Option.bind_eq_some_iff.mp h
    have hhome : v.d = d ∧ v.gid = gid := by
      split at hv
      · split at hv
        · exact ⟨(State.who_hood hv).1, (State.who_hood hv).2.1⟩
        · cases hv
      · split at hv
        · exact ⟨(Who.ofLanes_home hv).1, (Who.ofLanes_home hv).2.1⟩
        · cases hv
    split at hi
    · cases hi; exact hhome
    · cases hi

/-- A fetch does not look at the inbox. -/
theorem State.fetch_inbox (s : State) (l : List Input) (d : DieId) (agent : Nat) (sup : Bool) (pc : DWord) :
    (∃ b t t', ({ s with inbox := l } : State).fetch d agent sup pc = .word b t ∧ s.fetch d agent sup pc = .word b t') ∨
    (({ s with inbox := l } : State).fetch d agent sup pc = s.fetch d agent sup pc ∧ ∀ b t, s.fetch d agent sup pc ≠ .word b t) := by
  have htr : ({ s with inbox := l } : State).translate d agent sup pc .fetch = s.translate d agent sup pc .fetch := rfl
  have hline (n : Nat) : ({ s with inbox := l } : State).fetchLine d agent n = s.fetchLine d agent n := rfl
  have hstall (da : Nat) : (({ s with inbox := l } : State).stalled da || ({ s with inbox := l } : State).walkStalled d agent sup pc) =
    (s.stalled da || s.walkStalled d agent sup pc) := rfl
  unfold State.fetch
  rw [htr]
  cases s.translate d agent sup pc .fetch with
  | fault c va => right; dsimp only; exact ⟨rfl, fun _ _ => nofun⟩
  | ok da =>
    dsimp only
    rw [hstall, hline]
    cases s.stalled da || s.walkStalled d agent sup pc with
    | true => right; simp
    | false =>
      cases s.fetchLine d agent (da / 128) with
      | none => right; simp
      | some bs => left; simp

theorem State.standsAt_inbox (s : State) (l : List Input) (d : DieId) (gid x : Nat) :
    ({ s with inbox := l } : State).standsAt d gid x = s.standsAt d gid x := by
  have hgroup : ({ s with inbox := l } : State).group d gid = s.group d gid := rfl
  unfold State.standsAt
  rw [hgroup]
  cases s.group d gid with
  | none => rfl
  | some G =>
    refine congrArg (Option.bind _) (funext fun w => ?_)
    obtain ⟨b, t, t', hu, hs⟩ | ⟨hu, hn⟩ := s.fetch_inbox l d w.core (gid = 0) w.pc
    · rw [hu, hs]; rfl
    · rw [hu]
      cases hs : s.fetch d w.core (gid = 0) w.pc with
      | word b t => exact absurd hs (hn b t)
      | _ => rfl

theorem divisionSteps_le (i : Instr) : divisionSteps i ≤ 9 := by
  unfold divisionSteps
  split <;> decide
/-- The division of `w` can meet an error at micro-step `k`. -/
def State.divides (s : State) (d : DieId) (gid x k : Nat) (w : Who) (i : Instr) : Prop :=
  s.standsAt d gid x = some (w, i) ∧ w.xs ≠ [] ∧ (s.running d = true ∨ gid = 0) ∧ 1 ≤ k ∧ k < divisionSteps i
theorem State.divisionEcc_idle {s : State} {d : DieId} {gid x k : Nat} (h : ¬∃ w i, s.divides d gid x k w i) : s.divisionEcc d gid x k = s := by
  unfold State.divisionEcc
  split
  · rfl
  · next w i hs =>
    rw [if_pos]
    by_contra hc
    refine h ⟨w, i, hs, ?_⟩
    simpa [List.isEmpty_iff, and_assoc, imp_iff_not_or, Nat.one_le_iff_ne_zero] using hc

/-- The record of the word and the micro-step that the error stops. -/
def State.divisionFault (s : State) (w : Who) (k : Nat) : FaultRec :=
  (s.modCtl w fun _ c => { c with prog := k }).faultRec { w with prog := k } { cause := Cause.ecc, xs := w.xs }
theorem State.divisionEcc_stops {s : State} {d : DieId} {gid x k : Nat} {w : Who} {i : Instr} (h : s.divides d gid x k w i) (hg : gid ≠ 0) :
    s.divisionEcc d gid x k =
      (s.modGroup d gid fun G => G.modCtl w.hood w.all fun _ c => { c with prog := k, wait := .fault }).raiseFault (s.divisionFault w k) := by
  obtain ⟨hs, hx, hr, h1, hk⟩ := h
  obtain ⟨rfl, rfl⟩ := State.standsAt_home hs
  have hruns : ¬(w.xs.isEmpty || !(s.running w.d || decide (w.gid = 0)) || !decide (1 ≤ k ∧ k < divisionSteps i)) = true := by
    simp [List.isEmpty_iff, hx, h1, hk, hr.resolve_right hg]
  have hmod := State.modGroup_modGroup s w.d w.gid (fun G => G.modCtl w.hood w.all fun _ c => { c with prog := k })
    (fun G => G.modCtl w.hood w.all fun _ c => { c with wait := .fault }) fun G => Group.modCtl_gid ..
  simp only [Group.modCtl_modCtl] at hmod
  rw [← hmod, State.divisionEcc, hs]
  simp only
  rw [if_neg hruns, State.trap, if_neg (show ({ w with prog := k } : Who).gid ≠ 0 from hg)]
  rfl


/-! ## Each site -/

theorem lineDa_toNat (da : Nat) : (lineDa da).toNat = da / 64 * 64 % 2 ^ 64 := BitVec.toNat_ofNat ..
theorem State.mem_markBad (s : State) (da : Nat) : da / 64 ∈ (s.markBad da).badLines := List.mem_cons_self

section
variable (s : State)

theorem State.eccError_memory (d : DieId) (da : Nat) : s.meetsEcc (s.eccError (.memory d da)) d ∧ da / 64 ∈ (s.eccError (.memory d da)).badLines := by
  refine ⟨meetsEcc_syncError (u := s.markBad da) rfl rfl rfl d 0 (lineDa da), ?_⟩
  show da / 64 ∈ ((s.markBad da).syncError (s.partOf d) d 0 (lineDa da)).badLines
  rw [(State.Signals.syncError ..).badLines]
  exact s.mem_markBad da

theorem State.eccError_localMem (d : DieId) (core sp gid a : Nat) : s.meetsEcc (s.eccError (.localMem d core sp gid a)) d ∧
    (s.eccError (.localMem d core sp gid a)).badLines = s.badLines ∧
    (sp, if sp = 1 then 0 else gid, a / 16) ∈ ((s.eccError (.localMem d core sp gid a)).die d).badLocal := by
  refine ⟨meetsEcc_raiseFault rfl rfl rfl rfl rfl, (State.Signals.raiseFault ..).badLines, ?_⟩
  simp only [State.eccError, State.eccFault, (State.Signals.raiseFault ..).badLocal, State.die_modDie]
  exact List.mem_cons_self

theorem State.eccError_tile {d : DieId} {core gid n : Nat} {G : Group} (h : s.group d gid = some G) : s.meetsEcc (s.eccError (.tile d core gid n)) d ∧
    (s.eccError (.tile d core gid n)).badLines = s.badLines ∧ ∃ G', (s.eccError (.tile d core gid n)).group d gid = some G' ∧ n ∈ G'.badTiles := by
  have hmod := State.group_modGroup s d gid (fun G => { G with badTiles := n :: G.badTiles.filter (· != n) }) fun _ => rfl
  rw [h] at hmod
  obtain ⟨G', hG', hb⟩ := State.raiseFault_badTiles hmod { die := d, slot := 100 + core, clock := s.clock, form := {}, stop :=
    { State.tileRecord (s.modGroup d gid fun G => { G with badTiles := n :: G.badTiles.filter (· != n) }) d core with cause := Cause.ecc } }
  exact ⟨meetsEcc_raiseFault rfl rfl rfl rfl rfl, (State.Signals.raiseFault ..).badLines, G', hG', by rw [hb]; exact List.mem_cons_self⟩

theorem State.eccError_queue {d : DieId} {k : Nat} {q : RQueue} (hq : (s.die d).queues[k]? = some q) (hp : s.partOf d = q.part) :
    s.meetsEcc (s.eccError (.queue d k)) d := by
  rw [show s.eccError (.queue d k) = s.syncError (s.partOf d) d 0 (lineDa q.desc) by rw [State.eccError, hq, hp]]
  exact meetsEcc_syncError rfl rfl rfl ..
theorem State.eccError_counters {k : Nat} {c : CSet} (hc : s.sets[k]? = some c) (hp : s.partOf c.die = c.part) :
    s.meetsEcc (s.eccError (.counters k)) c.die := by
  rw [show s.eccError (.counters k) = s.syncError (s.partOf c.die) c.die 0 0 by rw [State.eccError, hc, hp]]
  exact meetsEcc_syncError rfl rfl rfl ..

theorem State.eccError_store {d : DieId} {n : Fin 4} {k c : Nat} {x : StoreEntry} (hx : (s.stores.filter (·.at_ == Router.crown d n))[k]? = some x)
    (hp : s.partOf d = x.part) : s.meetsEcc (s.eccError (.store (.crown d n) k c)) d ∧
      ∃ y ∈ (s.eccError (.store (.crown d n) k c)).stores, y.name = x.name ∧ y.at_ = x.at_ ∧ c ∈ y.bad := by
  let u : State := { s with stores := s.stores.map fun u => if u == x then { u with bad := c :: u.bad.filter (· != c) } else u }
  rw [show s.eccError (.store (.crown d n) k c) = u.storeEcc (.crown d n) x by rw [State.eccError, hx]]
  refine ⟨meetsEcc_raiseFault rfl rfl rfl ?_ rfl, ?_⟩
  · show s.partOf (if u.partOf d == x.part then d else (u.diesOf x.part).headD d) = s.partOf d
    rw [if_pos (show (u.partOf d == x.part) = true from beq_iff_eq.mpr hp)]
  · have hmem : x ∈ s.stores := List.mem_of_mem_filter (List.mem_of_getElem? hx)
    rw [show (u.storeEcc (.crown d n) x).stores = u.stores from (State.Signals.raiseFault ..).stores]
    exact ⟨_, List.mem_map.mpr ⟨x, hmem, if_pos (beq_self_eq_true x)⟩, rfl, rfl, List.mem_cons_self⟩

theorem State.eccError_sync {d : DieId} {da : Nat} (he : ∀ p, s.ownsLine d (da / 64) p → ∃ e, s.partOf e = p) :
    da / 64 ∈ (s.eccError (.sync d da)).badLines ∧ (s.eccError (.sync d da)).mem = s.mem ∧ ∀ p,
      (s.ownsLine d (da / 64) p → ((s.eccError (.sync d da)).part p).halt = true ∧ ((s.eccError (.sync d da)).part p).tpend.getLsbD 1 = true ∧
        ((s.part p).halt = false →
          ∃ f, ((s.eccError (.sync d da)).part p).pending = some f ∧ f.slot = 248 ∧ f.stop.cause = Cause.ecc ∧ f.stop.faddr = lineDa da)) ∧
      (¬s.ownsLine d (da / 64) p → (s.eccError (.sync d da)).part p = s.part p) := by
  have hsig : (s.markBad da).Signals (s.eccError (.sync d da)) := .foldl (fun s p => .syncError s p d _ _) _ _
  have hnodup : (s.lineOwners d da).Nodup := List.Nodup.filter _ (by decide)
  refine ⟨by rw [hsig.badLines]; exact s.mem_markBad da, hsig.mem, fun p => ?_⟩
  rw [← State.mem_lineOwners]
  exact State.foldl_syncError (fun s p => s.requesting p da) hnodup (s := s.markBad da) (fun q hq => he q (State.mem_lineOwners.mp hq)) p

theorem State.eccError_division {d : DieId} {gid x k : Nat} {w : Who} {i : Instr} (h : s.divides d gid x k w i) (hg : gid ≠ 0) :
    s.meetsEcc (s.eccError (.division d gid x k)) d ∧
    (s.eccError (.division d gid x k)).group d gid = (s.group d gid).map (fun G => G.modCtl w.hood w.all fun _ c => { c with prog := k, wait := .fault }) ∧
    ((s.part (s.partOf d)).halt = false →
      ∃ f, ((s.eccError (.division d gid x k)).part (s.partOf d)).pending = some f ∧ f.stop.pc = w.pc ∧ f.stop.q18.toNat = k) := by
  have hw := (State.standsAt_home h.1).1
  have hk : k < 2 ^ 64 := by
    have := divisionSteps_le i
    have := h.2.2.2.2
    omega
  rw [show s.eccError (.division d gid x k) = _ from s.divisionEcc_stops h hg]
  refine ⟨meetsEcc_raiseFault rfl rfl rfl (congrArg s.partOf hw) rfl, ?_, fun hh => ?_⟩
  · rw [(State.Signals.raiseFault ..).group d hg]
    exact State.group_modGroup _ _ _ _ fun G => Group.modCtl_gid ..
  · have hpend := State.raiseFault_pending
      (s.modGroup d gid fun G => G.modCtl w.hood w.all fun _ c => { c with prog := k, wait := .fault }) (s.divisionFault w k)
    rw [show (s.divisionFault w k).die = d from hw] at hpend
    exact ⟨_, hpend hh, rfl, (BitVec.toNat_ofNat ..).trans (Nat.mod_eq_of_lt hk)⟩
end

/-! ## The clause of O60 -/

theorem eccUncorrectable_eq {s : State} {rest : List Input} {site : EccSite} (h : headed s (.ecc site) rest) :
    exec .eccUncorrectable s = .next (if s.ready then { s with inbox := rest }.eccError site else { s with inbox := rest }) := by
  simp only [exec, execEccUncorrectable, withInput, show s.inbox = _ from h]

/-- R43, R100, R117, R217, R234, R310, R317, R355: what uncorrectable errors halt. -/
theorem memoryErrorsHalt : Claims.MemoryErrorsHalt := by
  intro s rest site hx
  refine ⟨fun hr => (eccUncorrectable_eq hx).trans (by rw [hr, if_neg (by decide)]), fun hr => ?_⟩
  intro meets
  let u : State := { s with inbox := rest }
  have hexec : exec .eccUncorrectable s = .next (u.eccError site) := (eccUncorrectable_eq hx).trans (by rw [if_pos hr])
  have meet {d : DieId} {P : State → Prop} (hm : u.meetsEcc (u.eccError site) d) (hP : P (u.eccError site)) : meets d P := by
    obtain ⟨hh, hp, hmem, ho⟩ := hm
    exact ⟨_, hexec, hh, hp, hmem, ho, hP⟩
  refine ⟨fun d da hs => ?memory, fun d core sp gid a hs => ?localMem, fun d core gid n G hs hG => ?tile, fun d da hs => ?sync,
    fun d gid x k hs => ?division, fun d k q hs hq hp => ?queue, fun k c hs hc hp => ?counters, fun d n k c x hs hk hp => ?store⟩ <;> subst hs
  case memory => exact meet (u.eccError_memory d da).1 (u.eccError_memory d da).2
  case localMem => exact meet (u.eccError_localMem d core sp gid a).1 (u.eccError_localMem d core sp gid a).2
  case tile => exact meet (u.eccError_tile hG).1 (u.eccError_tile hG).2
  case sync =>
    intro owns he
    obtain ⟨hb, hm, hp⟩ := u.eccError_sync he
    refine ⟨_, hexec, hb, hm, fun p => ⟨fun ho => ?_, (hp p).2⟩⟩
    obtain ⟨hh, ht, hf⟩ := (hp p).1 ho
    refine ⟨hh, ht, fun h => ?_⟩
    obtain ⟨f, hpend, hslot, hcause, hline⟩ := hf h
    exact ⟨f, hpend, hslot, hcause, by rw [hline, lineDa_toNat]⟩
  case division =>
    intro runs
    have hruns (w : Who) (i : Instr) : u.divides d gid x k w i ↔ runs w i := by
      rw [State.divides, s.standsAt_inbox rest]
      rfl
    refine ⟨fun hn => hexec.trans (congrArg _ (u.divisionEcc_idle ?_)), fun w i hw hg => ?_⟩
    · simpa only [hruns] using hn
    · obtain ⟨hm, hP⟩ := u.eccError_division ((hruns w i).mpr hw) hg
      exact meet hm hP
  case queue => exact meet (u.eccError_queue hq hp) trivial
  case counters => exact meet (u.eccError_counters hc hp) trivial
  case store => exact meet (u.eccError_store hk hp).1 (u.eccError_store hk hp).2

end Sys2Proof.Machine
end
section
/-! PROOFS. Memory errors last until their line is rewritten (R310): the fourth part of O60. -/
namespace Sys2Proof.Machine
open Sys2Proof.Claims

/-! ## Writes end the errors of their lines (log 14) -/

theorem any_span {a n : Nat} {p : Nat → Bool} : (span a n).any p = true ↔ ∃ j < n, p (a + j) = true := by
  rw [List.any_eq_true]
  constructor
  · rintro ⟨x, hx, hp⟩
    rw [mem_span] at hx
    exact ⟨x - a, by omega, by rwa [Nat.add_sub_cancel' hx.1]⟩
  · rintro ⟨j, hj, hp⟩
    exact ⟨a + j, (mem_span ..).mpr (by omega), hp⟩

theorem State.rewrite_badLines (s : State) (das : List Nat) : (s.rewrite das).badLines = s.badLines.filter fun l => !das.any (· / 64 == l) := by
  unfold State.rewrite
  split
  · next h => rw [List.isEmpty_iff.mp h]; rfl
  · rfl
/-- A write of device addresses ends the errors of the lines that its bytes lie in. -/
theorem State.mem_badLines_writeDa (s : State) (a line : Nat) (bs : List Byte) :
    line ∈ (s.writeDa a bs).badLines ↔ line ∈ s.badLines ∧ ∀ j < bs.length, (a + j) / 64 ≠ line := by
  rw [State.writeDa, State.rewrite_badLines, List.mem_filter, Bool.not_eq_true', ← Bool.not_eq_true, any_span]
  simp

/-- A byte in a line in error is not read. -/
theorem State.readVa_bad {s : State} {d : DieId} {agent : Nat} {sup : Bool} {va : DWord} {da : Nat} (h : s.translate d agent sup va .read = .ok da)
    (hb : da / 64 ∈ s.badLines) : s.readVa d agent sup va 1 = .fault Cause.ecc va := by
  have hbad : s.badAt da = true := List.contains_iff_mem.mpr hb
  simp [State.readVa, State.translateN, h, Acc.bind, hbad]

theorem State.mem_localLines {s : State} {d : DieId} {gid x sp a n line : Nat} (hsp : sp ≤ 1) :
    (sp, if sp = 1 then 0 else gid, line) ∈ s.localLines d gid x sp a n ↔ ∃ j < n, (a + j) / 16 = line := by
  have hspill : sp ≠ spSpill := by show sp ≠ 2; omega
  simp only [State.localLines, if_neg hspill]
  split
  · next h => simp [h]
  · next h =>
    have hrange : (∃ j < n, (a + j) / 16 = line) ↔ line ∈ range (a / 16) ((a + n - 1) / 16 + 1) := by
      rw [mem_range]
      constructor
      · rintro ⟨j, hj, rfl⟩; omega
      · rintro ⟨hlo, hhi⟩
        exact ⟨16 * line - a, by omega, by omega⟩
    rw [hrange]
    simp
/-- A write of local memory ends the errors of the lines of 16 bytes that its bytes lie in. -/
theorem State.mem_badLocal_writeLocal (s : State) (d : DieId) (gid x sp a : Nat) (bs : List Byte) (b : Nat × Nat × Nat) :
    b ∈ ((s.writeLocal d gid x sp a bs).die d).badLocal ↔ b ∈ (s.die d).badLocal ∧ b ∉ s.localLines d gid x sp a bs.length := by
  have hrest : ((s.writeLocal d gid x sp a bs).die d).badLocal = ((s.rewriteLocal d gid x sp a bs.length).die d).badLocal := by
    unfold State.writeLocal
    simp only
    split
    · rw [State.die_modDie]
    · rw [State.modGroup, State.die_modDie]
      unfold Die.modGroup
      split <;> rfl
  rw [hrest, State.rewriteLocal]
  split
  · next h => simp [List.isEmpty_iff.mp h]
  · simp [State.die_modDie, List.mem_filter]

/-! ## What keeps the lines in error -/

theorem foldl_badLines {α : Type} {f : State → α → State} (hf : ∀ (s : State) a, (f s a).badLines = s.badLines) (l : List α) (s : State) :
    (l.foldl f s).badLines = s.badLines := by
  induction l generalizing s with
  | nil => rfl
  | cons a l ih => exact (ih _).trans (hf s a)

section
variable (s : State)

@[simp] theorem State.raiseFault_badLines (f : FaultRec) : (s.raiseFault f).badLines = s.badLines := (State.Signals.raiseFault s f).badLines
@[simp] theorem State.svWrite_badLines (d : DieId) (a : Nat) (bs : List Byte) : (s.svWrite d a bs).badLines = s.badLines := rfl
@[simp] theorem State.modCtl_badLines (w : Who) (f : Nat → Ctl → Ctl) : (s.modCtl w f).badLines = s.badLines := rfl
@[simp] theorem State.trap_badLines (w : Who) (t : Trap) : (s.trap w t).badLines = s.badLines := by
  unfold State.trap
  split
  · exact (State.Signals.raiseSv ..).badLines
  · simp
@[simp] theorem State.resolve_badLines (d : DieId) (gid id : Nat) : (s.resolve d gid id).badLines = s.badLines := rfl
@[simp] theorem State.rewriteLocal_badLines (d : DieId) (gid x sp a n : Nat) : (s.rewriteLocal d gid x sp a n).badLines = s.badLines := by
  unfold State.rewriteLocal
  split <;> rfl
@[simp] theorem State.writeLocal_badLines (d : DieId) (gid x sp a : Nat) (bs : List Byte) : (s.writeLocal d gid x sp a bs).badLines = s.badLines := by
  unfold State.writeLocal
  simp only
  split <;> simp

/-! ### Tile engines -/

@[simp] theorem State.setTile_badLines (d : DieId) (gid n : Nat) (T : Mem) : (s.setTile d gid n T).badLines = s.badLines := rfl
@[simp] theorem State.tileDone_badLines (d : DieId) (q : TileCmd) : (s.tileDone d q).badLines = s.badLines := rfl
@[simp] theorem State.tileEcc_badLines (d : DieId) (core : Nat) : (s.tileEcc d core).badLines = s.badLines := State.raiseFault_badLines ..
@[simp] theorem State.stageRows_badLines (d : DieId) (gid : Nat) (h : Handle) (pc : DWord) (out : List (Nat × List Word)) :
    (s.stageRows d gid h pc out).badLines = s.badLines := rfl
@[simp] theorem State.storeTile_badLines (d : DieId) (q : TileCmd) (T : Mem) : (s.storeTile d q T).badLines = s.badLines :=
  foldl_badLines (fun _ _ => State.writeLocal_badLines ..) _ s

theorem State.performTile_badLines (d : DieId) (q : TileCmd) : (s.performTile d q).badLines = s.badLines := by
  unfold State.performTile
  split
  · simp
  · next G _ =>
    split
    · simp
    · have hs (f : Group → Group) : (if q.writesAll then s.modGroup d q.gid f else s).badLines = s.badLines := by split <;> rfl
      cases hk : q.kind <;> dsimp only
      case tmma | tmmai => split <;> simp [hs]
      case tdred => split <;> simp [hs]
      all_goals simp [hs]
theorem State.finishHeads_badLines (d : DieId) : (s.finishHeads d).badLines = s.badLines := by
  refine foldl_badLines (fun s c => ?_) _ s
  split
  · split
    · rfl
    · exact State.performTile_badLines ..
  · rfl

/-! ### Records, the fabric, delivery and return -/

theorem State.writeRecords_badLines (d : DieId) : (s.writeRecords d).badLines = s.badLines :=
  foldl_badLines (fun _ _ => State.svWrite_badLines ..) _ s
theorem State.dropFabric_badLines (p : PartId) : (s.dropFabric p).badLines = s.badLines := by
  unfold State.dropFabric
  exact foldl_badLines (fun _ _ => State.modBank_badLines ..) _ _
theorem State.refreshFabric_badLines (d : DieId) : (s.refreshFabric d).badLines = s.badLines := by
  unfold State.refreshFabric
  dsimp only
  rw [foldl_badLines, foldl_badLines]
  · rfl
  · exact fun _ _ => rfl
  · exact fun _ _ => rfl
theorem State.deliver_badLines (d : DieId) : (s.deliver d).badLines = s.badLines := by
  unfold State.deliver
  split <;> simp
theorem State.deliverAgain_badLines (d : DieId) : (s.deliverAgain d).badLines = s.badLines := by
  unfold State.deliverAgain
  rw [State.modDie_badLines, State.deliver_badLines]
theorem State.resume_badLines (p : PartId) : (s.resume p).badLines = s.badLines := by
  unfold State.resume
  dsimp only
  rw [foldl_badLines]
  · rfl
  · exact fun _ _ => State.refreshFabric_badLines ..
end

theorem haltComplete_badLines {s t : State} {p : PartId} (h : exec (.haltComplete p) s = .next t) : t.badLines = s.badLines := by
  simp only [exec, execHaltComplete] at h
  split at h
  · cases h; rfl
  · cases h
    rw [State.modPart_badLines, State.dropFabric_badLines, foldl_badLines, foldl_badLines, State.modPart_badLines, foldl_badLines, foldl_badLines]
    · exact State.finishHeads_badLines
    · exact fun _ _ => rfl
    · exact State.writeRecords_badLines
    · exact fun _ _ => rfl
theorem eventDelivery_badLines {s t : State} {d : DieId} (h : exec (.eventDelivery d) s = .next t) : t.badLines = s.badLines := by
  simp only [exec, execEventDelivery] at h
  split at h <;> cases h
  · exact State.deliver_badLines ..
  · rfl

/-! ### A word of the issuing threads -/

/-- What the effect leaves has the lines in error of `s`. -/
def Eff.Keeps (s : State) : Eff → Prop
  | .ok t _ | .jump t _ _ | .done t | .hold t _ => t.badLines = s.badLines
  | _ => True

section
variable (s : State) (w : Who)

@[simp] theorem State.settle_badLines : (s.settle w).badLines = s.badLines := rfl
@[simp] theorem State.finish_badLines (u : Use) (tok : Option Nat) (safe : Nat → Bool) (tgt : Nat → DWord) :
    (s.finish w u tok safe tgt).badLines = s.badLines := rfl
@[simp] theorem State.skip_badLines (u : Use) : (s.skip w u).badLines = s.badLines := rfl
@[simp] theorem State.holdAt_badLines (i : Instr) (k : Wait) : (s.holdAt w i k).badLines = s.badLines := rfl
@[simp] theorem State.expandThread_badLines : (s.expandThread w).badLines = s.badLines := by
  unfold State.expandThread
  split
  · rfl
  · split
    · rfl
    · split <;> rfl
@[simp] theorem State.holdBusy_badLines (u : Use) : (s.holdBusy w u).1.badLines = s.badLines := by
  unfold State.holdBusy
  split
  · rfl
  · dsimp only
    split <;> rfl

omit s in
theorem State.apply_badLines {s : State} {i : Instr} {e : Eff} {r : State} (h : e.Keeps r) (hr : s.badLines = r.badLines) :
    (s.apply w i e).badLines = r.badLines := by
  cases e with
  | ok t tok => exact h
  | jump t safe tgt => exact h
  | done t => exact h
  | hold t k =>
    simp only [State.apply]
    split
    · exact h
    · exact h
  | expand => exact hr
  | cond _ => exact hr
  | trap t => exact (State.trap_badLines ..).trans hr

variable {s w} {i : Instr} {body : Who → State → Eff} (hb : ∀ w s, (body w s).Keeps s)
include hb

theorem runHood_badLines : ∀ (fuel : Nat) (w : Who) (s : State), (runHood i body fuel w s).badLines = s.badLines
  | 0, w, s => State.expandThread_badLines s w
  | fuel + 1, w, s => by
    unfold runHood
    extract_lets lo hi owe byCond run
    have hby (t : List Nat) (once : Bool → State) (ho : ∀ b, (once b).badLines = s.badLines) : (byCond t once).badLines = s.badLines := by
      unfold byCond
      split
      · exact ho _
      · split
        · exact State.expandThread_badLines s w
        · exact (runHood_badLines fuel _ _).trans (runHood_badLines fuel _ _)
      · exact State.expandThread_badLines s w
    have hrun (w : Who) : (run w).badLines = s.badLines := by
      unfold run
      have hbusy := State.holdBusy_badLines s w i.use
      generalize s.holdBusy w i.use = p at hbusy
      dsimp only
      split
      · exact hbusy
      · have h := hb p.2 p.1
        split
        · exact (State.expandThread_badLines ..).trans hbusy
        · exact hby _ _ fun _ => (State.expandThread_badLines ..).trans hbusy
        · exact (State.apply_badLines _ h rfl).trans hbusy
    split
    · exact hrun w
    · refine hby _ _ fun b => ?_
      split
      · exact hrun w
      · split
        · exact hrun _
        · exact State.skip_badLines ..

theorem inParts_badLines (ws : List Who) (s : State) : (inParts i body ws s).badLines = s.badLines := by
  refine foldl_badLines (fun s w => ?_) ws s
  split
  · rfl
  · have h := hb w s
    split
    · rfl
    · rfl
    · exact State.apply_badLines w h rfl
theorem perWave_keeps (w : Who) (s : State) : (perWave i body w s).Keeps s := by
  unfold perWave
  split
  · exact hb w s
  · exact hb w s
  · exact inParts_badLines hb _ s
theorem runLanes_badLines (w : Who) (s : State) : (runLanes i body w s).badLines = s.badLines := by
  unfold runLanes
  have hbusy := State.holdBusy_badLines s { w with xs := s.selected w } i.use
  generalize s.holdBusy { w with xs := s.selected w } i.use = p at hbusy
  dsimp only
  split
  · exact hbusy
  · split
    · exact hbusy
    · have h := hb p.2 p.1
      split
      · exact hbusy
      · exact hbusy
      · exact (State.apply_badLines _ h rfl).trans hbusy
theorem runThread_badLines (w : Who) (s : State) : (runThread i body w s).badLines = s.badLines := by
  unfold runThread
  split
  · exact State.trap_badLines ..
  · split
    · exact runLanes_badLines hb w s
    · dsimp only
      split
      · rfl
      · rfl
      · exact runHood_badLines hb 4 w s
end

/-- A carder that issues a compute word faults, passes it, or does nothing. -/
theorem runCarder_noCarder_badLines (i : Instr) (d : DieId) (inst : Nat) (s : State) : (runCarder i d inst (noCarder d inst) s).badLines = s.badLines := by
  have hcard (inner : Cause) (pc fa : DWord) : (s.card d inst inner pc fa).badLines = s.badLines := by
    unfold State.card
    split
    · rfl
    · exact State.raiseFault_badLines ..
  unfold runCarder
  extract_lets c pc chainPc skip
  split
  · exact hcard ..
  · split
    · exact hcard ..
    · split <;> rfl

/-- A word of the issuing threads leaves the lines in error as its effect does. -/
theorem waveWord_badLines {i : Instr} {body : Who → State → Eff} (hb : ∀ w s, (body w s).Keeps s) {s t : State} (h : waveWord i body s = .next t) :
    t.badLines = s.badLines := by
  unfold waveWord issued at h
  split at h
  · cases h
  · cases h; exact runCarder_noCarder_badLines ..
  · split at h
    · cases h
    · cases h; exact runThread_badLines (perWave_keeps hb) ..

theorem trapretBody_keeps (w : Who) (s : State) : (trapretBody w s).Keeps s := by
  unfold trapretBody
  dsimp only
  split
  · trivial
  · split
    · exact State.deliverAgain_badLines ..
    · split
      · rfl
      · split
        · trivial
        · split
          · rfl
          · show State.badLines (if _ then _ else _) = _
            split
            · exact State.resume_badLines ..
            · rfl

/-! ## The clause of O60 -/

/-- R310: errors last until their lines are rewritten. -/
theorem errorsLastUntilRewritten : Claims.ErrorsLastUntilRewritten := by
  refine ⟨fun s t i hi h => ?_, fun s a n line bs hn => ?_, fun s d agent sup va da h hb => State.readVa_bad h hb, fun s d gid x sp a line bs hsp => ?_⟩
  · obtain ⟨p, rfl⟩ | ⟨d, rfl⟩ | rfl := hi
    · exact haltComplete_badLines h
    · exact eventDelivery_badLines h
    · exact waveWord_badLines trapretBody_keeps h
  · subst hn
    exact State.mem_badLines_writeDa ..
  · intro key
    rw [State.mem_badLocal_writeLocal, State.mem_localLines hsp]
    simp [key]

end Sys2Proof.Machine
end
section
/-! PROOFS. What the loader writes at a virtual address (R40, R342): the first clause of O60 on the loader. -/
namespace Sys2Proof.Machine
open Sys2Proof.Claims

/-! ## Translation keeps the offset in a page -/

/-- One entry of a range table: what it says of an address, or what the entries after it say. -/
def rangeStep (bad : Nat → Option Cause) (m : Mem) (a va : Nat) (rest : Option (Acc (Nat × Perm))) : Option (Acc (Nat × Perm)) :=
  match bad a with
  | some c => some (.fault c (BitVec.ofNat 64 va))
  | none =>
    let lo := m.get a 8
    let hi := m.get (a + 8) 8
    let off := m.get (a + 16) 8
    let fl := m.get (a + 24) 8
    if fl % 2 = 1 ∧ vpn lo ≤ vpn va ∧ (vpn va < vpn hi ∨ vpn hi ≤ vpn lo) then
      let reserved := lo % 2 ^ 12 ≠ 0 ∨ lo >>> 57 ≠ 0 ∨ hi % 2 ^ 12 ≠ 0 ∨ hi >>> 57 ≠ 0 ∨ off % 2 ^ 12 ≠ 0 ∨ fl >>> 5 ≠ 0
      let pm : Perm := ⟨fl.testBit 1, fl.testBit 2, fl.testBit 3, fl.testBit 4⟩
      if reserved ∨ vpn hi ≤ vpn lo ∨ (pm.w ∧ pm.x) then some (.fault Cause.prot (BitVec.ofNat 64 va))
      else some (.ok ((va + off) % 2 ^ 64, pm))
    else rest
theorem rangeLookup_succ (bad : Nat → Option Cause) (m : Mem) (tab va fuel i : Nat) :
    rangeLookup bad m tab va (fuel + 1) i = rangeStep bad m (tab + 32 * i) va (rangeLookup bad m tab va fuel (i + 1)) := rfl
theorem rangeStep_page {bad : Nat → Option Cause} {m : Mem} {a va da : Nat} {pm : Perm} {rest : Option (Acc (Nat × Perm))}
    (hr : rest = some (.ok (da, pm)) → da % 4096 = va % 4096) (h : rangeStep bad m a va rest = some (.ok (da, pm))) : da % 4096 = va % 4096 := by
  unfold rangeStep at h
  split at h
  · cases h
  · extract_lets lo hi off fl reserved perm at h
    split at h
    · split at h
      · cases h
      · next hok =>
        simp only [reserved, not_or, not_not] at hok
        have hda := congrArg Prod.fst (Acc.ok.inj (Option.some.inj h))
        simp only at hda
        omega
    · exact hr h
theorem rangeLookup_page {bad : Nat → Option Cause} {m : Mem} {tab va da : Nat} {pm : Perm} {fuel i : Nat}
    (h : rangeLookup bad m tab va fuel i = some (.ok (da, pm))) : da % 4096 = va % 4096 := by
  induction fuel generalizing i with
  | zero => exact absurd (show none = _ from h) nofun
  | succ fuel ih =>
    rw [rangeLookup_succ] at h
    exact rangeStep_page ih h

/-- The pages of a leaf at a level of the walk. -/
def leafSize (l e : Nat) : Nat := if l = 0 then (if e.testBit 6 then 2 ^ 16 else 2 ^ 12) else 2 ^ (12 + 9 * l)
theorem dvd_leafSize (l e : Nat) : 4096 ∣ leafSize l e := by
  unfold leafSize
  split
  · split <;> decide
  · exact Nat.pow_dvd_pow 2 (show 12 ≤ 12 + 9 * l by omega)
theorem walk_page {bad : Nat → Option Cause} {m : Mem} {n va da : Nat} {pm : Perm} {level table : Nat}
    (h : walk bad m n va level table = .ok (da, pm)) : da % 4096 = va % 4096 := by
  induction level generalizing table with
  | zero => cases h
  | succ l ih =>
    rw [walk] at h
    extract_lets e addr leaf size at h
    split at h
    · cases h
    · split at h
      · cases h
      · split at h
        · cases h
        · split at h
          · split at h
            · cases h
            · have hda := congrArg Prod.fst (Acc.ok.inj h)
              have hsize : 4096 ∣ size := dvd_leafSize l e
              rw [← show addr + va % size = da from hda, Nat.add_mod, Nat.mul_mod_left, Nat.zero_add, Nat.mod_mod, Nat.mod_mod_of_dvd _ hsize]
          · exact ih h
theorem State.tableVa_page {s : State} {va da : Nat} {t : Nat × Nat} (h : s.tableVa va t = .ok da) : da % 4096 = va % 4096 := by
  unfold State.tableVa at h
  split at h
  · cases h
  · split at h
    · next d pm hr =>
      split at h
      · cases h
        split at hr
        · next r hl => exact rangeLookup_page (hl.trans (congrArg some hr))
        · exact walk_page hr
      · cases h
    · cases h
theorem State.throughAll_page {s : State} {va : Nat} : ∀ {ts : List (Nat × Nat)} {das : List Nat}, s.throughAll va ts = .ok das →
    ∀ da ∈ das, da % 4096 = va % 4096
  | [], das, h => by cases h; simp
  | t :: ts, das, h => by
    simp only [State.throughAll] at h
    split at h
    · cases h
    · next da hda =>
      split at h
      · next rest hrest =>
        cases h
        intro x hx
        split at hx
        · exact State.throughAll_page hrest x hx
        · obtain rfl | hx := List.mem_cons.mp hx
          · exact State.tableVa_page hda
          · exact State.throughAll_page hrest x hx
      · cases h
theorem State.loaderVa_page {s : State} {p : PartId} {c : Ctx} {va : Nat} {das : List Nat} (h : s.loaderVa p c va = .ok das) :
    ∀ da ∈ das, da % 4096 = va % 4096 := by
  unfold State.loaderVa at h
  split at h
  · cases h
  · exact State.throughAll_page h

/-! ## The pages of an address range -/

theorem pagesOf_nodup (va n : Nat) : (pagesOf va n).Nodup := by
  unfold pagesOf
  split
  · exact List.nodup_nil
  · refine List.Nodup.map (fun i j (hij : (if i = 0 then va else (va / 4096 + i) * 4096) = if j = 0 then va else (va / 4096 + j) * 4096) => ?_) List.nodup_range
    split at hij <;> split at hij <;> omega

/-! ## Writes through several dies' tables -/

theorem State.writeDa_mem (s : State) (da : Nat) (bs : List Byte) : (s.writeDa da bs).mem = s.mem.writeN da bs := by
  unfold State.writeDa State.rewrite
  split <;> rfl

/-- One page's bytes, written at each of its device addresses. -/
def State.writeEach (s : State) (das : List Nat) (bs : List Byte) : State := das.foldl (fun (s : State) da => s.writeDa da bs) s

theorem State.writeEach_wf (bs : List Byte) : ∀ (das : List Nat) (s : State), s.mem.wf = true → (s.writeEach das bs).mem.wf = true
  | [], _, h => h
  | da :: das, s, h => State.writeEach_wf bs das _ (by rw [State.writeDa_mem]; exact Mem.writeN_wf bs da h)
theorem State.writeEach_other (bs : List Byte) {q : Nat} : ∀ (das : List Nat) (s : State), s.mem.wf = true →
    (∀ da ∈ das, q < da ∨ da + bs.length ≤ q) → (s.writeEach das bs).mem.read q = s.mem.read q
  | [], _, _, _ => rfl
  | da :: das, s, h, hq => by
    have hw : (s.writeDa da bs).mem.wf = true := by rw [State.writeDa_mem]; exact Mem.writeN_wf bs da h
    refine (State.writeEach_other bs das _ hw fun e he => hq e (List.mem_cons_of_mem _ he)).trans ?_
    have := hq da List.mem_cons_self
    rw [State.writeDa_mem, Mem.read_writeN bs da q h, if_neg (by omega)]
/-- Device addresses of one offset in their pages: the bytes stand at each of them. -/
theorem State.writeEach_at (bs : List Byte) {a j da : Nat} (ha : a % 4096 + bs.length ≤ 4096) (hj : j < bs.length) (das : List Nat) (s : State)
    (h : s.mem.wf = true) (hp : ∀ da ∈ das, da % 4096 = a % 4096) (hda : da ∈ das) : (s.writeEach das bs).mem.read (da + j) = bs.getD j 0 := by
  induction das generalizing s with
  | nil => cases hda
  | cons e das ih =>
    have hw : (s.writeDa e bs).mem.wf = true := by rw [State.writeDa_mem]; exact Mem.writeN_wf bs e h
    by_cases hin : da ∈ das
    · exact ih _ hw (fun x hx => hp x (List.mem_cons_of_mem _ hx)) hin
    · obtain rfl : da = e := (List.mem_cons.mp hda).resolve_right hin
      refine (State.writeEach_other bs das _ hw fun x hx => ?_).trans ?_
      · have hne : x ≠ da := fun h => hin (h ▸ hx)
        have := hp x (List.mem_cons_of_mem _ hx)
        have := hp da List.mem_cons_self
        omega
      · rw [State.writeDa_mem, Mem.read_writeN bs da _ h, if_pos (by omega), Nat.add_sub_cancel_left]

/-! ## The loader's writes -/

/-- The bytes of the page at `a`, of a range at `va`. -/
def pagePiece (va : Nat) (bs : List Byte) (a : Nat) : List Byte := (bs.drop (a - va)).take (4096 - a % 4096)
theorem pagePiece_length (va : Nat) (bs : List Byte) (a : Nat) : (pagePiece va bs a).length = min (4096 - a % 4096) (bs.length - (a - va)) := by
  simp [pagePiece]
theorem pagePiece_getD {va a j : Nat} {bs : List Byte} (h : j < (pagePiece va bs a).length) : (pagePiece va bs a).getD j 0 = bs.getD (a - va + j) 0 := by
  rw [pagePiece_length] at h
  simp only [List.getD_eq_getElem?_getD, pagePiece]
  rw [List.getElem?_take_of_lt (by omega), List.getElem?_drop]

theorem State.loaderPages_cons {s : State} {p : PartId} {c : Ctx} {va a : Nat} {bs : List Byte} {das : List Nat} (h : s.loaderVa p c a = .ok das) (as : List Nat) :
    s.loaderPages p c va bs (a :: as) = (s.writeEach das (pagePiece va bs a)).loaderPages p c va bs as := by
  rw [State.loaderPages, h]
  rfl
/-- The pages of a prefix first, then the others. -/
theorem State.loaderPages_append {p : PartId} {c : Ctx} {va : Nat} {bs : List Byte} (as bs' : List Nat) : ∀ (s : State), (s.loaderPages p c va bs as).1 = true →
    s.loaderPages p c va bs (as ++ bs') = (s.loaderPages p c va bs as).2.loaderPages p c va bs bs' := by
  induction as with
  | nil => exact fun _ _ => rfl
  | cons a as ih =>
    intro s h
    cases hva : s.loaderVa p c a with
    | ok das =>
      rw [State.loaderPages_cons hva] at h ⊢
      rw [List.cons_append, State.loaderPages_cons hva]
      exact ih _ h
    | fault e fa =>
      rw [State.loaderPages, hva] at h
      cases h

/-- What pages that the tables of `x` translate hold at the end. -/
structure PagesAt (x : State) (p : PartId) (c : Ctx) (va : Nat) (bs : List Byte) (as : List Nat) (s y : State) : Prop where
  wf : y.mem.wf = true
  at_ : ∀ a ∈ as, ∀ das, x.loaderVa p c a = .ok das → ∀ da ∈ das, ∀ j < (pagePiece va bs a).length, y.mem.read (da + j) = bs.getD (a - va + j) 0
  other : ∀ q, (∀ a ∈ as, ∀ das, x.loaderVa p c a = .ok das → ∀ da ∈ das, q < da ∨ da + (pagePiece va bs a).length ≤ q) →
    y.mem.read q = s.mem.read q

theorem pagesAt_of_loaderPages {x : State} {p : PartId} {c : Ctx} {va : Nat} {bs : List Byte} (hst : steady x p c va bs) (as : List Nat) :
    ∀ {pre : List Nat} {s y : State}, pagesOf va bs.length = pre ++ as → x.loaderPages p c va bs pre = (true, s) → s.mem.wf = true →
      s.loaderPages p c va bs as = (true, y) → PagesAt x p c va bs as s y := by
  induction as with
  | nil =>
    intro pre s y _ _ hw h
    cases h
    exact ⟨hw, fun _ h => absurd h List.not_mem_nil, fun _ _ => rfl⟩
  | cons a as ih =>
    intro pre s y hP hpre hw h
    obtain ⟨hsame, hapart⟩ := hst
    have ha : a ∈ pagesOf va bs.length := by rw [hP]; simp
    have hsx : s.loaderVa p c a = x.loaderVa p c a := by
      have := hsame pre.length a ha
      rwa [hP, List.take_left' rfl, hpre] at this
    cases hva : s.loaderVa p c a with
    | fault e fa =>
      rw [State.loaderPages, hva] at h
      cases h
    | ok das =>
      have hpage := State.loaderVa_page hva
      have hlen := pagePiece_length va bs a
      rw [State.loaderPages_cons hva] at h
      have hw' := State.writeEach_wf (pagePiece va bs a) das s hw
      obtain ⟨hyw, hat, hother⟩ := ih (pre := pre ++ [a]) (by rw [hP]; simp)
        (by rw [State.loaderPages_append _ _ _ (by rw [hpre]), hpre, State.loaderPages_cons hva]; rfl) hw' h
      refine ⟨hyw, fun b hb dbs hdbs db hdb j hj => ?_, fun q hq => ?_⟩
      · by_cases hin : b ∈ as
        · exact hat b hin dbs hdbs db hdb j hj
        · obtain rfl : b = a := (List.mem_cons.mp hb).resolve_right hin
          obtain rfl : dbs = das := Acc.ok.inj (hdbs.symm.trans (hsx.symm.trans hva))
          refine (hother _ fun b' hb' des hdes de hde => ?_).trans ?_
          · have hne : b ≠ b' := fun h => hin (h ▸ hb')
            have hfar := hapart b ha b' (by rw [hP]; simp [hb']) hne dbs des hdbs hdes db hdb de hde
            have := hpage db hdb
            have := State.loaderVa_page hdes de hde
            have := pagePiece_length va bs b'
            omega
          · rw [State.writeEach_at _ (a := b) (by omega) hj dbs s hw hpage hdb, pagePiece_getD hj]
      · refine (hother q fun b hb => hq b (List.mem_cons_of_mem _ hb)).trans ?_
        exact State.writeEach_other _ das s hw fun da hda => hq a List.mem_cons_self das (hsx ▸ hva) da hda

/-- R342: the bytes stand where the loader has written them. -/
theorem standAt_of_loaderWrite {s y : State} {p : PartId} {c : Ctx} {va : Nat} {bs : List Byte} (hw : s.mem.wf = true) (hst : steady s p c va bs)
    (h : s.loaderWrite p c va bs = (true, y)) : standAt s p c va bs y := by
  obtain ⟨-, hat, hother⟩ := pagesAt_of_loaderPages hst (pagesOf va bs.length) (pre := []) rfl rfl hw h
  simp only [pagePiece_length] at hat hother
  exact ⟨hat, hother⟩

end Sys2Proof.Machine
end
section
/-! PROOFS. The loader's commands: what one does before it answers, its faults and its status (R41, R42, R341). -/
namespace Sys2Proof.Machine
open Sys2Proof.Claims

/-! ## The loader's faults (R310) -/

/-- The record of a fault that the loader meets for a command. -/
def State.loaderRecord (s : State) (d : DieId) (c : Cause) (fa : Nat) : FaultRec :=
  { die := d, slot := 248, clock := s.clock, form := {}, stop := { cause := c, cls := 2, ctx := (s.die d).active.ctx, faddr := BitVec.ofNat 64 fa } }
/-- The loader's fault for partition `p`, if there is one. -/
def State.loaderFault (s : State) (p : PartId) (c : Cause) (fa : Nat) : State :=
  match s.diesOf p with
  | [] => s
  | d :: _ => s.raiseFault (s.loaderRecord d c fa)
theorem State.loaderEcc_eq (s : State) (p : PartId) (fa : Nat) : s.loaderEcc p fa = s.loaderFault p Cause.ecc fa := rfl
theorem State.loaderProt_eq (s : State) (p : PartId) (fa : Nat) : s.loaderProt p fa = s.loaderFault p Cause.prot fa := rfl

theorem State.Signals.loaderFault (s : State) (p : PartId) (c : Cause) (fa : Nat) : s.Signals (s.loaderFault p c fa) := by
  unfold State.loaderFault
  split
  · exact .refl s
  · exact .raiseFault ..
/-- In a partition with a die the fault is raised there. -/
theorem State.loaderFault_eq {s : State} {p : PartId} (h : ∃ d, s.partOf d = p) (c : Cause) (fa : Nat) :
    ∃ d, s.partOf d = p ∧ s.loaderFault p c fa = s.raiseFault (s.loaderRecord d c fa) := by
  obtain ⟨e, rfl⟩ := h
  unfold State.loaderFault
  split
  · next hnil => exact absurd (s.mem_diesOf e) (by rw [hnil]; exact List.not_mem_nil)
  · next d _ hd => exact ⟨d, State.partOf_of_diesOf hd, rfl⟩
theorem State.loaderFault_halts {s : State} {p : PartId} (h : ∃ d, s.partOf d = p) (c : Cause) (fa : Nat) :
    ((s.loaderFault p c fa).part p).halt = true ∧ ((s.part p).halt = false →
      ∃ f, ((s.loaderFault p c fa).part p).pending = some f ∧ f.stop.cause = c ∧ f.stop.faddr = BitVec.ofNat 64 fa) := by
  obtain ⟨d, rfl, he⟩ := State.loaderFault_eq h c fa
  rw [he]
  exact ⟨s.raiseFault_halt (s.loaderRecord d c fa), fun hr => ⟨_, s.raiseFault_pending (s.loaderRecord d c fa) hr, rfl, rfl⟩⟩
theorem State.loaderEcc_pends {s : State} {p : PartId} (h : ∃ d, s.partOf d = p) (fa : Nat) :
    ((s.loaderEcc p fa).part p).halt = true ∧ ((s.loaderEcc p fa).part p).tpend.getLsbD 1 = true := by
  rw [State.loaderEcc_eq]
  refine ⟨(State.loaderFault_halts h _ fa).1, ?_⟩
  obtain ⟨d, rfl, he⟩ := State.loaderFault_eq h Cause.ecc fa
  rw [he]
  exact s.raiseFault_ecc (f := s.loaderRecord d Cause.ecc fa) rfl

/-! ## Bytes at a device address -/

theorem State.rewrite_parts (s : State) (das : List Nat) : (s.rewrite das).parts = s.parts := by
  unfold State.rewrite
  split <;> rfl
theorem State.rewrite_dies (s : State) (das : List Nat) : (s.rewrite das).dies = s.dies := by
  unfold State.rewrite
  split <;> rfl
theorem State.writeDa_parts (s : State) (a : Nat) (bs : List Byte) : (s.writeDa a bs).parts = s.parts := State.rewrite_parts ..
theorem State.writeDa_dies (s : State) (a : Nat) (bs : List Byte) : (s.writeDa a bs).dies = s.dies := State.rewrite_dies ..

/-! ## The status of a command -/

section
variable {s : State} {q : LoaderCmd} (p : PartId) (code : Nat)

theorem loaderStatus_outside (h : s.poolOk q.status.toNat = false ∨ poolOf q.status.toNat ≠ 0) :
    s.loaderStatus q p code = s.loaderFault p Cause.prot q.status.toNat := by
  rw [State.loaderStatus, if_pos (by simpa using h)]
  rfl
theorem loaderStatus_inside (hok : s.poolOk q.status.toNat = true) (hpool : poolOf q.status.toNat = 0) (ha : q.status.toNat % 8 = 0) :
    s.loaderStatus q p code = (s.writeDa q.status.toNat (bytesOf 8 code)).modDie (s.homeOf q.status.toNat) fun D =>
      { D with held := touchLine (q.status.toNat / 64) p D.held } := by
  rw [State.loaderStatus, if_neg (by simp [hok, hpool]), if_neg (not_not.mpr ha)]
end

/-- From `s` to `t` at most faults have been raised: halt lines that stood stand, pending events stay pending, nothing is measured and no instruction line
comes or goes. -/
structure State.Reports (s t : State) : Prop where
  halt : ∀ p, (s.part p).halt = true → (t.part p).halt = true
  tpend : ∀ p i, (s.part p).tpend.getLsbD i = true → (t.part p).tpend.getLsbD i = true
  count : ∀ p, (t.part p).attCount = (s.part p).attCount
  icache : ∀ d, (t.die d).icache = (s.die d).icache

theorem State.Signals.reports {s t : State} (h : s.Signals t) : s.Reports t := ⟨h.halt, h.tpend, h.count, fun d => by rw [h.die d]⟩
theorem State.Reports.of_parts {s t : State} (hp : t.parts = s.parts) (hi : ∀ d, (t.die d).icache = (s.die d).icache) : s.Reports t where
  halt p h := by rwa [State.part, hp]
  tpend p i h := by rwa [State.part, hp]
  count p := by rw [State.part, hp]; rfl
  icache := hi
theorem State.Reports.loaderStatus (s : State) (q : LoaderCmd) (p : PartId) (code : Nat) : s.Reports (s.loaderStatus q p code) := by
  unfold State.loaderStatus
  extract_lets a
  split
  · exact (State.Signals.loaderFault s p Cause.prot a).reports
  · split
    · exact .of_parts rfl fun _ => rfl
    · refine .of_parts (State.writeDa_parts ..) fun d => ?_
      by_cases h : s.homeOf a = d
      · subst h
        rw [State.die_modDie]
        exact congrArg (fun v : Vector Die 8 => (v.get (s.homeOf a)).icache) (State.writeDa_dies ..)
      · rw [State.die_modDie_ne _ _ _ _ h]
        exact congrArg (fun v : Vector Die 8 => (v.get d).icache) (State.writeDa_dies ..)

/-- R42: a status in no pool halts the partition with PROT at its address. -/
theorem loaderStatus_prot {s : State} {q : LoaderCmd} {p : PartId} (code : Nat) (h : s.poolOk q.status.toNat = false ∨ poolOf q.status.toNat ≠ 0)
    (hp : ∃ d, s.partOf d = p) : ((s.loaderStatus q p code).part p).halt = true ∧ (s.loaderStatus q p code).mem = s.mem ∧ ((s.part p).halt = false →
      ∃ f, ((s.loaderStatus q p code).part p).pending = some f ∧ f.stop.cause = Cause.prot ∧ f.stop.faddr = q.status) := by
  rw [loaderStatus_outside p code h]
  obtain ⟨hhalt, hpend⟩ := State.loaderFault_halts hp Cause.prot q.status.toNat
  rw [BitVec.ofNat_toNat, BitVec.setWidth_eq] at hpend
  exact ⟨hhalt, (State.Signals.loaderFault ..).mem, hpend⟩
/-- R341: the status word. -/
theorem loaderStatus_written {s : State} {q : LoaderCmd} (p : PartId) (code : Nat) (hw : s.mem.wf = true) (ha : q.status.toNat % 8 = 0)
    (hpool : poolOf q.status.toNat = 0) (hok : s.poolOk q.status.toNat = true) :
    (s.loaderStatus q p code).mem.get q.status.toNat 8 = code % 2 ^ 64 ∧
    ∀ a, a < q.status.toNat ∨ q.status.toNat + 8 ≤ a → (s.loaderStatus q p code).mem.read a = s.mem.read a := by
  have hm : (s.loaderStatus q p code).mem = s.mem.writeN q.status.toNat (bytesOf 8 code) := by
    rw [loaderStatus_inside p code hok hpool ha]
    exact State.writeDa_mem ..
  have hback := Mem.readN_writeN hw q.status.toNat (bytesOf 8 code)
  rw [bytesOf_length] at hback
  rw [hm]
  refine ⟨by rw [Mem.get, hback, ofBytes_bytesOf]; rfl, fun a h => ?_⟩
  rw [Mem.read_writeN _ _ _ hw, bytesOf_length, if_neg (by omega)]

/-! ## The ring -/

/-- ICINV on one die: the lines of a block among the bytes go, and so does every line in an instruction buffer. -/
def Die.dropBlocks (D : Die) (src len : Nat) : Die :=
  { D with icache := D.icache.filter fun e => e.agent.isNone && !decide (src / 4096 ≤ e.line / 32 ∧ e.line / 32 * 4096 < src + len) }
/-- What the loader's words do with a command that is well-formed. -/
def loaderAct : Instr → LoaderCmd → State → Nat × State
  | .loaderLoad => fun q s => s.loadContainer (commandPart q) q
  | .loaderIcinv => fun q s =>
    (0, (allDies.filter fun d => q.dies.getLsbD d.val).foldl (fun (s : State) d => s.modDie d (·.dropBlocks q.src.toNat q.len.toNat)) s)
  | .loaderReadatt => fun q s =>
    if s.poolOk q.src.toNat && s.poolOk (q.src.toNat + 79) then (0, s.writeDa q.src.toNat (s.attRecord (commandPart q))) else (5, s)
  | _ => fun _ s => (0xFF, s)
theorem exec_eq_withCommand {i : Instr} (hi : i = .loaderLoad ∨ i = .loaderIcinv ∨ i = .loaderReadatt ∨ i = .loaderInvalidCommand) (s : State) :
    exec i s = withCommand s (loaderAct i) := by
  obtain rfl | rfl | rfl | rfl := hi <;> rfl

/-- The command that the ring holds next, and whether it can be read. -/
def State.nextCommand (s : State) : LoaderCmd := LoaderCmd.of (s.mem.readN s.slotAt 64)
def State.slotReadable (s : State) : Prop := s.poolOk s.slotAt = true ∧ s.badIn s.slotAt 64 = none
/-- A LOAD waits for what its context has translated. -/
def State.loadWaits (s : State) : Prop := s.slotReadable ∧ s.nextCommand.opc = 1 ∧ commandBad s.nextCommand = false ∧
  s.quiet (commandPart s.nextCommand) (s.nextCommand.ctx.setWidth 12) = false

theorem ringCommand_some {s : State} (h : s.slotReadable) : s.ringCommand = some s.nextCommand := by
  obtain ⟨hok, hbad⟩ := h
  rw [State.ringCommand, if_neg (by simp [hok, hbad])]
  rfl
theorem ringCommand_none {s : State} (h : ¬s.slotReadable) : s.ringCommand = none := by
  unfold State.ringCommand
  rw [if_pos]
  rw [Bool.or_eq_true, Bool.not_eq_true', Option.isSome_iff_ne_none]
  by_cases hok : s.poolOk s.slotAt = true
  · exact .inr fun hbad => h ⟨hok, hbad⟩
  · exact .inl (Bool.eq_false_of_not_eq_true hok)
theorem commandWaits_iff {s : State} : s.commandWaits = true ↔ s.loadWaits := by
  unfold State.commandWaits State.loadWaits
  by_cases h : s.slotReadable
  · rw [ringCommand_some h]
    simp [h, and_assoc]
  · rw [ringCommand_none h]
    simp [h]

section
variable {s : State} {rest : List Input} (h : headed s .loader rest) (f : LoaderCmd → State → Nat × State)
include h

theorem withCommand_low (hr : s.ready = false) : withCommand s f = .next { s with inbox := rest } := by
  unfold withCommand
  rw [h]
  simp only [hr, Bool.not_false, if_true]
theorem withCommand_waits (hr : s.ready = true) (hw : s.moving ≠ [] ∨ s.loadWaits) : withCommand s f = .next s := by
  have hw' : (!s.moving.isEmpty || s.commandWaits) = true := by
    rw [Bool.or_eq_true, commandWaits_iff, Bool.not_eq_true', List.isEmpty_eq_false_iff]
    exact hw
  unfold withCommand
  rw [h]
  simp only [hr, hw', Bool.not_true, Bool.false_eq_true, if_false, if_true]
theorem withCommand_unread (hr : s.ready = true) (hm : s.moving = []) (hs : ¬s.slotReadable) :
    withCommand s f = .next { s.nextSlot with inbox := rest } := by
  have hw : s.commandWaits = false := Bool.eq_false_of_not_eq_true fun hw => hs (commandWaits_iff.mp hw).1
  unfold withCommand
  rw [h]
  simp only [hr, hm, hw, ringCommand_none hs, List.isEmpty_nil, Bool.not_true, Bool.or_self, Bool.false_eq_true, if_false]
section
variable (hr : s.ready = true) (hm : s.moving = []) (hs : s.slotReadable) (hw : ¬s.loadWaits)
include hr hm hs hw

theorem withCommand_read : withCommand s f = .next (
    let t := { s.nextSlot with inbox := rest }
    let r := if commandBad s.nextCommand then (0xFF, t) else f s.nextCommand t
    r.2.loaderStatus s.nextCommand (commandPart s.nextCommand) r.1) := by
  have hw : s.commandWaits = false := Bool.eq_false_of_not_eq_true fun h => hw (commandWaits_iff.mp h)
  unfold withCommand
  rw [h]
  simp only [hr, hm, hw, ringCommand_some hs, List.isEmpty_nil, Bool.not_true, Bool.or_self, Bool.false_eq_true, if_false]
theorem withCommand_bad (hb : commandBad s.nextCommand = true) :
    withCommand s f = .next (State.loaderStatus { s.nextSlot with inbox := rest } s.nextCommand (commandPart s.nextCommand) 0xFF) := by
  rw [withCommand_read h f hr hm hs hw]
  simp only [hb, if_true]
/-- A well-formed command is performed, and answered. -/
theorem withCommand_good (hb : commandBad s.nextCommand = false) {code : Nat} {v : State}
    (hf : f s.nextCommand { s.nextSlot with inbox := rest } = (code, v)) :
    withCommand s f = .next (v.loaderStatus s.nextCommand (commandPart s.nextCommand) code) := by
  rw [withCommand_read h f hr hm hs hw]
  simp only [hb, Bool.false_eq_true, if_false, hf]
end
end

end Sys2Proof.Machine
end
section
/-! PROOFS. What a load and a publication do once their words are in place: measurements, X, the fence and the discards (R301, R342, R344, R349). -/
namespace Sys2Proof.Machine
open Sys2Proof.Claims

/-! ## Entries made executable (R342) -/

/-- An entry's permission byte with X set and W cleared. -/
def xByte (b : Byte) : Byte := (b ||| 0x08) &&& ~~~0x04
theorem xByte_xByte (b : Byte) : xByte (xByte b) = xByte b := by revert b; decide
theorem xByte_ne_zero (b : Byte) : xByte b ≠ 0 := by revert b; decide

/-- A byte that is not zero is read back from any memory, canonical or not. -/
theorem Mem.read_write_ne_zero {b : Byte} (hb : b ≠ 0) (a x : Nat) (m : Mem) : (m.write a b).read x = if x = a then b else m.read x := by
  induction m with
  | nil =>
    simp only [Mem.write, if_neg hb, Mem.read]
    split_ifs <;> rfl
  | cons c m ih =>
    obtain ⟨a', b'⟩ := c
    rw [Mem.write]
    grind [Mem.read]
theorem Mem.read_writeN_one {b : Byte} (hb : b ≠ 0) (a x : Nat) (m : Mem) : (m.writeN a [b]).read x = if x = a then b else m.read x :=
  m.read_write_ne_zero hb a x

theorem onlyX_refl (s : State) : onlyX s s := fun _ => .inl rfl
theorem onlyX_of_mem {s t : State} (h : t.mem = s.mem) : onlyX s t := fun _ => .inl (by rw [h])
theorem onlyX_trans {s t u : State} (h : onlyX s t) (k : onlyX t u) : onlyX s u := by
  intro a
  obtain hk | hk := k a
  · rw [hk]; exact h a
  · obtain hh | hh := h a
    · exact .inr (by rw [hk, hh])
    · refine .inr ?_
      rw [hk, hh]
      exact xByte_xByte _
theorem onlyX_setX (s : State) (e : MapEntry) : onlyX s (s.setX e) := by
  intro x
  have h : (s.setX e).mem.read x = if x = e.flags then xByte (s.mem.read e.flags) else s.mem.read x := by
    rw [State.setX, State.writeDa_mem]
    exact Mem.read_writeN_one (xByte_ne_zero _) _ _ _
  rw [h]
  split
  · next hx => exact .inr (by rw [hx]; rfl)
  · exact .inl rfl

/-! ## Writes -/

/-- From `s` to `t` bytes of memory have been written: partitions, dies and the layout are as they were. -/
structure State.Writes (s t : State) : Prop where
  parts : t.parts = s.parts
  dies : t.dies = s.dies
  layout : t.layout = s.layout

theorem State.Writes.refl (s : State) : s.Writes s := ⟨rfl, rfl, rfl⟩
theorem State.Writes.trans {s t u : State} (h : s.Writes t) (k : t.Writes u) : s.Writes u :=
  ⟨k.parts.trans h.parts, k.dies.trans h.dies, k.layout.trans h.layout⟩
theorem State.Writes.writeDa (s : State) (a : Nat) (bs : List Byte) : s.Writes (s.writeDa a bs) where
  parts := s.writeDa_parts a bs
  dies := s.writeDa_dies a bs
  layout := by
    unfold State.writeDa State.rewrite
    split <;> rfl
theorem State.Writes.writeEach (bs : List Byte) (das : List Nat) (s : State) : s.Writes (s.writeEach das bs) := by
  induction das generalizing s with
  | nil => exact .refl s
  | cons da das ih => exact (State.Writes.writeDa s da bs).trans (ih _)
/-- A write of the loader that meets no fault. -/
theorem State.Writes.loaderPages {p : PartId} {c : Ctx} {va : Nat} {bs : List Byte} (as : List Nat) {s t : State}
    (h : s.loaderPages p c va bs as = (true, t)) : s.Writes t := by
  induction as generalizing s with
  | nil => cases h; exact .refl _
  | cons a as ih =>
    cases hva : s.loaderVa p c a with
    | ok das =>
      rw [State.loaderPages_cons hva] at h
      exact (State.Writes.writeEach _ das s).trans (ih h)
    | fault e fa =>
      rw [State.loaderPages, hva] at h
      cases h
theorem State.Writes.loaderWrite {s t : State} {p : PartId} {c : Ctx} {va : Nat} {bs : List Byte} (h : s.loaderWrite p c va bs = (true, t)) : s.Writes t :=
  .loaderPages _ h
theorem State.Writes.copyCarder {p : PartId} {c : Ctx} {area : Nat} (es : List (Nat × Nat × List Byte)) {s t : State}
    (h : s.copyCarder p c area es = (true, t)) : s.Writes t := by
  induction es generalizing s with
  | nil => cases h; exact .refl _
  | cons e es ih =>
    rw [State.copyCarder] at h
    split at h
    · next v hv => exact (State.Writes.loaderWrite hv).trans (ih h)
    · cases h
theorem State.Writes.fillArea {s t : State} {p : PartId} {c : Ctx} {src : Nat} {b : Bodies} {a : Option TransArea}
    (h : s.fillArea p c src b a = (true, t)) : s.Writes t := by
  unfold State.fillArea at h
  split at h
  · exact .copyCarder _ h
  · cases h; exact .refl _

/-! ## What commits a load -/

/-- From `s` to `t` partition `p` has measured `n` times. While no queue of the context is resident, none is then either, and memory differs by X and W of
entries at most. -/
structure State.Commits (p : PartId) (c : Ctx) (n : Nat) (s t : State) : Prop where
  count : (t.part p).attCount = (s.part p).attCount + BitVec.ofNat 32 n
  entries : noQueues s p c → noQueues t p c ∧ onlyX s t

section
variable {p : PartId} {c : Ctx}

theorem noQueues_of_queues {s t : State} (h : ∀ d, (t.die d).queues = (s.die d).queues) (hn : noQueues s p c) : noQueues t p c :=
  fun d q hq => hn d q (h d ▸ hq)
theorem noQueues_of_dies {s t : State} (h : t.dies = s.dies) (hn : noQueues s p c) : noQueues t p c :=
  noQueues_of_queues (fun d => by rw [State.die, h]; rfl) hn

theorem State.Commits.refl (s : State) : State.Commits p c 0 s s := ⟨(BitVec.add_zero _).symm, fun h => ⟨h, onlyX_refl s⟩⟩
theorem State.Commits.trans {s t u : State} {m n : Nat} (h : State.Commits p c m s t) (k : State.Commits p c n t u) : State.Commits p c (m + n) s u where
  count := by rw [k.count, h.count, BitVec.add_assoc, BitVec.ofNat_add]
  entries hs := by
    obtain ⟨ht, hst⟩ := h.entries hs
    obtain ⟨hu, htu⟩ := k.entries ht
    exact ⟨hu, onlyX_trans hst htu⟩
/-- Steps that measure nothing, one after the other. -/
theorem State.Commits.foldl {α : Type} {f : State → α → State} (hf : ∀ (s : State) a, State.Commits p c 0 s (f s a)) (l : List α) (s : State) :
    State.Commits p c 0 s (l.foldl f s) := by
  induction l generalizing s with
  | nil => exact .refl s
  | cons a l ih => exact (hf s a).trans (ih _)

theorem State.Writes.commits {s t : State} (h : s.Writes t) (hx : onlyX s t) : State.Commits p c 0 s t where
  count := by rw [State.part, h.parts]; exact (BitVec.add_zero _).symm
  entries hn := ⟨noQueues_of_dies h.dies hn, hx⟩
/-- A change of one die that keeps its queues. -/
theorem State.Commits.modDie (s : State) (d : DieId) {f : Die → Die} (hf : (f (s.die d)).queues = (s.die d).queues) :
    State.Commits p c 0 s (s.modDie d f) where
  count := (BitVec.add_zero _).symm
  entries hn := by
    refine ⟨noQueues_of_queues (fun e => ?_) hn, onlyX_of_mem rfl⟩
    by_cases h : d = e
    · subst h; rw [State.die_modDie]; exact hf
    · rw [State.die_modDie_ne _ _ _ _ h]

theorem State.Commits.makeExecutable (s : State) (va n : Nat) : State.Commits p c 0 s (s.makeExecutable p c va n) := by
  refine State.Commits.foldl (fun s t => State.Commits.foldl (fun s a => ?_) _ s) _ s
  split
  · next e _ => exact (State.Writes.writeDa s e.flags _).commits (onlyX_setX s e)
  · exact .refl s
theorem Die.foldl_discard_queues (das : List Nat) (D : Die) : (das.foldl (fun (D : Die) da => D.discard (da / 4096)) D).queues = D.queues := by
  induction das generalizing D with
  | nil => rfl
  | cons da das ih => exact ih _
theorem State.Commits.discardPages (s : State) (va n : Nat) : State.Commits p c 0 s (s.discardPages p c va n) :=
  .foldl (fun s d => .modDie s d (Die.foldl_discard_queues ..)) _ s
theorem State.Commits.modContext (s : State) (f : Bank → Bank) : State.Commits p c 0 s (s.modContext p c f) := by
  refine State.Commits.foldl (fun s d => State.Commits.modDie s d ?_) _ s
  split_ifs <;> rfl
theorem State.Commits.extendAtt (s : State) (m : List Byte) (k : Byte) (v : Nat) : State.Commits p c 1 s (s.extendAtt p m k v) where
  count := by rw [State.extendAtt, State.part_modPart]; rfl
  entries hn := ⟨hn, onlyX_of_mem rfl⟩

/-! ### The fence -/

theorem State.queueBack_part (s : State) (q : RQueue) (p : PartId) : (s.queueBack q).part p = s.part p := by
  refine congrArg (fun P : Vector Part 8 => P.get p) ?_
  show (State.writeDa (State.writeDa (State.writeAll s _ _) _ _) _ _).parts = s.parts
  rw [State.writeDa_parts, State.writeDa_parts, State.writeAll, State.rewrite_parts]
theorem State.foldl_queueBack_part (p : PartId) (l : List RQueue) (s : State) : (l.foldl State.queueBack s).part p = s.part p := by
  induction l generalizing s with
  | nil => rfl
  | cons q l ih => exact (ih _).trans (State.queueBack_part ..)
/-- A context with no resident queue writes none back. -/
theorem noQueues_filter {s : State} (h : noQueues s p c) : (allDies.flatMap fun d => (s.die d).queues.filter fun q => q.ctx == c && q.part == p) = [] := by
  rw [List.flatMap_eq_nil_iff]
  intro d _
  rw [List.filter_eq_nil_iff]
  intro q hq hboth
  simp only [Bool.and_eq_true, beq_iff_eq] at hboth
  exact h d q hq ⟨hboth.2, hboth.1⟩
theorem State.Commits.fenceContext (s : State) : State.Commits p c 0 s (s.fenceContext p c) := by
  have hdrop : State.Commits p c 0 s ((s.diesOf p).foldl (fun (s : State) d => s.modDie d fun D => { D with tlb := D.tlb.filter (·.ctx != c) }) s) :=
    .foldl (fun s d => .modDie s d rfl) _ s
  unfold State.fenceContext
  generalize (s.diesOf p).foldl _ s = t at hdrop ⊢
  refine ⟨?_, fun hn => ?_⟩
  · rw [State.foldl_queueBack_part]; exact hdrop.count
  · obtain ⟨ht, hx⟩ := hdrop.entries hn
    dsimp only
    rw [noQueues_filter ht]
    exact ⟨ht, hx⟩

/-! ### A load, and a publication -/

theorem State.Commits.measures (gs : List Segment) (s : State) :
    State.Commits p c gs.length s (gs.foldl (fun (s : State) g => s.extendAtt p g.meas (BitVec.ofNat 8 g.kind) g.va) s) := by
  induction gs generalizing s with
  | nil => exact .refl s
  | cons g gs ih =>
    rw [List.length_cons, Nat.add_comm]
    exact (State.Commits.extendAtt s ..).trans (ih _)
theorem State.Commits.commitLoad (s : State) (gs : List Segment) : State.Commits p c gs.length s (s.commitLoad p c gs) := by
  have hexecutable (t : State) (g : Segment) : State.Commits p c 0 t (t.makeExecutable p c g.va g.len) := .makeExecutable t ..
  have hdiscard (t : State) (g : Segment) : State.Commits p c 0 t (t.discardPages p c g.va g.len) := .discardPages t ..
  exact (((State.Commits.measures gs s).trans (.foldl hexecutable _ _)).trans (.fenceContext _)).trans (.foldl hdiscard _ _)
theorem State.Commits.addArea (s : State) (a : Option TransArea) : State.Commits p c 0 s (s.addArea p c a) := by
  cases a with
  | none => exact .refl s
  | some a =>
    have hexecutable (t : State) (va : Nat) : State.Commits p c 0 t (t.makeExecutable p c va 4) := .makeExecutable t ..
    have hdiscard (t : State) (va : Nat) : State.Commits p c 0 t (t.discardPages p c va 4) := .discardPages t ..
    unfold State.addArea
    exact ((State.Commits.foldl hexecutable a.words s).trans (.foldl hdiscard a.words _)).trans (.modContext _ _)
theorem State.Commits.addPortable (s : State) (g : Segment) : State.Commits p c 0 s (s.addPortable p c g) := .modContext s _
end

end Sys2Proof.Machine
end
section
/-! PROOFS. The loader's commands and publications (R42, R54, R310, R337 to R349): the last part of O60. -/
namespace Sys2Proof.Machine
open Sys2Proof.Claims

/-! ## LOAD -/

section
variable {p : PartId} {c : Ctx} {src : Nat}

/-- The segments' contents that the loader has written. -/
theorem placed_of_placeAll (gs : List Segment) {s x : State} (h : s.placeAll p c src gs = (true, x)) : placed s p c src gs x ∧ s.Writes x := by
  induction gs generalizing s with
  | nil => cases h; exact ⟨rfl, .refl _⟩
  | cons g gs ih =>
    rw [State.placeAll] at h
    split at h
    · next v hv =>
      obtain ⟨hp, hw⟩ := ih h
      exact ⟨⟨v, hv, hp⟩, (State.Writes.loaderWrite hv).trans hw⟩
    · cases h
end

/-- What a load that succeeds has done. -/
structure LoadDone (s : State) (p : PartId) (q : LoaderCmd) (gs : List Segment) (x y z : State) (mode : Nat) (v : State) : Prop where
  inPlace : Claims.placed s p (q.ctx.setWidth 12) q.src.toNat gs x
  picked : (bodiesOf gs).mode = some mode
  descriptor : x.loaderWrite p (q.ctx.setWidth 12) q.desc.toNat ((bodiesOf gs).descriptor mode) = (true, y)
  area : y.fillArea p (q.ctx.setWidth 12) q.src.toNat (bodiesOf gs) (x.areaOf q q.src.toNat mode (bodiesOf gs)) = (true, z)
  writes : s.Writes z
  commits : State.Commits p (q.ctx.setWidth 12) gs.length z v

theorem loadSegments_loads {s v : State} {p : PartId} {q : LoaderCmd} {gs : List Segment} (h : s.loadSegments p q gs = (0, v)) :
    ∃ x y z mode, LoadDone s p q gs x y z mode v := by
  unfold State.loadSegments at h
  extract_lets c src b at h
  split at h
  · cases h
  · next x hx =>
    obtain ⟨hplaced, hwx⟩ := placed_of_placeAll gs hx
    split at h
    · cases h
    · next mode hmode =>
      extract_lets a at h
      split_ifs at h
      · cases h
      · split at h
        · cases h
        · next y hy =>
          split at h
          · cases h
          · next z hz =>
            split_ifs at h
            · cases h
            · have hcommit : State.Commits p c gs.length z ((z.addArea p c a).commitLoad p c gs) := by
                simpa using (State.Commits.addArea (p := p) (c := c) z a).trans (.commitLoad _ gs)
              have hv := (Prod.mk.inj h).2
              refine ⟨x, y, z, mode, hplaced, hmode, hy, hz, (hwx.trans (.loaderWrite hy)).trans (.fillArea hz), ?_⟩
              rw [← hv]
              split
              · simpa using hcommit.trans (State.Commits.addPortable _ _)
              · exact hcommit

section
variable {s : State} {p : PartId} {q : LoaderCmd}

theorem loadContainer_bad (h : s.container q.src.toNat q.len.toNat = .bad) : s.loadContainer p q = (1, s) := by
  rw [State.loadContainer, h]
theorem loadContainer_lost {l : Nat} (h : s.container q.src.toNat q.len.toNat = .lost l) : s.loadContainer p q = (5, s.loaderEcc p (64 * l)) := by
  rw [State.loadContainer, h]
variable {gs : List Segment} (h : s.container q.src.toNat q.len.toNat = .sound gs)
include h
theorem loadContainer_fails {code : Nat} (hf : gs.findSome? (s.segmentFails p q.src.toNat) = some code) : s.loadContainer p q = (code, s) := by
  simp only [State.loadContainer, h, hf]
theorem loadContainer_loads {v : State} (hf : gs.findSome? (s.segmentFails p q.src.toNat) = none) (hv : s.loadContainer p q = (0, v)) :
    ∃ x y z mode, LoadDone s p q gs x y z mode v := by
  simp only [State.loadContainer, h, hf] at hv
  split_ifs at hv
  · cases hv
  · exact loadSegments_loads hv
end

/-! ## ICINV -/

theorem Die.mem_dropBlocks {D : Die} {src len : Nat} {e : ILine} : e ∈ (D.dropBlocks src len).icache ↔
    e ∈ D.icache ∧ e.agent = none ∧ ¬(src / 4096 ≤ e.line / 32 ∧ e.line / 32 * 4096 < src + len) := by
  rw [Die.dropBlocks, List.mem_filter, Bool.and_eq_true, Bool.not_eq_true', decide_eq_false_iff_not, Option.isNone_iff_eq_none]
theorem State.mem_dropBlocks {src len : Nat} {d : DieId} {e : ILine} (l : List DieId) (s : State) :
    e ∈ ((l.foldl (fun (s : State) d => s.modDie d (·.dropBlocks src len)) s).die d).icache ↔
      e ∈ (s.die d).icache ∧ (d ∈ l → e.agent = none ∧ ¬(src / 4096 ≤ e.line / 32 ∧ e.line / 32 * 4096 < src + len)) := by
  induction l generalizing s with
  | nil => simp
  | cons a l ih =>
    rw [List.foldl_cons, ih]
    by_cases h : a = d
    · subst h
      rw [State.die_modDie, Die.mem_dropBlocks, List.mem_cons]
      tauto
    · rw [State.die_modDie_ne _ _ _ _ h, List.mem_cons, or_iff_right (Ne.symm h)]

/-! ## Publications (R349) -/

section
variable {s : State} {rest : List Input} {x : Publication} (h : headed s (.publish x) rest)
include h

theorem translationPublish_low (hr : s.ready = false) : exec .translationPublish s = .next { s with inbox := rest } := by
  show execTranslationPublish s = _
  unfold execTranslationPublish
  rw [h]
  simp only [hr, Bool.not_false, if_true]
theorem translationPublish_waits (hr : s.ready = true) (hw : s.moving ≠ [] ∨ s.quiet x.part x.ctx = false) : idle s .translationPublish := by
  have hw' : (!s.moving.isEmpty || !s.quiet x.part x.ctx) = true := by
    rw [Bool.or_eq_true, Bool.not_eq_true', Bool.not_eq_true', List.isEmpty_eq_false_iff]
    exact hw
  show execTranslationPublish s = _
  unfold execTranslationPublish
  rw [h]
  simp only [hr, hw', Bool.not_true, Bool.false_eq_true, if_false, if_true]
theorem translationPublish_eq (hr : s.ready = true) (hm : s.moving = []) (hq : s.quiet x.part x.ctx = true) :
    exec .translationPublish s = .next (State.publish { s with inbox := rest } x) := by
  show execTranslationPublish s = _
  unfold execTranslationPublish
  rw [h]
  simp only [hr, hm, hq, List.isEmpty_nil, Bool.not_true, Bool.or_self, Bool.false_eq_true, if_false]
end

/-- The bytes of a publication. -/
def publicationBytes (x : Publication) : List Byte := x.words.flatMap fun w => bytesOf 4 w.toNat
/-- A pair of the safe-point map lies in the body and in its area. -/
theorem TransArea.pairs_iff {A : TransArea} {e : DWord × DWord} : A.pairs e = true ↔
    (A.base.toNat ≤ e.1.toNat ∧ e.1.toNat < A.base.toNat + A.size) ∧ A.area.toNat ≤ e.2.toNat ∧ e.2.toNat < A.area.toNat + A.bytes := by
  rw [TransArea.pairs, decide_eq_true_iff, and_assoc]

section
variable {s : State} {x : Publication}

theorem publish_nowhere (h : s.areaAt x.part x.ctx x.addr.toNat (publicationBytes x).length = none) : s.publish x = s := by
  unfold State.publish
  rw [← publicationBytes]
  simp only [h]
variable {A : TransArea} (h : s.areaAt x.part x.ctx x.addr.toNat (publicationBytes x).length = some A)
include h
theorem publish_outside (hp : x.pairs.all A.pairs = false) : s.publish x = s := by
  unfold State.publish
  rw [← publicationBytes]
  simp only [h, hp, Bool.not_false, if_true]
/-- A publication whose words are in place is measured and made executable. -/
theorem publish_commits (hp : x.pairs.all A.pairs = true) {v : State} (hv : s.loaderWrite x.part x.ctx x.addr.toNat (publicationBytes x) = (true, v)) :
    State.Commits x.part x.ctx 1 v (s.publish x) := by
  unfold State.publish
  rw [← publicationBytes]
  simp only [h, hp, hv, Bool.not_true, Bool.false_eq_true, if_false]
  exact ((((State.Commits.discardPages v _ _).trans (.extendAtt _ _ _ _)).trans (.makeExecutable _ _ _)).trans (.fenceContext _)).trans (.modContext _ _)
end

/-! ## The clauses -/

/-- Nothing that the loader reads of a container changes as the command is taken. -/
theorem State.container_taken (s : State) (rest : List Input) (src len : Nat) :
    State.container { s.nextSlot with inbox := rest } src len = s.container src len := rfl
theorem State.segmentFails_taken (s : State) (rest : List Input) (p : PartId) (src : Nat) :
    State.segmentFails { s.nextSlot with inbox := rest } p src = s.segmentFails p src := rfl

section
variable {s : State} {rest : List Input} (h : headed s .loader rest) (hr : s.ready = true) (hm : s.moving = []) (hs : s.slotReadable) (hw : ¬s.loadWaits)
  (hb : commandBad s.nextCommand = false)
include h hr hm hs hw hb

theorem loaderLoad_answers {code : Nat} {v : State}
    (hv : State.loadContainer { s.nextSlot with inbox := rest } (commandPart s.nextCommand) s.nextCommand = (code, v)) :
    exec .loaderLoad s = .next (v.loaderStatus s.nextCommand (commandPart s.nextCommand) code) := by
  rw [exec_eq_withCommand (.inl rfl)]
  exact withCommand_good h _ hr hm hs hw hb hv
theorem loaderLoad_bad (hc : s.container s.nextCommand.src.toNat s.nextCommand.len.toNat = .bad) :
    exec .loaderLoad s = .next (State.loaderStatus { s.nextSlot with inbox := rest } s.nextCommand (commandPart s.nextCommand) 1) :=
  loaderLoad_answers h hr hm hs hw hb (loadContainer_bad ((State.container_taken s rest _ _).trans hc))
theorem loaderLoad_lost {line : Nat} (hc : s.container s.nextCommand.src.toNat s.nextCommand.len.toNat = .lost line)
    (hp : ∃ d, s.partOf d = commandPart s.nextCommand) : yields s .loaderLoad fun t =>
      (t.part (commandPart s.nextCommand)).halt = true ∧ (t.part (commandPart s.nextCommand)).tpend.getLsbD 1 = true := by
  refine ⟨_, loaderLoad_answers h hr hm hs hw hb (loadContainer_lost ((State.container_taken s rest _ _).trans hc)), ?_⟩
  obtain ⟨hhalt, hpend⟩ := State.loaderEcc_pends (s := { s.nextSlot with inbox := rest }) hp (64 * line)
  have hreport := State.Reports.loaderStatus (State.loaderEcc { s.nextSlot with inbox := rest } (commandPart s.nextCommand) (64 * line)) s.nextCommand
    (commandPart s.nextCommand) 5
  exact ⟨hreport.halt _ hhalt, hreport.tpend _ _ hpend⟩
section
variable {gs : List Segment} (hc : s.container s.nextCommand.src.toNat s.nextCommand.len.toNat = .sound gs)
include hc
theorem loaderLoad_fails {code : Nat} (hf : gs.findSome? (s.segmentFails (commandPart s.nextCommand) s.nextCommand.src.toNat) = some code) :
    exec .loaderLoad s = .next (State.loaderStatus { s.nextSlot with inbox := rest } s.nextCommand (commandPart s.nextCommand) code) :=
  loaderLoad_answers h hr hm hs hw hb (loadContainer_fails ((State.container_taken s rest _ _).trans hc)
    ((congrArg gs.findSome? (State.segmentFails_taken s rest _ _)).trans hf))
theorem loaderLoad_loads {v : State} (hf : gs.findSome? (s.segmentFails (commandPart s.nextCommand) s.nextCommand.src.toNat) = none)
    (hv : State.loadContainer { s.nextSlot with inbox := rest } (commandPart s.nextCommand) s.nextCommand = (0, v)) :
    (yields s .loaderLoad fun t => t = v.loaderStatus s.nextCommand (commandPart s.nextCommand) 0 ∧ (t.part (commandPart s.nextCommand)).attCount =
      (s.part (commandPart s.nextCommand)).attCount + BitVec.ofNat 32 gs.length) ∧
    ∃ x y z mode, LoadDone { s.nextSlot with inbox := rest } (commandPart s.nextCommand) s.nextCommand gs x y z mode v := by
  obtain ⟨x, y, z, mode, hdone⟩ := loadContainer_loads ((State.container_taken s rest _ _).trans hc)
    ((congrArg gs.findSome? (State.segmentFails_taken s rest _ _)).trans hf) hv
  refine ⟨⟨_, loaderLoad_answers h hr hm hs hw hb hv, rfl, ?_⟩, x, y, z, mode, hdone⟩
  rw [(State.Reports.loaderStatus v ..).count, hdone.commits.count, State.part, hdone.writes.parts]
  rfl
end
theorem loaderIcinv_answers : yields s .loaderIcinv fun t => ∀ d e, e ∈ (t.die d).icache ↔ e ∈ (s.die d).icache ∧
    (s.nextCommand.dies.getLsbD d.val = true → e.agent = none ∧ ¬(s.nextCommand.src.toNat / 4096 ≤ e.line / 32 ∧
      e.line / 32 * 4096 < s.nextCommand.src.toNat + s.nextCommand.len.toNat)) := by
  refine ⟨_, (exec_eq_withCommand (.inr (.inl rfl)) s).trans (withCommand_good h _ hr hm hs hw hb rfl), fun d e => ?_⟩
  rw [(State.Reports.loaderStatus _ _ _ _).icache, State.mem_dropBlocks, List.mem_filter, and_iff_right (mem_allDies d)]
  exact Iff.rfl
theorem loaderReadatt_writes (ha : s.poolOk s.nextCommand.src.toNat = true) (he : s.poolOk (s.nextCommand.src.toNat + 79) = true) :
    exec .loaderReadatt s = .next ((State.writeDa { s.nextSlot with inbox := rest } s.nextCommand.src.toNat
      (s.attRecord (commandPart s.nextCommand))).loaderStatus s.nextCommand (commandPart s.nextCommand) 0) :=
  (exec_eq_withCommand (.inr (.inr (.inl rfl))) s).trans (withCommand_good h _ hr hm hs hw hb (if_pos (Bool.and_eq_true_iff.mpr ⟨ha, he⟩)))
theorem loaderReadatt_outside (ha : s.poolOk s.nextCommand.src.toNat = false ∨ s.poolOk (s.nextCommand.src.toNat + 79) = false) :
    exec .loaderReadatt s = .next (State.loaderStatus { s.nextSlot with inbox := rest } s.nextCommand (commandPart s.nextCommand) 5) := by
  have hout : ¬(s.poolOk s.nextCommand.src.toNat && s.poolOk (s.nextCommand.src.toNat + 79)) = true := by
    rwa [Bool.and_eq_true, not_and_or, Bool.not_eq_true, Bool.not_eq_true]
  exact (exec_eq_withCommand (.inr (.inr (.inl rfl))) s).trans (withCommand_good h _ hr hm hs hw hb (if_neg hout))
end

/-- R42, R54, R310, R341 to R349: the loader's commands and the publications. -/
theorem loaderCommands : Claims.LoaderCommands := by
  intro s rest u
  refine ⟨fun p c va bs y hw hst h => standAt_of_loaderWrite hw hst h, ?_, fun q p code h hp => loaderStatus_prot (s := u) code h hp,
    fun q p code hw ha hpool hok => loaderStatus_written (s := u) p code hw ha hpool hok, ?_⟩
  · intro i h hi a q p u answers there waits
    refine ⟨fun hr => ?_, fun hr hw => ?_, fun hr hm hs => ?_, fun hr hm hs hw => ⟨fun hbad => ?_, ?_, ?_, ?_, ?_⟩⟩
    · rw [exec_eq_withCommand hi, withCommand_low h _ hr]
    · rw [idle, exec_eq_withCommand hi]
      exact withCommand_waits h _ hr hw
    · rw [exec_eq_withCommand hi]
      exact withCommand_unread h _ hr hm hs
    · show exec i s = _
      rw [exec_eq_withCommand hi]
      by_cases hb : commandBad s.nextCommand = true
      · exact withCommand_bad h _ hr hm hs hw hb
      · obtain rfl : i = .loaderInvalidCommand := hbad.resolve_left hb
        exact withCommand_good h _ hr hm hs hw (Bool.eq_false_of_not_eq_true hb) rfl
    · rintro hb rfl
      refine ⟨loaderLoad_bad h hr hm hs hw hb, fun line => loaderLoad_lost h hr hm hs hw hb, fun gs hc =>
        ⟨fun code => loaderLoad_fails h hr hm hs hw hb hc, fun v hf hv => ?_⟩⟩
      obtain ⟨hyields, x, y, z, mode, hdone⟩ := loaderLoad_loads h hr hm hs hw hb hc hf hv
      exact ⟨hyields, x, y, z, mode, hdone.inPlace, hdone.picked, hdone.descriptor, hdone.area, fun hn =>
        (hdone.commits.entries (noQueues_of_dies hdone.writes.dies hn)).2⟩
    · rintro hb rfl
      exact loaderIcinv_answers h hr hm hs hw hb
    · rintro hb rfl ha he
      exact loaderReadatt_writes h hr hm hs hw hb ha he
    · rintro hb rfl ha
      exact loaderReadatt_outside h hr hm hs hw hb ha
  · intro x h bytes
    refine ⟨translationPublish_low h, translationPublish_waits h, fun hr hm hq => ⟨fun hA => ?_, fun A v hA => ?_⟩⟩
    · rw [translationPublish_eq h hr hm hq, publish_nowhere (s := u) hA]
    · intro inside
      have hall : x.pairs.all A.pairs = true ↔ inside := by
        rw [List.all_eq_true]
        exact forall₂_congr fun e _ => TransArea.pairs_iff
      refine ⟨fun hout => ?_, fun hin hv => ⟨_, translationPublish_eq h hr hm hq, ?_⟩⟩
      · rw [translationPublish_eq h hr hm hq, publish_outside (s := u) hA (Bool.eq_false_of_not_eq_true fun h => hout (hall.mp h))]
      · obtain ⟨hcount, hentries⟩ := publish_commits (s := u) hA (hall.mpr hin) hv
        have hwrites := State.Writes.loaderWrite hv
        refine ⟨hcount.trans (congrArg (fun P : Vector Part 8 => (P.get x.part).attCount + 1) hwrites.parts), fun hn =>
          (hentries (noQueues_of_dies hwrites.dies hn)).2, fun hw hst => standAt_of_loaderWrite hw hst hv⟩

/-- Settles O60: the events of the management block and of the loader. -/
theorem managementEvents : Obligations.ManagementEvents :=
  ⟨moduleBringsUp, managementBlockActs, memoryErrorsHalt, errorsLastUntilRewritten, loaderCommands⟩

end Sys2Proof.Machine
end
section
/-! PROOFS. Decoding gives back what encoding took (R17, R18, R28): O36, and with it the words that the spec prints: O35. -/
namespace Sys2Proof

/-! ## The format of a major opcode (R28) -/

/-- The major opcodes of the formats F-R, F-I, F-K and F-M. -/
def opsFR : List Nat := [0x00, 0x01, 0x02, 0x03, 0x04, 0x05, 0x06, 0x07, 0x08, 0x0A, 0x20, 0x21, 0x22, 0x23, 0x24, 0x25, 0x26, 0x27, 0x28, 0x30, 0x31,
  0x32, 0x33, 0x34, 0x35, 0x3B, 0x54, 0x55, 0x56, 0x65, 0x68, 0x69, 0x6A]
def opsFI : List Nat := [0x10, 0x11, 0x12, 0x13, 0x14, 0x15, 0x3D, 0x3E]
def opsFK : List Nat := [0x09, 0x18, 0x19, 0x1A, 0x1B, 0x1C, 0x1D, 0x36, 0x3C, 0x48, 0x49, 0x50, 0x58, 0x5C, 0x66, 0x6C, 0x70]
def opsFM : List Nat := [0x40, 0x41, 0x42, 0x43, 0x44, 0x45, 0x62, 0x63, 0x64]
def opsFB : List Nat := [0x38, 0x39, 0x3A]
def opsFT : List Nat := [0x60, 0x61]
def opsFS : List Nat := [0x78]
def opsFH : List Nat := [0x7F]

/-! A word of a format is decoded by that format's rows, from the fields it was made of. -/

theorem decodeRow_FR (f : FR) (h : opsFR.contains f.op.toNat = true) : decodeRow f.word = decodeR f := by
  unfold decodeRow
  rw [FR.opcode_word, FR.of_word]
  have hm := List.contains_iff_mem.mp h
  generalize f.op.toNat = n at hm
  fin_cases hm <;> rfl
theorem decodeRow_FI (f : FI) (h : opsFI.contains f.op.toNat = true) : decodeRow f.word = decodeI f := by
  unfold decodeRow
  rw [FI.opcode_word, FI.of_word]
  have hm := List.contains_iff_mem.mp h
  generalize f.op.toNat = n at hm
  fin_cases hm <;> rfl
theorem decodeRow_FK (f : FK) (h : opsFK.contains f.op.toNat = true) : decodeRow f.word = decodeK f := by
  unfold decodeRow
  rw [FK.opcode_word, FK.of_word]
  have hm := List.contains_iff_mem.mp h
  generalize f.op.toNat = n at hm
  fin_cases hm <;> rfl
theorem decodeRow_FM (f : FM) (h : opsFM.contains f.op.toNat = true) : decodeRow f.word = decodeM f := by
  unfold decodeRow
  rw [FM.opcode_word, FM.of_word]
  have hm := List.contains_iff_mem.mp h
  generalize f.op.toNat = n at hm
  fin_cases hm <;> rfl
theorem decodeRow_FB (f : FB) (h : opsFB.contains f.op.toNat = true) : decodeRow f.word = decodeB f := by
  unfold decodeRow
  rw [FB.opcode_word, FB.of_word]
  have hm := List.contains_iff_mem.mp h
  generalize f.op.toNat = n at hm
  fin_cases hm <;> rfl
theorem decodeRow_FT (f : FT) (h : opsFT.contains f.op.toNat = true) : decodeRow f.word = decodeT f := by
  unfold decodeRow
  rw [FT.opcode_word, FT.of_word]
  have hm := List.contains_iff_mem.mp h
  generalize f.op.toNat = n at hm
  fin_cases hm <;> rfl
theorem decodeRow_FS (f : FS) (h : opsFS.contains f.op.toNat = true) : decodeRow f.word = decodeS f := by
  unfold decodeRow
  rw [FS.opcode_word, FS.of_word]
  have hm := List.contains_iff_mem.mp h
  generalize f.op.toNat = n at hm
  fin_cases hm
  rfl
theorem decodeRow_FH (f : FH) (h : opsFH.contains f.op.toNat = true) : decodeRow f.word = decodeH f := by
  unfold decodeRow
  rw [FH.opcode_word, FH.of_word]
  have hm := List.contains_iff_mem.mp h
  generalize f.op.toNat = n at hm
  fin_cases hm
  rfl

/-! ## Narrow operands in wider fields -/

/-- The bits of a field above a narrower operand are zero. -/
theorem extractLsb'_setWidth_above {n v lo len : Nat} (x : BitVec n) (h : n ≤ lo) : (x.setWidth v).extractLsb' lo len = 0#len := by
  ext i hi
  simp only [BitVec.getElem_extractLsb', BitVec.getLsbD_setWidth, BitVec.getLsbD_of_ge x (lo + i) (by omega), Bool.and_false, BitVec.getElem_zero]

/-! The fields of two operands of three bits in a field of six (R28). -/
theorem low_pair (x y : BitVec 3) : (x ++ y : BitVec 6).extractLsb' 0 3 = y := BitVec.extractLsb'_append_eq_right
theorem high_pair (x y : BitVec 3) : (x ++ y : BitVec 6).extractLsb' 3 3 = x := BitVec.extractLsb'_append_eq_left
theorem setWidth_pair (x y : BitVec 3) : (x ++ y : BitVec 6).setWidth 3 = y := BitVec.setWidth_append_eq_right
theorem highBits_pair (x y : BitVec 3) : (x ++ y : BitVec 6).extractLsb' 4 2 = x.extractLsb' 1 2 := BitVec.extractLsb'_append_eq_of_le (by decide)
theorem highBit_pair (x y : BitVec 3) : (x ++ y : BitVec 6).extractLsb' 3 1 = x.extractLsb' 0 1 := BitVec.extractLsb'_append_eq_of_le (by decide)

/-! A mark above an operand (R28), and class and number of an engine (R32). -/
theorem setWidth_marked5 (x : BitVec 1) (y : BitVec 5) : (x ++ y : BitVec 6).setWidth 5 = y := BitVec.setWidth_append_eq_right
theorem mark_marked5 (x : BitVec 1) (y : BitVec 5) : (x ++ y : BitVec 6).extractLsb' 5 1 = x := BitVec.extractLsb'_append_eq_left
theorem setWidth_marked3 (x : BitVec 1) (y : BitVec 3) : (x ++ y : BitVec 4).setWidth 3 = y := BitVec.setWidth_append_eq_right
theorem mark_marked3 (x : BitVec 1) (y : BitVec 3) : (x ++ y : BitVec 4).extractLsb' 3 1 = x := BitVec.extractLsb'_append_eq_left
theorem setWidth_engine (x : BitVec 4) (y : BitVec 8) : (x ++ y : BitVec 12).setWidth 8 = y := BitVec.setWidth_append_eq_right
theorem class_engine (x : BitVec 4) (y : BitVec 8) : (x ++ y : BitVec 12).extractLsb' 8 4 = x := BitVec.extractLsb'_append_eq_left
/-- A 17-bit immediate, from the three fields that hold it (R28). -/
theorem append_fields (x : BitVec 17) : (x.extractLsb' 11 6 ++ x.extractLsb' 3 8 ++ x.extractLsb' 0 3 : BitVec 17) = x := by
  have h : (x.extractLsb' 11 6 ++ x.extractLsb' 3 8 : BitVec 14) = x.extractLsb' 3 14 := BitVec.extractLsb'_append_extractLsb'_eq_extractLsb' rfl
  rw [h]
  exact (BitVec.extractLsb'_append_extractLsb'_eq_extractLsb' rfl).trans BitVec.extractLsb'_eq_self

/-! ## HINT.FMTX (R26) -/

/-- The payload of a HINT.FMTX. -/
def fmtxPayload (seed : BitVec 16) (sr sat : BitVec 1) (r : BitVec 3) : BitVec 22 := seed ++ 0#1 ++ sr ++ sat ++ r
section
variable (seed : BitVec 16) (sr sat : BitVec 1) (r : BitVec 3)
theorem fmtxPayload_reserved : (fmtxPayload seed sr sat r).extractLsb' 5 1 = 0#1 := by
  unfold fmtxPayload
  rw [BitVec.extractLsb'_append_eq_of_le (by decide), BitVec.extractLsb'_append_eq_of_le (by decide), BitVec.extractLsb'_append_eq_of_le (by decide)]
  exact BitVec.extractLsb'_append_eq_right
theorem fmtxPayload_sr : (fmtxPayload seed sr sat r).extractLsb' 4 1 = sr := by
  unfold fmtxPayload
  rw [BitVec.extractLsb'_append_eq_of_le (by decide), BitVec.extractLsb'_append_eq_of_le (by decide)]
  exact BitVec.extractLsb'_append_eq_right
theorem fmtxPayload_sat : (fmtxPayload seed sr sat r).extractLsb' 3 1 = sat := by
  unfold fmtxPayload
  rw [BitVec.extractLsb'_append_eq_of_le (by decide)]
  exact BitVec.extractLsb'_append_eq_right
theorem fmtxPayload_seed : (fmtxPayload seed sr sat r).extractLsb' 6 16 = seed := by
  unfold fmtxPayload
  rw [BitVec.extractLsb'_append_eq_of_le (by decide), BitVec.extractLsb'_append_eq_of_le (by decide), BitVec.extractLsb'_append_eq_of_le (by decide)]
  exact BitVec.extractLsb'_append_eq_left
theorem fmtxPayload_round : (fmtxPayload seed sr sat r).setWidth 3 = r := BitVec.setWidth_append_eq_right
end
/-- A HINT.FMTX decodes where its seed is zero or used (R26). -/
theorem decodeH_fmtx (r : HintRound) (sat sr : Bool) (seed : BitVec 16) (h : (Instr.hintFmtx r sat sr seed).use.ok = true) :
    decodeH ⟨127, 3, fmtxPayload seed (.ofBool sr) (.ofBool sat) r.code⟩ = .ok (.hintFmtx r sat sr seed) := by
  have hs : (sr || seed == 0) = true := h
  have hs : sr = false → seed = 0 := by rintro rfl; simpa using hs
  have h1 : ∀ b : Bool, BitVec.ofBool b = 1#1 ↔ b = true := by decide
  simpa [decodeH, fmtxPayload_reserved, fmtxPayload_sr, fmtxPayload_sat, fmtxPayload_seed, fmtxPayload_round, HintRound.ofCode_code, h1] using hs

/-! ## Each row of the opcode map -/

/-- Every row of the map decodes to the instruction that its word encodes. -/
theorem decodeRow_encode {i : Instr} (he : i.encoded = true) (hok : i.use.ok = true) : decodeRow (encode i) = .ok i := by
  cases i with
  -- every field is an operand or fixed
  | iadd | isub | iaddSatI32 | isubSatI32 | iaddSatN32 | isubSatN32 | iabs | ineg | imul | imulhI32 | imulhN32 | imad | iminI32 | iminN32 | imaxI32 |
  imaxN32 | and | or | xor | andn | not | shl | shr | sar | rol | bfxI32 | bfxN32 | bfi | popc | clz | ctz | brev | sel | mov | idivI32 | idivN32 |
  iremI32 | iremN32 | fadd | fsub | fmul | ffma | fmin | fmax | fneg | fabs | frcp | frsq | fsqrt | fexp2 | flog2 | ftanh | fclass | cvtifI32 | cvtifN32
  | cvtfiI32 | cvtfiN32 | hadd2H16 | hmul2H16 | hfma2H16 | hadd2B16 | hmul2B16 | hfma2B16 | fdiv | form | formTag | expand | hcount | ret | brx | exit |
  yield | nop | caddr | cxfer | carrive | chalt | atomXchg | acas | acasX64 | acas128 | sld | sst | sldX64 | sstX64 | bkpack | bkunpk =>
    exact (decodeRow_FR _ rfl).trans rfl
  | movi | addi | andi | ori | xori => exact (decodeRow_FI _ rfl).trans rfl
  | movk | kadd | ksub | kmul | kand | kor | kxor | kshl | kshr | kmov | reform | join | regclaim | reggive | bretire | barrive | bexpect | wait | btest
  | ctest | rinit | rprodTake | rprodFill | rconsTake | rconsFree | unwant | nevict | ntwr | cclose | qpush | qpop | qlen | nemit | bind | ifence =>
    exact (decodeRow_FK _ rfl).trans rfl
  | bra | brc | call => exact (decodeRow_FB _ rfl).trans rfl
  | sysrd | syswr | trapret | icinv | sysrdX64 | syswrX64 => exact (decodeRow_FS _ rfl).trans rfl
  -- a field holds a modifier's code
  | cldx m | cstx m | csect m | cmrg m | shfl m | vote m | gshfl m => exact (decodeRow_FR _ rfl).trans (by cases m <;> rfl)
  | icmp c | fcmp c => exact (decodeRow_FR _ rfl).trans (by cases c <;> rfl)
  | atom o | ared o | lred o | lscanIncl o | lscanExcl o | lredF32 o | lscanInclF32 o | lscanExclF32 o =>
    exact (decodeRow_FR _ rfl).trans (by cases o <;> rfl)
  | ld w | st w | fill w | spill w | gld w => exact (decodeRow_FM _ rfl).trans (by cases w <;> rfl)
  | binit | waitCnt | phase | bar | acq | rel | tfence | dinv =>
    exact (decodeRow_FK _ rfl).trans (by simp [decodeK, extractLsb'_setWidth_above, Scope.ofCode_code, Counter.ofCode_code])
  | credCanon | credExact => exact (decodeRow_FK _ rfl).trans (by simp [decodeK, setWidth_pair, highBits_pair, highBit_pair, Scope.ofCode_code])
  | kcmp c => exact (decodeRow_FK _ rfl).trans (by cases c <;> rfl)
  | fcvt t s => exact (decodeRow_FR _ rfl).trans (by simp [decodeR, low_pair, high_pair, NumFmt.ofCode_code])
  -- a field holds a narrower operand
  | trowrd | trowwr | tscale | tzero => exact (decodeRow_FR _ rfl).trans (by simp [decodeR, fixed2, fixed3, extractLsb'_setWidth_above])
  | shli | trapi | brk => exact (decodeRow_FI _ rfl).trans (by simp [decodeI, extractLsb'_setWidth_above])
  | kld | kst | movts | tcopy | gath | scat | crun | want | offer | tdred =>
    exact (decodeRow_FK _ rfl).trans (by simp [decodeK, extractLsb'_setWidth_above])
  | brld | tdrain => exact (decodeRow_FM _ rfl).trans (by simp [decodeM, extractLsb'_setWidth_above])
  | haltp => exact (decodeRow_FS _ rfl).trans (by simp [decodeS, extractLsb'_setWidth_above])
  | hintImmhi | hintPred => exact (decodeRow_FH _ rfl).trans (by simp [decodeH, extractLsb'_setWidth_above])
  -- a field holds a flag, or several operands
  | rds d s hi => exact (decodeRow_FK _ rfl).trans (by cases hi <;> rfl)
  | tld tr | tst tr => exact (decodeRow_FM _ rfl).trans (by cases tr <;> simp [decodeM, extractLsb'_setWidth_above])
  | tcopyMc => exact (decodeRow_FK _ rfl).trans (by simp [decodeK, setWidth_marked5, mark_marked5])
  | kmovi k imm => exact (decodeRow_FK _ rfl).trans (congrArg (fun v => Dec.ok (.kmovi k v)) (append_fields imm))
  | tdrainFmt => exact (decodeRow_FM _ rfl).trans (by simp [decodeM, extractLsb'_setWidth_above, setWidth_marked3, mark_marked3])
  | tmma td ta tb fa fb sa sb acc | tmmai td ta tb fa fb sa sb acc =>
    exact (decodeRow_FT _ rfl).trans (by cases sa <;> cases sb <;> cases acc <;> rfl)
  | eqrd | eqwr => exact (decodeRow_FS _ rfl).trans (by simp [decodeS, setWidth_engine, class_engine])
  -- the other hints, and the events, which encode to nothing
  | hintOrd s o c => exact (decodeRow_FH _ rfl).trans (by cases s <;> cases o <;> cases c <;> rfl)
  | hintFmtx r sat sr seed => exact (decodeRow_FH _ rfl).trans (decodeH_fmtx r sat sr seed hok)
  | hintMerge => exact (decodeRow_FH _ rfl).trans rfl
  | hintLife us => exact (decodeRow_FH _ rfl).trans (if_neg (bne_iff_ne.mp hok))
  | _ => exact absurd he Bool.false_ne_true

/-- Settles O36: each row decodes from the fields that `encode` puts into its word, and well-formedness is what `decode` checks besides. -/
theorem decodeEncode : Obligations.DecodeEncode := by
  intro i h
  have hw := h
  simp only [Instr.wellFormed, Bool.and_eq_true] at h
  obtain ⟨⟨⟨he, hok⟩, -⟩, -⟩ := h
  unfold decode
  rw [decodeRow_encode he hok]
  exact if_pos hw

/-! ## Words that the spec prints (R28 to R34) -/

/-- A word whose major opcode no row has decodes to no instruction. -/
theorem decode_unassigned : decode 0xFA000000 = .error .unassigned := rfl

/-- Settles O35: each printed word is the encoding of its instruction, which is well-formed. -/
theorem decodeSpecWords : Obligations.DecodeSpecWords :=
  ⟨decodeEncode (.iadd 5 6 7) rfl, decodeEncode (.ld .w32 4 1 2 2) rfl, decodeEncode (.kadd 62 63) rfl, decodeEncode (.hintPred 3) rfl,
    decodeEncode (.tmma 8 0 1 2 3 false true true 0) rfl, decodeEncode (.brc 5 3) rfl, decodeEncode (.ffma 8 4 6 0) rfl,
    decodeEncode (.gshfl .rot 2 1 3 0) rfl, decodeEncode (.tcopy 2 40 48) rfl, decodeEncode (.csect .n32 8 4 12) rfl,
    decodeEncode (.want 4 30) rfl, decodeEncode (.atom .add 4 2 6 1) rfl, decodeEncode (.qpop 5 10 24) rfl, decodeEncode (.acq .die 9) rfl,
    decodeEncode (.syswrX64 0x121 6) rfl, decodeEncode (.brld 3 1 5 0) rfl, decodeEncode (.spill .x64 8 3) rfl,
    decodeEncode (.tdrainFmt 2 8 3 0 0) rfl, decodeEncode .nop rfl, fun i h => by rw [decode_unassigned] at h; cases h⟩

end Sys2Proof
end

section
/-! PROOFS. A word that sets one register in lanes: of lanes that came to it by different hint chains, each class performs it by itself (R26, R258). -/
namespace Sys2Proof.Machine
open Sys2Proof.Claims

/-! ## What a part of the issuing lanes leaves alone -/

/-- Uniform registers stand apart from the threads of a group. -/
theorem State.k_of_still {s t : State} {w : Who} (hs : t.still w = s.still w) (hsnap : t.snap = s.snap) (n : Nat) : t.k w n = s.k w n := by
  have hk : ∀ u : State, (u.group w.d w.gid).map Group.bare = (u.still w).group w.d w.gid := fun u =>
    (State.group_modGroup u w.d w.gid Group.bare fun _ => rfl).symm
  have he : (t.group w.d w.gid).map Group.k = (s.group w.d w.gid).map Group.k := by
    have := congrArg (Option.map Group.k) (((hk t).trans (congrArg (State.group · w.d w.gid) hs)).trans (hk s).symm)
    rw [Option.map_map, Option.map_map] at this
    exact this
  unfold State.k State.snapGroup
  rw [hsnap]
  split
  · rfl
  · cases s.snap.find? (·.gid == w.gid) with
    | some G => rfl
    | none =>
      obtain ht | ⟨G, ht⟩ := Option.eq_none_or_eq_some (t.group w.d w.gid) <;>
        obtain hs | ⟨H, hs⟩ := Option.eq_none_or_eq_some (s.group w.d w.gid) <;> rw [ht, hs] at he ⊢
      · cases he
      · cases he
      · have hGH : G.k = H.k := Option.some.inj he
        exact congrArg (fun v => vget v n 0) hGH

/-- `c` is some of the lanes `w`, at the same word. -/
structure Who.PartOf (c w : Who) : Prop where
  d    : c.d = w.d
  gid  : c.gid = w.gid
  hood : c.hood = none
  pc   : c.pc = w.pc
  cap  : c.cap = w.cap
  all  : ∀ x ∈ c.all, x ∈ w.all
  xs   : ∀ x ∈ c.xs, x ∈ c.all

section
variable {c w : Who} (h : c.PartOf w)
include h
theorem Who.PartOf.still (s : State) : s.still c = s.still w := by simp only [State.still, h.d, h.gid]
theorem Who.PartOf.k (s : State) (n : Nat) : s.k c n = s.k w n := by simp only [State.k, h.d, h.gid, h.cap]
theorem Who.PartOf.g (s : State) (k : Option Nat) (x r : Nat) : s.g { c with hood := k } x r = s.g { w with hood := k } x r := by
  simp only [State.g, h.d, h.gid]
theorem Who.PartOf.ctlAt (hh : w.hood = none) (s : State) (x : Nat) : s.ctlAt c x = s.ctlAt w x := by simp only [State.ctlAt, h.d, h.gid, h.hood, hh]
theorem Who.PartOf.skip : ({ c with xs := [] } : Who).PartOf w := ⟨h.d, h.gid, h.hood, h.pc, h.cap, h.all, fun _ hx => absurd hx List.not_mem_nil⟩
end

/-- Lanes keep their places where their control states change. -/
theorem Group.holds_modCtl {G : Group} {w : Who} (hh : w.hood = none) (hG : G.holds w) (A : List Nat) (f : Nat → Ctl → Ctl) :
    (G.modCtl none A f).holds w := by
  have hl : ∀ x ∈ w.all, (G.lane x).isSome := by simpa only [Group.holds, hh] using hG
  simp only [Group.holds, hh]
  intro x hx
  rw [Group.lane_modCtl, Option.isSome_map]
  exact hl x hx
theorem Group.holds_settle {G : Group} {w : Who} (hh : w.hood = none) (hG : G.holds w) : G.settle.holds w := by
  have hl : ∀ x ∈ w.all, (G.lane x).isSome := by simpa only [Group.holds, hh] using hG
  simp only [Group.holds, hh]
  intro x hx
  obtain ⟨a, ha, -⟩ := Group.lane_settle G x
  rw [ha, Option.isSome_map]
  exact hl x hx

/-- The end of a word for some lanes leaves every register. -/
theorem State.finish_writes {s : State} {c w : Who} {G : Group} (hh : w.hood = none) (hg : s.group w.d w.gid = some G) (hG : G.holds w)
    (hc : c.PartOf w) (u : Use) (tok : Option Nat) (safe : Nat → Bool) (tgt : Nat → DWord) :
    WritesRegs s (s.finish c u tok safe tgt) w fun _ _ => none := by
  have hgr : (s.finish c u tok safe tgt).group w.d w.gid =
      some (G.modCtl none c.all fun x k => k.advance u (c.xs.contains x) tok (s.destOf c safe tgt x)).settle := by
    rw [State.finish_eq, hc.d, hc.gid, State.group_modGroup _ _ _ _ (by intro G; simp), hg, hc.hood]; rfl
  have hr : ∀ k x r, (s.finish c u tok safe tgt).g { w with hood := k } x r = s.g { w with hood := k } x r := fun k x r => by
    rw [← hc.g, ← hc.g]; exact State.finish_g ..
  refine ⟨⟨_, hgr, Group.holds_settle hh (Group.holds_modCtl hh hG ..)⟩, ?_, fun x _ r => hr w.hood x r, fun k x r _ => hr k x r⟩
  rw [← hc.still, ← hc.still]; exact State.finish_still ..

/-- The lanes that have gone on: they stand at the next word and wait for nothing. -/
def State.goneOn (t : State) (w : Who) (x : Nat) : Prop :=
  (t.ctlAt w x).pc = w.pc + 4 ∧ (t.ctlAt w x).chain = [] ∧ (t.ctlAt w x).wait = .none

/-- The lanes of a part go on, and those that have gone on before stay so. -/
theorem State.finish_goneOn {s : State} {c w : Who} {G : Group} (hh : w.hood = none) (hg : s.group w.d w.gid = some G) (hG : G.holds w)
    (hc : c.PartOf w) (u : Use) (tok : Option Nat) {x : Nat} (hx : x ∈ c.all ∨ s.goneOn w x) : (s.finish c u tok unsafePoint c.next).goneOn w x := by
  by_cases hm : x ∈ c.all
  · have hgc : s.group c.d c.gid = some G := by rw [hc.d, hc.gid, hg]
    have hGc : G.holds c := by
      have hl : ∀ x ∈ w.all, (G.lane x).isSome := by simpa only [Group.holds, hh] using hG
      simpa only [Group.holds, hc.hood] using fun x hx => hl x (hc.all x hx)
    obtain ⟨y, a, he, -⟩ := State.finish_ctlAt s c u tok unsafePoint c.next G hgc hGc x hm
    rw [hc.ctlAt hh] at he
    rw [State.goneOn, he, ← hc.pc]
    exact ⟨by simp [Ctl.advance, Who.next], rfl, rfl⟩
  · obtain ⟨hp, hch, hw⟩ := hx.resolve_left hm
    have hstay : (G.modCtl none c.all fun x k => k.advance u (c.xs.contains x) tok (s.destOf c unsafePoint c.next x)).ctlOf none x = G.ctlOf none x := by
      have hm' : c.all.contains x = false := by simpa using hm
      simp only [Group.ctlOf, Group.lane_modCtl, hm', Bool.false_eq_true, if_false]
      cases G.lane x <;> rfl
    have hs : s.ctlAt w x = G.ctlOf none x := by simp only [State.ctlAt, hg, hh]
    rw [hs] at hp hch hw
    obtain ⟨a, ha⟩ := Group.ctlOf_settle (G.modCtl none c.all fun x k => k.advance u (c.xs.contains x) tok (s.destOf c unsafePoint c.next x)) none x
      (by rw [hstay, hw]; decide)
    have ht : (s.finish c u tok unsafePoint c.next).ctlAt w x = { G.ctlOf none x with after := a } := by
      rw [← hstay, ← ha, State.finish_eq, State.ctlAt, hc.d, hc.gid, State.group_modGroup _ _ _ _ (by intro G; simp), hg, hc.hood, hh]
      rfl
    rw [State.goneOn, ht]
    exact ⟨hp, hch, hw⟩
theorem State.setLanes_goneOn {s : State} {w : Who} (hh : w.hood = none) (P : List Nat) (r : Nat) (v : Nat → Word) {x : Nat} (hx : s.goneOn w x) :
    (s.setLanes w P r v).goneOn w x := by
  have : (s.setLanes w P r v).ctlAt w x = s.ctlAt w x := by
    unfold State.ctlAt
    rw [State.setLanes_group, hh]
    cases s.group w.d w.gid with
    | none => rfl
    | some G =>
      simp only [Option.map_some, Group.ctlOf, Group.lane_setLanes]
      cases G.lane x with
      | none => rfl
      | some l => simp only [Option.map_some]; split <;> rfl
  rwa [State.goneOn, this]

/-! ## Part after part -/

/-- The word is done for the lanes of `done`: they have their values `v` and have gone on, and nothing else has changed. -/
structure PartsDone (s t : State) (w : Who) (done : Nat → Bool) (v : Nat → Nat → Option Word) : Prop where
  writes : WritesRegs s t w fun x r => if done x then v x r else none
  on     : ∀ x, done x = true → t.goneOn w x
  snap   : t.snap = s.snap

theorem PartsDone.refl {s : State} {w : Who} {G : Group} (hg : s.group w.d w.gid = some G) (hG : G.holds w) (v : Nat → Nat → Option Word) :
    PartsDone s s w (fun _ => false) v :=
  ⟨⟨⟨G, hg, hG⟩, rfl, fun _ _ _ => rfl, fun _ _ _ _ => rfl⟩, fun _ hx => absurd hx Bool.false_ne_true, rfl⟩

/-- One part more: `t'` is `t` with the values of its participants. -/
theorem PartsDone.part {s t t' : State} {c w : Who} {done : Nat → Bool} {u v : Nat → Nat → Option Word} (hh : w.hood = none) (h : PartsDone s t w done v)
    (hc : c.PartOf w) (hnew : ∀ x ∈ c.all, done x = false) (ht : WritesRegs t t' w u) (hsnap : t'.snap = t.snap)
    (hon : ∀ x, t.goneOn w x → t'.goneOn w x) (hu : ∀ x r, u x r = if c.all.contains x then v x r else none) (us : Use) (tok : Option Nat) :
    PartsDone s (t'.finish c us tok unsafePoint c.next) w (fun x => done x || c.all.contains x) v := by
  obtain ⟨G, hg, hG⟩ := ht.held
  refine ⟨?_, fun x hx => State.finish_goneOn hh hg hG hc us tok ?_, hsnap.trans h.snap⟩
  · refine Eq.subst (motive := WritesRegs s _ w) ?_ ((h.writes.trans ht).trans (State.finish_writes hh hg hG hc us tok _ _))
    funext x r
    rw [hu]
    by_cases hx : x ∈ c.all
    · simp [hx, hnew x hx]
    · simp [hx]
  · obtain hx | hx := Bool.or_eq_true_iff.mp hx
    · exact .inr (hon x (h.on x hx))
    · exact .inl (by simpa using hx)

/-- In lanes the body sets register `d` of the participants, each to the value `V` of the hints, the uniform registers and its own registers. -/
def SetsLanes (body : Who → State → Eff) (d : Nat) (V : List Hint → (Nat → Word) → (Nat → Word) → Word) : Prop :=
  ∀ (w : Who) (s : State), w.hood = none → body w s = .ok (s.setLanes w w.xs d fun x => V w.hints (s.k w) (s.g w x)) none

/-- The values that the participants of `w` get, each by its own hints. -/
def laneValues (s : State) (w : Who) (d : Nat) (V : List Hint → (Nat → Word) → (Nat → Word) → Word) : Nat → Nat → Option Word :=
  oneReg w.xs d fun x => V (w.hintsAt x) (s.k w) (s.g w x)

/-- The part of the lanes for which `p` holds. -/
theorem Who.part_partOf {w : Who} (hh : w.hood = none) (hsub : ∀ x ∈ w.xs, x ∈ w.all) (p : Nat → Bool) : (w.part p).PartOf w where
  d := rfl
  gid := rfl
  hood := hh
  pc := rfl
  cap := rfl
  all x hx := (List.mem_filter.mp hx).1
  xs x hx := by
    obtain ⟨hx, hp⟩ := List.mem_filter.mp hx
    exact List.mem_filter.mpr ⟨hsub x hx, hp⟩
/-- A part has the hints of one of its own participants. -/
theorem Who.part_hints {w : Who} {p : Nat → Bool} (hne : (w.part p).xs ≠ []) : ∃ x, p x = true ∧ (w.part p).hints = w.hintsAt x := by
  obtain ⟨x, l, hx⟩ := List.exists_cons_of_ne_nil hne
  have hx' : w.xs.filter p = x :: l := hx
  refine ⟨x, (List.mem_filter.mp (hx' ▸ List.mem_cons_self : x ∈ w.xs.filter p)).2, ?_⟩
  simp only [Who.part, hx', List.headD_cons]

section
variable {s : State} {w : Who} {i : Instr} {body : Who → State → Eff} {d : Nat} {V : List Hint → (Nat → Word) → (Nat → Word) → Word}
  (hh : w.hood = none) (hsub : ∀ x ∈ w.xs, x ∈ w.all) (hd : d < 64) (hb : SetsLanes body d V)
include hh hsub hd hb

/-- One part of the lanes performs the word with the hints that all of its lanes share. -/
theorem PartsDone.setsPart {t : State} {done p : Nat → Bool} (h : PartsDone s t w done (laneValues s w d V)) (hnew : ∀ x, p x = true → done x = false)
    (hV : ∀ x y, p x = true → p y = true → V (w.hintsAt x) = V (w.hintsAt y)) :
    PartsDone s (inParts i body [w.part p] t) w (fun x => done x || w.all.contains x && p x) (laneValues s w d V) := by
  have hc := Who.part_partOf hh hsub p
  have hall : ∀ x ∈ (w.part p).all, p x = true := fun x hx => (List.mem_filter.mp hx).2
  have hdone : (fun x => done x || w.all.contains x && p x) = fun x => done x || (w.part p).all.contains x := by
    funext x
    simp [Who.part, List.mem_filter]
  rw [hdone]
  obtain ⟨G, hg, hG⟩ := h.writes.held
  show PartsDone s (if (w.part p).xs.isEmpty && !i.gathered then _ else _) w _ _
  have hval : ∀ x r, oneReg (w.part p).xs d (fun x => V (w.part p).hints (t.k (w.part p)) (t.g (w.part p) x)) x r =
      if (w.part p).all.contains x then laneValues s w d V x r else none := by
    intro x r
    by_cases hx : x ∈ (w.part p).xs
    · obtain ⟨y, hy, hhint⟩ := Who.part_hints (List.ne_nil_of_mem hx)
      have hxall := hc.xs x hx
      have hxw : x ∈ w.xs := (List.mem_filter.mp hx).1
      have hk : t.k (w.part p) = s.k w := funext fun n => (hc.k t n).trans (State.k_of_still h.writes.still h.snap n)
      have hgx : t.g (w.part p) x = s.g w x := funext fun r => by
        have := h.writes.regs x (hsub x hxw) r
        rw [hnew x (hall x hxall)] at this
        exact this
      simp only [laneValues, oneReg, hk, hgx, hhint, hV y x hy (hall x hxall)]
      simp [hx, hxw, hxall]
    · by_cases hxa : x ∈ (w.part p).all
      · have : x ∉ w.xs := fun hxw => hx (List.mem_filter.mpr ⟨hxw, hall x hxa⟩)
        simp [oneReg, laneValues, hx, this]
      · simp [oneReg, hx, hxa]
  split
  · next he =>
    have hxs : (w.part p).xs = [] := List.isEmpty_iff.mp (Bool.and_eq_true_iff.mp he).1
    refine h.part (t' := t) (u := fun _ _ => none) hh hc.skip (fun x hx => hnew x (hall x hx)) ⟨⟨G, hg, hG⟩, rfl, fun _ _ _ => rfl, fun _ _ _ _ => rfl⟩ rfl
      (fun _ hx => hx) (fun x r => ?_) i.use none
    rw [← hval x r, hxs]; rfl
  · rw [hb (w.part p) t hh]
    exact h.part hh hc (fun x hx => hnew x (hall x hx)) (State.setLanes_writes hg hG hh (fun x hx => hc.all x (hc.xs x hx)) hd _) rfl
      (fun x hx => State.setLanes_goneOn hh _ _ _ hx) hval i.use none

/-- The classes of lanes, one after the other. -/
theorem PartsDone.setsParts {α : Type} [BEq α] [LawfulBEq α] (key : Nat → α) (hV : ∀ x y, key x = key y → V (w.hintsAt x) = V (w.hintsAt y))
    (ks : List α) (hks : ks.Nodup) {t : State} {done : Nat → Bool} (h : PartsDone s t w done (laneValues s w d V)) (hnew : ∀ x, key x ∈ ks → done x = false) :
    PartsDone s (inParts i body (ks.map fun k => w.part fun x => key x == k) t) w (fun x => done x || w.all.contains x && ks.contains (key x))
      (laneValues s w d V) := by
  induction ks generalizing t done with
  | nil => simpa [inParts] using h
  | cons k ks ih =>
    obtain ⟨hk, hks⟩ := List.nodup_cons.mp hks
    have h1 := h.setsPart (i := i) hh hsub hd hb (p := fun x => key x == k) (fun x hx => hnew x (by simp_all)) fun x y hx hy => hV x y (by simp_all)
    have h2 := ih hks h1 fun x hx => by
      have hne : key x ≠ k := fun e => hk (e ▸ hx)
      simp [hnew x (List.mem_cons_of_mem _ hx), hne]
    refine Eq.subst (motive := fun f => PartsDone s _ w f _) ?_ h2
    funext x
    by_cases hx : key x = k
    · cases w.all.contains x <;> simp [hx]
    · cases w.all.contains x <;> simp [hx, beq_eq_false_iff_ne.mpr hx]
end

/-! ## The word of lanes that came by one chain or by several -/

theorem nodup_eraseDups {α : Type} [BEq α] [LawfulBEq α] : (l : List α) → l.eraseDups.Nodup
  | [] => List.nodup_nil
  | a :: l => by
    rw [List.eraseDups_cons, List.nodup_cons, List.mem_eraseDups]
    exact ⟨by simp, nodup_eraseDups _⟩
termination_by l => l.length
decreasing_by exact Nat.lt_succ_of_le (List.length_filter_le ..)

/-- The class of a lane: its hints that change what a word does. -/
def Who.classOf (w : Who) (x : Nat) : List Hint := (w.hintsAt x).filter Hint.changes

/-- Such a body faults in no class, so that every class performs it. -/
theorem SetsLanes.perClass {body : Who → State → Eff} {d : Nat} {V : List Hint → (Nat → Word) → (Nat → Word) → Word} (hb : SetsLanes body d V)
    {w : Who} (hh : w.hood = none) (hm : w.mixed ≠ []) (i : Instr) (s : State) :
    Machine.perClass i body w s = .done (inParts i body w.classes s) := by
  have htrap : (w.classes.filter fun c => !c.xs.isEmpty).filterMap (fun c => (body c s).trap?) = [] := by
    rw [List.filterMap_eq_nil_iff]
    intro c hc
    obtain ⟨k, -, rfl⟩ := List.mem_map.mp (List.mem_filter.mp hc).1
    rw [hb (w.part _) s hh]
    rfl
  unfold Machine.perClass
  rw [htrap]
  simp [hm]

/-- Threads that issue perform the word; only carders have a body of their own. -/
theorem issued_who {s : State} {w : Who} (hw : s.who s.cur = some w) (i : Instr) (body : Who → State → Eff)
    (cbody : DieId → Nat → Carder → List Hint → State → CEff) : issued i body cbody s = .next (runThread i body w s) := by
  unfold issued
  cases hcur : s.cur with
  | none => rw [hcur] at hw; cases hw
  | carder d inst => rw [hcur] at hw; cases hw
  | _ => rw [hcur] at hw; simp only [hw]
/-- Lanes whose word passes its checks and is no control-flow word perform its body. -/
theorem runThread_lanes {s : State} {w : Who} {i : Instr} (hh : w.hood = none) (hcheck : s.precheck w i = none) (hne : w.all ≠ []) (hsel : s.selected w ≠ [])
    (hctl : i.use.ctl = false) (body : Who → State → Eff) :
    runThread i body w s = match body (s.taking w) s with
      | .expand | .cond _ => s
      | e => s.apply (s.taking w) i e := by
  have hbusy : s.holdBusy (s.taking w) i.use = (s, s.taking w) := by
    unfold State.holdBusy
    cases s.group (s.taking w).d (s.taking w).gid with
    | none => rfl
    | some G => simp [hctl]
  unfold runThread
  simp only [hcheck, hh]
  unfold runLanes
  rw [show s.holdBusy { w with xs := s.selected w } i.use = (s, { w with xs := s.selected w }) from hbusy]
  simp only [List.isEmpty_eq_false_iff.mpr hne, List.isEmpty_eq_false_iff.mpr hsel, Bool.false_eq_true, if_false, Bool.false_and]
  rfl

/-- A WORD THAT SETS ONE REGISTER IN LANES completes, each lane with the value by its own hints (R26, R258). -/
theorem issued_setsLanes {s : State} {w : Who} {G : Group} {i : Instr} {body : Who → State → Eff} {d : Nat}
    {V : List Hint → (Nat → Word) → (Nat → Word) → Word} (hw : s.who s.cur = some w) (hg : s.group w.d w.gid = some G) (hh : w.hood = none)
    (hcheck : s.precheck w i = none) (hsel : s.selected w ≠ []) (hctl : i.use.ctl = false) (hd : d < 64) (hb : SetsLanes body d V)
    (hV : ∀ hs, V hs = V (hs.filter Hint.changes)) (cbody : DieId → Nat → Carder → List Hint → State → CEff) :
    ∃ t, issued i (perClass i body) cbody s = .next t ∧ Goes s t s w (oneReg (s.selected w) d fun x => V (w.hintsAt x) (s.k w) (s.g w x)) w.next := by
  obtain ⟨hG, -, -, -, -, hne⟩ := State.who_holds hw hg
  rw [issued_who hw, runThread_lanes hh hcheck (hne hh) hsel hctl]
  refine ⟨_, rfl, ?_⟩
  by_cases hm : w.mixed = []
  · have hr : Ready s i w G := ⟨hw, hg, hm, hcheck, hsel, fun h => absurd hh h, fun h => absurd h (by simp [hctl]), fun lo h => by rw [hh] at h; cases h⟩
    obtain ⟨t, ht, hgoes⟩ := threadWord_setLanes hr hh body none d hd (fun x => V w.hints (s.k w) (s.g w x)) (hb (s.taking w) s hh)
    have hhint : ∀ x, w.hintsAt x = w.hints := fun x => by simp [Who.hintsAt, hm]
    simp only [hhint]
    rw [threadWord, issued_who hw, runThread_lanes hh hcheck (hne hh) hsel hctl] at ht
    injection ht with ht
    rw [ht]
    exact hgoes
  · rw [hb.perClass (w := s.taking w) hh hm]
    have h0 : PartsDone s s (s.taking w) (fun _ => false) (laneValues s (s.taking w) d V) := PartsDone.refl (w := s.taking w) hg hG _
    have h1 := h0.setsParts (w := s.taking w) (i := i) hh (fun x => State.selected_sub s w) hd hb (s.taking w).classOf
      (fun x y e => (hV _).trans ((congrArg V e).trans (hV _).symm)) _ (nodup_eraseDups ((s.taking w).all.map (s.taking w).classOf)) fun _ _ => rfl
    have hdone : ∀ x ∈ w.all, (false || (s.taking w).all.contains x && ((s.taking w).all.map (s.taking w).classOf).eraseDups.contains ((s.taking w).classOf x)) = true := by
      intro x hx
      have : (s.taking w).classOf x ∈ ((s.taking w).all.map (s.taking w).classOf).eraseDups := List.mem_eraseDups.mpr (List.mem_map_of_mem hx)
      simp [this, show x ∈ (s.taking w).all from hx]
    refine ⟨h1.writes.still, fun x hx r => ?_, h1.writes.others, fun x hx => (h1.on x (hdone x hx)).1, fun x hx => (h1.on x (hdone x hx)).2.1⟩
    have := h1.writes.regs x hx r
    simp only [hdone x hx, if_true] at this
    exact this
end Sys2Proof.Machine
end

section
/-! PROOFS. The integer operations of the model are those that the rules name, at both widths (R57, R154 to R157, R356). -/
namespace Sys2Proof.Machine
open Sys2Proof.Claims

section
variable {n : Nat}

theorem intMin_eq_ofInt (hn : 0 < n) : BitVec.intMin n = BitVec.ofInt n (-(2 ^ (n - 1) : Int)) := by
  apply BitVec.eq_of_toInt_eq
  rw [BitVec.toInt_intMin_of_pos hn, BitVec.toInt_ofInt_eq_self hn] <;> simp
theorem intMax_eq_ofInt (hn : 0 < n) : BitVec.intMax n = BitVec.ofInt n (2 ^ (n - 1) - 1) := by
  apply BitVec.eq_of_toInt_eq
  have : (0 : Int) < 2 ^ (n - 1) := by positivity
  rw [BitVec.toInt_intMax, BitVec.toInt_ofInt_eq_self hn] <;> omega
/-- Signed saturation is the nearest value. -/
theorem clampI_eq_nearest (hn : 0 < n) (v : Int) : clampI n v = nearest n v := by
  have hp : (0 : Int) < 2 ^ (n - 1) := by positivity
  unfold clampI nearest
  push_cast
  split
  · next h => rw [intMin_eq_ofInt hn, max_eq_left (by omega)]
  · split
    · next h => rw [intMax_eq_ofInt hn, min_eq_left (by omega), max_eq_right (by omega)]
    · rw [min_eq_right (by omega), max_eq_right (by omega)]
theorem clampN_add (x y : BitVec n) : clampN n (x.toNat + y.toNat : Int) = BitVec.ofNat n (min (2 ^ n - 1) (x.toNat + y.toNat)) := by
  have hp : 0 < 2 ^ n := Nat.two_pow_pos n
  unfold clampN
  rw [if_neg (by omega)]
  push_cast
  split
  · next h => 
    rw [min_eq_left (by have : ((2 ^ n : Nat) : Int) = 2 ^ n := by push_cast; rfl
                        omega)]
    apply BitVec.eq_of_toNat_eq
    simp [BitVec.toNat_allOnes]
  · next h =>
    rw [min_eq_right (by have : ((2 ^ n : Nat) : Int) = 2 ^ n := by push_cast; rfl
                         omega)]
    exact BitVec.ofInt_natCast ..
theorem clampN_sub (x y : BitVec n) : clampN n (x.toNat - y.toNat : Int) = BitVec.ofNat n (x.toNat - y.toNat) := by
  have hx := x.isLt
  unfold clampN
  split
  · next h => rw [Nat.sub_eq_zero_of_le (by omega)]; rfl
  · rw [if_neg (by omega), ← Int.natCast_sub (by omega)]
    exact BitVec.ofInt_natCast ..
theorem absOf_eq (a : BitVec n) : absOf a = BitVec.ofNat n a.toInt.natAbs := by
  unfold absOf
  rw [← BitVec.ofInt_natCast]
  split
  · next h => rw [Int.ofNat_natAbs_of_nonpos (by omega), BitVec.ofInt_neg, BitVec.ofInt_toInt]
  · next h => rw [Int.natAbs_of_nonneg (by omega), BitVec.ofInt_toInt]
theorem neg_eq (a : BitVec n) : -a = BitVec.ofInt n (-a.toInt) := by rw [BitVec.ofInt_neg, BitVec.ofInt_toInt]
theorem mul_eq_signed (a b : BitVec n) : a * b = BitVec.ofInt n (a.toInt * b.toInt) := by rw [BitVec.ofInt_mul, BitVec.ofInt_toInt, BitVec.ofInt_toInt]
theorem mul_eq_unsigned (a b : BitVec n) : a * b = BitVec.ofNat n (a.toNat * b.toNat) := by
  rw [BitVec.ofNat_mul, BitVec.ofNat_toNat, BitVec.ofNat_toNat, BitVec.setWidth_eq, BitVec.setWidth_eq]
theorem mulhI_eq (a b : BitVec n) : mulhI a b = BitVec.ofInt n (a.toInt * b.toInt / 2 ^ n) := by
  rw [mulhI, Int.shiftRight_eq_div_pow]; push_cast; rfl
theorem mulhN_eq (a b : BitVec n) : mulhN a b = BitVec.ofNat n (a.toNat * b.toNat / 2 ^ n) := by rw [mulhN, Nat.shiftRight_eq_div_pow]
theorem minI_eq (a b : BitVec n) : minI a b = BitVec.ofInt n (min a.toInt b.toInt) := by
  unfold minI; split
  · next h => rw [min_eq_left h, BitVec.ofInt_toInt]
  · next h => rw [min_eq_right (by omega), BitVec.ofInt_toInt]
theorem maxI_eq (a b : BitVec n) : maxI a b = BitVec.ofInt n (max a.toInt b.toInt) := by
  unfold maxI; split
  · next h => rw [max_eq_right h, BitVec.ofInt_toInt]
  · next h => rw [max_eq_left (by omega), BitVec.ofInt_toInt]
theorem minN_eq (a b : BitVec n) : minN a b = BitVec.ofNat n (min a.toNat b.toNat) := by
  unfold minN; split
  · next h => rw [min_eq_left h, BitVec.ofNat_toNat, BitVec.setWidth_eq]
  · next h => rw [min_eq_right (by omega), BitVec.ofNat_toNat, BitVec.setWidth_eq]
theorem maxN_eq (a b : BitVec n) : maxN a b = BitVec.ofNat n (max a.toNat b.toNat) := by
  unfold maxN; split
  · next h => rw [max_eq_right h, BitVec.ofNat_toNat, BitVec.setWidth_eq]
  · next h => rw [max_eq_left (by omega), BitVec.ofNat_toNat, BitVec.setWidth_eq]

/-- A left shift by `k` is a product, also when it shifts everything out. -/
theorem shiftLeft_eq_ofNat (a : BitVec n) (k : Nat) : a <<< k = BitVec.ofNat n (a.toNat * 2 ^ k) := by
  apply BitVec.eq_of_toNat_eq
  rw [BitVec.toNat_shiftLeft, BitVec.toNat_ofNat, Nat.shiftLeft_eq]
theorem shlBy_eq (a b : BitVec n) : shlBy a b = a <<< b.toNat := by
  unfold shlBy
  split
  · rfl
  · next h => exact (BitVec.shiftLeft_eq_zero (by omega)).symm
theorem shlBy_eq_ofNat (a b : BitVec n) : shlBy a b = BitVec.ofNat n (a.toNat * 2 ^ b.toNat) := (shlBy_eq a b).trans (shiftLeft_eq_ofNat a b.toNat)
theorem shrBy_eq (a b : BitVec n) : shrBy a b = BitVec.ofNat n (a.toNat / 2 ^ b.toNat) := by
  have h : a >>> b.toNat = BitVec.ofNat n (a.toNat / 2 ^ b.toNat) := by
    apply BitVec.eq_of_toNat_eq
    rw [BitVec.toNat_ushiftRight, Nat.shiftRight_eq_div_pow, BitVec.toNat_ofNat, Nat.mod_eq_of_lt (Nat.lt_of_le_of_lt (Nat.div_le_self ..) a.isLt)]
  rw [← h]
  unfold shrBy
  split
  · rfl
  · next hb => exact (BitVec.ushiftRight_eq_zero (by omega)).symm
theorem sarBy_eq (a b : BitVec n) : sarBy a b = BitVec.ofInt n (a.toInt / 2 ^ b.toNat) := by
  have h : a.sshiftRight b.toNat = BitVec.ofInt n (a.toInt / 2 ^ b.toNat) := by
    rw [BitVec.sshiftRight, Int.shiftRight_eq_div_pow]; push_cast; rfl
  rw [← h]
  unfold sarBy
  split
  · rfl
  · next hb =>
    refine BitVec.eq_of_getLsbD_eq fun i hi => ?_
    have hout : ¬b.toNat + i < n := by omega
    rw [BitVec.getLsbD_sshiftRight, if_neg hout]
    cases a.msb <;> simp [hi]
theorem rolBy_eq (a b : BitVec n) : rolBy a b = a.rotateLeft b.toNat := BitVec.rotateLeft_mod_eq_rotateLeft

/-! ## Bit fields and bit counts -/

theorem bfPos_lt (hn : 0 < n) (b : BitVec n) : bfPos b < n := Nat.mod_lt _ hn
/-- The field of the width is six bits of 32-bit operands and seven of 64-bit ones. -/
theorem bfWidth_eq (hn : n = 32 ∨ n = 64) (b : BitVec n) : bfWidth b = fieldWidth b := by
  unfold bfWidth fieldWidth field
  rw [Nat.shiftRight_eq_div_pow]
  obtain rfl | rfl := hn <;> rfl
theorem bfxN_eq (hn : n = 32 ∨ n = 64) (a b : BitVec n) : bfxN a b = BitVec.ofNat n (a.toNat / 2 ^ fieldPos b % 2 ^ fieldWidth b) := by
  rw [bfxN, bfWidth_eq hn, Nat.shiftRight_eq_div_pow]; rfl
theorem bfxI_eq (hn : n = 32 ∨ n = 64) (a b : BitVec n) :
    bfxI a b = BitVec.ofInt n (Int.bmod (a.toNat / 2 ^ fieldPos b : Nat) (2 ^ fieldWidth b)) := by
  rw [bfxI, bfWidth_eq hn]
  apply BitVec.eq_of_toInt_eq
  have : (BitVec.setWidth (fieldWidth b) (a >>> bfPos b)).toInt = Int.bmod (a.toNat / 2 ^ fieldPos b : Nat) (2 ^ fieldWidth b) := by
    rw [BitVec.toInt_setWidth, BitVec.toNat_ushiftRight, Nat.shiftRight_eq_div_pow]
    rfl
  rw [← this, ← BitVec.signExtend]
theorem bfiOf_eq (hn : n = 32 ∨ n = 64) (d a b : BitVec n) :
    bfiOf d a b = (d &&& ~~~maskOf n (fieldPos b) (fieldWidth b)) ||| (a * BitVec.ofNat n (2 ^ fieldPos b) &&& maskOf n (fieldPos b) (fieldWidth b)) := by
  have hshift : a <<< bfPos b = a * BitVec.ofNat n (2 ^ fieldPos b) := by
    rw [shiftLeft_eq_ofNat, BitVec.ofNat_mul, BitVec.ofNat_toNat, BitVec.setWidth_eq]; rfl
  unfold bfiOf maskOf
  rw [bfWidth_eq hn, hshift, Nat.shiftLeft_eq]
  rfl
/-- The leading zeros are the place of the highest bit that is set. -/
theorem clzOf_eq (a : BitVec n) : clzOf a = BitVec.ofNat n (((List.range n).find? fun i => a.getMsbD i).getD n) := by
  unfold clzOf
  congr 1
  split
  · next h =>
    subst h
    rw [List.find?_eq_none.mpr (by simp)]; rfl
  · next h =>
    have h0 : a.toNat ≠ 0 := fun e => h (BitVec.eq_of_toNat_eq (by simpa using e))
    have hlog : Nat.log2 a.toNat < n := (Nat.log2_lt h0).mpr a.isLt
    have hfind : (List.range n).find? (fun i => a.getMsbD i) = some (n - 1 - Nat.log2 a.toNat) := by
      rw [List.find?_range_eq_some]
      refine ⟨?_, by simp; omega, fun j hj => ?_⟩
      · have hlow : n - 1 - (n - 1 - Nat.log2 a.toNat) = Nat.log2 a.toNat := by omega
        have hin : n - 1 - Nat.log2 a.toNat < n := by omega
        simp only [BitVec.getMsbD, hin, decide_true, Bool.true_and, hlow]
        exact Nat.testBit_log2 h0
      · have hhigh : a.toNat.testBit (n - 1 - j) = false :=
          Nat.testBit_lt_two_pow (Nat.lt_of_lt_of_le Nat.lt_log2_self (Nat.pow_le_pow_right (by omega) (by omega)))
        simp only [BitVec.getMsbD, BitVec.getLsbD, hhigh, Bool.and_false, Bool.not_false]
    rw [hfind]; rfl

/-! ## Divisions (R356) -/

theorem divI_eq (a b : Word) : divI a b = if b = 0 then 0xFFFFFFFF else BitVec.ofInt 32 (a.toInt.tdiv b.toInt) := by
  unfold divI
  split
  · rfl
  · split
    · next h => obtain ⟨rfl, rfl⟩ := h; decide
    · rfl
theorem remI_eq (a b : Word) : remI a b = if b = 0 then a else BitVec.ofInt 32 (a.toInt.tmod b.toInt) := by
  unfold remI
  split
  · rfl
  · split
    · next h => obtain ⟨rfl, rfl⟩ := h; decide
    · rfl
theorem divN_eq (a b : Word) : divN a b = if b = 0 then 0xFFFFFFFF else BitVec.ofNat 32 (a.toNat / b.toNat) := by
  unfold divN
  split
  · rfl
  · apply BitVec.eq_of_toNat_eq
    rw [BitVec.toNat_udiv, BitVec.toNat_ofNat, Nat.mod_eq_of_lt (Nat.lt_of_le_of_lt (Nat.div_le_self ..) a.isLt)]
theorem remN_eq (a b : Word) : remN a b = if b = 0 then a else BitVec.ofNat 32 (a.toNat % b.toNat) := by
  unfold remN
  split
  · rfl
  · apply BitVec.eq_of_toNat_eq
    rw [BitVec.toNat_umod, BitVec.toNat_ofNat, Nat.mod_eq_of_lt (Nat.lt_of_le_of_lt (Nat.mod_le ..) a.isLt)]
end
end Sys2Proof.Machine
end

section
/-! PROOFS. Integer words in lanes, in hoods and on carders (R26, R57, R145 to R147, R154 to R157, R258, R356): O1 and O6. -/
namespace Sys2Proof.Machine
open Sys2Proof.Claims

/-! ## The values of the model -/

/-- Destination and value of an integer word, in the model's own operations. -/
def intFn {n : Nat} (im : BitVec 13 → BitVec n) : Instr → Option (Reg × ((Reg → BitVec n) → BitVec n))
  | .iadd d a b => some (d, fun r => r a + r b)
  | .isub d a b => some (d, fun r => r a - r b)
  | .iaddSatI32 d a b => some (d, fun r => clampI n ((r a).toInt + (r b).toInt))
  | .isubSatI32 d a b => some (d, fun r => clampI n ((r a).toInt - (r b).toInt))
  | .iaddSatN32 d a b => some (d, fun r => clampN n ((r a).toNat + (r b).toNat : Int))
  | .isubSatN32 d a b => some (d, fun r => clampN n ((r a).toNat - (r b).toNat : Int))
  | .iabs d a => some (d, fun r => absOf (r a))
  | .ineg d a => some (d, fun r => -r a)
  | .imul d a b _ => some (d, fun r => r a * r b)
  | .imulhI32 d a b _ => some (d, fun r => mulhI (r a) (r b))
  | .imulhN32 d a b _ => some (d, fun r => mulhN (r a) (r b))
  | .imad d a b _ => some (d, fun r => r d + r a * r b)
  | .iminI32 d a b => some (d, fun r => minI (r a) (r b))
  | .iminN32 d a b => some (d, fun r => minN (r a) (r b))
  | .imaxI32 d a b => some (d, fun r => maxI (r a) (r b))
  | .imaxN32 d a b => some (d, fun r => maxN (r a) (r b))
  | .and d a b => some (d, fun r => r a &&& r b)
  | .or d a b => some (d, fun r => r a ||| r b)
  | .xor d a b => some (d, fun r => r a ^^^ r b)
  | .andn d a b => some (d, fun r => r a &&& ~~~r b)
  | .not d a => some (d, fun r => ~~~r a)
  | .shl d a b => some (d, fun r => shlBy (r a) (r b))
  | .shr d a b => some (d, fun r => shrBy (r a) (r b))
  | .sar d a b => some (d, fun r => sarBy (r a) (r b))
  | .rol d a b => some (d, fun r => rolBy (r a) (r b))
  | .bfxI32 d a b => some (d, fun r => bfxI (r a) (r b))
  | .bfxN32 d a b => some (d, fun r => bfxN (r a) (r b))
  | .bfi d a b => some (d, fun r => bfiOf (r d) (r a) (r b))
  | .popc d a => some (d, fun r => popcOf (r a))
  | .clz d a => some (d, fun r => clzOf (r a))
  | .ctz d a => some (d, fun r => ctzOf (r a))
  | .brev d a => some (d, fun r => brevOf (r a))
  | .icmp c d a b => some (d, fun r => bit n (ICond.holds c (r a) (r b)))
  | .sel d a b => some (d, fun r => if (r d).getLsbD 0 then r a else r b)
  | .mov d a => some (d, fun r => r a)
  | .movi d v => some (d, fun _ => im v)
  | .addi d a v => some (d, fun r => r a + im v)
  | .andi d a v => some (d, fun r => r a &&& im v)
  | .ori d a v => some (d, fun r => r a ||| im v)
  | .xori d a v => some (d, fun r => r a ^^^ im v)
  | .shli d a v => some (d, fun r => r a <<< v.toNat)
  | _ => none
/-- The same with MOVK and the divisions, which carders do not have. -/
def laneFn (im : BitVec 13 → Word) (k : KReg → Word) : Instr → Option (Reg × ((Reg → Word) → Word))
  | .movk d j => some (d, fun _ => k j)
  | .idivI32 d a b _ => some (d, fun r => divI (r a) (r b))
  | .idivN32 d a b _ => some (d, fun r => divN (r a) (r b))
  | .iremI32 d a b _ => some (d, fun r => remI (r a) (r b))
  | .iremN32 d a b _ => some (d, fun r => remN (r a) (r b))
  | i => intFn im i

/-- The model's values are those of the rules, at the width of lanes and of carders. -/
theorem intFn_eq_result {n : Nat} (hn : n = 32 ∨ n = 64) (im : BitVec 13 → BitVec n) (i : Instr) : intFn im i = result im i := by
  have hpos : 0 < n := by omega
  cases i with
  | iaddSatI32 | isubSatI32 => simp only [intFn, result, clampI_eq_nearest hpos]
  | iaddSatN32 => simp only [intFn, result, clampN_add]
  | isubSatN32 => simp only [intFn, result, clampN_sub]
  | iabs => simp only [intFn, result, absOf_eq]
  | ineg => simp only [intFn, result, neg_eq]
  | imul => simp only [intFn, result, mul_eq_signed]
  | imulhI32 => simp only [intFn, result, mulhI_eq]
  | imulhN32 => simp only [intFn, result, mulhN_eq]
  | imad => simp only [intFn, result, BitVec.add_comm]
  | iminI32 => simp only [intFn, result, minI_eq]
  | iminN32 => simp only [intFn, result, minN_eq]
  | imaxI32 => simp only [intFn, result, maxI_eq]
  | imaxN32 => simp only [intFn, result, maxN_eq]
  | shl => simp only [intFn, result, shlBy_eq_ofNat]
  | shr => simp only [intFn, result, shrBy_eq]
  | sar => simp only [intFn, result, sarBy_eq]
  | rol => simp only [intFn, result, rolBy_eq]
  | bfxI32 => simp only [intFn, result, bfxI_eq hn]
  | bfxN32 => simp only [intFn, result, bfxN_eq hn]
  | bfi => simp only [intFn, result, bfiOf_eq hn]
  | clz => simp only [intFn, result, clzOf_eq]
  | shli => simp only [intFn, result, shiftLeft_eq_ofNat]
  | _ => rfl
theorem laneFn_eq_laneResult (im : BitVec 13 → Word) (k : KReg → Word) (i : Instr) : laneFn im k i = laneResult im k i := by
  have h := intFn_eq_result (n := 32) (.inl rfl) im i
  cases i with
  | idivI32 => simp only [laneFn, laneResult, divI_eq]
  | idivN32 => simp only [laneFn, laneResult, divN_eq]
  | iremI32 => simp only [laneFn, laneResult, remI_eq]
  | iremN32 => simp only [laneFn, laneResult, remN_eq]
  | movk => rfl
  | _ => exact h

/-! ## Registers and forms of a hood (R143) -/

/-- Every index of a hood holds what the register's form gives it. -/
theorem State.g_eq_form_at (s : State) {w : Who} {lo : Nat} (hh : w.hood = some lo) (x r : Nat) : s.g w x r = (s.form w r).at lo x := by
  unfold State.g State.form Group.g
  rw [hh]
  cases s.group w.d w.gid with
  | none => simp [Form.at]
  | some G =>
    cases h : G.hood lo with
    | none => simp [Form.at, h]
    | some k => simp only [h]
theorem Form.at_uniform {f : Form} (h : f.stride = 0) (lo x : Nat) : f.at lo x = f.base := by simp [Form.at, h]
theorem Form.uniform_iff {f : Form} : f.uniform = true ↔ f.stride = 0 := by simp [Form.uniform]

/-- In the hood the body sets register `d`, by a form that gives each index the value `V` of its registers. -/
def SetsForm (body : Who → State → Eff) (d : Nat) (V : List Hint → (Nat → Word) → (Nat → Word) → Word) (s : State) (w : Who) : Prop :=
  ∃ F : Form, body w s = .ok (s.setForm w d F) none ∧ ∀ lo, w.hood = some lo → ∀ x ∈ w.all, F.at lo x = V w.hints (s.k w) (s.g w x)

theorem sumForm_at (a b : Form) (lo x : Nat) : (⟨a.base + b.base, a.stride + b.stride⟩ : Form).at lo x = a.at lo x + b.at lo x := by
  simp only [Form.at]; ring
theorem diffForm_at (a b : Form) (lo x : Nat) : (⟨a.base - b.base, a.stride - b.stride⟩ : Form).at lo x = a.at lo x - b.at lo x := by
  simp only [Form.at]; ring
theorem negForm_at (a : Form) (lo x : Nat) : (⟨-a.base, -a.stride⟩ : Form).at lo x = -a.at lo x := by
  simp only [Form.at]; ring
theorem notForm_at (a : Form) (lo x : Nat) : (⟨~~~a.base, -a.stride⟩ : Form).at lo x = ~~~a.at lo x := by
  have hnot : ∀ v : Word, ~~~v = -v - 1#32 := fun v => eq_sub_of_add_eq (BitVec.neg_eq_not_add v).symm
  simp only [Form.at, hnot]; ring
/-- A product with a UNIFORM factor has a form. -/
theorem mulForm_sound {a b : Form} (h : a.stride = 0 ∨ b.stride = 0) : ∃ F, mulForm a b = some F ∧ ∀ lo x, F.at lo x = a.at lo x * b.at lo x := by
  unfold mulForm
  by_cases hb : b.stride = 0
  · refine ⟨_, if_pos (Form.uniform_iff.mpr hb), fun lo x => ?_⟩
    rw [Form.at_uniform hb]
    simp only [Form.at]; ring
  · have ha := h.resolve_right hb
    refine ⟨_, (if_neg (fun h => hb (Form.uniform_iff.mp h))).trans (if_pos (Form.uniform_iff.mpr ha)), fun lo x => ?_⟩
    rw [Form.at_uniform ha]
    simp only [Form.at]; ring
theorem madForm_sound {c a b : Form} (h : a.stride = 0 ∨ b.stride = 0) :
    ∃ F, madForm c a b = some F ∧ ∀ lo x, F.at lo x = c.at lo x + a.at lo x * b.at lo x := by
  obtain ⟨F, hF, hat⟩ := mulForm_sound h
  refine ⟨⟨c.base + F.base, c.stride + F.stride⟩, by rw [madForm, hF]; rfl, fun lo x => ?_⟩
  rw [sumForm_at, hat]
theorem shlForm_sound {a b : Form} (h : b.stride = 0) : ∃ F, shlForm a b = some F ∧ ∀ lo x, F.at lo x = shlBy (a.at lo x) (b.at lo x) := by
  refine ⟨_, if_pos (Form.uniform_iff.mpr h), fun lo x => ?_⟩
  rw [Form.at_uniform h]
  have hmul : ∀ v : Word, v <<< b.base.toNat = v * BitVec.twoPow 32 b.base.toNat := fun v => (BitVec.mul_twoPow_eq_shiftLeft ..).symm
  simp only [Form.at, shlBy_eq, hmul]; ring

/-! ## The shapes of integer words -/

/-- The value of an integer word in a lane, from its hints, the uniform registers and the lane's registers. -/
def laneValue (i : Instr) (hs : List Hint) (k g : Nat → Word) : Word :=
  match laneFn (immOf hs) (fun q => k q.toNat) i with
  | some (_, f) => f fun r => g r.toNat
  | none => 0

theorem shliForm_sound {a : Form} (imm : BitVec 5) : ∃ F, shlForm a (uni (imm.setWidth 32)) = some F ∧ ∀ lo x, F.at lo x = a.at lo x <<< imm.toNat := by
  obtain ⟨F, hF, hat⟩ := shlForm_sound (a := a) (b := uni (imm.setWidth 32)) rfl
  have hlt : imm.toNat < 2 ^ 32 := Nat.lt_of_lt_of_le imm.isLt (by decide)
  refine ⟨F, hF, fun lo x => ?_⟩
  rw [hat, uni_at, shlBy_eq, BitVec.toNat_setWidth, Nat.mod_eq_of_lt hlt]

/-- What `body` and `cbody` do for the word `i` with destination `d`: each lane gets its value, a hood that does the word once gets a form of the same
values, and a carder its 64-bit value. -/
structure IntBody (i : Instr) (d : Reg) (body : Who → State → Eff) (cbody : DieId → Nat → Carder → List Hint → State → CEff) : Prop where
  exec   : ∀ s, exec i s = sharedWord i body cbody s
  plain  : i.use.ctl = false
  lanes  : SetsLanes body d.toNat (laneValue i)
  hood   : ∀ s w, w.hood ≠ none → w.xs = w.all → w.all ≠ [] → once s w i → SetsForm body d.toNat (laneValue i) s w
  carder : ∀ e inst c hs s f, intFn (fun v => (immOf hs v).signExtend 64) i = some (d, f) → cbody e inst c hs s = .ok (c.set d (f c.reg)) s

/-- A form rule gives, where it gives a form, the operation's value at every index. -/
theorem formU1_sound {f : Word → Word} {a : Form} (ha : a.stride = 0) : ∃ F, formU1 f a = some F ∧ ∀ lo x, F.at lo x = f (a.at lo x) :=
  ⟨_, if_pos (Form.uniform_iff.mpr ha), fun lo x => by rw [uni_at, Form.at_uniform ha]⟩
theorem formU2_sound {f : Word → Word → Word} {a b : Form} (ha : a.stride = 0) (hb : b.stride = 0) :
    ∃ F, formU2 f a b = some F ∧ ∀ lo x, F.at lo x = f (a.at lo x) (b.at lo x) :=
  ⟨_, if_pos (by simp [Form.uniform, ha, hb]), fun lo x => by rw [uni_at, Form.at_uniform ha, Form.at_uniform hb]⟩
theorem formU3_sound {f : Word → Word → Word → Word} {c a b : Form} (hc : c.stride = 0) (ha : a.stride = 0) (hb : b.stride = 0) :
    ∃ F, formU3 f c a b = some F ∧ ∀ lo x, F.at lo x = f (c.at lo x) (a.at lo x) (b.at lo x) :=
  ⟨_, if_pos (by simp [Form.uniform, ha, hb, hc]), fun lo x => by rw [uni_at, Form.at_uniform ha, Form.at_uniform hb, Form.at_uniform hc]⟩

section
variable {i : Instr} {d a b : Reg} {cbody : DieId → Nat → Carder → List Hint → State → CEff} (hplain : i.use.ctl = false)
  (hcarder : ∀ e inst c hs s f, intFn (fun v => (immOf hs v).signExtend 64) i = some (d, f) → cbody e inst c hs s = .ok (c.set d (f c.reg)) s)
include hplain hcarder

/-- One, two and three sources. -/
theorem IntBody.word1 {rule : Form → Option Form} {f : Word → Word} (hexec : ∀ s, Machine.exec i s = sharedWord i (word1 d a rule f) cbody s)
    (hval : ∀ hs k g, laneValue i hs k g = f (g a.toNat))
    (hrule : ∀ s w, once s w i → ∃ F, rule (s.form w a.toNat) = some F ∧ ∀ lo x, F.at lo x = f ((s.form w a.toNat).at lo x)) :
    IntBody i d (word1 d a rule f) cbody where
  exec := hexec
  plain := hplain
  carder := hcarder
  lanes w s hh := by simp only [Machine.word1, hh, hval]
  hood s w hh _ _ ho := by
    obtain ⟨lo, hlo⟩ := Option.ne_none_iff_exists'.mp hh
    obtain ⟨F, hF, hat⟩ := hrule s w ho
    refine ⟨F, by simp only [Machine.word1, hlo, hF, formEff], fun lo h x _ => ?_⟩
    rw [hat, hval, State.g_eq_form_at s h]
theorem IntBody.word2 {rule : Form → Form → Option Form} {f : Word → Word → Word}
    (hexec : ∀ s, Machine.exec i s = sharedWord i (word2 d a b rule f) cbody s) (hval : ∀ hs k g, laneValue i hs k g = f (g a.toNat) (g b.toNat))
    (hrule : ∀ s w, once s w i → ∃ F, rule (s.form w a.toNat) (s.form w b.toNat) = some F ∧
      ∀ lo x, F.at lo x = f ((s.form w a.toNat).at lo x) ((s.form w b.toNat).at lo x)) :
    IntBody i d (word2 d a b rule f) cbody where
  exec := hexec
  plain := hplain
  carder := hcarder
  lanes w s hh := by simp only [Machine.word2, hh, hval]
  hood s w hh _ _ ho := by
    obtain ⟨lo, hlo⟩ := Option.ne_none_iff_exists'.mp hh
    obtain ⟨F, hF, hat⟩ := hrule s w ho
    refine ⟨F, by simp only [Machine.word2, hlo, hF, formEff], fun lo h x _ => ?_⟩
    rw [hat, hval, State.g_eq_form_at s h, State.g_eq_form_at s h]
theorem IntBody.word3 {rule : Form → Form → Form → Option Form} {f : Word → Word → Word → Word}
    (hexec : ∀ s, Machine.exec i s = sharedWord i (word3 d a b rule f) cbody s)
    (hval : ∀ hs k g, laneValue i hs k g = f (g d.toNat) (g a.toNat) (g b.toNat))
    (hrule : ∀ s w, once s w i → ∃ F, rule (s.form w d.toNat) (s.form w a.toNat) (s.form w b.toNat) = some F ∧
      ∀ lo x, F.at lo x = f ((s.form w d.toNat).at lo x) ((s.form w a.toNat).at lo x) ((s.form w b.toNat).at lo x)) :
    IntBody i d (word3 d a b rule f) cbody where
  exec := hexec
  plain := hplain
  carder := hcarder
  lanes w s hh := by simp only [Machine.word3, hh, hval]
  hood s w hh _ _ ho := by
    obtain ⟨lo, hlo⟩ := Option.ne_none_iff_exists'.mp hh
    obtain ⟨F, hF, hat⟩ := hrule s w ho
    refine ⟨F, by simp only [Machine.word3, hlo, hF, formEff], fun lo h x _ => ?_⟩
    rw [hat, hval, State.g_eq_form_at s h, State.g_eq_form_at s h, State.g_eq_form_at s h]
/-- A source and the immediate. -/
theorem IntBody.immWord {imm : BitVec 13} {rule : Word → Form → Option Form} {f : Word → Word → Word}
    (hexec : ∀ s, Machine.exec i s = sharedWord i (immWord d a imm rule f) cbody s) (hval : ∀ hs k g, laneValue i hs k g = f (g a.toNat) (immOf hs imm))
    (hrule : ∀ s w, once s w i → ∀ v, ∃ F, rule v (s.form w a.toNat) = some F ∧ ∀ lo x, F.at lo x = f ((s.form w a.toNat).at lo x) v) :
    IntBody i d (immWord d a imm rule f) cbody where
  exec := hexec
  plain := hplain
  carder := hcarder
  lanes w s hh := by simp only [Machine.immWord, Machine.word1, hh, hval]
  hood s w hh _ _ ho := by
    obtain ⟨lo, hlo⟩ := Option.ne_none_iff_exists'.mp hh
    obtain ⟨F, hF, hat⟩ := hrule s w ho (immOf w.hints imm)
    refine ⟨F, by simp only [Machine.immWord, Machine.word1, hlo, hF, formEff], fun lo h x _ => ?_⟩
    rw [hat, hval, State.g_eq_form_at s h]
end

/-- A condition that agrees over a hood is decided once (R147). -/
theorem byCond_agrees {w : Who} {p : Nat → Bool} (hxs : w.xs = w.all) (hne : w.all ≠ []) (h : agrees w p) (once : Bool → Eff) :
    ∃ b, byCond w p once = once b ∧ ∀ x ∈ w.all, p x = b := by
  obtain ⟨x, hx⟩ := List.exists_mem_of_ne_nil _ hne
  refine ⟨p x, ?_, fun y hy => h y hy x hx⟩
  unfold byCond condSet
  rw [hxs]
  cases hp : p x with
  | false =>
    have : w.all.filter p = [] := List.filter_eq_nil_iff.mpr fun y hy => by rw [h y hy x hx, hp]; decide
    rw [this]; rfl
  | true =>
    have : w.all.filter p = w.all := List.filter_eq_self.mpr fun y hy => (h y hy x hx).trans hp
    rw [this]
    unfold condCase
    rw [if_neg (by simp [hne]), if_pos (by omega)]

theorem icmpBody_intBody (c : ICond) (d a b : Reg) :
    IntBody (.icmp c d a b) d (icmpBody c d a b) (cword2 d a b fun x y => bit 64 (ICond.holds c x y)) where
  exec _ := rfl
  plain := rfl
  carder _ _ _ _ _ _ h := by cases h; rfl
  lanes w s hh := by simp only [icmpBody, hh]; rfl
  hood s w hh hxs hne ho := by
    obtain ⟨lo, hlo⟩ := Option.ne_none_iff_exists'.mp hh
    obtain ⟨t, ht, hall⟩ := byCond_agrees hxs hne ho fun t => .ok (s.setForm w d.toNat (uni (bit 32 t))) none
    refine ⟨uni (bit 32 t), by simp only [icmpBody, hlo, ht], fun lo _ x hx => ?_⟩
    rw [uni_at, ← hall x hx]; rfl
theorem selBody_intBody (d a b : Reg) : IntBody (.sel d a b) d (selBody d a b) (cword3 d a b fun c x y => if c.getLsbD 0 then x else y) where
  exec _ := rfl
  plain := rfl
  carder _ _ _ _ _ _ h := by cases h; rfl
  lanes w s hh := by simp only [selBody, hh]; rfl
  hood s w hh hxs hne ho := by
    obtain ⟨lo, hlo⟩ := Option.ne_none_iff_exists'.mp hh
    obtain ⟨t, ht, hall⟩ := byCond_agrees hxs hne ho fun t => .ok (s.setForm w d.toNat (s.form w (if t then a else b).toNat)) none
    refine ⟨s.form w (if t then a else b).toNat, by simp only [selBody, hlo, ht], fun lo h x hx => ?_⟩
    have hx : (s.g w x d.toNat).getLsbD 0 = t := hall x hx
    rw [← State.g_eq_form_at s h]
    show _ = if (s.g w x d.toNat).getLsbD 0 then s.g w x a.toNat else s.g w x b.toNat
    rw [hx]
    cases t <;> rfl
theorem movkBody_intBody (d : Reg) (k : KReg) : IntBody (.movk d k) d (movkBody d k) noCarder where
  exec _ := rfl
  plain := rfl
  carder _ _ _ _ _ _ h := by cases h
  lanes w s hh := by simp only [movkBody, State.setUni, hh]; rfl
  hood s w hh _ _ _ := by
    obtain ⟨lo, hlo⟩ := Option.ne_none_iff_exists'.mp hh
    exact ⟨uni (s.k w k.toNat), by simp only [movkBody, State.setUni, hlo], fun lo _ x _ => by rw [uni_at]; rfl⟩

/-- Every integer word has such a body. -/
theorem intWord_body {im : BitVec 13 → Word} {k : KReg → Word} {i : Instr} {d : Reg} {f : (Reg → Word) → Word} (h : laneFn im k i = some (d, f)) :
    ∃ body cbody, IntBody i d body cbody := by
  cases i with
  -- done by forms (R145)
  | iadd d a b =>
    cases h
    exact ⟨_, _, .word2 rfl (fun _ _ _ _ _ _ h => by cases h; rfl) (fun _ => rfl) (fun _ _ _ => rfl) fun s w _ => ⟨_, rfl, sumForm_at _ _⟩⟩
  | isub d a b =>
    cases h
    exact ⟨_, _, .word2 rfl (fun _ _ _ _ _ _ h => by cases h; rfl) (fun _ => rfl) (fun _ _ _ => rfl) fun s w _ => ⟨_, rfl, diffForm_at _ _⟩⟩
  | ineg d a =>
    cases h
    exact ⟨_, _, .word1 rfl (fun _ _ _ _ _ _ h => by cases h; rfl) (fun _ => rfl) (fun _ _ _ => rfl) fun s w _ => ⟨_, rfl, negForm_at _⟩⟩
  | not d a =>
    cases h
    exact ⟨_, _, .word1 rfl (fun _ _ _ _ _ _ h => by cases h; rfl) (fun _ => rfl) (fun _ _ _ => rfl) fun s w _ => ⟨_, rfl, notForm_at _⟩⟩
  | mov d a =>
    cases h
    exact ⟨_, _, .word1 rfl (fun _ _ _ _ _ _ h => by cases h; rfl) (fun _ => rfl) (fun _ _ _ => rfl) fun s w _ => ⟨_, rfl, fun _ _ => rfl⟩⟩
  | imul d a b =>
    cases h
    exact ⟨_, _, .word2 rfl (fun _ _ _ _ _ _ h => by cases h; rfl) (fun _ => rfl) (fun _ _ _ => rfl) fun s w ho => mulForm_sound ho⟩
  | imad d a b =>
    cases h
    exact ⟨_, _, .word3 rfl (fun _ _ _ _ _ _ h => by cases h; rfl) (fun _ => rfl) (fun _ _ _ => rfl) fun s w ho => madForm_sound ho⟩
  | shl d a b =>
    cases h
    exact ⟨_, _, .word2 rfl (fun _ _ _ _ _ _ h => by cases h; rfl) (fun _ => rfl) (fun _ _ _ => rfl) fun s w ho => shlForm_sound ho⟩
  | shli d a imm =>
    cases h
    exact ⟨_, _, .word1 rfl (fun _ _ _ _ _ _ h => by cases h; rfl) (fun _ => rfl) (fun _ _ _ => rfl) fun s w _ => shliForm_sound imm⟩
  -- done once where every source is UNIFORM (R146)
  | iabs d a | popc d a | clz d a | ctz d a | brev d a =>
    cases h
    exact ⟨_, _, .word1 rfl (fun _ _ _ _ _ _ h => by cases h; rfl) (fun _ => rfl) (fun _ _ _ => rfl) fun s w ho => formU1_sound (ho _ (.head _))⟩
  | iaddSatI32 d a b | isubSatI32 d a b | iaddSatN32 d a b | isubSatN32 d a b | imulhI32 d a b | imulhN32 d a b | iminI32 d a b | iminN32 d a b
  | imaxI32 d a b | imaxN32 d a b | and d a b | or d a b | xor d a b | andn d a b | shr d a b | sar d a b | rol d a b | bfxI32 d a b | bfxN32 d a b =>
    cases h
    exact ⟨_, _, .word2 rfl (fun _ _ _ _ _ _ h => by cases h; rfl) (fun _ => rfl) (fun _ _ _ => rfl) fun s w ho =>
      formU2_sound (ho _ (.head _)) (ho _ (.tail _ (.head _)))⟩
  | idivI32 d a b | idivN32 d a b | iremI32 d a b | iremN32 d a b =>
    cases h
    exact ⟨_, noCarder, .word2 rfl (fun _ _ _ _ _ _ h => by cases h) (fun _ => rfl) (fun _ _ _ => rfl) fun s w ho =>
      formU2_sound (ho _ (.head _)) (ho _ (.tail _ (.head _)))⟩
  | bfi d a b =>
    cases h
    exact ⟨_, _, .word3 rfl (fun _ _ _ _ _ _ h => by cases h; rfl) (fun _ => rfl) (fun _ _ _ => rfl) fun s w ho =>
      formU3_sound (ho _ (.tail _ (.tail _ (.head _)))) (ho _ (.head _)) (ho _ (.tail _ (.head _)))⟩
  -- immediates (R157)
  | movi d v =>
    cases h
    exact ⟨_, _, .immWord rfl (fun _ _ _ _ _ _ h => by cases h; rfl) (fun _ => rfl) (fun _ _ _ => rfl) fun s w _ v => ⟨uni v, rfl, uni_at v⟩⟩
  | addi d a v =>
    cases h
    exact ⟨_, _, .immWord rfl (fun _ _ _ _ _ _ h => by cases h; rfl) (fun _ => rfl) (fun _ _ _ => rfl) fun s w _ v =>
      ⟨_, rfl, fun lo x => by rw [sumForm_at, uni_at]⟩⟩
  | andi d a v | ori d a v | xori d a v =>
    cases h
    exact ⟨_, _, .immWord rfl (fun _ _ _ _ _ _ h => by cases h; rfl) (fun _ => rfl) (fun _ _ _ => rfl) fun s w ho v => formU1_sound (ho _ (.head _))⟩
  -- conditions (R147), and a uniform register
  | icmp c d a b => cases h; exact ⟨_, _, icmpBody_intBody c d a b⟩
  | sel d a b => cases h; exact ⟨_, _, selBody_intBody d a b⟩
  | movk d k => cases h; exact ⟨_, _, movkBody_intBody d k⟩
  | _ => cases h

/-! ## The immediate (R26, R157) -/

theorem immhiOf_changes (hs : List Hint) : immhiOf (hs.filter Hint.changes) = immhiOf hs := by
  induction hs with
  | nil => rfl
  | cons h hs ih =>
    cases h with
    | immhi => rfl
    | _ => exact ih
/-- Hints that only choose lanes leave the immediate. -/
theorem immOf_changes (hs : List Hint) : immOf (hs.filter Hint.changes) = immOf hs := by
  funext v
  rw [immOf, immhiOf_changes, immOf]
theorem immediateFromHint : Claims.ImmediateFromHint := by
  refine ⟨fun hs v h => ?_, fun hs hi v h => ?_⟩
  · rw [immOf, h]
    exact BitVec.toInt_signExtend_of_le (by decide)
  · rw [immOf, h]
    exact ⟨BitVec.extractLsb'_append_eq_left, BitVec.extractLsb'_append_eq_right⟩

/-! ## The obligations -/

theorem laneValue_changes (i : Instr) (hs : List Hint) : laneValue i hs = laneValue i (hs.filter Hint.changes) := by
  funext k g
  rw [laneValue, laneValue, immOf_changes]
theorem laneValue_eq {i : Instr} {d : Reg} {f : (Reg → Word) → Word} {hs : List Hint} {s : State} {w : Who} {x : Nat}
    (h : laneResult (immOf hs) (fun q => s.k w q.toNat) i = some (d, f)) : laneValue i hs (s.k w) (s.g w x) = f (regsOf s w x) := by
  rw [laneValue, laneFn_eq_laneResult, h]
  rfl

theorem integerWordsByChain : Claims.IntegerWordsByChain := by
  intro s i w G d f hw hg hh hcheck hsel hres
  obtain ⟨body, cbody, h⟩ := intWord_body ((laneFn_eq_laneResult ..).trans (hres 0))
  obtain ⟨t, ht, hgoes⟩ := issued_setsLanes hw hg hh hcheck hsel h.plain d.isLt h.lanes (laneValue_changes i) cbody
  refine ⟨t, (h.exec s).trans ht, ?_⟩
  have hval : (fun x => laneValue i (w.hintsAt x) (s.k w) (s.g w x)) = fun x => f x (regsOf s w x) := funext fun x => laneValue_eq (hres x)
  rwa [hval] at hgoes
theorem integerWordsOnLanes : Claims.IntegerWordsOnLanes := by
  intro s i w G d f h hh hres
  exact integerWordsByChain s i w G d (fun _ => f) h.who h.group hh h.check h.sel fun x => by rwa [show w.hintsAt x = w.hints by simp [Who.hintsAt, h.one]]
theorem integerWordsInHoods : Claims.IntegerWordsInHoods := by
  intro s i w G d f h hh ho hres
  obtain ⟨lo, hlo⟩ := Option.ne_none_iff_exists'.mp hh
  obtain ⟨body, cbody, hi⟩ := intWord_body ((laneFn_eq_laneResult ..).trans hres)
  obtain ⟨F, hF, hat⟩ := hi.hood s w hh (State.who_holds h.who h.group).2.1 h.ne ho
  obtain ⟨t, ht, hgoes⟩ := threadWord_setForm h lo hlo body none d.toNat d.isLt F (fun x => f (regsOf s w x))
    (fun x hx => (hat lo hlo x hx).trans (laneValue_eq hres)) hF
  exact ⟨t, (hi.exec s).trans ((sharedWord_ready h body cbody).trans ht), hgoes⟩

/-- Settles O1: `intWord_body` gives each integer word its body, which sets one register in lanes, in a hood and on a carder. -/
theorem integerWords : Obligations.IntegerWords := ⟨integerWordsOnLanes, integerWordsByChain, integerWordsInHoods, immediateFromHint⟩

/-! ## Carders (R36, R57) -/

/-- A carder's integer word is one of the lanes' too, with the same destination. -/
theorem intFn_dest {n : Nat} {im : BitVec 13 → BitVec n} {i : Instr} {d : Reg} {f : (Reg → BitVec n) → BitVec n} (h : intFn im i = some (d, f))
    (im' : BitVec 13 → Word) (k : KReg → Word) : ∃ f', laneFn im' k i = some (d, f') := by
  cases i <;> cases h <;> exact ⟨_, rfl⟩

/-- A carder that stands ready performs a word that sets one of its registers. -/
theorem carderWord_sets {s : State} {i : Instr} {d : DieId} {inst : Nat} (h : CarderReady s i d inst) {body : Who → State → Eff}
    {cbody : DieId → Nat → Carder → List Hint → State → CEff} {r : Nat} {v : DWord} (hexec : ∀ s, exec i s = sharedWord i body cbody s)
    (hb : let c := (s.die d).carder inst
      cbody d inst c c.ctl.chain s = .ok { c with c := vput c.c r v } s) :
    let c := (s.die d).carder inst
    ∃ t, exec i s = .next t ∧ CarderGoes t s d inst (vput c.c r v) (c.ctl.pc + 4) := by
  intro c
  refine ⟨_, (hexec s).trans ((sharedWord_carder h body cbody).trans ?_), rfl⟩
  rw [hb]

theorem integerWordsOnCarders : Claims.IntegerWordsOnCarders := by
  intro s i d inst r f h c hres
  rw [← intFn_eq_result (.inr rfl)] at hres
  obtain ⟨f', hf'⟩ := intFn_dest hres (fun v => v.setWidth 32) fun _ => 0
  obtain ⟨body, cbody, hi⟩ := intWord_body hf'
  exact carderWord_sets h hi.exec (hi.carder _ _ _ _ _ _ hres)

/-- The uniform words that carders have. -/
theorem uniformWordsOnCarders : Claims.UniformWordsOnCarders := by
  intro s i d inst k f h hres c
  cases i with
  | kadd | ksub | kand | kor | kxor | kcmp | kmov => cases hres; exact carderWord_sets h (fun _ => rfl) rfl
  | kmul k b => cases hres; beta_reduce; rw [← mul_eq_unsigned]; exact carderWord_sets h (fun _ => rfl) rfl
  | kshl k b => cases hres; beta_reduce; rw [← shlBy_eq_ofNat]; exact carderWord_sets h (fun _ => rfl) rfl
  | kshr k b => cases hres; beta_reduce; rw [← shrBy_eq]; exact carderWord_sets h (fun _ => rfl) rfl
  | kmovi k imm => cases hres; rw [← BitVec.signExtend]; exact carderWord_sets h (fun _ => rfl) rfl
  | _ => cases hres

/-- Settles O6: each carder word sets one c register. -/
theorem carderArithmetic : Obligations.CarderArithmetic := ⟨integerWordsOnCarders, uniformWordsOnCarders⟩
end Sys2Proof.Machine
end

section
/-! PROOFS. REFORM (R153): its test, the hood that it makes, and the lanes that it takes away. -/
namespace Sys2Proof.Machine
open Sys2Proof.Claims

/-! ## The forms of lanes -/

theorem State.laneForm_isSome {s : State} {w : Who} (n : Nat) (hne : w.xs ≠ []) : (s.laneForm w n).isSome = true ↔ affineIn s w w.xs n := by
  unfold State.laneForm affineIn
  cases hxs : w.xs with
  | nil => exact absurd hxs hne
  | cons x l =>
    cases l with
    | nil =>
      simp only [Option.isSome_some, true_iff]
      refine ⟨0, fun j hj => ?_⟩
      obtain rfl : j = 0 := by simpa using hj
      simp
    | cons y l =>
      simp only [Option.isSome_ite, List.all_eq_true, List.mem_range, beq_iff_eq, List.headD_cons]
      refine ⟨fun h => ⟨_, h⟩, fun ⟨st, h⟩ => ?_⟩
      have hst : s.g w y n - s.g w x n = st := by
        have h1 : s.g w y n = s.g w x n + st * 1 := h 1 (by simp)
        rw [h1]; ring
      rwa [hst]

/-- The form of lanes gives each its value. -/
theorem State.laneForm_value {s : State} {w : Who} {n : Nat} {f : Form} (h : s.laneForm w n = some f) {j : Nat} (hj : j < w.xs.length) :
    f.base + f.stride * BitVec.ofNat 32 j = s.g w (w.xs.getD j 0) n := by
  unfold State.laneForm at h
  cases hxs : w.xs with
  | nil => simp [hxs] at hj
  | cons x l =>
    rw [hxs] at h hj
    cases l with
    | nil =>
      cases h
      obtain rfl : j = 0 := by simpa using hj
      simp
    | cons y l =>
      obtain ⟨hall, heq⟩ := Option.ite_some_none_eq_some.mp h
      cases heq
      simp only [List.all_eq_true, List.mem_range, beq_iff_eq] at hall
      exact (hall j hj).symm

theorem span_getD (a n j : Nat) (h : j < n) : (span a n).getD j 0 = a + j := by
  induction n generalizing a j with
  | zero => omega
  | succ n ih =>
    cases j with
    | zero => rfl
    | succ j =>
      rw [span, List.getD_cons_succ, ih _ _ (by omega)]
      omega

/-- Of contiguous indices, each stands at its distance from the lowest. -/
theorem getD_of_range {xs : List Nat} {lo x : Nat} (h : xs = range lo (lo + xs.length)) (hx : x ∈ xs) :
    lo ≤ x ∧ x - lo < xs.length ∧ xs.getD (x - lo) 0 = x := by
  have hb : lo ≤ x ∧ x < lo + xs.length := (mem_range _ _ _).mp (h ▸ hx)
  refine ⟨hb.1, by omega, ?_⟩
  rw [h, range, span_getD _ _ _ (by omega)]
  omega

/-! ## The test and the hood -/

/-- Register `n` of the hood that REFORM makes. -/
def State.reformForm (s : State) (w : Who) (k : KReg) (G : Group) (n : Nat) : Option Form :=
  if n < G.allocOf (w.xs.headD 0) && liveMask s w k n then s.laneForm w n else some {}

/-- The test of REFORM (R153). -/
def State.reforms (s : State) (w : Who) (k : KReg) (G : Group) : Prop :=
  w.gid ≠ 0 ∧ w.xs = range (w.xs.headD 0) (w.xs.headD 0 + w.xs.length) ∧ s.hoodsFree w.d w.core ≠ 0 ∧
    (w.xs.all fun x => G.roleOf (G.pos x) == G.roleOf (G.pos (w.xs.headD 0)) && G.allocOf x == G.allocOf (w.xs.headD 0)) ∧
    ((List.range 64).map (s.reformForm w k G)).all (·.isSome)

/-- The hood that it makes. -/
def State.reformHood (s : State) (w : Who) (d : Reg) (k : KReg) (G : Group) : Hood where
  lo := w.xs.headD 0
  hi := w.xs.headD 0 + w.xs.length
  ctl := (((G.lane (w.xs.headD 0)).map Lane.ctl).getD {}).advance (Instr.reform d k).use true none (w.pc + 4)
  g := vput ((List.range 64).foldl (fun v n => vput v n (((((List.range 64).map (s.reformForm w k G)).getD n none).getD {}).norm (w.xs.headD 0)
    (w.xs.headD 0 + w.xs.length))) (Vector.replicate 64 {})) d.toNat (uni 1)

theorem State.reformed_eq_some {s : State} {w : Who} {d : Reg} {k : KReg} {G : Group} {h : Hood} :
    s.reformed w d k G = some h ↔ s.reforms w k G ∧ s.reformHood w d k G = h := by
  unfold State.reformed
  exact Option.ite_some_none_eq_some

theorem reformForms_isSome (s : State) (w : Who) (k : KReg) (G : Group) (hne : w.xs ≠ []) :
    ((List.range 64).map (s.reformForm w k G)).all (·.isSome) = true ↔
      ∀ n < 64, n < G.allocOf (w.xs.headD 0) → liveMask s w k n = true → affineIn s w w.xs n := by
  simp only [List.all_map, List.all_eq_true, List.mem_range, Function.comp_apply]
  refine forall₂_congr fun n _ => ?_
  unfold State.reformForm
  split
  next hn =>
    obtain ⟨h1, h2⟩ := by simpa only [Bool.and_eq_true, decide_eq_true_eq] using hn
    rw [State.laneForm_isSome n hne]
    exact ⟨fun h _ _ => h, fun h => h h1 h2⟩
  next hn =>
    refine iff_of_true rfl fun h1 h2 => absurd ?_ hn
    rw [h2, Bool.and_true, decide_eq_true h1]

/-- A register of the hood but the result's. -/
theorem State.reformHood_g (s : State) (w : Who) {d : Reg} (k : KReg) (G : Group) {n : Nat} (hn : n < 64) (hd : n ≠ d.toNat) :
    vget (s.reformHood w d k G).g n {} = ((s.reformForm w k G n).getD {}).norm (w.xs.headD 0) (w.xs.headD 0 + w.xs.length) := by
  unfold State.reformHood
  rw [vget_vput_ne _ _ _ _ _ hd.symm, vget_foldl_vput _ _ _ hn, if_pos (List.mem_range.mpr hn)]
  congr 2
  simp [hn]

theorem reformTest : Claims.ReformTest := by
  intro s w G d k hg hne
  refine ⟨?_, fun h hh => ?_⟩
  · have hiff : (s.reformed w d k G).isSome = true ↔ s.reforms w k G := by
      rw [Option.isSome_iff_exists]
      simp only [State.reformed_eq_some, exists_and_left, exists_eq', and_true]
    rw [hiff, State.reforms, reformForms_isSome s w k G hne]
    simp only [List.all_eq_true, Bool.and_eq_true, beq_iff_eq]
  · obtain ⟨⟨-, hxs, -, -, hsome⟩, rfl⟩ := State.reformed_eq_some.mp hh
    refine ⟨rfl, rfl, rfl, rfl, vget_vput_self _ _ _ _ d.isLt, fun n hn hd => ?_⟩
    rw [State.reformHood_g s w k G hn hd]
    refine ⟨fun ⟨h1, h2⟩ x hx => ?_, fun hnot => ?_⟩
    · have hform : s.reformForm w k G n = s.laneForm w n := if_pos (by rw [h2, Bool.and_true, decide_eq_true h1])
      obtain ⟨f, hf⟩ := Option.isSome_iff_exists.mp ((State.laneForm_isSome n hne).mpr ((reformForms_isSome s w k G hne).mp hsome n hn h1 h2))
      obtain ⟨hlo, hlt, hget⟩ := getD_of_range hxs hx
      have hval := State.laneForm_value hf hlt
      rw [hget] at hval
      rw [hform, hf, Option.getD_some]
      exact (Form.at_norm f _ _ x hlo (by omega)).trans hval
    · have hform : s.reformForm w k G n = some {} := if_neg (by simpa using hnot)
      rw [hform]
      unfold Form.norm
      split <;> rfl

/-! ## What the word leaves -/

/-- What the making of a hood does to the group: the hood joins it and its lanes leave. -/
def Group.reform (h : Hood) (xs : List Nat) (G : Group) : Group :=
  ({ G with hoods := G.hoods ++ [h], lanes := G.lanes.filter fun l => !xs.contains l.x } : Group).settle

theorem Group.lane_filter (G : Group) (hs : List Hood) (xs : List Nat) (x : Nat) :
    ({ G with hoods := hs, lanes := G.lanes.filter fun l => !xs.contains l.x } : Group).lane x = if x ∈ xs then none else G.lane x := by
  unfold Group.lane
  rw [List.find?_filter]
  split
  next hx =>
    rw [List.find?_eq_none]
    intro l _
    by_cases h : l.x = x <;> simp [h, hx]
  next hx =>
    congr 1
    funext l
    by_cases h : l.x = x <;> simp [h, hx]
theorem Group.g_none_congr {G H : Group} {x : Nat} (h : G.lane x = H.lane x) (r : Nat) : G.g none x r = H.g none x r := by
  unfold Group.g
  rw [h]

theorem Group.reform_lane (h : Hood) {xs : List Nat} (G : Group) {x : Nat} (hx : x ∈ xs) : (Group.reform h xs G).lane x = none := by
  obtain ⟨c, hc, -⟩ := Group.lane_settle { G with hoods := G.hoods ++ [h], lanes := G.lanes.filter fun l => !xs.contains l.x } x
  rw [Group.reform, hc, Group.lane_filter, if_pos hx]
  rfl
theorem Group.reform_g (h : Hood) {xs : List Nat} (G : Group) {x : Nat} (hx : x ∉ xs) (r : Nat) : (Group.reform h xs G).g none x r = G.g none x r := by
  rw [Group.reform, Group.g_settle]
  exact Group.g_none_congr ((Group.lane_filter ..).trans (if_neg hx)) r

theorem Group.reform_bare (h : Hood) (xs : List Nat) (G : Group) : (Group.reform h xs G).bare = G.bare := Group.settle_bare _

theorem Group.reform_gid (h : Hood) (xs : List Nat) (G : Group) : (Group.reform h xs G).gid = G.gid := Group.settle_gid _

/-- Settling leaves range, registers and pc of every hood. -/
theorem Group.settle_hood_mem {G : Group} {h : Hood} (hm : h ∈ G.hoods) :
    ∃ h' ∈ G.settle.hoods, h'.lo = h.lo ∧ h'.hi = h.hi ∧ h'.g = h.g ∧ h'.ctl.pc = h.ctl.pc := by
  unfold Group.settle Group.settleSplits
  rw [← Group.settleJoins_hoods] at hm
  split
  · exact ⟨_, List.mem_map_of_mem hm, rfl, rfl, rfl, rfl⟩
  · exact ⟨h, hm, rfl, rfl, rfl, rfl⟩

/-- In lanes that wait for no result the word writes 0 or makes the hood. -/
theorem reformBody_lanes {s : State} {w : Who} {G : Group} (d : Reg) (k : KReg) (hg : s.group w.d w.gid = some G) (hh : w.hood = none)
    (ho : ∀ x ∈ w.xs, (G.ctlOf none x).outstanding = false) :
    reformBody d k w s = match s.reformed w d k G with
      | none => .ok (s.setLanes w w.xs d.toNat fun _ => 0) none
      | some h => .done ((s.finish { w with all := w.all.filter (!w.xs.contains ·), xs := [] } (Instr.reform d k).use none unsafePoint w.next).modGroup
          w.d w.gid (Group.reform h w.xs)) := by
  have hany : (w.xs.any fun x => (G.ctlOf none x).outstanding) = false := by simpa using ho
  simp only [reformBody, hh, hg, hany, Bool.false_eq_true, if_false]
  rfl

theorem reformMakesHood : Claims.ReformMakesHood := by
  intro s w G d k h
  refine ⟨fun hh => ?_, fun hh ho => ⟨fun hnone => ?_, fun H hsome => ?_⟩⟩
  · obtain ⟨lo, hlo⟩ := Option.ne_none_iff_exists'.mp hh
    refine threadWord_setForm h lo hlo (reformBody d k) none d.toNat d.isLt (uni 1) _ (fun x _ => by simp [Form.at, uni]) ?_
    simp [reformBody, hlo]
  · have hb := reformBody_lanes (w := s.taking w) d k h.group hh ho
    rw [hnone] at hb
    exact threadWord_setLanes h hh (reformBody d k) none d.toNat d.isLt _ hb
  · have hb := reformBody_lanes (w := s.taking w) d k h.group hh ho
    rw [hsome] at hb
    have hexec := threadWord_ready h (reformBody d k) fun t => by rw [hb]; nofun
    rw [hb] at hexec
    let out : Who := { s.taking w with all := w.all.filter (!(s.selected w).contains ·), xs := [] }
    let v : State := s.finish out (Instr.reform d k).use none unsafePoint w.next
    obtain ⟨G', hG'⟩ : ∃ G', v.group w.d w.gid = some G' := by
      refine ⟨_, (congrArg (State.group · w.d w.gid) (State.finish_eq ..)).trans ((State.group_modGroup s w.d w.gid _ ?_).trans (by rw [h.group]; rfl))⟩
      intro G
      simp
    refine ⟨v.modGroup w.d w.gid (Group.reform H (s.selected w)), Group.reform H (s.selected w) G', hexec, ?_, ?_, ?_, fun x hx => Group.reform_lane H G' hx,
      fun x r hx => ?_⟩
    · exact (State.still_modGroup v w _ (Group.reform_bare H _)).trans (State.finish_still s out ..)
    · rw [State.group_modGroup v w.d w.gid _ (Group.reform_gid H _), hG']
      rfl
    · obtain ⟨-, rfl⟩ := State.reformed_eq_some.mp hsome
      exact Group.settle_hood_mem (List.mem_append_right _ (.head _))
    · rw [State.g_modGroup v w _ (Group.reform_gid H _), hG']
      refine (Group.reform_g H G' hx r).trans (Eq.trans ?_ (State.finish_g s out (Instr.reform d k).use none unsafePoint w.next none x r))
      show G'.g none x r = v.g { w with hood := none } x r
      unfold State.g
      simp only [hG']

/-- Settles O10: the hood's forms are those of its lanes, and the rest of the group stays. -/
theorem reformWord : Obligations.ReformWord := ⟨reformTest, reformMakesHood⟩
end Sys2Proof.Machine
end

section
/-! PROOFS. Control words of carder programs, and hints (R19, R25 to R27, R36, R57). -/
namespace Sys2Proof.Machine
open Sys2Proof.Claims

/-! ## Carder programs -/

theorem branchTo_eq (pc : DWord) (off : BitVec 19) : branchTo pc off = branchTarget pc off := by
  unfold branchTo branchTarget
  rw [Int.mul_comm, BitVec.ofInt_add, BitVec.ofInt_mul, BitVec.ofInt_toInt]
  rfl

/-- A carder that stands ready performs a jump. -/
theorem carderWord_jumps {s : State} {i : Instr} {d : DieId} {inst : Nat} (h : CarderReady s i d inst) {body : Who → State → Eff}
    {cbody : DieId → Nat → Carder → List Hint → State → CEff} {k : Carder} {tgt : DWord} (hexec : exec i s = sharedWord i body cbody s)
    (hb : let c := (s.die d).carder inst
      cbody d inst c c.ctl.chain s = .jump s k tgt) :
    ∃ t, exec i s = .next t ∧ CarderGoes t s d inst k.c tgt := by
  refine ⟨_, hexec.trans ((sharedWord_carder h body cbody).trans ?_), rfl⟩
  rw [hb]

/-- RET and BRX of a carder program. -/
theorem carderReturn {s : State} {i : Instr} {d : DieId} {inst : Nat} (h : CarderReady s i d inst) {body : Who → State → Eff} {r : Reg}
    (hexec : exec i s = sharedWord i body (cretBody r) s) :
    let c := (s.die d).carder inst
    ((vget c.c r.toNat 0).toNat % 4 = 0 → ∃ t, exec i s = .next t ∧ CarderGoes t s d inst c.c (vget c.c r.toNat 0)) ∧
    ((vget c.c r.toNat 0).toNat % 4 ≠ 0 → exec i s = .next (s.card d inst Cause.align c.ctl.pc (vget c.c r.toNat 0))) := by
  intro c
  refine ⟨fun hal => carderWord_jumps h hexec (if_neg (not_not_intro hal)), fun hal => ?_⟩
  rw [hexec, sharedWord_carder h body (cretBody r)]
  have hb : cretBody r d inst c c.ctl.chain s = .trap Cause.align (vget c.c r.toNat 0) := if_pos hal
  rw [hb]

theorem controlWordsOnCarders : Claims.ControlWordsOnCarders := by
  intro s d inst c goes
  refine ⟨fun off h => ?_, fun r off h => ?_, fun r off h => ?_, fun r i hi h => ?_, fun h => ?_⟩
  · rw [← branchTo_eq]
    exact carderWord_jumps h rfl rfl
  · rw [← branchTo_eq]
    exact carderWord_jumps h rfl rfl
  · rw [← branchTo_eq]
    exact carderWord_jumps h rfl rfl
  · obtain rfl | rfl := hi <;> exact carderReturn h rfl
  · exact ⟨_, sharedWord_carder h (fun _ s => .ok s none) cskip, rfl⟩

/-! ## Hints -/

theorem hintOf_exec {i : Instr} {h : Hint} (hi : hintOf i = some h) (s : State) : exec i s = hintWord i h s := by
  cases i with
  | hintImmhi | hintOrd | hintMerge | hintFmtx | hintLife | hintPred => cases hi; rfl
  | _ => cases hi
/-- A predicate's register lies beyond an allocation of `n`. -/
def Hint.beyond (h : Hint) (n : Nat) : Bool :=
  match h with
  | .pred g => decide (n ≤ g.toNat)
  | _ => false
/-- A hint cannot join the chain of a carder program (R25, R26). -/
def Carder.badHint (c : Carder) (i : Instr) (h : Hint) : Bool :=
  !i.carderShared || !i.use.ok || c.ctl.chain.any (fun g => g.kind == h.kind) || h.beyond 32
theorem hintCarder_joins {s : State} {i : Instr} {h : Hint} {d : DieId} {inst : Nat} (hb : ((s.die d).carder inst).badHint i h = false) :
    let c := (s.die d).carder inst
    hintCarder i h d inst s = s.modCarder d inst fun o => { o with ctl := { o.ctl with
      pc := c.ctl.pc + 4, chain := o.ctl.chain ++ [h], chainPc := if c.ctl.chain = [] then c.ctl.pc else c.ctl.chainPc } } := by
  intro c
  simp only [← List.isEmpty_iff (l := c.ctl.chain)]
  exact if_neg (ne_true_of_eq_false hb)
/-- The hints that a carder program may have. -/
theorem hintOf_carder {i : Instr} {h : Hint} (hi : hintOf i = some h) (hc : (∃ v, h = .immhi v) ∨ ∃ g, h = .pred g ∧ g.toNat < 32) :
    i.carderShared = true ∧ i.use.ok = true ∧ h.beyond 32 = false := by
  obtain ⟨v, rfl⟩ | ⟨g, rfl, hg⟩ := hc
  · cases i with
    | hintImmhi => exact ⟨rfl, rfl, rfl⟩
    | _ => cases hi
  · cases i with
    | hintPred => cases hi; exact ⟨rfl, rfl, decide_eq_false (by omega)⟩
    | _ => cases hi

theorem carderHintsJoinChain : Claims.CarderHintsJoinChain := by
  intro s i h d inst hi hcur c hfresh hkind
  obtain ⟨hshared, hok, hreg⟩ := hintOf_carder hi hkind
  have hnone : (c.ctl.chain.any fun g => g.kind == h.kind) = false := by simpa using hfresh
  have hbad : c.badHint i h = false := by
    rw [Carder.badHint, hshared, hok, hnone, hreg]
    rfl
  rw [hintOf_exec hi, ← hintCarder_joins hbad]
  simp only [hintWord, hcur]

/-- Settles O19: each carder jump names its target, and the chain's checks pass. -/
theorem carderControl : Obligations.CarderControl := ⟨controlWordsOnCarders, carderHintsJoinChain⟩

theorem hintWord_who {s : State} {w : Who} (hw : s.who s.cur = some w) (i : Instr) (h : Hint) : hintWord i h s = .next (hintThread i h w s) := by
  unfold hintWord
  cases hcur : s.cur with
  | none | carder => rw [hcur] at hw; cases hw
  | _ => rw [hcur] at hw; simp only [hw]

/-- The indices at which a hint cannot join the chain (R25, R26). -/
def Who.badHint (w : Who) (i : Instr) (h : Hint) (G : Group) (x : Nat) : Bool :=
  !i.use.ok || (w.hintsAt x).any (fun g => g.kind == h.kind) || h.beyond (G.allocOf x)

theorem Who.failing_eq_nil {w : Who} {p : Nat → Bool} (h : ∀ x ∈ w.all, p x = false) : w.failing p = [] := by
  unfold Who.failing
  split
  · rw [if_neg]
    simpa using h
  · simpa using h
theorem Who.failing_of_exists {w : Who} {p : Nat → Bool} (h : ∃ x ∈ w.all, p x = true) :
    w.failing p = (if w.hood.isSome then w.all else w.all.filter p) ∧ w.failing p ≠ [] := by
  obtain ⟨x, hx, hp⟩ := h
  unfold Who.failing
  split
  · rw [if_pos (List.any_eq_true.mpr ⟨x, hx, hp⟩)]
    exact ⟨rfl, List.ne_nil_of_mem hx⟩
  · exact ⟨rfl, List.ne_nil_of_mem (List.mem_filter.mpr ⟨hx, hp⟩)⟩

theorem HintReady.badHint {s : State} {i : Instr} {h : Hint} {w : Who} {G : Group} (hr : HintReady s i h w G) {x : Nat} (hx : x ∈ w.all) :
    w.badHint i h G x = false := by
  unfold Who.badHint
  rw [hr.ok, hr.fresh x hx]
  cases h with
  | pred g => simpa [Hint.beyond] using hr.reg g rfl x hx
  | _ => rfl

/-- A hint joins the chain of a thread that stands at `pc`. -/
def Ctl.joinHint (pc : DWord) (h : Hint) (c : Ctl) : Ctl := { c with pc := pc + 4, chain := c.chain ++ [h], chainPc := c.stepPc, age := 0 }
theorem Ctl.joinHint_chainPc (pc : DWord) (h : Hint) (c : Ctl) : (c.joinHint pc h).chainPc = if c.chain = [] then c.pc else c.chainPc := by
  simp only [Ctl.joinHint, Ctl.stepPc, List.isEmpty_iff]

theorem hintThread_joins {s : State} {i : Instr} {h : Hint} {w : Who} {G : Group} (hg : s.group w.d w.gid = some G)
    (hnil : w.failing (w.badHint i h G) = []) : hintThread i h w s = s.modCtl w fun _ => Ctl.joinHint w.pc h := by
  unfold hintThread
  rw [hg]
  refine if_neg ?_
  show ¬(!(w.failing (w.badHint i h G)).isEmpty) = true
  rw [hnil]
  decide
theorem hintThread_traps {s : State} {i : Instr} {h : Hint} {w : Who} {G : Group} (hg : s.group w.d w.gid = some G)
    (hne : w.failing (w.badHint i h G) ≠ []) : hintThread i h w s =
      s.trap w { cause := Cause.ill, xs := w.failing (w.badHint i h G), pc := some (w.chainPcAt ((w.failing (w.badHint i h G)).headD 0)) } := by
  unfold hintThread
  rw [hg]
  refine if_pos ?_
  show (!(w.failing (w.badHint i h G)).isEmpty) = true
  simpa using hne

theorem hintsJoinChain : Claims.HintsJoinChain := by
  intro s i h w G hi hr
  obtain ⟨hold, -⟩ := State.who_holds hr.who hr.group
  have hthread := hintThread_joins hr.group (Who.failing_eq_nil fun x hx => hr.badHint hx)
  refine ⟨_, (hintOf_exec hi s).trans ((hintWord_who hr.who i h).trans (congrArg _ hthread)), ?_, fun k x r => ?_, fun x hx => ?_⟩
  · exact State.still_modGroup s w _ fun G => Group.modCtl_bare ..
  · refine (State.g_modGroup s w _ (fun G => Group.modCtl_gid ..) k x r).trans ?_
    unfold State.g
    rw [hr.group]
    exact Group.g_modCtl ..
  · obtain ⟨y, hy, -⟩ := Group.ctlOf_modCtl G w (fun _ => Ctl.joinHint w.pc h) hold x hx
    have hs : s.ctlAt w x = G.ctlOf w.hood x := by simp only [State.ctlAt, hr.group]
    have ht : (s.modCtl w fun _ => Ctl.joinHint w.pc h).ctlAt w x = (s.ctlAt w x).joinHint w.pc h := by
      rw [hs, ← hy]
      refine (State.ctlAt_modGroup s w _ (fun G => Group.modCtl_gid ..) x).trans ?_
      rw [hr.group]
    rw [ht]
    exact ⟨rfl, rfl, Ctl.joinHint_chainPc ..⟩

theorem badChainsTrapIll : Claims.BadChainsTrapIll := by
  intro s i h w G hi hw hg bad xs hex
  obtain ⟨heq, hne⟩ := Who.failing_of_exists (p := w.badHint i h G) hex
  have heq' : w.failing (w.badHint i h G) = xs := heq
  rw [hintOf_exec hi, hintWord_who hw, hintThread_traps hg hne, heq']

/-- Settles O20: the indices at which the hint cannot join are those that the trap names, and without one it joins everywhere. -/
theorem hintWords : Obligations.HintWords := ⟨hintsJoinChain, badChainsTrapIll⟩
end Sys2Proof.Machine
end

section
/-! PROOFS. What a thread or a carder must not issue traps (R20, R22, R25, R26, R35 to R37, R82, R106, R311). -/
namespace Sys2Proof.Machine
open Sys2Proof.Claims

/-- Every word of the encoding but the hints is performed by the threads that issue it, or by a carder, after the checks. -/
theorem exec_eq_issued {i : Instr} (he : i.encoded = true) (hh : hintOf i = none) :
    ∃ (body : Who → State → Eff) (cbody : DieId → Nat → Carder → List Hint → State → CEff), ∀ s, exec i s = issued i body cbody s := by
  cases i with
  | hintImmhi | hintOrd | hintMerge | hintFmtx | hintLife | hintPred => cases hh
  | carderCommandStart | unitLanding | mergeHoldTimeout | launchStart | groupPlacement | workSteal | groupEnd | launchEnd | binTimerExpiry | binDrain
  | queueMiss | atomicPerform | syncReplyLanding | interestArrival | tileHeaderArrival | withdrawalArrival | pendingDeadline | offerHeaderArrival
  | offerChunkArrival | retentionExpiry | chunkLanding | interestLifetimeExpiry | sessionJoin | sessionClose | sessionResultWrite | migrationComplete
  | migctlWrite | tileWordPerform | haltComplete | eventDelivery | tsliceExpiry | tsliceWrite | tpendClear | haltreq | stepHalt | contextSwap | swapComplete
  | shadowSave | shadowLoad | shadowCreate | shadowOpComplete | malformedWord | podGenerationOpen | podCombinedArrival | podPhaseCount | podRelease
  | linkFlitError | laneSparing | headerCrcFailure | migrationStart | partitionLayoutWrite | powerOnBringup | bringupTimeout | thermalThrottle
  | thermalShutdown | routerFailure | eccUncorrectable | softErrorCorrected | loaderLoad | loaderIcinv | loaderReadatt | loaderInvalidCommand
  | translationPublish | spdmMeasurements | keySlotWrite | podRouteTableWrite | coreFailure => cases he
  | _ => exact ⟨_, _, fun _ => rfl⟩

/-! ## The checks before a word -/

/-- A hint of the chain of index `x` does not accept the word. -/
def Who.strays (w : Who) (i : Instr) (x : Nat) : Bool := (w.hintsAt x).any fun h => !h.accepts i

theorem refusedAt_eq (G : Group) (w : Who) (u : Use) (x : Nat) : refusedAt G w u x = (G.beyond u x || G.inWindow w u x) := by
  unfold refusedAt Group.beyond Group.inWindow
  congr 1
  refine congrArg (List.any _) (funext fun win => ?_)
  have hregs : (fun n => u.names.contains n || (match predOf (w.hintsAt x) with | some g => n == .g g.toNat | none => false)) =
      (u.names ++ (match predOf (w.hintsAt x) with | some g => [RegName.g g.toNat] | none => [])).contains := by
    funext n
    rw [List.contains_append]
    cases predOf (w.hintsAt x) with
    | none => rfl
    | some g => simp [Bool.beq_eq_decide_eq]
  have hlive : (win.left != 0) = decide (win.left ≠ 0) := by by_cases hl : win.left = 0 <;> simp [hl]
  rw [hlive]
  exact congrArg (fun f => decide (win.left ≠ 0) && win.regs.any f) hregs

section
variable {s : State} {w : Who} {i : Instr} {G : Group}

theorem State.precheck_strays (hg : s.group w.d w.gid = some G) (h : ∃ x ∈ w.all, w.strays i x = true) :
    s.precheck w i = some
      { cause := Cause.ill, xs := w.naming (namesLowest i) (w.failing (w.strays i))
        pc := some (w.chainPcAt ((w.failing (w.strays i)).headD 0)) } := by
  unfold State.precheck
  rw [hg]
  refine if_pos ?_
  show (!(w.failing (w.strays i)).isEmpty) = true
  simpa using (Who.failing_of_exists h).2

/-- The checks after that of the hints. -/
theorem State.precheck_of_accepted (hg : s.group w.d w.gid = some G) (h : ∀ x ∈ w.all, w.strays i x = false) (hne : s.selected w ≠ []) :
    s.precheck w i =
      if !i.wellFormed || i.carderOnly then some { cause := Cause.ill, xs := w.naming (namesLowest i) (s.selected w) }
      else
        let bad := ({ w with all := s.selected w } : Who).failing (refusedAt G w i.use)
        if !bad.isEmpty then some { cause := Cause.ill, xs := w.naming (namesLowest i) bad }
        else if i.supervisor && w.gid ≠ 0 then some { cause := Cause.priv, xs := w.naming (namesLowest i) (s.selected w) }
        else none := by
  have hnil : w.failing (w.strays i) = [] := Who.failing_eq_nil h
  rw [funext (refusedAt_eq G w i.use)]
  unfold State.precheck
  rw [hg]
  refine (if_neg ?_).trans (if_neg (by simpa using hne))
  show ¬(!(w.failing (w.strays i)).isEmpty) = true
  rw [hnil]
  decide

/-- A word that fails its checks traps. -/
theorem exec_of_precheck {t : Trap} (he : i.encoded = true) (hh : hintOf i = none) (hw : s.who s.cur = some w) (hp : s.precheck w i = some t) :
    exec i s = .next (s.trap w t) := by
  obtain ⟨body, cbody, hexec⟩ := exec_eq_issued he hh
  rw [hexec, issued_who hw, runThread, hp]

end

/-! ## Words that are none -/

theorem takes_eq_acceptsOp (op : Option Nat) : Hint.takes op = acceptsOp op := by
  funext h
  cases h with
  | fmtx => cases op <;> rfl
  | _ => rfl
theorem strays_eq (op : Option Nat) (hs : List Hint) : strays op hs = (op == some 0x7F || !hs.all (acceptsOp op)) := by
  rw [strays, takes_eq_acceptsOp]
theorem strays_iff {op : Option Nat} {hs : List Hint} : strays op hs = true ↔ op = some 0x7F ∨ ∃ h ∈ hs, acceptsOp op h = false := by
  simp [strays_eq]

/-- What a thread does at a word that is none. -/
theorem execMalformedWord_who {s : State} {w : Who} (hw : s.who s.cur = some w) :
    let op := s.opAt w.d w.core (w.gid = 0) w.pc
    let astray := w.failing fun x => op == some 0x7F || !(w.hintsAt x).all (acceptsOp op)
    exec .malformedWord s = .next (if !astray.isEmpty then
        s.trap w { cause := Cause.ill, xs := w.naming (op == some 0x58) astray, pc := some (w.chainPcAt (astray.headD 0)) }
      else if (s.selected w).isEmpty then s.skip w {}
      else s.trap w { cause := Cause.ill, xs := w.naming (op == some 0x58) (s.selected w), pc := some w.pc }) := by
  intro op astray
  have hstrays : (fun x => strays op (w.hintsAt x)) = fun x => op == some 0x7F || !(w.hintsAt x).all (acceptsOp op) := funext fun x => strays_eq ..
  show execMalformedWord s = _
  unfold execMalformedWord
  cases hcur : s.cur with
  | none | carder => rw [hcur] at hw; cases hw
  | _ =>
    rw [hcur] at hw
    simp only [hw]
    rw [hstrays]

/-- Threads that no predicate leaves pass a word. -/
theorem skip_goes {s : State} {w : Who} {G : Group} (hw : s.who s.cur = some w) (hg : s.group w.d w.gid = some G) :
    Goes s (s.skip w {}) s w noReg w.next := by
  obtain ⟨still, regs, others, pc, chain⟩ := Goes.finish (s := s) (u := s) (w := { w with xs := [] }) (v := noReg) {} none unsafePoint w.next w.next hg
    (State.who_holds hw hg).1 rfl (fun _ _ _ => rfl) (fun _ _ _ _ => rfl) fun x hx y hl hh => by simp [Who.next]
  exact ⟨still, regs, others, pc, chain⟩

theorem wordsTrapIllAndPriv : Claims.WordsTrapIllAndPriv := by
  intro s i w G hw hg P low named astray op odd tile named58 ill
  have hmal := execMalformedWord_who hw
  refine ⟨fun he hh => ⟨fun hex => ?_, fun hno hP => ⟨fun hbad => ?_, fun hwell hcarder => ⟨fun hex => ?_, fun hno' hsup hgid => ?_⟩⟩⟩,
    fun hex => ?_, fun hno hP => ?_, fun hno hP hne => ?_⟩
  · have hp := State.precheck_strays hg hex
    have hnamed : w.failing (w.strays i) = named astray w.all := (Who.failing_of_exists hex).1
    rw [hnamed] at hp
    exact exec_of_precheck he hh hw hp
  · have hp := State.precheck_of_accepted hg hno hP
    rw [if_pos (by simpa using hbad)] at hp
    exact exec_of_precheck he hh hw hp
  · have hp := State.precheck_of_accepted hg hno hP
    obtain ⟨hnamed, hsome⟩ := Who.failing_of_exists (w := { w with all := P }) hex
    rw [if_neg (by simp [hwell, hcarder])] at hp
    have hp := hp.trans (if_pos (by simpa using hsome))
    rw [hnamed] at hp
    exact exec_of_precheck he hh hw hp
  · have hp := State.precheck_of_accepted hg hno hP
    have hnil := Who.failing_eq_nil (w := { w with all := P }) hno'
    rw [if_neg (by simp [hwell, hcarder])] at hp
    have hp := hp.trans ((if_neg (by rw [hnil]; decide)).trans (if_pos (by simp [hsup, hgid])))
    exact exec_of_precheck he hh hw hp
  · obtain ⟨hnamed, hsome⟩ := Who.failing_of_exists hex
    refine hmal.trans (congrArg _ ((if_pos (by simpa using hsome)).trans ?_))
    rw [hnamed]
    rfl
  · have hnil := Who.failing_eq_nil hno
    exact hmal.trans (congrArg _ ((if_neg (by rw [hnil]; decide)).trans (if_neg (by simpa using hP))))
  · have hnil := Who.failing_eq_nil hno
    exact ⟨_, hmal.trans (congrArg _ ((if_neg (by rw [hnil]; decide)).trans (if_pos (by rw [List.isEmpty_iff]; exact hP)))), skip_goes hw hg⟩

/-! ## Carders -/

/-- The predicate of a carder's chain excludes the word (R270). -/
def Carder.excluded (c : Carder) : Bool :=
  match predOf c.ctl.chain with
  | some g => !(vget c.c g.toNat 0).getLsbD 0
  | none => false
theorem Carder.excluded_iff (c : Carder) : c.excluded = true ↔ ∃ g, predOf c.ctl.chain = some g ∧ (vget c.c g.toNat 0).getLsbD 0 = false := by
  unfold Carder.excluded
  cases predOf c.ctl.chain <;> simp
/-- The PC of the first word of a carder's chain. -/
def Carder.firstPc (c : Carder) : DWord := if c.ctl.chain = [] then c.ctl.pc else c.ctl.chainPc
theorem Carder.firstPc_eq (c : Carder) : (if c.ctl.chain.isEmpty then c.ctl.pc else c.ctl.chainPc) = c.firstPc := by
  simp only [Carder.firstPc, List.isEmpty_iff]

section
variable {s : State} {i : Instr} {d : DieId} {inst : Nat}

/-- A carder's word before its body: it raises CARD, or is passed. -/
theorem exec_carder (he : i.encoded = true) (hh : hintOf i = none) (hcur : s.cur = .carder d inst) :
    let c := (s.die d).carder inst
    (c.ctl.chain.any (fun h => !h.accepts i) = true → exec i s = .next (s.card d inst Cause.ill c.firstPc 0)) ∧
    (c.ctl.chain.any (fun h => !h.accepts i) = false →
      (i.carderOk = false → c.excluded = false → exec i s = .next (s.card d inst Cause.ill c.ctl.pc 0)) ∧
      (c.excluded = true → ∃ t, exec i s = .next t ∧ CarderGoes t s d inst c.c (c.ctl.pc + 4))) := by
  intro c
  obtain ⟨body, cbody, hexec⟩ := exec_eq_issued he hh
  have hrun : exec i s = .next (runCarder i d inst (cbody d inst) s) := by
    rw [hexec, issued, hcur]
  rw [hrun]
  refine ⟨fun hbad => ?_, fun hok => ⟨fun hcarder hin => ?_, fun hout => ?_⟩⟩
  · rw [← Carder.firstPc_eq]
    exact congrArg _ (if_pos hbad)
  · have hraise : (!i.carderOk && !c.excluded) = true := by rw [hcarder, hin]; rfl
    exact congrArg _ ((if_neg (ne_true_of_eq_false hok)).trans (if_pos hraise))
  · have hpass : ¬(!i.carderOk && !c.excluded) = true := by rw [hout]; simp
    exact ⟨_, congrArg _ ((if_neg (ne_true_of_eq_false hok)).trans ((if_neg hpass).trans (if_pos hout))), rfl⟩

/-- What a carder does at a word that is none. -/
theorem execMalformedWord_carder (hcur : s.cur = .carder d inst) :
    let c := (s.die d).carder inst
    let stray := strays (s.opAt d (carderAgent inst) (match c.current with | some q => q.sup | none => false) c.ctl.pc) c.ctl.chain
    (stray = true → exec .malformedWord s = .next (s.card d inst Cause.ill c.firstPc 0)) ∧
    (stray = false → c.excluded = false → exec .malformedWord s = .next (s.card d inst Cause.ill c.ctl.pc 0)) := by
  intro c stray
  have hexec : exec .malformedWord s = if (!stray && c.excluded) = true then
      .next (s.modCarder d inst fun o => { o with p0 := 0, p1 := 0, p2 := 0, ctl := { o.ctl with pc := c.ctl.pc + 4, chain := [], stepped := true } })
      else .next (s.card d inst Cause.ill (if stray then c.firstPc else c.ctl.pc) 0) := by
    show execMalformedWord s = _
    rw [← Carder.firstPc_eq, execMalformedWord, hcur]
    rfl
  rw [hexec]
  exact ⟨fun hs => by simp [hs], fun hs hin => by simp [hs, hin]⟩
end

theorem hintOf_notCarder {i : Instr} {h : Hint} (hi : hintOf i = some h) (himm : ∀ v, h ≠ .immhi v) (hpred : ∀ g, h ≠ .pred g) :
    i.carderShared = false := by
  cases i with
  | hintImmhi v => cases hi; exact absurd rfl (himm v)
  | hintPred g => cases hi; exact absurd rfl (hpred g)
  | hintOrd | hintMerge | hintFmtx | hintLife => rfl
  | _ => cases hi

theorem carderProfileHolds : Claims.CarderProfileHolds := by
  intro s i d inst hcur _ c chainPc excluded sup raises
  have hin : ¬excluded → c.excluded = false := fun h => eq_false_of_ne_true fun h' => h (c.excluded_iff.mp h')
  have hacc : ∀ {i : Instr}, (∀ h ∈ c.ctl.chain, h.accepts i = true) → c.ctl.chain.any (fun h => !h.accepts i) = false := fun h => by simpa using h
  refine ⟨fun he hh hbad => ?_, fun he hh hok hcarder hex => ?_, fun he hh hok hex => ?_, fun h hi himm hpred => ?_, fun hop hok hex => ?_, fun hbad => ?_,
    fun q hq => ?_⟩
  · exact (exec_carder he hh hcur).1 (by simpa using hbad)
  · exact ((exec_carder he hh hcur).2 (hacc hok)).1 hcarder (hin hex)
  · exact ((exec_carder he hh hcur).2 (hacc hok)).2 (c.excluded_iff.mpr hex)
  · have hshared := hintOf_notCarder hi himm hpred
    show exec i s = _
    have hbad : c.badHint i h = true := by simp [Carder.badHint, hshared]
    rw [hintOf_exec hi, hintWord, hcur]
    refine congrArg _ ((if_pos hbad).trans ?_)
    rw [hshared]
    rfl
  · refine (execMalformedWord_carder hcur).2 (eq_false_of_ne_true fun hs => ?_) (hin hex)
    obtain hop' | ⟨h, hm, hh⟩ := strays_iff.mp hs
    · exact hop hop'
    · exact absurd (hok h hm) (ne_true_of_eq_false hh)
  · exact (execMalformedWord_carder hcur).1 (strays_iff.mpr hbad)
  · unfold State.card
    have hq' : ((s.die d).carder inst).current = some q := hq
    rw [hq']
    exact congrArg s.raiseFault (if_neg (by decide))

/-- Settles O38: every word of the encoding is performed after the checks (`exec_eq_issued`), and a word that is none by its own arm. -/
theorem illAndPriv : Obligations.IllAndPriv := ⟨wordsTrapIllAndPriv, carderProfileHolds⟩

end Sys2Proof.Machine
end

section
/-! PROOFS. The statement on main-memory loads (R355, R358) turns on a free choice that the model leaves open: of a GLD that meets a line in error it knows the
supervisor wave by the agent's group number, the model by the group's own. With `G.gid = gid` as a hypothesis of that clause the two agree. -/
namespace Sys2Proof.Machine
open Sys2Proof.Claims

/-- The GLDs of the supervisor wave of die 0. -/
def State.svGlds (s : State) : List Gld := (s.die 0).sv.glds

theorem State.svWrite_svGlds (s : State) (d : DieId) (a : Nat) (bs : List Byte) : (s.svWrite d a bs).svGlds = s.svGlds := by
  unfold State.svGlds State.svWrite
  by_cases h : d = 0
  · subst h; rw [State.die_modDie]
  · rw [State.die_modDie_ne _ _ _ _ h]
theorem State.raiseFault_svGlds (s : State) (f : FaultRec) : (s.raiseFault f).svGlds = s.svGlds := by
  unfold State.raiseFault
  dsimp only
  rw [apply_ite State.svGlds, State.svWrite_svGlds]
  exact ite_self _
theorem State.raiseSv_svGlds (s : State) (f : FaultRec) : (s.raiseSv 0 f).svGlds = s.svGlds := by
  unfold State.raiseSv
  rw [← State.svWrite_svGlds s 0 svTrapFrameAt]
  unfold State.svGlds
  rw [State.die_modDie]
  rfl

/-- A GLD at micro-step 2, its data in a line in error. -/
def halfwayGld (id : Nat) : Gld where
  id := id
  hood := false
  xs := [0]
  pc := 0
  chainPc := 0
  chain := []
  ga := 0
  gd := 0
  regs := 1
  bytes := 4
  step := 2
  inst := 0
  vas := [(0, 0)]
  das := [(0, 0)]

/-- The supervisor wave of die 0 has a group number of its own other than 0. -/
def misnumberedWave (n id : Nat) : State :=
  { State.reset with seq := n, issue := [.gld 0 0 id, .none], badLines := [0] }.modDie 0 fun _ => { sv := { gid := 1, glds := [halfwayGld id] } }

/-- The state in which the GLD's step is made. -/
def misnumberedIssued (n id : Nat) : State := { misnumberedWave n id with issue := [.none] }
theorem misnumberedIssued_die (n id : Nat) : (misnumberedIssued n id).die 0 = { sv := { gid := 1, glds := [halfwayGld id] } } :=
  State.die_modDie { State.reset with seq := n, issue := [.none], badLines := [0] } 0 fun _ => { sv := { gid := 1, glds := [halfwayGld id] } }
theorem misnumberedIssued_group (n id : Nat) : (misnumberedIssued n id).group 0 0 = some { gid := 1, glds := [halfwayGld id] } := by
  unfold State.group
  rw [misnumberedIssued_die]
  rfl
theorem misnumberedIssued_find (id : Nat) : ([halfwayGld id].find? fun q => q.id == id) = some (halfwayGld id) := by simp [halfwayGld]

/-- Within a core cycle a step leaves the GLDs as the word left them. -/
theorem svGlds_of_after {t u : State} (ht : t.issue = [.none]) (hu : u.issue = [.none]) (h : after (.next t) = after (.next u)) : t.svGlds = u.svGlds := by
  rw [after_next, after_next, if_neg (by simp [ht]), if_neg (by simp [hu])] at h
  injection h with h
  have hglds := congrArg State.svGlds h
  exact hglds

theorem misnumberedIssued_badAt (n id : Nat) : (misnumberedIssued n id).badAt 0 = true := rfl
theorem misnumberedIssued_stalled (n id da : Nat) : (misnumberedIssued n id).stalled da = false := Bool.and_false _
/-- The model raises the fault as a tenant's. -/
theorem misnumberedWave_gldStep {n id : Nat} (hhit : Config.hit n id = true) :
    ∃ (t : State) (f : FaultRec), (misnumberedIssued n id).gldStep 0 0 id = t.raiseFault f ∧ t.svGlds = [halfwayGld id] ∧ t.issue = [.none] := by
  have hh : (misnumberedIssued n id).hit id = true := hhit
  have hfault : ∃ t, (misnumberedIssued n id).gldStep 0 0 id =
      (misnumberedIssued n id).gldFault 0 { gid := 1, glds := [halfwayGld id] } (halfwayGld id) t := by
    unfold State.gldStep
    rw [misnumberedIssued_group]
    simp only [misnumberedIssued_find]
    simp [halfwayGld, hh, misnumberedIssued_stalled, misnumberedIssued_badAt, firstFault]
  obtain ⟨t, ht⟩ := hfault
  refine ⟨(misnumberedIssued n id).modGroup 0 1 fun G => G.rewind (halfwayGld id) (if G.gid = 0 then .none else .fault),
    (misnumberedIssued n id).faultRec ((halfwayGld id).who 0 { gid := 1, glds := [halfwayGld id] }) t, ht.trans rfl, ?_, rfl⟩
  unfold State.svGlds State.modGroup
  rw [State.die_modDie, misnumberedIssued_die]
  rfl

/-- The statement fails if `Config.hit` ever holds, and of an `opaque` choice neither that nor its contrary can be proved: so it stays open. -/
theorem not_mainMemoryLoad_of_hit {n id : Nat} (hhit : Config.hit n id = true) : ¬ Obligations.MainMemoryLoad := by
  rintro ⟨-, hsteps⟩
  obtain ⟨-, -, -, hbad, -⟩ := hsteps (misnumberedWave n id) 0 0 id [.none] { gid := 1, glds := [halfwayGld id] } (halfwayGld id) rfl
    (misnumberedIssued_group n id) (misnumberedIssued_find id)
  have hgo : ¬((misnumberedIssued n id).hit id = false ∨ ∃ p ∈ (halfwayGld id).das, (misnumberedIssued n id).stalled p.2 = true) := by
    rintro (hmiss | ⟨p, -, hstall⟩)
    · exact absurd hmiss (ne_false_of_eq_true hhit)
    · exact absurd hstall (ne_true_of_eq_false (misnumberedIssued_stalled n id p.2))
  obtain ⟨f, -, -, -, hstep⟩ := hbad rfl hgo ⟨0, .head _, misnumberedIssued_badAt n id⟩
  obtain ⟨t, f', hgld, hglds, hissue⟩ := misnumberedWave_gldStep hhit
  have hmodel : step (misnumberedWave n id) = after (.next ((misnumberedIssued n id).gldStep 0 0 id)) := step_issue (s := misnumberedWave n id) rfl
  rw [hmodel, hgld, if_pos rfl] at hstep
  have heq := svGlds_of_after ((congrArg State.issue (State.Signals.raiseFault t f').rest).trans hissue)
    (congrArg State.issue (State.Signals.raiseSv _ 0 f).rest) hstep
  rw [State.raiseFault_svGlds, hglds, State.raiseSv_svGlds] at heq
  unfold State.svGlds State.modGroup at heq
  rw [State.die_modDie] at heq
  have hdie : ({ misnumberedWave n id with issue := [.none] } : State).die 0 = _ := misnumberedIssued_die n id
  rw [hdie] at heq
  simp [Die.modGroup, takenBack] at heq
end Sys2Proof.Machine
end

section
/-! PROOFS. What leaves main memory as it is (R42, R43): the functions of the model that do not write there. -/
namespace Sys2Proof.Machine
open Sys2Proof.Claims

theorem foldl_mem {α : Type} {f : State → α → State} (hf : ∀ (s : State) a, (f s a).mem = s.mem) (l : List α) (s : State) : (l.foldl f s).mem = s.mem := by
  induction l generalizing s with
  | nil => rfl
  | cons a l ih => exact (ih _).trans (hf s a)

section
variable (s : State)

/-! ### Shared operations -/

@[simp] theorem State.svWrite_mem (d : DieId) (a : Nat) (bs : List Byte) : (s.svWrite d a bs).mem = s.mem := rfl
@[simp] theorem State.raiseEvent_mem (p : PartId) (c : Cause) : (s.raiseEvent p c).mem = s.mem := rfl
@[simp] theorem State.raiseFault_mem (f : FaultRec) : (s.raiseFault f).mem = s.mem := (State.Signals.raiseFault s f).mem
@[simp] theorem State.raiseSv_mem (d : DieId) (f : FaultRec) : (s.raiseSv d f).mem = s.mem := rfl
@[simp] theorem State.deliver_mem (d : DieId) : (s.deliver d).mem = s.mem := by
  unfold State.deliver
  split <;> rfl
@[simp] theorem State.deliverAgain_mem (d : DieId) : (s.deliverAgain d).mem = s.mem := by simp [State.deliverAgain]
@[simp] theorem State.inSkid_mem (d : DieId) (f : Die → Die) : (s.inSkid d f).mem = s.mem := by
  unfold State.inSkid
  dsimp only
  split <;> rfl
@[simp] theorem State.modCtl_mem (w : Who) (f : Nat → Ctl → Ctl) : (s.modCtl w f).mem = s.mem := rfl
@[simp] theorem State.setK_mem (w : Who) (n : Nat) (v : Word) : (s.setK w n v).mem = s.mem := by
  unfold State.setK
  split <;> rfl
@[simp] theorem State.setForm_mem (w : Who) (r : Nat) (f : Form) : (s.setForm w r f).mem = s.mem := by
  unfold State.setForm
  split <;> rfl
@[simp] theorem State.setLanes_mem (w : Who) (xs : List Nat) (r : Nat) (v : Nat → Word) : (s.setLanes w xs r v).mem = s.mem := rfl
@[simp] theorem State.setUni_mem (w : Who) (r : Nat) (v : Word) : (s.setUni w r v).mem = s.mem := by
  unfold State.setUni
  split <;> simp
@[simp] theorem State.trap_mem (w : Who) (t : Trap) : (s.trap w t).mem = s.mem := by
  unfold State.trap
  split <;> simp

/-! ### Operands and translations -/

@[simp] theorem State.fillTlb_mem (d : DieId) (agent : Nat) (sup : Bool) (va : DWord) : (s.fillTlb d agent sup va).mem = s.mem := by
  unfold State.fillTlb
  dsimp only
  split <;> rfl
@[simp] theorem State.fillVa_mem (d : DieId) (agent : Nat) (sup : Bool) (va : DWord) (n : Nat) :
    (s.fillVa d agent sup va n).mem = s.mem := foldl_mem (fun _ _ => by simp) _ _
@[simp] theorem State.rewrite_mem (das : List Nat) : (s.rewrite das).mem = s.mem := by
  unfold State.rewrite
  split <;> rfl
@[simp] theorem State.rewriteLocal_mem (d : DieId) (gid x space a n : Nat) : (s.rewriteLocal d gid x space a n).mem = s.mem := by
  unfold State.rewriteLocal
  split <;> rfl
@[simp] theorem State.writeLocal_mem (d : DieId) (gid x space a : Nat) (bs : List Byte) : (s.writeLocal d gid x space a bs).mem = s.mem := by
  unfold State.writeLocal
  split <;> simp
@[simp] theorem State.setLive_mem (d : DieId) (gid space : Nat) (ls : List Nat) (on : Bool) : (s.setLive d gid space ls on).mem = s.mem := by
  unfold State.setLive
  dsimp only
  split <;> rfl
@[simp] theorem State.useRecord_mem (d : DieId) (gid : Nat) (B : BufRec) : (s.useRecord d gid B).mem = s.mem := State.useBytes_mem ..
@[simp] theorem State.cfill_mem (d : DieId) (inst : Nat) (sup : Bool) (v : DWord) (n : Nat) : (s.cfill d inst sup v n).mem = s.mem := by
  unfold State.cfill
  split <;> simp
@[simp] theorem State.descFill_mem (d : DieId) (agent : Nat) (ctx : Ctx) (space gid addr : Nat) (bytes : List Byte) :
    (s.descFill d agent ctx space gid addr bytes).mem = s.mem := rfl

/-! ### Ends of words -/

@[simp] theorem State.settle_mem (w : Who) : (s.settle w).mem = s.mem := rfl
@[simp] theorem State.finish_mem (w : Who) (u : Use) (tok : Option Nat) (safe : Nat → Bool) (tgt : Nat → DWord) : (s.finish w u tok safe tgt).mem = s.mem := rfl
@[simp] theorem State.holdAt_mem (w : Who) (i : Instr) (k : Wait) : (s.holdAt w i k).mem = s.mem := rfl
@[simp] theorem State.skip_mem (w : Who) (u : Use) : (s.skip w u).mem = s.mem := rfl
@[simp] theorem State.expandThread_mem (w : Who) : (s.expandThread w).mem = s.mem := by
  unfold State.expandThread
  repeat' split
  all_goals rfl
@[simp] theorem State.modCarder_mem (d : DieId) (inst : Nat) (f : Carder → Carder) : (s.modCarder d inst f).mem = s.mem := rfl
@[simp] theorem State.card_mem (d : DieId) (inst : Nat) (inner : Cause) (pc faddr : DWord) : (s.card d inst inner pc faddr).mem = s.mem := by
  unfold State.card
  split <;> simp

/-! ### Barrier slots and rings -/

@[simp] theorem State.putSlot_mem (d : DieId) (gid : Nat) (a : Slot) (b : BSlot) : (s.putSlot d gid a b).mem = s.mem := by
  unfold State.putSlot
  dsimp only
  split <;> simp
theorem State.creditSlot_mem {s t : State} {d : DieId} {gid : Nat} {a : Slot} {n : Nat} (h : s.creditSlot d gid a n = some t) : t.mem = s.mem := by
  unfold State.creditSlot at h
  repeat' split at h
  all_goals cases h
  exact State.putSlot_mem ..
@[simp] theorem State.putRing_mem (d : DieId) (gid : Nat) (a : Slot) (r : Ring) : (s.putRing d gid a r).mem = s.mem := by simp [State.putRing]
theorem State.credit_mem {s t : State} {d : DieId} {gid : Nat} {obj : Word} {slot : Option Nat} {n : Nat} (h : s.credit d gid obj slot n = .ok t) :
    t.mem = s.mem := by
  unfold State.credit at h
  dsimp only at h
  repeat' split at h
  all_goals cases h
  · rfl
  · next hput =>
    obtain ⟨R, -, rfl⟩ := Option.map_eq_some_iff.mp hput
    exact State.putRing_mem ..
  · next hput => exact State.creditSlot_mem hput

/-! ### Registers -/

@[simp] theorem State.setRegs_mem (w : Who) (r n : Nat) (v : Nat → Nat → Word) : (s.setRegs w r n v).mem = s.mem := by
  refine foldl_mem (fun _ _ => ?_) _ _
  split <;> simp

/-! ### Device links -/

@[simp] theorem State.linkFault_mem (d : DieId) (ctx : Ctx) (pc : DWord) (port : Nat) : (s.linkFault d ctx pc port).mem = s.mem := by
  unfold State.linkFault
  split <;> simp
@[simp] theorem State.sendFrom_mem (n : Nat) (d : Option DieId) (pc : DWord) (h : Header) (m : Payload) : (s.sendFrom n d pc h m).mem = s.mem := by
  unfold State.sendFrom
  repeat' split
  all_goals simp
@[simp] theorem State.sendOver_mem (n : Nat) (d : DieId) (pc : DWord) (h : Header) (m : Payload) :
    (s.sendOver n d pc h m).mem = s.mem := by simp [State.sendOver]
@[simp] theorem State.transmit_mem (d : DieId) (pc : DWord) (h : Header) (m : Payload) : (s.transmit d pc h m).mem = s.mem := by
  unfold State.transmit
  split <;> simp

/-! ### Counter sets -/

@[simp] theorem State.modLaunch_mem (id : Nat) (f : Launch → Launch) : (s.modLaunch id f).mem = s.mem := rfl
@[simp] theorem State.modSet_mem (home : DieId) (launch : Nat) (sc : Scope) (inst : Nat) (f : CSet → CSet) : (s.modSet home launch sc inst f).mem = s.mem := rfl
@[simp] theorem State.tellRanks_mem (home : DieId) (L : Launch) (pc : DWord) (m : Payload) :
    (s.tellRanks home L pc m).mem = s.mem := foldl_mem (fun _ _ => by simp) _ _
@[simp] theorem State.openSet_mem (home : DieId) (launch : Nat) (sc : Scope) (inst : Nat) : (s.openSet home launch sc inst).mem = s.mem := rfl
@[simp] theorem State.openGen_mem (home : DieId) (L : Launch) (sc : Scope) (inst : Nat) (pc : DWord) : (s.openGen home L sc inst pc).mem = s.mem := by
  unfold State.openGen
  repeat' split
  all_goals simp
@[simp] theorem State.endGen_mem (L : Launch) (c : CSet) : (s.endGen L c).mem = s.mem := by
  unfold State.endGen
  dsimp only
  repeat' split
  all_goals simp
@[simp] theorem State.settleOnce_mem (home : DieId) (launch : Nat) (sc : Scope) (inst : Nat) : (s.settleOnce home launch sc inst).mem = s.mem := by
  unfold State.settleOnce
  repeat' split
  all_goals simp
@[simp] theorem State.settleSet_mem (home : DieId) (launch : Nat) (sc : Scope) (inst : Nat) :
    (s.settleSet home launch sc inst).mem = s.mem := by simp [State.settleSet]
@[simp] theorem State.settleLaunch_mem (launch : Nat) : (s.settleLaunch launch).mem = s.mem := foldl_mem (fun _ _ => by simp) _ _
@[simp] theorem State.askOpen_mem (home : DieId) (L : Launch) (c : CSet) : (s.askOpen home L c).mem = s.mem := by simp [State.askOpen]
theorem State.needSet_mem {s t : State} {home : DieId} {ctx : Ctx} {L : Launch} {sc : Scope} {inst : Nat} (h : s.needSet home ctx L sc inst = .ok t) :
    t.mem = s.mem := by
  unfold State.needSet at h
  dsimp only at h
  repeat' split at h
  all_goals cases h
  all_goals rfl
@[simp] theorem State.barArrive_mem (d : DieId) (gid : Nat) (home : DieId) (L : Launch) (sc : Scope) (inst : Nat) (pc : DWord) :
    (s.barArrive d gid home L sc inst pc).1.mem = s.mem := by
  unfold State.barArrive
  dsimp only
  repeat' split
  all_goals simp
theorem State.phaseCount_mem {s t : State} {d : DieId} {core : Nat} {L : Launch} {sc : Scope} {pc : DWord} {dest c : Nat}
    (h : s.phaseCount d core L sc pc dest c = .ok t) : t.mem = s.mem := by
  unfold State.phaseCount at h
  dsimp only at h
  repeat' split at h
  all_goals cases h
  · next hneed _ => exact (State.transmit_mem ..).trans (State.needSet_mem hneed)
  · next hneed _ _ => exact (State.settleLaunch_mem ..).trans ((State.modSet_mem ..).trans (State.needSet_mem hneed))

/-! ### Gathers -/

@[simp] theorem State.gatherDone_mem (d : DieId) (gid : Nat) (g : Gather) (r : Nat) : (s.gatherDone d gid g r).mem = s.mem := rfl
@[simp] theorem State.gatherDrop_mem (d : DieId) (gid p : Nat) : (s.gatherDrop d gid p).mem = s.mem := rfl
@[simp] theorem State.gatherEnds_mem (d : DieId) (gid : Nat) (G : Group) (g : Gather) (now : List Nat) : (s.gatherEnds d gid G g now).mem = s.mem := by
  unfold State.gatherEnds
  dsimp only
  split <;> rfl

/-! ### Retired slots -/

@[simp] theorem State.strand_mem (w : Who) (v : Word) : (s.strand w v).mem = s.mem := by
  unfold State.strand
  split <;> rfl

/-! ### Commands and GLD -/

@[simp] theorem State.enqueue_mem (d : DieId) (inst : Nat) (q : Cmd) : (s.enqueue d inst q).mem = s.mem := rfl
@[simp] theorem State.gldFault_mem (d : DieId) (G : Group) (q : Gld) (t : Trap) : (s.gldFault d G q t).mem = s.mem := by
  unfold State.gldFault
  split <;> simp
@[simp] theorem State.gldStep_mem (d : DieId) (gid id : Nat) : (s.gldStep d gid id).mem = s.mem := by
  unfold State.gldStep
  dsimp only
  split
  · rfl
  · split
    · rfl
    · repeat' split
      all_goals simp [State.resolve_mem]

/-! ### Commands in a carder -/

@[simp] theorem State.completeCmd_mem (d : DieId) (inst : Nat) : (s.completeCmd d inst).mem = s.mem := rfl
@[simp] theorem State.putCmd_mem (d : DieId) (inst : Nat) (q : Cmd) : (s.putCmd d inst q).mem = s.mem := rfl
@[simp] theorem State.cmdFault_mem (d : DieId) (inst : Nat) (q : Cmd) (cause : Cause) (fa : DWord) :
    (s.cmdFault d inst q cause fa).mem = s.mem := by simp [State.cmdFault]

/-! ### Hints -/

@[simp] theorem hintThread_mem (i : Instr) (h : Hint) (w : Who) (s : State) : (hintThread i h w s).mem = s.mem := by
  unfold hintThread
  dsimp only
  repeat' split
  all_goals simp
@[simp] theorem hintCarder_mem (i : Instr) (h : Hint) (d : DieId) (inst : Nat) (s : State) : (hintCarder i h d inst s).mem = s.mem := by
  unfold hintCarder
  dsimp only
  repeat' split
  all_goals simp

/-! ### Instruction lines and cycles -/

@[simp] theorem State.fillLine_mem (d : DieId) (agent line : Nat) (bs : List Byte) : (s.fillLine d agent line bs).mem = s.mem := rfl
@[simp] theorem State.idleCycle_mem (perform : Agent → State → State) (s : State) (d : DieId) (core : Nat) :
    (State.idleCycle perform s d core).mem = s.mem := by
  unfold State.idleCycle
  split <;> rfl
@[simp] theorem State.coreCycle_mem (perform : Agent → State → State) (s : State) (d : DieId) (core : Nat) :
    (State.coreCycle perform s d core).mem = s.mem := by simp [State.coreCycle, apply_ite State.mem]
@[simp] theorem State.svCycle_mem (perform : Agent → State → State) (s : State) (d : DieId) : (State.svCycle perform s d).mem = s.mem := by
  unfold State.svCycle
  split <;> rfl
@[simp] theorem State.carderCycle_mem (d : DieId) (inst : Nat) : (s.carderCycle d inst).mem = s.mem := by
  unfold State.carderCycle
  dsimp only
  repeat' split
  all_goals rfl

/-! ### Tile engines -/

@[simp] theorem State.storeTile_mem (d : DieId) (q : TileCmd) (T : Mem) : (s.storeTile d q T).mem = s.mem := foldl_mem (fun _ _ => by simp) _ _
@[simp] theorem State.setTile_mem (d : DieId) (gid n : Nat) (T : Mem) : (s.setTile d gid n T).mem = s.mem := rfl
@[simp] theorem State.tileDone_mem (d : DieId) (q : TileCmd) : (s.tileDone d q).mem = s.mem := rfl
@[simp] theorem State.tileEcc_mem (d : DieId) (core : Nat) : (s.tileEcc d core).mem = s.mem := by simp [State.tileEcc]
@[simp] theorem State.stageRows_mem (d : DieId) (gid : Nat) (h : Handle) (pc : DWord) (out : List (Nat × List Word)) :
    (s.stageRows d gid h pc out).mem = s.mem := rfl
@[simp] theorem State.toHome_mem (d : DieId) (pc : DWord) (h : Handle) (m : SMsg) : (s.toHome d pc h m).mem = s.mem := by simp [State.toHome]
@[simp] theorem State.performTile_mem (d : DieId) (q : TileCmd) : (s.performTile d q).mem = s.mem := by
  unfold State.performTile
  dsimp only
  repeat' split
  all_goals simp

/-! ### Requests and resident queues -/

@[simp] theorem State.send_mem (r : SyncReq) : (s.send r).mem = s.mem := rfl
@[simp] theorem State.syncEcc_mem (p : PartId) (d : DieId) (c : Ctx) (pc line : DWord) : (s.syncEcc p d c pc line).mem = s.mem := by
  unfold State.syncEcc
  split <;> simp
@[simp] theorem State.putQueue_mem (q : RQueue) : (s.putQueue q).mem = s.mem := rfl
@[simp] theorem State.countMiss_mem (d : DieId) (sup : Bool) (h : Nat) : (s.countMiss d sup h).mem = s.mem := rfl
theorem State.qPop_mem {s t : State} {q : RQueue} {pc : DWord} {v : BitVec 256} (h : s.qPop q pc = some (v, t)) : t.mem = s.mem := by
  unfold State.qPop at h
  split at h
  · cases h
  · dsimp only at h
    split at h <;> cases h
    · exact State.syncEcc_mem ..
    · rfl
@[simp] theorem State.popN_mem (p : PartId) (c : Ctx) (h n : Nat) : (s.popN p c h n).2.mem = s.mem := by
  induction n generalizing s with
  | zero => rfl
  | succ n ih =>
    unfold State.popN
    split
    · rfl
    · next hpop =>
      obtain ⟨q, -, hq⟩ := Option.bind_eq_some_iff.mp hpop
      exact (ih _).trans (State.qPop_mem hq)
@[simp] theorem State.binTake_mem (L : Launch) (i : Nat) (N : Node) : (s.binTake L i N).mem = s.mem := by
  unfold State.binTake
  split
  · rfl
  · dsimp only
    split <;> simp
@[simp] theorem State.binPushed_mem (L : Launch) (i : Nat) (wasEmpty : Bool) : (s.binPushed L i wasEmpty).mem = s.mem := by
  unfold State.binPushed
  dsimp only
  repeat' split
  all_goals simp
@[simp] theorem State.putReq_mem (r : SyncReq) : (s.putReq r).mem = s.mem := rfl
@[simp] theorem State.dropReq_mem (id : Nat) : (s.dropReq id).mem = s.mem := rfl
@[simp] theorem State.queueFault_mem (r : SyncReq) (c : Cause) (fa : DWord) : (s.queueFault r c fa).mem = s.mem := by simp [State.queueFault]
@[simp] theorem State.queueEcc_mem (r : SyncReq) (line : DWord) : (s.queueEcc r line).mem = s.mem := by
  unfold State.queueEcc
  split <;> simp

/-! ### Sessions -/

@[simp] theorem State.closeHandle_mem (d : DieId) (gid : Nat) (h : Handle) (pc : DWord) : (s.closeHandle d gid h pc).mem = s.mem := by
  unfold State.closeHandle
  repeat' split
  all_goals simp
@[simp] theorem State.threadFault_mem (d : DieId) (gid core : Nat) (xs : List Nat) (pc : DWord) (c : Cause) (fa : DWord) :
    (s.threadFault d gid core xs pc c fa).mem = s.mem := by simp [State.threadFault]
@[simp] theorem State.joinFault_mem (j : SJoin) (c : Cause) (fa : DWord) : (s.joinFault j c fa).mem = s.mem := by
  unfold State.joinFault
  split <;> simp
@[simp] theorem State.dropMsg_mem (k : Nat) : (s.dropMsg k).mem = s.mem := rfl
@[simp] theorem State.modSession_mem (id : Nat) (f : Session → Option Session) : (s.modSession id f).mem = s.mem := rfl
@[simp] theorem State.toJoin_mem (x : Session) (pc : DWord) (j : SJoin) (m : SMsg) : (s.toJoin x pc j m).mem = s.mem := by
  unfold State.toJoin
  split <;> simp
@[simp] theorem State.abandon_mem (x : Session) (gone : SJoin → Bool) : (s.abandon x gone).mem = s.mem := by
  refine foldl_mem (fun _ _ => ?_) _ _
  split <;> simp
@[simp] theorem State.advance_mem (x : Session) : (s.advance x).mem = s.mem := by
  obtain ⟨f, h⟩ := s.advance_signals x
  exact h.mem
@[simp] theorem State.dropKept_mem (j : SJoin) : (s.dropKept j).mem = s.mem := rfl
@[simp] theorem State.handleOver_mem (j : SJoin) : (s.handleOver j).mem = s.mem := rfl
@[simp] theorem State.sendRow_mem (n : Nat) (j : SJoin) (row : Nat) : (s.sendRow n j row).mem = s.mem := by
  unfold State.sendRow
  split
  · rfl
  · exact foldl_mem (fun _ _ => by simp) _ s
@[simp] theorem State.takeSession_mem (n : Nat) (h : Header) (m : SMsg) : (s.takeSession n h m).mem = s.mem := by
  unfold State.takeSession
  cases m with
  | gone j =>
    dsimp only
    split
    · rfl
    · exact foldl_mem (fun _ _ => by simp) _ s
  | row | join | close => dsimp only; split <;> simp
  | result | refused | lost | read | free => dsimp only; split <;> simp

/-! ### The name fabric -/

@[simp] theorem State.takePacket_mem (k : Nat) : (s.takePacket k).mem = s.mem := rfl
@[simp] theorem State.post_mem (p : Packet) : (s.post p).mem = s.mem := rfl
@[simp] theorem State.through_mem (r : Router) (port : Port) (p : Packet) : (s.through r port p).mem = s.mem := by
  unfold State.through
  split <;> simp
@[simp] theorem State.unrouted_mem (p : Packet) : (s.unrouted p).mem = s.mem := by simp [State.unrouted]
@[simp] theorem State.receive_mem (n : Nat) (h : Header) (p : Packet) : (s.receive n h p).mem = s.mem := by
  unfold State.receive
  split <;> rfl
@[simp] theorem State.modPend_mem (r : Router) (c : Ctx) (n : DWord) (st : PendState) (f : PendEntry → Option PendEntry) :
    (s.modPend r c n st f).mem = s.mem := rfl
@[simp] theorem State.storeEcc_mem (r : Router) (t : StoreEntry) : (s.storeEcc r t).mem = s.mem := by
  unfold State.storeEcc
  split <;> simp
@[simp] theorem State.startDelivery_mem (r : Router) (e : PendEntry) (t : StoreEntry) : (s.startDelivery r e t).mem = s.mem := by
  unfold State.startDelivery
  dsimp only
  split
  · exact (foldl_mem (fun _ _ => by simp) _ _).trans (by simp)
  · split
    · simp
    · exact (foldl_mem (fun _ _ => by simp) _ _).trans (by simp)
@[simp] theorem State.interestAt_mem (k : Nat) (r : Router) (p : Packet) : (s.interestAt k r p).mem = s.mem := by
  unfold State.interestAt
  dsimp only
  repeat' split
  all_goals simp
@[simp] theorem State.withdrawalAt_mem (k : Nat) (r : Router) (p : Packet) : (s.withdrawalAt k r p).mem = s.mem := by
  unfold State.withdrawalAt
  dsimp only
  repeat' split
  all_goals simp
@[simp] theorem State.fabricFault_mem (d : DieId) (core gid : Nat) (pc : DWord) (hood : Bool) (xs : List Nat) (c : Cause) (fa : DWord) :
    (s.fabricFault d core gid pc hood xs c fa).mem = s.mem := by
  unfold State.fabricFault
  dsimp only
  split <;> simp
@[simp] theorem State.interestFault_mem (d : DieId) (i : Interest) (c : Cause) (fa : DWord) :
    (s.interestFault d i c fa).mem = s.mem := by simp [State.interestFault]
@[simp] theorem State.modInterests_mem (d : DieId) (p : Interest → Bool) (f : Interest → Option Interest) : (s.modInterests d p f).mem = s.mem := rfl
@[simp] theorem State.sizeEnds_mem (d : DieId) (p : Interest → Bool) : (s.sizeEnds d p).mem = s.mem := foldl_mem (fun _ _ => by simp) _ _
@[simp] theorem State.headerAtCore_mem (d : DieId) (core : Nat) (p : Packet) : (s.headerAtCore d core p).mem = s.mem := by simp [State.headerAtCore]
@[simp] theorem State.headerAt_mem (k : Nat) (r : Router) (p : Packet) : (s.headerAt k r p).mem = s.mem := by
  have hall (e : PendEntry) (t : State) (q : Packet) : (e.ports.foldl (fun (s : State) port => s.through r port q) t).mem = t.mem :=
    foldl_mem (fun _ _ => by simp) _ t
  unfold State.headerAt
  dsimp only
  repeat' split
  all_goals simp [hall]
@[simp] theorem State.landChunk_mem (d : DieId) (i : Interest) (c : Nat) (bytes : List Byte) : (s.landChunk d i c bytes).mem = s.mem := by
  unfold State.landChunk
  extract_lets B a written marked slot
  have hmarked : marked.mem = s.mem := by
    unfold marked written
    repeat' split
    all_goals simp
  split
  · simp
  · split
    · next h => exact (State.credit_mem h).trans hmarked
    · exact (State.interestFault_mem ..).trans hmarked
@[simp] theorem State.modStore_mem (r : Router) (c : Ctx) (n : DWord) (f : StoreEntry → Option StoreEntry) : (s.modStore r c n f).mem = s.mem := rfl
@[simp] theorem State.freeTile_mem (t : StoreEntry) : (s.freeTile t).mem = s.mem := by
  unfold State.freeTile
  split <;> rfl
@[simp] theorem State.evictAt_mem (r : Router) (c : Ctx) (n : DWord) : (s.evictAt r c n).mem = s.mem := by
  unfold State.evictAt
  split <;> simp
@[simp] theorem State.modOffer_mem (d : DieId) (id : Nat) (f : Offer → Offer) : (s.modOffer d id f).mem = s.mem := rfl
@[simp] theorem State.openOffer_mem (c : Ctx) (id : Nat) : (s.openOffer c id).mem = s.mem := foldl_mem (fun _ _ => by simp) _ s
@[simp] theorem State.acceptOffer_mem (id : Nat) (p : Packet) : (s.acceptOffer id p).mem = s.mem := by
  unfold State.acceptOffer
  split <;> simp
@[simp] theorem State.storeChunk_mem (r : Router) (p : Packet) (id c : Nat) : (s.storeChunk r p id c).mem = s.mem := by
  unfold State.storeChunk
  dsimp only
  repeat' split
  all_goals simp
@[simp] theorem State.offerChunkAt_mem (r : Router) (p : Packet) (id c : Nat) : (s.offerChunkAt r p id c).mem = s.mem := by
  unfold State.offerChunkAt
  split <;> simp
@[simp] theorem State.readOut_mem (d : DieId) (o : Offer) : (s.readOut d o).mem = s.mem := by
  unfold State.readOut
  extract_lets B E at_ n packet posted freed slot
  have hfreed : freed.mem = s.mem := (State.modBank_mem ..).trans (State.post_mem ..)
  split
  · simp
  · split
    · simp
    · split
      · rfl
      · split
        · next h => exact (State.credit_mem h).trans hfreed
        · exact (State.fabricFault_mem ..).trans hfreed
@[simp] theorem State.sendInterest_mem (d : DieId) (i : Interest) : (s.sendInterest d i).mem = s.mem := rfl
@[simp] theorem State.sendOffer_mem (d : DieId) (o : Offer) : (s.sendOffer d o).mem = s.mem := rfl
@[simp] theorem State.dropFabric_mem (p : PartId) : (s.dropFabric p).mem = s.mem := foldl_mem (fun _ _ => by simp) _ _
@[simp] theorem State.refreshFabric_mem (d : DieId) : (s.refreshFabric d).mem = s.mem := by
  unfold State.refreshFabric
  dsimp only
  rw [foldl_mem fun _ _ => by simp, foldl_mem fun _ _ => by simp, State.modBank_mem]

/-! ### Halts and what ends them -/

@[simp] theorem State.writeRecords_mem (d : DieId) : (s.writeRecords d).mem = s.mem := foldl_mem (fun _ _ => by simp) _ _
@[simp] theorem State.finishHeads_mem (d : DieId) : (s.finishHeads d).mem = s.mem := by
  refine foldl_mem (fun _ _ => ?_) _ s
  split
  · split <;> simp
  · rfl
@[simp] theorem State.resume_mem (p : PartId) : (s.resume p).mem = s.mem := foldl_mem (fun _ _ => by simp) _ _
@[simp] theorem State.haltRequest_mem (p : PartId) : (s.haltRequest p).mem = s.mem := rfl
@[simp] theorem State.dbgWrite_mem (p : PartId) (v : Word) : (s.dbgWrite p v).mem = s.mem := by
  unfold State.dbgWrite
  split <;> rfl
@[simp] theorem State.setSlice_mem (p : PartId) (v : Word) : (s.setSlice p v).mem = s.mem := rfl
@[simp] theorem State.clearPend_mem (p : PartId) (v : Word) : (s.clearPend p v).mem = s.mem := rfl
@[simp] theorem State.pass_mem (n : Nat) : (s.pass n).mem = s.mem := by
  unfold State.pass
  split <;> rfl

/-! ### The supervisor wave and migration -/

@[simp] theorem State.svFault_mem (d : DieId) (c : Cause) (fa : DWord) : (s.svFault d c fa).mem = s.mem := rfl
@[simp] theorem State.setMigctl_mem (p : PartId) (v : Word) : (s.setMigctl p v).mem = s.mem := rfl

/-! ### Engine images -/

@[simp] theorem State.asActive_mem (d : DieId) (ctx : Ctx) : (s.asActive d ctx).mem = s.mem := by
  unfold State.asActive
  split <;> rfl
@[simp] theorem State.fresh_mem (n : Nat) : (s.fresh n).mem = s.mem := rfl
@[simp] theorem State.rewire_mem (d : DieId) (q : TileCmd) : (s.rewire d q).mem = s.mem := by
  unfold State.rewire
  split <;> rfl

/-! ### The loader -/

@[simp] theorem State.loaderEcc_mem (p : PartId) (fa : Nat) : (s.loaderEcc p fa).mem = s.mem := by
  unfold State.loaderEcc
  split <;> simp
@[simp] theorem State.discardPages_mem (p : PartId) (c : Ctx) (va n : Nat) : (s.discardPages p c va n).mem = s.mem := foldl_mem (fun _ _ => by simp) _ _
@[simp] theorem State.extendAtt_mem (p : PartId) (m : List Byte) (k : Byte) (v : Nat) : (s.extendAtt p m k v).mem = s.mem := rfl
@[simp] theorem State.modContext_mem (p : PartId) (c : Ctx) (f : Bank → Bank) : (s.modContext p c f).mem = s.mem := foldl_mem (fun _ _ => by simp) _ _
@[simp] theorem State.addPortable_mem (p : PartId) (c : Ctx) (g : Segment) : (s.addPortable p c g).mem = s.mem := by simp [State.addPortable]
@[simp] theorem State.nextSlot_mem : (s.nextSlot).mem = s.mem := rfl
@[simp] theorem State.loaderProt_mem (p : PartId) (da : Nat) : (s.loaderProt p da).mem = s.mem := by
  unfold State.loaderProt
  split <;> simp

/-! ### Management and errors -/

@[simp] theorem State.setLayout_mem (l : Vector PartId 8) : (s.setLayout l).mem = s.mem := by
  refine foldl_mem (fun _ _ => ?_) _ _
  split <;> rfl
@[simp] theorem State.moduleReset_mem : (s.moduleReset).mem = s.mem := rfl
@[simp] theorem State.bringupFails_mem (step : Nat) (reason : Word) : (s.bringupFails step reason).mem = s.mem := rfl
@[simp] theorem State.program_mem (b : BootImage) : (s.program b).mem = s.mem := rfl
@[simp] theorem State.shutdown_mem : (s.shutdown).mem = s.mem := by
  simp only [State.shutdown_eq]
  exact (State.Signals.overheated s).mem
@[simp] theorem State.modLink_mem (n : Nat) (f : Link → Link) : (s.modLink n f).mem = s.mem := rfl
@[simp] theorem State.retireLink_mem (n : Nat) : (s.retireLink n).mem = s.mem := by
  refine foldl_mem (fun _ _ => ?_) _ _
  split <;> simp
@[simp] theorem State.tellHomes_mem (p : PartId) : (s.tellHomes p).mem = s.mem := (State.Signals.tellHomes s p).mem
@[simp] theorem State.resetPartition_mem (p : PartId) : (s.resetPartition p).mem = s.mem := (State.Discards.resetPartition s p).mem
@[simp] theorem State.eccFault_mem (d : DieId) (slot : Nat) (stop : StopRec) : (s.eccFault d slot stop).mem = s.mem := by simp [State.eccFault]
@[simp] theorem State.markBad_mem (da : Nat) : (s.markBad da).mem = s.mem := rfl
@[simp] theorem State.syncError_mem (p : PartId) (d : DieId) (pc line : DWord) : (s.syncError p d pc line).mem = s.mem := by
  unfold State.syncError
  split <;> simp
@[simp] theorem State.divisionEcc_mem (d : DieId) (gid x step : Nat) : (s.divisionEcc d gid x step).mem = s.mem := by
  unfold State.divisionEcc
  repeat' split
  all_goals simp
@[simp] theorem State.eccError_mem (site : EccSite) : (s.eccError site).mem = s.mem := by
  unfold State.eccError
  cases site with
  | memory | localMem | division | tile => simp
  | sync d da => exact (foldl_mem (fun _ _ => by simp) _ _).trans (State.markBad_mem ..)
  | queue | counters | store => dsimp only; split <;> simp
  | session k =>
    dsimp only
    split
    · exact foldl_mem (fun _ _ => by simp) _ s
    · rfl
@[simp] theorem State.writeKey_mem (w : KeyWrite) : (s.writeKey w).mem = s.mem := by
  unfold State.writeKey
  split <;> rfl
@[simp] theorem State.report_mem : (s.report).mem = s.mem := rfl

/-! ### Status words and fresh descriptors -/

@[simp] theorem State.putStatus_mem (d : DieId) (ctx : Ctx) (va code started : Nat) : (s.putStatus d ctx va code started).mem = s.mem := by
  unfold State.putStatus
  repeat' split
  all_goals rfl
@[simp] theorem State.freshDescs_mem (p : PartId) (c : Ctx) : (s.freshDescs p c).mem = s.mem := foldl_mem (fun _ _ => by simp) _ _
end

end Sys2Proof.Machine
end

section
/-! PROOFS. Writes keep main memory in canonical form (R42, R43), and so do the words on registers, local memory and gathers (R121 to R128, R154 to R165). -/
namespace Sys2Proof.Machine
open Sys2Proof.Claims

/-! ## Writes of main memory keep its canonical form -/

theorem State.writeDa_wf {s : State} (h : s.mem.wf) (da : Nat) (bs : List Byte) : (s.writeDa da bs).mem.wf := by
  rw [State.writeDa_mem]
  exact Mem.writeN_wf bs da h
theorem State.writeAll_wf {s : State} (h : s.mem.wf) (das : List Nat) (bs : List Byte) : (s.writeAll das bs).mem.wf := by
  rw [State.writeAll, State.rewrite_mem]
  exact Mem.writes_wf _ h
theorem State.writeVa_wf {s t : State} {d : DieId} {agent : Nat} {sup : Bool} {va : DWord} {bs : List Byte} (h : s.mem.wf)
    (hw : s.writeVa d agent sup va bs = .ok t) : t.mem.wf := by
  unfold State.writeVa Acc.bind at hw
  split at hw <;> cases hw
  rw [State.rewrite_mem]
  exact Mem.writes_wf _ h
theorem foldl_wf {α : Type} {f : State → α → State} (hf : ∀ (s : State) a, s.mem.wf → (f s a).mem.wf) (l : List α) {s : State} (h : s.mem.wf) :
    (l.foldl f s).mem.wf := by
  induction l generalizing s with
  | nil => exact h
  | cons a l ih => exact ih (hf s a h)

theorem State.cwrite_wf {s t : State} {d : DieId} {inst gid : Nat} {sup : Bool} {v : DWord} {bs : List Byte} (h : s.mem.wf)
    (hw : s.cwrite d inst gid sup v bs = .ok t) : t.mem.wf := by
  unfold State.cwrite at hw
  split at hw
  · cases hw
  · unfold Acc.bind at hw
    split at hw <;> cases hw
    next hva => simpa using State.writeVa_wf h hva
  · repeat' split at hw
    all_goals cases hw
    simpa using h

/-! ### Resident queues -/

theorem Acc.bind_eq_ok {α β : Type} {x : Acc α} {f : α → Acc β} {b : β} : x.bind f = .ok b ↔ ∃ a, x = .ok a ∧ f a = .ok b := by
  cases x <;> simp [Acc.bind]

theorem State.queueBack_wf {s : State} (hs : s.mem.wf) (q : RQueue) : (s.queueBack q).mem.wf :=
  State.writeDa_wf (State.writeDa_wf (State.writeAll_wf hs ..) ..) ..
theorem State.queueMiss_wf {s t : State} {d : DieId} {sup : Bool} {p : PartId} {c : Ctx} {h : Nat} (hs : s.mem.wf)
    (hq : s.queueMiss d sup p c h = .ok t) : t.mem.wf := by
  unfold State.queueMiss at hq
  split at hq
  · cases hq
  · obtain ⟨desc, -, hq⟩ := Acc.bind_eq_ok.mp hq
    dsimp only at hq
    split at hq
    · cases hq
    · split at hq
      · cases hq
      · obtain ⟨pages, -, hq⟩ := Acc.bind_eq_ok.mp hq
        split at hq <;> cases hq
        show (ite _ _ _ : State).mem.wf
        split
        · exact hs
        · split
          · exact State.queueBack_wf hs _
          · exact hs
theorem State.schedMiss_wf {s : State} (hs : s.mem.wf) (d : DieId) (p : PartId) (c : Ctx) (h : Nat) : (s.schedMiss d p c h).mem.wf := by
  unfold State.schedMiss
  split
  · exact hs
  · dsimp only
    split
    · next hq => exact State.queueMiss_wf (by exact hs) hq
    · split
      · simpa using hs
      · exact hs
theorem State.qPush_wf {s t : State} {q : RQueue} {r : BitVec 256} (hs : s.mem.wf) (h : s.qPush q r = some t) : t.mem.wf := by
  unfold State.qPush at h
  repeat' split at h
  all_goals cases h
  · exact hs
  · exact State.writeAll_wf hs ..

/-! ## What the effect of a word leaves -/

/-- Main memory is canonical in what the effect leaves. -/
def Eff.Canonical : Eff → Prop
  | .ok t _ | .jump t _ _ | .done t | .hold t _ => t.mem.wf
  | .expand | .cond _ | .trap _ => True
@[simp] theorem Eff.canonical_ok {t : State} {tok : Option Nat} : (Eff.ok t tok).Canonical ↔ t.mem.wf := Iff.rfl
@[simp] theorem Eff.canonical_jump {t : State} {safe : Nat → Bool} {tgt : Nat → DWord} : (Eff.jump t safe tgt).Canonical ↔ t.mem.wf := Iff.rfl
@[simp] theorem Eff.canonical_done {t : State} : (Eff.done t).Canonical ↔ t.mem.wf := Iff.rfl
@[simp] theorem Eff.canonical_hold {t : State} {k : Wait} : (Eff.hold t k).Canonical ↔ t.mem.wf := Iff.rfl
@[simp] theorem Eff.canonical_expand : Eff.expand.Canonical := trivial
@[simp] theorem Eff.canonical_cond {xs : List Nat} : (Eff.cond xs).Canonical := trivial
@[simp] theorem Eff.canonical_trap {t : Trap} : (Eff.trap t).Canonical := trivial
/-- The same for a carder word. -/
def CEff.Canonical : CEff → Prop
  | .ok _ t | .jump t _ _ | .done t | .hold t => t.mem.wf
  | .trap _ _ => True
@[simp] theorem CEff.canonical_ok {c : Carder} {t : State} : (CEff.ok c t).Canonical ↔ t.mem.wf := Iff.rfl
@[simp] theorem CEff.canonical_jump {t : State} {c : Carder} {tgt : DWord} : (CEff.jump t c tgt).Canonical ↔ t.mem.wf := Iff.rfl
@[simp] theorem CEff.canonical_done {t : State} : (CEff.done t).Canonical ↔ t.mem.wf := Iff.rfl
@[simp] theorem CEff.canonical_hold {t : State} : (CEff.hold t).Canonical ↔ t.mem.wf := Iff.rfl
@[simp] theorem CEff.canonical_trap {inner : Cause} {fa : DWord} : (CEff.trap inner fa).Canonical := trivial

/-! ## Faults and the shapes of a word -/

@[simp] theorem kfault_canonical (w : Who) (c : Cause) (fa : DWord) : (kfault w c fa).Canonical := trivial
@[simp] theorem slotFault_canonical (w : Who) (c : Cause) (v : Word) : (slotFault w c v).Canonical := trivial
@[simp] theorem baruse_canonical (w : Who) (s : State) (k : KReg) : (baruse w s k).Canonical := trivial

section
variable {s : State} (hs : s.mem.wf)
include hs

theorem formEff_canonical (w : Who) (d : Reg) (f : Option Form) : (formEff s w d f).Canonical := by
  cases f <;> simp [formEff, hs]
theorem word1_canonical (d a : Reg) (rule : Form → Option Form) (f : Word → Word) (w : Who) : (word1 d a rule f w s).Canonical := by
  unfold word1
  split
  · exact formEff_canonical hs ..
  · simp [hs]
theorem word2_canonical (d a b : Reg) (rule : Form → Form → Option Form) (f : Word → Word → Word) (w : Who) : (word2 d a b rule f w s).Canonical := by
  unfold word2
  split
  · exact formEff_canonical hs ..
  · simp [hs]
theorem word3_canonical (d a b : Reg) (rule : Form → Form → Form → Option Form) (f : Word → Word → Word → Word) (w : Who) :
    (word3 d a b rule f w s).Canonical := by
  unfold word3
  split
  · exact formEff_canonical hs ..
  · simp [hs]
theorem immWord_canonical (d a : Reg) (imm : BitVec 13) (rule : Word → Form → Option Form) (f : Word → Word → Word) (w : Who) :
    (immWord d a imm rule f w s).Canonical := word1_canonical hs ..
omit hs in
theorem byCond_canonical {w : Who} {p : Nat → Bool} {once : Bool → Eff} (h : ∀ b, (once b).Canonical) : (byCond w p once).Canonical := by
  unfold byCond
  split
  · exact h _
  · trivial
theorem icmpBody_canonical (c : ICond) (d a b : Reg) (w : Who) : (icmpBody c d a b w s).Canonical := by
  unfold icmpBody
  split
  · exact byCond_canonical fun _ => by simp [hs]
  · simp [hs]
theorem selBody_canonical (d a b : Reg) (w : Who) : (selBody d a b w s).Canonical := by
  unfold selBody
  split
  · exact byCond_canonical fun _ => by simp [hs]
  · simp [hs]
theorem movkBody_canonical (d : Reg) (k : KReg) (w : Who) : (movkBody d k w s).Canonical := by simp [movkBody, hs]
theorem kword_canonical (k b : KReg) (f : Word → Word → Word) (w : Who) : (kword k b f w s).Canonical := by simp [kword, hs]

/-! ### Uniform accesses, special registers, LD, ST, FILL, SPILL and BRLD -/

theorem kldBody_canonical (k : KReg) (n : Buf) (o : KReg) (w : Who) : (kldBody k n o w s).Canonical := by
  unfold kldBody
  dsimp only
  split
  · simp
  · simp [hs]
  · split <;> simp [hs]
theorem kstBody_canonical (k : KReg) (n : Buf) (o : KReg) (w : Who) : (kstBody k n o w s).Canonical := by
  unfold kstBody
  dsimp only
  split
  · simp
  · simp [hs]
  · split <;> simp [hs]
theorem rdsBody_canonical (d : Reg) (n : Nat) (upper : Bool) (w : Who) : (rdsBody d n upper w s).Canonical := by
  unfold rdsBody
  split
  · simp [hs]
  · split
    · exact formEff_canonical hs ..
    · simp [hs]
theorem movtsBody_canonical (n : Tile) (k : KReg) (w : Who) : (movtsBody n k w s).Canonical := hs
theorem ldBody_canonical (wd : Sys2Proof.Width) (d : Reg) (n : Buf) (a : Reg) (w : Who) : (ldBody wd d n a w s).Canonical := by
  unfold ldBody
  dsimp only
  repeat' split
  all_goals simp [hs]
theorem stBody_canonical (wd : Sys2Proof.Width) (r : Reg) (n : Buf) (a : Reg) (w : Who) : (stBody wd r n a w s).Canonical := by
  unfold stBody
  dsimp only
  split
  · simp
  · split
    · simpa using hs
    · simp only [Eff.Canonical, State.useRecord_mem]
      rw [foldl_mem]
      · exact hs
      · intro t x
        split <;> simp
theorem fillBody_canonical (wd : Sys2Proof.SpillWidth) (d a : Reg) (w : Who) : (fillBody wd d a w s).Canonical := by
  unfold fillBody
  dsimp only
  split
  · simp
  · split
    · simp
    · split
      · split
        · simp
        · simp only [Eff.Canonical]
          rw [foldl_mem fun _ _ => by simp]
          exact hs
      · simp [hs]
theorem spillBody_canonical (wd : Sys2Proof.SpillWidth) (r a : Reg) (w : Who) : (spillBody wd r a w s).Canonical := by
  unfold spillBody
  dsimp only
  split
  · simp
  · split
    · simp
    · simp only [Eff.Canonical]
      split
      · rw [foldl_mem fun _ _ => by simp]
        exact hs
      · rw [State.modGroup_mem, foldl_mem fun _ _ => by simp]
        exact hs
theorem brldBody_canonical (n m : Buf) (a : Reg) (w : Who) : (brldBody n m a w s).Canonical := by
  unfold brldBody
  dsimp only
  split
  · simp
  · split
    · simp
    · simp [hs]
    · split
      · simp [hs]
      · simp only [Eff.Canonical, State.useRecord_mem]
        rw [foldl_mem fun _ _ => by simp]
        simpa using hs
end

/-! ## Gathered words -/

/-- Main memory is canonical in what an attempt leaves. -/
@[simp] def GRes.Canonical : GRes → Prop
  | .ok t => t.mem.wf
  | .fault .. | .hold => True
theorem GRes.andThen_canonical {r : GRes} {f : State → GRes} (hr : r.Canonical) (hf : ∀ s, s.mem.wf → (f s).Canonical) : (r.andThen f).Canonical := by
  cases r with
  | ok t => exact hf t hr
  | fault c p => trivial
  | hold => trivial
/-- The attempts for several positions, one after the other. -/
theorem foldl_andThen_canonical {f : Nat → State → GRes} (hf : ∀ p s, s.mem.wf → (f p s).Canonical) (ps : List Nat) {r : GRes} (hr : r.Canonical) :
    (ps.foldl (fun (r : GRes) p => r.andThen (f p)) r).Canonical := by
  induction ps generalizing r with
  | nil => exact hr
  | cons p ps ih => exact ih (GRes.andThen_canonical hr (hf p))

theorem State.arrive_mem {s t : State} {d : DieId} {gid : Nat} {a : Slot} (h : s.arrive d gid a = some t) : t.mem = s.mem := by
  unfold State.arrive at h
  repeat' split at h
  all_goals cases h
  exact State.putSlot_mem ..
theorem State.expect_mem {s t : State} {d : DieId} {gid : Nat} {a : Slot} {n : Nat} (h : s.expect d gid a n = some t) : t.mem = s.mem := by
  unfold State.expect at h
  repeat' split at h
  all_goals cases h
  exact State.putSlot_mem ..
theorem State.arriveCredit_mem {s t : State} {d : DieId} {gid : Nat} {a : Slot} {n : Nat} (h : s.arriveCredit d gid a n = some t) : t.mem = s.mem := by
  unfold State.arriveCredit at h
  repeat' split at h
  all_goals cases h
  exact State.putSlot_mem ..

section
variable {s : State} (hs : s.mem.wf)
include hs

theorem State.gatherEffect_canonical (d : DieId) (gid : Nat) (G : Group) (g : Gather) (now : List Nat) : (s.gatherEffect d gid G g now).Canonical := by
  have hlater : (if now.isEmpty then GRes.hold else .ok (s.modGroup d gid fun G => G.setOpen { g with full := true })).Canonical := by
    split
    · trivial
    · exact hs
  unfold State.gatherEffect
  extract_lets p wait later here q t
  have hlater : later.Canonical := hlater
  split
  case h_1 =>
    split
    · exact hlater
    · split
      · trivial
      · split
        · trivial
        · split
          · trivial
          · next harr => simpa [State.noteRelease_mem, State.arrive_mem harr] using hs
  case h_2 =>
    split
    · exact hlater
    · split
      · trivial
      · split
        · trivial
        · split
          · trivial
          · simpa [State.noteRelease_mem] using hs
  case h_3 =>
    split
    · trivial
    · split
      · trivial
      · split
        · trivial
        · split
          · trivial
          · exact hs
          · simpa [State.noteAcquire_mem] using hs
  case h_4 => exact hs
  case h_5 =>
    dsimp only
    split <;> exact hs
  case h_6 sc _ =>
    extract_lets home
    have ht : t.mem.wf := hs
    split
    · exact ht
    · extract_lets ps inst pc
      split
      · split
        · exact ht
        · next L _ =>
          have harr := State.barArrive_mem t d gid home L sc inst pc
          generalize t.barArrive d gid home L sc inst pc = r at harr
          simpa [harr] using ht
      · exact ht
theorem State.tryGather_canonical (d : DieId) (gid p : Nat) (now : List Nat) : (s.tryGather d gid p now).Canonical := by
  unfold State.tryGather
  split
  · exact hs
  · split
    · exact hs
    · split
      · split
        · exact hs
        · exact State.gatherEffect_canonical hs ..
      · split
        · split
          · exact hs
          · exact State.gatherEffect_canonical hs ..
        · exact hs
theorem State.joinGather_canonical (w : Who) (kind : GatherKind) (addr p : Nat) (xs sel : List Nat) : (s.joinGather w kind addr p xs sel).Canonical := by
  unfold State.joinGather
  split
  · exact hs
  · dsimp only
    have hadd (f : Group → Group) : ((s.modGroup w.d w.gid f).tryGather w.d w.gid p xs).Canonical := State.tryGather_canonical (by exact hs) ..
    split
    · split
      · trivial
      · split
        · exact hadd _
        · split
          · exact hs
          · trivial
    · exact hadd _

theorem gatherBody_canonical (i : Instr) (kind : GatherKind) (addr : Nat) (k : Wait) (dst : Option Nat) (fa : DWord) (w : Who) :
    (gatherBody i kind addr k dst fa w s).Canonical := by
  unfold gatherBody
  split
  · exact hs
  · next G _ =>
    extract_lets fresh r ret
    have hr : r.Canonical := foldl_andThen_canonical (fun p s hs => State.joinGather_canonical hs ..) _ hs
    generalize r = r at hr
    split
    · trivial
    · exact hs
    · next t =>
      replace hr : t.mem.wf := hr
      split
      · exact hr
      · extract_lets passes back value u v out gone stay
        have hret (u : State) (xs : List Nat) : (ret u xs).mem = u.mem := rfl
        have hgone : gone.mem.wf := by
          have hu : u.mem.wf := by
            unfold u
            split <;> simpa using hr
          exact hu
        repeat' split
        all_goals simp [hret, hr, hgone]
end

end Sys2Proof.Machine
end

section
/-! PROOFS. The slot, bulk, control, tile, sync and fabric words keep main memory in canonical form (R42, R43). -/
namespace Sys2Proof.Machine
open Sys2Proof.Claims

/-! ## Slot words and ring words -/

theorem Eff.canonical_ite {c : Prop} [Decidable c] {a b : Eff} (ha : a.Canonical) (hb : b.Canonical) : (if c then a else b).Canonical := by
  split
  · exact ha
  · exact hb

theorem withSlot_canonical {w : Who} {s : State} {k : KReg} {n : Nat} {f : Slot → Eff} (h : ∀ a, (f a).Canonical) : (withSlot w s k n f).Canonical := by
  unfold withSlot
  dsimp only
  split
  · exact slotFault_canonical ..
  · exact h _
theorem withBSlot_canonical {w : Who} {s : State} {k : KReg} {f : Slot → BSlot → Eff} (h : ∀ a b, (f a b).Canonical) : (withBSlot w s k f).Canonical := by
  refine withSlot_canonical fun a => ?_
  split
  · exact slotFault_canonical ..
  · split
    · exact slotFault_canonical ..
    · exact h _ _
theorem withRing_canonical {w : Who} {s : State} {k : KReg} {f : Slot → Ring → Eff} (h : ∀ a r, (f a r).Canonical) : (withRing w s k f).Canonical := by
  refine withSlot_canonical fun a => ?_
  split
  · exact slotFault_canonical ..
  · split
    · exact slotFault_canonical ..
    · exact h _ _

section
variable {s : State} (hs : s.mem.wf)
include hs

theorem binitBody_canonical (sc : Scope) (k b : KReg) (w : Who) : (binitBody sc k b w s).Canonical := by
  refine withSlot_canonical fun a => ?_
  dsimp only
  split
  · simp
  · split
    · simp
    · split
      · simp
      · simp only [Eff.canonical_ok, State.setLive_mem]
        split <;> simpa using hs
theorem bretireBody_canonical (k : KReg) (w : Who) : (bretireBody k w s).Canonical := by
  refine withBSlot_canonical fun a b => ?_
  split
  · simp
  · simp only [Eff.canonical_ok, State.setLive_mem]
    split <;> simpa using hs
theorem barriveBody_canonical (k : KReg) (w : Who) : (barriveBody k w s).Canonical := by
  unfold barriveBody
  dsimp only
  split
  · exact gatherBody_canonical hs ..
  · exact withBSlot_canonical fun _ _ => gatherBody_canonical hs ..
theorem bexpectBody_canonical (k b : KReg) (w : Who) : (bexpectBody k b w s).Canonical := by
  refine withBSlot_canonical fun a _ => ?_
  split
  · simp
  · split
    · simp
    · next h => simpa [State.expect_mem h] using hs
theorem waitBody_canonical (k b : KReg) (w : Who) : (waitBody k b w s).Canonical := by
  refine withBSlot_canonical fun _ _ => ?_
  split <;> simpa [State.noteAcquire_mem] using hs
theorem btestBody_canonical (d : Reg) (k b : KReg) (w : Who) : (btestBody d k b w s).Canonical := by
  refine withBSlot_canonical fun _ _ => ?_
  simp only [Eff.canonical_ok, State.setUni_mem]
  split <;> simpa [State.noteAcquire_mem] using hs
theorem ctestBody_canonical (d : Reg) (k b : KReg) (w : Who) : (ctestBody d k b w s).Canonical := by
  refine withBSlot_canonical fun _ _ => ?_
  split
  · simp
  · simp only [Eff.canonical_ok, State.setUni_mem]
    split <;> simpa [State.noteAcquire_mem] using hs
theorem waitCntBody_canonical (i : Instr) (c : Counter) (limit : BitVec 8) (w : Who) : (waitCntBody i c limit w s).Canonical := by
  unfold waitCntBody
  dsimp only
  repeat' split
  all_goals simp [hs]
theorem rinitBody_canonical (k b : KReg) (w : Who) : (rinitBody k b w s).Canonical := by
  refine withSlot_canonical fun _ => ?_
  repeat' split
  all_goals simp [hs]
theorem rprodTakeBody_canonical (k : KReg) (w : Who) : (rprodTakeBody k w s).Canonical := by
  refine withRing_canonical fun a r => ?_
  extract_lets step todo
  generalize todo.foldl step (r, []) = q
  dsimp only
  repeat' split
  all_goals simp [State.noteAcquire_mem, hs]
theorem rprodFillBody_canonical (k : KReg) (w : Who) : (rprodFillBody k w s).Canonical := by
  refine withRing_canonical fun a r => ?_
  dsimp only
  repeat' split
  all_goals simp [State.noteRelease_mem, hs]
theorem rconsTakeBody_canonical (d : Reg) (k : KReg) (w : Who) : (rconsTakeBody d k w s).Canonical := by
  unfold rconsTakeBody
  dsimp only
  split
  · exact gatherBody_canonical hs ..
  · exact withRing_canonical fun _ _ => gatherBody_canonical hs ..
theorem rconsFreeBody_canonical (k : KReg) (w : Who) : (rconsFreeBody k w s).Canonical := by
  unfold rconsFreeBody
  dsimp only
  split
  · exact gatherBody_canonical hs ..
  · exact withRing_canonical fun _ _ => gatherBody_canonical hs ..
end

/-! ## Queueing words and GLD -/

theorem State.capture_mem {s t : State} {w : Who} {va : DWord} {n : Nat} {bs : List Byte} (h : s.capture w va n = .ok (bs, t)) : t.mem = s.mem := by
  unfold State.capture Acc.bind at h
  repeat' split at h
  all_goals cases h
  simp
theorem queueEach_mem (choose : State → Option Nat) (d : DieId) (mk : Nat → Cmd) (xs : List Nat) (s : State) : (queueEach choose d mk xs s).1.mem = s.mem := by
  induction xs generalizing s with
  | nil => rfl
  | cons x xs ih =>
    unfold queueEach
    split
    · rfl
    · exact ih _

section
variable {s : State} (hs : s.mem.wf)
include hs

theorem queueBody_canonical (choose : State → Option Nat) (mk : Nat → Cmd) (w : Who) (G : Group) : (queueBody choose mk w G s).Canonical := by
  unfold queueBody
  extract_lets todo
  have hq := queueEach_mem choose w.d mk todo s
  generalize queueEach choose w.d mk todo s = q at hq
  dsimp only
  repeat' split
  all_goals simp [hq, hs]
theorem tcopyBody_canonical (mc : Bool) (n : Buf) (k c : KReg) (w : Who) : (tcopyBody mc n k c w s).Canonical := by
  unfold tcopyBody
  split
  · exact hs
  · dsimp only
    split
    · exact hs
    · split
      · exact kfault_canonical ..
      · next h => exact queueBody_canonical (by simpa [State.capture_mem h] using hs) ..
theorem crunBody_canonical (c : Nat) (k a : KReg) (w : Who) : (crunBody c k a w s).Canonical := by
  unfold crunBody
  split
  · exact hs
  · dsimp only
    split
    · exact hs
    · split
      · exact kfault_canonical ..
      · next h =>
        split
        · exact kfault_canonical ..
        · exact queueBody_canonical (by simpa [State.capture_mem h] using hs) ..
theorem rowsBody_canonical (kind : CmdKind) (n : Buf) (k : KReg) (a : Reg) (w : Who) : (rowsBody kind n k a w s).Canonical := by
  unfold rowsBody
  split
  · exact hs
  · dsimp only
    split
    · exact hs
    · split
      · exact kfault_canonical ..
      · next h => split <;> simpa [State.capture_mem h] using hs
omit hs in
theorem releasing_canonical {body : Who → State → Eff} (hb : ∀ w s, s.mem.wf → (body w s).Canonical) (w : Who) (s : State) (hs : s.mem.wf) :
    (releasing body w s).Canonical := by
  unfold releasing
  split
  · exact hs
  · exact hb w s hs
theorem gldIssue_canonical (wd : Sys2Proof.GldWidth) (d a : Reg) (w : Who) : (gldIssue wd d a w s).Canonical := by
  unfold gldIssue
  dsimp only
  split
  · simp
  · split
    · exact hs
    · split
      · simpa using hs
      · split
        · exact hs
        · simp only [Eff.canonical_ok, State.modGroup_mem]
          rw [foldl_mem fun _ _ => by simp]
          exact hs

/-! ## Forms and control -/

theorem formBody_canonical (d a b : Reg) (w : Who) : (formBody d a b w s).Canonical := by
  unfold formBody
  dsimp only
  repeat' split
  all_goals simp [hs]
theorem formTagBody_canonical (d a : Reg) (w : Who) : (formTagBody d a w s).Canonical := by simp [formTagBody, hs]
theorem expandBody_canonical (w : Who) : (expandBody w s).Canonical := by
  unfold expandBody
  split <;> simp [hs]
theorem hcountBody_canonical (d : Reg) (w : Who) : (hcountBody d w s).Canonical := by
  unfold hcountBody
  split <;> simp [hs]
theorem reformBody_canonical (d : Reg) (k : KReg) (w : Who) : (reformBody d k w s).Canonical := by
  unfold reformBody
  repeat' split
  all_goals simp [hs]
theorem brcBody_canonical (c : Reg) (off : BitVec 19) (w : Who) : (brcBody c off w s).Canonical := by
  unfold brcBody
  split
  · exact byCond_canonical fun _ => hs
  · exact hs
theorem callBody_canonical (d : Reg) (off : BitVec 19) (w : Who) : (callBody d off w s).Canonical := by simp [callBody, hs]
theorem retBody_canonical (a : Reg) (w : Who) : (retBody a w s).Canonical := by
  unfold retBody
  dsimp only
  repeat' split
  all_goals simp [hs]
theorem exitBody_canonical (w : Who) : (exitBody w s).Canonical := by
  unfold exitBody
  split
  · exact hs
  · next G _ =>
    extract_lets t r
    have hr : r.Canonical := foldl_andThen_canonical (fun p s hs => State.tryGather_canonical hs ..) _ (by exact hs)
    generalize r = r at hr
    split
    · trivial
    · exact hs
    · rw [Eff.canonical_done, State.settleLaunch_mem]
      exact hr
theorem joinBody_canonical (k : KReg) (w : Who) : (joinBody k w s).Canonical := by
  unfold joinBody
  split <;> exact hs
theorem trapiBody_canonical (i : Instr) (code : BitVec 12) (w : Who) : (trapiBody i code w s).Canonical := by
  unfold trapiBody
  dsimp only
  split <;> simp [hs]
theorem reggiveBody_canonical (i : Instr) (n : Nat) (w : Who) : (reggiveBody i n w s).Canonical := by
  unfold reggiveBody
  split
  · exact hs
  · dsimp only
    split
    · trivial
    · exact gatherBody_canonical hs ..
theorem regclaimBody_canonical (i : Instr) (n : Nat) (w : Who) : (regclaimBody i n w s).Canonical := by
  unfold regclaimBody
  split
  · exact hs
  · dsimp only
    split
    · trivial
    · exact gatherBody_canonical hs ..

/-! ## Float words, words that combine lanes, tile words -/

theorem fword1_canonical (d a : Reg) (r : Rounds) (f : Mode → Bool → Word → Word → Word) (w : Who) : (fword1 d a r f w s).Canonical := by
  unfold fword1
  dsimp only
  split
  · split
    · trivial
    · exact formEff_canonical hs ..
  · simp [hs]
theorem fword2_canonical (d a b : Reg) (r : Rounds) (f : Mode → Bool → Word → Word → Word → Word) (w : Who) : (fword2 d a b r f w s).Canonical := by
  unfold fword2
  dsimp only
  split
  · split
    · trivial
    · exact formEff_canonical hs ..
  · simp [hs]
theorem fword3_canonical (d a b : Reg) (r : Rounds) (f : Mode → Bool → Word → Word → Word → Word → Word) (w : Who) :
    (fword3 d a b r f w s).Canonical := by
  unfold fword3
  dsimp only
  split
  · split
    · trivial
    · exact formEff_canonical hs ..
  · simp [hs]
theorem crossWord_canonical (d : Reg) (n : Group → Nat) (f : Group → List Nat → (l base x : Nat) → Word) (w : Who) : (crossWord d n f w s).Canonical := by
  unfold crossWord
  split <;> simp [hs]
theorem blockWord_canonical (d : Reg) (n : FmtSlot) (f : Nat → FmtSlotVal → List Hint → Group → (l base x : Nat) → Word) (w : Who) :
    (blockWord d n f w s).Canonical := by
  unfold blockWord
  split
  · trivial
  · exact hs
  · dsimp only
    split
    · trivial
    · split
      · trivial
      · exact crossWord_canonical hs ..
omit hs in
theorem uniformReg_canonical {a : Reg} {body : Who → State → Eff} (hb : ∀ w s, s.mem.wf → (body w s).Canonical) (w : Who) (s : State) (hs : s.mem.wf) :
    (uniformReg a body w s).Canonical := by
  unfold uniformReg
  split
  · trivial
  · exact hb w s hs
omit hs in
theorem lanesOnly_canonical {body : Who → State → Eff} (hb : ∀ w s, s.mem.wf → (body w s).Canonical) (w : Who) (s : State) (hs : s.mem.wf) :
    (lanesOnly body w s).Canonical := by
  unfold lanesOnly
  split
  · trivial
  · exact hb w s hs
theorem tileIssue_canonical (i : Instr) (freg : Option Nat) (mk : Who → Group → State → TRes) (w : Who) : (tileIssue i freg mk w s).Canonical := by
  unfold tileIssue
  split
  · next G _ _ _ =>
    extract_lets parts act late push tok
    have hpush (p : Who) (s : State) : (push p s).mem = s.mem := by
      unfold push
      split <;> simp
    split
    · split
      · trivial
      · exact hs
    · split
      · exact hs
      · split
        · simpa [hpush] using hs
        · rw [Eff.canonical_done, foldl_mem]
          · exact hs
          · intro t p
            split <;> simp [hpush]
  · exact hs
theorem tdredBody_canonical (t : Tile) (k : KReg) (w : Who) : (tdredBody t k w s).Canonical := by
  unfold tdredBody
  split
  · exact hs
  · extract_lets S rowsAt ps twice v all mark
    have hmark (t : State) : (mark t).mem = t.mem := rfl
    have htile := tileIssue_canonical hs (.tdred t k) none (sendRows t k) w
    split
    · next h => simpa [h, hmark] using htile
    · next h =>
      split
      · trivial
      · simpa [h, hmark] using htile
    · exact htile

/-! ## Atomics, queue words and the ordering words -/

theorem atomicBody_canonical (i : Instr) (A : Atomic) (w : Who) : (atomicBody i A w s).Canonical := by
  unfold atomicBody
  dsimp only
  split
  · trivial
  · split
    · exact hs
    · split
      · trivial
      · split
        · simpa using hs
        · rw [Eff.canonical_done, foldl_mem]
          · exact hs
          · intro t x
            split <;> simp
theorem queueWord_canonical (i : Instr) (op : SyncOp) (rel : Bool) (k : KReg) (rec8 : Option KReg) (dst dstk : Nat) (w : Who) :
    (queueWord i op rel k rec8 dst dstk w s).Canonical := by
  unfold queueWord
  dsimp only
  repeat' split
  all_goals simp [hs]
theorem bindBody_canonical (k b : KReg) (w : Who) : (bindBody k b w s).Canonical := by
  unfold bindBody
  dsimp only
  repeat' split
  all_goals simp [hs]
theorem acqBody_canonical (k : KReg) (w : Who) : (acqBody k w s).Canonical := by
  unfold acqBody
  dsimp only
  repeat' split
  all_goals simp [State.noteAcquire_mem, hs]
theorem relBody_canonical (k : KReg) (w : Who) : (relBody k w s).Canonical := by
  unfold relBody
  dsimp only
  repeat' split
  all_goals simp [State.noteRelease_mem, hs]
theorem tfenceBody_canonical (sc : Scope) (w : Who) : (tfenceBody sc w s).Canonical := by
  unfold tfenceBody
  dsimp only
  split
  · exact hs
  · split
    · exact hs
    · refine foldl_wf (fun _ q h => State.queueBack_wf h q) _ ?_
      rw [foldl_mem fun _ _ => State.modDie_mem ..]
      exact hs
theorem dinvBody_canonical (sc : Scope) (w : Who) : (dinvBody sc w s).Canonical := by
  unfold dinvBody
  split
  · exact hs
  · rw [Eff.canonical_ok, foldl_mem fun _ _ => State.modDie_mem ..]
    exact hs

/-! ## Sessions, PHASE and BAR, named tiles -/

theorem credBody_canonical (isExact : Bool) (sc : Scope) (k a : KReg) (w : Who) : (credBody isExact sc k a w s).Canonical := by
  unfold credBody
  split
  · exact hs
  · dsimp only
    split
    · exact slotFault_canonical ..
    · repeat refine Eff.canonical_ite (by simp [hs]) ?_
      split
      · exact kfault_canonical ..
      · refine Eff.canonical_ite (by simp) ?_
        split
        · exact hs
        · refine Eff.canonical_ite hs ?_
          rw [Eff.canonical_ok, State.setK_mem]
          split <;> simp [hs]
theorem ccloseBody_canonical (k : KReg) (w : Who) : (ccloseBody k w s).Canonical := by
  unfold ccloseBody
  dsimp only
  repeat' split
  all_goals simp [hs]
theorem phaseBody_canonical (sc : Scope) (k b : KReg) (w : Who) : (phaseBody sc k b w s).Canonical := by
  unfold phaseBody
  split
  · trivial
  · split
    · trivial
    · next h => split <;> simpa [State.phaseCount_mem h] using hs
theorem barBody_canonical (sc : Scope) (w : Who) : (barBody sc w s).Canonical := by
  unfold barBody
  split
  · exact hs
  · dsimp only
    split
    · exact gatherBody_canonical hs ..
    · split
      · exact hs
      · split
        · trivial
        · split
          · trivial
          · next h =>
            have ht := (State.needSet_mem h).symm ▸ hs
            split
            · exact ht
            · exact gatherBody_canonical ht ..
omit hs in
@[simp] theorem nfault_canonical (w : Who) (c : Cause) (fa : DWord) : (nfault w c fa).Canonical := trivial
theorem withName_canonical {k : KReg} {w : Who} {f : DWord → BitVec 128 → NameEntry → State → Eff}
    (hf : ∀ name raw E t, t.mem.wf → (f name raw E t).Canonical) : (withName k w s f).Canonical := by
  unfold withName
  dsimp only
  split
  · exact hs
  · split
    · trivial
    · next h =>
      split
      · trivial
      · split
        · trivial
        · exact hf _ _ _ _ ((State.capture_mem h).symm ▸ hs)
theorem withTile_canonical {n : Buf} {k : KReg} {w : Who} {f : Group → DWord → BitVec 128 → NameEntry → Router × Option Nat → State → Eff}
    (hf : ∀ G name raw E h t, t.mem.wf → (f G name raw E h t).Canonical) : (withTile n k w s f).Canonical := by
  unfold withTile
  split
  · exact hs
  · refine withName_canonical hs fun _ _ _ _ ht => ?_
    dsimp only
    repeat' split
    all_goals simp [hf, ht]
theorem wantBody_canonical (n : Buf) (k : KReg) (w : Who) : (wantBody n k w s).Canonical := by
  refine withTile_canonical hs fun _ _ _ _ _ _ ht => ?_
  dsimp only
  repeat' split
  all_goals simp [ht]
theorem offerBody_canonical (n : Buf) (k : KReg) (w : Who) : (offerBody n k w s).Canonical := by
  refine withTile_canonical hs fun _ _ _ _ _ _ ht => ?_
  dsimp only
  split <;> simp [ht]
theorem unwantBody_canonical (k : KReg) (w : Who) : (unwantBody k w s).Canonical := by
  unfold unwantBody
  dsimp only
  split <;> simp [hs]
theorem nevictBody_canonical (k : KReg) (w : Who) : (nevictBody k w s).Canonical := by
  unfold nevictBody
  split
  · exact hs
  · refine withName_canonical hs fun _ _ _ _ ht => ?_
    split <;> simp [ht]
theorem ntwrBody_canonical (k b : KReg) (w : Who) : (ntwrBody k b w s).Canonical := by
  unfold ntwrBody
  dsimp only
  repeat' split
  all_goals simp [hs]

/-! ## The supervisor's words -/

theorem trapretBody_canonical (w : Who) : (trapretBody w s).Canonical := by
  unfold trapretBody
  dsimp only
  repeat' split
  all_goals simp [hs]
theorem haltpBody_canonical (p : BitVec 3) (w : Who) : (haltpBody p w s).Canonical := by
  unfold haltpBody
  dsimp only
  split <;> simp [hs]
theorem sysrdBody_canonical (wide : Bool) (d : Reg) (n : BitVec 12) (w : Who) : (sysrdBody wide d n w s).Canonical := by
  unfold sysrdBody
  split
  · trivial
  · split <;> simp [hs]
omit hs in
theorem withSource_canonical {regs : Nat} {a : Reg} {body : DWord → Who → State → Eff} (hb : ∀ v w s, s.mem.wf → (body v w s).Canonical) (w : Who)
    (s : State) (hs : s.mem.wf) : (withSource regs a body w s).Canonical := by
  unfold withSource
  split
  · trivial
  · exact hb _ w s hs
end

end Sys2Proof.Machine
end

section
/-! PROOFS. The supervisor's words and the carder words keep main memory in canonical form (R42, R43). -/
namespace Sys2Proof.Machine
open Sys2Proof.Claims

/-! ## System registers, engine images and ICINV -/

section
variable {s t : State}

theorem State.swap_mem {d : DieId} {c : Ctx} (h : s.swap d c = some t) : t.mem = s.mem := by
  unfold State.swap at h
  dsimp only at h
  split at h <;> cases h
  rfl
theorem State.shadowSave_mem {d : DieId} (h : s.shadowSave d = some t) : t.mem = s.mem := by
  unfold State.shadowSave at h
  split at h <;> cases h
  rfl
theorem State.shadowLoad_mem {d : DieId} {c : Ctx} (h : s.shadowLoad d c = some t) : t.mem = s.mem := by
  unfold State.shadowLoad at h
  split at h <;> cases h
  rfl
theorem State.shadowCreate_mem {d : DieId} {c : Ctx} (h : s.shadowCreate d c = some t) : t.mem = s.mem := by
  unfold State.shadowCreate at h
  split at h <;> cases h
  rfl
theorem State.shadowWrite_mem {d : DieId} {v : Word} (h : s.shadowWrite d v = some t) : t.mem = s.mem := by
  unfold State.shadowWrite at h
  dsimp only at h
  split at h
  · cases h
    rfl
  · exact State.shadowSave_mem h
  · exact State.shadowLoad_mem h
  · exact State.shadowCreate_mem h
theorem State.modSelected_mem {d : DieId} {f : Bank → Bank} (h : s.modSelected d f = some t) : t.mem = s.mem := by
  unfold State.modSelected at h
  dsimp only at h
  repeat' split at h
  all_goals cases h
  all_goals rfl
theorem State.sysWrite_mem {d : DieId} {n : Nat} {v : DWord} (h : s.sysWrite d n v = some t) : t.mem = s.mem := by
  unfold State.sysWrite at h
  dsimp only at h
  split at h
  case h_6 => exact State.swap_mem h
  case h_7 => exact State.shadowWrite_mem h
  case h_10 | h_11 | h_13 | h_15 | h_16 => exact State.modSelected_mem h
  case h_14 =>
    obtain ⟨B, -, hB⟩ := Option.bind_eq_some_iff.mp h
    exact (State.modSelected_mem hB).trans (State.modDie_mem ..)
  all_goals cases h; simp
theorem State.installCarder_mem {d : DieId} {i n : Nat} (h : s.installCarder d i n = some t) : t.mem = s.mem := by
  unfold State.installCarder at h
  dsimp only at h
  split at h <;> cases h
  rfl
theorem State.installTile_mem {d : DieId} {core n : Nat} (h : s.installTile d core n = some t) : t.mem = s.mem := by
  unfold State.installTile at h
  dsimp only at h
  split at h <;> cases h
  exact foldl_mem (fun _ _ => by simp) _ s
theorem State.syncCommand_wf {d : DieId} {v : Word} (hs : s.mem.wf) (h : s.syncCommand d v = some t) : t.mem.wf := by
  unfold State.syncCommand at h
  dsimp only at h
  split at h
  · cases h
    exact hs
  · split at h
    · cases h
      rw [foldl_mem fun _ _ => by simp, foldl_mem fun _ _ => by simp]
      exact hs
    · split at h
      · cases h
        split
        · exact State.queueBack_wf hs _
        · exact hs
      · cases h
end

section
variable {s : State} (hs : s.mem.wf)
include hs

theorem syswrBody_canonical (n : BitVec 12) (v : DWord) (w : Who) : (syswrBody n v w s).Canonical := by
  unfold syswrBody
  split
  · trivial
  · split
    · trivial
    · next h =>
      rw [Eff.canonical_ok, State.sysWrite_mem h]
      exact hs
theorem eqrdBody_canonical (d : Reg) (cls : BitVec 4) (inst : BitVec 8) (w : Who) : (eqrdBody d cls inst w s).Canonical := by
  unfold eqrdBody
  dsimp only
  repeat' split
  all_goals simp [hs]
theorem eqwrBody_canonical (cls : BitVec 4) (inst : BitVec 8) (v : DWord) (w : Who) : (eqwrBody cls inst v w s).Canonical := by
  unfold eqwrBody
  dsimp only
  split
  · exact hs
  · split
    · trivial
    · next t h =>
      rw [Eff.canonical_ok]
      repeat' split at h
      · cases h
      · exact (State.installCarder_mem h).symm ▸ hs
      · exact (State.installTile_mem h).symm ▸ hs
      · cases h
      · exact State.syncCommand_wf hs h
theorem icinvBody_canonical (v : DWord) (w : Who) : (icinvBody v w s).Canonical := by
  unfold icinvBody
  split
  · trivial
  · split
    · exact hs
    · rw [Eff.canonical_ok, foldl_mem fun _ _ => State.modDie_mem ..]
      exact hs
end

/-! ## Carder words -/

theorem withCmd_canonical {c : Carder} {s : State} {f : Cmd → CEff} (hs : s.mem.wf) (hf : ∀ q, (f q).Canonical) : (withCmd c s f).Canonical := by
  unfold withCmd
  split
  · exact hs
  · exact hf _
theorem cget_canonical {d : DieId} {inst : Nat} {q : Cmd} {s : State} {v : DWord} {n : Nat} {f : List Byte → CEff} (hs : s.mem.wf)
    (hf : ∀ bs, (f bs).Canonical) : (cget d inst q s v n f).Canonical := by
  unfold cget
  split
  · exact hs
  · split
    · trivial
    · exact hf _
theorem cput_canonical {d : DieId} {inst : Nat} {q : Cmd} {s : State} {v : DWord} {bs : List Byte} {f : State → CEff} (hs : s.mem.wf)
    (hf : ∀ t, t.mem.wf → (f t).Canonical) : (cput d inst q s v bs f).Canonical := by
  unfold cput
  split
  · exact hs
  · split
    · trivial
    · next h => exact hf _ (State.cwrite_wf hs h)

section
variable {s : State} (hs : s.mem.wf)
include hs

theorem cretBody_canonical (a : Reg) (d : DieId) (inst : Nat) (c : Carder) (h : List Hint) : (cretBody a d inst c h s).Canonical := by
  unfold cretBody
  split
  · trivial
  · exact hs
theorem cldxBody_canonical (m : CWidth) (dst a b : Reg) (d : DieId) (inst : Nat) (c : Carder) (h : List Hint) :
    (cldxBody m dst a b d inst c h s).Canonical := by
  unfold cldxBody
  dsimp only
  split
  · trivial
  · exact withCmd_canonical hs fun _ => cget_canonical hs fun _ => by simp [hs]
theorem cstxBody_canonical (m : CWidth) (src a b : Reg) (d : DieId) (inst : Nat) (c : Carder) (h : List Hint) :
    (cstxBody m src a b d inst c h s).Canonical := by
  unfold cstxBody
  dsimp only
  split
  · trivial
  · exact withCmd_canonical hs fun _ => cput_canonical hs fun _ ht => ht
theorem caddrBody_canonical (dst a b : Reg) (d : DieId) (inst : Nat) (c : Carder) (h : List Hint) : (caddrBody dst a b d inst c h s).Canonical := by
  unfold caddrBody
  dsimp only
  split
  · trivial
  · refine withCmd_canonical hs fun _ => cget_canonical hs fun _ => ?_
    repeat' split
    all_goals simp [hs]
theorem cxferBody_canonical (a b n : Reg) (d : DieId) (inst : Nat) (c : Carder) (h : List Hint) : (cxferBody a b n d inst c h s).Canonical := by
  unfold cxferBody
  dsimp only
  split
  · trivial
  · split
    · exact hs
    · refine withCmd_canonical hs fun _ => cget_canonical hs fun _ => cput_canonical (by simpa using hs) fun _ ht => ?_
      split <;> exact ht
theorem sortedBody_canonical (merge : Bool) (w : SWidth) (dst a b : Reg) (d : DieId) (inst : Nat) (c : Carder) (h : List Hint) :
    (sortedBody merge w dst a b d inst c h s).Canonical := by
  unfold sortedBody
  dsimp -zeta only
  extract_lets k reg el go
  split
  · trivial
  · refine withCmd_canonical hs fun q => ?_
    extract_lets t1 t emit
    have ht : t.mem.wf := by
      unfold t t1
      split <;> split <;> simpa using hs
    have hgo (u : State) (i j n : Nat) (hu : u.mem.wf) : (go u i j n).Canonical := hu
    have hemit (bs : List Byte) (i j : Nat) : (emit bs i j).Canonical := by
      unfold emit
      split
      · exact hgo _ _ _ _ ht
      · split
        · trivial
        · exact cput_canonical ht fun _ hu => hgo _ _ _ _ hu
    split
    · refine cget_canonical hs fun x => cget_canonical hs fun y => ?_
      repeat' split
      all_goals simp [hemit, hgo, ht]
    · split
      · exact cget_canonical hs fun _ => hemit ..
      · split
        · exact cget_canonical hs fun _ => hemit ..
        · exact hs
theorem carriveBody_canonical (a b : Reg) (d : DieId) (inst : Nat) (c : Carder) (h : List Hint) : (carriveBody a b d inst c h s).Canonical := by
  unfold carriveBody
  refine withCmd_canonical hs fun q => ?_
  split
  · trivial
  · trivial
  · split
    · trivial
    · split
      · trivial
      · split
        · split
          · trivial
          · split
            · exact hs
            · simpa using hs
        · split
          · trivial
          · split
            · trivial
            · next h =>
              rw [CEff.canonical_ok, State.arriveCredit_mem h]
              exact hs
end

end Sys2Proof.Machine
end

section
/-! PROOFS. What performs a word keeps main memory in canonical form where the word does (R42, R43). -/
namespace Sys2Proof.Machine
open Sys2Proof.Claims

/-! ## Performing a word -/

@[simp] theorem State.holdBusy_mem (s : State) (w : Who) (u : Use) : (s.holdBusy w u).1.mem = s.mem := by
  unfold State.holdBusy
  split
  · rfl
  · dsimp only
    split <;> rfl
theorem State.apply_wf {s : State} {w : Who} {i : Instr} {e : Eff} (he : e.Canonical) (hs : s.mem.wf) : (s.apply w i e).mem.wf := by
  cases e with
  | ok t tok => exact he
  | jump t safe tgt => exact he
  | done t => exact he
  | hold t k =>
    simp only [State.apply]
    split <;> exact he
  | expand => exact hs
  | cond _ => exact hs
  | trap t => exact (State.trap_mem ..).symm ▸ hs

section
variable {i : Instr} {body : Who → State → Eff} (hb : ∀ w s, s.mem.wf → (body w s).Canonical)
include hb

theorem runHood_wf : ∀ (fuel : Nat) (w : Who) {s : State}, s.mem.wf → (runHood i body fuel w s).mem.wf
  | 0, w, s, hs => (State.expandThread_mem s w).symm ▸ hs
  | fuel + 1, w, s, hs => by
    unfold runHood
    extract_lets lo hi owe byCond run
    have hby (t : List Nat) (once : Bool → State) (ho : ∀ b, (once b).mem.wf) : (byCond t once).mem.wf := by
      unfold byCond
      split
      · exact ho _
      · split
        · simpa using hs
        · exact runHood_wf fuel _ (runHood_wf fuel _ (by exact hs))
      · simpa using hs
    have hrun (w : Who) : (run w).mem.wf := by
      unfold run
      have hbusy : (s.holdBusy w i.use).1.mem.wf := by simpa using hs
      generalize s.holdBusy w i.use = p at hbusy
      dsimp only
      split
      · exact hbusy
      · split
        · simpa using hbusy
        · exact hby _ _ fun _ => by simpa using hbusy
        · exact State.apply_wf (hb p.2 p.1 hbusy) hbusy
    split
    · exact hrun w
    · refine hby _ _ fun b => ?_
      split
      · exact hrun w
      · split
        · exact hrun _
        · exact hs
theorem inParts_wf (ws : List Who) {s : State} (hs : s.mem.wf) : (inParts i body ws s).mem.wf := by
  refine foldl_wf (fun s w hs => ?_) ws hs
  split
  · exact hs
  · split
    · exact hs
    · exact hs
    · exact State.apply_wf (hb w s hs) hs
theorem perWave_canonical (w : Who) (s : State) (hs : s.mem.wf) : (perWave i body w s).Canonical := by
  unfold perWave
  split
  · exact hb w s hs
  · exact hb w s hs
  · exact inParts_wf hb _ hs
theorem perClass_canonical (w : Who) (s : State) (hs : s.mem.wf) : (perClass i body w s).Canonical := by
  unfold perClass
  dsimp only
  split
  · exact hb w s hs
  · split
    · exact inParts_wf hb _ hs
    · trivial
theorem runLanes_wf (w : Who) {s : State} (hs : s.mem.wf) : (runLanes i body w s).mem.wf := by
  unfold runLanes
  have hbusy : (s.holdBusy { w with xs := s.selected w } i.use).1.mem.wf := by simpa using hs
  generalize s.holdBusy { w with xs := s.selected w } i.use = p at hbusy
  dsimp only
  split
  · exact hbusy
  · split
    · exact hbusy
    · split
      · exact hbusy
      · exact hbusy
      · exact State.apply_wf (hb p.2 p.1 hbusy) hbusy
theorem runThread_wf (w : Who) {s : State} (hs : s.mem.wf) : (runThread i body w s).mem.wf := by
  unfold runThread
  split
  · simpa using hs
  · split
    · exact runLanes_wf hb w hs
    · dsimp only
      split
      · exact hs
      · exact hs
      · exact runHood_wf hb 4 w hs
end

theorem runCarder_wf {i : Instr} {d : DieId} {inst : Nat} {body : Carder → List Hint → State → CEff}
    (hb : ∀ c h s, s.mem.wf → (body c h s).Canonical) {s : State} (hs : s.mem.wf) : (runCarder i d inst body s).mem.wf := by
  unfold runCarder
  extract_lets c pc chainPc skip fin
  have hfin (s : State) (c : Carder) (tgt : DWord) (hs : s.mem.wf) : (fin s c tgt).mem.wf := hs
  split
  · simpa using hs
  · split
    · simpa using hs
    · split
      · exact hfin _ _ _ hs
      · have h := hb c c.ctl.chain s hs
        generalize body c c.ctl.chain s = e at h
        cases e with
        | ok c t => exact hfin _ _ _ h
        | jump t c tgt => exact hfin _ _ _ h
        | hold t => exact h
        | done t => exact h
        | trap inner fa => simpa using hs
theorem issued_wf {i : Instr} {body : Who → State → Eff} {cbody : DieId → Nat → Carder → List Hint → State → CEff} {s t : State}
    (hb : ∀ w s, s.mem.wf → (body w s).Canonical) (hc : ∀ d inst c h s, s.mem.wf → (cbody d inst c h s).Canonical)
    (hs : s.mem.wf) (h : issued i body cbody s = .next t) : t.mem.wf := by
  unfold issued at h
  split at h
  · cases h
  · cases h
    exact runCarder_wf (hc _ _) hs
  · split at h <;> cases h
    exact runThread_wf hb _ hs

section
variable {i : Instr} {body : Who → State → Eff} {cbody : DieId → Nat → Carder → List Hint → State → CEff} {s t : State}

theorem noCarder_canonical (d : DieId) (inst : Nat) (c : Carder) (g : List Hint) (s : State) (hs : s.mem.wf) : (noCarder d inst c g s).Canonical := hs
theorem threadWord_wf (h : threadWord i body s = .next t) (hs : s.mem.wf) (hb : ∀ w s, s.mem.wf → (body w s).Canonical) : t.mem.wf :=
  issued_wf (perClass_canonical hb) noCarder_canonical hs h
theorem jointWord_wf (h : jointWord i body s = .next t) (hs : s.mem.wf) (hb : ∀ w s, s.mem.wf → (body w s).Canonical) : t.mem.wf :=
  issued_wf hb noCarder_canonical hs h
theorem waveWord_wf (h : waveWord i body s = .next t) (hs : s.mem.wf) (hb : ∀ w s, s.mem.wf → (body w s).Canonical) : t.mem.wf :=
  issued_wf (perWave_canonical hb) noCarder_canonical hs h
theorem sharedWord_wf (h : sharedWord i body cbody s = .next t) (hs : s.mem.wf) (hb : ∀ w s, s.mem.wf → (body w s).Canonical)
    (hc : ∀ d inst c h s, s.mem.wf → (cbody d inst c h s).Canonical) : t.mem.wf :=
  issued_wf (perClass_canonical hb) hc hs h
theorem carderWord_wf (h : carderWord i cbody s = .next t) (hs : s.mem.wf) (hc : ∀ d inst c h s, s.mem.wf → (cbody d inst c h s).Canonical) : t.mem.wf :=
  sharedWord_wf (body := fun _ s => .done s) h hs (fun _ _ hs => hs) hc
theorem hintWord_wf {g : Hint} (h : hintWord i g s = .next t) (hs : s.mem.wf) : t.mem.wf := by
  unfold hintWord at h
  split at h
  · cases h
  · cases h
    simpa using hs
  · split at h <;> cases h
    simpa using hs
end

end Sys2Proof.Machine
end

section
/-! PROOFS. Every word of the encoding keeps main memory in canonical form (R42, R43). -/
namespace Sys2Proof.Machine
open Sys2Proof.Claims

/-- Every word of the encoding keeps main memory canonical. -/
theorem exec_word_wf {i : Instr} (he : i.encoded = true) {s t : State} (hs : s.mem.wf) (h : exec i s = .next t) : t.mem.wf := by
  cases i with
  | carderCommandStart | haltComplete | eventDelivery | tsliceExpiry | stepHalt | shadowOpComplete | unitLanding | mergeHoldTimeout | launchStart |
  groupEnd | launchEnd | binTimerExpiry | binDrain | queueMiss | atomicPerform | syncReplyLanding | pendingDeadline | interestLifetimeExpiry |
  sessionJoin | sessionClose | sessionResultWrite | migrationComplete | tileWordPerform | haltreq | malformedWord | powerOnBringup | translationPublish
  | groupPlacement | workSteal | offerChunkArrival | retentionExpiry | interestArrival | tileHeaderArrival | withdrawalArrival | offerHeaderArrival |
  chunkLanding | migctlWrite | tsliceWrite | tpendClear | swapComplete | contextSwap | shadowSave | shadowLoad | shadowCreate | podGenerationOpen |
  podCombinedArrival | podPhaseCount | podRelease | linkFlitError | laneSparing | headerCrcFailure | migrationStart | partitionLayoutWrite |
  bringupTimeout | thermalThrottle | thermalShutdown | routerFailure | eccUncorrectable | softErrorCorrected | spdmMeasurements | keySlotWrite |
  podRouteTableWrite | coreFailure | loaderLoad | loaderIcinv | loaderReadatt | loaderInvalidCommand => cases he
  | iadd | isub | imul | shl | iaddSatI32 | isubSatI32 | iaddSatN32 | isubSatN32 | imulhI32 | imulhN32 | iminI32 | iminN32 | imaxI32 | imaxN32 | and |
  or | xor | andn | shr | sar | rol | bfxI32 | bfxN32 => exact sharedWord_wf h hs (fun _ _ hs => word2_canonical hs ..) fun _ _ _ _ _ hs => hs
  | iabs | popc | clz | ctz | brev | ineg | not | mov | shli => exact sharedWord_wf h hs (fun _ _ hs => word1_canonical hs ..) fun _ _ _ _ _ hs => hs
  | imad | bfi => exact sharedWord_wf h hs (fun _ _ hs => word3_canonical hs ..) fun _ _ _ _ _ hs => hs
  | icmp => exact sharedWord_wf h hs (fun _ _ hs => icmpBody_canonical hs ..) fun _ _ _ _ _ hs => hs
  | sel => exact sharedWord_wf h hs (fun _ _ hs => selBody_canonical hs ..) fun _ _ _ _ _ hs => hs
  | movk => exact threadWord_wf h hs fun _ _ hs => movkBody_canonical hs ..
  | idivI32 | idivN32 | iremI32 | iremN32 => exact threadWord_wf h hs fun _ _ hs => word2_canonical hs ..
  | movi | addi | andi | ori | xori => exact sharedWord_wf h hs (fun _ _ hs => immWord_canonical hs ..) fun _ _ _ _ _ hs => hs
  | kadd | ksub | kmul | kand | kor | kxor | kshl | kshr | kcmp | kmov | kmovi =>
    exact sharedWord_wf h hs (fun _ _ hs => kword_canonical hs ..) fun _ _ _ _ _ hs => hs
  | kld => exact threadWord_wf h hs fun _ _ hs => kldBody_canonical hs ..
  | kst => exact threadWord_wf h hs fun _ _ hs => kstBody_canonical hs ..
  | rds => exact threadWord_wf h hs fun _ _ hs => rdsBody_canonical hs ..
  | movts => exact threadWord_wf h hs fun _ _ hs => movtsBody_canonical hs ..
  | fadd | fsub | fmul | fmin | fmax | fcmp | fdiv | hadd2H16 | hmul2H16 | hadd2B16 | hmul2B16 => exact threadWord_wf h hs fun _ _ hs => fword2_canonical hs ..
  | ffma | hfma2H16 | hfma2B16 => exact threadWord_wf h hs fun _ _ hs => fword3_canonical hs ..
  | fneg | fabs | frcp | frsq | fsqrt | fexp2 | flog2 | ftanh | fclass | cvtifI32 | cvtifN32 | cvtfiI32 | cvtfiN32 | fcvt =>
    exact threadWord_wf h hs fun _ _ hs => fword1_canonical hs ..
  | bkpack | bkunpk => exact threadWord_wf h hs fun _ _ hs => blockWord_canonical hs ..
  | shfl | vote | lred | lscanIncl | lscanExcl | lredF32 | lscanInclF32 | lscanExclF32 | gshfl =>
    exact threadWord_wf h hs fun _ _ hs => crossWord_canonical hs ..
  | form => exact threadWord_wf h hs fun _ _ hs => formBody_canonical hs ..
  | formTag => exact threadWord_wf h hs fun _ _ hs => formTagBody_canonical hs ..
  | hcount => exact threadWord_wf h hs fun _ _ hs => hcountBody_canonical hs ..
  | reform => exact threadWord_wf h hs fun _ _ hs => reformBody_canonical hs ..
  | bra | nop => exact sharedWord_wf h hs (fun _ _ hs => hs) fun _ _ _ _ _ hs => hs
  | brc => exact sharedWord_wf h hs (fun _ _ hs => brcBody_canonical hs ..) fun _ _ _ _ _ hs => hs
  | call => exact sharedWord_wf h hs (fun _ _ hs => callBody_canonical hs ..) fun _ _ _ _ _ hs => hs
  | ret | brx => exact sharedWord_wf h hs (fun _ _ hs => retBody_canonical hs ..) fun _ _ _ _ _ hs => cretBody_canonical hs ..
  | join => exact threadWord_wf h hs fun _ _ hs => joinBody_canonical hs ..
  | regclaim => exact waveWord_wf h hs fun _ _ hs => regclaimBody_canonical hs ..
  | reggive => exact waveWord_wf h hs fun _ _ hs => reggiveBody_canonical hs ..
  | trapi => exact threadWord_wf h hs fun _ _ hs => trapiBody_canonical hs ..
  | brk => exact threadWord_wf h hs fun _ _ _ => trivial
  | ld => exact threadWord_wf h hs fun _ _ hs => ldBody_canonical hs ..
  | st => exact threadWord_wf h hs fun _ _ hs => stBody_canonical hs ..
  | fill => exact threadWord_wf h hs fun _ _ hs => fillBody_canonical hs ..
  | spill => exact threadWord_wf h hs fun _ _ hs => spillBody_canonical hs ..
  | brld => exact waveWord_wf h hs fun _ _ hs => brldBody_canonical hs ..
  | gld => exact threadWord_wf h hs <| perWave_canonical fun _ _ hs => gldIssue_canonical hs ..
  | binit => exact waveWord_wf h hs fun _ _ hs => binitBody_canonical hs ..
  | bretire => exact waveWord_wf h hs fun _ _ hs => bretireBody_canonical hs ..
  | barrive => exact waveWord_wf h hs fun _ _ hs => barriveBody_canonical hs ..
  | bexpect => exact waveWord_wf h hs fun _ _ hs => bexpectBody_canonical hs ..
  | wait => exact waveWord_wf h hs fun _ _ hs => waitBody_canonical hs ..
  | btest => exact waveWord_wf h hs fun _ _ hs => btestBody_canonical hs ..
  | ctest => exact waveWord_wf h hs fun _ _ hs => ctestBody_canonical hs ..
  | rinit => exact waveWord_wf h hs fun _ _ hs => rinitBody_canonical hs ..
  | rprodTake => exact threadWord_wf h hs fun _ _ hs => rprodTakeBody_canonical hs ..
  | rprodFill => exact threadWord_wf h hs fun _ _ hs => rprodFillBody_canonical hs ..
  | rconsTake => exact waveWord_wf h hs fun _ _ hs => rconsTakeBody_canonical hs ..
  | rconsFree => exact waveWord_wf h hs fun _ _ hs => rconsFreeBody_canonical hs ..
  | waitCnt => exact threadWord_wf h hs fun _ _ hs => waitCntBody_canonical hs ..
  | tcopy | tcopyMc => exact jointWord_wf h hs fun _ _ hs => tcopyBody_canonical hs ..
  | gath | scat => exact waveWord_wf h hs fun _ _ hs => rowsBody_canonical hs ..
  | crun => exact jointWord_wf h hs fun _ _ hs => crunBody_canonical hs ..
  | cldx => exact carderWord_wf h hs fun _ _ _ _ _ hs => cldxBody_canonical hs ..
  | cstx => exact carderWord_wf h hs fun _ _ _ _ _ hs => cstxBody_canonical hs ..
  | caddr => exact carderWord_wf h hs fun _ _ _ _ _ hs => caddrBody_canonical hs ..
  | cxfer => exact carderWord_wf h hs fun _ _ _ _ _ hs => cxferBody_canonical hs ..
  | csect | cmrg => exact carderWord_wf h hs fun _ _ _ _ _ hs => sortedBody_canonical hs ..
  | carrive => exact carderWord_wf h hs fun _ _ _ _ _ hs => carriveBody_canonical hs ..
  | want => exact waveWord_wf h hs fun _ _ hs => wantBody_canonical hs ..
  | offer => exact waveWord_wf h hs fun _ _ hs => offerBody_canonical hs ..
  | unwant => exact waveWord_wf h hs fun _ _ hs => unwantBody_canonical hs ..
  | nevict => exact waveWord_wf h hs fun _ _ hs => nevictBody_canonical hs ..
  | ntwr => exact waveWord_wf h hs fun _ _ hs => ntwrBody_canonical hs ..
  | credCanon | credExact => exact waveWord_wf h hs fun _ _ hs => credBody_canonical hs ..
  | cclose => exact waveWord_wf h hs fun _ _ hs => ccloseBody_canonical hs ..
  | phase => exact waveWord_wf h hs fun _ _ hs => phaseBody_canonical hs ..
  | bar => exact waveWord_wf h hs fun _ _ hs => barBody_canonical hs ..
  | tmma | tmmai | tzero => exact jointWord_wf h hs fun _ _ hs => tileIssue_canonical hs ..
  | tld | tst | tdrain | tdrainFmt | tscale => exact jointWord_wf h hs <| uniformReg_canonical fun _ _ hs => tileIssue_canonical hs ..
  | trowrd | trowwr => exact jointWord_wf h hs <| lanesOnly_canonical fun _ _ hs => tileIssue_canonical hs ..
  | tdred => exact jointWord_wf h hs fun _ _ hs => tdredBody_canonical hs ..
  | atom | atomXchg | acas | acasX64 | acas128 | sld | sst | sldX64 | sstX64 | ared =>
    exact threadWord_wf h hs <| releasing_canonical fun _ _ hs => atomicBody_canonical hs ..
  | qpush | qpop | qlen | nemit => exact waveWord_wf h hs fun _ _ hs => queueWord_canonical hs ..
  | bind => exact waveWord_wf h hs fun _ _ hs => bindBody_canonical hs ..
  | acq => exact waveWord_wf h hs fun _ _ hs => acqBody_canonical hs ..
  | rel => exact waveWord_wf h hs fun _ _ hs => relBody_canonical hs ..
  | tfence => exact waveWord_wf h hs fun _ _ hs => tfenceBody_canonical hs ..
  | dinv => exact waveWord_wf h hs fun _ _ hs => dinvBody_canonical hs ..
  | sysrd | sysrdX64 => exact waveWord_wf h hs fun _ _ hs => sysrdBody_canonical hs ..
  | syswr | syswrX64 => exact waveWord_wf h hs <| withSource_canonical fun _ _ _ hs => syswrBody_canonical hs ..
  | eqrd => exact waveWord_wf h hs fun _ _ hs => eqrdBody_canonical hs ..
  | eqwr => exact waveWord_wf h hs <| withSource_canonical fun _ _ _ hs => eqwrBody_canonical hs ..
  | haltp => exact waveWord_wf h hs fun _ _ hs => haltpBody_canonical hs ..
  | icinv => exact waveWord_wf h hs <| withSource_canonical fun _ _ _ hs => icinvBody_canonical hs ..
  | hintImmhi | hintOrd | hintFmtx | hintLife | hintPred | hintMerge => exact hintWord_wf h hs
  | expand => exact threadWord_wf h hs fun _ _ hs => expandBody_canonical hs ..
  | exit => exact threadWord_wf h hs fun _ _ hs => exitBody_canonical hs ..
  | yield => exact threadWord_wf h hs fun _ _ hs => hs
  | chalt => exact carderWord_wf h hs fun _ _ _ _ _ hs => hs
  | ifence => exact waveWord_wf h hs fun _ _ hs => hs
  | trapret => exact waveWord_wf h hs fun _ _ hs => trapretBody_canonical hs ..

end Sys2Proof.Machine
end

section
/-! PROOFS. The events of carders, launches and the sync engine keep main memory in canonical form (R42, R43). -/
namespace Sys2Proof.Machine
open Sys2Proof.Claims

/-! ## Carder commands and GLD -/

section
variable {s : State} (hs : s.mem.wf)
include hs

theorem State.moveUnit_wf {t : State} {d : DieId} {inst : Nat} {q : Cmd} {gid : Nat} {p : Place1} (h : s.moveUnit d inst q gid p = .ok t) : t.mem.wf := by
  unfold State.moveUnit at h
  extract_lets L B u va out agent local_ store moved at h
  have hstore (bs : List Byte) (r : State) (hr : store bs = .ok r) : r.mem.wf := by
    obtain ⟨v, hv, hr⟩ := Acc.bind_eq_ok.mp hr
    cases hr
    simpa using State.writeVa_wf hs hv
  have hlocal (f : Nat → Acc State) (drop : Acc State) (hf : ∀ a r, f a = .ok r → r.mem.wf) (hd : ∀ r, drop = .ok r → r.mem.wf) (r : State)
      (hr : local_ f drop = .ok r) : r.mem.wf := by
    unfold local_ at hr
    split at hr
    · exact hd _ hr
    · dsimp only at hr
      repeat' split at hr
      · cases hr
      · cases hr
      · exact hf _ _ hr
  clear_value store local_
  have hsame (r : State) (hr : Acc.ok s = .ok r) : r.mem.wf := by
    cases hr
    exact hs
  have hmoved (r : State) (hr : moved = .ok r) : r.mem.wf := by
    unfold moved at hr
    split at hr
    · cases hr
    · split at hr
      · split at hr
        · exact hsame r hr
        · refine hlocal _ _ ?_ ?_ r hr
          · intro a r hr
            split at hr
            · cases hr
            · exact hstore _ _ hr
          · intro r hr
            split at hr
            · exact hstore _ _ hr
            · exact hsame r hr
      · refine hlocal _ _ ?_ hsame r hr
        intro a r hr
        split at hr
        · cases hr
          simpa using hs
        · obtain ⟨bs, -, hr⟩ := Acc.bind_eq_ok.mp hr
          cases hr
          simpa using hs
  obtain ⟨r, hr, h⟩ := Acc.bind_eq_ok.mp h
  rw [State.credit_mem h]
  exact hmoved r hr
theorem State.landUnit_wf (d : DieId) (inst : Nat) (q : Cmd) : (s.landUnit d inst q).mem.wf := by
  unfold State.landUnit
  extract_lets unit
  clear_value unit
  split
  · exact hs
  · dsimp only
    split
    · exact hs
    · split
      · simpa using hs
      · next h =>
        have ht := State.moveUnit_wf hs h
        repeat' split
        all_goals exact ht
theorem State.landMc_wf (d : DieId) (inst : Nat) (q : Cmd) (G : Group) : (s.landMc d inst q G).mem.wf := by
  unfold State.landMc
  extract_lets n ms late numberOf moved low here
  clear_value moved here
  split
  · exact hs
  · split
    · exact hs
    · dsimp only
      split
      · exact hs
      · split
        · simpa using hs
        · next h =>
          have ht := State.moveUnit_wf hs h
          exact ht
end

section
variable {s t : State} (hs : s.mem.wf)
include hs

theorem execCarderCommandStart_wf {d : DieId} {inst : Nat} (h : execCarderCommandStart d inst s = .next t) : t.mem.wf := by
  unfold execCarderCommandStart at h
  dsimp only at h
  repeat' split at h
  all_goals cases h; exact hs
theorem execUnitLanding_wf {d : DieId} {inst : Nat} (h : execUnitLanding d inst s = .next t) : t.mem.wf := by
  unfold execUnitLanding at h
  dsimp only at h
  split at h
  · split at h
    · cases h; exact hs
    · split at h
      · cases h; exact hs
      · split at h
        · cases h; exact hs
        · split at h
          · cases h; simpa using hs
          · split at h
            · split at h
              · cases h; exact hs
              · cases h; simpa using hs
            · split at h
              · cases h; simpa using hs
              · cases h
                split
                · exact State.landMc_wf hs ..
                · exact State.landUnit_wf hs ..
  · cases h; exact hs
theorem execMergeHoldTimeout_wf {d : DieId} {gid lo : Nat} (h : execMergeHoldTimeout d gid lo s = .next t) : t.mem.wf := by
  unfold execMergeHoldTimeout at h
  repeat' split at h
  all_goals cases h; exact hs

/-! ## Launches -/

theorem execLaunchStart_wf {p : PartId} {handle : Word} (h : execLaunchStart p handle s = .next t) : t.mem.wf := by
  unfold execLaunchStart at h
  split at h
  · cases h; exact hs
  · dsimp only at h
    split at h
    · cases h; exact hs
    · split at h
      · cases h
        split
        · exact State.schedMiss_wf hs ..
        · exact hs
      · split at h
        · cases h; exact hs
        · split at h
          · cases h; exact hs
          · split at h
            · cases h; simpa using hs
            · cases h; exact hs
            · next hpop =>
              have hr := (State.qPop_mem hpop).symm ▸ hs
              split at h
              · cases h; simpa using hr
              · cases h; simpa using hr
theorem execGroupPlacement_wf {d : DieId} (h : execGroupPlacement d s = .next t) : t.mem.wf := by
  unfold execGroupPlacement at h
  dsimp only at h
  repeat' split at h
  all_goals cases h; exact hs
theorem execWorkSteal_wf {d : DieId} (h : execWorkSteal d s = .next t) : t.mem.wf := by
  unfold execWorkSteal at h
  dsimp only at h
  repeat' split at h
  all_goals cases h; exact hs
theorem execGroupEnd_wf {d : DieId} {gid : Nat} (h : execGroupEnd d gid s = .next t) : t.mem.wf := by
  unfold execGroupEnd at h
  dsimp only at h
  split at h
  · cases h; exact hs
  · split at h
    · cases h; exact hs
    · cases h
      rw [State.settleLaunch_mem, State.modBank_mem, foldl_mem fun _ _ => by simp]
      exact hs
theorem execLaunchEnd_wf {id : Nat} (h : execLaunchEnd id s = .next t) : t.mem.wf := by
  unfold execLaunchEnd at h
  dsimp only at h
  repeat' split at h
  all_goals cases h; simpa using hs
theorem execBinTimerExpiry_wf {launch node : Nat} (h : execBinTimerExpiry launch node s = .next t) : t.mem.wf := by
  unfold execBinTimerExpiry at h
  split at h
  · cases h; exact hs
  · split at h
    · split at h
      · split at h
        · cases h; exact hs
        · split at h <;> cases h
          · split <;> simpa using hs
          · exact State.schedMiss_wf hs ..
      · cases h; exact hs
    · cases h; exact hs
theorem execBinDrain_wf {launch node : Nat} (h : execBinDrain launch node s = .next t) : t.mem.wf := by
  unfold execBinDrain at h
  split at h
  · cases h; exact hs
  · split at h
    · split at h
      · cases h; exact hs
      · split at h <;> cases h
        · split <;> simpa using hs
        · exact State.schedMiss_wf hs ..
    · cases h; exact hs

/-! ## The sync engine -/

omit hs in
@[simp] theorem State.syncEcc_wf (p : PartId) (d : DieId) (c : Ctx) (pc line : DWord) : (s.syncEcc p d c pc line).mem.wf = s.mem.wf := by simp
theorem execQueueMiss_wf {k : Nat} (h : execQueueMiss k s = .next t) : t.mem.wf := by
  unfold execQueueMiss at h
  split at h
  · cases h; exact hs
  · split at h
    · cases h; exact hs
    · split at h
      · cases h; simpa using hs
      · split at h
        · cases h; exact hs
        · split at h
          · cases h; exact hs
          · dsimp only at h
            split at h <;> cases h
            · split <;> simpa using hs
            · next hq => exact State.queueMiss_wf (by exact hs) hq
theorem State.performQueue_wf (r : SyncReq) (q : RQueue) : (s.performQueue r q).mem.wf := by
  unfold State.performQueue
  extract_lets push
  have hpush : push.mem.wf := by
    unfold push
    split
    · simpa using hs
    · next h =>
      have ht := State.qPush_wf hs h
      exact ht
  split
  · split
    · simpa using hs
    · exact hpush
  · split
    · next h =>
      have ht := State.qPush_wf hs h
      simpa using ht
    · exact hpush
  · split
    · simpa using hs
    · split
      · exact hs
      · next h => simpa [State.qPop_mem h] using hs
  · exact hs
  · exact hs
theorem execAtomicPerform_wf {k : Nat} (h : execAtomicPerform k s = .next t) : t.mem.wf := by
  unfold execAtomicPerform at h
  split at h
  · cases h; exact hs
  · dsimp only at h
    split at h
    · cases h; exact hs
    · split at h
      · split at h
        · cases h; exact hs
        · split at h <;> cases h
          · exact hs
          · exact State.performQueue_wf (by simpa using hs) ..
      · split at h
        · cases h; exact hs
        · cases h
          rw [apply_ite (fun t : State => t.mem.wf), State.syncEcc_wf, ite_self, apply_ite State.mem, State.dropReq_mem, State.putReq_mem, ite_self,
            State.inSkid_mem, State.modDie_mem]
          split
          · split
            · exact Mem.writeN_wf _ _ hs
            · exact State.writeDa_wf hs ..
          · exact hs
theorem execSyncReplyLanding_wf {k : Nat} (h : execSyncReplyLanding k s = .next t) : t.mem.wf := by
  unfold execSyncReplyLanding at h
  split at h
  · cases h; exact hs
  · split at h
    · cases h; exact hs
    · dsimp only at h
      split at h <;> cases h
      · rw [State.finish_mem]
        split
        · split
          · rw [foldl_mem fun _ _ => by simp]
            simpa using hs
          · simpa using hs
        · simpa using hs
        · exact hs
      · rw [State.resolve_mem]
        split <;> exact hs
end

end Sys2Proof.Machine
end

section
/-! PROOFS. The events of the fabric, of sessions, halts and swaps keep main memory in canonical form (R42, R43). -/
namespace Sys2Proof.Machine
open Sys2Proof.Claims

section
variable {s t : State} (hs : s.mem.wf)
include hs

/-! ## The name fabric -/

theorem withPacket_wf {k : Nat} {f : Packet → State} (h : withPacket s k f = .next t) (hf : ∀ p, (f p).mem.wf) : t.mem.wf := by
  unfold withPacket at h
  split at h <;> cases h
  · split
    · exact hf _
    · exact hs
  · exact hs
theorem execInterestArrival_wf {k : Nat} (h : execInterestArrival k s = .next t) : t.mem.wf := by
  refine withPacket_wf hs h fun p => ?_
  split <;> simpa using hs
theorem execTileHeaderArrival_wf {k : Nat} (h : execTileHeaderArrival k s = .next t) : t.mem.wf := by
  refine withPacket_wf hs h fun p => ?_
  split <;> simpa using hs
theorem execWithdrawalArrival_wf {k : Nat} (h : execWithdrawalArrival k s = .next t) : t.mem.wf := by
  refine withPacket_wf hs h fun p => ?_
  split <;> simpa using hs
theorem execPendingDeadline_wf {k : Nat} (h : execPendingDeadline k s = .next t) : t.mem.wf := by
  unfold execPendingDeadline at h
  split at h <;> cases h
  · split <;> exact hs
  · exact hs
theorem State.offerUp_wf {r : State} (hr : r.mem.wf) (p : Packet) (id : Nat) (at_ : Router) : (s.offerUp r p id at_).mem.wf := by
  unfold State.offerUp
  split
  · simpa using hr
  · split <;> simpa
theorem State.offerAt_wf {r : State} (hr : r.mem.wf) (p : Packet) (id : Nat) (at_ : Router) : (s.offerAt r p id at_).mem.wf := by
  unfold State.offerAt
  dsimp only
  repeat' split
  all_goals simpa
theorem execOfferHeaderArrival_wf {k : Nat} (h : execOfferHeaderArrival k s = .next t) : t.mem.wf := by
  refine withPacket_wf hs h fun p => ?_
  split
  · simpa using hs
  · split
    · exact State.offerAt_wf hs (by simpa using hs) ..
    · exact State.offerUp_wf hs (by simpa using hs) ..
  · exact hs
theorem execOfferChunkArrival_wf {k : Nat} (h : execOfferChunkArrival k s = .next t) : t.mem.wf := by
  unfold execOfferChunkArrival at h
  split at h
  · refine withPacket_wf hs h fun p => ?_
    split <;> simpa using hs
  · split at h <;> cases h
    · split <;> simpa using hs
    · exact hs
theorem execRetentionExpiry_wf {k : Nat} (h : execRetentionExpiry k s = .next t) : t.mem.wf := by
  unfold execRetentionExpiry at h
  split at h
  · refine withPacket_wf hs h fun p => ?_
    split <;> simpa using hs
  · split at h <;> cases h
    · split <;> simpa using hs
    · exact hs
theorem execChunkLanding_wf {k : Nat} (h : execChunkLanding k s = .next t) : t.mem.wf := by
  refine withPacket_wf hs h fun p => ?_
  split
  · dsimp only
    split
    · exact hs
    · split
      all_goals
        refine Eq.trans (congrArg Mem.wf ?_) hs
        exact foldl_mem (fun _ _ => by simp) _ _
  · dsimp only
    rw [State.modInterests_mem, apply_ite State.mem, State.inSkid_mem, ite_self, foldl_mem fun _ _ => by simp]
    exact hs
  · exact hs
theorem execInterestLifetimeExpiry_wf {d : DieId} {k : Nat} (h : execInterestLifetimeExpiry d k s = .next t) : t.mem.wf := by
  unfold execInterestLifetimeExpiry at h
  dsimp only at h
  repeat' split at h
  all_goals cases h; simpa using hs

/-! ## Sessions -/

theorem execSessionJoin_wf {k : Nat} (h : execSessionJoin k s = .next t) : t.mem.wf := by
  unfold execSessionJoin at h
  dsimp only at h
  repeat' split at h
  all_goals cases h; simpa using hs
theorem execSessionClose_wf {k : Nat} (h : execSessionClose k s = .next t) : t.mem.wf := by
  unfold execSessionClose at h
  split at h
  · split at h
    · dsimp only at h
      split at h <;> cases h <;> exact hs
    · cases h
      simpa using hs
  · cases h
    exact hs
theorem State.writeResult_wf {j : SJoin} {off : Nat} {bytes : List Byte} {credit : Nat} {ok : Bool} (h : s.writeResult j off bytes credit = some (ok, t)) :
    t.mem.wf := by
  unfold State.writeResult at h
  extract_lets at_ put at h
  have hput (r : State) (hr : put = .ok r) : r.mem.wf := by
    unfold put at hr
    split at hr
    · cases hr
    · obtain ⟨v, hv, hr⟩ := Acc.bind_eq_ok.mp hr
      cases hr
      rw [State.useBytes_mem]
      exact State.writeVa_wf hs hv
    · repeat' split at hr
      all_goals cases hr
      rw [State.useBytes_mem]
      simpa using hs
  clear_value put
  obtain ⟨-, h⟩ | ⟨-, h⟩ := ite_eq_iff.mp h
  · cases h
  · obtain ⟨-, h⟩ | ⟨-, h⟩ := ite_eq_iff.mp h
    · cases h
    · split at h <;> cases h
      · next hbind =>
        obtain ⟨u, hu, hr⟩ := Acc.bind_eq_ok.mp hbind
        split at hr
        · cases hr
          exact hput _ hu
        · rw [State.credit_mem hr]
          exact hput u hu
      · simpa using hs
theorem State.resultRow_wf {x : Session} {bytes : List Byte} {j : SJoin} {ok : Bool} (h : s.resultRow x bytes j = some (ok, t)) : t.mem.wf := by
  unfold State.resultRow at h
  dsimp only at h
  split at h
  · exact State.writeResult_wf hs h
  · cases h
    split <;> simpa using hs
theorem execSessionResultWrite_wf {k : Nat} (h : execSessionResultWrite k s = .next t) : t.mem.wf := by
  unfold execSessionResultWrite at h
  split at h
  · split at h
    · cases h; exact hs
    · dsimp only at h
      split at h
      · cases h; exact hs
      · split at h
        · cases h; exact hs
        all_goals
          next hrow =>
          cases h
          obtain ⟨j, -, hj⟩ := List.exists_of_findSome?_eq_some hrow
          obtain ⟨r, hr, hjr⟩ := Option.map_eq_some_iff.mp hj
          cases hjr
          have ht := State.resultRow_wf hs hr
          exact ht
  · dsimp only at h
    split at h
    · split at h <;> cases h
      · exact hs
      · next hw =>
        have ht : _ := State.writeResult_wf hs (ite_eq_iff.mp hw |>.resolve_left (by simp)).2
        split <;> simpa using ht
    · cases h; simpa using hs
    · cases h; simpa using hs
    · cases h; exact hs

/-! ## Barrier generations of .pod scope -/

theorem withInput_wf {f : Input → State → State} (h : withInput s f = .next t) (hf : ∀ i s, s.mem.wf → (f i s).mem.wf) : t.mem.wf := by
  unfold withInput at h
  split at h <;> cases h
  · exact hs
  · exact hf _ _ hs
theorem State.withPodSet_wf {L : Launch} {f : DieId → CSet → State → State} (hf : ∀ d c t, t.mem.wf → (f d c t).mem.wf) : (s.withPodSet L f).mem.wf := by
  unfold State.withPodSet
  dsimp only
  split
  · exact hs
  · next h =>
    have ht := (State.needSet_mem h).symm ▸ hs
    split
    · exact hf _ _ _ ht
    · exact ht
theorem execPodGenerationOpen_wf (h : execPodGenerationOpen s = .next t) : t.mem.wf := by
  refine withInput_wf hs h fun i s hs => ?_
  split
  · split
    · simpa using hs
    · refine State.withPodSet_wf hs fun d c t ht => ?_
      split <;> simpa using ht
  · exact hs
theorem execPodCombinedArrival_wf (h : execPodCombinedArrival s = .next t) : t.mem.wf := by
  refine withInput_wf hs h fun i s hs => ?_
  split
  · split
    · exact hs
    · refine State.withPodSet_wf hs fun d c t ht => ?_
      repeat' split
      all_goals simpa using ht
  · exact hs
theorem execPodPhaseCount_wf (h : execPodPhaseCount s = .next t) : t.mem.wf := by
  refine withInput_wf hs h fun i s hs => ?_
  split
  · split
    · exact hs
    · refine State.withPodSet_wf hs fun d c t ht => ?_
      dsimp only
      split <;> simpa using ht
  · exact hs
theorem execPodRelease_wf (h : execPodRelease s = .next t) : t.mem.wf := by
  refine withInput_wf hs h fun i s hs => ?_
  dsimp only
  repeat' split
  all_goals simpa using hs

/-! ## Halts, delivery and words that are no instruction -/

theorem execHaltComplete_wf {p : PartId} (h : execHaltComplete p s = .next t) : t.mem.wf := by
  unfold execHaltComplete at h
  dsimp only at h
  split at h <;> cases h
  · exact hs
  · rw [State.modPart_mem, State.dropFabric_mem, foldl_mem fun _ _ => State.modDie_mem .., foldl_mem fun _ _ => State.writeRecords_mem ..,
      State.modPart_mem, foldl_mem fun _ _ => State.modDie_mem .., foldl_mem fun _ _ => State.finishHeads_mem ..]
    exact hs
theorem execEventDelivery_wf {d : DieId} (h : execEventDelivery d s = .next t) : t.mem.wf := by
  unfold execEventDelivery at h
  dsimp only at h
  split at h <;> cases h <;> simpa using hs
theorem execHaltreq_wf {p : PartId} (h : execHaltreq p s = .next t) : t.mem.wf := by
  unfold execHaltreq at h
  split at h <;> cases h <;> simpa using hs
theorem execTsliceExpiry_wf {p : PartId} (h : execTsliceExpiry p s = .next t) : t.mem.wf := by
  unfold execTsliceExpiry at h
  dsimp only at h
  split at h <;> cases h <;> exact hs
theorem execStepHalt_wf {p : PartId} (h : execStepHalt p s = .next t) : t.mem.wf := by
  unfold execStepHalt at h
  dsimp only at h
  split at h <;> cases h <;> exact hs
theorem execTileWordPerform_wf {d : DieId} {core : Nat} (h : execTileWordPerform d core s = .next t) : t.mem.wf := by
  unfold execTileWordPerform at h
  split at h <;> cases h <;> simpa using hs
theorem execMalformedWord_wf (h : execMalformedWord s = .next t) : t.mem.wf := by
  unfold execMalformedWord at h
  split at h
  · cases h
  · obtain ⟨-, h⟩ | ⟨-, h⟩ := ite_eq_iff.mp h
    · cases h
      exact hs
    · cases h
      simpa using hs
  · split at h <;> cases h
    repeat' split
    all_goals simpa using hs

/-! ## Swaps and migration -/

theorem orBaruse_wf {d : DieId} {o : Option State} (h : orBaruse s d o = .next t) (ho : ∀ r, o = some r → r.mem = s.mem) : t.mem.wf := by
  unfold orBaruse at h
  cases h
  cases o with
  | none => simpa using hs
  | some r => exact (ho r rfl).symm ▸ hs
theorem execSwapComplete_wf {d : DieId} (h : execSwapComplete d s = .next t) : t.mem.wf := by
  unfold execSwapComplete at h
  cases h
  split <;> exact hs
theorem execShadowOpComplete_wf {d : DieId} (h : execShadowOpComplete d s = .next t) : t.mem.wf := by
  unfold execShadowOpComplete at h
  dsimp only at h
  repeat' split at h
  all_goals cases h
  · exact hs
  · exact hs
  · exact hs
  · exact State.writeDa_wf (by exact hs) ..
  · exact hs
  · exact hs
theorem execMigrationStart_wf (h : execMigrationStart s = .next t) : t.mem.wf := by
  refine withInput_wf hs h fun i s hs => ?_
  repeat' split
  all_goals exact hs
theorem execMigrationComplete_wf {f : Nat} (h : execMigrationComplete f s = .next t) : t.mem.wf := by
  unfold execMigrationComplete at h
  dsimp only at h
  repeat' split at h
  all_goals cases h
  · exact hs
  · exact hs
  · exact foldl_wf (fun _ q h => State.queueBack_wf h q) _ hs

end

end Sys2Proof.Machine
end

section
/-! PROOFS. The loader, the management block and every step keep main memory in canonical form (R42, R43): O37. -/
namespace Sys2Proof.Machine
open Sys2Proof.Claims

section
variable {s t : State} (hs : s.mem.wf)
include hs

/-! ## The loader -/

theorem State.loaderPages_wf (p : PartId) (c : Ctx) (va : Nat) (bs : List Byte) (pages : List Nat) : (s.loaderPages p c va bs pages).2.mem.wf := by
  induction pages generalizing s with
  | nil => exact hs
  | cons a as ih =>
    unfold State.loaderPages
    split
    · dsimp only
      split <;> simpa using hs
    · exact ih (foldl_wf (fun _ _ h => State.writeDa_wf h ..) _ hs)
theorem State.loaderWrite_wf (p : PartId) (c : Ctx) (va : Nat) (bs : List Byte) : (s.loaderWrite p c va bs).2.mem.wf := State.loaderPages_wf hs ..
theorem State.placeAll_wf (p : PartId) (c : Ctx) (src : Nat) (gs : List Segment) : (s.placeAll p c src gs).2.mem.wf := by
  induction gs generalizing s with
  | nil => exact hs
  | cons g gs ih =>
    unfold State.placeAll
    have h := State.loaderWrite_wf hs p c g.va (s.contents src g)
    split
    · next heq => exact ih (by simpa [heq] using h)
    · next heq => simpa [heq] using h
theorem State.copyCarder_wf (p : PartId) (c : Ctx) (area : Nat) (es : List (Nat × Nat × List Byte)) : (s.copyCarder p c area es).2.mem.wf := by
  induction es generalizing s with
  | nil => exact hs
  | cons e es ih =>
    unfold State.copyCarder
    have h := State.loaderWrite_wf hs p c (area + e.2.1) e.2.2
    split
    · next heq => exact ih (by simpa [heq] using h)
    · next heq => simpa [heq] using h
theorem State.fillArea_wf (p : PartId) (c : Ctx) (src : Nat) (b : Bodies) (a : Option TransArea) : (s.fillArea p c src b a).2.mem.wf := by
  unfold State.fillArea
  split
  · exact State.copyCarder_wf hs ..
  · exact hs
theorem State.setX_wf (e : MapEntry) : (s.setX e).mem.wf := State.writeDa_wf hs ..
theorem State.makeExecutable_wf (p : PartId) (c : Ctx) (va n : Nat) : (s.makeExecutable p c va n).mem.wf := by
  refine foldl_wf (fun s _ hs => foldl_wf (fun s _ hs => ?_) _ hs) _ hs
  split
  · exact State.setX_wf hs _
  · exact hs
theorem State.fenceContext_wf (p : PartId) (c : Ctx) : (s.fenceContext p c).mem.wf := by
  refine foldl_wf (fun _ q h => State.queueBack_wf h q) _ ?_
  rw [foldl_mem fun _ _ => State.modDie_mem ..]
  exact hs
theorem State.addArea_wf (p : PartId) (c : Ctx) (a : Option TransArea) : (s.addArea p c a).mem.wf := by
  unfold State.addArea
  split
  · dsimp only
    rw [State.modContext_mem, foldl_mem fun _ _ => State.discardPages_mem ..]
    exact foldl_wf (fun _ _ h => State.makeExecutable_wf h ..) _ hs
  · exact hs
theorem State.commitLoad_wf (p : PartId) (c : Ctx) (gs : List Segment) : (s.commitLoad p c gs).mem.wf := by
  unfold State.commitLoad
  dsimp only
  rw [foldl_mem fun _ _ => State.discardPages_mem ..]
  refine State.fenceContext_wf (foldl_wf (fun _ _ h => State.makeExecutable_wf h ..) _ ?_) ..
  rw [foldl_mem fun _ _ => State.extendAtt_mem ..]
  exact hs
theorem State.loadSegments_wf (p : PartId) (q : LoaderCmd) (gs : List Segment) : (s.loadSegments p q gs).2.mem.wf := by
  unfold State.loadSegments
  dsimp only
  have hplace := State.placeAll_wf hs p (q.ctx.setWidth 12) q.src.toNat gs
  split
  · next heq => simpa [heq] using hplace
  · next u heq =>
    replace hplace : u.mem.wf := by simpa [heq] using hplace
    split
    · exact hplace
    · next mode _ =>
      split
      · exact hplace
      · have hdesc := State.loaderWrite_wf hplace p (q.ctx.setWidth 12) q.desc.toNat ((bodiesOf gs).descriptor mode)
        split
        · next heq => simpa [heq] using hdesc
        · next v heq =>
          replace hdesc : v.mem.wf := by simpa [heq] using hdesc
          have hfill := State.fillArea_wf hdesc p (q.ctx.setWidth 12) q.src.toNat (bodiesOf gs) (u.areaOf q q.src.toNat mode (bodiesOf gs))
          split
          · next heq => simpa [heq] using hfill
          · next x heq =>
            replace hfill : x.mem.wf := by simpa [heq] using hfill
            split
            · exact hfill
            · have harea := State.addArea_wf hfill p (q.ctx.setWidth 12) (u.areaOf q q.src.toNat mode (bodiesOf gs))
              have hdone := State.commitLoad_wf harea p (q.ctx.setWidth 12) gs
              dsimp only
              split <;> simpa using hdone
theorem State.loadContainer_wf (p : PartId) (q : LoaderCmd) : (s.loadContainer p q).2.mem.wf := by
  unfold State.loadContainer
  split
  · exact hs
  · simpa using hs
  · split
    · exact hs
    · split
      · exact hs
      · exact State.loadSegments_wf hs ..
theorem State.loaderStatus_wf (q : LoaderCmd) (p : PartId) (code : Nat) : (s.loaderStatus q p code).mem.wf := by
  unfold State.loaderStatus
  dsimp only
  split
  · simpa using hs
  · split
    · exact hs
    · exact State.writeDa_wf hs ..
theorem withCommand_wf {f : LoaderCmd → State → Nat × State} (h : withCommand s f = .next t) (hf : ∀ q s, s.mem.wf → (f q s).2.mem.wf) : t.mem.wf := by
  unfold withCommand at h
  dsimp only at h
  split at h
  · split at h
    · cases h; exact hs
    · split at h
      · cases h; exact hs
      · split at h
        · cases h; exact hs
        · cases h
          refine State.loaderStatus_wf ?_ ..
          split
          · exact hs
          · exact hf _ _ hs
  · cases h; exact hs
theorem execLoaderLoad_wf (h : execLoaderLoad s = .next t) : t.mem.wf :=
  withCommand_wf hs h fun _ _ hs => State.loadContainer_wf hs ..
theorem execLoaderInvalidCommand_wf (h : execLoaderInvalidCommand s = .next t) : t.mem.wf := withCommand_wf hs h fun _ _ hs => hs
theorem execLoaderIcinv_wf (h : execLoaderIcinv s = .next t) : t.mem.wf := by
  refine withCommand_wf hs h fun q s hs => ?_
  dsimp only
  rw [foldl_mem fun _ _ => State.modDie_mem ..]
  exact hs
theorem execLoaderReadatt_wf (h : execLoaderReadatt s = .next t) : t.mem.wf := by
  refine withCommand_wf hs h fun q s hs => ?_
  dsimp only
  split
  · exact State.writeDa_wf hs ..
  · exact hs
theorem State.publish_wf (q : Publication) : (s.publish q).mem.wf := by
  unfold State.publish
  dsimp only
  split
  · exact hs
  · split
    · exact hs
    · have hw := State.loaderWrite_wf hs q.part q.ctx q.addr.toNat (q.words.flatMap fun w => bytesOf 4 w.toNat)
      split
      · next heq => simpa [heq] using hw
      · next heq =>
        rw [heq] at hw
        rw [State.modContext_mem]
        exact State.fenceContext_wf (State.makeExecutable_wf (by simpa using hw) ..) ..
theorem execTranslationPublish_wf (h : execTranslationPublish s = .next t) : t.mem.wf := by
  unfold execTranslationPublish at h
  split at h
  · split at h
    · cases h; exact hs
    · split at h <;> cases h
      · exact hs
      · exact State.publish_wf (by exact hs) _
  · cases h; exact hs

/-! ## Bring-up, management and errors -/

theorem State.bringupStep_wf (b : BootImage) : (s.bringupStep b).mem.wf := by
  unfold State.bringupStep
  dsimp only
  repeat' split
  · exact hs
  · simpa using hs
  · exact hs
  · exact Mem.filter_wfFrom _ hs
  · simpa using hs
  · exact hs
theorem execPowerOnBringup_wf (h : execPowerOnBringup s = .next t) : t.mem.wf := by
  unfold execPowerOnBringup at h
  split at h <;> cases h
  · simpa using hs
  · exact State.bringupStep_wf hs _
  · exact hs
theorem execLinkFlitError_wf (h : execLinkFlitError s = .next t) : t.mem.wf := by
  refine withInput_wf hs h fun i s hs => ?_
  split <;> exact hs
theorem execLaneSparing_wf (h : execLaneSparing s = .next t) : t.mem.wf := by
  refine withInput_wf hs h fun i s hs => ?_
  split <;> exact hs
theorem execThermalThrottle_wf (h : execThermalThrottle s = .next t) : t.mem.wf := by
  refine withInput_wf hs h fun i s hs => ?_
  split <;> exact hs
theorem execSoftErrorCorrected_wf (h : execSoftErrorCorrected s = .next t) : t.mem.wf := by
  refine withInput_wf hs h fun i s hs => ?_
  split <;> exact hs
theorem execSpdmMeasurements_wf (h : execSpdmMeasurements s = .next t) : t.mem.wf := by
  refine withInput_wf hs h fun i s hs => ?_
  split <;> exact hs
theorem execPodRouteTableWrite_wf (h : execPodRouteTableWrite s = .next t) : t.mem.wf := by
  refine withInput_wf hs h fun i s hs => ?_
  split <;> exact hs
theorem execThermalShutdown_wf (h : execThermalShutdown s = .next t) : t.mem.wf := by
  refine withInput_wf hs h fun i s hs => ?_
  split <;> simpa using hs
theorem execKeySlotWrite_wf (h : execKeySlotWrite s = .next t) : t.mem.wf := by
  refine withInput_wf hs h fun i s hs => ?_
  split <;> simpa using hs
theorem execHeaderCrcFailure_wf (h : execHeaderCrcFailure s = .next t) : t.mem.wf := by
  refine withInput_wf hs h fun i s hs => ?_
  repeat' split
  all_goals simpa using hs
theorem execPartitionLayoutWrite_wf (h : execPartitionLayoutWrite s = .next t) : t.mem.wf := by
  refine withInput_wf hs h fun i s hs => ?_
  repeat' split
  all_goals simpa using hs
theorem execBringupTimeout_wf (h : execBringupTimeout s = .next t) : t.mem.wf := by
  refine withInput_wf hs h fun i s hs => ?_
  repeat' split
  all_goals simpa using hs
theorem execRouterFailure_wf (h : execRouterFailure s = .next t) : t.mem.wf := by
  refine withInput_wf hs h fun i s hs => ?_
  split
  · split
    · exact hs
    · rw [foldl_mem fun _ _ => State.resetPartition_mem ..]
      exact hs
  · exact hs
theorem execEccUncorrectable_wf (h : execEccUncorrectable s = .next t) : t.mem.wf := by
  refine withInput_wf hs h fun i s hs => ?_
  repeat' split
  all_goals simpa using hs
theorem execCoreFailure_wf (h : execCoreFailure s = .next t) : t.mem.wf := by
  refine withInput_wf hs h fun i s hs => ?_
  repeat' split
  all_goals exact hs

/-! ## Every instruction -/

theorem exec_wf {i : Instr} (h : exec i s = .next t) : t.mem.wf := by
  cases i with
  | carderCommandStart => exact execCarderCommandStart_wf hs h
  | unitLanding => exact execUnitLanding_wf hs h
  | mergeHoldTimeout => exact execMergeHoldTimeout_wf hs h
  | launchStart => exact execLaunchStart_wf hs h
  | groupPlacement => exact execGroupPlacement_wf hs h
  | workSteal => exact execWorkSteal_wf hs h
  | groupEnd => exact execGroupEnd_wf hs h
  | launchEnd => exact execLaunchEnd_wf hs h
  | binTimerExpiry => exact execBinTimerExpiry_wf hs h
  | binDrain => exact execBinDrain_wf hs h
  | queueMiss => exact execQueueMiss_wf hs h
  | atomicPerform => exact execAtomicPerform_wf hs h
  | syncReplyLanding => exact execSyncReplyLanding_wf hs h
  | interestArrival => exact execInterestArrival_wf hs h
  | tileHeaderArrival => exact execTileHeaderArrival_wf hs h
  | withdrawalArrival => exact execWithdrawalArrival_wf hs h
  | pendingDeadline => exact execPendingDeadline_wf hs h
  | offerHeaderArrival => exact execOfferHeaderArrival_wf hs h
  | offerChunkArrival => exact execOfferChunkArrival_wf hs h
  | retentionExpiry => exact execRetentionExpiry_wf hs h
  | chunkLanding => exact execChunkLanding_wf hs h
  | interestLifetimeExpiry => exact execInterestLifetimeExpiry_wf hs h
  | sessionJoin => exact execSessionJoin_wf hs h
  | sessionClose => exact execSessionClose_wf hs h
  | sessionResultWrite => exact execSessionResultWrite_wf hs h
  | migrationComplete => exact execMigrationComplete_wf hs h
  | migctlWrite | tsliceWrite | tpendClear => cases h; exact hs
  | tileWordPerform => exact execTileWordPerform_wf hs h
  | haltComplete => exact execHaltComplete_wf hs h
  | eventDelivery => exact execEventDelivery_wf hs h
  | tsliceExpiry => exact execTsliceExpiry_wf hs h
  | haltreq => exact execHaltreq_wf hs h
  | stepHalt => exact execStepHalt_wf hs h
  | contextSwap => exact orBaruse_wf hs h fun _ => State.swap_mem
  | swapComplete => exact execSwapComplete_wf hs h
  | shadowSave d => exact orBaruse_wf hs h fun _ => State.shadowSave_mem
  | shadowLoad d c => exact orBaruse_wf hs h fun _ => State.shadowLoad_mem
  | shadowCreate => exact orBaruse_wf hs h fun _ => State.shadowCreate_mem
  | shadowOpComplete => exact execShadowOpComplete_wf hs h
  | malformedWord => exact execMalformedWord_wf hs h
  | podGenerationOpen => exact execPodGenerationOpen_wf hs h
  | podCombinedArrival => exact execPodCombinedArrival_wf hs h
  | podPhaseCount => exact execPodPhaseCount_wf hs h
  | podRelease => exact execPodRelease_wf hs h
  | linkFlitError => exact execLinkFlitError_wf hs h
  | laneSparing => exact execLaneSparing_wf hs h
  | thermalThrottle => exact execThermalThrottle_wf hs h
  | softErrorCorrected => exact execSoftErrorCorrected_wf hs h
  | spdmMeasurements => exact execSpdmMeasurements_wf hs h
  | podRouteTableWrite => exact execPodRouteTableWrite_wf hs h
  | thermalShutdown => exact execThermalShutdown_wf hs h
  | keySlotWrite => exact execKeySlotWrite_wf hs h
  | headerCrcFailure => exact execHeaderCrcFailure_wf hs h
  | migrationStart => exact execMigrationStart_wf hs h
  | partitionLayoutWrite => exact execPartitionLayoutWrite_wf hs h
  | powerOnBringup => exact execPowerOnBringup_wf hs h
  | bringupTimeout => exact execBringupTimeout_wf hs h
  | routerFailure => exact execRouterFailure_wf hs h
  | eccUncorrectable => exact execEccUncorrectable_wf hs h
  | loaderLoad => exact execLoaderLoad_wf hs h
  | loaderIcinv => exact execLoaderIcinv_wf hs h
  | loaderReadatt => exact execLoaderReadatt_wf hs h
  | loaderInvalidCommand => exact execLoaderInvalidCommand_wf hs h
  | translationPublish => exact execTranslationPublish_wf hs h
  | coreFailure => exact execCoreFailure_wf hs h
  | _ => exact exec_word_wf rfl hs h

/-! ## A step -/

omit hs in
theorem State.fetch_mem {d : DieId} {agent : Nat} {sup : Bool} {va : DWord} {w : Word} {u : State} (h : s.fetch d agent sup va = .word w u) :
    u.mem = s.mem := by
  unfold State.fetch at h
  repeat' split at h
  all_goals cases h
  simp
theorem State.issueWord_wf {a : Agent} (h : s.issueWord a = .next t) : t.mem.wf := by
  unfold State.issueWord at h
  dsimp only at h
  split at h
  · cases h; exact hs
  · split at h
    · cases h; exact hs
    · cases h; simpa using hs
    · next hf =>
      have hu := (State.fetch_mem hf).symm ▸ hs
      exact exec_wf (by exact hu) h
  · split at h
    · exact exec_wf (by exact hs) h
    · cases h; exact hs
  · cases h; simpa using hs
  all_goals
    split at h
    · cases h; exact hs
    · split at h
      · exact exec_wf (by exact hs) h
      · split at h
        · cases h; exact hs
        · cases h; simpa using hs
        · next hf =>
      have hu := (State.fetch_mem hf).symm ▸ hs
      exact exec_wf (by exact hu) h
theorem State.move_wf {m : Move} (h : s.move m = .next t) : t.mem.wf := by
  cases m with
  | core | sv | carder => cases h; simpa using hs
  | event i => exact exec_wf hs h
theorem State.input_wf {i : Input} {rest : List Input} (h : s.input i rest = .next t) : t.mem.wf := by
  unfold State.input at h
  split at h
  · cases h; simpa using hs
  · cases h; simpa using hs
  · cases h; exact hs
  · split at h
    · exact exec_wf hs h
    · cases h; exact hs
theorem State.onward_wf (h : s.onward = .next t) : t.mem.wf := by
  unfold State.onward at h
  split at h
  · exact exec_wf hs h
  · exact State.move_wf hs h
omit hs in
theorem after_wf {r : Res} (hr : ∀ u, r = .next u → u.mem.wf) (h : after r = .next t) : t.mem.wf := by
  cases r with
  | next u =>
    cases h
    have hu := hr u rfl
    show u.endCycle.mem.wf
    unfold State.endCycle
    split <;> simpa using hu
  | fault | refused => cases h
end

/-- Settles O37: the effect of every word and every event keeps the form, and so does what a step does around it. -/
theorem memoryCanonicalKept : Obligations.MemoryCanonicalKept := by
  intro s t hs h
  unfold step at h
  split at h
  · exact after_wf (fun u hu => State.issueWord_wf (by exact hs) hu) h
  · split at h
    · refine after_wf (fun u hu => ?_) h
      split at hu
      · exact State.onward_wf hs hu
      · exact State.input_wf hs hu
    · exact after_wf (fun u hu => State.onward_wf hs hu) h

end Sys2Proof.Machine
end

section
/-! PROOFS. The part as power-on leaves it (R42, R54, R162, R322, R361): O33. -/
namespace Sys2Proof.Machine
open Sys2Proof.Claims

/-! ## What stands at power-on -/

theorem reset_die (d : DieId) : State.reset.die d = {} := Vector.get_replicate ..
theorem reset_part (p : PartId) : State.reset.part p = {} := Vector.get_replicate ..
theorem reset_partOf (d : DieId) : State.reset.partOf d = 0 := Vector.get_replicate ..

/-- The registers of R322 that read zero. -/
theorem reset_sysValue_zero (d : DieId) {n : Nat} (h : n ∈ [0x000, 0x100, 0x101, 0x102, 0x103, 0x104, 0x105, 0x106, 0x107, 0x108]) :
    State.reset.sysValue d n = some 0 := by
  fin_cases h <;> simp [State.sysValue, reset_die, reset_part]
  all_goals rfl
/-- Migration is enabled (R54). -/
theorem reset_sysValue_migctl (d : DieId) : State.reset.sysValue d 0x122 = some 1 := by
  simp [State.sysValue, reset_part]

/-- Settles O33: each register's value at power-on, under the bits that read zero. -/
theorem resetState : Obligations.ResetState := by
  refine ⟨rfl, rfl, rfl, fun _ => rfl, rfl, reset_partOf, fun d n h => ?_, fun d => ?_, rfl, fun k => ?_⟩
  · rw [State.sysRead, reset_sysValue_zero d h]
    simp
  · rw [State.sysRead, reset_sysValue_migctl]
    rfl
  · exact congrArg KeySlot.enabled (Vector.get_replicate ..)
end Sys2Proof.Machine
end

section
/-! PROOFS. The carder words on addresses and CHALT (R51, R74, R75, R79): O31. -/
namespace Sys2Proof.Machine
open Sys2Proof.Claims

/-! ## What a carder that stands ready makes of a word's effect -/

section
variable {s u : State} {i : Instr} {d : DieId} {inst : Nat} {cbody : DieId → Nat → Carder → List Hint → State → CEff}

theorem carderWord_goes (h : CarderReady s i d inst) {k : Carder} (hexec : exec i s = carderWord i cbody s)
    (hb : cbody d inst ((s.die d).carder inst) ((s.die d).carder inst).ctl.chain s = .ok k u) :
    ∃ t, exec i s = .next t ∧ CarderGoes t u d inst k.c (((s.die d).carder inst).ctl.pc + 4) := by
  refine ⟨_, hexec.trans ((sharedWord_carder h _ cbody).trans ?_), rfl⟩
  rw [hb]
theorem carderWord_raises (h : CarderReady s i d inst) {cause : Cause} {fa : DWord} (hexec : exec i s = carderWord i cbody s)
    (hb : cbody d inst ((s.die d).carder inst) ((s.die d).carder inst).ctl.chain s = .trap cause fa) :
    exec i s = .next (s.card d inst cause ((s.die d).carder inst).ctl.pc fa) := by
  refine hexec.trans ((sharedWord_carder h _ cbody).trans ?_)
  rw [hb]
theorem carderWord_done (h : CarderReady s i d inst) (hexec : exec i s = carderWord i cbody s)
    (hb : cbody d inst ((s.die d).carder inst) ((s.die d).carder inst).ctl.chain s = .done u) : exec i s = .next u := by
  refine hexec.trans ((sharedWord_carder h _ cbody).trans ?_)
  rw [hb]
end

/-! ## The running command's accesses -/

section
variable {s : State} {d : DieId} {inst : Nat} {q : Cmd} {v : DWord} {n : Nat}

theorem withCmd_current {c : Carder} (h : c.current = some q) (f : Cmd → CEff) : withCmd c s f = f q := by
  unfold withCmd
  rw [h]
theorem cget_ok {bs : List Byte} (hst : s.cstalled d inst q.sup v n = false) (h : s.cread d inst q.gid q.sup v n = .ok bs) (f : List Byte → CEff) :
    cget d inst q s v n f = f bs := by
  unfold cget
  rw [hst, h]
  rfl
theorem cget_fault {e : Cause} {fa : DWord} (hst : s.cstalled d inst q.sup v n = false) (h : s.cread d inst q.gid q.sup v n = .fault e fa)
    (f : List Byte → CEff) : cget d inst q s v n f = .trap e fa := by
  unfold cget
  rw [hst, h]
  rfl
theorem cput_ok {bs : List Byte} {u : State} (hst : s.cstalled d inst q.sup v bs.length = false) (h : s.cwrite d inst q.gid q.sup v bs = .ok u)
    (f : State → CEff) : cput d inst q s v bs f = f u := by
  unfold cput
  rw [hst, h]
  rfl
theorem cput_fault {bs : List Byte} {e : Cause} {fa : DWord} (hst : s.cstalled d inst q.sup v bs.length = false)
    (h : s.cwrite d inst q.gid q.sup v bs = .fault e fa) (f : State → CEff) : cput d inst q s v bs f = .trap e fa := by
  unfold cput
  rw [hst, h]
  rfl
end

/-! ## CLDX, CSTX and CADDR -/

theorem CWidth.bytes_eq_carderBytes (m : CWidth) : CWidth.bytes m = carderBytes m := by
  cases m <;> rfl
theorem signExtend_ofNat_eq_ofInt_bmod (n : Nat) : (BitVec.ofNat 32 n).signExtend 64 = BitVec.ofInt 64 (Int.bmod n (2 ^ 32)) :=
  congrArg (BitVec.ofInt 64) (BitVec.toInt_ofNat n)
theorem CWidth.extend_eq_carderValue (m : CWidth) (n : Nat) : CWidth.extend m n = carderValue m n := by
  cases m with
  | i32 => exact signExtend_ofNat_eq_ofInt_bmod n
  | n32 | x64 => rfl

section
variable {s : State} {d : DieId} {inst : Nat} {q : Cmd} {c : Carder} {m : CWidth} {r a b : Reg} {hs : List Hint}

theorem cldxBody_unaligned (hal : (indexedAt c a b (carderBytes m)).toNat % carderBytes m ≠ 0) :
    cldxBody m r a b d inst c hs s = .trap Cause.align (indexedAt c a b (carderBytes m)) := by
  unfold cldxBody
  rw [CWidth.bytes_eq_carderBytes]
  exact if_pos hal
theorem cldxBody_aligned (hq : c.current = some q) (hal : (indexedAt c a b (carderBytes m)).toNat % carderBytes m = 0) :
    cldxBody m r a b d inst c hs s = cget d inst q s (indexedAt c a b (carderBytes m)) (carderBytes m) fun bs =>
      .ok (c.set r (carderValue m (ofBytes bs))) (s.cfill d inst q.sup (indexedAt c a b (carderBytes m)) (carderBytes m)) := by
  unfold cldxBody
  rw [CWidth.bytes_eq_carderBytes]
  simp only [CWidth.extend_eq_carderValue, withCmd_current hq]
  exact if_neg (not_not_intro hal)
theorem cstxBody_unaligned (hal : (indexedAt c a b (carderBytes m)).toNat % carderBytes m ≠ 0) :
    cstxBody m r a b d inst c hs s = .trap Cause.align (indexedAt c a b (carderBytes m)) := by
  unfold cstxBody
  rw [CWidth.bytes_eq_carderBytes]
  exact if_pos hal
theorem cstxBody_aligned (hq : c.current = some q) (hal : (indexedAt c a b (carderBytes m)).toNat % carderBytes m = 0) :
    cstxBody m r a b d inst c hs s = cput d inst q s (indexedAt c a b (carderBytes m)) (bytesOf (carderBytes m) (vget c.c r.toNat 0).toNat)
      fun u => .ok c u := by
  unfold cstxBody
  rw [CWidth.bytes_eq_carderBytes]
  simp only [withCmd_current hq]
  exact if_neg (not_not_intro hal)
theorem caddrBody_unaligned (hal : (vget c.c a.toNat 0).toNat % 128 ≠ 0) :
    caddrBody r a b d inst c hs s = .trap Cause.align (vget c.c a.toNat 0) :=
  if_pos hal

/-- What CADDR makes of the record `bs` at `v` and the coordinates `x`, in the state `u` that keeps the record's copies (R75). -/
def caddrOn (c : Carder) (r : Reg) (v : DWord) (x : List Nat) (bs : List Byte) (u : State) : CEff :=
  if !(Layout.of bs).ok then .trap Cause.fmt v
  else if (Layout.of bs).outside x then .trap Cause.bounds 0
  else .ok (c.set r (BitVec.ofInt 64 ((Layout.of bs).addr x))) u
theorem caddrBody_aligned (hq : c.current = some q) (hal : (vget c.c a.toNat 0).toNat % 128 = 0) :
    caddrBody r a b d inst c hs s = cget d inst q s (vget c.c a.toNat 0) 128 fun fresh =>
      let v := vget c.c a.toNat 0
      let key := descKey q v
      let bs := s.descRead d (carderAgent inst) q.ctx key.1 key.2.1 key.2.2 128 fresh
      caddrOn c r v ((List.range 8).map fun i => (vget c.c (b.toNat + i) 0).toNat) bs
        ((s.cfill d inst q.sup v 128).descFill d (carderAgent inst) q.ctx key.1 key.2.1 key.2.2 bs) := by
  unfold caddrBody
  simp only [withCmd_current hq]
  exact if_neg (not_not_intro hal)
end

/-! ## The words of a carder that stands ready -/

section
variable {s : State} {d : DieId} {inst : Nat} {q : Cmd} {m : CWidth} {r a b : Reg} (hq : ((s.die d).carder inst).current = some q)
include hq

theorem cldx_performs (h : CarderReady s (.cldx m r a b) d inst) :
    let c := (s.die d).carder inst
    let n := carderBytes m
    let v := indexedAt c a b n
    v.toNat % n = 0 → s.cstalled d inst q.sup v n = false →
      (∀ bs, s.cread d inst q.gid q.sup v n = .ok bs →
        ∃ t, exec (.cldx m r a b) s = .next t ∧ CarderGoes t (s.cfill d inst q.sup v n) d inst
          (vput c.c r.toNat (carderValue m (ofBytes bs))) (c.ctl.pc + 4)) ∧
      ∀ e fa, s.cread d inst q.gid q.sup v n = .fault e fa → exec (.cldx m r a b) s = .next (s.card d inst e c.ctl.pc fa) := by
  intro c n v hal hst
  refine ⟨fun bs hread => ?_, fun e fa hread => ?_⟩
  · exact carderWord_goes h rfl ((cldxBody_aligned hq hal).trans (cget_ok hst hread _))
  · exact carderWord_raises h rfl ((cldxBody_aligned hq hal).trans (cget_fault hst hread _))

theorem cstx_performs (h : CarderReady s (.cstx m r a b) d inst) :
    let c := (s.die d).carder inst
    let n := carderBytes m
    let v := indexedAt c a b n
    v.toNat % n = 0 → s.cstalled d inst q.sup v n = false →
      let bs := bytesOf n (vget c.c r.toNat 0).toNat
      (∀ u, s.cwrite d inst q.gid q.sup v bs = .ok u → ∃ t, exec (.cstx m r a b) s = .next t ∧ CarderGoes t u d inst c.c (c.ctl.pc + 4)) ∧
      ∀ e fa, s.cwrite d inst q.gid q.sup v bs = .fault e fa → exec (.cstx m r a b) s = .next (s.card d inst e c.ctl.pc fa) := by
  intro c n v hal hst bs
  have hlen : s.cstalled d inst q.sup v bs.length = false := by rwa [bytesOf_length]
  refine ⟨fun u hwrite => ?_, fun e fa hwrite => ?_⟩
  · exact carderWord_goes h rfl ((cstxBody_aligned hq hal).trans (cput_ok hlen hwrite _))
  · exact carderWord_raises h rfl ((cstxBody_aligned hq hal).trans (cput_fault hlen hwrite _))

theorem caddr_performs (h : CarderReady s (.caddr r a b) d inst) :
    let c := (s.die d).carder inst
    let v := vget c.c a.toNat 0
    let x := (List.range 8).map fun i => (vget c.c (b.toNat + i) 0).toNat
    let key := descKey q v
    v.toNat % 128 = 0 → s.cstalled d inst q.sup v 128 = false →
      (∀ e fa, s.cread d inst q.gid q.sup v 128 = .fault e fa → exec (.caddr r a b) s = .next (s.card d inst e c.ctl.pc fa)) ∧
      ∀ fresh, s.cread d inst q.gid q.sup v 128 = .ok fresh →
        let bs := s.descRead d (carderAgent inst) q.ctx key.1 key.2.1 key.2.2 128 fresh
        let u := (s.cfill d inst q.sup v 128).descFill d (carderAgent inst) q.ctx key.1 key.2.1 key.2.2 bs
        ((Layout.of bs).ok = false → exec (.caddr r a b) s = .next (s.card d inst Cause.fmt c.ctl.pc v)) ∧
        ((Layout.of bs).ok = true → (Layout.of bs).outside x = true → exec (.caddr r a b) s = .next (s.card d inst Cause.bounds c.ctl.pc 0)) ∧
        ((Layout.of bs).ok = true → (Layout.of bs).outside x = false →
          ∃ t, exec (.caddr r a b) s = .next t ∧ CarderGoes t u d inst (vput c.c r.toNat (BitVec.ofInt 64 ((Layout.of bs).addr x))) (c.ctl.pc + 4)) := by
  intro c v x key hal hst
  refine ⟨fun e fa hread => carderWord_raises h rfl ((caddrBody_aligned hq hal).trans (cget_fault hst hread _)), ?_⟩
  intro fresh hread bs u
  have hbody : caddrBody r a b d inst c c.ctl.chain s = caddrOn c r v x bs u := (caddrBody_aligned hq hal).trans (cget_ok hst hread _)
  refine ⟨fun hok => carderWord_raises h rfl (hbody.trans ?_), fun hok hout => carderWord_raises h rfl (hbody.trans ?_),
    fun hok hin => carderWord_goes h (k := c.set r (BitVec.ofInt 64 ((Layout.of bs).addr x))) rfl (hbody.trans ?_)⟩
  · simp [caddrOn, hok]
  · simp [caddrOn, hok, hout]
  · simp [caddrOn, hok, hin]
end

/-- Settles O31: each word's body is evaluated under its clause's hypotheses, and `sharedWord_carder` says what a ready carder makes of it. -/
theorem carderLoadsAndStores : Obligations.CarderLoadsAndStores := by
  unfold Obligations.CarderLoadsAndStores
  intro s d inst q m r a b c n v raises hq
  refine ⟨cldx_performs hq, cstx_performs hq, fun h hal => ?_, fun h hal => ?_, fun h => ?_, fun h => ⟨fun hal => ?_, caddr_performs hq h⟩⟩
  · exact carderWord_raises h rfl (cldxBody_unaligned hal)
  · exact carderWord_raises h rfl (cstxBody_unaligned hal)
  · exact carderWord_done h rfl rfl
  · exact carderWord_raises h rfl (caddrBody_unaligned hal)
end Sys2Proof.Machine
end

section
/-! PROOFS. A store's reply from a line in error (R310, log 14): O44. -/
namespace Sys2Proof.Machine
open Sys2Proof.Claims

/-! ## A store's reply from a line in error -/

/-- A store of a byte to the variable at address 0. -/
def byteStore : SyncReq :=
  { id := 0, home := 0, op := .store, part := 0, ctx := 0, die := 0, core := 0, gid := 0, xs := [0], hood := false, pc := 0, addr := 0, width := 1,
    arg := 0, cmp := 0, dst := 0, dstk := 0, acq := false, reply := none, flag := 0 }
/-- A byte that no free value of the first step has in its lowest place. -/
def keptByte : Byte := BitVec.ofNat 8 ((Config.lostValue 0 0).toNat + 1)
/-- The part at reset, but for a store that waits, and a line in error whose memory still holds the byte. -/
def lostLine : State := { State.reset with reqs := [byteStore], badLines := [0], mem := Mem.write [] 0 keptByte }

theorem keptByte_ne_lost : keptByte.toNat ≠ (Config.lostValue 0 0).toNat % 256 := by
  rw [keptByte, BitVec.toNat_ofNat]
  omega
theorem lostLine_memWf : lostLine.memWf := Mem.write_wf 0 keptByte rfl
theorem lostLine_get : lostLine.mem.get 0 1 = keptByte.toNat := by
  have h : lostLine.mem.read 0 = keptByte := (Mem.read_write (m := []) rfl 0 0 keptByte).trans (if_pos rfl)
  simp [Mem.get, Mem.readN, ofBytes, h]
theorem lostLine_variable : lostLine.variable byteStore = (Config.lostValue 0 0).toNat % 256 := rfl

/-- The store's performance leaves the one request, with the free value of the line as its reply. -/
theorem lostLine_reqs : ∀ t, exec (.atomicPerform 0) lostLine = .next t →
    t.reqs = [{ byteStore with reply := some (BitVec.ofNat 256 (lostLine.variable byteStore)) }] := by
  intro t ht
  cases ht
  rfl

/-- Refutes O44: the first clause lets a store meet a line in error and asks for the bytes in memory as its reply, while the engine replies with
the line's free value (`State.variable`, log 14), which differs from `keptByte`. -/
theorem not_syncEnginePerforms : ¬ Obligations.SyncEnginePerforms := by
  unfold Obligations.SyncEnginePerforms
  intro h
  obtain ⟨t, hexec, -, -, hreply, -⟩ := (h lostLine 0 byteStore rfl rfl).1 rfl rfl (fun _ => .inl rfl) lostLine_memWf (fun ⟨_, ho⟩ => nomatch ho)
  obtain ⟨q, hq, -, hold⟩ := hreply (by decide)
  rw [lostLine_reqs t hexec, List.mem_singleton] at hq
  subst hq
  have hnat := congrArg BitVec.toNat (Option.some.inj hold)
  rw [show byteStore.addr = 0 from rfl, show byteStore.width = 1 from rfl, lostLine_variable, lostLine_get, BitVec.toNat_ofNat, BitVec.toNat_ofNat] at hnat
  have hne := keptByte_ne_lost
  have hkept := keptByte.isLt
  omega
end Sys2Proof.Machine
end

section
/-! PROOFS. Context swaps, the shadow bank and the migration of frames (R54, R323, R335, R336): O59. -/
namespace Sys2Proof.Machine
open Sys2Proof.Claims

/-! ## Reading back a block -/

theorem Mem.read_of_lt {x : Nat} : ∀ {m : Mem}, (∀ c ∈ m, x < c.1) → m.read x = 0
  | [], _ => rfl
  | (a, b) :: m, h => by
    have hx : x < a := h (a, b) List.mem_cons_self
    simp only [Mem.read]
    rw [if_neg (by omega), if_pos hx]
theorem Mem.read_append_right {x : Nat} {m : Mem} : ∀ {l : Mem}, (∀ c ∈ l, c.1 < x) → Mem.read (l ++ m) x = m.read x
  | [], _ => rfl
  | (a, b) :: l, h => by
    have hx : a < x := h (a, b) List.mem_cons_self
    show Mem.read ((a, b) :: (l ++ m)) x = _
    simp only [Mem.read]
    rw [if_neg (by omega), if_neg (by omega), Mem.read_append_right fun c hc => h c (List.mem_cons_of_mem _ hc)]
theorem Mem.le_of_mem_cells : ∀ (bs : List Byte) (i : Nat), ∀ c ∈ Mem.block.cells i bs, i ≤ c.1
  | [], _, _, hc => nomatch hc
  | b :: bs, i, c, hc => by
    have ih := Mem.le_of_mem_cells bs (i + 1) c
    rw [Mem.cells_cons] at hc
    split at hc
    · exact Nat.le_of_succ_le (ih hc)
    · rcases List.mem_cons.mp hc with rfl | hc
      · exact Nat.le_refl _
      · exact Nat.le_of_succ_le (ih hc)
theorem Mem.read_cells_append {m : Mem} : ∀ (bs : List Byte) (a i : Nat), (∀ c ∈ m, a + bs.length ≤ c.1) → i < bs.length →
    Mem.read (Mem.block.cells a bs ++ m) (a + i) = bs.getD i 0
  | b :: bs, a, 0, h, _ => by
    rw [Mem.cells_cons]
    split
    · next hb =>
      refine (Mem.read_of_lt fun c hc => ?_).trans hb.symm
      rcases List.mem_append.mp hc with hc | hc
      · exact Mem.le_of_mem_cells bs (a + 1) c hc
      · have := h c hc
        rw [List.length_cons] at this
        omega
    · simp [Mem.read]
  | b :: bs, a, i + 1, h, hi => by
    have ih := Mem.read_cells_append bs (a + 1) i (m := m) (fun c hc => by have := h c hc; simp at this; omega) (by simpa using hi)
    rw [show a + 1 + i = a + (i + 1) by omega] at ih
    rw [Mem.cells_cons]
    split
    · simpa using ih
    · show Mem.read ((a, b) :: _) _ = _
      simp only [Mem.read]
      rw [if_neg (by omega), if_neg (by omega)]
      simpa using ih
/-- What a block write leaves within the block. -/
theorem Mem.read_block (m : Mem) (a : Nat) {bs : List Byte} {i : Nat} (hi : i < bs.length) : (m.block a bs).read (a + i) = bs.getD i 0 := by
  unfold Mem.block
  rw [List.append_assoc, Mem.read_append_right, Mem.read_cells_append bs a i _ hi]
  · intro c hc
    simpa using (List.mem_filter.mp hc).2
  · intro c hc
    have : c.1 < a := by simpa using (List.mem_filter.mp hc).2
    omega

/-! ## A fault of the supervisor wave (R329) -/

theorem StopRec.bytes_length (r : StopRec) : r.bytes.length = 64 := by
  simp [StopRec.bytes, bytesOf_length]
/-- The frame names the cause behind the stop record (R314). -/
theorem trapFrame_eq_append (f : FaultRec) (c : Byte) (pend : BitVec 5) (clock : Nat) :
    ∃ rest, trapFrame (some f) c pend clock = f.stop.bytes ++ c :: rest := by
  simp only [trapFrame, List.append_assoc, List.cons_append]
  exact ⟨_, rfl⟩
theorem trapFrame_cause (f : FaultRec) (c : Byte) (pend : BitVec 5) (clock : Nat) :
    64 < (trapFrame (some f) c pend clock).length ∧ (trapFrame (some f) c pend clock).getD 64 0 = c := by
  obtain ⟨rest, h⟩ := trapFrame_eq_append f c pend clock
  have hlen := StopRec.bytes_length f.stop
  rw [h]
  refine ⟨by simp [hlen], ?_⟩
  rw [List.getD_append_right _ _ _ _ hlen.le, hlen]
  rfl

/-- A die whose supervisor wave has taken a fault with this frame. -/
def Die.afterFault (D : Die) (frame : List Byte) : Die :=
  { ({ D with sv := { D.sv with shared := D.sv.shared.block svTrapFrameAt frame } } : Die).enterHandler 64 with svOwn := true }
theorem State.raiseSv_die (s : State) (d : DieId) (f : FaultRec) : (s.raiseSv d f).die d = (s.die d).afterFault
    (trapFrame (some { f with stop := { f.stop with cls := 5 } }) f.stop.cause (s.part (s.partOf d)).tpend s.clock) := by
  rw [State.raiseSv, State.svWrite, State.die_modDie, State.die_modDie]
  rfl
theorem State.raiseSv_die_ne (s : State) {d e : DieId} (f : FaultRec) (h : e ≠ d) : (s.raiseSv d f).die e = s.die e := by
  rw [State.raiseSv, State.svWrite, State.die_modDie_ne _ _ _ _ h.symm, State.die_modDie_ne _ _ _ _ h.symm]

/-- What a fault of a die's supervisor wave leaves of the state, the wave at its handler and the cause in its frame. -/
structure SvFaults (s t : State) (d : DieId) (c : Cause) : Prop where
  mem : t.mem = s.mem
  parts : t.parts = s.parts
  saves : t.saves = s.saves
  others : ∀ e, e ≠ d → t.die e = s.die e
  active : (t.die d).active = (s.die d).active
  shadow : (t.die d).shadow = (s.die d).shadow
  shState : (t.die d).shState = (s.die d).shState
  shOp : (t.die d).shOp = (s.die d).shOp
  svepc : (t.die d).svepc = (s.die d).sv.svPc.lo
  pc : ∀ l ∈ (t.die d).sv.lanes, l.ctl.pc = pair ((s.die d).trapvec + 64) (s.die d).sv.svPc.hi
  cause : (t.die d).sv.shared.read (svTrapFrameAt + 64) = c
theorem Group.svJump_pc (G : Group) (pc : DWord) : ∀ l ∈ (G.svJump pc).lanes, l.ctl.pc = pc := by
  intro l hl
  obtain ⟨_, -, rfl⟩ := List.mem_map.mp hl
  rfl
theorem State.svFault_faults (s : State) (d : DieId) (c : Cause) (fa : DWord) : SvFaults s (s.svFault d c fa) d c := by
  obtain ⟨f, hf, hcause⟩ : ∃ f, s.svFault d c fa = s.raiseSv d f ∧ f.stop.cause = c := ⟨_, rfl, rfl⟩
  obtain ⟨frame, hdie, hlen, hget⟩ : ∃ frame, (s.raiseSv d f).die d = (s.die d).afterFault frame ∧ 64 < frame.length ∧ frame.getD 64 0 = c :=
    ⟨_, s.raiseSv_die d f, hcause ▸ trapFrame_cause ..⟩
  rw [hf]
  exact {
    mem := rfl, parts := rfl, saves := rfl
    others := fun e h => s.raiseSv_die_ne f h
    active := by rw [hdie]; rfl
    shadow := by rw [hdie]; rfl
    shState := by rw [hdie]; rfl
    shOp := by rw [hdie]; rfl
    svepc := by rw [hdie]; rfl
    pc := by rw [hdie]; exact Group.svJump_pc _ _
    cause := by rw [hdie]; exact (Mem.read_block _ _ hlen).trans hget }

/-! ## Writes of main memory by device address -/

/-- Nothing but main memory and its lines in error changes. -/
def State.MemOnly (s t : State) : Prop := ∃ m ls, t = { s with mem := m, badLines := ls }
theorem State.MemOnly.trans {s t u : State} (h : s.MemOnly t) (k : t.MemOnly u) : s.MemOnly u := by
  obtain ⟨_, _, rfl⟩ := h
  obtain ⟨m, ls, rfl⟩ := k
  exact ⟨m, ls, rfl⟩
theorem State.rewrite_eq (s : State) (das : List Nat) : ∃ ls, s.rewrite das = { s with badLines := ls } := by
  unfold State.rewrite
  split
  · exact ⟨_, rfl⟩
  · exact ⟨_, rfl⟩
theorem State.MemOnly.rewrite (s : State) (m : Mem) (das : List Nat) : s.MemOnly (State.rewrite { s with mem := m } das) := by
  obtain ⟨ls, hls⟩ := State.rewrite_eq { s with mem := m } das
  exact ⟨m, ls, hls⟩
theorem State.MemOnly.writeDa (s : State) (a : Nat) (bs : List Byte) : s.MemOnly (s.writeDa a bs) := .rewrite ..
theorem State.MemOnly.writeAll (s : State) (das : List Nat) (bs : List Byte) : s.MemOnly (s.writeAll das bs) := .rewrite ..
/-- The write-back of a queue changes main memory, and the queues of its die (R283). -/
theorem State.queueBack_eq (s : State) (q : RQueue) : ∃ t, s.MemOnly t ∧
    s.queueBack q = t.modDie q.die fun D => { D with queues := D.queues.filter fun o => !o.is q.part q.ctx q.handle } :=
  ⟨_, (State.MemOnly.writeAll s _ _).trans ((State.MemOnly.writeDa _ _ _).trans (.writeDa ..)), rfl⟩

/-! ## Swaps (R336) -/

section
variable {s : State} {d : DieId} {c : Ctx}

/-- An operation on a die's banks that is refused leaves a fault of the supervisor wave. -/
theorem refuses_of_none {i : Instr} {o : Option State} (hexec : exec i s = orBaruse s d o) (ho : o = none) :
    yields s i fun t => (t.mem = s.mem ∧ t.parts = s.parts ∧ ∀ e, e ≠ d → t.die e = s.die e) ∧ (t.die d).active = (s.die d).active ∧
      (t.die d).shadow = (s.die d).shadow ∧ (t.die d).svepc = (s.die d).sv.svPc.lo ∧
      ∀ l ∈ (t.die d).sv.lanes, l.ctl.pc = pair ((s.die d).trapvec + 64) (s.die d).sv.svPc.hi := by
  have h := s.svFault_faults d Cause.baruse 0
  exact ⟨_, hexec.trans (ho ▸ rfl), ⟨h.mem, h.parts, h.others⟩, h.active, h.shadow, h.svepc, h.pc⟩
/-- One that is granted changes the die alone. -/
theorem yields_modDie {i : Instr} {o : Option State} {f : Die → Die} (hexec : exec i s = orBaruse s d o) (ho : o = some (s.modDie d f)) :
    yields s i fun t => (t.mem = s.mem ∧ t.parts = s.parts ∧ ∀ e, e ≠ d → t.die e = s.die e) ∧ t.die d = f (s.die d) :=
  ⟨s.modDie d f, hexec.trans (ho ▸ rfl), ⟨rfl, rfl, fun _ h => s.die_modDie_ne _ _ _ h.symm⟩, s.die_modDie d f⟩
theorem yields_imp {i : Instr} {P Q : State → Prop} (h : yields s i P) (hpq : ∀ t, P t → Q t) : yields s i Q :=
  let ⟨t, ht, hp⟩ := h
  ⟨t, ht, hpq t hp⟩

/-- The condition of a write of sys.swap (R336). -/
def swapReady (s : State) (d : DieId) (c : Ctx) : Prop :=
  halted s d ∧ (s.die d).shState = 1 ∧ (s.die d).shadow.ctx = c ∧ (s.die d).carderHolds (s.die d).active.ctx = false
/-- The exchange of the banks. -/
def Die.swapped (D : Die) : Die :=
  { D with active := D.shadow, shadow := D.active, shState := if D.active.ctx = 0 then 0 else 1, swapBusy := true, sched := Vector.replicate 100 {} }
theorem State.swap_of_ready (h : swapReady s d c) : s.swap d c = some (s.modDie d Die.swapped) := by
  obtain ⟨⟨hhalt, hcomplete⟩, hstate, hctx, hfree⟩ := h
  simp only [State.swap]
  rw [if_neg (by simp [hhalt, hcomplete, hstate, hctx, hfree])]
  rfl
theorem State.swap_of_not_ready (h : ¬swapReady s d c) : s.swap d c = none := by
  simp only [State.swap]
  rw [if_pos]
  by_contra hc
  refine h ?_
  simpa [swapReady, halted, and_assoc] using hc

/-! ## The end of a shadow bank's operation (R336) -/

/-- A LOAD or SAVE that fails: the bank is as it was, and the supervisor wave faults. -/
def State.areaFault (s : State) (d : DieId) (e : Cause) (fa : Nat) : State :=
  (s.modDie d fun D => { D with shState := if D.shadow.ctx = 0 then 0 else 1, shOp := none }).svFault d e (BitVec.ofNat 64 fa)
/-- What such a failure leaves. -/
structure AreaFaults (s t : State) (d : DieId) (e : Cause) : Prop where
  others : t.mem = s.mem ∧ t.parts = s.parts ∧ ∀ e, e ≠ d → t.die e = s.die e
  shOp : (t.die d).shOp = none
  shState : (t.die d).shState = if (s.die d).shadow.ctx = 0 then 0 else 1
  active : (t.die d).active = (s.die d).active
  shadow : (t.die d).shadow = (s.die d).shadow
  saves : t.saves = s.saves
  svepc : (t.die d).svepc = (s.die d).sv.svPc.lo
  cause : (t.die d).sv.shared.read (svTrapFrameAt + 64) = e
theorem State.areaFault_faults (s : State) (d : DieId) (e : Cause) (fa : Nat) : AreaFaults s (s.areaFault d e fa) d e := by
  have h := (s.modDie d fun D => { D with shState := if D.shadow.ctx = 0 then 0 else 1, shOp := none }).svFault_faults d e (BitVec.ofNat 64 fa)
  have hdie := s.die_modDie d fun D => { D with shState := if D.shadow.ctx = 0 then 0 else 1, shOp := none }
  exact {
    others := ⟨h.mem, h.parts, fun x hx => (h.others x hx).trans (s.die_modDie_ne _ _ _ hx.symm)⟩
    shOp := by rw [State.areaFault, h.shOp, hdie]
    shState := by rw [State.areaFault, h.shState, hdie]
    active := by rw [State.areaFault, h.active, hdie]
    shadow := by rw [State.areaFault, h.shadow, hdie]
    saves := h.saves
    svepc := by rw [State.areaFault, h.svepc, hdie]
    cause := h.cause }

section
variable {op : ShadowOp} {l : Nat}

theorem execShadowOpComplete_none (hop : (s.die d).shOp = none) : execShadowOpComplete d s = .next s := by
  simp [execShadowOpComplete, hop]
theorem execShadowOpComplete_bad (hop : (s.die d).shOp = some op) (hbad : s.areaBad d = true) :
    execShadowOpComplete d s = .next (s.areaFault d Cause.prot (s.die d).saveArea) := by
  simp only [execShadowOpComplete, hop, hbad, if_true]
  rfl
theorem execShadowOpComplete_stalled (hop : (s.die d).shOp = some op) (hbad : s.areaBad d = false) (hst : s.areaStalled d = true) :
    execShadowOpComplete d s = .next s := by
  simp [execShadowOpComplete, hop, hbad, hst]
theorem execShadowOpComplete_lost (hop : (s.die d).shOp = some (.load c)) (hbad : s.areaBad d = false) (hst : s.areaStalled d = false)
    (hl : s.areaLine d = some l) : execShadowOpComplete d s = .next (s.areaFault d Cause.ecc (64 * l)) := by
  simp only [execShadowOpComplete, hop, hbad, hst, hl]
  rfl
/-- A SAVE that is over. -/
theorem execShadowOpComplete_save (hop : (s.die d).shOp = some .save) (hbad : s.areaBad d = false) (hst : s.areaStalled d = false) :
    execShadowOpComplete d s = .next ((s.saveBank d (s.die d).shadow).modDie d fun D => { D with shState := 0, shOp := none, shadow := {} }) := by
  simp only [execShadowOpComplete, hop, hbad, hst]
  rfl
/-- A LOAD that is over. -/
def State.loaded (s : State) (d : DieId) (c : Ctx) : State :=
  { s.modDie d fun D => { D with shState := 1, shOp := none, shadow := s.loadedBank d D.saveArea c } with
    saves := s.saves.map fun e => if some e.id == (s.savedAt (s.die d).saveArea c).map (·.id) then { e with away := false } else e }
theorem execShadowOpComplete_load (hop : (s.die d).shOp = some (.load c)) (hbad : s.areaBad d = false) (hst : s.areaStalled d = false)
    (hl : s.areaLine d = none) : execShadowOpComplete d s = .next (s.loaded d c) := by
  unfold execShadowOpComplete
  simp only [hop, hbad, hst, hl, Bool.false_eq_true, if_false]
  rfl
end

/-! ### SAVE -/

/-- All that a SAVE changes besides the bank. -/
theorem State.saveBank_eq (s : State) (d : DieId) (B : Bank) : s.saveBank d B =
    { s with saves := ⟨s.nextId, B.ctx, d, B, true⟩ :: s.saves, nextId := s.nextId + 1,
             mem := s.mem.writeN (s.die d).saveArea (bytesOf 8 s.nextId),
             badLines := s.badLines.filter fun l => !decide ((s.die d).saveArea / 64 ≤ l ∧ l < ((s.die d).saveArea + saveBytes) / 64) } := by
  unfold State.saveBank State.writeDa
  obtain ⟨ls, hls⟩ := State.rewrite_eq
    { s with saves := ⟨s.nextId, B.ctx, d, B, true⟩ :: s.saves, nextId := s.nextId + 1,
             mem := s.mem.writeN (s.die d).saveArea (bytesOf 8 s.nextId) } (span (s.die d).saveArea (bytesOf 8 s.nextId).length)
  exact congrArg (fun t : State => { t with
    badLines := s.badLines.filter fun l => !decide ((s.die d).saveArea / 64 ≤ l ∧ l < ((s.die d).saveArea + saveBytes) / 64) }) hls
/-- No line of an area is in error once all of it is rewritten. -/
theorem areaLine_rewritten (ls : List Nat) (a b : Nat) :
    (ls.filter fun l => !decide (a ≤ l ∧ l < b)).filter (fun l => decide (a ≤ l ∧ l < b)) = [] :=
  List.filter_eq_nil_iff.mpr fun l hl => by simpa [imp_iff_not_or] using (List.mem_filter.mp hl).2
/-- The bank once its SAVE is over. -/
def Die.saved (D : Die) : Die := { D with shState := 0, shOp := none, shadow := {} }
theorem State.saved_areaLine (s : State) (d : DieId) (B : Bank) : ((s.saveBank d B).modDie d Die.saved).areaLine d = none := by
  unfold State.areaLine
  rw [State.die_modDie, State.saveBank_eq]
  exact congrArg (bestOf fun (a b : Nat) => decide (a ≤ b)) (areaLine_rewritten s.badLines ((s.die d).saveArea / 64) (((s.die d).saveArea + saveBytes) / 64))

/-! ### LOAD -/

theorem poolOk_noTable (s : State) : s.poolOk noTable.toNat = false := by
  simp [State.poolOk]
theorem State.loadedBank_saved {a : Nat} {x : Saved} (h : s.savedAt a c = some x) : s.loadedBank d a c = { x.bank with removed := [] } := by
  rw [State.loadedBank, h]
/-- A home that a bank brings lies in its die's partition (R94). -/
theorem State.ownHome_iff {home : Router} {rank : Option Nat} :
    s.ownHome d home rank = true ↔ rank = none ∧ ∀ e, routerDie home = some e → s.partOf e = s.partOf d := by
  cases hr : routerDie home <;> simp [State.ownHome, hr]
/-- What an altered area brings stays within the partition (R5). -/
structure Confined (s : State) (d : DieId) (c : Ctx) (B : Bank) : Prop where
  ctx : B.ctx = c
  handles : ∀ h ∈ B.handles, h.ctx = c
  groups : ∀ G ∈ B.groups, G.gid ≠ 0 ∧ G.launch = 0
  interests : ∀ i ∈ B.interests, i.rank = none ∧ ∀ e, routerDie i.home = some e → s.partOf e = s.partOf d
  offers : ∀ o ∈ B.offers, o.rank = none ∧ ∀ e, routerDie o.home = some e → s.partOf e = s.partOf d
  rtab : s.poolOk B.rtab.toNat = false
  ptroot : s.poolOk B.ptroot.toNat = false
theorem State.loadedBank_confined {a : Nat} (h : s.savedAt a c = none) : Confined s d c (s.loadedBank d a c) := by
  rw [State.loadedBank, h]
  exact {
    ctx := rfl
    handles := fun x hx => by obtain ⟨_, -, rfl⟩ := List.mem_map.mp hx; rfl
    groups := fun G hG => by
      obtain ⟨G', hG', rfl⟩ := List.mem_map.mp hG
      exact ⟨by simpa using (List.mem_filter.mp hG').2, rfl⟩
    interests := fun i hi => State.ownHome_iff.mp (List.mem_filter.mp hi).2
    offers := fun o ho => State.ownHome_iff.mp (List.mem_filter.mp ho).2
    rtab := poolOk_noTable s
    ptroot := poolOk_noTable s }

theorem State.loaded_others : (s.loaded d c).mem = s.mem ∧ (s.loaded d c).parts = s.parts ∧ ∀ e, e ≠ d → (s.loaded d c).die e = s.die e :=
  ⟨rfl, rfl, fun e h => s.die_modDie_ne d e (fun D => { D with shState := 1, shOp := none, shadow := s.loadedBank d D.saveArea c }) h.symm⟩
theorem State.loaded_die : (s.loaded d c).die d = { s.die d with shState := 1, shOp := none, shadow := s.loadedBank d (s.die d).saveArea c } :=
  s.die_modDie d fun D => { D with shState := 1, shOp := none, shadow := s.loadedBank d D.saveArea c }
theorem State.loaded_saves {x : Saved} (h : s.savedAt (s.die d).saveArea c = some x) :
    (s.loaded d c).saves = s.saves.map fun e => if e.id = x.id then { e with away := false } else e := by
  simp [State.loaded, h]
end

theorem contextsSwap : Claims.ContextsSwap := by
  intro s d c D others refusesIn may
  refine ⟨fun h => refuses_of_none rfl (State.swap_of_not_ready h), fun h => ?_, fun h => ?_, fun h => ?_,
    fun h => refuses_of_none rfl (if_neg h), fun h => ?_, fun h => refuses_of_none rfl (if_neg (not_not_intro h)),
    fun h => ?_, fun h => refuses_of_none rfl (if_neg h), fun h => ?_, fun h => execShadowOpComplete_none h, fun op hop hbad => ?_,
    fun op hop hbad hst => execShadowOpComplete_stalled hop hbad hst, fun l hop hbad hst hl => ?_, fun hop hbad hst => ?_, fun hop hbad hst hl => ?_⟩
  · refine yields_imp (yields_modDie rfl (State.swap_of_ready h)) fun t ⟨ho, hd⟩ => ⟨ho, ?_⟩
    rw [hd]
    exact ⟨rfl, rfl, rfl, rfl, rfl⟩
  · exact congrArg Host.Outcome.next (if_neg (by simpa using h))
  · exact ⟨_, congrArg Host.Outcome.next (if_pos h), ⟨rfl, rfl, fun e he => s.die_modDie_ne d e _ he.symm⟩, by simp, by simp; rfl⟩
  · exact yields_modDie (f := fun D => { D with shState := 2, shOp := some .save }) rfl (if_pos h)
  · exact yields_modDie (f := fun D => { D with shState := 2, shOp := some (.load c) }) rfl (if_pos h)
  · exact yields_modDie (f := fun D => { D with shState := 1, shadow := { ctx := c } }) rfl (if_pos h)
  · have h := s.areaFault_faults d Cause.prot D.saveArea
    exact ⟨_, execShadowOpComplete_bad hop hbad, h.others, h.shOp, h.shState, h.active, h.shadow, h.saves, h.svepc, fun _ => h.cause⟩
  · have h := s.areaFault_faults d Cause.ecc (64 * l)
    exact ⟨_, execShadowOpComplete_lost hop hbad hst hl, h.others, h.shOp, h.active, h.shadow, h.saves, fun _ => h.cause⟩
  · have hline := s.saved_areaLine d D.shadow
    refine ⟨_, execShadowOpComplete_save hop hbad hst, ?_⟩
    rw [State.saveBank_eq] at hline ⊢
    exact ⟨rfl, fun e he => State.die_modDie_ne _ d e Die.saved he.symm, State.die_modDie _ d Die.saved, rfl, rfl, rfl, hline⟩
  · refine ⟨_, execShadowOpComplete_load hop hbad hst hl, State.loaded_others, ?_⟩
    rw [State.loaded_die]
    refine ⟨rfl, rfl, rfl, fun x hx => ⟨State.loadedBank_saved hx, State.loaded_saves hx⟩, fun hnone => ?_⟩
    have h := State.loadedBank_confined (d := d) hnone
    exact ⟨h.ctx, h.handles, h.groups, h.interests, h.offers, h.rtab, h.ptroot⟩

/-! ## Migration (R54) -/

/-- The frame of a descriptor in HBM4E. -/
theorem frameOf_of_poolOf_zero {da : Nat} (h : poolOf da = 0) : frameOf da = da / 2 ^ 21 := by
  unfold poolOf at h
  unfold frameOf
  rw [Nat.shiftRight_eq_div_pow] at *
  omega

section
variable {s : State} {f : Nat} {m : Migration}

/-- The resident queues of a frame at its home (R54, step 3). -/
def State.frameQueues (s : State) (f : Nat) : List RQueue :=
  (s.die (s.homeOf (f * 2 ^ 21))).queues.filter fun q => poolOf q.desc == 0 && frameOf q.desc == f
theorem State.mem_frameQueues {q : RQueue} :
    q ∈ s.frameQueues f ↔ q ∈ (s.die (s.homeOf (f * 2 ^ 21))).queues ∧ poolOf q.desc = 0 ∧ q.desc / 2 ^ 21 = f := by
  simp only [State.frameQueues, List.mem_filter, Bool.and_eq_true, beq_iff_eq]
  refine and_congr_right fun _ => and_congr_right fun hp => ?_
  rw [frameOf_of_poolOf_zero hp]
/-- The state in which a frame's move is over, from the one in which its queues are written back. -/
def State.moved (s : State) (f : Nat) (old dst : DieId) : State :=
  let s := s.modDie old fun D => { D with held := D.held.filter fun l => !(poolOf (l.1 * 64) == 0 && frameOf (l.1 * 64) == f) }
  { s with home := (f, dst) :: s.home.filter (·.1 != f), moving := s.moving.filter (·.frame != f) }
theorem execMigrationComplete_none (hm : s.moving.find? (·.frame == f) = none) : execMigrationComplete f s = .next s := by
  simp only [execMigrationComplete, hm]
theorem execMigrationComplete_stalled (hm : s.moving.find? (·.frame == f) = some m) (hst : (s.frameQueues f).any (s.backStalled f) = true) :
    execMigrationComplete f s = .next s := by
  simp only [execMigrationComplete, hm]
  exact if_pos hst
theorem execMigrationComplete_moved (hm : s.moving.find? (·.frame == f) = some m) (hst : ¬(s.frameQueues f).any (s.backStalled f) = true) :
    execMigrationComplete f s = .next (((s.frameQueues f).foldl State.queueBack s).moved f (s.homeOf (f * 2 ^ 21)) m.dst) := by
  simp only [execMigrationComplete, hm]
  exact if_neg hst
theorem State.queueBack_moving (s : State) (q : RQueue) : (s.queueBack q).moving = s.moving := by
  obtain ⟨t, ⟨m, ls, rfl⟩, h⟩ := s.queueBack_eq q
  rw [h]
  rfl
theorem State.foldl_queueBack_moving (l : List RQueue) (s : State) : (l.foldl State.queueBack s).moving = s.moving := by
  induction l generalizing s with
  | nil => rfl
  | cons q l ih => exact (ih _).trans (State.queueBack_moving ..)

theorem withInput_headed {x : Input} {rest : List Input} (h : headed s x rest) (g : Input → State → State) :
    withInput s g = .next (g x { s with inbox := rest }) := by
  rw [withInput, show s.inbox = x :: rest from h]
theorem execMigrationStart_headed {dst : DieId} {rest : List Input} (h : headed s (.migrate f dst) rest) :
    execMigrationStart s = .next (if (s.ready && s.mayMigrate f dst) = true then { s with inbox := rest, moving := s.moving ++ [⟨f, dst⟩] }
      else { s with inbox := rest }) :=
  withInput_headed h _
end

theorem framesMigrate : Claims.FramesMigrate := by
  intro s
  refine ⟨fun d v => ⟨_, rfl, ?_, rfl, rfl⟩, fun f dst rest hin => ⟨fun hr hm => ?_, fun h => ?_⟩, fun f hm => execMigrationComplete_none hm,
    fun f m hm q hq hpool hframe hst => ?_, fun f m hm hfree => ?_⟩
  · rw [State.setMigctl, State.part_modPart]
  · exact (execMigrationStart_headed hin).trans (congrArg Host.Outcome.next (if_pos ((Bool.and_eq_true _ _).mpr ⟨hr, hm⟩)))
  · refine (execMigrationStart_headed hin).trans (congrArg Host.Outcome.next (if_neg fun hboth => ?_))
    obtain ⟨hready, hmay⟩ := (Bool.and_eq_true _ _).mp hboth
    exact h.elim (fun h => Bool.noConfusion (h.symm.trans hready)) fun h => Bool.noConfusion (h.symm.trans hmay)
  · exact execMigrationComplete_stalled hm (List.any_eq_true.mpr ⟨q, State.mem_frameQueues.mpr ⟨hq, hpool, hframe⟩, hst⟩)
  · have hnone : ¬(s.frameQueues f).any (s.backStalled f) = true := by
      intro hany
      obtain ⟨q, hq, hst⟩ := List.any_eq_true.mp hany
      obtain ⟨hmem, hpool, hframe⟩ := State.mem_frameQueues.mp hq
      exact Bool.noConfusion (hst.symm.trans (hfree q hmem hpool hframe))
    refine ⟨_, execMigrationComplete_moved hm hnone, ?_, ?_, fun hq => ?_⟩
    · exact congrArg (List.filter _) (State.foldl_queueBack_moving ..)
    · exact List.find?_cons_of_pos (beq_self_eq_true f)
    · have hqs : s.frameQueues f = [] := by rw [State.frameQueues, hq]; rfl
      rw [hqs]
      rfl

/-- Settles O59: each event's executor is evaluated under its clause's condition. -/
theorem contextEvents : Obligations.ContextEvents := ⟨contextsSwap, framesMigrate⟩
end Sys2Proof.Machine
end

section
/-! PROOFS. A group that lists a lane twice (R301): what refutes O47. -/
namespace Sys2Proof.Machine
open Sys2Proof.Claims

/-! ## A group that lists a lane twice -/

/-- Index 0 is listed twice, first at 0x2000 and then at 0x1000. -/
def twinGroup : Group :=
  { gid := 1, count := 1, slots := [0], alloc := [64], lanes := [{ x := 0, ctl := { pc := 0x2000 }, g := Vector.replicate 64 0 },
      { x := 0, ctl := { pc := 0x1000 }, g := Vector.replicate 64 0 }] }
/-- The second of them issues, while a frame is on the move in its partition. -/
def twinState : State :=
  ({ State.reset with cur := .lanes 0 1 0 0x1000, moving := [⟨3, 1⟩] } : State).modDie 0 fun D =>
    { D with active := { D.active with ctx := 1, groups := [twinGroup] } }
def twinWho : Who :=
  { d := 0, gid := 1, core := 0, hood := none, all := [0], xs := [0], pc := 0x1000, chainPc := 0x1000, hints := [], prog := 0 }

theorem twinState_ready : Ready twinState (.tfence .pkg) twinWho twinGroup where
  who := by rfl
  group := by rfl
  one := rfl
  check := by decide
  sel := by decide
  whole h := absurd rfl h
  free h := by cases h
  point _ h := by cases h
theorem twinGroup_solo : Solo twinGroup twinWho := .inr ⟨0, by decide, by decide⟩
/-- TFENCE is held, and index 0 is then found at 0x2000. -/
theorem twinState_pc : ∀ t, exec (.tfence .pkg) twinState = .next t → (t.ctlAt twinWho 0).pc = 0x2000 := by
  intro t ht
  cases ht
  rfl

/-- Refutes O47: a fence that waits is said to leave each participant at the word's PC, of every state, also of one whose group lists an index twice. In
`twinState` the second entry of index 0 issues TFENCE, which a migration holds; both entries are then held, and the first, which the index names, stands
elsewhere. What is missing is the hypothesis that a group lists each index once. -/
theorem not_fencesDropCopies : ¬ Obligations.FencesDropCopies := by
  unfold Obligations.FencesDropCopies
  intro h
  obtain ⟨htfence, -, -⟩ := h twinState twinWho twinGroup .pkg twinGroup_solo (by decide)
  obtain ⟨hheld, -⟩ := htfence twinState_ready (by decide)
  obtain ⟨t, hexec, -, -, hpc⟩ := hheld (.inl ⟨.inl rfl, ⟨3, 1⟩, List.mem_singleton_self _, .inr rfl⟩)
  have hat := (hpc 0 (by decide)).2
  rw [twinState_pc t hexec] at hat
  exact absurd hat (by decide)
end Sys2Proof.Machine
end

section
/-! PROOFS. UNWANT, NEVICT and NTWR (R109 to R111): O50. -/
namespace Sys2Proof.Machine
open Sys2Proof.Claims

/-! ## What leaves every group as it is -/

/-- No group of a die changes. -/
structure State.KeepsGroups (s t : State) : Prop where
  sv : ∀ d, (t.die d).sv = (s.die d).sv
  groups : ∀ d, (t.die d).active.groups = (s.die d).active.groups
theorem State.KeepsGroups.refl (s : State) : s.KeepsGroups s := ⟨fun _ => rfl, fun _ => rfl⟩
theorem State.KeepsGroups.trans {s t u : State} (h : s.KeepsGroups t) (k : t.KeepsGroups u) : s.KeepsGroups u :=
  ⟨fun d => (k.sv d).trans (h.sv d), fun d => (k.groups d).trans (h.groups d)⟩
theorem State.KeepsGroups.of_dies {s t : State} (h : t.dies = s.dies) : s.KeepsGroups t := by
  have hd (d : DieId) : t.die d = s.die d := congrArg (fun v : Vector Die 8 => v.get d) h
  exact ⟨fun d => by rw [hd], fun d => by rw [hd]⟩
theorem State.KeepsGroups.modDie (s : State) (d : DieId) {f : Die → Die} (hsv : ∀ D, (f D).sv = D.sv)
    (hgroups : ∀ D, (f D).active.groups = D.active.groups) : s.KeepsGroups (s.modDie d f) := by
  have hd (e : DieId) : (s.modDie d f).die e = f (s.die e) ∨ (s.modDie d f).die e = s.die e := by
    by_cases h : d = e
    · exact .inl (h ▸ s.die_modDie d f)
    · exact .inr (s.die_modDie_ne d e f h)
  refine ⟨fun e => ?_, fun e => ?_⟩
  · rcases hd e with h | h
    · rw [h, hsv]
    · rw [h]
  · rcases hd e with h | h
    · rw [h, hgroups]
    · rw [h]
theorem State.KeepsGroups.group {s t : State} (h : s.KeepsGroups t) (d : DieId) (gid : Nat) : t.group d gid = s.group d gid := by
  unfold State.group Die.group
  rw [h.sv, h.groups]
theorem State.KeepsGroups.g {s t : State} (h : s.KeepsGroups t) (w : Who) (x r : Nat) : t.g w x r = s.g w x r := by
  unfold State.g
  rw [h.group]

theorem State.KeepsGroups.fillTlb (s : State) (d : DieId) (agent : Nat) (sup : Bool) (va : DWord) : s.KeepsGroups (s.fillTlb d agent sup va) := by
  unfold State.fillTlb
  simp only
  split
  · refine .modDie s d ?_ ?_
    · intro D; rfl
    · intro D; rfl
  · exact .refl s
theorem State.fillTlb_reqs (s : State) (d : DieId) (agent : Nat) (sup : Bool) (va : DWord) : (s.fillTlb d agent sup va).reqs = s.reqs := by
  unfold State.fillTlb
  simp only
  split
  · rfl
  · rfl
theorem State.KeepsGroups.descFill (s : State) (d : DieId) (agent : Nat) (ctx : Ctx) (space gid addr : Nat) (bytes : List Byte) :
    s.KeepsGroups (s.descFill d agent ctx space gid addr bytes) := by
  refine .modDie s d ?_ ?_
  · intro D; rfl
  · intro D; rfl
theorem State.send_reqs (s : State) (r : SyncReq) : (s.send r).reqs = s.reqs ++ [{ r with id := s.nextId }] := rfl
theorem State.KeepsGroups.send (s : State) (r : SyncReq) : s.KeepsGroups (s.send r) := .of_dies rfl
theorem State.KeepsGroups.capture {s u : State} {w : Who} {va : DWord} {n : Nat} {bs : List Byte} (h : s.capture w va n = .ok (bs, u)) :
    s.KeepsGroups u := by
  unfold State.capture at h
  split at h
  · cases h
  · obtain ⟨fresh, -, hok⟩ := Acc.bind_eq_ok.mp h
    cases hok
    exact (State.KeepsGroups.descFill ..).trans (.fillTlb ..)

/-- Reading a descriptor changes no context's bank. -/
theorem State.capture_active {s u : State} {w : Who} {va : DWord} {n : Nat} {bs : List Byte} (h : s.capture w va n = .ok (bs, u)) (d : DieId) :
    (u.die d).active = (s.die d).active := by
  unfold State.capture at h
  split at h
  · cases h
  · obtain ⟨fresh, -, hok⟩ := Acc.bind_eq_ok.mp h
    cases hok
    rw [State.active_fillTlb, State.descFill]
    by_cases he : w.d = d
    · rw [← he, State.die_modDie]
    · rw [State.die_modDie_ne _ _ _ _ he]
theorem State.capture_ctxOf {s u : State} {w : Who} {va : DWord} {n : Nat} {bs : List Byte} (h : s.capture w va n = .ok (bs, u)) (d : DieId) (gid : Nat) :
    u.ctxOf d gid = s.ctxOf d gid := by
  simp only [State.ctxOf, State.capture_active h]

/-! ## A word of one wave that changes no register -/

/-- A wave's word whose body leaves the groups as they are completes. -/
theorem waveWord_completes {s u : State} {i : Instr} {w : Who} {G : Group} {body : Who → State → Eff} (h : Ready s i w G) (hs : Solo G w)
    (hexec : exec i s = waveWord i body s) (hb : body (s.taking w) s = .ok u none) (hkeeps : s.KeepsGroups u) : Completes i s u w noReg := by
  obtain ⟨t, ht, hgoes⟩ := waveWord_goes (u := u) (v := noReg) h hs body none hb ((hkeeps.group ..).trans h.group) h.holds rfl
    (fun x _ r => hkeeps.g w x r) fun hd x r _ => hkeeps.g { w with hood := hd } x r
  exact ⟨t, hexec.trans ht, hgoes⟩
/-- A wave's word whose body traps. -/
theorem waveWord_traps {s : State} {i : Instr} {w : Who} {G : Group} {body : Who → State → Eff} {t : Trap} (h : Ready s i w G) (hs : Solo G w)
    (hexec : exec i s = waveWord i body s) (hb : body (s.taking w) s = .trap t) : exec i s = .next (s.trap (s.taking w) t) := by
  rw [hexec, waveWord_ready h hs body (by rw [hb]; simp), hb]
  rfl

/-! ## UNWANT (R109) -/

theorem State.KeepsGroups.modBank (s : State) (d : DieId) {f : Bank → Bank} (hf : ∀ B, (f B).groups = B.groups) : s.KeepsGroups (s.modBank d f) :=
  .modDie s d (fun _ => rfl) fun D => hf D.active
theorem State.KeepsGroups.modInterests (s : State) (d : DieId) (p : Interest → Bool) (f : Interest → Option Interest) :
    s.KeepsGroups (s.modInterests d p f) :=
  .modBank s d fun _ => rfl
theorem State.modInterests_interests (s : State) (d : DieId) (p : Interest → Bool) (f : Interest → Option Interest) :
    ((s.modInterests d p f).die d).active.interests = (s.die d).active.interests.filterMap fun i => if p i then f i else some i := by
  rw [State.modInterests, State.modBank, State.die_modDie]

/-- A pending entry of the issuing core for a name, in the thread's context. -/
def State.pendingOf (s : State) (w : Who) (name : DWord) (i : Interest) : Bool :=
  i.core == w.core && i.name == name && s.ctxOf w.d i.gid == s.ctxOf w.d w.gid && i.state == .pending
theorem State.pendingOf_iff {s : State} {w : Who} {name : DWord} {i : Interest} :
    s.pendingOf w name i = true ↔ i.core = w.core ∧ i.name = name ∧ s.ctxOf w.d i.gid = s.ctxOf w.d w.gid ∧ i.state = .pending := by
  simp [State.pendingOf, and_assoc]
theorem State.leafOf_modInterests (s : State) (d : DieId) (p : Interest → Bool) (f : Interest → Option Interest) (core : Nat) :
    (s.modInterests d p f).leafOf d core = s.leafOf d core := by
  have hquad : ((s.modInterests d p f).die d).quad core = (s.die d).quad core := by
    rw [State.modInterests, State.modBank, State.die_modDie]
    rfl
  simp only [State.leafOf, hquad]
/-- The withdrawal that UNWANT sends for an entry of context `c`. -/
def State.withdrawal (s : State) (w : Who) (c : Ctx) (name : DWord) (i : Interest) : Packet :=
  { kind := .withdrawal, at_ := .router (s.leafOf w.d w.core), src := .core w.d w.core, ctx := c, part := s.partOf w.d, name := name,
    home := i.home, rank := i.rank, own := i.own, entry := i.entry, life := 0, bytes := [], die := w.d, pc := w.pc, via := [] }
/-- The table without the pending entries of a name, but for those whose tile is past the leaf. -/
def State.withdrawn (s : State) (w : Who) (name : DWord) : State :=
  s.modInterests w.d (s.pendingOf w name) fun i =>
    if s.pastLeaf w.d w.core (s.ctxOf w.d w.gid) name = some (NameEntry.of i.entry).bytes then some { i with state := .landing } else none

section
variable {s : State} {w : Who} {k b : KReg} {name : DWord}

theorem unwantBody_none (h : (s.die w.d).active.interests.find? (s.pendingOf w (s.kpair w k.toNat)) = none) : unwantBody k w s = .ok s none := by
  unfold unwantBody
  simp only
  split
  · rfl
  · next i hi => exact absurd (hi.symm.trans h) (by simp)
theorem unwantBody_some {i : Interest} (h : (s.die w.d).active.interests.find? (s.pendingOf w (s.kpair w k.toNat)) = some i) :
    unwantBody k w s = .ok ((s.withdrawn w (s.kpair w k.toNat)).post
      ((s.withdrawn w (s.kpair w k.toNat)).withdrawal w (s.ctxOf w.d w.gid) (s.kpair w k.toNat) i)) none := by
  unfold unwantBody
  simp only
  split
  · next hi => exact absurd (hi.symm.trans h) (by simp)
  · next j hj =>
    cases Option.some.inj (hj.symm.trans h)
    rfl

theorem unwant_performs {G : Group} (h : Ready s (.unwant k) w G) (hs : Solo G w) :
    let name := s.kpair w k.toNat
    let c := s.ctxOf w.d w.gid
    let mine := fun (i : Interest) => i.core = w.core ∧ i.name = name ∧ s.ctxOf w.d i.gid = c ∧ i.state = .pending
    ((∀ i ∈ (s.die w.d).active.interests, ¬mine i) → Completes (.unwant k) s s w noReg) ∧
      ((∃ i ∈ (s.die w.d).active.interests, mine i) → ∃ (v : State) (p : Packet), Completes (.unwant k) s v w noReg ∧ v.mem = s.mem ∧
        (v.die w.d).active.interests = (s.die w.d).active.interests.filterMap (fun i => if mine i then
          (if s.pastLeaf w.d w.core c name = some (NameEntry.of i.entry).bytes then some { i with state := .landing } else none) else some i) ∧
        v.packets = s.packets ++ [p] ∧ p.kind = .withdrawal ∧ p.name = name ∧ p.at_ = .router (s.leafOf w.d w.core) ∧ p.src = .core w.d w.core) := by
  intro name c mine
  refine ⟨fun hnone => ?_, fun ⟨i, hi, hmine⟩ => ?_⟩
  · have hfind : (s.die w.d).active.interests.find? (s.pendingOf w name) = none :=
      List.find?_eq_none.mpr fun i hi hp => hnone i hi (State.pendingOf_iff.mp hp)
    exact waveWord_completes h hs rfl (unwantBody_none hfind) (.refl s)
  · obtain ⟨j, hj⟩ := Option.isSome_iff_exists.mp (List.find?_isSome.mpr ⟨i, hi, (State.pendingOf_iff (name := name)).mpr hmine⟩)
    have hbody : unwantBody k (s.taking w) s = .ok ((s.withdrawn w name).post ((s.withdrawn w name).withdrawal w c name j)) none :=
      unwantBody_some (w := s.taking w) hj
    have hkeeps : s.KeepsGroups ((s.withdrawn w name).post ((s.withdrawn w name).withdrawal w c name j)) :=
      (State.KeepsGroups.modInterests ..).trans (.of_dies rfl)
    refine ⟨_, _, waveWord_completes (body := unwantBody k) h hs rfl hbody hkeeps, rfl, ?_, rfl, rfl, rfl, ?_, rfl⟩
    · refine (State.modInterests_interests ..).trans (List.filterMap_congr fun i _ => ?_)
      exact if_congr State.pendingOf_iff rfl rfl
    · exact congrArg Port.router (State.leafOf_modInterests ..)

/-! ## NEVICT (R110) -/

theorem State.KeepsGroups.evictAt (s : State) (r : Router) (c : Ctx) (n : DWord) : s.KeepsGroups (s.evictAt r c n) := by
  refine .of_dies ?_
  unfold State.evictAt State.freeTile
  split
  · split
    · rfl
    · rfl
  · rfl
theorem nevictBody_home {G : Group} {raw : BitVec 128} {u : State} {r : Router} (hgroup : s.group w.d w.gid = some G)
    (hcap : captures s w (s.kpair w k.toNat) raw u) (hvalid : (NameEntry.of raw).valid = true) (hok : (NameEntry.of raw).ok = true)
    (hhome : u.homeOfName w.d (u.launchOf w.d G) (s.kpair w k.toNat) (NameEntry.of raw) = .ok (r, none)) :
    nevictBody k (s.taking w) s = .ok (u.evictAt r (u.ctxOf w.d w.gid) (s.kpair w k.toNat)) none := by
  obtain ⟨hst, bs, hread, rfl⟩ := hcap
  have hk : s.kpair (s.taking w) k.toNat = s.kpair w k.toNat := rfl
  unfold nevictBody withName
  simp only [show s.group (s.taking w).d (s.taking w).gid = some G from hgroup]
  rw [if_neg (by rw [Bool.not_eq_true]; exact hst)]
  split
  · next hbad => cases hread.symm.trans hbad
  · next bs' u' hgood =>
    cases hread.symm.trans hgood
    rw [if_neg (by simp [hvalid]), if_neg (by simp [hok])]
    split
    · next hbad => cases hhome.symm.trans hbad
    · next r' hr => cases hhome.symm.trans hr; rfl
    · next hr => cases hhome.symm.trans hr

/-! ## NTWR (R111) -/

/-- A fault of a hood names its lowest index, whichever of its indices take part (R106). -/
theorem State.trap_take_one (s : State) (w : Who) (c : Cause) (fa : DWord) (xs : List Nat) (hh : w.hood ≠ none) :
    s.trap w { cause := c, faddr := fa, xs := xs.take 1 } = s.trap w { cause := c, faddr := fa, xs := xs } := by
  have hrec : s.faultRec w { cause := c, faddr := fa, xs := xs.take 1 } = s.faultRec w { cause := c, faddr := fa, xs := xs } := by
    have hlow : (xs.take 1).headD (w.all.headD 0) = xs.headD (w.all.headD 0) := by cases xs <;> rfl
    obtain ⟨lo, hlo⟩ := Option.ne_none_iff_exists'.mp hh
    simp only [State.faultRec, hlow, hlo, Option.isSome_some, if_true]
  unfold State.trap
  rw [hrec]

theorem nevict_performs {G : Group} {raw : BitVec 128} {u : State} {r : Router} (h : Ready s (.nevict k) w G) (hs : Solo G w)
    (hcap : captures s w (s.kpair w k.toNat) raw u) (hvalid : (NameEntry.of raw).valid = true) (hok : (NameEntry.of raw).ok = true)
    (hhome : u.homeOfName w.d (u.launchOf w.d G) (s.kpair w k.toNat) (NameEntry.of raw) = .ok (r, none)) :
    Completes (.nevict k) s (u.evictAt r (s.ctxOf w.d w.gid) (s.kpair w k.toNat)) w noReg := by
  obtain ⟨-, bs, hread, -⟩ := id hcap
  have hbody := nevictBody_home h.group hcap hvalid hok hhome
  rw [State.capture_ctxOf hread] at hbody
  exact waveWord_completes h hs rfl hbody ((State.KeepsGroups.capture hread).trans (.evictAt ..))

theorem ntwrBody_beyond (h : 1048575 < (s.k w k.toNat).toNat) : ntwrBody k b w s = nfault w Cause.fmt 0 := if_pos h
/-- The write of a name-table entry (R111). -/
def State.entryWrite (s : State) (w : Who) (b : KReg) (va : DWord) (da : Nat) : SyncReq :=
  { id := 0, home := s.homeOf da, op := .put, part := s.partOf w.d, ctx := s.ctxOf w.d w.gid, die := w.d, core := w.core, gid := w.gid, xs := w.xs,
    hood := w.hood.isSome, pc := w.pc, addr := da, va := va, width := 16,
    arg := (s.k w (b.toNat + 3) ++ s.k w (b.toNat + 2) ++ s.k w (b.toNat + 1) ++ s.k w b.toNat).setWidth 256, cmp := 0, dst := 0, dstk := 0,
    acq := false, reply := none, flag := 0, wb := false }
theorem ntwrBody_within {da : Nat} (hle : (s.k w k.toNat).toNat ≤ 1048575) :
    let va := (s.die w.d).active.ntbase + BitVec.ofNat 64 (16 * (s.k w k.toNat).toNat)
    s.walkStalled w.d w.core (w.gid = 0) va = false → s.translate w.d w.core (w.gid = 0) va .write = .ok da → poolOf da ≠ 1 →
    ntwrBody k b w s = .ok ((s.fillTlb w.d w.core (w.gid = 0) va).send (s.entryWrite w b va da)) none := by
  intro va hst htr hpool
  unfold ntwrBody
  simp only
  rw [if_neg (by omega), if_neg (by rw [Bool.not_eq_true]; exact hst)]
  split
  · next hbad => cases htr.symm.trans hbad
  · next da' hgood =>
    cases htr.symm.trans hgood
    rw [if_neg hpool]
    rfl
theorem ntwr_refuses {G : Group} (h : Ready s (.ntwr k b) w G) (hs : Solo G w) (hbig : 1048575 < (s.k w k.toNat).toNat) :
    refuses s w (.ntwr k b) Cause.fmt 0 := by
  have htrap := waveWord_traps (body := ntwrBody k b) h hs rfl (ntwrBody_beyond (w := s.taking w) (b := b) hbig)
  unfold refuses
  rw [htrap]
  split
  · rfl
  · next hh => exact congrArg Host.Outcome.next (State.trap_take_one s (s.taking w) _ _ (s.selected w) hh)
theorem ntwr_performs {G : Group} {da : Nat} (h : Ready s (.ntwr k b) w G) (hs : Solo G w) :
    let va := (s.die w.d).active.ntbase + BitVec.ofNat 64 (16 * (s.k w k.toNat).toNat)
    (s.k w k.toNat).toNat ≤ 1048575 → s.walkStalled w.d w.core (w.gid = 0) va = false → s.translate w.d w.core (w.gid = 0) va .write = .ok da →
    poolOf da ≠ 1 → ∃ (v : State) (q : SyncReq), Completes (.ntwr k b) s v w noReg ∧
      v.mem = s.mem ∧ v.reqs = s.reqs ++ [q] ∧ q.op = .put ∧ q.addr = da ∧ q.width = 16 ∧ q.home = s.homeOf da ∧ q.reply = none ∧
      q.arg = (s.k w (b.toNat + 3) ++ s.k w (b.toNat + 2) ++ s.k w (b.toNat + 1) ++ s.k w b.toNat).setWidth 256 := by
  intro va hle hst htr hpool
  have hfill := State.KeepsGroups.fillTlb s w.d w.core (w.gid = 0) va
  have hreqs := s.fillTlb_reqs w.d w.core (w.gid = 0) va
  have hmem := s.fillTlb_mem w.d w.core (w.gid = 0) va
  have hbody : ntwrBody k b (s.taking w) s = .ok ((s.fillTlb w.d w.core (w.gid = 0) va).send (s.entryWrite (s.taking w) b va da)) none :=
    ntwrBody_within (w := s.taking w) hle hst htr hpool
  generalize s.fillTlb w.d w.core (w.gid = 0) va = u at *
  exact ⟨_, { s.entryWrite (s.taking w) b va da with id := u.nextId }, waveWord_completes (body := ntwrBody k b) h hs rfl hbody (hfill.trans (.send ..)), hmem,
    (u.send_reqs _).trans (by rw [hreqs]), rfl, rfl, rfl, rfl, rfl, rfl⟩
end

/-- Settles O50: each word's body is evaluated under its clause's conditions, and leaves every group as it is. -/
theorem unwantNevictNtwr : Obligations.UnwantNevictNtwr := by
  unfold Obligations.UnwantNevictNtwr
  intro s w G k b hs name c mine
  exact ⟨fun h => unwant_performs h hs, fun raw u r h hcap hvalid hok hhome => nevict_performs h hs hcap hvalid hok hhome,
    fun da h => ⟨ntwr_refuses h hs, ntwr_performs h hs⟩⟩
end Sys2Proof.Machine
end

section
/-! PROOFS. CXFER, CSECT, CMRG and CARRIVE (R76 to R78): O32. -/
namespace Sys2Proof.Machine
open Sys2Proof.Claims

/-! ## CXFER (R76) -/

section
variable {s u : State} {d : DieId} {inst : Nat} {q : Cmd} {a b n : Reg}

theorem cxferBody_over {c : Carder} {hs : List Hint} (hlen : (vget c.c n.toNat 0).toNat < 2 ^ 32) (hover : (vget c.c n.toNat 0).toNat ≤ c.p0) :
    cxferBody a b n d inst c hs s = .ok c s :=
  (if_neg (Nat.not_le.mpr hlen)).trans (if_pos hover)
/-- One piece of the transfer, read and written. -/
theorem cxferBody_piece {c : Carder} {hs : List Hint} {bs : List Byte} (hq : c.current = some q) (hlen : (vget c.c n.toNat 0).toNat < 2 ^ 32)
    (hleft : c.p0 < (vget c.c n.toNat 0).toNat) :
    let k := min 64 ((vget c.c n.toNat 0).toNat - c.p0)
    let src := vget c.c a.toNat 0 + BitVec.ofNat 64 c.p0
    let dst := vget c.c b.toNat 0 + BitVec.ofNat 64 c.p0
    let s1 := s.cfill d inst q.sup src k
    s.cstalled d inst q.sup src k = false → s1.cstalled d inst q.sup dst k = false → s.cread d inst q.gid q.sup src k = .ok bs → bs.length = k →
    s1.cwrite d inst q.gid q.sup dst bs = .ok u → cxferBody a b n d inst c hs s =
      if c.p0 + k = (vget c.c n.toNat 0).toNat then .ok c u else .done (u.modCarder d inst fun o => { o with p0 := c.p0 + k }) := by
  intro k src dst s1 hsrc hdst hread hbs hwrite
  refine (if_neg (Nat.not_le.mpr hlen)).trans ((if_neg (Nat.not_le.mpr hleft)).trans ?_)
  rw [withCmd_current hq]
  exact (cget_ok hsrc hread _).trans (cput_ok (hbs.symm ▸ hdst) hwrite _)
end

theorem cxferMovesPieces : CxferMovesPieces := by
  intro s d inst q a b n h c len k src dst s1 hq hlen
  refine ⟨fun hover => carderWord_goes h rfl (cxferBody_over hlen hover), fun hleft hsrc hdst bs u hread hbs hwrite => ?_⟩
  have hbody : cxferBody a b n d inst c c.ctl.chain s =
      if c.p0 + k = len then .ok c u else .done (u.modCarder d inst fun o => { o with p0 := c.p0 + k }) :=
    cxferBody_piece hq hlen hleft hsrc hdst hread hbs hwrite
  exact ⟨fun hlast => carderWord_goes h rfl (hbody.trans (if_pos hlast)), fun hmore => carderWord_done h rfl (hbody.trans (if_neg hmore.ne))⟩

/-! ## CSECT and CMRG (R77) -/

theorem SWidth.bytes_eq_sortedBytes (m : SWidth) : SWidth.bytes m = sortedBytes m := by
  cases m <;> rfl

/-- The operand c[r + i]. -/
def Carder.operand (c : Carder) (r : Reg) (i : Nat) : DWord := vget c.c (r.toNat + i) 0
/-- The address of element `i` of a sequence of `k`-byte elements. -/
def elementAt (k : Nat) (base : DWord) (i : Nat) : DWord := base + BitVec.ofNat 64 (k * i)
/-- The carder's translation cache after it has read the elements at which a step stands. -/
def State.sortedRead (s : State) (d : DieId) (inst : Nat) (sup : Bool) (c : Carder) (a : Reg) (k : Nat) : State :=
  let t := if c.p0 < (c.operand a 1).toNat then s.cfill d inst sup (elementAt k (c.operand a 0) c.p0) k else s
  if c.p1 < (c.operand a 3).toNat then t.cfill d inst sup (elementAt k (c.operand a 2) c.p1) k else t
/-- The carder goes on at these positions of the two sequences and of the output. -/
def State.sortedAt (s : State) (d : DieId) (inst i j n : Nat) : State := s.modCarder d inst fun o => { o with p0 := i, p1 := j, p2 := n }
/-- The step puts the element `bs` out and goes on at `i` and `j`; where the output's address is 0, it counts only. -/
def sortedEmit (d : DieId) (inst : Nat) (q : Cmd) (t : State) (c : Carder) (b : Reg) (k : Nat) (bs : List Byte) (i j : Nat) : CEff :=
  if c.operand b 0 = 0 then .done (t.sortedAt d inst i j (c.p2 + 1))
  else if (c.operand b 1).toNat ≤ c.p2 then .trap Cause.bounds (elementAt k (c.operand b 0) c.p2)
  else cput d inst q t (elementAt k (c.operand b 0) c.p2) bs fun u => .done (u.sortedAt d inst i j (c.p2 + 1))
/-- What a step makes of an element of each sequence. -/
def sortedPair (merge : Bool) (d : DieId) (inst : Nat) (q : Cmd) (t : State) (c : Carder) (b : Reg) (k : Nat) (x y : List Byte) : CEff :=
  let emit := sortedEmit d inst q t c b k
  if ofBytes x < ofBytes y then (if merge then emit x (c.p0 + 1) c.p1 else .done (t.sortedAt d inst (c.p0 + 1) c.p1 c.p2))
  else if ofBytes y < ofBytes x then (if merge then emit y c.p0 (c.p1 + 1) else .done (t.sortedAt d inst c.p0 (c.p1 + 1) c.p2))
  else emit x (c.p0 + 1) (c.p1 + 1)

section
variable {s : State} {d : DieId} {inst : Nat} {q : Cmd} {merge : Bool} {m : SWidth} {r a b : Reg} {c : Carder} {hs : List Hint}

theorem sortedBody_unaligned {v : DWord} (hv : v ∈ [c.operand a 0, c.operand a 2, c.operand b 0]) (hal : v.toNat % sortedBytes m ≠ 0)
    (hmin : ∀ u ∈ [c.operand a 0, c.operand a 2, c.operand b 0], u.toNat % sortedBytes m ≠ 0 → v.toNat ≤ u.toNat) :
    sortedBody merge m r a b d inst c hs s = .trap Cause.align v := by
  have hbest : bestOf (fun (x y : DWord) => decide (x.toNat ≤ y.toNat))
      ([c.operand a 0, c.operand a 2, c.operand b 0].filter fun v => v.toNat % sortedBytes m ≠ 0) = some v := by
    refine bestOf_eq_some BitVec.toNat (List.mem_filter.mpr ⟨hv, decide_eq_true hal⟩) fun u hu hne => ?_
    obtain ⟨hu, hal⟩ := List.mem_filter.mp hu
    exact lt_of_le_of_ne (hmin u hu (of_decide_eq_true hal)) fun h => hne (BitVec.eq_of_toNat_eq h.symm)
  unfold sortedBody
  rw [SWidth.bytes_eq_sortedBytes]
  simp only [Carder.operand] at hbest ⊢
  rw [hbest]

section
variable (hq : c.current = some q) (ha : (c.operand a 0).toNat % sortedBytes m = 0) (hb : (c.operand a 2).toNat % sortedBytes m = 0)
  (ho : (c.operand b 0).toNat % sortedBytes m = 0)
include hq ha hb ho

/-- A step of aligned sequences, by which of them have an element left. -/
theorem sortedBody_aligned :
    let k := sortedBytes m
    let t := s.sortedRead d inst q.sup c a k
    let readA := cget d inst q s (elementAt k (c.operand a 0) c.p0) k
    let readB := cget d inst q s (elementAt k (c.operand a 2) c.p1) k
    sortedBody merge m r a b d inst c hs s =
      if c.p0 < (c.operand a 1).toNat ∧ c.p1 < (c.operand a 3).toNat then readA fun x => readB fun y => sortedPair merge d inst q t c b k x y
      else if merge ∧ c.p0 < (c.operand a 1).toNat then readA fun x => sortedEmit d inst q t c b k x (c.p0 + 1) c.p1
      else if merge ∧ c.p1 < (c.operand a 3).toNat then readB fun y => sortedEmit d inst q t c b k y c.p0 (c.p1 + 1)
      else .ok (c.set r (BitVec.ofNat 64 c.p2)) s := by
  have hnone : ([c.operand a 0, c.operand a 2, c.operand b 0].filter fun v => v.toNat % sortedBytes m ≠ 0) = [] := by
    simp [ha, hb, ho]
  unfold sortedBody
  rw [SWidth.bytes_eq_sortedBytes]
  simp only [Carder.operand] at hnone
  simp only [hnone, bestOf, withCmd_current hq]
  rfl

theorem sortedBody_finished (h : if merge then (c.operand a 1).toNat ≤ c.p0 ∧ (c.operand a 3).toNat ≤ c.p1 else
    (c.operand a 1).toNat ≤ c.p0 ∨ (c.operand a 3).toNat ≤ c.p1) :
    sortedBody merge m r a b d inst c hs s = .ok (c.set r (BitVec.ofNat 64 c.p2)) s := by
  refine (sortedBody_aligned hq ha hb ho).trans ?_
  cases merge with
  | false =>
    rw [if_neg (by simp only [Bool.false_eq_true, if_false] at h; omega)]
    rfl
  | true =>
    obtain ⟨hla, hlb⟩ := h
    rw [if_neg (by omega), if_neg (by simpa using hla), if_neg (by simpa using hlb)]

section
variable (hst : ∀ v n, s.cstalled d inst q.sup v n = false) {x y : List Byte}
include hst

theorem sortedBody_pair (hi : c.p0 < (c.operand a 1).toNat) (hj : c.p1 < (c.operand a 3).toNat)
    (hx : s.cread d inst q.gid q.sup (elementAt (sortedBytes m) (c.operand a 0) c.p0) (sortedBytes m) = .ok x)
    (hy : s.cread d inst q.gid q.sup (elementAt (sortedBytes m) (c.operand a 2) c.p1) (sortedBytes m) = .ok y) :
    sortedBody merge m r a b d inst c hs s = sortedPair merge d inst q (s.sortedRead d inst q.sup c a (sortedBytes m)) c b (sortedBytes m) x y :=
  (sortedBody_aligned hq ha hb ho).trans ((if_pos ⟨hi, hj⟩).trans ((cget_ok (hst ..) hx _).trans (cget_ok (hst ..) hy _)))
theorem sortedBody_left (hm : merge = true) (hi : c.p0 < (c.operand a 1).toNat) (hj : (c.operand a 3).toNat ≤ c.p1)
    (hx : s.cread d inst q.gid q.sup (elementAt (sortedBytes m) (c.operand a 0) c.p0) (sortedBytes m) = .ok x) :
    sortedBody merge m r a b d inst c hs s =
      sortedEmit d inst q (s.sortedRead d inst q.sup c a (sortedBytes m)) c b (sortedBytes m) x (c.p0 + 1) c.p1 :=
  (sortedBody_aligned hq ha hb ho).trans ((if_neg fun h => Nat.not_lt.mpr hj h.2).trans ((if_pos ⟨hm, hi⟩).trans (cget_ok (hst ..) hx _)))
theorem sortedBody_right (hm : merge = true) (hi : (c.operand a 1).toNat ≤ c.p0) (hj : c.p1 < (c.operand a 3).toNat)
    (hy : s.cread d inst q.gid q.sup (elementAt (sortedBytes m) (c.operand a 2) c.p1) (sortedBytes m) = .ok y) :
    sortedBody merge m r a b d inst c hs s =
      sortedEmit d inst q (s.sortedRead d inst q.sup c a (sortedBytes m)) c b (sortedBytes m) y c.p0 (c.p1 + 1) :=
  (sortedBody_aligned hq ha hb ho).trans ((if_neg fun h => Nat.not_lt.mpr hi h.1).trans ((if_neg fun h => Nat.not_lt.mpr hi h.2).trans
    ((if_pos ⟨hm, hj⟩).trans (cget_ok (hst ..) hy _))))
end
end
end

section
variable {s t u : State} {d : DieId} {inst : Nat} {q : Cmd} {merge : Bool} {b : Reg} {c : Carder} {k i j : Nat} {x y bs : List Byte}

/-- The output has no room for the element. -/
def outputFull (c : Carder) (b : Reg) : Prop := c.operand b 0 ≠ 0 ∧ (c.operand b 1).toNat ≤ c.p2
/-- The element is written, or only counted, and `u` is the carder's next state. -/
def Emitted (d : DieId) (inst : Nat) (q : Cmd) (t : State) (c : Carder) (b : Reg) (k : Nat) (bs : List Byte) (i j : Nat) (u : State) : Prop :=
  if c.operand b 0 = 0 then u = t.sortedAt d inst i j (c.p2 + 1)
  else ∃ v, t.cwrite d inst q.gid q.sup (elementAt k (c.operand b 0) c.p2) bs = .ok v ∧ u = v.sortedAt d inst i j (c.p2 + 1)

theorem sortedEmit_full (h : outputFull c b) : sortedEmit d inst q t c b k bs i j = .trap Cause.bounds (elementAt k (c.operand b 0) c.p2) :=
  (if_neg h.1).trans (if_pos h.2)
theorem sortedEmit_emitted (hst : ∀ v n, t.cstalled d inst q.sup v n = false) (h : Emitted d inst q t c b k bs i j u) (hroom : ¬outputFull c b) :
    sortedEmit d inst q t c b k bs i j = .done u := by
  unfold Emitted at h
  unfold sortedEmit
  split at h
  · next hz => rw [if_pos hz, h]
  · next hz =>
    obtain ⟨v, hv, rfl⟩ := h
    rw [if_neg hz, if_neg fun hle => hroom ⟨hz, hle⟩]
    exact cput_ok (hst ..) hv _
theorem sortedPair_full (h : outputFull c b) (hxy : merge = true ∨ ofBytes x = ofBytes y) :
    sortedPair merge d inst q t c b k x y = .trap Cause.bounds (elementAt k (c.operand b 0) c.p2) := by
  unfold sortedPair
  simp only [sortedEmit_full h]
  obtain rfl | he := hxy
  · simp
  · simp [he]
theorem sortedPair_equal (h : ofBytes x = ofBytes y) : sortedPair merge d inst q t c b k x y = sortedEmit d inst q t c b k x (c.p0 + 1) (c.p1 + 1) :=
  (if_neg h.not_lt).trans (if_neg h.not_gt)
theorem sortedPair_less (h : ofBytes x < ofBytes y) : sortedPair merge d inst q t c b k x y =
    if merge then sortedEmit d inst q t c b k x (c.p0 + 1) c.p1 else .done (t.sortedAt d inst (c.p0 + 1) c.p1 c.p2) :=
  if_pos h
theorem sortedPair_greater (h : ofBytes y < ofBytes x) : sortedPair merge d inst q t c b k x y =
    if merge then sortedEmit d inst q t c b k y c.p0 (c.p1 + 1) else .done (t.sortedAt d inst c.p0 (c.p1 + 1) c.p2) :=
  (if_neg h.not_gt).trans (if_pos h)
end

theorem sortedWordsStep : SortedWordsStep := by
  intro s d inst q merge m r a b i c k reg el la lb out h hq
  have hexec : exec i s = carderWord i (sortedBody merge m r a b) s := by
    cases merge <;> rfl
  refine ⟨fun v hv hal hmin => carderWord_raises h hexec (sortedBody_unaligned hv hal hmin), ?_⟩
  intro ha hb ho t1 t2 hst finished at_ emits full overruns
  have hs v n := (hst v n).1
  have ht v n : t2.cstalled d inst q.sup v n = false := (hst v n).2
  have emitted {bs i j t} (he : emits bs i j t) (hroom : ¬full) : sortedEmit d inst q t2 c b k bs i j = .done t := sortedEmit_emitted ht he hroom
  refine ⟨fun hfin => carderWord_goes h hexec (sortedBody_finished hq ha hb ho hfin), fun x y hx hy => ?_⟩
  have pair (hi : c.p0 < la) (hj : c.p1 < lb) : sortedBody merge m r a b d inst c c.ctl.chain s = sortedPair merge d inst q t2 c b k x y :=
    sortedBody_pair hq ha hb ho hs hi hj (hx hi) (hy hj)
  have left (hm : merge = true) (hi : c.p0 < la) (hj : lb ≤ c.p1) :
      sortedBody merge m r a b d inst c c.ctl.chain s = sortedEmit d inst q t2 c b k x (c.p0 + 1) c.p1 :=
    sortedBody_left hq ha hb ho hs hm hi hj (hx hi)
  have right (hm : merge = true) (hi : la ≤ c.p0) (hj : c.p1 < lb) :
      sortedBody merge m r a b d inst c c.ctl.chain s = sortedEmit d inst q t2 c b k y c.p0 (c.p1 + 1) :=
    sortedBody_right hq ha hb ho hs hm hi hj (hy hj)
  refine ⟨fun hfull hi hj he => carderWord_raises h hexec ((pair hi hj).trans (sortedPair_full hfull (.inr he))), fun hfull hm hij => ?_,
    fun hi hj he t hemit hroom => ?_, fun hi hj hlt hm => ?_, fun hi hj hlt hm => ?_, fun hi hor hm t hemit hroom => ?_,
    fun hj hor hm t hemit hroom => ?_⟩
  · refine carderWord_raises h hexec ?_
    by_cases hi : c.p0 < la
    · by_cases hj : c.p1 < lb
      · exact (pair hi hj).trans (sortedPair_full hfull (.inl hm))
      · exact (left hm hi (Nat.not_lt.mp hj)).trans (sortedEmit_full hfull)
    · exact (right hm (Nat.not_lt.mp hi) (hij.resolve_left hi)).trans (sortedEmit_full hfull)
  · exact carderWord_done h hexec ((pair hi hj).trans ((sortedPair_equal he).trans (emitted hemit hroom)))
  · exact carderWord_done h hexec ((pair hi hj).trans ((sortedPair_less hlt).trans (if_neg (by simp [hm]))))
  · exact carderWord_done h hexec ((pair hi hj).trans ((sortedPair_greater hlt).trans (if_neg (by simp [hm]))))
  · refine carderWord_done h hexec ?_
    by_cases hj : c.p1 < lb
    · exact (pair hi hj).trans ((sortedPair_less (hor.resolve_left (Nat.not_le.mpr hj))).trans ((if_pos hm).trans (emitted hemit hroom)))
    · exact (left hm hi (Nat.not_lt.mp hj)).trans (emitted hemit hroom)
  · refine carderWord_done h hexec ?_
    by_cases hi : c.p0 < la
    · exact (pair hi hj).trans ((sortedPair_greater (hor.resolve_left (Nat.not_le.mpr hi))).trans ((if_pos hm).trans (emitted hemit hroom)))
    · exact (right hm (Nat.not_lt.mp hi) hj).trans (emitted hemit hroom)

/-! ## CARRIVE (R78) -/

theorem carderWord_holds {s u : State} {i : Instr} {d : DieId} {inst : Nat} {cbody : DieId → Nat → Carder → List Hint → State → CEff}
    (h : CarderReady s i d inst) (hexec : exec i s = carderWord i cbody s)
    (hb : cbody d inst ((s.die d).carder inst) ((s.die d).carder inst).ctl.chain s = .hold u) :
    exec i s = .next (u.modCarder d inst fun o => { o with ctl := { o.ctl with wait := .wait, stepped := true } }) := by
  refine hexec.trans ((sharedWord_carder h _ cbody).trans ?_)
  rw [hb]

section
variable {s : State} {d : DieId} {inst : Nat} {q : Cmd} {a b : Reg} {c : Carder} {hs : List Hint} {sp ad : Nat} (hq : c.current = some q)
include hq

theorem carriveBody_nowhere (hv : CAddr.of (vget c.c a.toNat 0) = none) :
    carriveBody a b d inst c hs s = .trap Cause.bounds (vget c.c a.toNat 0) := by
  simp only [carriveBody, withCmd_current hq, Carder.reg, hv]
theorem carriveBody_main {va : DWord} (hv : CAddr.of (vget c.c a.toNat 0) = some (.main va)) :
    carriveBody a b d inst c hs s = .trap Cause.baruse (vget c.c a.toNat 0) := by
  simp only [carriveBody, withCmd_current hq, Carder.reg, hv]

variable (hv : CAddr.of (vget c.c a.toNat 0) = some (.loc sp ad))
include hv

theorem carriveBody_unnamed (h : ad % 16 ≠ 0 ∨ (sp = 0 ∧ ad = 0)) :
    carriveBody a b d inst c hs s = .trap Cause.baruse (vget c.c a.toNat 0) := by
  simp only [carriveBody, withCmd_current hq, Carder.reg, hv, if_pos h]

section
variable (hal : ad % 16 = 0) (hnz : sp = 0 → ad ≠ 0)
include hal hnz

theorem carriveBody_outside (hin : s.inSpace d q.gid sp ad 16 = false) :
    carriveBody a b d inst c hs s = .trap Cause.bounds (vget c.c a.toNat 0) := by
  have hnamed : ¬(ad % 16 ≠ 0 ∨ (sp = spShared ∧ ad = 0)) := by simpa [hal] using hnz
  simp only [carriveBody, withCmd_current hq, Carder.reg, hv, if_neg hnamed, hin]
  rfl

variable (hin : s.inSpace d q.gid sp ad 16 = true)
include hin

/-- What stands at a place that an address can name decides. -/
theorem carriveBody_named : carriveBody a b d inst c hs s =
    if s.badObject d q.gid ⟨sp, ad⟩ then .trap Cause.ecc (vget c.c a.toNat 0)
    else match s.ring d q.gid ⟨sp, ad⟩ with
      | some r => if r.free = 0 then .hold s
        else .ok c (s.putRing d q.gid ⟨sp, ad⟩ (({ r with free := r.free - 1, pi := (r.pi + 1) % r.n } : Ring).markFull r.pi))
      | none => match s.arriveCredit d q.gid ⟨sp, ad⟩ (vget c.c b.toNat 0).toNat with
        | none => .trap Cause.baruse (vget c.c a.toNat 0)
        | some u => .ok c u := by
  have hnamed : ¬(ad % 16 ≠ 0 ∨ (sp = spShared ∧ ad = 0)) := by simpa [hal] using hnz
  simp only [carriveBody, withCmd_current hq, Carder.reg, hv, if_neg hnamed, hin]
  cases s.badObject d q.gid ⟨sp, ad⟩ with
  | true => cases s.ring d q.gid ⟨sp, ad⟩ <;> rfl
  | false => cases s.ring d q.gid ⟨sp, ad⟩ with
    | none => rfl
    | some r => by_cases hf : r.free = 0 <;> simp [Ring.take, hf]
end
end

theorem carriveSignals : CarriveSignals := by
  intro s d inst q a b sp ad h c v raises hq
  refine ⟨fun hv => carderWord_raises h rfl (carriveBody_nowhere hq hv), fun va hv => carderWord_raises h rfl (carriveBody_main hq hv),
    fun hv hun => carderWord_raises h rfl (carriveBody_unnamed hq hv hun),
    fun hv hal hnz hout => carderWord_raises h rfl (carriveBody_outside hq hv hal hnz hout), fun hv hal hnz hin => ?_⟩
  have hbody := carriveBody_named (s := s) (d := d) (inst := inst) (b := b) (hs := c.ctl.chain) hq hv hal hnz hin
  refine ⟨fun hbad => carderWord_raises h rfl (by rw [hbody, if_pos hbad]), fun hgood => ?_⟩
  rw [if_neg (by simp [hgood])] at hbody
  refine ⟨fun hring hnone => carderWord_raises h rfl (by rw [hbody, hring]; simp only; rw [hnone]),
    fun hring u hu => carderWord_goes h rfl (by rw [hbody, hring]; simp only; rw [hu]), fun r hring => ?_⟩
  rw [hring] at hbody
  exact ⟨fun hfree => carderWord_goes h rfl (hbody.trans (if_neg hfree)), fun hfree => carderWord_holds h rfl (hbody.trans (if_pos hfree))⟩

/-- Settles O32: each word's body is evaluated under its clause's conditions, and `sharedWord_carder` says what a ready carder makes of it. -/
theorem carderTransfers : Obligations.CarderTransfers := ⟨cxferMovesPieces, sortedWordsStep, carriveSignals⟩
end Sys2Proof.Machine
end

section
/-! PROOFS. Carder commands start and their units land (R60, R68, R70, R71, R81, R84, R119): O30. -/
namespace Sys2Proof.Machine
open Sys2Proof.Claims

/-! ## The start of a command (R60, R71, R81) -/

theorem State.carder_modCarder (s : State) (d : DieId) {inst : Nat} (h : inst < 48) (f : Carder → Carder) :
    ((s.modCarder d inst f).die d).carder inst = f ((s.die d).carder inst) := by
  simp only [State.modCarder, State.die_modDie, Die.carder]
  exact vget_vput_self _ _ _ _ h

/-- The registers with which a carder program starts (R71). -/
def Cmd.programRegs (q : Cmd) : Vector DWord 32 :=
  vput ((List.range 8).foldl (fun v i => vput v i ((vget q.ops i 0).setWidth 64)) (Vector.replicate 32 0)) 8 (BitVec.ofNat 64 (q.xs.headD 0))

section
variable (q : Cmd) {i : Nat}
theorem Cmd.programRegs_operand (h : i < 8) : vget q.programRegs i 0 = (vget q.ops i 0).setWidth 64 := by
  unfold Cmd.programRegs
  rw [vget_vput_ne _ _ _ _ _ (by omega), vget_foldl_vput _ _ _ (by omega), if_pos (List.mem_range.mpr h)]
theorem Cmd.programRegs_index : vget q.programRegs 8 0 = BitVec.ofNat 64 (q.xs.headD 0) := vget_vput_self _ _ _ _ (by omega)
theorem Cmd.programRegs_above (h : 8 < i) : vget q.programRegs i 0 = 0 := by
  by_cases hi : i < 32
  · unfold Cmd.programRegs
    rw [vget_vput_ne _ _ _ _ _ (by omega), vget_foldl_vput _ _ _ hi, if_neg (by simp; omega)]
    unfold vget
    rw [dif_pos hi]
    exact Vector.getElem_replicate ..
  · exact dif_neg hi
end

/-- The carder once the command `q` has started: `q` stands at the head of the queue, and a program finds its registers set. -/
def Carder.starting (c : Carder) (q : Cmd) : Carder :=
  let queue := { q with started := true } :: c.queue.filter fun p => p.id != q.id
  if q.kind = .crun then { c := q.programRegs, ctl := { pc := q.pgm + 64 }, queue := queue } else { c with queue := queue }

theorem execCarderCommandStart_finds {s : State} {d : DieId} {inst : Nat} {q : Cmd}
    (h : ((s.die d).carder inst).queue.find? (fun p => !p.started && s.serves d inst p && s.idleFor d ((s.die d).carder inst) p && s.mayStart d inst p) = some q) :
    execCarderCommandStart d inst s = .next (s.modCarder d inst fun _ => ((s.die d).carder inst).starting q) := by
  unfold execCarderCommandStart
  dsimp only [State.carderOf]
  rw [h]
  unfold Carder.starting
  by_cases hk : q.kind = .crun
  · simp only [hk, if_true]
    rfl
  · simp only [hk, if_false]
    rfl

theorem commandStarts : CommandStarts := by
  intro s d inst q hi c serves beside hfind
  refine ⟨_, execCarderCommandStart_finds hfind, ?_⟩
  simp only [s.carder_modCarder d hi, Carder.starting]
  by_cases hk : q.kind = .crun
  · simp only [hk, if_true, ne_eq, not_true_eq_false, false_imp_iff, true_imp_iff, true_and]
    exact ⟨rfl, ⟨fun i hi => q.programRegs_operand hi, q.programRegs_index, fun i hi => q.programRegs_above hi⟩, rfl⟩
  · simp only [hk, if_false, ne_eq, not_false_eq_true, false_imp_iff, true_imp_iff, true_and]
    exact ⟨rfl, rfl, rfl⟩

/-! ## The event that lands a unit (R68, R70, R84) -/

section
variable {s t : State} {d : DieId} {inst : Nat} {q : Cmd} {G : Group}

/-- Of a command that needs no check, no ring slot and no multicast, the next unit lands. -/
theorem execUnitLanding_lands (hserves : s.serves d inst q = true) (hq : ((s.die d).carder inst).current = some q) (hG : s.group d q.gid = some G)
    (hk : q.kind ≠ .crun) (hmc : q.mc = false) (hslot : q.slot.isSome = true ∨ s.ringAt d q.gid q.object = none)
    (hchecks : q.p0 = 0 → q.p1 = 0 → s.bulkFault d q = none ∧ s.boxFault d q = none) :
    execUnitLanding d inst s = .next (s.landUnit d inst q) := by
  have hcheck (α : Type) (x : Option α) (hx : q.p0 = 0 → q.p1 = 0 → x = none) :
      (if (decide (q.p0 = 0 ∧ q.p1 = 0) && q.late.isEmpty) = true then x else none) = none := by
    split
    · next h =>
      obtain ⟨h0, h1⟩ := of_decide_eq_true (Bool.and_eq_true_iff.mp h).1
      exact hx h0 h1
    · rfl
  have hring : (if q.slot.isNone = true then s.ringAt d q.gid q.object else none) = none := by
    cases e : q.slot with
    | none => simpa [e] using hslot
    | some i => rfl
  unfold execUnitLanding
  simp only [State.carderOf, hq, hserves, decide_eq_false hk, hG, hmc, hcheck _ _ fun h0 h1 => (hchecks h0 h1).1,
    hcheck _ _ fun h0 h1 => (hchecks h0 h1).2, hring]
  rfl

theorem State.landUnit_tcopy (hk : q.kind = .tcopy) (hv : q.p0 < q.boxUnits) (hst : s.unitStalled d inst q (q.place 0 q.p0) = false)
    (hmove : s.moveUnit d inst q q.gid (q.place 0 q.p0) = .ok t) : s.landUnit d inst q = t.putCmd d inst { q with p0 := q.p0 + 1 } := by
  simp [State.landUnit, hk, hv, hst, hmove]
theorem State.landUnit_tcopy_last (hk : q.kind = .tcopy) (hv : q.boxUnits ≤ q.p0) : s.landUnit d inst q = s.completeCmd d inst := by
  simp [State.landUnit, hk, Nat.not_lt.mpr hv]
theorem State.landUnit_rows {j : Nat} (hk : q.kind ≠ .tcopy) (hj : q.nextPos = some j) (hst : s.unitStalled d inst q (q.place j q.p1) = false)
    (hmove : s.moveUnit d inst q q.gid (q.place j q.p1) = .ok t) : s.landUnit d inst q =
      if q.p1 + 1 < q.boxUnits then t.putCmd d inst { q with p1 := q.p1 + 1 } else t.putCmd d inst { q with p0 := j + 1, p1 := 0 } := by
  simp [State.landUnit, hk, hj, hst, hmove]
theorem State.landUnit_rows_last (hk : q.kind ≠ .tcopy) (hj : q.nextPos = none) : s.landUnit d inst q = s.completeCmd d inst := by
  simp [State.landUnit, hk, hj]
end

theorem unitLands : UnitLands := by
  intro s d inst q G hserves hq hG hk hmc hslot hchecks land
  have hexec : exec (.unitLanding d inst) s = .next (s.landUnit d inst q) := execUnitLanding_lands hserves hq hG hk hmc hslot hchecks
  refine ⟨fun ht hv hst t hmove => ?_, fun ht hv => ?_, fun ht j hj => ⟨fun hv hst t hmove => ?_, fun hv hst t hmove => ?_⟩, fun ht hj => ?_⟩
  · rw [hexec, State.landUnit_tcopy ht hv hst hmove]
  · rw [hexec, State.landUnit_tcopy_last ht hv]
  · rw [hexec, State.landUnit_rows ht hj hst hmove, if_pos hv]
  · rw [hexec, State.landUnit_rows ht hj hst hmove, if_neg (by omega)]
  · rw [hexec, State.landUnit_rows_last ht hj]

/-! ## What landing a unit does (R68, R119) -/

theorem Layout.outside_iff {bs : List Byte} {x : List Nat} (hx : x.length = 8) :
    (Layout.of bs).outside x = true ↔ ∃ i < 8, (Layout.of bs).ext.getD i 1 ≤ x.getD i 0 := by
  have hlen : (Layout.of bs).ext.length = 8 := by simp [Layout.of]
  generalize (Layout.of bs) = L at hlen
  unfold Layout.outside
  rw [List.any_eq_true]
  constructor
  · rintro ⟨p, hp, hle⟩
    obtain ⟨i, hi, rfl⟩ := List.mem_iff_getElem.mp hp
    rw [List.length_zip, hx, hlen] at hi
    refine ⟨i, hi, ?_⟩
    rw [List.getD_eq_getElem _ _ (by omega), List.getD_eq_getElem _ _ (by omega)]
    simpa using hle
  · rintro ⟨i, hi, hle⟩
    have hix : i < x.length := by omega
    have hie : i < L.ext.length := by omega
    rw [List.getD_eq_getElem _ _ hie, List.getD_eq_getElem _ _ hix] at hle
    exact ⟨(x[i], L.ext[i]), List.mem_iff_getElem.mpr ⟨i, by simp [hx, hlen, hi], by simp⟩, decide_eq_true hle⟩

section
variable (s : State) (d : DieId) (inst gid : Nat) (q : Cmd)

/-- What happens at the place of a unit at offset `o` in its buffer: `f` of the local address, or `drop` where the record's mode drops the unit. -/
def State.atUnit (o : Nat) (f : Nat → Acc State) (drop : Acc State) : Acc State :=
  match unitOffset q.bufRec o q.unit with
  | none => drop
  | some e =>
    let a := q.bufRec.base + e
    if e + q.unit > q.bufRec.extent ∨ !s.inSpace d gid q.bufRec.space a q.unit then .fault Cause.bounds (localCaddr q.bufRec.space a)
    else if s.touchesLive d gid q.bufRec.space a q.unit then .fault Cause.baruse (localCaddr q.bufRec.space a)
    else f a
/-- The main-memory address of a unit. -/
def Cmd.unitVa (p : Place1) : DWord := BitVec.ofInt 64 (q.layout.addr p.coord)
/-- A unit's bytes are stored in main memory. -/
def State.storeUnit (va : DWord) (bs : List Byte) : Acc State :=
  (s.writeVa d (carderAgent inst) q.sup va bs).bind fun s => .ok (s.fillVa d (carderAgent inst) q.sup va q.unit)
/-- The move of a unit, without its credit. -/
def State.unitMoved (p : Place1) : Acc State :=
  let va := q.unitVa p
  let B := q.bufRec
  if q.layout.outside p.coord ∧ q.layout.fill = 2 then .fault Cause.bounds va
  else if q.layout.dir then
    if q.layout.outside p.coord then .ok s
    else s.atUnit d gid q (p.off + q.shift)
      (fun a => if s.badLocalAt d gid 0 B.space a q.unit then .fault Cause.ecc (localCaddr B.space a)
        else s.storeUnit d inst q va (s.readLocal d gid 0 B.space a q.unit))
      (if B.mode = 2 then s.storeUnit d inst q va (List.replicate q.unit 0) else .ok s)
  else s.atUnit d gid q (p.off + q.shift)
    (fun a => if q.layout.outside p.coord then .ok (s.writeLocal d gid 0 B.space a (List.replicate q.unit (if q.layout.fill = 1 then 0xFF else 0)))
      else (s.readVa d (carderAgent inst) q.sup va q.unit).bind fun bs =>
        .ok ((s.fillVa d (carderAgent inst) q.sup va q.unit).writeLocal d gid 0 B.space a bs)) (.ok s)
theorem State.moveUnit_eq (p : Place1) : s.moveUnit d inst q gid p = (s.unitMoved d inst gid q p).bind fun t => t.credit d gid q.bufRec.bound q.slot q.unit :=
  rfl
end

/-! ### At a unit's place -/

/-- A unit at offset `o` has its bytes at local address `a`: within the extent, or wrapped whole (R119). -/
def Cmd.landsAt (q : Cmd) (o a : Nat) : Prop :=
  let B := q.bufRec
  (o + q.unit ≤ B.extent ∧ a = B.base + o) ∨
    (B.extent < o + q.unit ∧ B.mode = 3 ∧ B.extent ≠ 0 ∧ o % B.extent + q.unit ≤ B.extent ∧ a = B.base + o % B.extent)
/-- The record's mode drops a unit at offset `o`. -/
def Cmd.drops (q : Cmd) (o : Nat) : Prop := q.bufRec.extent < o + q.unit ∧ (q.bufRec.mode = 1 ∨ q.bufRec.mode = 2)

theorem Cmd.unitOffset_landsAt {q : Cmd} {o a : Nat} (h : q.landsAt o a) :
    ∃ e, unitOffset q.bufRec o q.unit = some e ∧ e + q.unit ≤ q.bufRec.extent ∧ a = q.bufRec.base + e := by
  obtain ⟨hle, rfl⟩ | ⟨hlt, hm, hne, hle, rfl⟩ := h
  · exact ⟨o, if_pos hle, hle, rfl⟩
  · exact ⟨_, (if_neg (Nat.not_le.mpr hlt)).trans (if_pos ⟨hm, hne⟩), hle, rfl⟩

section
variable {s : State} {d : DieId} {gid : Nat} {q : Cmd} {o a : Nat} {f : Nat → Acc State} {drop : Acc State}

theorem State.atUnit_landsAt (h : q.landsAt o a) : s.atUnit d gid q o f drop =
    if s.inSpace d gid q.bufRec.space a q.unit = false then .fault Cause.bounds (localCaddr q.bufRec.space a)
    else if s.touchesLive d gid q.bufRec.space a q.unit then .fault Cause.baruse (localCaddr q.bufRec.space a)
    else f a := by
  obtain ⟨e, he, hle, rfl⟩ := q.unitOffset_landsAt h
  unfold State.atUnit
  rw [he]
  simp only [gt_iff_lt, Nat.not_lt.mpr hle, false_or, Bool.not_eq_true']
theorem State.atUnit_outside (h : q.landsAt o a) (hin : s.inSpace d gid q.bufRec.space a q.unit = false) :
    s.atUnit d gid q o f drop = .fault Cause.bounds (localCaddr q.bufRec.space a) :=
  (State.atUnit_landsAt h).trans (if_pos hin)
theorem State.atUnit_live (h : q.landsAt o a) (hin : s.inSpace d gid q.bufRec.space a q.unit = true)
    (hlive : s.touchesLive d gid q.bufRec.space a q.unit = true) : s.atUnit d gid q o f drop = .fault Cause.baruse (localCaddr q.bufRec.space a) :=
  (State.atUnit_landsAt h).trans ((if_neg (by simp [hin])).trans (if_pos hlive))
theorem State.atUnit_free (h : q.landsAt o a) (hin : s.inSpace d gid q.bufRec.space a q.unit = true)
    (hlive : s.touchesLive d gid q.bufRec.space a q.unit = false) : s.atUnit d gid q o f drop = f a :=
  (State.atUnit_landsAt h).trans ((if_neg (by simp [hin])).trans (if_neg (by simp [hlive])))
theorem State.atUnit_dropped (h : q.drops o) : s.atUnit d gid q o f drop = drop := by
  obtain ⟨hlt, hm⟩ := h
  have hnone : unitOffset q.bufRec o q.unit = none := (if_neg (Nat.not_le.mpr hlt)).trans (if_neg (by omega))
  unfold State.atUnit
  rw [hnone]
/-- A unit that does not fault has been dropped, or has its place. -/
theorem State.atUnit_eq_ok {t : State} (h : s.atUnit d gid q o f drop = .ok t) : drop = .ok t ∨ ∃ a, f a = .ok t := by
  unfold State.atUnit at h
  split at h
  · exact .inl h
  · dsimp only at h
    split at h
    · cases h
    · split at h
      · cases h
      · exact .inr ⟨_, h⟩
end

/-! ### The move of a unit, by its direction and whether it lies in the tensor -/

section
variable {s : State} {d : DieId} {inst gid : Nat} {q : Cmd} {p : Place1}

theorem State.unitMoved_bounds (hout : q.layout.outside p.coord = true) (hfill : q.layout.fill = 2) :
    s.unitMoved d inst gid q p = .fault Cause.bounds (q.unitVa p) :=
  if_pos ⟨hout, hfill⟩
theorem State.unitMoved_skipped (hdir : q.layout.dir = true) (hout : q.layout.outside p.coord = true) (hfill : q.layout.fill ≠ 2) :
    s.unitMoved d inst gid q p = .ok s :=
  (if_neg fun h => hfill h.2).trans ((if_pos hdir).trans (if_pos hout))
theorem State.unitMoved_toMain (hdir : q.layout.dir = true) (hin : q.layout.outside p.coord = false) : s.unitMoved d inst gid q p =
    s.atUnit d gid q (p.off + q.shift)
      (fun a => if s.badLocalAt d gid 0 q.bufRec.space a q.unit then .fault Cause.ecc (localCaddr q.bufRec.space a)
        else s.storeUnit d inst q (q.unitVa p) (s.readLocal d gid 0 q.bufRec.space a q.unit))
      (if q.bufRec.mode = 2 then s.storeUnit d inst q (q.unitVa p) (List.replicate q.unit 0) else .ok s) :=
  (if_neg (by simp [hin])).trans ((if_pos hdir).trans (if_neg (by simp [hin])))
theorem State.unitMoved_toLocal (hdir : q.layout.dir = false) (hok : ¬(q.layout.outside p.coord = true ∧ q.layout.fill = 2)) :
    s.unitMoved d inst gid q p = s.atUnit d gid q (p.off + q.shift)
      (fun a => if q.layout.outside p.coord then
          .ok (s.writeLocal d gid 0 q.bufRec.space a (List.replicate q.unit (if q.layout.fill = 1 then 0xFF else 0)))
        else (s.readVa d (carderAgent inst) q.sup (q.unitVa p) q.unit).bind fun bs =>
          .ok ((s.fillVa d (carderAgent inst) q.sup (q.unitVa p) q.unit).writeLocal d gid 0 q.bufRec.space a bs)) (.ok s) :=
  (if_neg hok).trans (if_neg (by simp [hdir]))
/-- Where a unit has a place to move to or from, the place decides. -/
theorem State.unitMoved_placed (hok : ¬(q.layout.outside p.coord = true ∧ q.layout.fill = 2))
    (h : q.layout.dir = false ∨ q.layout.outside p.coord = false) :
    ∃ f drop, s.unitMoved d inst gid q p = s.atUnit d gid q (p.off + q.shift) f drop := by
  cases hdir : q.layout.dir with
  | false => exact ⟨_, _, State.unitMoved_toLocal hdir hok⟩
  | true => exact ⟨_, _, State.unitMoved_toMain hdir (h.resolve_left (by simp [hdir]))⟩

theorem State.moveUnit_of_moved {m : State} (h : s.unitMoved d inst gid q p = .ok m) :
    s.moveUnit d inst q gid p = m.credit d gid q.bufRec.bound q.slot q.unit := by
  rw [State.moveUnit_eq, h]
  rfl
theorem State.moveUnit_of_fault {c : Cause} {fa : DWord} (h : s.unitMoved d inst gid q p = .fault c fa) :
    s.moveUnit d inst q gid p = .fault c fa := by
  rw [State.moveUnit_eq, h]
  rfl
end

/-! ### What a unit leaves of main memory -/

theorem Mem.read_writes_other {da : Nat} : ∀ (l : List (Nat × Byte)) {m : Mem}, m.wf = true → (∀ c ∈ l, c.1 ≠ da) →
    (l.foldl (fun m (c : Nat × Byte) => m.write c.1 c.2) m).read da = m.read da
  | [], _, _, _ => rfl
  | c :: l, m, hm, h => by
    rw [List.foldl_cons, Mem.read_writes_other l (Mem.write_wf _ _ hm) fun c hc => h c (List.mem_cons_of_mem _ hc), Mem.read_write hm,
      if_neg (h c List.mem_cons_self).symm]
theorem State.readLocal_length (s : State) (d : DieId) (gid x space a n : Nat) : (s.readLocal d gid x space a n).length = n := by
  unfold State.readLocal
  split
  · exact Mem.readN_length ..
  · split
    · exact List.length_replicate ..
    · split <;> exact Mem.readN_length ..

section
variable {s t : State} {d : DieId} {inst gid : Nat} {q : Cmd} {p : Place1}

/-- Main memory at `da` is none of the bytes that the unit at `p` has there. -/
def State.beyondUnit (s : State) (d : DieId) (inst : Nat) (q : Cmd) (p : Place1) (da : Nat) : Prop :=
  ∀ das, s.translateN d (carderAgent inst) q.sup .write q.unit (q.unitVa p) = .ok das → da ∉ das

theorem State.storeUnit_other {bs : List Byte} {da : Nat} (hwf : s.memWf) (hlen : bs.length = q.unit) (hda : s.beyondUnit d inst q p da)
    (h : s.storeUnit d inst q (q.unitVa p) bs = .ok t) : t.mem.read da = s.mem.read da := by
  obtain ⟨m, hm, hok⟩ := Acc.bind_eq_ok.mp h
  cases hok
  obtain ⟨das, hdas, hok⟩ := Acc.bind_eq_ok.mp hm
  cases hok
  rw [hlen] at hdas
  rw [State.fillVa_mem, State.rewrite_mem]
  refine Mem.read_writes_other _ hwf fun c hc he => hda das hdas (he ▸ ?_)
  exact (List.of_mem_zip hc).1
theorem State.unitMoved_toLocal_mem (hdir : q.layout.dir = false) (h : s.unitMoved d inst gid q p = .ok t) : t.mem = s.mem := by
  by_cases hok : q.layout.outside p.coord = true ∧ q.layout.fill = 2
  · rw [State.unitMoved_bounds hok.1 hok.2] at h
    cases h
  · rw [State.unitMoved_toLocal hdir hok] at h
    obtain h | ⟨a, h⟩ := State.atUnit_eq_ok h
    · cases h
      rfl
    · split at h
      · cases h
        exact State.writeLocal_mem ..
      · obtain ⟨bs, -, hok⟩ := Acc.bind_eq_ok.mp h
        cases hok
        rw [State.writeLocal_mem, State.fillVa_mem]
theorem State.unitMoved_toMain_other {da : Nat} (hdir : q.layout.dir = true) (hwf : s.memWf) (hda : s.beyondUnit d inst q p da)
    (h : s.unitMoved d inst gid q p = .ok t) : t.mem.read da = s.mem.read da := by
  cases hout : q.layout.outside p.coord with
  | true =>
    by_cases hfill : q.layout.fill = 2
    · rw [State.unitMoved_bounds hout hfill] at h
      cases h
    · rw [State.unitMoved_skipped hdir hout hfill] at h
      cases h
      rfl
  | false =>
    rw [State.unitMoved_toMain hdir hout] at h
    obtain h | ⟨a, h⟩ := State.atUnit_eq_ok h
    · split at h
      · exact State.storeUnit_other hwf List.length_replicate hda h
      · cases h
        rfl
    · split at h
      · cases h
      · exact State.storeUnit_other hwf (State.readLocal_length ..) hda h
end

theorem unitsMoveAndCredit : UnitsMoveAndCredit := by
  intro s d inst gid q p L B u o va out lands dropped free gives faults hlen
  have hout : L.outside p.coord = true ↔ out := Layout.outside_iff hlen
  have hinside (h : ¬out) : L.outside p.coord = false := Bool.eq_false_iff.mpr (mt hout.mp h)
  have hfills (h : ¬(out ∧ L.fill = 2)) : ¬(L.outside p.coord = true ∧ L.fill = 2) := by rwa [hout]
  refine ⟨fun ho hf => State.moveUnit_of_fault (State.unitMoved_bounds (hout.mpr ho) hf), fun hok a hl hor => ?_, fun hdir ho hf a hl hfree => ?_,
    fun hdir ho a hl hfree => ?_, fun hdir ho a hl hfree hgood => ?_, fun hdrop hok hor => ?_, fun hdrop hdir ho hm m hw => ?_, fun ho hf hdir => ?_,
    fun t ht => ?_⟩
  · obtain ⟨f, drop, hmoved⟩ := State.unitMoved_placed (s := s) (d := d) (inst := inst) (gid := gid) (hfills hok) (hor.imp_right hinside)
    exact ⟨fun hin => ⟨_, State.moveUnit_of_fault (hmoved.trans (State.atUnit_outside hl hin))⟩,
      fun hin hlive => ⟨_, State.moveUnit_of_fault (hmoved.trans (State.atUnit_live hl hin hlive))⟩⟩
  · exact State.moveUnit_of_moved ((State.unitMoved_toLocal hdir (hfills fun h => hf h.2)).trans
      ((State.atUnit_free hl hfree.1 hfree.2).trans (if_pos (hout.mpr ho))))
  · have hmoved := (State.unitMoved_toLocal (s := s) (d := d) (inst := inst) (gid := gid) hdir (hfills fun h => ho h.1)).trans
      ((State.atUnit_free hl hfree.1 hfree.2).trans (if_neg (Bool.eq_false_iff.mp (hinside ho))))
    exact ⟨fun bs hread => State.moveUnit_of_moved (hmoved.trans (congrArg (Acc.bind · _) hread)),
      fun c fa hread => State.moveUnit_of_fault (hmoved.trans (congrArg (Acc.bind · _) hread))⟩
  · have hmoved := (State.unitMoved_toMain (s := s) (d := d) (inst := inst) (gid := gid) hdir (hinside ho)).trans
      ((State.atUnit_free hl hfree.1 hfree.2).trans (if_neg (Bool.eq_false_iff.mp hgood)))
    exact ⟨fun m hw => State.moveUnit_of_moved (hmoved.trans (congrArg (Acc.bind · _) hw)),
      fun c fa hw => State.moveUnit_of_fault (hmoved.trans (congrArg (Acc.bind · _) hw))⟩
  · refine State.moveUnit_of_moved ?_
    cases hdir : L.dir with
    | false => exact (State.unitMoved_toLocal hdir (hfills hok)).trans (State.atUnit_dropped hdrop)
    | true =>
      by_cases ho : out
      · exact State.unitMoved_skipped hdir (hout.mpr ho) fun hf => hok ⟨ho, hf⟩
      · have hm : B.mode = 1 := ((hor.resolve_left (by simp [hdir])).resolve_left ho)
        exact (State.unitMoved_toMain hdir (hinside ho)).trans ((State.atUnit_dropped hdrop).trans (if_neg (by rw [hm]; decide)))
  · exact State.moveUnit_of_moved ((State.unitMoved_toMain hdir (hinside ho)).trans
      ((State.atUnit_dropped hdrop).trans ((if_pos hm).trans (congrArg (Acc.bind · _) hw))))
  · exact State.moveUnit_of_moved (State.unitMoved_skipped hdir (hout.mpr ho) hf)
  · rw [State.moveUnit_eq] at ht
    obtain ⟨m, hm, hcredit⟩ := Acc.bind_eq_ok.mp ht
    rw [State.credit_mem hcredit]
    exact ⟨fun hdir => State.unitMoved_toLocal_mem hdir hm, fun hdir hwf da hda => State.unitMoved_toMain_other hdir hwf hda hm⟩

/-- Settles O30: the first command that may start is the one that starts, and the move of a unit is told by its direction, by whether it lies in the
tensor, and by its place in the buffer. -/
theorem carderCommandsRun : Obligations.CarderCommandsRun := ⟨commandStarts, unitLands, unitsMoveAndCredit⟩
end Sys2Proof.Machine
end

section
/-! PROOFS. Launches start, spread and are placed (R67, R273 to R280, R285): the first part of O57. -/
namespace Sys2Proof.Machine
open Sys2Proof.Claims

/-! ## Status words (R285) -/

theorem State.putStatus_none (s : State) (d : DieId) (ctx : Ctx) (code started : Nat) : s.putStatus d ctx 0 code started = s := by
  unfold State.putStatus
  split
  · rfl
  · simp
/-- The status variable at a device address is written by a request of the sync engine. -/
theorem State.putStatus_sends {s : State} {d : DieId} {va da : Nat} (ctx : Ctx) (code started : Nat) (hva : va ≠ 0) (hal : va % 8 = 0)
    (htr : s.translate d syncAgent false (BitVec.ofNat 64 va) .write = .ok da) (hpool : poolOf da = 0) :
    ∃ r, s.putStatus d ctx va code started = s.send r ∧ r.op = .put ∧ r.addr = da ∧ r.width = 8 ∧ r.arg = BitVec.ofNat 256 (code + started * 2 ^ 32) := by
  unfold State.putStatus
  rw [htr]
  simp only [hva, hpool, hal, decide_false, ne_eq, not_true_eq_false, Bool.or_self, Bool.false_eq_true, if_false]
  exact ⟨_, rfl, rfl, rfl, rfl, rfl⟩
theorem State.putStatus_reqs {s : State} {d : DieId} {va da : Nat} (ctx : Ctx) (code started : Nat) (hva : va ≠ 0) (hal : va % 8 = 0)
    (htr : s.translate d syncAgent false (BitVec.ofNat 64 va) .write = .ok da) (hpool : poolOf da = 0) :
    ∃ r ∈ (s.putStatus d ctx va code started).reqs, r.op = .put ∧ r.addr = da ∧ r.width = 8 ∧ r.arg = BitVec.ofNat 256 (code + started * 2 ^ 32) := by
  obtain ⟨r, hsend, hop, haddr, hwidth, harg⟩ := State.putStatus_sends ctx code started hva hal htr hpool
  rw [hsend]
  exact ⟨{ r with id := s.nextId }, List.mem_append_right _ (List.mem_singleton_self _), hop, haddr, hwidth, harg⟩

/-! ## The records of a launch queue (R273, R274, R285) -/

/-- The lowest die of a partition runs a context, whose launch queue holds a record, the oldest of them `r`. -/
structure LaunchHead (s : State) (p : PartId) (handle : Word) (d : DieId) (q : RQueue) (r : BitVec 256) : Prop where
  lowest  : ∃ ds, s.diesOf p = d :: ds
  running : s.running d = true
  ctx     : (s.die d).active.ctx ≠ 0
  queue   : s.queueOf p (s.die d).active.ctx handle.toNat = some q
  record  : ∃ l, q.chip = r :: l
  kind    : q.kind = 1

/-- The launch `L` of a queue begins: it takes a number, its groups are spread over the dies, and its context's descriptor copies are dropped (R273, R278). -/
def State.begun (s : State) (p : PartId) (c : Ctx) (L : Launch) : State :=
  { s.freshDescs p c with nextId := s.nextId + 1, launches := s.launches ++ [{ L with id := s.nextId, unplaced := L.spread (s.diesOf p) }] }

section
variable {s : State} {p : PartId} {handle : Word} {d : DieId} {q : RQueue} {r : BitVec 256} (h : LaunchHead s p handle d q r)
include h

theorem LaunchHead.partOf : s.partOf d = p := by
  obtain ⟨ds, hds⟩ := h.lowest
  exact State.mem_diesOf_iff.mp (hds ▸ List.mem_cons_self)
/-- The scheduler comes to the record at the head of the queue (R285). -/
theorem launchStart_head : execLaunchStart p handle s =
    if (q.usesRing .pop && s.ringStalled q) || s.launchStalled d (field r 63 0) || !(s.mayLaunch p (s.die d).active.ctx handle.toNat (r.getLsbD 128)) then .next s
    else match s.launchLost d (field r 63 0), s.qPop q with
      | some line, _ => .next (s.syncEcc p d (s.die d).active.ctx 0 line)
      | none, none => .next s
      | none, some (r, u) => match (if field r 159 129 ≠ 0 ∨ field r 255 160 ≠ 0 then .inl 1 else u.launchRec d (field r 63 0)) with
        | .inl code => .next (u.putStatus d (s.die d).active.ctx (field r 127 64) (0x80000000 + code) 0)
        | .inr L => .next (u.begun p (s.die d).active.ctx { L with status := field r 127 64, queue := handle.toNat, serial := r.getLsbD 128 }) := by
  obtain ⟨⟨ds, hds⟩, hrun, hctx, hqueue, ⟨l, hchip⟩, hkind⟩ := h
  unfold execLaunchStart
  simp only [hds, hrun, decide_eq_false hctx, hqueue, hchip, hkind, Bool.not_true, Bool.or_false, Bool.false_eq_true, if_false, ne_eq, not_true_eq_false,
    decide_false, Bool.false_or]
  rfl
theorem launchStart_early (hmay : s.mayLaunch p (s.die d).active.ctx handle.toNat (r.getLsbD 128) = false) :
    execLaunchStart p handle s = .next s := by
  rw [launchStart_head h, hmay, Bool.not_false, Bool.or_true]
  rfl

variable (hmay : s.mayLaunch p (s.die d).active.ctx handle.toNat (r.getLsbD 128) = true) (hring : s.ringStalled q = false)
  (hst : s.launchStalled d (field r 63 0) = false)
include hmay hring hst

theorem launchStart_lost {line : DWord} (hlost : s.launchLost d (field r 63 0) = some line) :
    execLaunchStart p handle s = .next (s.syncEcc p d (s.die d).active.ctx 0 line) := by
  rw [launchStart_head h, hmay, hring, hst, hlost, Bool.and_false]
  rfl

variable {u : State} (hlost : s.launchLost d (field r 63 0) = none) (hpop : s.qPop q = some (r, u)) (hlow : field r 159 129 = 0)
  (hhigh : field r 255 160 = 0)
include hlost hpop hlow hhigh

theorem launchStart_popped : execLaunchStart p handle s = match u.launchRec d (field r 63 0) with
    | .inl code => .next (u.putStatus d (s.die d).active.ctx (field r 127 64) (0x80000000 + code) 0)
    | .inr L => .next (u.begun p (s.die d).active.ctx { L with status := field r 127 64, queue := handle.toNat, serial := r.getLsbD 128 }) := by
  rw [launchStart_head h, hmay, hring, hst, hlost, hpop, Bool.and_false]
  simp only [hlow, hhigh]
  rfl
theorem launchStart_refused {code : Nat} (hrec : u.launchRec d (field r 63 0) = .inl code) :
    execLaunchStart p handle s = .next (u.putStatus d (s.die d).active.ctx (field r 127 64) (0x80000000 + code) 0) := by
  rw [launchStart_popped h hmay hring hst hlost hpop hlow hhigh, hrec]
theorem launchStart_begins {L : Launch} (hrec : u.launchRec d (field r 63 0) = .inr L) : execLaunchStart p handle s =
    .next (u.begun p (s.die d).active.ctx { L with status := field r 127 64, queue := handle.toNat, serial := r.getLsbD 128 }) := by
  rw [launchStart_popped h hmay hring hst hlost hpop hlow hhigh, hrec]
end

theorem launchStart_nowhere {s : State} {p : PartId} {handle : Word} (h : ∀ d, s.partOf d ≠ p) : execLaunchStart p handle s = .next s := by
  have hnone : s.diesOf p = [] := List.filter_eq_nil_iff.mpr fun d _ => by simpa using h d
  unfold execLaunchStart
  rw [hnone]
theorem launchStart_stopped {s : State} {p : PartId} {handle : Word} {d : DieId} {ds : List DieId} (hds : s.diesOf p = d :: ds)
    (h : s.running d = false ∨ (s.die d).active.ctx = 0) : execLaunchStart p handle s = .next s := by
  unfold execLaunchStart
  rw [hds]
  exact if_pos (by simpa using h)

/-! ## What a launch that begins leaves -/

/-- A property that an update of a die brings about holds on every die that a run of such updates reaches. -/
theorem State.foldl_modDie_brings {P : Die → Prop} {f : Die → Die} (hf : ∀ D, P (f D)) {e : DieId} {l : List DieId} (s : State) (he : e ∈ l ∨ P (s.die e)) :
    P ((l.foldl (fun (s : State) d => s.modDie d f) s).die e) := by
  induction l generalizing s with
  | nil => exact he.resolve_left (List.not_mem_nil)
  | cons d l ih =>
    refine ih _ ?_
    by_cases hd : d = e
    · exact .inr (by rw [hd, State.die_modDie]; exact hf _)
    · rw [State.die_modDie_ne _ _ _ _ hd]
      exact he.imp_left fun h => (List.mem_cons.mp h).resolve_left (Ne.symm hd)
theorem State.freshDescs_desc (s : State) {p : PartId} (c : Ctx) {e : DieId} (he : s.partOf e = p) : ∀ x ∈ ((s.freshDescs p c).die e).desc, x.ctx ≠ c :=
  State.foldl_modDie_brings (P := fun D => ∀ x ∈ D.desc, x.ctx ≠ c) (fun _ _ hx => by simpa using (List.mem_filter.mp hx).2) s
    (.inl (State.mem_diesOf_iff.mpr he))
theorem State.syncEcc_signals (s : State) (p : PartId) (d : DieId) (c : Ctx) (pc line : DWord) : s.Signals (s.syncEcc p d c pc line) := .raiseFault ..
theorem State.qPop_layout {s u : State} {q : RQueue} {pc : DWord} {r : BitVec 256} (h : s.qPop q pc = some (r, u)) : u.layout = s.layout := by
  unfold State.qPop at h
  split at h
  · cases h
  · dsimp only at h
    split at h
    · cases h
      exact (State.syncEcc_signals ..).layout
    · cases h
      rfl
theorem State.launchRec_started {s : State} {d : DieId} {va : Nat} {L : Launch} (h : s.launchRec d va = .inr L) : L.started = 0 := by
  unfold State.launchRec at h
  split at h
  · cases h
  · dsimp only at h
    split at h
    · cases h
    · cases h
      rfl

/-- The sync engine of the partition's own die halts it for a line in error, and keeps the line in its record (log 14). -/
theorem State.syncEcc_halts {s : State} {d : DieId} (c : Ctx) (line : DWord) :
    let t := s.syncEcc (s.partOf d) d c 0 line
    haltsWith s t d Cause.ecc ∧ t.launches = s.launches ∧
      ∃ f ∈ (t.part (s.partOf d)).faults, f.die = d ∧ f.slot = 248 ∧ f.stop.cause = Cause.ecc ∧ f.stop.pc = 0 ∧ f.stop.faddr = line := by
  intro t
  have hdie : (if s.partOf d == s.partOf d then d else (s.diesOf (s.partOf d)).headD d) = d := if_pos (beq_self_eq_true _)
  let f : FaultRec := { die := d, slot := 248, clock := s.clock, form := {}, stop := { cause := Cause.ecc, cls := 2, ctx := c, pc := 0, faddr := line } }
  have ht : t = s.raiseFault f := by
    unfold t State.syncEcc
    rw [hdie]
  have hrec : (s.recorded f).die = d ∧ (s.recorded f).stop.cause = Cause.ecc ∧ (s.recorded f).stop.pc = 0 ∧ (s.recorded f).stop.faddr = line := by
    unfold State.recorded State.tallied
    split_ifs <;> exact ⟨rfl, rfl, rfl, rfl⟩
  rw [ht]
  refine ⟨haltsWith_raiseFault (s := s) (u := s) (f := f) rfl rfl, (State.Signals.raiseFault s f).launches, s.recorded f, ?_, hrec.1, s.recorded_slot f, hrec.2⟩
  have hpart := s.part_withFault f
  rw [State.part_raiseFault, hpart]
  exact List.mem_append_right _ (List.mem_singleton_self _)

theorem State.begun_launch {u : State} {p : PartId} {c : Ctx} {L : Launch} {ds : List DieId} (hds : u.diesOf p = ds) (hs : L.started = 0) :
    let t := u.begun p c L
    t.mem = u.mem ∧ ∃ L', t.launches = u.launches ++ [L'] ∧ (∀ e, u.partOf e = p → ∀ x ∈ (t.die e).desc, x.ctx ≠ c) ∧ L'.id = u.nextId ∧
      L'.kernel = L.kernel ∧ L'.lo = L.lo ∧ L'.hi = L.hi ∧ L'.started = 0 ∧ L'.unplaced = L.spread ds := by
  intro t
  exact ⟨u.freshDescs_mem p c, { L with id := u.nextId, unplaced := L.spread (u.diesOf p) }, rfl, fun e he => u.freshDescs_desc c he, rfl, rfl, rfl, rfl, hs,
    hds ▸ rfl⟩

/-! ## Placement (R276 to R278) -/

/-- The state once the group of `x` has been placed on a core, as a group of kernel `k`. -/
def State.withPlaced (s : State) (d : DieId) (L : Launch) (x : Unplaced) (k : Kernel) (first count csize core : Nat) : State :=
  let used := ((s.die d).active.groups.filter (·.core == core)).flatMap (·.slots)
  let G := newGroup k (s.safeTarget d k.entry) s.nextId x.number L.id core first count csize (BitVec.ofNat 32 L.rank)
    (takeSlots 64 ((k.gsize + 31) / 32) used) x.records x.node.isSome
  State.modLaunch { s.modBank d (fun B => { B with groups := B.groups ++ [G] }) with nextId := s.nextId + 1 } L.id
    fun M => { M with unplaced := M.unplaced.filter (· != x), started := M.started + 1 }

section
variable {s : State} {d : DieId} {L : Launch} {x : Unplaced} {k : Kernel} {first count csize core : Nat}

theorem groupPlacement_idle (h : s.running d = false ∨ s.nextGroup d = none) : execGroupPlacement d s = .next s := by
  unfold execGroupPlacement
  split
  · rfl
  · next hrun =>
    rw [h.resolve_left (by simpa using hrun)]
theorem groupPlacement_none (hrun : s.running d = true) (hnext : s.nextGroup d = some (L, x)) (hunit : L.unit x = (k, first, count, csize))
    (hcore : s.coreFor d k ((k.gsize + 31) / 32) = none) : execGroupPlacement d s = .next s := by
  unfold execGroupPlacement
  simp only [hrun, hnext, hunit, hcore, Bool.not_true, Bool.false_eq_true, if_false]
theorem groupPlacement_places (hrun : s.running d = true) (hnext : s.nextGroup d = some (L, x)) (hunit : L.unit x = (k, first, count, csize))
    (hcore : s.coreFor d k ((k.gsize + 31) / 32) = some core) : execGroupPlacement d s = .next (s.withPlaced d L x k first count csize core) := by
  unfold execGroupPlacement
  simp only [hrun, hnext, hunit, hcore, Bool.not_true, Bool.false_eq_true, if_false]
  rfl

/-- An update of one launch number is seen in each launch that bears it. -/
theorem State.mem_modLaunch {u : State} {id : Nat} {f : Launch → Launch} {M : Launch} (hM : M ∈ u.launches) (hid : M.id = id) :
    f M ∈ (u.modLaunch id f).launches :=
  List.mem_map.mpr ⟨M, hM, if_pos (by simpa using hid)⟩
theorem State.withPlaced_group : ∃ H ∈ ((s.withPlaced d L x k first count csize core).die d).active.groups,
    H.gid = s.nextId ∧ H.number = BitVec.ofNat 32 x.number ∧ H.launch = L.id ∧ H.core = core ∧ H.first = first ∧ H.count = count ∧
      H.size = roundUp k.shared 256 ∧ H.tiles = hdrTiles k.hdr ∧ H.fmts = k.fmts ∧ H.alloc = List.replicate H.slots.length (hdrRegs k.hdr) ∧
      H.node = x.node.isSome := by
  have hgroups {G : Group} : ((s.modBank d fun B => { B with groups := B.groups ++ [G] }).die d).active.groups = (s.die d).active.groups ++ [G] := by
    rw [State.modBank, State.die_modDie]
  refine ⟨_, hgroups ▸ List.mem_append_right _ (List.mem_singleton_self _), rfl, rfl, rfl, rfl, rfl, rfl, rfl, rfl, rfl, rfl, rfl⟩
end

/-! ## Stealing (R279, R280) -/

/-- The groups `taken` have moved to die `d`. -/
def State.movedTo (s : State) (d : DieId) (taken : List (Nat × Unplaced)) : State :=
  { s with launches := s.launches.map fun L => { L with unplaced := L.unplaced.map fun u => if taken.contains (L.id, u) then { u with die := d } else u } }
theorem State.mem_movedTo {s : State} {d : DieId} {taken : List (Nat × Unplaced)} {M : Launch} (hM : M ∈ s.launches) :
    { M with unplaced := M.unplaced.map fun x => if (M.id, x) ∈ taken then { x with die := d } else x } ∈ (s.movedTo d taken).launches := by
  refine List.mem_map.mpr ⟨M, hM, ?_⟩
  simp only [List.contains_iff_mem]

/-- The die that holds the most, the lowest on a tie. -/
def State.fullest (s : State) (d : DieId) (held : DieId → Nat) : Option DieId :=
  bestOf (fun a b => decide (held b < held a) || (held a == held b && decide (a.val ≤ b.val))) (s.partDies d)

section
variable {s : State} {d v : DieId}

theorem workSteal_idle (h : s.running d = false ∨ ∃ L ∈ s.launchesOn d, ∃ x ∈ L.unplaced, x.die = d) : execWorkSteal d s = .next s :=
  if_pos (by simpa using h)
theorem workSteal_takes (hrun : s.running d = true) (hnone : ∀ L ∈ s.launchesOn d, ∀ x ∈ L.unplaced, x.die ≠ d)
    (hv : s.fullest d (s.waiting d) = some v) : execWorkSteal d s = .next (s.movedTo d (s.steal d v)) := by
  have hempty : ((s.launchesOn d).any fun L => L.unplaced.any (·.die == d)) = false := by simpa using hnone
  unfold State.fullest at hv
  unfold execWorkSteal
  simp only [hrun, hempty, hv, Bool.not_true, Bool.or_self, Bool.false_eq_true, if_false]
  rfl

/-! ### Groups that are no members of clusters -/

/-- The groups of die `v` that are no node's, each with its launch. -/
def State.singles (s : State) (d v : DieId) : List (Nat × Unplaced) :=
  (s.launchesOn d).flatMap fun L => (L.unplaced.filter fun x => x.node.isNone && x.die == v).map fun x => (L.id, x)

theorem Launch.loose_unclustered {L : Launch} (h : L.kernel.csize ≤ 1) :
    L.loose v = ((L.unplaced.filter fun x => x.node.isNone && x.die == v).map fun x => (L.id, x)).map fun x => [x] := by
  have hclosed (u : Unplaced) : L.openCluster u = false := by simp [Launch.openCluster, Nat.not_lt.mpr h]
  simp only [Launch.loose, hclosed, Bool.not_false, Bool.and_true, h, if_true]
theorem State.loose_unclustered (h : ∀ L ∈ s.launchesOn d, L.kernel.csize ≤ 1) : s.loose d v = (s.singles d v).map fun x => [x] := by
  unfold State.loose State.singles
  rw [List.map_flatMap]
  exact List.flatMap_congr fun L hL => Launch.loose_unclustered (h L hL)
theorem State.waiting_unclustered (h : ∀ L ∈ s.launchesOn d, L.kernel.csize ≤ 1) : s.waiting d = fun v => (s.singles d v).length := by
  funext v
  rw [State.waiting, State.loose_unclustered h, ← List.flatMap_def, List.flatMap_singleton']
theorem State.steal_unclustered (h : ∀ L ∈ s.launchesOn d, L.kernel.csize ≤ 1) :
    s.steal d v = (s.singles d v).drop ((s.singles d v).length - max 1 ((s.singles d v).length / 2)) := by
  rw [State.steal, State.loose_unclustered h, List.length_map, ← List.map_drop, ← List.flatMap_def, List.flatMap_singleton']

/-! ### Clusters -/

theorem Launch.loose_ne_nil {L : Launch} {l : List (Nat × Unplaced)} (h : l ∈ L.loose v) : l ≠ [] := by
  unfold Launch.loose at h
  split at h
  · obtain ⟨x, -, rfl⟩ := List.mem_map.mp h
    exact List.cons_ne_nil _ _
  · obtain ⟨c, hc, rfl⟩ := List.mem_map.mp h
    obtain ⟨x, hx, hxc⟩ := List.mem_map.mp (List.mem_eraseDups.mp hc)
    exact List.ne_nil_of_mem (List.mem_filter.mpr ⟨hx, by simpa using hxc⟩)
theorem State.steal_ne_nil (h : (s.loose d v).flatten ≠ []) : s.steal d v ≠ [] := by
  have hlen : 0 < (s.loose d v).length := List.length_pos_iff.mpr fun e => h (by rw [e]; rfl)
  unfold State.steal
  dsimp only
  generalize hk : (s.loose d v).length - max 1 ((s.loose d v).length / 2) = k
  have hlt : k < (s.loose d v).length := by omega
  have hlast : (s.loose d v)[k] ∈ (s.loose d v).drop k := by
    rw [List.drop_eq_getElem_cons hlt]
    exact List.mem_cons_self
  obtain ⟨L, -, hL⟩ := List.mem_flatMap.mp (List.mem_of_mem_drop hlast)
  obtain ⟨x, hx⟩ := List.exists_mem_of_ne_nil _ (Launch.loose_ne_nil hL)
  exact List.ne_nil_of_mem (List.mem_flatten.mpr ⟨_, hlast, hx⟩)
/-- A launch's loose groups bear its number. -/
theorem Launch.loose_id {L : Launch} {l : List (Nat × Unplaced)} (h : l ∈ L.loose v) {x : Nat × Unplaced} (hx : x ∈ l) : x.1 = L.id := by
  unfold Launch.loose at h
  split at h
  · obtain ⟨y, hy, rfl⟩ := List.mem_map.mp h
    obtain ⟨u, -, rfl⟩ := List.mem_map.mp hy
    rw [List.mem_singleton.mp hx]
  · obtain ⟨c, -, rfl⟩ := List.mem_map.mp h
    obtain ⟨u, -, rfl⟩ := List.mem_map.mp (List.mem_filter.mp hx).1
    rfl
/-- Of a launch with clusters, a loose group lies in the list of its cluster. -/
theorem Launch.loose_cluster {L : Launch} (hc : 1 < L.kernel.csize) {l m : List (Nat × Unplaced)} (hl : l ∈ L.loose v) (hm : m ∈ L.loose v)
    {x y : Nat × Unplaced} (hx : x ∈ l) (hy : y ∈ m) (hxy : x.2.number / L.kernel.csize = y.2.number / L.kernel.csize) : y ∈ l := by
  unfold Launch.loose at hl hm
  simp only [Nat.not_le.mpr hc, if_false] at hl hm
  obtain ⟨c, -, rfl⟩ := List.mem_map.mp hl
  obtain ⟨c', -, rfl⟩ := List.mem_map.mp hm
  have hxc : x.2.number / L.kernel.csize = c := by simpa using (List.mem_filter.mp hx).2
  exact List.mem_filter.mpr ⟨(List.mem_filter.mp hy).1, by simp [← hxy, hxc]⟩
theorem State.steal_cluster (hid : ∀ L ∈ s.launches, ∀ M ∈ s.launches, M.id = L.id → M = L) {L : Launch} (hL : L ∈ s.launchesOn d) {x y : Unplaced}
    (hx : (L.id, x) ∈ s.steal d v) (hy : (L.id, y) ∈ (s.loose d v).flatten) (hc : 1 < L.kernel.csize)
    (hxy : x.number / L.kernel.csize = y.number / L.kernel.csize) : (L.id, y) ∈ s.steal d v := by
  have own {l : List (Nat × Unplaced)} {z : Unplaced} (hl : l ∈ s.loose d v) (hz : (L.id, z) ∈ l) : l ∈ L.loose v := by
    obtain ⟨M, hM, hlM⟩ := List.mem_flatMap.mp hl
    have hML : M = L := hid L (List.mem_filter.mp hL).1 M (List.mem_filter.mp hM).1 (Launch.loose_id hlM hz).symm
    exact hML ▸ hlM
  obtain ⟨l, hl, hxl⟩ := List.mem_flatten.mp hx
  obtain ⟨m, hm, hym⟩ := List.mem_flatten.mp hy
  exact List.mem_flatten.mpr ⟨l, hl, Launch.loose_cluster hc (own (List.mem_of_mem_drop hl) hxl) (own hm hym) hxl hym hxy⟩
end

theorem launchesStartAndSpread : LaunchesStartAndSpread := by
  refine ⟨fun s p handle h => launchStart_nowhere h, ?_, ?_, ?_⟩
  · intro s p handle d ds hds c
    refine ⟨launchStart_stopped hds, ?_⟩
    intro q r l hrun hc hq hchip hk
    have hhead : LaunchHead s p handle d q r := ⟨⟨ds, hds⟩, hrun, hc, hq, ⟨l, hchip⟩, hk⟩
    refine ⟨launchStart_early hhead, fun hmay hring hst line hlost => ⟨_, launchStart_lost hhead hmay hring hst hlost, ?_⟩,
      fun u hring hst hlost hmay hpop hlow hhigh hva => ⟨fun code hrec => ?_, fun L hrec => ?_⟩⟩
    · obtain rfl := hhead.partOf
      exact State.syncEcc_halts c line
    · refine (launchStart_refused hhead hmay hring hst hlost hpop hlow hhigh hrec).trans ?_
      rw [hva, State.putStatus_none]
    · have hstarted : L.started = 0 := State.launchRec_started hrec
      have hlayout := State.qPop_layout hpop
      have hpart (e : DieId) : u.partOf e = s.partOf e := congrArg (·.get e) hlayout
      have hdies : u.diesOf p = d :: ds := by
        rw [← hds]
        simp only [State.diesOf, hpart]
      obtain ⟨hmem, L', hL', hdesc, hrest⟩ := State.begun_launch (c := c)
        (L := { L with status := field r 127 64, queue := handle.toNat, serial := r.getLsbD 128 }) hdies hstarted
      exact ⟨_, launchStart_begins hhead hmay hring hst hlost hpop hlow hhigh hrec, hmem, L', hL', fun e he => hdesc e ((hpart e).trans he), hrest⟩
  · intro s p handle d ds q r l u code da hds hrun hc hq hchip hk hring hst hlost hmay hpop hlow hhigh hva hal htr hpool hrec
    have hhead : LaunchHead s p handle d q r := ⟨⟨ds, hds⟩, hrun, hc, hq, ⟨l, hchip⟩, hk⟩
    obtain ⟨x, hx, hop, haddr, hwidth, harg⟩ := State.putStatus_reqs (s.die d).active.ctx (0x80000000 + code) 0 hva hal htr hpool
    exact ⟨_, launchStart_refused hhead hmay hring hst hlost hpop hlow hhigh hrec, x, hx, hop, haddr, hwidth, by rw [harg, Nat.zero_mul, Nat.add_zero]⟩
  · intro s d
    refine ⟨groupPlacement_idle, fun L x k first count csize hrun hnext hunit => ⟨groupPlacement_none hrun hnext hunit, fun core hcore => ?_⟩, ?_⟩
    · exact ⟨_, groupPlacement_places hrun hnext hunit hcore, rfl, State.withPlaced_group, fun M hM hid => State.mem_modLaunch hM hid⟩
    · intro mine most moves
      refine ⟨workSteal_idle, fun hrun hnone => ⟨fun hsingle v hv => ?_, fun v hv => ⟨_, workSteal_takes hrun hnone hv, fun M hM => State.mem_movedTo hM,
        State.steal_ne_nil, fun hid L hL x y hx hy hc hxy => State.steal_cluster hid hL hx hy hc hxy⟩⟩⟩
      have hw : s.fullest d (s.waiting d) = some v := by rw [State.waiting_unclustered hsingle]; exact hv
      refine ⟨_, workSteal_takes hrun hnone hw, fun M hM => ?_⟩
      rw [State.steal_unclustered hsingle]
      exact State.mem_movedTo hM
end Sys2Proof.Machine
end

section
/-! PROOFS. Groups and launches end, node bins take records (R265, R285, R287): the second part of O57. -/
namespace Sys2Proof.Machine
open Sys2Proof.Claims

/-! ## Settling the sets of a launch leaves the banks (R254) -/

/-- From `s` to `t` no die's active bank has changed. -/
structure State.KeepsBanks (s t : State) : Prop where
  bank : ∀ d, (t.die d).active = (s.die d).active
theorem State.KeepsBanks.refl (s : State) : s.KeepsBanks s := ⟨fun _ => rfl⟩
theorem State.KeepsBanks.trans {s t u : State} (h : s.KeepsBanks t) (k : t.KeepsBanks u) : s.KeepsBanks u := ⟨fun d => (k.bank d).trans (h.bank d)⟩
theorem State.KeepsBanks.foldl {α : Type} {f : State → α → State} (hf : ∀ (s : State) a, s.KeepsBanks (f s a)) (l : List α) (s : State) :
    s.KeepsBanks (l.foldl f s) := by
  induction l generalizing s with
  | nil => exact .refl s
  | cons a l ih => exact (hf s a).trans (ih _)
theorem State.Signals.keepsBanks {s t : State} (h : s.Signals t) : s.KeepsBanks t := ⟨h.active⟩
theorem State.KeepsBanks.modSet (s : State) (home : DieId) (launch : Nat) (sc : Scope) (inst : Nat) (f : CSet → CSet) :
    s.KeepsBanks (s.modSet home launch sc inst f) := ⟨fun _ => rfl⟩
theorem State.KeepsBanks.openGen (s : State) (home : DieId) (L : Launch) (sc : Scope) (inst : Nat) (pc : DWord) :
    s.KeepsBanks (s.openGen home L sc inst pc) := by
  cases hc : s.cset home L.id sc inst with
  | none => rw [show s.openGen home L sc inst pc = s by rw [State.openGen, hc]]; exact .refl s
  | some c =>
    obtain ⟨-, h⟩ | ⟨-, h⟩ := State.openGen_signals hc pc
    · rw [h]; exact .refl s
    · exact ((State.KeepsBanks.modSet ..).trans (.modSet ..)).trans h.keepsBanks
theorem State.KeepsBanks.endGen (s : State) (L : Launch) (c : CSet) : s.KeepsBanks (s.endGen L c) := by
  rw [State.endGen_eq]
  extract_lets t u
  have hst : s.KeepsBanks t := .modSet ..
  have htu : t.KeepsBanks u := by
    unfold u
    split
    · exact State.Signals.keepsBanks (.tellRanks ..)
    · exact .refl t
  split
  · exact hst.trans htu
  · exact (hst.trans htu).trans (.openGen ..)
theorem State.KeepsBanks.settleOnce (s : State) (home : DieId) (launch : Nat) (sc : Scope) (inst : Nat) :
    s.KeepsBanks (s.settleOnce home launch sc inst) := by
  obtain h | h | ⟨L, c, -, -, h⟩ := s.settleOnce_cases home launch sc inst
  · rw [h]; exact .refl s
  · exact (State.KeepsBanks.modSet ..).trans h.keepsBanks
  · rw [h]; exact .endGen ..
theorem State.KeepsBanks.settleLaunch (s : State) (launch : Nat) : s.KeepsBanks (s.settleLaunch launch) :=
  .foldl (fun _ _ => (State.KeepsBanks.settleOnce ..).trans (.settleOnce ..)) _ s

/-! ## The end of a group (R265) -/

section
variable {s : State} {d : DieId} {gid : Nat} {G : Group}

/-- Nothing of a group is under way: its indices have exited, and no command, interest, offer, tile word or counted request is its own. -/
structure State.GroupOver (s : State) (d : DieId) (gid : Nat) (G : Group) : Prop where
  exited    : G.liveIdx = []
  commands  : ∀ q ∈ s.cmds d, q.gid ≠ gid
  interests : ∀ x ∈ (s.die d).active.interests, x.gid ≠ gid
  offers    : ∀ x ∈ (s.die d).active.offers, x.gid ≠ gid
  tiles     : ∀ x ∈ (s.die d).active.tileq, x.gid ≠ gid
  requests  : ∀ r ∈ s.reqs, r.die = d → r.gid = gid → r.op.counted = false

/-- Something of a group is under way. -/
def State.groupBusy (s : State) (d : DieId) (gid : Nat) (G : Group) : Bool :=
  !G.liveIdx.isEmpty || (s.cmds d).any (·.gid == gid) || (s.die d).active.interests.any (·.gid == gid) || (s.die d).active.offers.any (·.gid == gid) ||
    (s.die d).active.tileq.any (·.gid == gid) || s.reqs.any fun r => r.die == d && r.gid == gid && r.op.counted
/-- The die without a group. -/
def State.withoutGroup (s : State) (d : DieId) (gid : Nat) : State :=
  s.modBank d fun B => { B with groups := B.groups.filter (·.gid != gid) }

theorem State.groupBusy_iff : s.groupBusy d gid G = false ↔ s.GroupOver d gid G := by
  simp only [State.groupBusy, Bool.or_eq_false_iff, List.any_eq_false, beq_iff_eq, Bool.and_eq_true, not_and,
    Bool.not_eq_true]
  exact ⟨fun ⟨⟨⟨⟨⟨hx, hq⟩, hi⟩, ho⟩, ht⟩, hr⟩ => ⟨by simpa using hx, hq, hi, ho, ht, fun r h hd hg => hr r h ⟨hd, hg⟩⟩,
    fun ⟨hx, hq, hi, ho, ht, hr⟩ => ⟨⟨⟨⟨⟨by simpa using hx, hq⟩, hi⟩, ho⟩, ht⟩, fun r h hdg => hr r h hdg.1 hdg.2⟩⟩

theorem groupEnd_of_group (hG : s.group d gid = some G) : execGroupEnd d gid s =
    if gid = 0 || s.groupBusy d gid G || !s.running d then .next s
    else .next ((((((s.die d).active.handles.filter (·.gid == gid)).foldl (fun (u : State) h => u.closeHandle d gid h h.pc) s).withoutGroup d gid)).settleLaunch
      G.launch) := by
  unfold execGroupEnd
  rw [hG]
  rfl
theorem groupEnd_none (hG : s.group d gid = none) : execGroupEnd d gid s = .next s := by
  unfold execGroupEnd
  rw [hG]
theorem groupEnd_idle (hG : s.group d gid = some G) (h : ¬s.GroupOver d gid G ∨ gid = 0 ∨ s.running d = false) : execGroupEnd d gid s = .next s := by
  rw [groupEnd_of_group hG, if_pos]
  obtain h | h | h := h
  · simp [Bool.eq_true_of_not_eq_false fun e => h (State.groupBusy_iff.mp e)]
  · simp [h]
  · simp [h]
theorem groupEnd_ends (hG : s.group d gid = some G) (hover : s.GroupOver d gid G) (hgid : gid ≠ 0) (hrun : s.running d = true)
    (hh : ∀ h ∈ (s.die d).active.handles, h.gid ≠ gid) : execGroupEnd d gid s = .next ((s.withoutGroup d gid).settleLaunch G.launch) := by
  have hnone : (s.die d).active.handles.filter (·.gid == gid) = [] := List.filter_eq_nil_iff.mpr fun h hm => by simpa using hh h hm
  rw [groupEnd_of_group hG, if_neg (by simp [hgid, State.groupBusy_iff.mpr hover, hrun]), hnone]
  rfl

theorem State.ended_groups (launch : Nat) : (((s.withoutGroup d gid).settleLaunch launch).die d).active.groups =
    (s.die d).active.groups.filter (·.gid != gid) := by
  rw [(State.KeepsBanks.settleLaunch ..).bank, State.withoutGroup, State.modBank, State.die_modDie]
theorem State.group_of_ne_zero (h : gid ≠ 0) : s.group d gid = (s.die d).active.groups.find? (·.gid == gid) := if_neg h
theorem State.ended_group (hgid : gid ≠ 0) (launch : Nat) : ((s.withoutGroup d gid).settleLaunch launch).group d gid = none := by
  rw [State.group_of_ne_zero hgid, State.ended_groups, List.find?_eq_none]
  intro K hK
  simpa using (List.mem_filter.mp hK).2
end

/-! ## The end of a launch (R285) -/

/-- The state without a launch and its counter sets. -/
def State.withoutLaunch (s : State) (id : Nat) : State :=
  { s with launches := s.launches.filter (·.id != id), sets := s.sets.filter (·.launch != id) }

section
variable {s : State} {id : Nat} {L : Launch} {d : DieId}

/-- Writing a status sends a request at most. -/
theorem State.putStatus_keeps (s : State) (d : DieId) (ctx : Ctx) (va code started : Nat) :
    (s.putStatus d ctx va code started).launches = s.launches ∧ (s.putStatus d ctx va code started).sets = s.sets := by
  unfold State.putStatus
  split
  · exact ⟨rfl, rfl⟩
  · split
    · exact ⟨rfl, rfl⟩
    · exact ⟨rfl, rfl⟩

/-- A launch is over: it has no group, none to place, and each of its bins is empty (R285, R287). -/
structure State.LaunchOver (s : State) (d : DieId) (L : Launch) : Prop where
  groups   : s.hasGroups L = false
  unplaced : L.unplaced = []
  bins     : ∀ N ∈ L.nodes, s.queueSize d L.part L.ctx N.qh = some 0

theorem launchEnd_nowhere (hL : s.launchById id = some L) (hd : s.launchDie L = none) : execLaunchEnd id s = .next s := by
  unfold execLaunchEnd
  rw [hL]
  dsimp only
  rw [hd]
theorem launchEnd_at (hL : s.launchById id = some L) (hd : s.launchDie L = some d) : execLaunchEnd id s =
    if s.hasGroups L || !L.unplaced.isEmpty || L.nodes.any (fun N => s.queueSize d L.part L.ctx N.qh != some 0) then .next s
    else .next ((s.withoutLaunch id).putStatus d L.ctx L.status 1 L.started) := by
  unfold execLaunchEnd
  rw [hL]
  dsimp only
  rw [hd]
  rfl
theorem State.launchOver_iff : (s.hasGroups L || !L.unplaced.isEmpty || L.nodes.any (fun N => s.queueSize d L.part L.ctx N.qh != some 0)) = false ↔
    s.LaunchOver d L := by
  simp only [Bool.or_eq_false_iff, List.any_eq_false, Bool.not_eq_false', List.isEmpty_iff, bne_iff_ne, ne_eq, not_not]
  exact ⟨fun ⟨⟨hg, hu⟩, hb⟩ => ⟨hg, hu, hb⟩, fun ⟨hg, hu, hb⟩ => ⟨⟨hg, hu⟩, hb⟩⟩
theorem launchEnd_idle (hL : s.launchById id = some L) (hd : s.launchDie L = some d) (h : ¬s.LaunchOver d L) : execLaunchEnd id s = .next s := by
  rw [launchEnd_at hL hd, if_pos (Bool.eq_true_of_not_eq_false fun e => h (State.launchOver_iff.mp e))]
theorem launchEnd_ends (hL : s.launchById id = some L) (hd : s.launchDie L = some d) (h : s.LaunchOver d L) :
    execLaunchEnd id s = .next ((s.withoutLaunch id).putStatus d L.ctx L.status 1 L.started) := by
  rw [launchEnd_at hL hd, if_neg (by rw [State.launchOver_iff.mpr h]; decide)]
end

/-! ## Node bins (R287) -/

section
variable {s : State} {id n : Nat} {L : Launch} {N : Node} {d : DieId}

/-- What a bin gives when its timer has run out or its launch drains: nothing while its ring is on the move (R54). -/
def State.binGives (s : State) (L : Launch) (n : Nat) (N : Node) (d : DieId) (N' : Node) : Res :=
  match s.queueOf L.part L.ctx N.qh with
  | some q => .next (if q.usesRing .pop && s.ringStalled q then s else s.binTake L n N')
  | none => .next (s.schedMiss d L.part L.ctx N.qh)

theorem State.binGives_held {q : RQueue} (hq : s.queueOf L.part L.ctx N.qh = some q) (hr : q.rcount ≠ 0) (hst : s.ringStalled q = true) (N' : Node) :
    s.binGives L n N d N' = .next s := by
  unfold State.binGives
  rw [hq]
  simp [RQueue.usesRing, hr, hst]
theorem State.binGives_takes {q : RQueue} (hq : s.queueOf L.part L.ctx N.qh = some q) (hr : q.rcount = 0 ∨ s.ringStalled q = false) (N' : Node) :
    s.binGives L n N d N' = .next (s.binTake L n N') := by
  have hfree : (q.usesRing .pop && s.ringStalled q) = false := by
    obtain hr | hr := hr
    · simp [RQueue.usesRing, hr]
    · rw [hr, Bool.and_false]
  unfold State.binGives
  rw [hq]
  simp [hfree]

/-- A bin's records become one group to place, which belongs to its node. -/
theorem State.binTake_takes {q : RQueue} {rs : List (BitVec 256)} {u : State} (hq : s.queueOf L.part L.ctx N.qh = some q)
    (hpop : s.popN L.part L.ctx N.qh N.coal = (rs, u)) (hrs : rs ≠ []) :
    ∃ N' x, x.node = some n ∧ x.records = rs ∧
      s.binTake L n N = u.modLaunch L.id fun M => { M with nodes := M.nodes.set n N', unplaced := M.unplaced ++ [x] } := by
  unfold State.binTake
  rw [hq, hpop]
  simp only [List.isEmpty_iff, hrs, if_false]
  exact ⟨_, { die := s.binDie L q, number := N.takesOn (s.binDie L q), node := some n, records := rs }, rfl, rfl, rfl⟩
theorem State.binTake_launches {q : RQueue} {rs : List (BitVec 256)} {u : State} (hq : s.queueOf L.part L.ctx N.qh = some q)
    (hpop : s.popN L.part L.ctx N.qh N.coal = (rs, u)) (hrs : rs ≠ []) :
    (s.binTake L n N).mem = u.mem ∧ ∀ M ∈ u.launches, M.id = L.id → ∃ M' ∈ (s.binTake L n N).launches, M'.id = L.id ∧ ∃ x,
      M'.unplaced = M.unplaced ++ [x] ∧ x.node = some n ∧ x.records = rs := by
  obtain ⟨N', x, hnode, hrecs, htake⟩ := State.binTake_takes (n := n) hq hpop hrs
  rw [htake]
  exact ⟨rfl, fun M hM hid => ⟨_, State.mem_modLaunch hM hid, hid, x, rfl, hnode, hrecs⟩⟩

section
variable (hL : s.launchById id = some L) (hN : L.nodes[n]? = some N) (hd : s.launchDie L = some d)
include hL hN hd

theorem binTimerExpiry_unset (h : N.due = none) : execBinTimerExpiry id n s = .next s := by
  unfold execBinTimerExpiry
  simp only [hL, hN, hd, h]
theorem binTimerExpiry_early {t : Nat} (h : N.due = some t) (ht : s.clock < t) : execBinTimerExpiry id n s = .next s := by
  unfold execBinTimerExpiry
  simp only [hL, hN, hd, h, ht, if_true]
theorem binTimerExpiry_due {t : Nat} (h : N.due = some t) (ht : t ≤ s.clock) :
    execBinTimerExpiry id n s = s.binGives L n N d { N with due := none } := by
  unfold execBinTimerExpiry
  simp only [hL, hN, hd, h, Nat.not_lt.mpr ht, if_false]
  rfl
theorem binDrain_early (h : s.hasGroups L = true ∨ L.unplaced ≠ []) : execBinDrain id n s = .next s := by
  have hbusy : (s.hasGroups L || !L.unplaced.isEmpty) = true := by simpa using h
  unfold execBinDrain
  simp only [hL, hN, hd, hbusy, if_true]
theorem binDrain_drains (hg : s.hasGroups L = false) (hu : L.unplaced = []) : execBinDrain id n s = s.binGives L n N d N := by
  have hfree : (s.hasGroups L || !L.unplaced.isEmpty) = false := by simp [hg, hu]
  unfold execBinDrain
  simp only [hL, hN, hd, hfree, Bool.false_eq_true, if_false]
  rfl
end
end

theorem groupsAndLaunchesEnd : GroupsAndLaunchesEnd := by
  refine fun s => ⟨?_, fun d gid => groupEnd_none, ?_, ?_⟩
  · intro d gid G hG
    refine ⟨fun h => groupEnd_idle hG (h.imp_left (mt fun hover => ?_)), fun hover hgid hrun hh => ?_⟩
    · obtain ⟨hx, hq, hi, ho, ht, hr⟩ := hover
      exact ⟨hx, hq, hi, ho, ht, hr⟩
    · obtain ⟨hx, hq, hi, ho, ht, hr⟩ := hover
      refine ⟨_, groupEnd_ends hG ⟨hx, hq, hi, ho, ht, hr⟩ hgid hrun hh, State.ended_group hgid _, State.settleLaunch_mem ..,
        fun H hH hne => ⟨H, ?_, rfl, rfl, rfl, rfl⟩⟩
      rw [State.ended_groups]
      exact List.mem_filter.mpr ⟨hH, by simpa using hne⟩
  · intro id L hL
    refine ⟨launchEnd_nowhere hL, fun d hd => ⟨fun h => launchEnd_idle hL hd (mt (fun hover => ?_) h), fun ⟨hg, hu, hb⟩ => ?_⟩⟩
    · exact ⟨hover.groups, hover.unplaced, hover.bins⟩
    · obtain ⟨hlaunches, hsets⟩ := (s.withoutLaunch id).putStatus_keeps d L.ctx L.status 1 L.started
      exact ⟨_, launchEnd_ends hL hd ⟨hg, hu, hb⟩, hlaunches, hsets, fun da hva hal htr hpool =>
        State.putStatus_reqs (s := s.withoutLaunch id) L.ctx 1 L.started hva hal htr hpool⟩
  · intro id n L N d hL hN hd held takes
    have holds {i : Instr} {N' : Node} (hi : exec i s = s.binGives L n N d N') : held i :=
      fun q hq hr hst => hi.trans (State.binGives_held hq hr hst N')
    have gives {i : Instr} {N' : Node} (hi : exec i s = s.binGives L n N d N') (hqh : N'.qh = N.qh) : takes i N' := fun q rs u hq hr hpop hrs =>
      ⟨_, hi.trans (State.binGives_takes hq hr N'), State.binTake_launches (hqh ▸ hq) (hqh ▸ hpop) hrs⟩
    refine ⟨fun t h ht => binTimerExpiry_early hL hN hd h ht, binTimerExpiry_unset hL hN hd, fun t h ht => ?_, binDrain_early hL hN hd, fun hg hu => ?_⟩
    · have hdue := binTimerExpiry_due hL hN hd h ht
      exact ⟨holds hdue, gives hdue rfl⟩
    · have hdrain := binDrain_drains hL hN hd hg hu
      exact ⟨holds hdrain, gives hdrain rfl⟩

/-- Settles O57: the claims about launches and about ends, each by one equation for each case of the scheduler's events. -/
theorem schedulerEvents : Obligations.SchedulerEvents := ⟨launchesStartAndSpread, groupsAndLaunchesEnd⟩
end Sys2Proof.Machine
end

section
/-! PROOFS. A supervisor wave whose record bears another number than 0 (R314): what refutes O29. -/
namespace Sys2Proof.Machine
open Sys2Proof.Claims

/-! ## A supervisor wave that bears the number 5 -/

/-- A one-lane supervisor wave with number 5 in place of 0: a live ring record stands at shared address 128, and buffer record 0 names it as its bound object. -/
def strayWave : Group :=
  { gid := 5, count := 1, slots := [0], alloc := [64], lanes := [{ x := 0, ctl := {}, g := Vector.replicate 64 0 }],
    k := vput (Vector.replicate 192 0) 5 128, shared := [⟨143, 0xC2⟩], size := 256, live := [8] }
/-- It issues at PC 0; a range entry at device address 0 maps the first page to itself, for reading. -/
def strayState : State :=
  ({ State.reset with cur := .lanes 0 0 0 0, mem := [⟨9, 0x10⟩, ⟨24, 3⟩] } : State).modDie 0 fun D => { D with sv := strayWave }
def strayWho : Who :=
  { d := 0, gid := 0, core := 0, hood := none, all := [0], xs := [0], pc := 0, chainPc := 0, hints := [], prog := 0 }

theorem strayState_ready : Ready strayState (.gath 0 8 0) strayWho strayWave where
  who := by rfl
  group := by rfl
  one := rfl
  check := by decide
  sel := by decide
  whole h := absurd rfl h
  free h := by cases h
  point _ h := by cases h
theorem strayWave_solo : Solo strayWave strayWho := .inr ⟨0, by decide, by decide⟩

/-! ## What GATH queues, and what the claim has it queue -/

/-- For each command of carder 0 of die 0, whether its bound object is taken for a ring. -/
def State.ringMarks (s : State) : List Bool := ((s.die 0).carder 0).queue.map (·.ring)
def ringMarksAfter : Res → List Bool
  | .next s => s.ringMarks
  | _ => []
/-- The state that the claim has GATH leave, apart from its thread, once it has captured `image`. -/
def strayClaimed (image : List Byte) (s1 : State) : State :=
  (s1.useRecord 0 0 (s1.buf strayWho 0)).enqueue 0 0 (rowsCmd s1 (strayState.taking strayWho) strayWave .gath 0 0 image)
/-- A capture succeeds, carder 0 takes the command, and the claim's command is marked as a ring's. -/
def claimsRing : Acc (List Byte × State) → Bool
  | .ok (image, s1) => s1.bulkCarder (strayState.taking strayWho) == some 0 && (strayClaimed image s1).ringMarks == [true]
  | .fault _ _ => false

theorem claimsRing_ok {r : Acc (List Byte × State)} (h : claimsRing r = true) :
    ∃ image s1, r = .ok (image, s1) ∧ s1.bulkCarder (strayState.taking strayWho) = some 0 ∧ (strayClaimed image s1).ringMarks = [true] := by
  match r with
  | .ok (image, s1) =>
    obtain ⟨hcarder, hmarks⟩ := (Bool.and_eq_true _ _).mp h
    exact ⟨image, s1, rfl, eq_of_beq hcarder, eq_of_beq hmarks⟩
  | .fault _ _ => cases h
/-- By the claim the ring is looked up in the issuing wave's group, 0. -/
theorem strayState_claimed : claimsRing (strayState.capture (strayState.taking strayWho) 0 128) = true := by decide +kernel
/-- The word looks it up in group 5, which does not exist. -/
theorem strayState_queues : ringMarksAfter (exec (.gath 0 8 0) strayState) = [false] := by decide +kernel

/-- What a word leaves apart from the supervisor wave holds the carders' queues. -/
theorem State.ringMarks_still (s : State) : (s.still strayWho).ringMarks = s.ringMarks := by
  unfold State.ringMarks State.still State.modGroup
  rw [show strayWho.d = 0 from rfl, State.die_modDie]
  rfl

/-- Refutes O29: GATH looks the bound object of its command up under the number of its group's record, the claim under the number of the issuing thread's
group. For a tenant's group both are one, as the group is found by its number; the supervisor wave is found as group 0 whatever number its record bears.
In `strayState` it bears 5: the command is queued as of no ring, where the claim has it queued as a ring's. What is missing is the hypothesis that the
supervisor wave bears number 0, as from reset on it does. -/
theorem not_bulkWordsQueue : ¬ Obligations.BulkWordsQueue := by
  unfold Obligations.BulkWordsQueue
  rintro ⟨-, hrows, -⟩
  obtain ⟨image, s1, hcapture, hcarder, hclaimed⟩ := claimsRing_ok strayState_claimed
  obtain ⟨t, hexec, hgoes⟩ := hrows strayState s1 strayWho strayWave false 0 8 0 image 0 strayState_ready strayWave_solo (by decide) hcapture hcarder
  have hsame : t.ringMarks = (strayClaimed image s1).ringMarks := by
    rw [← State.ringMarks_still, hgoes.still, State.ringMarks_still]
    rfl
  have hnone : t.ringMarks = [false] := by
    rw [← strayState_queues]
    exact (congrArg ringMarksAfter hexec).symm
  rw [hnone, hclaimed] at hsame
  exact absurd hsame (by decide)
end Sys2Proof.Machine
end

section
/-! PROOFS. What the events of the fabric do to its tables and packets (R89, R90, R98, R99). -/
namespace Sys2Proof.Machine
open Sys2Proof.Claims

/-! ## The first entry that satisfies a test -/

section
variable {α : Type} {p q : α → Bool} {f : α → Option α} {a b : α}

/-- A first entry that is removed. -/
theorem updFirst_none [DecidableEq α] : ∀ {l : List α}, l.find? p = some a → updFirst p (fun _ => none) l = l.erase a
  | [], h => by cases h
  | x :: l, h => by
    cases hx : p x with
    | true =>
      rw [List.find?_cons_of_pos hx] at h
      cases h
      simp [updFirst, hx]
    | false =>
      rw [List.find?_cons_of_neg (by simp [hx])] at h
      have hne : x ≠ a := by
        rintro rfl
        exact absurd (List.find?_some h) (by simp [hx])
      rw [List.erase_cons_tail (by simpa using hne), ← updFirst_none h]
      simp [updFirst, hx]
/-- A first entry that is changed to `b` is found as `b`, where no other entry can be found before it. -/
theorem find?_updFirst (hf : f a = some b) (hb : q b = true) : ∀ {l : List α}, l.find? p = some a → (∀ x ∈ l, p x = false → q x = false) →
    (updFirst p f l).find? q = some b
  | [], h, _ => by cases h
  | x :: l, h, hq => by
    cases hx : p x with
    | true =>
      rw [List.find?_cons_of_pos hx] at h
      cases h
      simp [updFirst, hx, hf, hb]
    | false =>
      rw [List.find?_cons_of_neg (by simp [hx])] at h
      have hrest := find?_updFirst hf hb h fun y hy => hq y (List.mem_cons_of_mem x hy)
      simp [updFirst, hx, hq x List.mem_cons_self hx, hrest]
/-- A test that the change keeps finds the changed entry. -/
theorem find?_updFirst_self {l : List α} (h : l.find? p = some a) (hf : f a = some b) (hb : p b = true) : (updFirst p f l).find? p = some b :=
  find?_updFirst hf hb h fun _ _ hx => hx
/-- An entry that stands last is the first one where none before it satisfies the test. -/
theorem updFirst_append : ∀ {l : List α}, l.find? p = none → p a = true → updFirst p f (l ++ [a]) = l ++ (f a).toList
  | [], _, ha => by cases h : f a <;> simp [updFirst, ha, h]
  | x :: l, h, ha => by
    have hx : p x = false := by simpa using List.find?_eq_none.mp h x List.mem_cons_self
    have hl : l.find? p = none := by rwa [List.find?_cons_of_neg (by simp [hx])] at h
    simp [updFirst, hx, updFirst_append hl ha]
theorem find?_append_last {l : List α} (h : l.find? p = none) (ha : p a = true) : (l ++ [a]).find? p = some a := by
  simp [h, ha]
end

/-- Leaving out an element, by either test. -/
theorem filter_bne {α : Type} [DecidableEq α] (l : List α) (a : α) : l.filter (· != a) = l.filter (· ≠ a) :=
  List.filter_congr fun x _ => by rw [bne, Bool.beq_eq_decide_eq, ← decide_not]

/-! ## Packets that a router sends -/

section
variable (s : State) (r : Router) (port : Port) (p : Packet)

theorem State.through_inPackage {port : Port} (h : inPackage port) : s.through r port p = s.post { p with at_ := port, src := .router r } := by
  cases port with
  | core d n => rfl
  | router q => rfl
  | link n rank => cases h
  | store => cases h
/-- Only packets are posted, or a link is used. -/
theorem State.through_cases : s.Signals (s.through r port p) ∨ s.through r port p = s.post { p with at_ := port, src := .router r } := by
  cases port with
  | core d n => exact .inr rfl
  | router q => exact .inr rfl
  | link n rank => exact .inl (.sendFrom ..)
  | store => exact .inl (.refl s)
theorem State.through_pend : (s.through r port p).pend = s.pend := by
  obtain h | h := s.through_cases r port p
  · rw [h.rest]
  · rw [h]; rfl
theorem State.through_packets {q : Packet} (hq : q ∈ s.packets) : q ∈ (s.through r port p).packets := by
  obtain h | h := s.through_cases r port p
  · rwa [h.rest]
  · rw [h]; exact List.mem_append_left _ hq
theorem State.mem_post : p ∈ (s.post p).packets := List.mem_append_right _ (List.mem_singleton_self p)
theorem State.through_sends {port : Port} (h : inPackage port) : { p with at_ := port, src := .router r } ∈ (s.through r port p).packets := by
  rw [s.through_inPackage r p h]
  exact State.mem_post ..
end

/-- A router sends a packet through several ports. -/
def State.relay (s : State) (r : Router) (ports : List Port) (p : Packet) : State := ports.foldl (fun (s : State) port => s.through r port p) s

section
variable (r : Router) (p : Packet)

theorem State.relay_cons (s : State) (port : Port) (ports : List Port) : s.relay r (port :: ports) p = (s.through r port p).relay r ports p := rfl
theorem State.relay_pend (s : State) (ports : List Port) : (s.relay r ports p).pend = s.pend := by
  induction ports generalizing s with
  | nil => rfl
  | cons port ports ih => rw [State.relay_cons, ih, State.through_pend]
theorem State.relay_packets {s : State} {q : Packet} (hq : q ∈ s.packets) (ports : List Port) : q ∈ (s.relay r ports p).packets := by
  induction ports generalizing s with
  | nil => exact hq
  | cons port ports ih => exact ih (State.through_packets s r port p hq)
/-- Each port inside the package gets it. -/
theorem State.relay_sends {port : Port} (hin : inPackage port) (s : State) {ports : List Port} (h : port ∈ ports) :
    { p with at_ := port, src := .router r } ∈ (s.relay r ports p).packets := by
  induction ports generalizing s with
  | nil => cases h
  | cons first ports ih =>
    rw [State.relay_cons]
    obtain rfl | h := List.mem_cons.mp h
    · exact State.relay_packets r p (s.through_sends r p hin) ports
    · exact ih _ h
end

section
variable (s : State) (r : Router) {port : Port} (hin : inPackage port) {p q : Packet} (hname : q.name = p.name) (hctx : q.ctx = p.ctx)
include hin hname hctx

theorem sentThrough_through : sentThrough (s.through r port q) r port q.kind p :=
  ⟨_, s.through_sends r q hin, rfl, rfl, rfl, hname, hctx⟩
theorem sentThrough_relay {ports : List Port} (h : port ∈ ports) : sentThrough (s.relay r ports q) r port q.kind p :=
  ⟨_, State.relay_sends r q hin s h, rfl, rfl, rfl, hname, hctx⟩
end

/-! ## Events of a packet -/

section
variable {s : State} {k : Nat} {p : Packet} (h : arrives s k p)
include h

/-- An event of a packet that may move acts for it. -/
theorem withPacket_arrives (f : Packet → State) : withPacket s k f = .next (f p) := by
  obtain ⟨hk, hold⟩ := h
  simp [withPacket, hk, hold]
theorem arrives_lt : k < s.packets.length := (List.getElem?_eq_some_iff.mp h.1).1
end

end Sys2Proof.Machine
end

section
/-! PROOFS. Interests and withdrawals at routers, and the deadlines of their entries (R98, R99): the first part of O55. -/
namespace Sys2Proof.Machine
open Sys2Proof.Claims

/-! ## Entries of a router -/

theorem State.pendAt_congr {s t : State} (h : t.pend = s.pend) (r : Router) (c : Ctx) (n : DWord) (st : PendState) :
    t.pendAt r c n st = s.pendAt r c n st := by
  unfold State.pendAt
  rw [h]
theorem State.pendAt_is {s : State} {r : Router} {c : Ctx} {n : DWord} {st : PendState} {e : PendEntry} (h : s.pendAt r c n st = some e) :
    e.is r c n st = true := by
  unfold State.pendAt at h
  simpa using List.find?_some h
theorem PendEntry.is_iff {e : PendEntry} {r : Router} {c : Ctx} {n : DWord} {st : PendState} :
    e.is r c n st = true ↔ e.at_ = r ∧ e.ctx = c ∧ e.name = n ∧ e.state = st := by
  simp [PendEntry.is, and_assoc]

section
variable (s : State) (k : Nat) (r : Router) (p : Packet)

/-- The packet is taken, and the waiting entry of its name changed. -/
def State.mergedAt (f : PendEntry → PendEntry) : State := (s.takePacket k).modPend r p.ctx p.name .wait fun e => some (f e)
/-- The waiting entry of its name is removed. -/
def State.droppedAt : State := (s.takePacket k).modPend r p.ctx p.name .wait fun _ => none
/-- The entry that an interest makes, with the port that it goes up by. -/
def Packet.entryAt (up : Option Port) : PendEntry :=
  { at_ := r, ctx := p.ctx, part := p.part, name := p.name, ports := [p.src], up := up, deadline := p.life, size := (NameEntry.of p.entry).bytes,
    state := .wait }
/-- The packet is taken, and its entry made. -/
def State.enteredAt (up : Option Port) : State := { s.takePacket k with pend := s.pend ++ [p.entryAt r up] }
/-- An entry whose deadline an interest puts off. -/
def PendEntry.later (e : PendEntry) : PendEntry := { e with deadline := max e.deadline p.life }

theorem Packet.entryAt_is (up : Option Port) : (p.entryAt r up).is r p.ctx p.name .wait = true := PendEntry.is_iff.mpr ⟨rfl, rfl, rfl, rfl⟩
end

section
variable {s : State} {k : Nat} {r : Router} {p : Packet} {e : PendEntry}

theorem State.pendAt_mergedAt (he : s.pendAt r p.ctx p.name .wait = some e) {f : PendEntry → PendEntry}
    (hf : (f e).is r p.ctx p.name .wait = true) : (s.mergedAt k r p f).pendAt r p.ctx p.name .wait = some (f e) :=
  find?_updFirst_self he rfl hf
theorem State.droppedAt_pend (he : s.pendAt r p.ctx p.name .wait = some e) : (s.droppedAt k r p).pend = s.pend.erase e := updFirst_none he
theorem State.pendAt_enteredAt (hnone : s.pendAt r p.ctx p.name .wait = none) (up : Option Port) :
    (s.enteredAt k r p up).pendAt r p.ctx p.name .wait = some (p.entryAt r up) :=
  find?_append_last hnone (p.entryAt_is r up)

/-! ## An interest at a router (R99) -/

theorem interestArrival_at (h : arrives s k p) (hr : p.at_ = .router r) (hk : p.kind = .interest) :
    exec (.interestArrival k) s = .next (s.interestAt k r p) := by
  refine (withPacket_arrives h _).trans ?_
  rw [hk, hr]

/-- From a port that waits already: the entry is refreshed, and the interest goes on. -/
theorem State.interestAt_refreshes (he : s.pendAt r p.ctx p.name .wait = some e) (hp : p.src ∈ e.ports) :
    s.interestAt k r p = e.up.elim (s.mergedAt k r p (·.later p)) fun up => (s.mergedAt k r p (·.later p)).through r up p := by
  unfold State.interestAt
  simp only [he, List.contains_iff_mem, hp, if_true]
  cases e.up <;> rfl
/-- From another port: it waits too. -/
theorem State.interestAt_joins (he : s.pendAt r p.ctx p.name .wait = some e) (hp : p.src ∉ e.ports) :
    s.interestAt k r p = s.mergedAt k r p fun e => { e.later p with ports := e.ports ++ [p.src] } := by
  unfold State.interestAt
  simp only [he, List.contains_iff_mem, hp, if_false]
  rfl

theorem State.countP_at (s : State) (r : Router) : s.pend.countP (·.at_ == r) = (s.pend.filter fun e => e.at_ = r).length := by
  rw [List.countP_eq_length_filter]
  rfl

section
variable (hnone : s.pendAt r p.ctx p.name .wait = none)
include hnone

theorem State.interestAt_full (hfull : 4096 ≤ (s.pend.filter fun e => e.at_ = r).length) : s.interestAt k r p = s := by
  unfold State.interestAt pendEntries
  simp only [hnone]
  rw [State.countP_at, if_pos hfull]

variable (hroom : (s.pend.filter fun e => e.at_ = r).length < 4096)
include hroom

/-- Below the home: held without a live way up, entered and sent on with one. -/
theorem State.interestAt_below (hr : r ≠ p.home) : s.interestAt k r p =
    (s.nextHop p r).elim s fun q => (s.enteredAt k r p (some (.router q))).through r (.router q) { p with via := p.via ++ [r] } := by
  unfold State.interestAt State.upPort pendEntries
  simp only [hnone]
  rw [State.countP_at, if_neg (not_le.mpr hroom), if_neg hr, if_neg hr]
  cases s.nextHop p r <;> rfl
/-- At the home: entered, and served by a tile that is stored there. -/
theorem State.interestAt_home (hr : r = p.home) (hrank : p.rank = none) : s.interestAt k r p =
    (s.stores.find? fun x => x.at_ == r && x.ctx == p.ctx && x.name == p.name).elim (s.enteredAt k r p none) fun x =>
      if x.serves s.clock then (s.enteredAt k r p none).startDelivery r (p.entryAt r none) x else s.enteredAt k r p none := by
  have hentry : (s.enteredAt k r p none).pendAt r p.ctx p.name .wait = some (p.entryAt r none) := State.pendAt_enteredAt hnone none
  unfold State.interestAt pendEntries
  simp only [hnone]
  rw [State.countP_at, if_neg (not_le.mpr hroom), if_pos hr, hrank]
  show (match (s.enteredAt k r p none).pendAt r p.ctx p.name .wait,
    s.stores.find? fun (x : StoreEntry) => x.at_ == r && x.ctx == p.ctx && x.name == p.name with
    | some e, some x => if x.serves s.clock then (s.enteredAt k r p none).startDelivery r e x else s.enteredAt k r p none
    | _, _ => s.enteredAt k r p none) = _
  rw [hentry]
  cases s.stores.find? fun (x : StoreEntry) => x.at_ == r && x.ctx == p.ctx && x.name == p.name <;> rfl
end
end

/-! ## A delivery starts from the home's store (R99, R101) -/

section
variable (s : State) (r : Router) (e : PendEntry) (x : StoreEntry)

/-- The header that a stored tile sends for an entry. -/
def StoreEntry.header : Packet :=
  { kind := .header, at_ := .router r, src := .store, ctx := e.ctx, part := x.part, name := e.name, home := r, rank := none, own := x.own,
    entry := tileBits x.size x.fmt, life := 0, bytes := [], die := x.die, pc := x.pc, via := [] }
/-- Chunk `c` of a stored tile. -/
def StoreEntry.chunk (c : Nat) : Packet := { x.header r e with kind := .chunk c, bytes := (x.bytes.drop (512 * c)).take 512 }
end

section
variable {s : State} {r : Router} {e : PendEntry} {x : StoreEntry}

theorem State.startDelivery_notice (h : e.size ≠ x.size) : s.startDelivery r e x =
    (s.modPend r e.ctx e.name .wait fun _ => none).relay r e.ports { x.header r e with kind := .sizeNotice } := by
  unfold State.startDelivery
  rw [if_pos h]
  rfl
theorem State.startDelivery_ecc (h : e.size = x.size) (hbad : x.bad ≠ []) : s.startDelivery r e x = s.storeEcc r x := by
  unfold State.startDelivery
  simp [h, hbad]
theorem State.startDelivery_sends (h : e.size = x.size) (hbad : x.bad = []) : s.startDelivery r e x =
    (List.range (chunks x.size)).foldl (fun (s : State) c => s.post (x.chunk r e c))
      ((s.modPend r e.ctx e.name .wait fun e => some { e with state := .deliv }).post (x.header r e)) := by
  unfold State.startDelivery
  rw [if_neg (by simp [h]), if_neg (by simp [hbad])]
  rfl

theorem foldl_post_packets (f : Nat → Packet) (l : List Nat) (s : State) :
    (l.foldl (fun (s : State) c => s.post (f c)) s).packets = s.packets ++ l.map f := by
  induction l generalizing s with
  | nil => simp
  | cons c l ih => rw [List.foldl_cons, ih]; simp [State.post]
theorem foldl_post_pend (f : Nat → Packet) (l : List Nat) (s : State) : (l.foldl (fun (s : State) c => s.post (f c)) s).pend = s.pend := by
  induction l generalizing s with
  | nil => rfl
  | cons c l ih => exact ih _

/-- A chunk in error halts the partition that owns the name (R100, R317). -/
theorem haltsWith_storeEcc {s u : State} (hl : u.layout = s.layout) (hp : u.parts = s.parts) (hpart : ∃ d, s.partOf d = x.part) :
    ∃ d, s.partOf d = x.part ∧ haltsWith s (u.storeEcc r x) d Cause.ecc := by
  have hof (d : DieId) : u.partOf d = s.partOf d := congrArg (fun v : Vector PartId 8 => v.get d) hl
  have hfirst (z : DieId) : s.partOf ((u.diesOf x.part).headD z) = x.part := by
    obtain ⟨d, hd⟩ := hpart
    have hmem : d ∈ u.diesOf x.part := List.mem_filter.mpr ⟨mem_allDies d, by simp [hof, hd]⟩
    cases hdies : u.diesOf x.part with
    | nil => rw [hdies] at hmem; cases hmem
    | cons d' l =>
      have hd' : d' ∈ u.diesOf x.part := hdies ▸ List.mem_cons_self
      rw [List.headD_cons, ← hof]
      exact eq_of_beq (List.mem_filter.mp hd').2
  refine ⟨_, ?_, haltsWith_raiseFault hl hp⟩
  dsimp only
  split
  · split
    · next hd => rw [← hof]; exact eq_of_beq hd
    · exact hfirst _
  · exact hfirst _

end

/-! ## The clauses on interests -/

section
variable {s : State} {k : Nat} {p : Packet} {r : Router} (h : arrives s k p) (hr : p.at_ = .router r)
include h hr

section
variable (hk : p.kind = .interest)
include hk

theorem interest_refreshes {e : PendEntry} (he : s.pendAt r p.ctx p.name .wait = some e) (hp : p.src ∈ e.ports) :
    yields s (.interestArrival k) fun t => t.pendAt r p.ctx p.name .wait = some { e with deadline := max e.deadline p.life } ∧
      ∀ q, e.up = some (.router q) → sentThrough t r (.router q) .interest p := by
  have hwait := State.pendAt_is he
  have hpend : (s.mergedAt k r p (·.later p)).pendAt r p.ctx p.name .wait = some (e.later p) := State.pendAt_mergedAt he hwait
  refine ⟨_, interestArrival_at h hr hk, ?_⟩
  rw [State.interestAt_refreshes he hp]
  refine ⟨(State.pendAt_congr ?_ ..).trans hpend, fun q hq => ?_⟩
  · cases e.up with
    | none => rfl
    | some up => exact State.through_pend ..
  · rw [hq]
    exact hk ▸ sentThrough_through (port := .router q) _ r trivial rfl rfl
theorem interest_joins {e : PendEntry} (he : s.pendAt r p.ctx p.name .wait = some e) (hp : p.src ∉ e.ports) :
    yields s (.interestArrival k) fun t => t.packets = s.packets.eraseIdx k ∧
      t.pendAt r p.ctx p.name .wait = some { e with deadline := max e.deadline p.life, ports := e.ports ++ [p.src] } := by
  refine ⟨_, interestArrival_at h hr hk, ?_⟩
  rw [State.interestAt_joins he hp]
  have hwait := State.pendAt_is he
  exact ⟨rfl, State.pendAt_mergedAt he hwait⟩

section
variable (hnone : s.pendAt r p.ctx p.name .wait = none)
include hnone

theorem interest_full (hfull : 4096 ≤ (s.pend.filter fun e => e.at_ = r).length) : idle s (.interestArrival k) := by
  rw [idle, interestArrival_at h hr hk, State.interestAt_full hnone hfull]

variable (hroom : (s.pend.filter fun e => e.at_ = r).length < 4096)
include hroom

theorem interest_held (hne : r ≠ p.home) (hq : s.nextHop p r = none) : idle s (.interestArrival k) := by
  rw [idle, interestArrival_at h hr hk, State.interestAt_below hnone hroom hne, hq]
  rfl
theorem interest_goesUp {q : Router} (hne : r ≠ p.home) (hq : s.nextHop p r = some q) : yields s (.interestArrival k) fun t =>
    t.pendAt r p.ctx p.name .wait = some (p.entryAt r (some (.router q))) ∧ sentThrough t r (.router q) .interest p := by
  refine ⟨_, interestArrival_at h hr hk, ?_⟩
  rw [State.interestAt_below hnone hroom hne, hq, Option.elim_some]
  exact ⟨(State.pendAt_congr (State.through_pend ..) ..).trans (State.pendAt_enteredAt hnone _),
    hk ▸ sentThrough_through (port := .router q) (q := { p with via := p.via ++ [r] }) _ r trivial rfl rfl⟩

variable (hhome : r = p.home) (hrank : p.rank = none)
include hhome hrank

theorem interest_waitsAtHome (hserve : ∀ x ∈ s.stores, x.at_ = r → x.ctx = p.ctx → x.name = p.name → x.serves s.clock = false) :
    yields s (.interestArrival k) fun t => t.pendAt r p.ctx p.name .wait = some (p.entryAt r none) ∧ t.packets = s.packets.eraseIdx k := by
  refine ⟨_, interestArrival_at h hr hk, ?_⟩
  have hentered : s.interestAt k r p = s.enteredAt k r p none := by
    rw [State.interestAt_home hnone hroom hhome hrank]
    cases hfind : s.stores.find? fun x => x.at_ == r && x.ctx == p.ctx && x.name == p.name with
    | none => rfl
    | some x =>
      have hx := List.find?_some hfind
      simp only [Bool.and_eq_true, beq_iff_eq] at hx
      exact if_neg (by rw [hserve x (List.mem_of_find?_eq_some hfind) hx.1.1 hx.1.2 hx.2]; decide)
  rw [hentered]
  exact ⟨State.pendAt_enteredAt hnone none, rfl⟩

section
variable {x : StoreEntry} (hx : s.stores.find? (fun x => x.at_ == r && x.ctx == p.ctx && x.name == p.name) = some x) (hserve : x.serves s.clock = true)
include hx hserve

/-- A tile that is stored there is delivered. -/
theorem interestArrival_delivers :
    exec (.interestArrival k) s = .next ((s.enteredAt k r p none).startDelivery r (p.entryAt r none) x) := by
  rw [interestArrival_at h hr hk, State.interestAt_home hnone hroom hhome hrank, hx]
  exact congrArg Host.Outcome.next (if_pos hserve)
theorem interest_sizeDiffers (hsize : x.size ≠ (NameEntry.of p.entry).bytes) (hin : inPackage p.src) : yields s (.interestArrival k) fun t =>
    t.pendAt r p.ctx p.name .wait = none ∧ sentThrough t r p.src .sizeNotice p := by
  refine ⟨_, interestArrival_delivers h hr hk hnone hroom hhome hrank hx hserve, ?_⟩
  rw [State.startDelivery_notice (Ne.symm hsize)]
  have hdrop : ((s.enteredAt k r p none).modPend r p.ctx p.name .wait fun _ => none).pend = s.pend :=
    (updFirst_append hnone (p.entryAt_is r none)).trans (List.append_nil _)
  refine ⟨(State.pendAt_congr ((State.relay_pend ..).trans hdrop) ..).trans hnone, ?_⟩
  exact sentThrough_relay (q := { x.header r (p.entryAt r none) with kind := .sizeNotice }) _ r hin rfl rfl (List.mem_singleton_self _)
theorem interest_chunkBad (hsize : x.size = (NameEntry.of p.entry).bytes) (hbad : x.bad ≠ []) : yields s (.interestArrival k) fun t =>
    (∃ d, s.partOf d = x.part) → ∃ d, s.partOf d = x.part ∧ haltsWith s t d Cause.ecc := by
  refine ⟨_, interestArrival_delivers h hr hk hnone hroom hhome hrank hx hserve, ?_⟩
  rw [State.startDelivery_ecc hsize.symm hbad]
  exact haltsWith_storeEcc rfl rfl
theorem interest_served (hsize : x.size = (NameEntry.of p.entry).bytes) (hbad : x.bad = []) : yields s (.interestArrival k) fun t =>
    (∃ e ∈ t.pend, e = { p.entryAt r none with state := .deliv }) ∧
    (∃ q ∈ t.packets, q.kind = .header ∧ q.at_ = .router r ∧ q.src = .store ∧ q.name = p.name ∧ q.ctx = p.ctx) ∧
    ∀ c < chunks x.size, ∃ q ∈ t.packets, q.kind = .chunk c ∧ q.at_ = .router r ∧ q.name = p.name ∧
      q.bytes = (x.bytes.drop (512 * c)).take 512 := by
  refine ⟨_, interestArrival_delivers h hr hk hnone hroom hhome hrank hx hserve, ?_⟩
  rw [State.startDelivery_sends hsize.symm hbad]
  dsimp only
  rw [foldl_post_pend, foldl_post_packets]
  have hpend : ((s.enteredAt k r p none).modPend r p.ctx p.name .wait fun e => some { e with state := .deliv }).pend =
      s.pend ++ [{ p.entryAt r none with state := .deliv }] := updFirst_append hnone (p.entryAt_is r none)
  refine ⟨⟨_, ?_, rfl⟩, ⟨x.header r (p.entryAt r none), List.mem_append_left _ (State.mem_post ..), rfl, rfl, rfl, rfl, rfl⟩, fun c hc => ?_⟩
  · exact hpend ▸ List.mem_append_right _ (List.mem_singleton_self _)
  · exact ⟨x.chunk r (p.entryAt r none) c, List.mem_append_right _ (List.mem_map_of_mem (List.mem_range.mpr hc)), rfl, rfl, rfl, rfl⟩
end
end
end

/-! ## Withdrawals -/

section
variable (hk : p.kind = .withdrawal)
include hk

theorem withdrawalArrival_at : exec (.withdrawalArrival k) s = .next (s.withdrawalAt k r p) := by
  refine (withPacket_arrives h _).trans ?_
  rw [hk, hr]
theorem withdrawal_unknown (hnone : s.pendAt r p.ctx p.name .wait = none) :
    yields s (.withdrawalArrival k) fun t => t.pend = s.pend ∧ t.packets = s.packets.eraseIdx k := by
  refine ⟨_, withdrawalArrival_at h hr hk, ?_⟩
  unfold State.withdrawalAt
  simp only [hnone]
  exact ⟨rfl, rfl⟩

variable {e : PendEntry} (he : s.pendAt r p.ctx p.name .wait = some e)
include he

theorem withdrawal_leaves (hports : e.ports.filter (· ≠ p.src) ≠ []) : yields s (.withdrawalArrival k) fun t =>
    t.pendAt r p.ctx p.name .wait = some { e with ports := e.ports.filter (· ≠ p.src) } := by
  have hgoes : s.withdrawalAt k r p = s.mergedAt k r p fun e' => { e' with ports := e.ports.filter (· ≠ p.src) } := by
    unfold State.withdrawalAt
    simp only [he, filter_bne]
    exact if_pos (by simpa using hports)
  refine ⟨_, withdrawalArrival_at h hr hk, ?_⟩
  have hwait := State.pendAt_is he
  rw [hgoes]
  exact State.pendAt_mergedAt (f := fun e' => { e' with ports := e.ports.filter (· ≠ p.src) }) he hwait
theorem withdrawal_last (hports : e.ports.filter (· ≠ p.src) = []) : yields s (.withdrawalArrival k) fun t => t.pend = s.pend.erase e ∧
    ∀ q, e.up = some (.router q) → sentThrough t r (.router q) .withdrawal p := by
  have hgoes : s.withdrawalAt k r p = e.up.elim (s.droppedAt k r p) fun up => (s.droppedAt k r p).through r up p := by
    unfold State.withdrawalAt
    simp only [he, filter_bne, hports]
    cases e.up <;> rfl
  refine ⟨_, withdrawalArrival_at h hr hk, ?_⟩
  rw [hgoes]
  refine ⟨Eq.trans ?_ (State.droppedAt_pend (k := k) he), fun q hq => ?_⟩
  · cases e.up with
    | none => rfl
    | some up => exact State.through_pend ..
  · rw [hq]
    exact hk ▸ sentThrough_through (port := .router q) _ r trivial rfl rfl
end
end

/-! ## Deadlines -/

section
variable {s : State} {k : Nat} {e : PendEntry}

theorem pendingDeadline_eq (he : s.pend[k]? = some e) : exec (.pendingDeadline k) s =
    .next (if e.state == .wait && decide (e.deadline < s.clock) then { s with pend := s.pend.eraseIdx k } else s) := by
  show execPendingDeadline k s = _
  unfold execPendingDeadline
  rw [he]
theorem pendingDeadline_frees (he : s.pend[k]? = some e) (hwait : e.state = .wait) (hlate : e.deadline < s.clock) :
    exec (.pendingDeadline k) s = .next { s with pend := s.pend.eraseIdx k } := by
  rw [pendingDeadline_eq he, if_pos (by simp [hwait, hlate])]
theorem pendingDeadline_waits (he : s.pend[k]? = some e) (h : e.state ≠ .wait ∨ s.clock ≤ e.deadline) : idle s (.pendingDeadline k) := by
  rw [idle, pendingDeadline_eq he, if_neg]
  simp only [Bool.and_eq_true, beq_iff_eq, decide_eq_true_eq, not_and, not_lt]
  exact fun hwait => h.resolve_left fun hne => hne hwait
theorem pendingDeadline_none (h : s.pend[k]? = none) : idle s (.pendingDeadline k) := by
  show execPendingDeadline k s = _
  unfold execPendingDeadline
  rw [h]
end

theorem interestsAtRouters : InterestsAtRouters := by
  intro s k
  refine ⟨fun p r h hr => ⟨fun hk => ⟨fun e he => ⟨interest_refreshes h hr hk he, interest_joins h hr hk he⟩, fun hnone => ?_⟩, fun hk => ?_⟩,
    fun e => pendingDeadline_frees, fun e => pendingDeadline_waits, pendingDeadline_none⟩
  · exact ⟨interest_full h hr hk hnone, interest_held h hr hk hnone, fun q hroom => interest_goesUp h hr hk hnone hroom,
      interest_waitsAtHome h hr hk hnone, fun x hroom hhome hrank hx hserve =>
        ⟨interest_sizeDiffers h hr hk hnone hroom hhome hrank hx hserve, interest_chunkBad h hr hk hnone hroom hhome hrank hx hserve,
          interest_served h hr hk hnone hroom hhome hrank hx hserve⟩⟩
  · exact ⟨withdrawal_unknown h hr hk, fun e he => ⟨withdrawal_leaves h hr hk he, withdrawal_last h hr hk he⟩⟩

end Sys2Proof.Machine
end

section
/-! PROOFS. Headers, SIZE notices and chunks at routers (R99, R102, R103): the second part of O55. -/
namespace Sys2Proof.Machine
open Sys2Proof.Claims

/-! ## Which entry a packet of a delivery is for -/

section
variable (p : Packet) (r : Router) (e : PendEntry)

/-- An entry waits for what comes from where the packet comes from. -/
def Packet.isAwaited : Bool := e.is r p.ctx p.name .wait && e.up == some p.src
/-- A delivery of the packet's name is under way to an entry of a home, whose store sends it. -/
def Packet.isStores : Bool := e.is r p.ctx p.name .deliv && e.up.isNone && p.src == .store
/-- A delivery to an entry is under way from where the packet comes from. -/
def Packet.isFollowed : Bool := e.is r p.ctx p.name .deliv && (e.up == some p.src || (e.up.isNone && p.src == .store))
end

section
variable {s : State} {k : Nat} {r : Router} {p : Packet} {e : PendEntry}

/-- The packet is taken, and the entry that waits for it is under delivery. -/
def State.deliveringAt (s : State) (k : Nat) (r : Router) (p : Packet) : State :=
  { s.takePacket k with pend := updFirst (p.isAwaited r) (fun e => some { e with state := .deliv }) s.pend }
/-- The packet is taken, and the entry that waits for it is removed. -/
def State.endedAt (s : State) (k : Nat) (r : Router) (p : Packet) : State :=
  { s.takePacket k with pend := updFirst (p.isAwaited r) (fun _ => none) s.pend }

/-! ## A header at a router -/

section
variable (he : s.pend.find? (p.isAwaited r) = some e)
include he

theorem State.headerAt_eq : s.headerAt k r p =
    if p.kind == .header && e.size == (NameEntry.of p.entry).bytes then
      if (s.pendAt r p.ctx p.name .deliv).isSome then s else (s.deliveringAt k r p).relay r e.ports p
    else (s.endedAt k r p).relay r e.ports { p with kind := .sizeNotice } := by
  unfold State.headerAt
  dsimp only
  split
  · next hnone => exact absurd (he.symm.trans hnone) (by simp)
  · next e' he' =>
    cases he.symm.trans he'
    rfl
theorem State.headerAt_delivers (hk : p.kind = .header) (hsize : e.size = (NameEntry.of p.entry).bytes)
    (hfirst : s.pendAt r p.ctx p.name .deliv = none) : s.headerAt k r p = (s.deliveringAt k r p).relay r e.ports p := by
  rw [State.headerAt_eq he, if_pos (by simp [hk, hsize]), if_neg (by simp [hfirst])]
theorem State.headerAt_waits (hk : p.kind = .header) (hsize : e.size = (NameEntry.of p.entry).bytes)
    (hsecond : s.pendAt r p.ctx p.name .deliv ≠ none) : s.headerAt k r p = s := by
  rw [State.headerAt_eq he, if_pos (by simp [hk, hsize]), if_pos (Option.isSome_iff_ne_none.mpr hsecond)]
theorem State.headerAt_ends (hk : p.kind = .sizeNotice ∨ e.size ≠ (NameEntry.of p.entry).bytes) :
    s.headerAt k r p = (s.endedAt k r p).relay r e.ports { p with kind := .sizeNotice } := by
  rw [State.headerAt_eq he, if_neg]
  obtain hk | hsize := hk
  · simp [hk]
  · simp [hsize]
theorem State.endedAt_pend : (s.endedAt k r p).pend = s.pend.erase e := updFirst_none he
theorem State.pendAt_deliveringAt (hfirst : s.pendAt r p.ctx p.name .deliv = none) :
    (s.deliveringAt k r p).pendAt r p.ctx p.name .deliv = some { e with state := .deliv } := by
  have hawaited : p.isAwaited r e = true := List.find?_some he
  obtain ⟨hat, hctx, hname, -⟩ := PendEntry.is_iff.mp (Bool.and_eq_true_iff.mp hawaited).1
  have hothers (x) (hx : x ∈ s.pend) : x.is r p.ctx p.name .deliv = false := by simpa using List.find?_eq_none.mp hfirst x hx
  have hdeliv : ({ e with state := .deliv } : PendEntry).is r p.ctx p.name .deliv = true := by simp [PendEntry.is, hat, hctx, hname]
  exact find?_updFirst (q := fun x => x.is r p.ctx p.name .deliv) (f := fun e => some { e with state := .deliv }) rfl hdeliv he
    fun x hx _ => hothers x hx
end

theorem State.headerAt_stores (hnone : s.pend.find? (p.isAwaited r) = none) (he : s.pend.find? (p.isStores r) = some e) :
    s.headerAt k r p = (s.takePacket k).relay r e.ports p := by
  unfold State.headerAt
  dsimp only
  split
  · split
    · next e' he' =>
      cases he.symm.trans he'
      rfl
    · next he' => exact absurd (he.symm.trans he') (by simp)
  · next e' he' => exact absurd (hnone.symm.trans he') (by simp)

section
variable (h : arrives s k p) (hr : p.at_ = .router r)
include h hr

theorem tileHeaderArrival_at (hk : p.kind = .header ∨ p.kind = .sizeNotice) : exec (.tileHeaderArrival k) s = .next (s.headerAt k r p) := by
  refine (withPacket_arrives h _).trans ?_
  obtain hk | hk := hk
  · rw [hk, hr]
  · rw [hk, hr]

section
variable (he : s.pend.find? (p.isAwaited r) = some e)
include he

theorem header_delivers (hk : p.kind = .header) (hsize : e.size = (NameEntry.of p.entry).bytes) (hfirst : s.pendAt r p.ctx p.name .deliv = none) :
    yields s (.tileHeaderArrival k) fun t => t.pendAt r p.ctx p.name .deliv = some { e with state := .deliv } ∧
      ∀ port ∈ e.ports, inPackage port → sentThrough t r port .header p := by
  refine ⟨_, tileHeaderArrival_at h hr (.inl hk), ?_⟩
  rw [State.headerAt_delivers he hk hsize hfirst]
  exact ⟨(State.pendAt_congr (State.relay_pend ..) ..).trans (State.pendAt_deliveringAt he hfirst),
    fun port hport hin => hk ▸ sentThrough_relay _ r hin rfl rfl hport⟩
theorem header_waits (hk : p.kind = .header) (hsize : e.size = (NameEntry.of p.entry).bytes) (hsecond : s.pendAt r p.ctx p.name .deliv ≠ none) :
    idle s (.tileHeaderArrival k) := by
  rw [idle, tileHeaderArrival_at h hr (.inl hk), State.headerAt_waits he hk hsize hsecond]
theorem header_ends (hk : p.kind = .header ∨ p.kind = .sizeNotice) (hends : p.kind = .sizeNotice ∨ e.size ≠ (NameEntry.of p.entry).bytes) :
    yields s (.tileHeaderArrival k) fun t => t.pend = s.pend.erase e ∧ ∀ port ∈ e.ports, inPackage port → sentThrough t r port .sizeNotice p := by
  refine ⟨_, tileHeaderArrival_at h hr hk, ?_⟩
  rw [State.headerAt_ends he hends]
  exact ⟨(State.relay_pend ..).trans (State.endedAt_pend he),
    fun port hport hin => sentThrough_relay (q := { p with kind := .sizeNotice }) _ r hin rfl rfl hport⟩
end

theorem header_fromStore (hk : p.kind = .header) (hsrc : p.src = .store)
    (hnone : s.pend.find? (fun e => e.is r p.ctx p.name .wait && e.up == some .store) = none)
    (he : s.pend.find? (fun e => e.is r p.ctx p.name .deliv && e.up.isNone) = some e) :
    yields s (.tileHeaderArrival k) fun t => t.pend = s.pend ∧ ∀ port ∈ e.ports, inPackage port → sentThrough t r port .header p := by
  have hawaited : s.pend.find? (p.isAwaited r) = none := by
    unfold Packet.isAwaited
    rw [hsrc]
    exact hnone
  have hstores : s.pend.find? (p.isStores r) = some e := by
    unfold Packet.isStores
    simpa [hsrc] using he
  refine ⟨_, tileHeaderArrival_at h hr (.inl hk), ?_⟩
  rw [State.headerAt_stores hawaited hstores]
  exact ⟨State.relay_pend .., fun port hport hin => hk ▸ sentThrough_relay _ r hin rfl rfl hport⟩

/-! ## A chunk at a router -/

section
variable {c : Nat} (hk : p.kind = .chunk c) (he : s.pend.find? (p.isFollowed r) = some e)
include hk he

theorem chunkLanding_at : exec (.chunkLanding k) s = .next (let u := (s.takePacket k).relay r e.ports p
    if c + 1 = chunks e.size then { u with pend := updFirst (p.isFollowed r) (fun _ => none) u.pend } else u) := by
  refine (withPacket_arrives h _).trans ?_
  rw [hk, hr]
  dsimp only
  split
  · next hnone => exact absurd (he.symm.trans hnone) (by simp)
  · next e' he' =>
    cases he.symm.trans he'
    rfl
theorem chunk_passes : yields s (.chunkLanding k) fun t => t.pend = (if c + 1 = chunks e.size then s.pend.erase e else s.pend) ∧
    ∀ port ∈ e.ports, inPackage port → ∃ q ∈ t.packets, q.at_ = port ∧ q.src = .router r ∧ q.kind = p.kind ∧ q.name = p.name ∧ q.bytes = p.bytes := by
  have hpend : ((s.takePacket k).relay r e.ports p).pend = s.pend := State.relay_pend ..
  have hsent (port) (hport : port ∈ e.ports) (hin : inPackage port) : ∃ q ∈ ((s.takePacket k).relay r e.ports p).packets,
      q.at_ = port ∧ q.src = .router r ∧ q.kind = p.kind ∧ q.name = p.name ∧ q.bytes = p.bytes :=
    ⟨_, State.relay_sends r p hin _ hport, rfl, rfl, rfl, rfl, rfl⟩
  refine ⟨_, chunkLanding_at h hr hk he, ?_⟩
  dsimp only
  split
  · exact ⟨(congrArg _ hpend).trans (updFirst_none he), hsent⟩
  · exact ⟨hpend, hsent⟩
end
end
end

end Sys2Proof.Machine
end

section
/-! PROOFS. Tiles that reach their cores, and interests that outlive their lifetime (R99, R102 to R104): the third part of O55. -/
namespace Sys2Proof.Machine
open Sys2Proof.Claims

/-! ## Several faults of one cause -/

theorem firstOf_some (g : Option FaultRec) (f : FaultRec) : ∃ x, firstOf g f = some x ∧ (x = f ∨ g = some x) := by
  cases g with
  | none => exact ⟨f, rfl, .inl rfl⟩
  | some g =>
    by_cases h : f.before g = true
    · exact ⟨f, by simp [firstOf, h], .inl rfl⟩
    · exact ⟨g, by simp [firstOf, h], .inr rfl⟩
theorem foldl_firstOf_mem {l : List FaultRec} : ∀ {g : Option FaultRec} {x : FaultRec}, l.foldl firstOf g = some x → x ∈ l ∨ g = some x := by
  induction l with
  | nil => exact fun h => .inr h
  | cons f l ih =>
    intro g x h
    obtain h | h := ih h
    · exact .inl (List.mem_cons_of_mem f h)
    · obtain ⟨y, hy, hor⟩ := firstOf_some g f
      cases hy.symm.trans h
      obtain rfl | hgx := hor
      · exact .inl List.mem_cons_self
      · exact .inr hgx
/-- The first pending fault has its bit set. -/
theorem Part.pending_bit {P : Part} {g : FaultRec} (h : P.pending = some g) : tpendBit g.stop.cause &&& P.tpend ≠ 0 := by
  obtain h | h := foldl_firstOf_mem h
  · simpa using (List.mem_filter.mp h).2
  · cases h
/-- A cause whose bit is set adds nothing to sys.tpend. -/
theorem tpendBit_or {c : Cause} {v : BitVec 5} (h : tpendBit c &&& v ≠ 0) : v ||| tpendBit c = v := by
  unfold tpendBit at *
  split_ifs at * <;> revert v <;> decide
theorem State.recorded_cause (s : State) (f : FaultRec) : (s.recorded f).stop.cause = f.stop.cause := by
  unfold State.recorded State.tallied
  split_ifs <;> rfl

/-- A partition that halts with a cause still does after another fault of that cause. -/
theorem haltsWith_again {s t : State} {f : FaultRec} (h : haltsWith s t f.die f.stop.cause) (hl : t.layout = s.layout) :
    haltsWith s (t.raiseFault f) f.die f.stop.cause := by
  have hpart : s.partOf f.die = t.partOf f.die := congrArg (fun v : Vector PartId 8 => v.get f.die) hl.symm
  obtain ⟨hhalt, hpending⟩ := h
  refine ⟨hpart ▸ t.raiseFault_halt f, fun hran => ?_⟩
  obtain ⟨g, hg, hcause⟩ := hpending hran
  rw [hpart] at hhalt hg ⊢
  have hbit := Part.pending_bit hg
  rw [hcause] at hbit
  have hraised : (t.part (t.partOf f.die)).raised t.clock f.stop.cause = t.part (t.partOf f.die) := by
    rw [Part.raised, if_pos hhalt, tpendBit_or hbit]
  rw [State.part_raiseFault, State.part_withFault, hraised]
  have hfold : ({ t.part (t.partOf f.die) with faults := (t.part (t.partOf f.die)).faults ++ [t.recorded f] } : Part).pending =
      firstOf (some g) (t.recorded f) := by
    have hkept : [t.recorded f].filter (fun x => tpendBit x.stop.cause &&& (t.part (t.partOf f.die)).tpend != 0) = [t.recorded f] :=
      List.filter_cons_of_pos (by rw [State.recorded_cause]; simpa using hbit)
    rw [← hg, Part.pending, List.filter_append, List.foldl_append, hkept]
    rfl
  obtain ⟨x, hx, hor⟩ := firstOf_some (some g) (t.recorded f)
  refine ⟨x, hfold.trans hx, ?_⟩
  obtain rfl | hgx := hor
  · exact t.recorded_cause f
  · cases hgx
    exact hcause

/-! ## Faults of queued interests -/

section
variable (s : State) (d : DieId) (i : Interest) (c : Cause) (fa : DWord)

/-- The fault of an interest halts its partition, or is the supervisor wave's own. -/
theorem State.interestFault_cases : (i.gid = 0 ∧ ∃ f, s.interestFault d i c fa = s.raiseSv d f) ∨
    (i.gid ≠ 0 ∧ ∃ f, s.interestFault d i c fa = s.raiseFault f ∧ f.die = d ∧ f.stop.cause = c) := by
  unfold State.interestFault State.fabricFault
  by_cases h : i.gid = 0
  · exact .inl ⟨h, _, if_pos h⟩
  · exact .inr ⟨h, _, if_neg h, rfl, rfl⟩
theorem State.Signals.interestFault : s.Signals (s.interestFault d i c fa) := by
  obtain ⟨-, f, h⟩ | ⟨-, f, h, -⟩ := s.interestFault_cases d i c fa
  · rw [h]; exact .raiseSv ..
  · rw [h]; exact .raiseFault ..
end

section
variable {s : State} {d : DieId} {c : Cause}

theorem haltsWith_interestFault {u : State} {i : Interest} (hl : u.layout = s.layout) (hp : u.parts = s.parts) (hg : i.gid ≠ 0) (fa : DWord) :
    haltsWith s (u.interestFault d i c fa) d c := by
  obtain ⟨h, -⟩ | ⟨-, f, h, rfl, rfl⟩ := u.interestFault_cases d i c fa
  · exact absurd h hg
  · rw [h]
    exact haltsWith_raiseFault hl hp
theorem haltsWith_interestFault_again {u : State} {i : Interest} (h : haltsWith s u d c) (hl : u.layout = s.layout) (fa : DWord) :
    haltsWith s (u.interestFault d i c fa) d c := by
  obtain ⟨-, f, hf⟩ | ⟨-, f, hf, rfl, rfl⟩ := u.interestFault_cases d i c fa
  · rw [hf]; exact h
  · rw [hf]; exact haltsWith_again h hl

/-- Faults of several interests, in the order of the table: the partition of one that is not the supervisor wave's halts. -/
theorem haltsWith_interestFaults {fa : Interest → DWord} {l : List Interest} : ∀ {u : State}, u.layout = s.layout →
    haltsWith s u d c ∨ (u.parts = s.parts ∧ ∃ i ∈ l, i.gid ≠ 0) →
    haltsWith s (l.foldl (fun (u : State) i => u.interestFault d i c (fa i)) u) d c := by
  induction l with
  | nil =>
    intro u _ h
    exact h.resolve_right fun ⟨_, i, hi, _⟩ => by cases hi
  | cons i l ih =>
    intro u hl h
    refine ih ((State.Signals.interestFault ..).layout.trans hl) ?_
    obtain h | ⟨hp, j, hj, hg⟩ := h
    · exact .inl (haltsWith_interestFault_again h hl (fa i))
    · obtain ⟨hi, f, hf⟩ | ⟨hi, -⟩ := u.interestFault_cases d i c (fa i)
      · refine .inr ⟨(congrArg State.parts hf).trans hp, j, (List.mem_cons.mp hj).resolve_left ?_, hg⟩
        rintro rfl
        exact hg hi
      · exact .inl (haltsWith_interestFault hl hp hi (fa i))
end

/-! ## A header or a SIZE notice at a core (R99) -/

section
variable (s : State) (d : DieId) {P : Interest → Bool}

theorem State.modInterests_unused (f : Interest → Option Interest) (h : ∀ i ∈ (s.die d).active.interests, P i = false) :
    ((s.modInterests d P f).die d).active.interests = (s.die d).active.interests := by
  rw [State.modInterests_interests, List.filterMap_congr (g := some) fun i hi => if_neg (by simp [h i hi]), List.filterMap_some]
theorem State.modInterests_map (f : Interest → Interest) : ((s.modInterests d P fun i => some (f i)).die d).active.interests =
    (s.die d).active.interests.map fun i => if P i then f i else i := by
  rw [State.modInterests_interests, ← List.filterMap_eq_map]
  exact List.filterMap_congr fun i _ => (apply_ite some ..).symm
theorem State.modInterests_filter : ((s.modInterests d P fun _ => none).die d).active.interests =
    (s.die d).active.interests.filter fun i => !P i := by
  rw [State.modInterests_interests, ← List.filterMap_eq_filter]
  refine List.filterMap_congr fun i _ => ?_
  cases hP : P i <;> simp [Option.guard, hP]
end

section
variable (s : State) (d : DieId) (n : Nat) (p : Packet)

/-- `wants`, as a test. -/
def State.wantsNow (st : InterestState) (i : Interest) : Bool := s.interestOf d n p i && i.state == st
/-- A header of the size that an interest captured. -/
def Packet.fits (i : Interest) : Bool := p.kind == .header && (NameEntry.of i.entry).bytes == (NameEntry.of p.entry).bytes

theorem State.wantsNow_iff (st : InterestState) (i : Interest) : s.wantsNow d n p st i = true ↔ wants s d n p st i := by
  simp [State.wantsNow, State.interestOf, wants, and_assoc]
theorem State.wantsNow_takePacket (k : Nat) (st : InterestState) : (s.takePacket k).wantsNow d n p st = s.wantsNow d n p st := rfl
theorem Packet.fits_iff (i : Interest) : p.fits i = true ↔ p.kind = .header ∧ (NameEntry.of i.entry).bytes = (NameEntry.of p.entry).bytes := by
  simp [Packet.fits]

theorem State.headerAtCore_eq : s.headerAtCore d n p = (s.sizeEnds d fun i => s.wantsNow d n p .pending i && !p.fits i).modInterests d
    (s.wantsNow d n p .pending) fun i => some { i with state := .landing } := rfl
/-- The entries that end are taken from the table, then they fault. -/
theorem State.Signals.sizeEnds (P : Interest → Bool) : (s.modInterests d P fun _ => none).Signals (s.sizeEnds d P) :=
  .foldl (fun _ _ => .interestFault ..) _ _
end

section
variable {s : State} {k : Nat} {p : Packet} {d : DieId} {n : Nat} (h : arrives s k p) (hc : p.at_ = .core d n)
include h hc

section
variable (hk : p.kind = .header ∨ p.kind = .sizeNotice)
include hk

theorem tileHeaderArrival_core : exec (.tileHeaderArrival k) s = .next ((s.takePacket k).headerAtCore d n p) := by
  refine (withPacket_arrives h _).trans ?_
  obtain hk | hk := hk
  · rw [hk, hc]
  · rw [hk, hc]
theorem header_lands (hfits : ∀ i ∈ (s.die d).active.interests, wants s d n p .pending i → p.fits i = true) :
    yields s (.tileHeaderArrival k) fun t => t.packets = s.packets.eraseIdx k ∧ (t.die d).active.interests =
      (s.die d).active.interests.map fun i => if wants s d n p .pending i then { i with state := .landing } else i := by
  have hno : ∀ i ∈ (s.die d).active.interests, (s.wantsNow d n p .pending i && !p.fits i) = false := by
    intro i hi
    simpa [State.wantsNow_iff] using hfits i hi
  have hends : (s.takePacket k).sizeEnds d (fun i => s.wantsNow d n p .pending i && !p.fits i) =
      (s.takePacket k).modInterests d (fun i => s.wantsNow d n p .pending i && !p.fits i) fun _ => none := by
    unfold State.sizeEnds
    rw [List.filter_eq_nil_iff.mpr fun i hi => by simpa using hno i hi]
    rfl
  refine ⟨_, tileHeaderArrival_core h hc hk, ?_⟩
  rw [State.headerAtCore_eq, State.wantsNow_takePacket]
  refine ⟨congrArg State.packets hends, ?_⟩
  rw [State.modInterests_map, hends, State.modInterests_unused (s.takePacket k) d _ hno]
  refine List.map_congr_left fun i _ => if_congr (s.wantsNow_iff d n p _ i) rfl rfl
theorem header_sizeDiffers (hdiff : ∃ i ∈ (s.die d).active.interests, wants s d n p .pending i ∧ p.fits i = false ∧ i.gid ≠ 0) :
    yields s (.tileHeaderArrival k) fun t => haltsWith s t d Cause.size ∧
      ∀ i ∈ (t.die d).active.interests, ¬(wants s d n p .pending i ∧ p.fits i = false) := by
  refine ⟨_, tileHeaderArrival_core h hc hk, ?_⟩
  rw [State.headerAtCore_eq, State.wantsNow_takePacket]
  obtain ⟨i, hi, hwants, hfit, hgid⟩ := hdiff
  constructor
  · refine haltsWith_interestFaults (u := (s.takePacket k).modInterests d (fun i => s.wantsNow d n p .pending i && !p.fits i) fun _ => none)
      (fa := fun i => i.name) rfl (.inr ⟨rfl, i, ?_, hgid⟩)
    exact List.mem_filter.mpr ⟨hi, by rw [hfit, Bool.not_false, Bool.and_true]; exact (s.wantsNow_iff d n p _ i).mpr hwants⟩
  · rintro j hj ⟨hw, -⟩
    rw [State.modInterests_map] at hj
    obtain ⟨i', -, rfl⟩ := List.mem_map.mp hj
    have hnow := (s.wantsNow_iff d n p _ _).mpr hw
    split at hnow
    · simp [State.wantsNow] at hnow
    · next hnot => exact hnot hnow
end
end

end Sys2Proof.Machine
end

section
/-! PROOFS. Chunks that land at cores, and interests that outlive their lifetime (R102 to R104): the fourth part of O55. -/
namespace Sys2Proof.Machine
open Sys2Proof.Claims

/-! ## Local memory after a write (R113, R114) -/

section
variable (s : State) (d : DieId) (gid : Nat)

theorem State.KeepsGroups.rewriteLocal (x sp a n : Nat) : s.KeepsGroups (s.rewriteLocal d gid x sp a n) := by
  unfold State.rewriteLocal
  split
  · exact .refl s
  · exact .modDie s d (fun _ => rfl) fun _ => rfl
theorem State.rewriteLocal_scratch (x sp a n : Nat) : ((s.rewriteLocal d gid x sp a n).die d).scratch = (s.die d).scratch := by
  unfold State.rewriteLocal
  split
  · rfl
  · rw [State.die_modDie]
theorem State.scratch_modGroup (f : Group → Group) : ((s.modGroup d gid f).die d).scratch = (s.die d).scratch := by
  rw [State.modGroup, State.die_modDie]
  unfold Die.modGroup
  split <;> rfl

/-- What is read depends on the scratchpad and the group alone. -/
theorem State.readLocal_congr {t : State} (hg : t.group d gid = s.group d gid) (hs : (t.die d).scratch = (s.die d).scratch) (x sp a n : Nat) :
    t.readLocal d gid x sp a n = s.readLocal d gid x sp a n := by
  unfold State.readLocal
  rw [hg, hs]
theorem State.readLocal_scratch (x a n : Nat) : s.readLocal d gid x 1 a n = (s.die d).scratch.readN a n := rfl
theorem State.readLocal_group {sp : Nat} {G : Group} (hG : s.group d gid = some G) (hsp : sp ≠ 1) (x a n : Nat) :
    s.readLocal d gid x sp a n = if sp = 0 then G.shared.readN a n else G.spill.readN (G.spillBase x + a) n := by
  unfold State.readLocal
  rw [if_neg hsp, hG]

theorem State.readLocal_modInterests (P : Interest → Bool) (f : Interest → Option Interest) (x sp a n : Nat) :
    (s.modInterests d P f).readLocal d gid x sp a n = s.readLocal d gid x sp a n :=
  State.readLocal_congr s d gid ((State.KeepsGroups.modInterests ..).group ..)
    (by rw [State.modInterests, State.modBank, State.die_modDie]) x sp a n
theorem State.readLocal_inSkid {f : Die → Die} (hsv : ∀ D, (f D).sv = D.sv) (hgroups : ∀ D, (f D).active.groups = D.active.groups)
    (hscratch : ∀ D, (f D).scratch = D.scratch) (x sp a n : Nat) : (s.inSkid d f).readLocal d gid x sp a n = s.readLocal d gid x sp a n := by
  unfold State.inSkid
  dsimp only
  split
  · exact State.readLocal_congr s d gid ((State.KeepsGroups.modDie s d hsv hgroups).group ..)
      ((congrArg Die.scratch (State.die_modDie ..)).trans (hscratch _)) x sp a n
  · rfl

theorem State.writeLocal_scratchpad (a : Nat) (bs : List Byte) : s.writeLocal d gid 0 1 a bs =
    (s.rewriteLocal d gid 0 1 a bs.length).modDie d fun D => { D with scratch := D.scratch.writeN a bs } := rfl
theorem State.writeLocal_shared (a : Nat) (bs : List Byte) : s.writeLocal d gid 0 0 a bs =
    (s.rewriteLocal d gid 0 0 a bs.length).modGroup d gid fun G => { G with shared := G.shared.writeN a bs } := rfl
end

/-- A byte that a write does not reach reads as before. -/
theorem Mem.readN_writeN_other {m : Mem} (hm : m.wf = true) {a b : Nat} {bs : List Byte} (h : ¬(a ≤ b ∧ b < a + bs.length)) :
    (m.writeN a bs).readN b 1 = m.readN b 1 := by
  simp only [Mem.readN, Mem.read_writeN bs a b hm, if_neg h]

section
variable {s : State} {d : DieId} {gid : Nat} {G : Group} (hG : s.group d gid = some G) (hshared : G.shared.wf = true) (hscratch : (s.die d).scratch.wf = true)
variable {sp a : Nat} {bs : List Byte} (hsp : sp ≤ 1)
include hG hshared hscratch hsp

/-- A write of shared memory or of the scratchpad, of its own bytes and of every other local byte. -/
theorem State.readLocal_writeLocal :
    (s.writeLocal d gid 0 sp a bs).readLocal d gid 0 sp a bs.length = bs ∧
    ∀ sp' y b, sp' ≤ 2 → ¬(sp' = sp ∧ a ≤ b ∧ b < a + bs.length) →
      (s.writeLocal d gid 0 sp a bs).readLocal d gid y sp' b 1 = s.readLocal d gid y sp' b 1 := by
  obtain rfl | rfl : sp = 0 ∨ sp = 1 := by omega
  · have hgroup : (s.writeLocal d gid 0 0 a bs).group d gid = some { G with shared := G.shared.writeN a bs } := by
      rw [State.writeLocal_shared]
      refine (State.group_modGroup _ _ _ _ ?_).trans ?_
      · intro G; rfl
      · rw [(State.KeepsGroups.rewriteLocal ..).group, hG]
        rfl
    have hpad : ((s.writeLocal d gid 0 0 a bs).die d).scratch = (s.die d).scratch := by
      rw [State.writeLocal_shared, State.scratch_modGroup, State.rewriteLocal_scratch]
    refine ⟨(State.readLocal_group _ _ _ hgroup (by decide) ..).trans (Mem.readN_writeN hshared a bs), fun sp' y b _ hout => ?_⟩
    by_cases h1 : sp' = 1
    · subst h1
      rw [State.readLocal_scratch, State.readLocal_scratch, hpad]
    · rw [State.readLocal_group _ _ _ hgroup h1, State.readLocal_group _ _ _ hG h1]
      split
      · next h0 => exact Mem.readN_writeN_other hshared fun h => hout ⟨h0, h⟩
      · rfl
  · have hgroup : (s.writeLocal d gid 0 1 a bs).group d gid = s.group d gid := by
      rw [State.writeLocal_scratchpad]
      refine ((State.KeepsGroups.rewriteLocal ..).trans (.modDie _ d ?_ ?_)).group ..
      · intro D; rfl
      · intro D; rfl
    have hpad : ((s.writeLocal d gid 0 1 a bs).die d).scratch = (s.die d).scratch.writeN a bs := by
      rw [State.writeLocal_scratchpad, State.die_modDie]
      dsimp only
      rw [State.rewriteLocal_scratch]
    refine ⟨?_, fun sp' y b _ hout => ?_⟩
    · rw [State.readLocal_scratch, hpad]
      exact Mem.readN_writeN hscratch a bs
    · by_cases h1 : sp' = 1
      · subst h1
        rw [State.readLocal_scratch, State.readLocal_scratch, hpad]
        exact Mem.readN_writeN_other hscratch fun h => hout ⟨rfl, h⟩
      · rw [State.readLocal_group _ _ _ (hgroup.trans hG) h1, State.readLocal_group _ _ _ hG h1]
end

/-! ## What leaves packets and interests as they are -/

/-- No packet and no interest table changes. -/
structure State.KeepsInterests (s t : State) : Prop where
  packets : t.packets = s.packets
  interests : ∀ d, (t.die d).active.interests = (s.die d).active.interests

theorem State.KeepsInterests.refl (s : State) : s.KeepsInterests s := ⟨rfl, fun _ => rfl⟩
theorem State.KeepsInterests.trans {s t u : State} (h : s.KeepsInterests t) (k : t.KeepsInterests u) : s.KeepsInterests u :=
  ⟨k.packets.trans h.packets, fun d => (k.interests d).trans (h.interests d)⟩
theorem State.KeepsInterests.foldl {α : Type} {f : State → α → State} (hf : ∀ (s : State) a, s.KeepsInterests (f s a)) (l : List α) (s : State) :
    s.KeepsInterests (l.foldl f s) := by
  induction l generalizing s with
  | nil => exact .refl s
  | cons a l ih => exact (hf s a).trans (ih _)
theorem State.Signals.keepsInterests {s t : State} (h : s.Signals t) : s.KeepsInterests t :=
  ⟨by rw [h.rest], fun d => by rw [h.active]⟩

section
variable (s : State) (d : DieId) (gid : Nat)

theorem State.KeepsInterests.modDie {f : Die → Die} (hf : ∀ D, (f D).active.interests = D.active.interests) : s.KeepsInterests (s.modDie d f) := by
  refine ⟨rfl, fun e => ?_⟩
  by_cases h : d = e
  · rw [← h, State.die_modDie, hf]
  · rw [State.die_modDie_ne _ _ _ _ h]
theorem State.KeepsInterests.modGroup (f : Group → Group) : s.KeepsInterests (s.modGroup d gid f) :=
  .modDie s d fun D => by unfold Die.modGroup; split <;> rfl
theorem State.KeepsInterests.inSkid {f : Die → Die} (hf : ∀ D, (f D).active.interests = D.active.interests) : s.KeepsInterests (s.inSkid d f) := by
  unfold State.inSkid
  dsimp only
  split
  · exact .modDie s d hf
  · exact .refl s
theorem State.KeepsInterests.writeLocal (x sp a : Nat) (bs : List Byte) : s.KeepsInterests (s.writeLocal d gid x sp a bs) := by
  have hrewrite : s.KeepsInterests (s.rewriteLocal d gid x sp a bs.length) := by
    unfold State.rewriteLocal
    split
    · exact .refl s
    · exact .modDie s d fun _ => rfl
  unfold State.writeLocal
  dsimp only
  split
  · exact hrewrite.trans (.modDie _ d fun _ => rfl)
  · exact hrewrite.trans (.modGroup ..)
theorem State.KeepsInterests.putSlot (a : Slot) (b : BSlot) : s.KeepsInterests (s.putSlot d gid a b) := by
  unfold State.putSlot
  dsimp only
  split
  · exact (State.KeepsInterests.writeLocal ..).trans (.writeLocal ..)
  · exact .writeLocal ..
variable {s d gid}
theorem State.KeepsInterests.creditSlot {t : State} {a : Slot} {n : Nat} (h : s.creditSlot d gid a n = some t) : s.KeepsInterests t := by
  unfold State.creditSlot at h
  split at h
  · cases h
  · split at h
    · cases h
    · cases h
      exact .putSlot ..
theorem State.KeepsInterests.credit {t : State} {obj : Word} {slot : Option Nat} {n : Nat} (h : s.credit d gid obj slot n = .ok t) :
    s.KeepsInterests t := by
  unfold State.credit at h
  dsimp only at h
  split at h
  · cases h
    exact .refl s
  · split at h
    · cases h
    · split at h
      · cases h
      · split at h
        · split at h
          · next hput =>
            cases h
            obtain ⟨r, -, rfl⟩ := Option.map_eq_some_iff.mp hput
            exact .writeLocal ..
          · cases h
        · split at h
          · next hslot =>
            cases h
            exact .creditSlot hslot
          · cases h
theorem State.credit_unbound (slot : Option Nat) (n : Nat) : s.credit d gid 0 slot n = .ok s := by
  unfold State.credit
  exact if_pos rfl
end

/-! ## A chunk at a core (R103) -/

section
variable (s : State) (d : DieId) (i : Interest) (c : Nat) (bytes : List Byte)

/-- The chunk's bit is set in the bitmap of the interest's bound slot, if it has one. -/
def State.chunkMarked : State :=
  if (BufRec.of i.buf).bound = 0 then s else match s.slotAddr d i.gid (BufRec.of i.buf).bound 16 with
    | .fault _ _ => s
    | .ok sl => match s.bslot d i.gid sl with
      | some b => if b.bm then s.writeLocal d i.gid 0 sl.space (b.bitmapAt sl + c / 8)
          ((s.readLocal d i.gid 0 sl.space (b.bitmapAt sl + c / 8) 1).map fun x => x ||| ((1 : Byte) <<< (c % 8))) else s
      | none => s
/-- The bytes that have landed are credited on its bound object. -/
def State.chunkCredited (n : Nat) : State :=
  let slot := match i.slot, s.slotAddr d i.gid (BufRec.of i.buf).bound 16 with
    | none, .ok sl => (s.ring d i.gid sl).map fun r => 512 * c / r.size
    | o, _ => o
  match s.credit d i.gid (BufRec.of i.buf).bound slot n with
  | .ok s => s
  | .fault cause fa => s.interestFault d i cause fa

theorem State.landChunk_eq : s.landChunk d i c bytes =
    if s.touchesLive d i.gid (BufRec.of i.buf).space ((BufRec.of i.buf).base + 512 * c) bytes.length then
      s.interestFault d i Cause.baruse (localCaddr (BufRec.of i.buf).space ((BufRec.of i.buf).base + 512 * c))
    else ((s.writeLocal d i.gid 0 (BufRec.of i.buf).space ((BufRec.of i.buf).base + 512 * c) bytes).chunkMarked d i c).chunkCredited d i c bytes.length := by
  rfl
theorem State.KeepsInterests.chunkMarked : s.KeepsInterests (s.chunkMarked d i c) := by
  unfold State.chunkMarked
  split
  · exact .refl s
  · split
    · exact .refl s
    · split
      · split
        · exact .writeLocal ..
        · exact .refl s
      · exact .refl s
theorem State.KeepsInterests.chunkCredited (n : Nat) : s.KeepsInterests (s.chunkCredited d i c n) := by
  unfold State.chunkCredited
  dsimp only
  split
  · next hcredit => exact .credit hcredit
  · exact (State.Signals.interestFault ..).keepsInterests
theorem State.KeepsInterests.landChunk : s.KeepsInterests (s.landChunk d i c bytes) := by
  rw [State.landChunk_eq]
  split
  · exact (State.Signals.interestFault ..).keepsInterests
  · exact ((State.KeepsInterests.writeLocal ..).trans (.chunkMarked ..)).trans (.chunkCredited ..)
/-- Without a bound object a chunk is stored, and that is all. -/
theorem State.landChunk_unbound (hbound : (BufRec.of i.buf).bound = 0)
    (hfree : s.touchesLive d i.gid (BufRec.of i.buf).space ((BufRec.of i.buf).base + 512 * c) bytes.length = false) :
    s.landChunk d i c bytes = s.writeLocal d i.gid 0 (BufRec.of i.buf).space ((BufRec.of i.buf).base + 512 * c) bytes := by
  rw [State.landChunk_eq, if_neg (by simp [hfree]), State.chunkMarked, if_pos hbound, State.chunkCredited, hbound]
  simp only [State.credit_unbound]
end

section
variable {s : State} {k : Nat} {p : Packet} {d : DieId} {n c : Nat} (h : arrives s k p) (hc : p.at_ = .core d n) (hk : p.kind = .chunk c)

/-- The chunk has landed at each entry that awaits it, and the last one of a delivery has been counted if a halt is under way (R317). -/
def State.chunkLanded (s : State) (k : Nat) (d : DieId) (n : Nat) (p : Packet) (c : Nat) : State :=
  let u := ((s.die d).active.interests.filter (s.wantsNow d n p .landing)).foldl (fun (u : State) i => u.landChunk d i c p.bytes) (s.takePacket k)
  if c + 1 = chunks (NameEntry.of p.entry).bytes then u.inSkid d fun D => { D with skidDelivs := D.skidDelivs + 1 } else u

section
include h hc hk
theorem chunkLanding_core : exec (.chunkLanding k) s = .next ((s.chunkLanded k d n p c).modInterests d (s.wantsNow d n p .landing) fun i =>
    if c + 1 = chunks (NameEntry.of p.entry).bytes then none else some i) := by
  refine (withPacket_arrives h _).trans ?_
  rw [hk, hc]
  rfl
end

theorem State.KeepsInterests.chunkLanded : (s.takePacket k).KeepsInterests (s.chunkLanded k d n p c) := by
  have hlanded := State.KeepsInterests.foldl (f := fun (u : State) i => u.landChunk d i c p.bytes) (fun u i => .landChunk u d i c p.bytes)
    ((s.die d).active.interests.filter (s.wantsNow d n p .landing)) (s.takePacket k)
  unfold State.chunkLanded
  dsimp only
  split
  · refine hlanded.trans (.inSkid _ d ?_)
    intro D; rfl
  · exact hlanded
theorem State.interests_afterChunk : (((s.chunkLanded k d n p c).modInterests d (s.wantsNow d n p .landing) fun i =>
    if c + 1 = chunks (NameEntry.of p.entry).bytes then none else some i).die d).active.interests =
      if c + 1 = chunks (NameEntry.of p.entry).bytes then (s.die d).active.interests.filter (fun i => ¬wants s d n p .landing i)
      else (s.die d).active.interests := by
  have hkept : ((s.chunkLanded k d n p c).die d).active.interests = (s.die d).active.interests :=
    (State.KeepsInterests.chunkLanded (c := c)).interests d
  split
  · rw [State.modInterests_filter, hkept]
    exact List.filter_congr fun i _ => by simp [← State.wantsNow_iff]
  · rw [State.modInterests_interests, List.filterMap_congr (g := some) fun i _ => ite_self _, List.filterMap_some, hkept]

/-- Where one entry awaits the chunk and nothing is bound to its buffer, the chunk is there afterwards and every other local byte is as it was. -/
theorem State.readLocal_chunkLanded {i : Interest} {G : Group}
    (hone : (s.die d).active.interests.filter (fun i => decide (wants s d n p .landing i)) = [i]) (hG : s.group d i.gid = some G)
    (hsp : (BufRec.of i.buf).space ≤ 1) (hbound : (BufRec.of i.buf).bound = 0)
    (hfree : s.touchesLive d i.gid (BufRec.of i.buf).space ((BufRec.of i.buf).base + 512 * c) p.bytes.length = false)
    (hshared : G.shared.wf = true) (hscratch : (s.die d).scratch.wf = true) {f : Interest → Option Interest} :
    let t := (s.chunkLanded k d n p c).modInterests d (s.wantsNow d n p .landing) f
    t.readLocal d i.gid 0 (BufRec.of i.buf).space ((BufRec.of i.buf).base + 512 * c) p.bytes.length = p.bytes ∧
      ∀ sp y a, sp ≤ 2 →
        ¬(sp = (BufRec.of i.buf).space ∧ (BufRec.of i.buf).base + 512 * c ≤ a ∧ a < (BufRec.of i.buf).base + 512 * c + p.bytes.length) →
        t.readLocal d i.gid y sp a 1 = s.readLocal d i.gid y sp a 1 := by
  intro t
  have hfilter : (s.die d).active.interests.filter (s.wantsNow d n p .landing) = [i] := by
    rw [← hone]
    exact List.filter_congr fun i _ => Bool.eq_iff_iff.mpr ((s.wantsNow_iff d n p _ i).trans decide_eq_true_iff.symm)
  have hstored : ((s.die d).active.interests.filter (s.wantsNow d n p .landing)).foldl (fun (u : State) i => u.landChunk d i c p.bytes) (s.takePacket k) =
      (s.takePacket k).writeLocal d i.gid 0 (BufRec.of i.buf).space ((BufRec.of i.buf).base + 512 * c) p.bytes := by
    rw [hfilter]
    exact State.landChunk_unbound _ d i c p.bytes hbound hfree
  have hread (y sp a m) : t.readLocal d i.gid y sp a m =
      ((s.takePacket k).writeLocal d i.gid 0 (BufRec.of i.buf).space ((BufRec.of i.buf).base + 512 * c) p.bytes).readLocal d i.gid y sp a m := by
    rw [State.readLocal_modInterests, ← hstored]
    unfold State.chunkLanded
    dsimp only
    split
    · refine State.readLocal_inSkid _ d i.gid ?_ ?_ ?_ y sp a m
      all_goals intro D; rfl
    · rfl
  obtain ⟨hthere, hothers⟩ := State.readLocal_writeLocal (s := s.takePacket k) (a := (BufRec.of i.buf).base + 512 * c) (bs := p.bytes) hG hshared hscratch hsp
  exact ⟨(hread ..).trans hthere, fun sp y a hle hout => (hread ..).trans (hothers sp y a hle hout)⟩

include h hc hk in
theorem chunk_lands : yields s (.chunkLanding k) fun t => t.packets = s.packets.eraseIdx k ∧
    (t.die d).active.interests = (if c + 1 = chunks (NameEntry.of p.entry).bytes then
      (s.die d).active.interests.filter (fun i => ¬wants s d n p .landing i) else (s.die d).active.interests) ∧
    ∀ i G, (s.die d).active.interests.filter (fun i => decide (wants s d n p .landing i)) = [i] → s.group d i.gid = some G →
      (BufRec.of i.buf).space ≤ 1 → (BufRec.of i.buf).bound = 0 →
      s.touchesLive d i.gid (BufRec.of i.buf).space ((BufRec.of i.buf).base + 512 * c) p.bytes.length = false → G.shared.wf = true →
      (s.die d).scratch.wf = true → t.readLocal d i.gid 0 (BufRec.of i.buf).space ((BufRec.of i.buf).base + 512 * c) p.bytes.length = p.bytes ∧
        ∀ sp y a, sp ≤ 2 →
          ¬(sp = (BufRec.of i.buf).space ∧ (BufRec.of i.buf).base + 512 * c ≤ a ∧ a < (BufRec.of i.buf).base + 512 * c + p.bytes.length) →
          t.readLocal d i.gid y sp a 1 = s.readLocal d i.gid y sp a 1 :=
  ⟨_, chunkLanding_core h hc hk, (State.KeepsInterests.chunkLanded (c := c)).packets, State.interests_afterChunk,
    fun _ _ hone hG hsp hbound hfree hshared hscratch => State.readLocal_chunkLanded hone hG hsp hbound hfree hshared hscratch⟩
end

/-! ## Lifetimes (R102) -/

/-- The table of a die without its entry number `k`. -/
def State.dropInterest (s : State) (d : DieId) (k : Nat) : State := s.modBank d fun B => { B with interests := B.interests.eraseIdx k }

section
variable {s : State} {d : DieId} {k : Nat} {i : Interest} (hi : (s.die d).active.interests[k]? = some i)
include hi

/-- An interest has outlived its lifetime and its grace while its context ran. -/
def State.outlived (s : State) (d : DieId) (i : Interest) : Prop :=
  i.state = .pending ∧ s.running d = true ∧ i.life + 1600 * (if (NameEntry.of i.entry).scope = 2 then 20 else 2) ≤ s.clock

theorem interestLifetimeExpiry_eq [Decidable (s.outlived d i)] : exec (.interestLifetimeExpiry d k) s = .next (if s.outlived d i then
    (s.dropInterest d k).interestFault d i Cause.never i.name else s) := by
  show execInterestLifetimeExpiry d k s = _
  unfold execInterestLifetimeExpiry
  rw [hi]
  have hcond : (i.state == .pending && s.running d &&
      decide (i.life + (if (NameEntry.of i.entry).scope = 2 then usCycles 20 else usCycles 2) ≤ s.clock)) = true ↔ s.outlived d i := by
    rw [State.outlived, Bool.and_eq_true, Bool.and_eq_true, beq_iff_eq, decide_eq_true_iff, and_assoc, apply_ite (1600 * ·)]
    rfl
  exact (apply_ite Host.Outcome.next ..).symm.trans (congrArg Host.Outcome.next (if_congr hcond rfl rfl))
theorem lifetime_goesOn (h : ¬s.outlived d i) : idle s (.interestLifetimeExpiry d k) := by
  classical rw [idle, interestLifetimeExpiry_eq hi, if_neg h]
theorem lifetime_ends (h : s.outlived d i) (hg : i.gid ≠ 0) : yields s (.interestLifetimeExpiry d k) fun t =>
    (t.die d).active.interests = (s.die d).active.interests.eraseIdx k ∧ haltsWith s t d Cause.never := by
  have hexec : exec (.interestLifetimeExpiry d k) s = .next ((s.dropInterest d k).interestFault d i Cause.never i.name) := by
    classical rw [interestLifetimeExpiry_eq hi, if_pos h]
  refine ⟨_, hexec, ?_, haltsWith_interestFault (u := s.dropInterest d k) rfl rfl hg _⟩
  rw [(State.Signals.interestFault ..).active, State.dropInterest, State.modBank, State.die_modDie]
end

theorem deliveriesDescend : DeliveriesDescend := by
  intro s k
  refine ⟨fun p r h hr => ⟨fun hk e he => ⟨header_delivers h hr he, header_waits h hr he, header_ends h hr he hk⟩,
      fun e hk hsrc => header_fromStore h hr hk hsrc, fun c e hk he => chunk_passes h hr hk he⟩,
    fun p d n h hc => ⟨fun hk => ⟨fun hfits => ?_, fun hdiff => ?_⟩, fun c hk => chunk_lands h hc hk⟩,
    fun d i hi => ⟨lifetime_goesOn hi, lifetime_ends hi⟩⟩
  · exact header_lands h hc hk fun i hi hw => (p.fits_iff i).mpr (hfits i hi hw)
  · obtain ⟨i, hi, hw, hfit, hg⟩ := hdiff
    obtain ⟨t, ht, hhalts, hgone⟩ := header_sizeDiffers h hc hk ⟨i, hi, hw, Bool.eq_false_iff.mpr (mt (p.fits_iff i).mp hfit), hg⟩
    exact ⟨t, ht, hhalts, fun j hj ⟨hw, hfit⟩ => hgone j hj ⟨hw, Bool.eq_false_iff.mpr (mt (p.fits_iff j).mp hfit)⟩⟩

end Sys2Proof.Machine
end

section
/-! PROOFS. Offers, home stores and read-outs (R89, R90, R100, R101, R105, R110): the last part of O55. -/
namespace Sys2Proof.Machine
open Sys2Proof.Claims

/-! ## Offers of a die -/

section
variable (s : State) (d : DieId) (id : Nat) (f : Offer → Offer)

theorem State.modOffer_offers : ((s.modOffer d id f).die d).active.offers = (s.die d).active.offers.map fun o => if o.id = id then f o else o := by
  rw [State.modOffer, State.modBank, State.die_modDie]
theorem State.modOffer_offers_ne {e : DieId} (h : d ≠ e) : ((s.modOffer d id f).die e).active.offers = (s.die e).active.offers := by
  rw [State.modOffer, State.modBank, State.die_modDie_ne _ _ _ _ h]
theorem State.ctxOf_modOffer (e : DieId) (gid : Nat) : (s.modOffer d id f).ctxOf e gid = s.ctxOf e gid := by
  have hctx : ((s.modOffer d id f).die e).active.ctx = (s.die e).active.ctx := by
    by_cases h : d = e
    · rw [← h, State.modOffer, State.modBank, State.die_modDie]
    · rw [State.modOffer, State.modBank, State.die_modDie_ne _ _ _ _ h]
  unfold State.ctxOf
  rw [hctx]
end

/-! ## A home that takes an offer (R101) -/

section
variable (c : Ctx) (id : Nat)

/-- Offer `id` of context `c` may be read out, where die `d` has it. -/
def State.opens (s : State) (d : DieId) : Prop := ∀ o ∈ (s.die d).active.offers, o.id = id → s.ctxOf d o.gid = c → o.open_ = true
/-- The offers of one die are opened. -/
def State.openOn (s : State) (d : DieId) : State := s.modOffer d id fun o => if s.ctxOf d o.gid = c then { o with open_ := true } else o

theorem State.openOffer_eq (s : State) : s.openOffer c id = allDies.foldl (State.openOn c id) s := rfl
theorem State.openOn_opens (s : State) (d : DieId) : (s.openOn c id d).opens c id d := by
  intro o ho hid hctx
  rw [State.openOn, State.ctxOf_modOffer] at hctx
  rw [State.openOn, State.modOffer_offers] at ho
  obtain ⟨o', -, rfl⟩ := List.mem_map.mp ho
  split_ifs at *
  · rfl
  · next h => exact absurd hctx h
  · next h => exact absurd hid h
theorem State.openOn_keeps {s : State} {d : DieId} (h : s.opens c id d) (e : DieId) : (s.openOn c id e).opens c id d := by
  by_cases he : e = d
  · exact he ▸ s.openOn_opens c id e
  · intro o ho hid hctx
    rw [State.openOn, State.modOffer_offers_ne _ _ _ _ he] at ho
    rw [State.openOn, State.ctxOf_modOffer] at hctx
    exact h o ho hid hctx
theorem State.foldl_openOn {d : DieId} {l : List DieId} : ∀ {s : State}, d ∈ l ∨ s.opens c id d → (l.foldl (State.openOn c id) s).opens c id d := by
  induction l with
  | nil => exact fun h => h.resolve_left (by simp)
  | cons e l ih =>
    intro s h
    refine ih ?_
    obtain h | h := h
    · obtain rfl | h := List.mem_cons.mp h
      · exact .inr (s.openOn_opens c id d)
      · exact .inl h
    · exact .inr (State.openOn_keeps c id h e)
theorem State.openOffer_opens (s : State) (d : DieId) : (s.openOffer c id).opens c id d := State.foldl_openOn c id (.inl (mem_allDies d))
theorem State.openOffer_stores (s : State) : (s.openOffer c id).stores = s.stores := by
  rw [State.openOffer_eq]
  generalize allDies = l
  induction l generalizing s with
  | nil => rfl
  | cons e l ih => exact ih _
theorem State.openOffer_ctxOf (s : State) (d : DieId) (gid : Nat) : (s.openOffer c id).ctxOf d gid = s.ctxOf d gid := by
  rw [State.openOffer_eq]
  generalize allDies = l
  induction l generalizing s with
  | nil => rfl
  | cons e l ih => exact (ih _).trans (State.ctxOf_modOffer ..)
theorem State.acceptOffer_own (s : State) {p : Packet} (h : p.origin = none) : s.acceptOffer id p = s.openOffer p.ctx id := by
  unfold State.acceptOffer
  split
  · next hsrc => rw [Packet.origin, hsrc] at h; cases h
  · rfl
end

/-! ## The header of an offer at a router -/

/-- The tile that the store of a home allocates for an offer. -/
def Packet.allocated (p : Packet) (r : Router) (id : Nat) : StoreEntry :=
  { at_ := r, ctx := p.ctx, part := p.part, name := p.name, size := (NameEntry.of p.entry).bytes, fmt := BitVec.ofNat 8 (NameEntry.of p.entry).fmt,
    ret := (NameEntry.of p.entry).ret, bytes := [], state := .filling, expiry := 0, evict := false, offer := id, origin := p.origin, own := p.own,
    die := p.die, pc := p.pc }

section
variable {s : State} {k : Nat} {p : Packet} {r : Router}

section
variable {u : State} {id : Nat}

theorem State.offerAt_allocates (hnone : s.stores.find? (·.is r p.ctx p.name) = none) (hroom : s.roomFor r (NameEntry.of p.entry).bytes = true) :
    s.offerAt u p id r = { u with stores := u.stores ++ [p.allocated r id] }.acceptOffer id p := by
  unfold State.offerAt
  simp only [hnone, hroom, if_true]
  rfl
theorem State.offerAt_full (hnone : s.stores.find? (·.is r p.ctx p.name) = none) (hroom : s.roomFor r (NameEntry.of p.entry).bytes = false) :
    s.offerAt u p id r = s := by
  unfold State.offerAt
  simp only [hnone, hroom, Bool.false_eq_true, if_false]
theorem State.offerAt_discards {x : StoreEntry} (hx : s.stores.find? (·.is r p.ctx p.name) = some x) (hid : x.offer ≠ id)
    (hthere : x.state = .filling ∨ x.serves s.clock = true) : s.offerAt u p id r = u.acceptOffer id p := by
  unfold State.offerAt
  simp only [hx]
  rw [if_neg (by simp [hid]), if_pos (by simpa using hthere)]
theorem State.offerUp_eq (hne : r ≠ p.home) : s.offerUp u p id r = (s.nextHop p r).elim s fun q =>
    (u.modOffer p.die id fun o => { o with path := o.path ++ [.router q] }).through r (.router q) { p with via := p.via ++ [r] } := by
  unfold State.offerUp State.upPort
  rw [if_neg hne]
  cases s.nextHop p r with
  | none => exact if_neg hne
  | some q => rfl
end

section
variable (h : arrives s k p) (hr : p.at_ = .router r) {id : Nat} (hk : p.kind = .offer id)
include h hr hk

theorem offerHeaderArrival_at : exec (.offerHeaderArrival k) s = .next (if r = p.home ∧ p.rank.isNone then s.offerAt (s.takePacket k) p id r
    else s.offerUp (s.takePacket k) p id r) := by
  refine (withPacket_arrives h _).trans ?_
  rw [hk, hr]

section
variable (hne : r ≠ p.home)
include hne

theorem offerHeader_held (hq : s.nextHop p r = none) : idle s (.offerHeaderArrival k) := by
  rw [idle, offerHeaderArrival_at h hr hk, if_neg fun hh => hne hh.1, State.offerUp_eq hne, hq]
  rfl
theorem offerHeader_goesOn {q : Router} (hq : s.nextHop p r = some q) : yields s (.offerHeaderArrival k) fun t =>
    sentThrough t r (.router q) (.offer id) p ∧
      (t.die p.die).active.offers = (s.die p.die).active.offers.map fun o => if o.id = id then { o with path := o.path ++ [.router q] } else o := by
  refine ⟨_, offerHeaderArrival_at h hr hk, ?_⟩
  rw [if_neg fun hh => hne hh.1, State.offerUp_eq hne, hq, Option.elim_some]
  exact ⟨hk ▸ sentThrough_through (port := .router q) (q := { p with via := p.via ++ [r] }) _ r trivial rfl rfl, State.modOffer_offers ..⟩
end

variable (hhome : r = p.home) (hrank : p.rank = none)
include hhome hrank

theorem offerHeaderArrival_home : exec (.offerHeaderArrival k) s = .next (s.offerAt (s.takePacket k) p id r) := by
  rw [offerHeaderArrival_at h hr hk, if_pos ⟨hhome, by rw [hrank]; rfl⟩]
theorem offerHeader_waits (hnone : s.stores.find? (·.is r p.ctx p.name) = none) (hroom : s.roomFor r (NameEntry.of p.entry).bytes = false) :
    idle s (.offerHeaderArrival k) := by
  rw [idle, offerHeaderArrival_home h hr hk hhome hrank, State.offerAt_full hnone hroom]

variable (horigin : p.origin = none)
include horigin

theorem offerHeader_allocates (hnone : s.stores.find? (·.is r p.ctx p.name) = none) (hroom : s.roomFor r (NameEntry.of p.entry).bytes = true) :
    yields s (.offerHeaderArrival k) fun t => (∀ d, ∀ o ∈ (t.die d).active.offers, o.id = id → s.ctxOf d o.gid = p.ctx → o.open_ = true) ∧
      t.stores = s.stores ++ [p.allocated r id] := by
  refine ⟨_, offerHeaderArrival_home h hr hk hhome hrank, ?_⟩
  rw [State.offerAt_allocates hnone hroom, State.acceptOffer_own _ _ horigin]
  exact ⟨fun d o ho hid hctx => State.openOffer_opens p.ctx id _ d o ho hid ((State.openOffer_ctxOf ..).trans hctx),
    State.openOffer_stores ..⟩
theorem offerHeader_discards {x : StoreEntry} (hx : s.stores.find? (·.is r p.ctx p.name) = some x) (hid : x.offer ≠ id)
    (hthere : x.state = .filling ∨ x.serves s.clock = true) : yields s (.offerHeaderArrival k) fun t =>
      (∀ d, ∀ o ∈ (t.die d).active.offers, o.id = id → s.ctxOf d o.gid = p.ctx → o.open_ = true) ∧ t.stores = s.stores := by
  refine ⟨_, offerHeaderArrival_home h hr hk hhome hrank, ?_⟩
  rw [State.offerAt_discards hx hid hthere, State.acceptOffer_own _ _ horigin]
  exact ⟨fun d o ho hid hctx => State.openOffer_opens p.ctx id _ d o ho hid ((State.openOffer_ctxOf ..).trans hctx),
    State.openOffer_stores ..⟩
end

/-! ## A chunk of an offer at a router -/

/-- A tile with one chunk more. -/
def StoreEntry.filled (x : StoreEntry) (p : Packet) (c : Nat) : StoreEntry := { x with bytes := x.bytes ++ p.bytes, bad := x.bad.filter (· ≠ c) }

section
variable {id c : Nat} {x : StoreEntry} (hx : s.stores.find? (·.is r p.ctx p.name) = some x)
include hx

theorem StoreEntry.is_of_find : x.at_ = r ∧ x.ctx = p.ctx ∧ x.name = p.name := by
  simpa [StoreEntry.is, and_assoc] using List.find?_some hx
/-- A tile that is changed is found in its place. -/
theorem State.find?_modStore {y : StoreEntry} (hat : y.at_ = x.at_) (hctx : y.ctx = x.ctx) (hname : y.name = x.name) :
    (s.modStore r p.ctx p.name fun _ => some y).stores.find? (·.is r p.ctx p.name) = some y := by
  obtain ⟨hxat, hxctx, hxname⟩ := StoreEntry.is_of_find hx
  exact find?_updFirst_self (f := fun _ => some y) hx rfl (by simp [StoreEntry.is, hat, hctx, hname, hxat, hxctx, hxname])

variable (hstate : x.state = .filling) (hid : x.offer = id) (horigin : x.origin = p.origin) (hlen : x.bytes.length = 512 * c)
include hstate hid horigin hlen

theorem State.storeChunk_more (hmore : x.bytes.length + p.bytes.length < x.size) :
    s.storeChunk r p id c = s.modStore r p.ctx p.name fun _ => some (x.filled p c) := by
  unfold State.storeChunk
  simp only [hx]
  rw [if_neg (by simp [hstate, hid, horigin, hlen]), if_pos (by simpa using hmore), filter_bne]
  rfl
theorem State.storeChunk_last (hlast : x.size ≤ x.bytes.length + p.bytes.length) (hnone : s.pendAt r p.ctx p.name .wait = none) :
    s.storeChunk r p id c = s.modStore r p.ctx p.name fun _ =>
      some { x.filled p c with state := .stored, expiry := s.clock + usCycles x.ret } := by
  unfold State.storeChunk
  simp only [hx]
  rw [if_neg (by simp [hstate, hid, horigin, hlen]), if_neg (by simpa using hlast), filter_bne]
  split
  · next e he => exact absurd (hnone.symm.trans he) (by simp)
  · rfl
end

section
variable (h : arrives s k p) (hr : p.at_ = .router r) {id c : Nat} (hk : p.kind = .offerChunk id c)
include h hr hk

theorem offerChunkArrival_at : exec (.offerChunkArrival k) s = .next ((s.takePacket k).offerChunkAt r p id c) := by
  refine (if_pos (arrives_lt h)).trans ((withPacket_arrives h _).trans ?_)
  rw [hk, hr]
theorem offerChunk_goesOn {port : Port} {rest : List Port} (hpath : p.path = port :: rest) (hin : inPackage port) :
    yields s (.offerChunkArrival k) fun t => t.stores = s.stores ∧
      ∃ q ∈ t.packets, q.at_ = port ∧ q.src = .router r ∧ q.kind = p.kind ∧ q.name = p.name ∧ q.bytes = p.bytes ∧ q.path = rest := by
  refine ⟨_, offerChunkArrival_at h hr hk, ?_⟩
  unfold State.offerChunkAt
  rw [hpath]
  dsimp only
  rw [State.through_inPackage _ _ _ hin]
  exact ⟨rfl, _, State.mem_post .., rfl, rfl, rfl, rfl, rfl, rfl⟩

variable (hpath : p.path = []) {x : StoreEntry} (hx : s.stores.find? (·.is r p.ctx p.name) = some x) (hstate : x.state = .filling)
  (hid : x.offer = id) (horigin : x.origin = p.origin) (hlen : x.bytes.length = 512 * c)
include hpath hx hstate hid horigin hlen

theorem offerChunk_stored (hmore : x.bytes.length + p.bytes.length < x.size) : yields s (.offerChunkArrival k) fun t =>
    t.stores.find? (·.is r p.ctx p.name) = some (x.filled p c) := by
  refine ⟨_, offerChunkArrival_at h hr hk, ?_⟩
  rw [State.offerChunkAt, hpath]
  dsimp only
  rw [State.storeChunk_more (s := s.takePacket k) hx hstate hid horigin hlen hmore]
  exact State.find?_modStore (s := s.takePacket k) hx rfl rfl rfl
theorem offerChunk_last (hlast : x.size ≤ x.bytes.length + p.bytes.length) (hnone : s.pendAt r p.ctx p.name .wait = none) :
    yields s (.offerChunkArrival k) fun t => t.stores.find? (·.is r p.ctx p.name) =
      some { x.filled p c with state := .stored, expiry := s.clock + 1600 * x.ret } := by
  refine ⟨_, offerChunkArrival_at h hr hk, ?_⟩
  rw [State.offerChunkAt, hpath]
  dsimp only
  rw [State.storeChunk_last (s := s.takePacket k) hx hstate hid horigin hlen hlast hnone]
  exact State.find?_modStore (s := s.takePacket k) hx rfl rfl rfl
end
end

/-! ## Retention (R101, R110) -/

section
variable {s : State} {k : Nat} {x : StoreEntry}

theorem State.freeTile_frees (hx : s.stores.find? (·.is x.at_ x.ctx x.name) = some x) (hstate : x.state = .stored) (hsend : s.sending x = false) :
    s.freeTile x = { s with stores := s.stores.erase x } := by
  have herase : updFirst (·.is x.at_ x.ctx x.name) (fun _ => none) s.stores = s.stores.erase x := updFirst_none hx
  unfold State.freeTile State.modStore
  rw [if_pos (by simp [hstate, hsend]), herase]
theorem State.freeTile_marks (hx : s.stores.find? (·.is x.at_ x.ctx x.name) = some x) (hsend : s.sending x = true) :
    (s.freeTile x).stores.find? (·.is x.at_ x.ctx x.name) = some { x with evict := true } := by
  unfold State.freeTile State.modStore
  rw [if_neg (by simp [hsend])]
  exact find?_updFirst_self (f := fun t => some { t with evict := true }) hx rfl (by simp [StoreEntry.is])

theorem evict_ends {p : Packet} {r : Router} (h : arrives s k p) (hr : p.at_ = .router r) (hk : p.kind = .evict)
    (hx : s.stores.find? (·.is r p.ctx p.name) = some x) (hstate : x.state = .stored) (hsend : (s.takePacket k).sending x = false) :
    yields s (.retentionExpiry k) fun t => t.stores = s.stores.erase x := by
  obtain ⟨rfl, hctx, hname⟩ := StoreEntry.is_of_find hx
  rw [← hctx, ← hname] at hx
  have hexec : exec (.retentionExpiry k) s = .next ((s.takePacket k).evictAt x.at_ x.ctx x.name) := by
    refine (if_pos (arrives_lt h)).trans ((withPacket_arrives h _).trans ?_)
    rw [hk, hr, hctx, hname]
  have hfrees : (s.takePacket k).evictAt x.at_ x.ctx x.name = { s.takePacket k with stores := s.stores.erase x } := by
    unfold State.evictAt
    simp only [show (s.takePacket k).stores.find? (·.is x.at_ x.ctx x.name) = some x from hx]
    exact State.freeTile_frees hx hstate hsend
  exact ⟨_, hexec, congrArg State.stores hfrees⟩

section
variable (hget : s.stores[k]? = some x)
include hget

theorem retentionExpiry_eq : exec (.retentionExpiry (s.packets.length + k)) s =
    .next (if x.state == .stored && (x.evict || decide (x.expiry ≤ s.clock)) then s.freeTile x else s) := by
  refine (if_neg (by omega)).trans ?_
  rw [Nat.add_sub_cancel_left, hget]
theorem retention_lasts (h : ¬(x.state = .stored ∧ (x.evict = true ∨ x.expiry ≤ s.clock))) : idle s (.retentionExpiry (s.packets.length + k)) := by
  rw [idle, retentionExpiry_eq hget, if_neg (by simpa using h)]

variable (hx : s.stores.find? (·.is x.at_ x.ctx x.name) = some x) (hends : x.state = .stored ∧ (x.evict = true ∨ x.expiry ≤ s.clock))
include hx hends

theorem retention_ends (hsend : s.sending x = false) :
    exec (.retentionExpiry (s.packets.length + k)) s = .next { s with stores := s.stores.erase x } := by
  rw [retentionExpiry_eq hget, if_pos (by simpa using hends), State.freeTile_frees hx hends.1 hsend]
theorem retention_marks (hsend : s.sending x = true) : yields s (.retentionExpiry (s.packets.length + k)) fun t =>
    t.stores.find? (·.is x.at_ x.ctx x.name) = some { x with evict := true } := by
  refine ⟨_, retentionExpiry_eq hget, ?_⟩
  rw [if_pos (by simpa using hends)]
  exact State.freeTile_marks hx hsend
end
end

/-! ## Reading a tile out (R105, R108) -/

section
variable {s : State} {d : DieId} {o : Offer}

/-- The next chunk of an offer. -/
def State.nextChunk (s : State) (d : DieId) (o : Offer) : Packet :=
  { s.offerPacket d o with
    kind := .offerChunk o.id o.next
    bytes := s.readLocal d o.gid 0 (BufRec.of o.buf).space ((BufRec.of o.buf).base + 512 * o.next) (min 512 ((NameEntry.of o.entry).bytes - 512 * o.next))
    path := o.path }

section
variable (hlive : s.touchesLive d o.gid (BufRec.of o.buf).space ((BufRec.of o.buf).base + 512 * o.next)
    (min 512 ((NameEntry.of o.entry).bytes - 512 * o.next)) = false)
  (hbad : s.badLocalAt d o.gid 0 (BufRec.of o.buf).space ((BufRec.of o.buf).base + 512 * o.next)
    (min 512 ((NameEntry.of o.entry).bytes - 512 * o.next)) = false)
include hlive hbad

theorem State.readOut_more (hmore : 512 * (o.next + 1) < (NameEntry.of o.entry).bytes) :
    s.readOut d o = (s.post (s.nextChunk d o)).modOffer d o.id fun q => { q with next := o.next + 1 } := by
  unfold State.readOut
  simp only [hlive, hbad, Bool.false_eq_true, if_false]
  exact if_pos hmore
theorem State.readOut_last (hlast : (NameEntry.of o.entry).bytes ≤ 512 * (o.next + 1)) (hbound : (BufRec.of o.buf).bound = 0) :
    s.readOut d o = (s.post (s.nextChunk d o)).modBank d fun B => { B with offers := B.offers.filter (·.id != o.id) } := by
  unfold State.readOut
  simp only [hlive, hbad, Bool.false_eq_true, if_false, hbound, State.credit_unbound]
  exact if_neg (by omega)
end

variable {k : Nat} (hget : (allDies.flatMap fun d => (s.die d).active.offers.map fun o => (d, o))[k]? = some (d, o))
include hget

theorem readOut_event : exec (.offerChunkArrival (s.packets.length + k)) s =
    .next (if o.open_ && (s.running d || o.gid == 0) then s.readOut d o else s) := by
  refine (if_neg (by omega)).trans ?_
  rw [Nat.add_sub_cancel_left, hget]
theorem readOut_waits (h : o.open_ = false ∨ (s.running d = false ∧ o.gid ≠ 0)) : idle s (.offerChunkArrival (s.packets.length + k)) := by
  rw [idle, readOut_event hget, if_neg]
  obtain h | ⟨hrun, hg⟩ := h
  · simp [h]
  · simp [hrun, hg]
theorem readOut_runs (hopen : o.open_ = true) (hrun : s.running d = true ∨ o.gid = 0) :
    exec (.offerChunkArrival (s.packets.length + k)) s = .next (s.readOut d o) := by
  rw [readOut_event hget, if_pos (by simpa [hopen] using hrun)]
end

theorem homesStoreTiles : HomesStoreTiles := by
  intro s k
  refine ⟨fun p r h hr => ⟨fun id hk hne => ⟨offerHeader_held h hr hk hne, fun q hq => offerHeader_goesOn h hr hk hne hq⟩,
      fun id hk hhome hrank horigin => ⟨fun hnone hroom => ?_, offerHeader_waits h hr hk hhome hrank,
        fun x hx hid hthere => offerHeader_discards h hr hk hhome hrank horigin hx hid hthere⟩,
      fun id c port rest hk hpath hin => offerChunk_goesOn h hr hk hpath hin,
      fun id c x hk hpath hx hstate hid horigin hlen => ⟨offerChunk_stored h hr hk hpath hx hstate hid horigin hlen,
        offerChunk_last h hr hk hpath hx hstate hid horigin hlen⟩,
      fun x hk hx hstate hsend => evict_ends h hr hk hx hstate hsend⟩,
    fun x hget hx => ⟨retention_lasts hget, retention_ends hget hx, retention_marks hget hx⟩,
    fun d o hget => ⟨readOut_waits hget, fun hopen hrun hlive hbad => ⟨fun hmore => ?_, fun hlast hbound => ?_⟩⟩⟩
  · obtain ⟨t, ht, hopened, hstores⟩ := offerHeader_allocates h hr hk hhome hrank horigin hnone hroom
    exact ⟨t, ht, hopened, _, hstores, rfl, rfl, rfl, rfl, rfl, rfl, rfl, rfl⟩
  · refine ⟨_, readOut_runs hget hopen hrun, ?_⟩
    rw [State.readOut_more hlive hbad hmore]
    exact ⟨⟨s.nextChunk d o, rfl, rfl, rfl, rfl, rfl, rfl⟩, State.modOffer_offers ..⟩
  · refine ⟨_, readOut_runs hget hopen hrun, ?_⟩
    rw [State.readOut_last hlive hbad hlast hbound]
    refine ⟨⟨s.nextChunk d o, rfl, rfl, rfl, rfl, rfl, rfl⟩, ?_⟩
    rw [State.modBank, State.die_modDie]
    exact List.filter_congr fun q _ => by rw [bne, Bool.beq_eq_decide_eq, ← decide_not]

/-- Settles O55: each event by the case that its packet, its entry and its tile are in. -/
theorem fabricEvents : Obligations.FabricEvents := ⟨interestsAtRouters, deliveriesDescend, homesStoreTiles⟩

end Sys2Proof.Machine
end

section
/-! PROOFS. An offer that bears the number of the next one (R108): what refutes O49. -/
namespace Sys2Proof.Machine
open Sys2Proof.Claims

/-! ## A die that has an offer of the next number already -/

/-- One lane at PC 0x1000. Buffer record 0 names 64 bytes of shared memory in format 1, and the pair at k8 holds name 0. -/
def staleGroup : Group :=
  { gid := 1, count := 1, slots := [0], alloc := [64], lanes := [{ x := 0, ctl := { pc := 0x1000 }, g := Vector.replicate 64 0 }],
    k := vput (vput (Vector.replicate 192 0) 1 0x400000) 4 0x10000, size := 64 }
/-- An offer whose number no other offer should get, and whose header has taken a port. -/
def staleOffer : Offer :=
  { id := State.reset.nextId, core := 0, gid := 1, xs := [0], pc := 0xFFC, name := 0, buf := 0, entry := 0, next := 0, open_ := false, slot := none,
    home := .crown 0 0, rank := none, own := 0, hood := false, path := [.router (.middle 0 0)] }
/-- A range entry at device address 0 maps the first page to itself; the name table is at 0x20, and its entry 0 is of a tile of 64 bytes in format 1. -/
def staleState : State :=
  ({ State.reset with cur := .lanes 0 1 0 0x1000, mem := [⟨9, 0x10⟩, ⟨24, 0x13⟩, ⟨35, 0x80⟩, ⟨36, 5⟩, ⟨44, 1⟩, ⟨45, 1⟩] } : State).modDie 0 fun D =>
    { D with active := { D.active with ctx := 1, ntbase := 0x20, groups := [staleGroup], offers := [staleOffer] } }
def staleWho : Who :=
  { d := 0, gid := 1, core := 0, hood := none, all := [0], xs := [0], pc := 0x1000, chainPc := 0x1000, hints := [], prog := 0 }

theorem staleState_ready : Ready staleState (.offer 0 8) staleWho staleGroup where
  who := by rfl
  group := by rfl
  one := rfl
  check := by decide
  sel := by decide
  whole h := absurd rfl h
  free h := by cases h
  point _ h := by cases h
theorem staleGroup_solo : Solo staleGroup staleWho := .inr ⟨0, by decide, by decide⟩

/-! ## What OFFER reads, and what it leaves -/

/-- What a successful access answers. -/
def Acc.getD {α : Type} (z : α) : Acc α → α
  | .ok a => a
  | .fault _ _ => z
def Acc.isOk {α : Type} : Acc α → Bool
  | .ok _ => true
  | .fault _ _ => false
theorem Acc.eq_ok {α : Type} (z : α) {r : Acc α} (h : r.isOk = true) : r = .ok (r.getD z) := by
  cases r with
  | ok a => rfl
  | fault c fa => cases h

/-- The bytes of the entry of name 0, and the state once they have been read. -/
def staleRead : List Byte × State := (staleState.capture (staleState.taking staleWho) 0x20 16).getD ([], staleState)
def staleEntry : BitVec 128 := BitVec.ofNat 128 (ofBytes staleRead.1)
theorem staleState_captures : captures staleState staleWho 0 staleEntry staleRead.2 :=
  ⟨by decide +kernel, staleRead.1, Acc.eq_ok ([], staleState) (by decide +kernel), rfl⟩
theorem staleRead_suits : suits staleRead.2 staleWho 0 (NameEntry.of staleEntry) := by
  unfold suits
  decide +kernel
theorem staleRead_home : staleRead.2.homeOfName 0 (staleRead.2.launchOf 0 staleGroup) 0 (NameEntry.of staleEntry) = .ok (.crown 0 0, none) := by
  decide +kernel
/-- No tile word and no write to come holds the word. -/
theorem staleRead_free : ¬(staleRead.2.tileWrites 0 1 (staleState.selected staleWho) ≠ [] ∨
    let B := staleRead.2.buf staleWho 0
    staleRead.2.lateClash 0 1 B.bound false staleRead.2.nextId ⟨false, some B.space, B.base, B.base + B.extent⟩ = true) := by
  decide +kernel

/-- The paths of the offers of die 0. -/
def State.offerPaths (s : State) : List (List Port) := (s.die 0).active.offers.map (·.path)
def offerPathsAfter : Res → List (List Port)
  | .next s => s.offerPaths
  | _ => []
/-- The word clears the path of every offer of its number. -/
theorem staleState_offers : offerPathsAfter (exec (.offer 0 8) staleState) = [[], []] := by decide +kernel
/-- Apart from its threads a group keeps no offer. -/
theorem State.offerPaths_still (s : State) : (s.still staleWho).offerPaths = s.offerPaths := by
  unfold State.offerPaths State.still State.modGroup
  rw [show staleWho.d = 0 from rfl, State.die_modDie]
  rfl

/-- Refutes O49: its OFFER clause claims that the other offers of the die stay as they were, of every state. Sending the header of the new offer clears the
path of every offer that has its number (`State.sendOffer`), and in `staleState` one of them is an offer that went before and whose header has taken a port.
The words number their offers by `nextId` and count it up, so the state is built by hand: what the clause lacks is the hypothesis that the die has no
offer of the number `nextId`. -/
theorem not_wantAndOffer : ¬ Obligations.WantAndOffer := by
  unfold Obligations.WantAndOffer
  rintro ⟨-, -, hoffer⟩
  obtain ⟨hqueues, -⟩ := hoffer staleState staleWho staleGroup 0 8 staleEntry staleRead.2 (.crown 0 0) staleState_ready staleGroup_solo staleState_captures
    (by decide +kernel) (by decide +kernel) staleRead_suits staleRead_home
  obtain ⟨v, o, p, ⟨t, hexec, hgoes⟩, -, hoffers, -⟩ := hqueues staleRead_free
  have hsame : t.offerPaths = v.offerPaths := by
    rw [← State.offerPaths_still, hgoes.still, State.offerPaths_still]
  have hcleared : t.offerPaths = [[], []] := by
    rw [← staleState_offers]
    exact (congrArg offerPathsAfter hexec).symm
  have hclaimed : v.offerPaths = [[.router (.middle 0 0)], o.path] :=
    congrArg (List.map fun o : Offer => o.path) hoffers
  rw [hsame, hclaimed] at hcleared
  exact absurd hcleared (by simp)
end Sys2Proof.Machine
end
